-- ==== Sys2Proof/Word.lean ====
section
/-! DEFINITION. The word types of the machine (spec 03 R74). -/

namespace Sys2Proof

abbrev Byte := BitVec 8
/-- A set of lanes, bit `l` for lane `l` (R74). -/
abbrev Lanes := BitVec 16
abbrev W32 := BitVec 32
abbrev W64 := BitVec 64
/-- The 128 bytes of a cache line (R170), byte 0 in the low bits. -/
abbrev LineW := BitVec 1024
/-- A set of bytes of a line. -/
abbrev ByteMask := BitVec 128
/-- A table from numbers to values, keys rising; what an absent key reads as is said where the table is read. -/
abbrev NMap (α : Type) := List (Nat × α)

end Sys2Proof
end

