-- ==== Sys2Proof/Machine/Sparse.lean ====
section
/-! DEFINITION. Sparse tables, byte lists, bit fields and byte orders, used by every other file of Machine/. -/

namespace Sys2Proof.Machine

/-! ### Tables with rising keys -/

def mapGet {α : Type} : NMap α → Nat → Option α
  | [], _ => none
  | (k, v) :: m, i => if k = i then some v else mapGet m i
def mapGetD {α : Type} (m : NMap α) (i : Nat) (d : α) : α := (mapGet m i).getD d
def mapSet {α : Type} : NMap α → Nat → α → NMap α
  | [], i, x => [(i, x)]
  | (k, v) :: m, i, x => if k = i then (i, x) :: m else if i < k then (i, x) :: (k, v) :: m else (k, v) :: mapSet m i x
def mapErase {α : Type} : NMap α → Nat → NMap α
  | [], _ => []
  | (k, v) :: m, i => if k = i then m else (k, v) :: mapErase m i
/-- The entry at `i`, if there is one, changed by `f`. -/
def mapMod {α : Type} : NMap α → Nat → (α → α) → NMap α
  | [], _, _ => []
  | (k, v) :: m, i, f => if k = i then (k, f v) :: m else (k, v) :: mapMod m i f
def mapKeys {α : Type} (m : NMap α) : List Nat := m.map (·.1)
def mapVals {α : Type} (m : NMap α) : List α := m.map (·.2)
/-- The table that writes `f i` at every `i` of `is`. -/
def mapSetAll {α : Type} (m : NMap α) (is : List Nat) (f : Nat → α) : NMap α := is.foldl (fun m i => mapSet m i (f i)) m

/-! ### Lists -/

def listMod {α : Type} : List α → Nat → (α → α) → List α
  | [], _, _ => []
  | x :: l, 0, f => f x :: l
  | x :: l, i + 1, f => x :: listMod l i f
def listInsertNat : List Nat → Nat → List Nat
  | [], n => [n]
  | m :: l, n => if n = m then m :: l else if n < m then n :: m :: l else m :: listInsertNat l n
/-- The first element that meets `p`, with the list without it. -/
def takeFirst {α : Type} (p : α → Bool) : List α → Option (α × List α)
  | [] => none
  | x :: l => if p x then some (x, l) else (takeFirst p l).map fun r => (r.1, x :: r.2)
/-- The element whose key `f` is least, the earlier on ties. -/
def leastBy {α : Type} (f : α → Nat) : List α → Option α
  | [] => none
  | x :: l => match leastBy f l with
    | none => some x
    | some y => if f y < f x then some y else some x
def firstSome {α : Type} : List (Option α) → Option α
  | [] => none
  | some x :: _ => some x
  | none :: l => firstSome l

/-! ### Bits and lanes -/

/-- Lanes 0 to 15 of a set, ascending (R25). -/
def lanesOf (m : Lanes) : List Nat := (List.range 16).filter fun l => m.getLsbD l
/-- The set of the lanes of which `f` holds. -/
def laneSet (f : Nat → Bool) : Lanes := (List.range 16).foldl (fun m l => if f l then m ||| (1#16 <<< l) else m) 0#16
def laneBit (l : Nat) : Lanes := 1#16 <<< l
def lowestLane (m : Lanes) : Option Nat := (lanesOf m).head?
def quadOf (l : Nat) : Nat := l / 4
/-- Bits `hi` to `lo` of a number. -/
def bitsOf (w hi lo : Nat) : Nat := w / 2 ^ lo % 2 ^ (hi + 1 - lo)
def bit1 (w i : Nat) : Bool := w / 2 ^ i % 2 == 1
/-- An unsigned value of `n` bits read as two's complement. -/
def signed (n v : Nat) : Int := if v < 2 ^ (n - 1) then (v : Int) else (v : Int) - (2 ^ n : Nat)
/-- Two's complement of `n` bits of an integer. -/
def toBits (n : Nat) (v : Int) : Nat := (v % ((2 ^ n : Nat) : Int)).toNat
def popCount (w : Nat) (n : Nat) : Nat := (List.range n).foldl (fun c i => if bit1 w i then c + 1 else c) 0
/-- The indices of the bits set among the low `n`, ascending. -/
def setBits (w n : Nat) : List Nat := (List.range n).filter fun i => bit1 w i

/-! ### Bytes, little-endian (R15) -/

def leNat : List Byte → Nat
  | [] => 0
  | b :: l => b.toNat + 256 * leNat l
def leBytes : Nat → Nat → List Byte
  | 0, _ => []
  | n + 1, v => BitVec.ofNat 8 v :: leBytes n (v / 256)
/-- `n` bytes of a byte string from `i`, absent bytes 0. -/
def slice (l : List Byte) (i n : Nat) : List Byte := (l.drop i).take n
def natAt (l : List Byte) (i n : Nat) : Nat := leNat (slice l i n)
def lineBytes (w : LineW) : List Byte := (List.range 128).map fun i => w.extractLsb' (8 * i) 8
def lineOf (l : List Byte) : LineW := BitVec.ofNat 1024 (leNat (l.take 128))
/-- Byte `i` of a line. -/
def lineByte (w : LineW) (i : Nat) : Byte := w.extractLsb' (8 * i) 8
def setLineByte (w : LineW) (i : Nat) (b : Byte) : LineW :=
  (w &&& ~~~((255#1024) <<< (8 * i))) ||| ((b.setWidth 1024) <<< (8 * i))
def padTo (n : Nat) (l : List Byte) : List Byte := l ++ List.replicate (n - l.length) 0
def byteRange (i n : Nat) : ByteMask := BitVec.ofNat 128 ((2 ^ n - 1) * 2 ^ i)

/-! ### Byte memory: rising addresses, no entry equal to what an unlisted address reads as -/

/-- The byte an unlisted address reads as (log 5). -/
def emptyByte : Byte := 0#8
def byteGet : List Host.Cell → Nat → Byte
  | [], _ => emptyByte
  | (k, v) :: m, a => if k = a then v else byteGet m a
def byteSet : List Host.Cell → Nat → Byte → List Host.Cell
  | [], a, b => if b = emptyByte then [] else [(a, b)]
  | (k, v) :: m, a, b =>
    if k = a then (if b = emptyByte then m else (a, b) :: m)
    else if a < k then (if b = emptyByte then (k, v) :: m else (a, b) :: (k, v) :: m)
    else (k, v) :: byteSet m a b
def byteGets (m : List Host.Cell) (a n : Nat) : List Byte := (List.range n).map fun i => byteGet m (a + i)
def byteSets (m : List Host.Cell) (a : Nat) : List Byte → List Host.Cell
  | [] => m
  | b :: l => byteSets (byteSet m a b) (a + 1) l
/-- The canonical form, above a lower bound for the first address. -/
def cellsFrom : Nat → List Host.Cell → Bool
  | _, [] => true
  | lo, (k, v) :: m => decide (lo ≤ k) && decide (v ≠ emptyByte) && cellsFrom (k + 1) m
/-- The canonical form of a byte memory. -/
def Memory.wf (m : List Host.Cell) : Bool := cellsFrom 0 m

end Sys2Proof.Machine
end

