-- ==== Sys2Proof/Syntax.lean ====
section
/-! DEFINITION. The instruction set Ademar as data (spec 04 R96-R123) and the events of the rack device
(spec 95): one constructor of `Instr` per row of spec/opcode_table.json. Register fields are numbers; their bounds are
in WellFormed. Event rows have no encoding: their operands name the unit or the data concerned. -/

namespace Sys2Proof

/-- A lane source field (R81): a window register or a bypass latch. -/
inductive Src where
  | v (n : Nat)
  | b (n : Nat)
  deriving DecidableEq, Repr

/-- Rounding modes (R108). -/
inductive Rm where
  | rne | rtz | rup | rdn | rna
  deriving DecidableEq, Repr

/-- Integer conditions (R109). -/
inductive ICond where
  | eq | ne | lt | le | gt | ge | lo | ls | hi | hs
  deriving DecidableEq, Repr

/-- Floating-point conditions (R109). -/
inductive FCond where
  | eq | ne | lt | le | gt | ge | un | ord
  deriving DecidableEq, Repr

/-- Scopes (R104). -/
inductive Scope where
  | core | die | pkg | tray | rack
  deriving DecidableEq, Repr

/-- Access sizes (R107). -/
inductive Size where
  | b8 | b16 | b32 | b64
  deriving DecidableEq, Repr

/-- Conversion types (R110). -/
inductive CvtTy where
  | f64 | f32 | f16 | bf16 | e5m2 | e4m3 | e3m4 | s32 | z32 | s16 | z16 | s8 | z8 | s64 | z64
  deriving DecidableEq, Repr

/-- Operations of `ATOM` and `RED` (R118, R356). -/
inductive AtomOp where
  | add | and | or | xor | min | max | minz | maxz | exch | fadd | add64 | exch64
  deriving DecidableEq, Repr

/-- Ordering forms of `LD` in format MS (R105). -/
inductive LdOrd where
  | relaxed
  | acq (sc : Scope)
  deriving DecidableEq, Repr

/-- Ordering forms of `ST` in format MS (R105): relaxed and release with the `.nol1` bit, or a
reader-count store of count `n` (1 to 16). -/
inductive StOrd where
  | relaxed (nol1 : Bool)
  | rel (sc : Scope) (nol1 : Bool)
  | rc (n : Nat)
  deriving DecidableEq, Repr

/-- Modes of `BRAU` (R362). -/
inductive UMode where
  | always | nz | z
  deriving DecidableEq, Repr

/-- Causes an encoding alone can give an ILLEGAL trap (R123). -/
inductive IllCause where
  | encoding | operand | latchSp
  deriving DecidableEq, Repr

/-- What must hold for a word's other ILLEGAL conditions to be reached (R37, R66, R287): nothing; a skein; a copy-role or a
matrix-role skein or a coach instance; a coach instance only; a converged skein; a skein of one arm; trap mode; a skein for which the
registers named are aligned to the elements of an algebra slot. -/
inductive Need where
  | any | skein | copy | matrix | coach | converged | single | handler
  | aligned (slot : Nat) (regs : List Nat)
  deriving DecidableEq, Repr

/-- One firmware image of a package as the boot chain sees it (R326): whether its Falcon-1024 signature over its
digest verifies is not a property the machine computes from the other fields, so the signature bytes stand here. -/
structure Image where
  content  : List (BitVec 8)
  version  : Nat
  pubKey   : List (BitVec 8)
  sig      : List (BitVec 8)
  deriving DecidableEq, Repr

/-- The instructions and events of the part: one constructor per row of spec/opcode_table.json, in its order. -/
inductive Instr where
  | iadd (d : Nat) (k : Bool) (a : Src) (b : Src)
  | isub (d : Nat) (k : Bool) (a : Src) (b : Src)
  | imul (d : Nat) (k : Bool) (a : Src) (b : Src)
  | imulh (d : Nat) (k : Bool) (a : Src) (b : Src)
  | imulhZ (d : Nat) (k : Bool) (a : Src) (b : Src)
  | imin (d : Nat) (k : Bool) (a : Src) (b : Src)
  | iminZ (d : Nat) (k : Bool) (a : Src) (b : Src)
  | imax (d : Nat) (k : Bool) (a : Src) (b : Src)
  | imaxZ (d : Nat) (k : Bool) (a : Src) (b : Src)
  | land (d : Nat) (k : Bool) (a : Src) (b : Src)
  | lor (d : Nat) (k : Bool) (a : Src) (b : Src)
  | lxor (d : Nat) (k : Bool) (a : Src) (b : Src)
  | shl (d : Nat) (k : Bool) (a : Src) (b : Src)
  | shr (d : Nat) (k : Bool) (a : Src) (b : Src)
  | sar (d : Nat) (k : Bool) (a : Src) (b : Src)
  | iaddc (d : Nat) (k : Bool) (a : Src) (b : Src)
  | mov (d : Nat) (k : Bool) (a : Src)
  | lnot (d : Nat) (k : Bool) (a : Src)
  | ineg (d : Nat) (k : Bool) (a : Src)
  | iabs (d : Nat) (k : Bool) (a : Src)
  | clz (d : Nat) (k : Bool) (a : Src)
  | popc (d : Nat) (k : Bool) (a : Src)
  | brev (d : Nat) (k : Bool) (a : Src)
  | fabs (d : Nat) (k : Bool) (a : Src)
  | fneg (d : Nat) (k : Bool) (a : Src)
  | frcp (d : Nat) (k : Bool) (a : Src)
  | frsq (d : Nat) (k : Bool) (a : Src)
  | fsqrt (d : Nat) (k : Bool) (a : Src)
  | fexp2 (d : Nat) (k : Bool) (a : Src)
  | flog2 (d : Nat) (k : Bool) (a : Src)
  | fsin (d : Nat) (k : Bool) (a : Src)
  | fcos (d : Nat) (k : Bool) (a : Src)
  | fadd (d : Nat) (k : Bool) (a : Src) (b : Src) (rm : Rm)
  | fsub (d : Nat) (k : Bool) (a : Src) (b : Src) (rm : Rm)
  | fmul (d : Nat) (k : Bool) (a : Src) (b : Src) (rm : Rm)
  | dadd (d : Nat) (k : Bool) (a : Src) (b : Src) (rm : Rm)
  | dmul (d : Nat) (k : Bool) (a : Src) (b : Src) (rm : Rm)
  | ffma (d : Nat) (k : Bool) (a : Src) (b : Src) (c : Nat)
  | dfma (d : Nat) (k : Bool) (a : Src) (b : Src) (c : Nat)
  | hfma2 (d : Nat) (k : Bool) (a : Src) (b : Src) (c : Nat)
  | imad (d : Nat) (k : Bool) (a : Src) (b : Src) (c : Nat)
  | bfi (d : Nat) (k : Bool) (a : Src) (b : Src) (c : Nat)
  | fmin (d : Nat) (k : Bool) (a : Src) (b : Src)
  | fmax (d : Nat) (k : Bool) (a : Src) (b : Src)
  | fclass (d : Nat) (k : Bool) (a : Src)
  | hadd2 (d : Nat) (k : Bool) (a : Src) (b : Src)
  | fcmp (d : Nat) (a : Src) (b : Src) (cond : FCond)
  | icmp (d : Nat) (a : Src) (b : Src) (cond : ICond)
  | cvt (d : Nat) (k : Bool) (a : Src) (dt : CvtTy) (st : CvtTy) (rm : Rm)
  | cvtSat (d : Nat) (k : Bool) (a : Src) (dt : CvtTy) (st : CvtTy) (rm : Rm)
  | sel (d : Nat) (k : Bool) (a : Src) (b : Src) (c : Nat)
  | lea (d : Nat) (k : Bool) (a : Src) (b : Src) (sh : Nat)
  | bfx (d : Nat) (k : Bool) (a : Src) (b : Src) (sx : Bool)
  | movi (d : Nat) (k : Bool) (imm : Nat)
  | movh (d : Nat) (k : Bool) (imm : Nat)
  | k2v (d : Nat) (k : Bool) (ka : Nat)
  | v2k (kd : Nat) (a : Src)
  | pget (d : Nat) (k : Bool)
  | pset (a : Src)
  | psetImm (n : Nat)
  | mmovMM (md : Nat) (ma : Nat)
  | mmovMV (md : Nat) (a : Src)
  | mmovVM (d : Nat) (k : Bool) (ma : Nat)
  | mmovMK (md : Nat) (ka : Nat)
  | mmovKM (kd : Nat) (ma : Nat)
  | mlogAnd (md : Nat) (ma : Nat) (mb : Nat)
  | mlogOr (md : Nat) (ma : Nat) (mb : Nat)
  | mlogXor (md : Nat) (ma : Nat) (mb : Nat)
  | mlogAndn (md : Nat) (ma : Nat) (mb : Nat)
  | shfl (d : Nat) (k : Bool) (a : Src) (b : Src) (mode : Nat)
  | voteAny (md : Nat) (ma : Nat)
  | voteAll (md : Nat) (ma : Nat)
  | voteBallot (kd : Nat) (ma : Nat)
  | rdxAdd (kd : Nat) (a : Src)
  | rdxMin (kd : Nat) (a : Src)
  | rdxMax (kd : Nat) (a : Src)
  | rdxFadd (kd : Nat) (a : Src)
  | qbcast (d : Nat) (k : Bool) (a : Src) (n : Nat)
  | qswap (d : Nat) (k : Bool) (a : Src) (n : Nat)
  | qfill (d : Nat) (k : Bool) (a : Src)
  | amul (d : Nat) (a : Nat) (b : Nat) (slot : Nat)
  | amad (d : Nat) (a : Nat) (b : Nat) (slot : Nat)
  | aconj (d : Nat) (a : Nat) (slot : Nat)
  | anorm (d : Nat) (a : Nat) (slot : Nat)
  | sread (reg : Nat) (toK : Bool) (num : Nat)
  | swrite (reg : Nat) (fromK : Bool) (num : Nat)
  | kadd (kd : Nat) (ka : Nat) (kb : Nat)
  | ksub (kd : Nat) (ka : Nat) (kb : Nat)
  | kmul (kd : Nat) (ka : Nat) (kb : Nat)
  | kshf (kd : Nat) (ka : Nat) (kb : Nat)
  | kmov (kd : Nat) (ka : Nat)
  | klogAnd (kd : Nat) (ka : Nat) (kb : Nat)
  | klogOr (kd : Nat) (ka : Nat) (kb : Nat)
  | klogXor (kd : Nat) (ka : Nat) (kb : Nat)
  | klogAndn (kd : Nat) (ka : Nat) (kb : Nat)
  | kcmp (kd : Nat) (ka : Nat) (kb : Nat) (cond : ICond)
  | kmovi (kd : Nat) (h : Nat) (imm : Nat)
  | ld (data : Nat) (bk : Bool) (base : Nat) (sz : Size) (pol : Nat) (off8 : Nat)
  | ldMs (data : Nat) (kb : Nat) (vx : Nat) (sz : Size) (acq : LdOrd) (nol1 : Bool)
  | st (data : Nat) (bk : Bool) (base : Nat) (sz : Size) (pol : Nat) (off8 : Nat)
  | stMs (data : Nat) (kb : Nat) (vx : Nat) (sz : Size) (ord : StOrd)
  | ldsp (data : Nat) (partner : Bool) (base : Nat) (sz : Size) (off8 : Nat)
  | stsp (data : Nat) (partner : Bool) (base : Nat) (sz : Size) (off8 : Nat)
  | kld (kd : Nat) (kb : Nat) (sz : Size) (pol : Nat) (off8 : Nat)
  | kst (ks : Nat) (kb : Nat) (sz : Size) (pol : Nat) (off8 : Nat)
  | atom (d : Nat) (addr : Nat) (data : Nat) (sc : Scope) (op : AtomOp)
  | cas (d : Nat) (addr : Nat) (data : Nat) (sc : Scope) (f : Nat) (w64 : Bool)
  | red (det : Bool) (addr : Nat) (data : Nat) (sc : Scope) (op : AtomOp)
  | pref (cnt : Nat) (kb : Nat) (vx : Nat) (tier : Nat) (bo : Nat) (bound : Bool)
  | wput (d : Nat) (a : Nat) (sm : Nat)
  | wget (d : Nat) (a : Nat) (b : Nat)
  | wname (d : Nat) (a : Nat) (sm : Nat)
  | wrefInc (a : Nat)
  | wrefDec (a : Nat)
  | wswap (d : Nat) (a : Nat) (b : Nat) (sm : Nat)
  | wcopy (a : Nat) (b : Nat)
  | waitcmp (cond : ICond) (sc : Scope) (ka : Nat) (kb : Nat)
  | dqpush (kv : Nat) (km : Nat)
  | dqpop (kd : Nat)
  | tqpush (kq : Nat) (ke : Nat)
  | tqpop (kd : Nat) (kq : Nat)
  | srput (kr : Nat) (ks : Nat) (sc : Scope)
  | srwait (kr : Nat) (ks : Nat)
  | cwait (kc : Nat) (kt : Nat)
  | boarr (kb : Nat)
  | bowait (kb : Nat)
  | dcopy (kc : Nat) (ks : Nat) (kx : Nat)
  | accz (t : Nat) (kc : Nat)
  | accswap (t : Nat)
  | accrd (d : Nat) (k : Bool) (t : Nat) (w : Src)
  | accwr (t : Nat) (w : Src) (a : Src)
  | atab (slot : Nat) (ka : Nat)
  | atabDefault (slot : Nat)
  | growRegs (n : Nat)
  | growTiles (n : Nat)
  | shrinkRegs (n : Nat)
  | shrinkTiles (n : Nat)
  | rswitch (role : Nat)
  | mma (kab : Nat) (span : Bool) (tile : Nat) (slot : Nat) (fl : Nat) (kc : Nat)
  | nop
  | ret
  | exit
  | isync
  | fence (sc : Scope)
  | ofence
  | tfence (sc : Scope)
  | icinv (sc : Scope)
  | bkpt
  | tret
  | trap (n : Nat)
  | bar (n : Nat)
  | jmpi (ka : Nat)
  | jinit (jn : Nat) (imm : Nat)
  | jinitMask (jn : Nat) (c : Nat)
  | jarr (jn : Nat)
  | jwait (jn : Nat)
  | bra (cm : Nat) (neg : Bool) (disp : Nat)
  | braRj (cm : Nat) (neg : Bool) (disp : Nat) (rdist : Nat)
  | brau (kc : Nat) (mode : UMode) (disp : Nat)
  | call (n8 : Nat) (disp : Nat)
  | yield (kct : Nat) (kth : Nat) (cnt : Bool) (disp : Nat)
  | iadd16 (d : Nat) (s : Src)
  | isub16 (d : Nat) (s : Src)
  | and16 (d : Nat) (s : Src)
  | or16 (d : Nat) (s : Src)
  | xor16 (d : Nat) (s : Src)
  | shl16 (d : Nat) (s : Src)
  | shr16 (d : Nat) (s : Src)
  | mov16 (d : Nat) (s : Src)
  | movi16 (d : Nat) (imm : Nat)
  | fadd16 (d : Nat) (s : Src)
  | fsub16 (d : Nat) (s : Src)
  | fmul16 (d : Nat) (s : Src)
  | ffma16 (d : Nat) (s : Src)
  | imad16 (d : Nat) (s : Src)
  | sel16 (d : Nat) (s : Src)
  | lea16 (d : Nat) (s : Src)
  | nop16
  | relayedTrap (bid : Nat)
  | resourceEviction (core : Nat) (tiles : Bool)
  | rcqTail (val : Nat)
  | gridLaunch
  | residentLaunch
  | contextBind
  | contextRelease
  | blockPlacement (die : Nat)
  | residentPlacement (lid : Nat)
  | startTime (bid : Nat)
  | residencyReport (level : Nat) (node : Nat) (lid : Nat)
  | steal (level : Nat) (node : Nat) (lid : Nat)
  | priorityPreemption (lid : Nat)
  | contextSave (ctx : Nat)
  | contextRestore (ctx : Nat)
  | thermalMigration (core : Nat) (temp : Nat)
  | skeinRetire (bid : Nat) (sk : Nat)
  | gridCompletion (lid : Nat)
  | contextFatal (ctx : Nat)
  | heartbeat
  | failover
  | shootdown (pkg : Nat)
  | shootdownDone (pkg : Nat)
  | faultReply (pkg : Nat)
  | pin (pkg : Nat)
  | unpin (pkg : Nat)
  | ingressBind (pkg : Nat)
  | ingressUnbind (pkg : Nat)
  | rwinReg (pkg : Nat)
  | rwinDereg (pkg : Nat)
  | aperture (pkg : Nat)
  | flush (pkg : Nat)
  | apertureAccess (pkg : Nat) (ext : Bool) (pa : Nat) (sz : Size) (wr : Bool) (val : Nat)
  | apertureAmo (pkg : Nat) (pa : Nat) (op : AtomOp) (val : Nat) (lrsc : Bool)
  | hostFence (pkg : Nat) (rw : Bool)
  | registerWrite (pkg : Nat) (off : Nat) (val : Nat)
  | homeRequest (rid : Nat)
  | memoryResponse (rid : Nat) (bad : Bool)
  | faultRecord
  | l1Writeback (core : Nat) (line : Nat)
  | scrub (gran : Nat) (err : Nat)
  | refresh (chan : Nat) (kind : Nat)
  | laneLending (chan : Nat)
  | redCombine (rid : Nat)
  | combineCount (idx : Nat)
  | combineTimer (idx : Nat)
  | holdingBufferSpill (line : Nat)
  | flitReceive (link : Nat) (bytes : List (BitVec 8))
  | stomp (link : Nat)
  | idleFlit (link : Nat) (ack : Nat)
  | nakFlit (link : Nat) (ack : Nat)
  | retryTimeout (link : Nat)
  | retrain (link : Nat)
  | portDown (link : Nat)
  | endToEndNak (rid : Nat)
  | frameIngress (pkg : Nat) (port : Nat) (frame : List (BitVec 8)) (fcs : Bool)
  | uetPacket (pkg : Nat) (ctx : Nat) (va : Nat) (data : List (BitVec 8)) (wr : Bool)
  | ptpMessage (pkg : Nat) (offset : Int)
  | timeFlit (pkg : Nat)
  | grandmasterLoss
  | clockGate (core : Nat)
  | powerGate (core : Nat)
  | hang (core : Nat)
  | monitorPoll (core : Nat)
  | engineHang (core : Nat)
  | engineResetEnd (core : Nat)
  | commandStart (core : Nat) (idx : Nat)
  | commandRetire (core : Nat) (idx : Nat)
  | commandFault (core : Nat) (idx : Nat)
  | accswapExchange (core : Nat) (idx : Nat)
  | copyStart (core : Nat) (idx : Nat)
  | copyRow (core : Nat) (idx : Nat)
  | copyPageFault (core : Nat) (idx : Nat)
  | prefetchArrival (idx : Nat)
  | replayFrame (lid : Nat) (idx : Nat)
  | replayHostStore (lid : Nat) (idx : Nat)
  | rackAssembly
  | firmwareBoot (pkg : Nat) (images : List Image)
  | keyLoad (pkg : Nat) (slot : Nat) (key : Nat) (ctxs : List Nat)
  | attestationReport (pkg : Nat) (nonce : List (BitVec 8)) (ctx : Option Nat)
  | unassignedEncoding (cause : IllCause) (need : Need)
  | reservedPacketType
  | reservedRelayCommand (pkg : Nat)
  | commandFailed (core : Nat) (idx : Nat)
  | retrainingEnd (link : Nat) (ok : Bool)
  | lendingHandshakeEnd (chan : Nat)
  | keySlotClear (pkg : Nat) (slot : Nat)
  deriving DecidableEq, Repr

end Sys2Proof
end

