-- ==== Sys2Proof/Machine/Flags.lean ====
section
/-! DEFINITION. Flags and conditions: the sticky bits of `%status` (03 R90), the integer conditions (04 R109) and the carry of
`IADDC` (17 R389). The floating-point conditions stand in Machine/Float.lean. -/

namespace Sys2Proof.Machine

/-! ### `%status` (R90) -/

def stJLOST : BitVec 7 := 0x01#7
def stKDIV : BitVec 7 := 0x02#7
def stNV : BitVec 7 := 0x04#7
def stDZ : BitVec 7 := 0x08#7
def stOF : BitVec 7 := 0x10#7
def stUF : BitVec 7 := 0x20#7
def stNX : BitVec 7 := 0x40#7
/-- The flag where the condition holds. -/
def flagIf (c : Bool) (f : BitVec 7) : BitVec 7 := if c then f else 0
/-- `%status` after a write of `w`: each 1 of w[6:0] clears its bit (R90, R426). -/
def clearStatus (st : BitVec 7) (w : W64) : BitVec 7 := st &&& ~~~(w.setWidth 7)

/-! ### Conditions (R109) -/

/-- An integer condition between words of one width, signed or unsigned. -/
def icond {w : Nat} (c : ICond) (a b : BitVec w) : Bool :=
  match c with
  | .eq => a == b
  | .ne => a != b
  | .lt => a.slt b
  | .le => a.sle b
  | .gt => b.slt a
  | .ge => b.sle a
  | .lo => a.ult b
  | .ls => a.ule b
  | .hi => b.ult a
  | .hs => b.ule a

/-- The sum with carry of `IADDC`: 33 bits (R389). -/
def carrySum (a b : W32) (c : Bool) : BitVec 33 := a.setWidth 33 + b.setWidth 33 + (if c then 1 else 0)
def carryOut (a b : W32) (c : Bool) : Bool := (carrySum a b c).getLsbD 32

end Sys2Proof.Machine
end

