-- ==== Sys2Proof/Machine/Float.lean ====
section
/-! DEFINITION. Floating-point formats, exact values, rounding and the IEEE operations (05 R133, R135, R146, R147; 04 R108,
R109). Values are computed exactly and rounded once. -/

namespace Sys2Proof.Machine

/-- A binary format: exponent and mantissa widths, bias, and whether it has infinities (R133). -/
structure Fmt where
  eb  : Nat
  mb  : Nat
  bias : Nat
  inf : Bool
  deriving DecidableEq, Repr

def fmt64 : Fmt := ⟨11, 52, 1023, true⟩
def fmt32 : Fmt := ⟨8, 23, 127, true⟩
def fmt16 : Fmt := ⟨5, 10, 15, true⟩
def fmtBf16 : Fmt := ⟨8, 7, 127, true⟩
def fmtE5m2 : Fmt := ⟨5, 2, 15, true⟩
def fmtE4m3 : Fmt := ⟨4, 3, 7, false⟩
def fmtE3m4 : Fmt := ⟨3, 4, 3, false⟩

/-- An exact value: NaN (signalling or not), an infinity, or ± man · 2^exp. -/
inductive FV where
  | nan (signalling : Bool)
  | inf (neg : Bool)
  | fin (neg : Bool) (man : Nat) (exp : Int)
  deriving DecidableEq, Repr

namespace Fmt

def width (f : Fmt) : Nat := 1 + f.eb + f.mb
def expMask (f : Fmt) : Nat := 2 ^ f.eb - 1
/-- The canonical NaN (R135). -/
def qnan (f : Fmt) : Nat :=
  if f.inf then f.expMask * 2 ^ f.mb + 2 ^ (f.mb - 1) else f.expMask * 2 ^ f.mb + (2 ^ f.mb - 1)
def signBit (f : Fmt) (neg : Bool) : Nat := if neg then 2 ^ (f.eb + f.mb) else 0
def infBits (f : Fmt) (neg : Bool) : Nat := f.signBit neg + f.expMask * 2 ^ f.mb
/-- The largest finite magnitude. -/
def maxBits (f : Fmt) (neg : Bool) : Nat :=
  f.signBit neg + if f.inf then f.expMask * 2 ^ f.mb - 1 else f.expMask * 2 ^ f.mb + 2 ^ f.mb - 2
def zeroBits (f : Fmt) (neg : Bool) : Nat := f.signBit neg
/-- The value of a bit pattern (R133). -/
def val (f : Fmt) (w : Nat) : FV :=
  let neg := bit1 w (f.eb + f.mb)
  let e := w / 2 ^ f.mb % 2 ^ f.eb
  let m := w % 2 ^ f.mb
  if e = f.expMask ∧ f.inf then (if m = 0 then .inf neg else .nan (!bit1 w (f.mb - 1)))
  else if e = f.expMask ∧ m = 2 ^ f.mb - 1 then .nan false
  else if e = 0 then .fin neg m (1 - (f.bias : Int) - f.mb)
  else .fin neg (m + 2 ^ f.mb) ((e : Int) - f.bias - f.mb)

end Fmt

/-- Whether a quotient is rounded up in magnitude: sign, odd quotient, remainder, divisor (R108). -/
def roundsUp (rm : Rm) (neg odd : Bool) (r d : Nat) : Bool :=
  if r = 0 then false
  else match rm with
    | .rne => 2 * r > d || (2 * r == d && odd)
    | .rtz => false
    | .rup => !neg
    | .rdn => neg
    | .rna => 2 * r ≥ d
def bitLen (n : Nat) : Nat := if n = 0 then 0 else Nat.log2 n + 1
/-- man · 2^exp rounded to a multiple of 2^u: the quotient and whether it is inexact. -/
def roundTo (rm : Rm) (neg : Bool) (man : Nat) (exp u : Int) : Nat × Bool :=
  if u ≤ exp then (man * 2 ^ (exp - u).toNat, false)
  else
    let d := 2 ^ (u - exp).toNat
    let q := man / d
    let r := man % d
    (if roundsUp rm neg (q % 2 == 1) r d then q + 1 else q, r != 0)

/-- An exact value rounded to a format, with OF, UF and NX (R146): finite overflow gives the infinity or the largest finite
value; `sat` clamps (R148). In a format without infinities an overflow away from zero is the canonical NaN and NV. -/
def Fmt.round (f : Fmt) (rm : Rm) (sat : Bool) (neg : Bool) (man : Nat) (exp : Int) : Nat × BitVec 7 :=
  if man = 0 then (f.zeroBits neg, 0)
  else
    let p := f.mb + 1
    let emin : Int := 1 - f.bias
    let top : Int := bitLen man + exp
    let u : Int := max (top - p) (emin - f.mb)
    let (q, nx) := roundTo rm neg man exp u
    let free := roundTo rm neg man exp (top - p)
    let tiny := decide ((bitLen free.1 : Int) + (top - p) - 1 < emin)
    let (q, u) := if q = 2 ^ p then (2 ^ f.mb, u + 1) else (q, u)
    let sub := decide (q < 2 ^ f.mb)
    let e : Int := if sub then 0 else u + f.mb + f.bias
    let mag : Nat := if sub then q else e.toNat * 2 ^ f.mb + (q - 2 ^ f.mb)
    if mag > f.maxBits false then
      let toward := match rm with
        | .rtz => true
        | .rup => neg
        | .rdn => !neg
        | _ => false
      if sat || toward then (f.maxBits neg, stOF ||| stNX)
      else if f.inf then (f.infBits neg, stOF ||| stNX)
      else (f.qnan, stOF ||| stNX ||| stNV)
    else (f.signBit neg + mag, flagIf nx stNX ||| flagIf (nx && tiny) stUF)

/-- Exact sums and products of finite values. -/
def finInt (neg : Bool) (man : Nat) : Int := if neg then -(man : Int) else man
/-- The exact sum as an integer and its exponent. -/
def sumExact (n1 : Bool) (m1 : Nat) (e1 : Int) (n2 : Bool) (m2 : Nat) (e2 : Int) : Int × Int :=
  let e := min e1 e2
  (finInt n1 m1 * 2 ^ (e1 - e).toNat + finInt n2 m2 * 2 ^ (e2 - e).toNat, e)
/-- The sign of an exact zero sum: that of two like-signed zeros, else − only toward −∞ (R377). -/
def zeroSign (rm : Rm) (n1 n2 : Bool) : Bool := if n1 = n2 then n1 else rm == .rdn
def isSig : FV → Bool
  | .nan s => s
  | _ => false
def isNan : FV → Bool
  | .nan _ => true
  | _ => false
def FV.negate : FV → FV
  | .nan s => .nan s
  | .inf n => .inf (!n)
  | .fin n m e => .fin (!n) m e
def FV.isZero : FV → Bool
  | .fin _ 0 _ => true
  | _ => false
/-- Exact product of two values that are no NaN; none for zero times infinity. -/
def FV.mul : FV → FV → Option FV
  | .inf a, .inf b => some (.inf (a != b))
  | .inf a, .fin b m _ => if m = 0 then none else some (.inf (a != b))
  | .fin a m _, .inf b => if m = 0 then none else some (.inf (a != b))
  | .fin a m e, .fin b n f => some (.fin (a != b) (m * n) (e + f))
  | _, _ => none
/-- A sum of two values rounded once; both NaN-free. -/
def Fmt.addV (f : Fmt) (rm : Rm) : FV → FV → Nat × BitVec 7
  | .inf a, .inf b => if a = b then (f.infBits a, 0) else (f.qnan, stNV)
  | .inf a, _ => (f.infBits a, 0)
  | _, .inf b => (f.infBits b, 0)
  | .fin n1 m1 e1, .fin n2 m2 e2 =>
    let (t, e) := sumExact n1 m1 e1 n2 m2 e2
    if t = 0 then (f.zeroBits (zeroSign rm n1 n2), 0) else f.round rm false (decide (t < 0)) t.natAbs e
  | _, _ => (f.qnan, 0)
/-- A NaN operand: the canonical NaN, NV for a signalling one (R146). -/
def Fmt.nanOf (f : Fmt) (l : List FV) : Nat × BitVec 7 := (f.qnan, flagIf (l.any isSig) stNV)

/-- The IEEE operations on bit patterns (R146). -/
def Fmt.add (f : Fmt) (rm : Rm) (a b : Nat) : Nat × BitVec 7 :=
  let x := f.val a
  let y := f.val b
  if isNan x || isNan y then f.nanOf [x, y] else f.addV rm x y
def Fmt.sub (f : Fmt) (rm : Rm) (a b : Nat) : Nat × BitVec 7 :=
  let x := f.val a
  let y := f.val b
  if isNan x || isNan y then f.nanOf [x, y] else f.addV rm x y.negate
def Fmt.mul (f : Fmt) (rm : Rm) (a b : Nat) : Nat × BitVec 7 :=
  let x := f.val a
  let y := f.val b
  if isNan x || isNan y then f.nanOf [x, y]
  else match x.mul y with
    | none => (f.qnan, stNV)
    | some (.inf n) => (f.infBits n, 0)
    | some (.fin n m e) => f.round rm false n m e
    | some (.nan _) => (f.qnan, 0)
/-- Fused: 0 × ∞ is invalid also beside a quiet NaN (R371, R382). -/
def Fmt.fma (f : Fmt) (rm : Rm) (a b c : Nat) : Nat × BitVec 7 :=
  let x := f.val a
  let y := f.val b
  let z := f.val c
  if isNan x || isNan y then f.nanOf [x, y, z]
  else match x.mul y with
    | none => (f.qnan, stNV)
    | some q => if isNan z then f.nanOf [z] else f.addV rm q z
/-- Integer square root by digits: the largest r with r² ≤ n. -/
def isqrtAux (n : Nat) : Nat → Nat → Nat
  | 0, r => r
  | k + 1, r => let t := r + 2 ^ k; if t * t ≤ n then isqrtAux n k t else isqrtAux n k r
def isqrt (n : Nat) : Nat := isqrtAux n (bitLen n / 2 + 1) 0
/-- √ correctly rounded to nearest even; −0 gives −0, a negative operand NaN and NV (R149). -/
def Fmt.sqrt (f : Fmt) (a : Nat) : Nat × BitVec 7 :=
  match f.val a with
  | .nan s => (f.qnan, flagIf s stNV)
  | .inf true => (f.qnan, stNV)
  | .inf false => (f.infBits false, 0)
  | .fin n m e =>
    if m = 0 then (f.zeroBits n, 0)
    else if n then (f.qnan, stNV)
    else
      let g := 2 * (f.mb + 3)
      let m' := m * 2 ^ (if e % 2 = 0 then g else g + 1)
      let e' := if e % 2 = 0 then e - g else e - g - 1
      let r := isqrt m'
      if r * r = m' then f.round .rne false false r (e' / 2) else f.round .rne false false (2 * r + 1) (e' / 2 - 1)

/-! ### Comparison, minimum, maximum, class -/

/-- Exact order of two values that are no NaN: negative, zero or positive. -/
def FV.cmp : FV → FV → Int
  | .inf a, .inf b => if a = b then 0 else if a then -1 else 1
  | .inf a, _ => if a then -1 else 1
  | _, .inf b => if b then 1 else -1
  | .fin n1 m1 e1, .fin n2 m2 e2 => (sumExact n1 m1 e1 (!n2) m2 e2).1
  | _, _ => 0
def FV.neg? : FV → Bool
  | .nan _ => false
  | .inf n => n
  | .fin n _ _ => n
/-- `FCMP` (R379). -/
def fcondOf (c : FCond) (a b : Nat) : Bool × BitVec 7 :=
  let x := fmt32.val a
  let y := fmt32.val b
  let un := isNan x || isNan y
  let sig := isSig x || isSig y
  let o := x.cmp y
  match c with
  | .eq => (!un && decide (o = 0), flagIf sig stNV)
  | .ne => (un || decide (o ≠ 0), flagIf sig stNV)
  | .lt => (!un && decide (o < 0), flagIf un stNV)
  | .le => (!un && decide (o ≤ 0), flagIf un stNV)
  | .gt => (!un && decide (o > 0), flagIf un stNV)
  | .ge => (!un && decide (o ≥ 0), flagIf un stNV)
  | .un => (un, flagIf sig stNV)
  | .ord => (!un, flagIf sig stNV)
/-- `FMIN` and `FMAX` (R383): −0 below +0; a NaN yields the other. -/
def fminmax (mx : Bool) (a b : W32) : W32 × BitVec 7 :=
  let x := fmt32.val a.toNat
  let y := fmt32.val b.toNat
  let nv := flagIf (isSig x || isSig y) stNV
  if isNan x && isNan y then (BitVec.ofNat 32 fmt32.qnan, nv)
  else if isNan x then (b, nv)
  else if isNan y then (a, nv)
  else
    let o := x.cmp y
    let less := decide (o < 0) || (decide (o = 0) && x.neg? && !y.neg?)
    (if less != mx then a else b, nv)
/-- The class bit of `FCLASS` (R147). -/
def fclassOf (a : W32) : W32 :=
  let e := a.toNat / 2 ^ 23 % 256
  let m := a.toNat % 2 ^ 23
  let n := a.getLsbD 31
  let i :=
    if e = 255 then (if m = 0 then (if n then 0 else 7) else if bit1 m 22 then 9 else 8)
    else if e = 0 then (if m = 0 then (if n then 3 else 4) else (if n then 2 else 5))
    else (if n then 1 else 6)
  1#32 <<< i

/-! ### The operations of the lane instructions -/

def w32 (r : Nat × BitVec 7) : W32 × BitVec 7 := (BitVec.ofNat 32 r.1, r.2)
def fadd32 (rm : Rm) (a b : W32) : W32 × BitVec 7 := w32 (fmt32.add rm a.toNat b.toNat)
def fsub32 (rm : Rm) (a b : W32) : W32 × BitVec 7 := w32 (fmt32.sub rm a.toNat b.toNat)
def fmul32 (rm : Rm) (a b : W32) : W32 × BitVec 7 := w32 (fmt32.mul rm a.toNat b.toNat)
def ffma32 (a b c : W32) : W32 × BitVec 7 := w32 (fmt32.fma .rne a.toNat b.toNat c.toNat)
def w64 (r : Nat × BitVec 7) : W64 × BitVec 7 := (BitVec.ofNat 64 r.1, r.2)
def dadd64 (rm : Rm) (a b : W64) : W64 × BitVec 7 := w64 (fmt64.add rm a.toNat b.toNat)
def dmul64 (rm : Rm) (a b : W64) : W64 × BitVec 7 := w64 (fmt64.mul rm a.toNat b.toNat)
def dfma64 (a b c : W64) : W64 × BitVec 7 := w64 (fmt64.fma .rne a.toNat b.toNat c.toNat)
/-- Two binary16 halves, each on its own, flags ORed (R386). -/
def halves2 (f : Nat → Nat → Nat → Nat × BitVec 7) (a b c : W32) : W32 × BitVec 7 :=
  let lo := f (a.toNat % 65536) (b.toNat % 65536) (c.toNat % 65536)
  let hi := f (a.toNat / 65536) (b.toNat / 65536) (c.toNat / 65536)
  (BitVec.ofNat 32 (lo.1 + 65536 * hi.1), lo.2 ||| hi.2)
def hadd2Of (a b : W32) : W32 × BitVec 7 := halves2 (fun x y _ => fmt16.add .rne x y) a b 0
def hfma2Of (a b c : W32) : W32 × BitVec 7 := halves2 (fun x y z => fmt16.fma .rne x y z) a b c

end Sys2Proof.Machine
end

