-- ==== Sys2Proof/Config.lean ====
section
/-! DEFINITION. What is fixed for the part (spec 00 R2, R11; 05 R136, R151) and the free values of what the spec leaves open:
opaque functions of a counter or of operands, so that nothing can be proved of the values they give (log 4). -/

namespace Sys2Proof.Config

/-- An unspecified 32-bit value, one for each number. -/
opaque freeWord : Nat → BitVec 32
/-- An unspecified 64-bit value, one for each number. -/
opaque freeDouble : Nat → BitVec 64
/-- The public key by which a firmware image, given its content, checks the image after it (R326). -/
opaque nextKey : List (BitVec 8) → List (BitVec 8)
/-- The shed threshold that a package's firmware sets for its cores (R259); the spec gives no value. -/
opaque shedAt : Nat → Nat
/-- An unspecified byte, one for each number. -/
opaque freeByte : Nat → BitVec 8
/-- The result of a transcendental instruction (R149): a fixed function of the operation and the input bits. The meaning
keeps it inside the error bound the spec states. -/
opaque transcendental : Nat → BitVec 32 → BitVec 32
/-- Whether a Falcon-1024 signature over a SHAKE256 digest verifies under a public key (R326): message digest, key,
signature. -/
opaque falconVerify : List (BitVec 8) → List (BitVec 8) → List (BitVec 8) → Bool
/-- The Falcon-1024 signature of a package's device identity key over a report (R328): serial number, digest. -/
opaque falconSign : Nat → List (BitVec 8) → List (BitVec 8)
/-- The SHAKE256 digest of the first image's public key that is fused into the part (R326). -/
opaque fusedKeyDigest : Nat → List (BitVec 8)

/-- `%gen` (03 R88). -/
def gen : Nat := 7
/-- `%feat` of the variants 0 (7240), 1 (7220) and 2 (7240T) (R8). -/
def feat : Nat → Nat
  | 0 => 0x84F
  | 1 => 0x1042F
  | _ => 0x2084C
/-- Compute dies of a package (R2). -/
def dies : Nat → Nat
  | 1 => 2
  | _ => 4
/-- HBM stacks of a package (R2). -/
def nstack : Nat → Nat
  | 1 => 8
  | _ => 16
def coresPerDie : Nat := 48
/-- Packages of a full rack device and packages of a tray (R11). -/
def packages : Nat := 128
def perTray : Nat := 4
/-- Registers per lane a core can allot to its skeins: 768 KiB of 32-bit registers in rows of sixteen lanes (R11). -/
def regRows : Nat := 12288
def slotsPerPartition : Nat := 24
def tilesPerCore : Nat := 16
def scratchPerCore : Nat := 1048576

/-- Q4N level numerators (R136). -/
def q4n : Nat → Int
  | 0 => -256 | 1 => -181 | 2 => -139 | 3 => -107 | 4 => -80 | 5 => -55 | 6 => -33 | 7 => -11
  | 8 => 11 | 9 => 33 | 10 => 55 | 11 => 80 | 12 => 107 | 13 => 139 | 14 => 181 | _ => 256

/-- One row of a product table (R151): target and sign, 1 plus, 3 minus, 0 zero. -/
def entry (k : Nat) : Nat := k + 0x08
def minus (k : Nat) : Nat := k + 0x18

/-- A table image (R152): DIM, CONJ, VERSION 1, then the rows, each padded to 8 entries. -/
def image (d conj : Nat) (rows : List (List Nat)) : List Nat :=
  [d, conj, 1, 0] ++ List.replicate 60 0
    ++ ((rows ++ List.replicate (8 - rows.length) []).map fun (r : List Nat) => r ++ List.replicate (8 - r.length) 0).flatten

def real : List Nat := image 1 0 [[entry 0]]
def cplx : List Nat := image 2 0x02 [[entry 0, entry 1], [entry 1, minus 0]]
def splx : List Nat := image 2 0x02 [[entry 0, entry 1], [entry 1, entry 0]]
def dual : List Nat := image 2 0x02 [[entry 0, entry 1], [entry 1, 0]]
def quat : List Nat := image 4 0x0E
  [[entry 0, entry 1, entry 2, entry 3], [entry 1, minus 0, entry 3, minus 2],
   [entry 2, minus 3, minus 0, entry 1], [entry 3, entry 2, minus 1, minus 0]]
def ga3 : List Nat := image 8 0xF0
  [[entry 0, entry 1, entry 2, entry 3, entry 4, entry 5, entry 6, entry 7],
   [entry 1, entry 0, entry 4, entry 5, entry 2, entry 3, entry 7, entry 6],
   [entry 2, minus 4, entry 0, entry 6, minus 1, minus 7, entry 3, minus 5],
   [entry 3, minus 5, minus 6, entry 0, entry 7, minus 1, minus 2, entry 4],
   [entry 4, minus 2, entry 1, entry 7, minus 0, minus 6, entry 5, minus 3],
   [entry 5, minus 3, minus 7, entry 1, entry 6, minus 0, minus 4, entry 2],
   [entry 6, entry 7, minus 3, entry 2, minus 5, entry 4, minus 0, minus 1],
   [entry 7, entry 6, minus 5, entry 4, minus 3, entry 2, minus 1, minus 0]]

/-- The preloaded table of a slot; slots 6 and 7 are REAL (R151). -/
def preloaded : Nat → List Nat
  | 0 => real
  | 1 => cplx
  | 2 => splx
  | 3 => dual
  | 4 => quat
  | 5 => ga3
  | _ => real

end Sys2Proof.Config
end

