-- ==== Sys2Proof/Machine/State.lean ====
section
/-! DEFINITION. The state of a rack device, as plain data: everything the spec gives the machine, and the model's own
agenda, issuer and free-value counter. Sparse tables (`NMap`) hold what differs from the value an absent key reads as; that
value stands where the table is read (Machine/Ops.lean). INVENTORY.md names the rule of each field. -/

namespace Sys2Proof.Machine

/-- Why the machine stops. -/
inductive Fault where
  /-- `exec` of a word's instruction in a state whose current issuer is none, or names a skein, arm or coach instance that
  does not exist or is not issuing. No step raises it: a step runs a word only for an issuer it has prepared. Safe. -/
  | noIssuer
  deriving DecidableEq, Repr

/-- Why an instruction has no meaning. -/
inductive Refusal where
  /-- An instruction whose meaning is not written yet, by its mnemonic. Safe. -/
  | notModelled (mnemonic : String)
  deriving DecidableEq, Repr

/-- Who issues: an arm of a skein of a placed block, or a block's coach instance. -/
inductive Who where
  | skein (bid sk arm : Nat)
  | coach (bid : Nat)
  deriving DecidableEq, Repr

/-! ### Traps (12 R285, R288, R289) -/

inductive TrapCode where
  | illegal | unitAbsent | staleLatch | windowOverflow | windowUnderflow | misaligned | pageFault | protection | race
  | detIllegal | engineFault | engineReset | poison | integrity | copyFault | swatchDangling | algebraTable | planeAlign
  | software | breakpoint | hang | contextFatal
  deriving DecidableEq, Repr

inductive Cause where
  | none | encoding | operand | role | diverged | divergeDepth | joinBusy | joinOffset | reach | windowDepth | link
  | windowPath | latchSp | span | ring | queue | boOrder | scratchBound | noncanon | nohome | notmapped | format | key
  | write | exec | cls | nopool | unresolved | instr | partner | phase | shadow | spill | window | replay | order | scratch
  | global | reduce | check | poisoned | tileReturned | lost | nested | unhandled | register | restore | integrity
  | recordFull | dangling | save
  deriving DecidableEq, Repr

/-- The other access of a RACE (12 R289 `k4`-`k6`, 11 R277). Kinds: 0 read, 1 write, 2 atomic, 3 `RED.det`. -/
structure RaceInfo where
  off    : Nat
  plane  : Nat
  sk     : Nat
  lane   : Nat
  coach  : Bool
  blk    : Nat
  kThis  : Nat
  kOther : Nat
  deriving DecidableEq, Repr

/-- A trap condition met by an instruction: what its record will hold beside the place and the time. -/
structure Trap where
  code   : TrapCode
  cause  : Cause
  mask   : Lanes
  masked : Bool
  next   : Bool
  addr   : W64
  aux    : W32
  off    : Option Nat
  race   : Option RaceInfo
  deriving DecidableEq, Repr

/-! ### Paths, arms, joins (02) -/

/-- A lane's failure at a home, in the pass of a plane (R167, R168, R287 step 10); `whole` that a uniform access failed for the path
(R397). -/
structure LaneFail where
  lane  : Nat
  plane : Nat
  code  : TrapCode
  cause : Cause
  addr  : Nat
  race  : Option RaceInfo
  whole : Bool := false
  deriving DecidableEq, Repr

/-- The latches of a bank: valid bits and the entries, latch `i` of lane `l` at `16 i + l` (R82). -/
structure Latches where
  valid : BitVec 8
  ent   : NMap W64
  deriving DecidableEq, Repr

/-- How the next issue at the path's offset begins when it is a replay (R292, R168): from a plane, for some lanes only, the
latch bank before a push already made at the offset, planes already given by `PSET`; `redo` the planes whose passes failed, where
the others have been served. -/
structure Again where
  plane  : Nat
  lanes  : Option Lanes
  pushed : Option Latches
  pset   : NMap Nat
  fails  : List LaneFail
  redo   : Option (List Nat) := none
  deriving DecidableEq, Repr

/-- A path (R58): where it fetches next, its lanes and the window base recorded with it; `last` the offset of the last instruction it
executed (R52); `mis` says that it was released from a join with a base other than B (R76); `again` how it goes on where it gave way
while an instruction of it waited (R47). -/
structure Path where
  off   : Nat
  lanes : Lanes
  base  : Nat
  last  : Nat := 0
  mis   : Bool := false
  again : Option Again := none
  deriving DecidableEq, Repr

/-- An entry of a serial stack: a pending path or a rejoin marker (R58). -/
inductive Entry where
  | path (p : Path)
  | marker (rj : Nat) (arrived : Lanes) (base : Nat)
  deriving DecidableEq, Repr

structure Group where
  lanes : Lanes
  arm   : Nat
  base  : Nat
  deriving DecidableEq, Repr

/-- A join register (R67); H is the union of the groups, oldest first. -/
structure JoinReg where
  e      : Lanes
  a      : Lanes
  pd     : Lanes
  groups : List Group
  w      : Nat
  deriving DecidableEq, Repr

/-- What a parked issuer waits for (R93); `fault` carries the fault mask, the VA of the lowest faulting lane and
RESUMED. -/
inductive Wait where
  | bar (n : Nat)
  | cwait
  | waitcmp
  | grow (tiles : Bool) (amount : Nat)
  | tqpop (q : Nat)
  | tqpush (q : Nat)
  | dqpop
  | yield
  | fault (mask : Lanes) (va : Nat) (resumed : Bool)
  | srwait
  | bowait
  | dqpush
  | mqueue
  | copyLimit
  deriving DecidableEq, Repr

/-- The instruction in progress at one offset (R54, R55): the plane sets and execute mask taken at first issue, the words
read, the planes not yet served (the head is being served), the latch bank before the chain was pushed at this offset, the lanes that failed so
far, the planes given by `PSET`, the lanes a replay covers. -/
structure Issue where
  off    : Nat
  len    : Nat
  exec   : Lanes
  sets   : List (Nat × Lanes)
  words  : List (Nat × Nat)
  rest   : List (Nat × Lanes)
  pushed : Option Latches
  fails  : List LaneFail
  pset   : NMap Nat
  replay : Option Lanes
  redo   : Option (List Nat) := none
  deriving DecidableEq, Repr

/-- A loop buffer: range, planes, the halfwords held, stale mark (R73). -/
structure LoopBuf where
  lo     : Nat
  hi     : Nat
  planes : List Nat
  halves : NMap (BitVec 16)
  stale  : Bool
  deriving DecidableEq, Repr

/-- What an arm or coach instance knows of stores, by their numbers in its context (R210): those up to `acq` stand before its last acquire,
those up to `fence` before the acquire that came before its last `OFENCE`, and of each lane those up to `mine` before that lane's last
`OFENCE`. -/
structure Marks where
  acq   : Nat := 0
  fence : Nat := 0
  mine  : NMap Nat := []
  deriving DecidableEq, Repr

structure Arm where
  path     : Option Path
  stack    : List Entry
  complete : Bool
  arrived  : Lanes
  split    : Lanes
  ks       : NMap W64
  wait     : Option Wait
  hold     : Option Nat
  issue    : Option Issue
  again    : Option Again
  lb       : Option LoopBuf
  sw       : Bool
  seen     : Nat
  marks    : Marks := {}
  deriving DecidableEq, Repr

/-- What a trap entry sets aside (R289), with the index of the trapping arm and of the arm that issued last (R64). -/
structure Frame where
  arms    : List Arm
  rejoin  : Nat
  planes  : NMap Nat
  latch   : Latches
  m0      : Lanes
  arm     : Nat
  ranArm  : Nat
  deriving DecidableEq, Repr

/-- A trap held until it can be taken (R290, R291, R293). `cls` 0 precise, 1 deferred, 2 relayed. -/
structure Pending where
  trap  : Trap
  cls   : Nat
  coach : Bool
  arm   : Nat
  plane : Nat
  off   : Nat
  deriving DecidableEq, Repr

/-- Dropped stores not yet reported (R178): VA, count, offset and home channel of the earliest; VA, count and home of the others. -/
structure Deferred where
  va    : Nat
  count : Nat
  off   : Nat
  home  : Nat
  more  : List (Nat × Nat × Nat) := []
  deriving DecidableEq, Repr

/-- A clock carried by a release of a thread of a DET launch (R271): who released and where, its clock over the skeins of its
block, and what it knew of threads of other blocks; the core and the scope of the release (R201), and what was known only for locations
homed in one tray (R195), by thread and tray. -/
structure Carry where
  lid   : Nat
  blk   : Nat
  sk    : Nat
  off   : Nat
  plane : Nat
  vc    : List Nat
  far   : NMap Nat
  core  : Nat := 0
  scope : Nat := 0
  near  : NMap Nat := []
  deriving DecidableEq, Repr

/-- The last release that wrote a byte (R201, R203, R211): its scope and, in a DET launch, its clock; `fences` the release fences that
stand before a plain store, each with its scope; `counted` that completions have been counted since a store (R211). -/
structure Sync where
  scope   : Nat
  core    : Nat
  carry   : Option Carry
  fences  : List (Nat × Carry) := []
  counted : Bool := false
  deriving DecidableEq, Repr

/-- Phase and vector clock of a skein or coach instance of a DET block (R271). -/
structure DetClock where
  phase : Nat
  vc    : List Nat
  deriving DecidableEq, Repr

/-- Where a skein is in its life (R42); PARKED and TRAP follow from its arms and frame. -/
inductive Life where
  | live | saved | draining | retired
  deriving DecidableEq, Repr

/-- The register window (R75): allotment, reach, base, spill depth. -/
structure Win where
  allot : Nat
  reach : Nat
  base  : Nat
  spill : Nat
  deriving DecidableEq, Repr

structure SkRegs where
  lanes  : NMap W32
  masks  : NMap Lanes
  joins  : NMap JoinReg
  latch  : Latches
  planes : NMap Nat
  exited : Lanes
  status : BitVec 7
  deriving DecidableEq, Repr

structure SkMisc where
  part   : Nat
  region : Nat
  pend   : List Pending
  defer  : Option Deferred
  bo     : Option (Nat × Nat)
  det    : DetClock
  ord    : NMap Nat
  ranArm : Nat
  evict  : Option Nat
  arrs   : NMap Nat := []
  deriving DecidableEq, Repr

structure Skein where
  idx    : Nat
  role   : Nat
  win    : Win
  r      : SkRegs
  arms   : List Arm
  rejoin : Nat
  life   : Life
  frame  : Option Frame
  x      : SkMisc
  deriving DecidableEq, Repr

structure Coach where
  off   : Nat
  len   : Nat
  last  : Nat
  ks    : NMap W64
  wait  : Option Wait
  hold  : Option Nat
  ended : Bool
  held  : Option Trap
  defer : Option Deferred
  det   : DetClock
  ord   : NMap Nat
  seen  : Nat
  marks : Marks := {}
  deriving DecidableEq, Repr

/-! ### Blocks (01, 03 R92) -/

/-- Shadow of a 4-byte scratchpad word (R272). -/
structure Shadow where
  wv : Bool
  ws : Nat
  wp : Nat
  rv : Bool
  rs : Nat
  rp : Nat
  sh : Bool
  se : Nat
  deriving DecidableEq, Repr

structure Tile where
  work   : NMap W32
  vis    : NMap W32
  pWork  : List Nat
  pVis   : List Nat
  failed : Option (Nat × Cause)
  lost   : Option Nat
  deriving DecidableEq, Repr

structure DqEnt where
  value  : W64
  mask   : Lanes
  popped : Lanes
  carry  : Option Carry
  deriving DecidableEq, Repr

/-- A block's window: per byte the last store by a thread, as its number, its issuer's key and its lanes, and the number of the last one by
a dray (R210, R212); poisoned words, shadow, marks of releases. -/
structure Scratch where
  size   : Nat
  bytes  : List Host.Cell
  poison : List Nat
  shadow : NMap Shadow
  stored : NMap (Nat × Nat × Nat)
  syncs  : NMap Sync
  engine : NMap Nat := []
  deriving DecidableEq, Repr

structure BlkId where
  bid     : Nat
  lid     : Nat
  ctx     : Nat
  seq     : Nat
  idx     : Nat
  key     : Nat
  core    : Nat
  span    : Nat
  partner : Option Nat
  deriving DecidableEq, Repr

structure Block where
  id      : BlkId
  placed  : Nat
  ps      : Scratch
  ntiles  : Nat
  tiles   : NMap Tile
  evicted : Nat
  dq      : List DqEnt
  bars    : NMap Lanes
  skeins  : List Skein
  coach   : Option Coach
  ncmd    : Nat
  ncopy   : Nat
  epoch   : Nat
  held    : Bool
  deriving DecidableEq, Repr

/-! ### Cores, dies, packages, trays -/

/-- A cache line: tag (`none`: shared between contexts), VA, bytes, valid and dirty bytes, the leaf's W, X and CACHE bits, first to
evict, the translation under which it was read (channel, local address, leaf and key; R169), and bytes poisoned by a bad integrity tag
(R310). -/
structure CLine where
  tag   : Option Nat
  va    : Nat
  data  : LineW
  valid : ByteMask
  dirty : ByteMask
  w     : Bool
  first : Bool
  x     : Bool := false
  cache : Nat := 0
  old   : Option (Nat × Nat × W64 × Nat) := none
  bad   : ByteMask := 0
  deriving DecidableEq, Repr

/-- A matrix queue entry (R296): kind 0 `MMA`, 1 `ACCZ`, 2 pending `ACCSWAP`; state 0 QUEUED, 1 RUNNING, 2 FAULTED.
`off` is the offset of its instruction, `seq` and `mine` its issuer's marks at issue (R210), `recs` both records and codebook lines as read
at its start (R141, R225), to be read again where `reread` (R296), `since` the time of its start. -/
structure MCmd where
  bid   : Nat
  num   : Nat
  kind  : Nat
  tile  : Nat
  slot  : Nat
  fl    : Nat
  span  : Bool
  who   : Nat
  arm   : Nat
  off   : Nat
  ka    : W64
  kb    : W64
  kc    : W64
  state : Nat
  prog  : Nat
  table : List Nat
  seq   : Nat
  det   : Option Carry
  recs  : Option (List Nat) := none
  since : Nat := 0
  mine  : NMap Nat := []
  reread : Bool := false
  deriving DecidableEq, Repr

/-- A copy (R296): state 0 queued, 1 running, 2 faulted, 3 done but for its counter; `recs` both records as read at its start (R370), to be
read again where `reread`, `va` where it faulted (R300). -/
structure Copy where
  bid   : Nat
  num   : Nat
  ks    : W64
  kx    : W64
  kc    : W64
  who   : Nat
  off   : Nat
  state : Nat
  prog  : Nat
  seq   : Nat
  abort : Bool
  det   : Option Carry
  recs  : Option Nat := none
  reread : Bool := false
  va    : Nat := 0
  deriving DecidableEq, Repr

/-- A counter increment, or the setting of its FAULT bit, that met a translation fault and waits for the driver (R348, R230). -/
structure IncWait where
  bid    : Nat
  num    : Nat
  isCopy : Bool
  kc     : W64
  who    : Nat
  arm    : Nat
  off    : Nat
  sc     : Nat
  det    : Option Carry
  fault  : Bool := false
  deriving DecidableEq, Repr

/-- A request of the grant procedure (R45); `back` is the evicted amount it carries. -/
structure Grant where
  who    : Who
  bid    : Nat
  sk     : Nat
  tiles  : Bool
  amount : Nat
  parked : Bool
  back   : Nat := 0
  deriving DecidableEq, Repr

/-- An outstanding bound prefetch whose arrival is still to come (R235). -/
structure PrefArr where
  bid  : Nat
  sk   : Nat
  arm  : Nat
  obj  : Nat
  deriving DecidableEq, Repr

/-- A block code of a scale cache with its super-scale (R140): context, tensor identifier and block number are its tag, `area` the scale
area it was read from. -/
structure ScaleEnt where
  ctx  : Nat
  tid  : Nat
  blk  : Nat
  area : Nat
  code : Nat
  sup  : Nat
  deriving DecidableEq, Repr

structure Core where
  ctx     : Option Nat
  slots   : NMap (List Nat)
  l1      : List CLine
  icache  : List CLine
  mq      : List MCmd
  reset   : Option Nat
  copies  : List Copy
  incs    : List IncWait
  scales  : List ScaleEnt
  mons    : List (Who × Nat)
  grants  : List Grant
  prefs   : List PrefArr
  gate    : Nat
  idle    : Nat
  hangAt  : Nat
  temp    : Nat
  woke    : Nat := 0
  deriving DecidableEq, Repr

/-- A die: its RDC, the lines of its L2 and those of them first to evict (R173), its spill pool. -/
structure Die where
  rdc    : List CLine
  l2     : List Nat
  spills : Nat
  early  : List Nat := []
  deriving DecidableEq, Repr

/-- A channel translation unit's leaf (R167, R169). -/
structure Leaf where
  ctx    : Nat
  va     : Nat
  size   : Nat
  entry  : W64
  pinned : Bool
  deriving DecidableEq, Repr

/-- A memory channel: its CTU store, lending (0 none, 1 handshake, 2 lending to, 3 reclaiming), refresh and scrub; `past` the
translations that left the store for want of room, which stand until a shootdown (R169). -/
structure Chan where
  leaves  : List Leaf
  lend    : Nat
  until_  : Nat
  last    : Nat
  inited  : Bool
  selfRef : Bool
  scrub   : Nat
  past    : List Leaf := []
  deriving DecidableEq, Repr

structure Binding where
  port  : Nat
  index : Nat
  etype : Nat
  vlan  : Nat
  dmac  : List Byte
  flags : Nat
  lid   : Nat
  seq   : Nat
  ctx   : Nat
  blk   : Nat
  rcb   : Nat
  slots : Nat
  slotb : Nat
  tq    : Nat
  count : Nat
  deriving DecidableEq, Repr

structure KeySlot where
  key  : Nat
  ctxs : List Nat
  deriving DecidableEq, Repr

/-- The host die of a package: CMD, the command that CMD_GO started, apertures, ingress, keys, firmware, the last value a host
read, the package's variant where it is not the rack's, when its last TIME flits went out (R322), and the data that its last Ultra
Ethernet packet read (R319). -/
structure HostDie where
  cmd      : List Byte
  status   : Nat
  done     : Bool
  go       : Option (List Byte)
  apert    : NMap (Nat × Nat)
  binds    : List Binding
  keys     : NMap KeySlot
  booted   : Bool
  recovery : Bool
  digests  : List (List Byte)
  versions : List Nat
  rollback : Nat
  serial   : Nat
  report   : List Byte
  rd       : W64
  variant  : Option Nat
  flitAt   : Nat := 0
  uet      : List Byte := []
  deriving DecidableEq, Repr

/-- A link port of a package (R308): `state` 0 up, 1 retraining, 2 down; the retry buffer, flit types and payloads that wait for
room in it, the packet being received, what went out and the packets accepted, the time of the last progress, and the acknowledged flits
of a packet whose last flit is not. Ports of a switch stand in the same table from 2^32 on (R309). -/
structure Port where
  txSeq    : Nat
  retry    : List (List Byte)
  waiting  : List (Nat × List Byte)
  rxSeq    : Nat
  nakSent  : Bool
  resends  : Nat
  fails    : Nat
  state    : Nat
  inPkt    : List Byte
  sent     : List (List Byte)
  accepted : List (List Byte)
  ids      : List Nat
  since    : Nat := 0
  begun    : List (List Byte) := []
  deriving DecidableEq, Repr

/-- An issuer of an update (R313): block, skein, offset, plane and lanes. -/
structure Issuer where
  bid   : Nat
  ix    : Nat
  off   : Nat
  plane : Nat := 0
  mask  : Lanes := 0
  deriving DecidableEq, Repr

/-- A partial of a switch atomic unit (R313). -/
structure Partial where
  ctx   : Nat
  va    : Nat
  op    : Nat
  value : W64
  count : Nat
  first : Nat
  froms : List Issuer
  deriving DecidableEq, Repr

structure Tray where
  wins   : NMap (Nat × Nat × Nat)
  parts  : List Partial
  slices : List CLine
  dir    : List (Nat × Nat)
  deriving DecidableEq, Repr

/-! ### Contexts, launches, relays -/

structure CtxDesc where
  maxpri : Nat
  exok   : Bool
  hangms : Nat
  root   : W64
  save   : Nat
  pool   : Nat
  gcount : Nat
  spills : Nat
  faultq : Nat
  errq   : Nat
  spillb : Nat
  desc   : Nat
  deriving DecidableEq, Repr

/-- A context (R249, R250). `saved`: 0 resident or idle, 1 to be saved, 2 saved. `stores` numbers its stores; `stored` holds the number, the
issuer's key and the lanes of the last one to a byte by a thread, `engine` the number of the last one by a dray (R210, R212). `replies`: replies of the driver that await its restore
(R317). -/
structure Ctx where
  id      : Nat
  d       : CtxDesc
  home    : NMap (BitVec 32)
  place   : NMap (BitVec 32)
  dead    : Bool
  fatal   : Option (Cause × Nat)
  saved   : Nat
  since   : Nat
  nextSeq : Nat
  order   : Nat
  regions : List Nat
  stores  : Nat
  stored  : NMap (Nat × Nat × Nat)
  engine  : NMap Nat := []
  cores   : List Nat
  writers : NMap (Nat × List Nat)
  replies : List (List Byte)
  deriving DecidableEq, Repr

/-- A range of `count` linear block indices from `lo` that a relay holds unplaced. Level 0 die, 1 package, 2 tray, 3 rack; node
is the relay's number at its level; blocks of a keyed range stand in the share of the die their key names below that relay. -/
structure Share where
  level : Nat
  node  : Nat
  lo    : Nat
  count : Nat
  keyed : Bool
  deriving DecidableEq, Repr

/-- A residency report (R253); `started` the blocks of the share that had started, `idle` whether the relay was idle. -/
structure Report where
  level     : Nat
  node      : Nat
  free      : Nat
  unstarted : Nat
  lowest    : Nat
  retired   : Nat
  at_       : Nat
  started   : Nat := 0
  idle      : Bool := false
  deriving DecidableEq, Repr

/-- Items of a recording (R283), as byte strings with their sort key. -/
structure Rec where
  replay : Bool
  root   : Nat
  times  : List (Nat × Nat × Nat × Nat × Nat)
  frames : List (List Byte)
  tasks  : List (List Byte)
  stores : List (Nat × Nat × List Byte)
  header : List Byte
  deriving DecidableEq, Repr

structure Launch where
  lid     : Nat
  ctx     : Nat
  seq     : Nat
  packet  : List Byte
  accept  : Nat
  first   : Nat
  start   : Nat
  tentry  : Nat
  total   : Nat
  retired : Nat
  poison  : Bool
  keys    : List Nat
  doneAt  : NMap Nat
  shares  : List Share
  reports : List Report
  waiting : Nat
  done    : Bool
  rec_    : Option Rec
  mark    : Nat := 0
  deriving DecidableEq, Repr

/-- The rack relay (R244, R315, R316, R318); `failed` the packages whose host dies have failed. -/
structure Relay where
  base     : Nat
  tail     : Nat
  head     : Nat
  en       : Bool
  rerrq    : Nat
  rerrlost : Nat
  primary  : Option Nat
  standby  : Option Nat
  beat     : Nat
  mirror   : List (Nat × Nat × Nat)
  mhead    : Nat
  cutOff   : List Nat
  formed   : Bool
  mismatch : Option Nat
  tstatus  : Nat
  toffset  : Int
  failed   : List Nat := []
  deriving DecidableEq, Repr

/-- A shootdown in progress (R169). -/
structure Shoot where
  pkg : Nat
  ctx : Nat
  va  : Nat
  len : Nat
  deriving DecidableEq, Repr

/-! ### Memory side -/

/-- A live swatch line (R182-R186), by the channel address of its pool granule; the key it was written under, whether it is poisoned, and
the context that allocated it. -/
structure SwLine where
  gran   : Nat
  digest : Nat
  chain  : Nat
  data   : LineW
  count  : Nat
  key    : Nat
  bad    : Bool
  ctx    : Nat := 0
  deriving DecidableEq, Repr

/-- An access of a thread of a DET launch as the vector-clock unit keeps it (R275): who, kind, plane, offset, lane, clock. -/
structure Access where
  blk   : Nat
  sk    : Nat
  lane  : Nat
  plane : Nat
  off   : Nat
  kind  : Nat
  phase : Nat
  deriving DecidableEq, Repr

structure DetWord where
  lid    : Nat
  word   : Nat
  die    : Nat
  writes : List Access
  reads  : List Access
  deriving DecidableEq, Repr

/-- A held `.fadd` update (R278, R279), in issuer order by its key. -/
structure Held where
  lid     : Nat
  line    : Nat
  ctx     : Nat
  va      : Nat
  blk     : Nat
  sk      : Nat
  lane    : Nat
  ordinal : Nat
  window  : Nat
  value   : W32
  off     : Nat
  plane   : Nat := 0
  spilled : Bool
  deriving DecidableEq, Repr

/-- A request on its way to its home: kind 1 a posted write of a PCIe function, 2 an update to be combined, 3 a merged update;
`froms` the issuers it acknowledges. `state` 0 sent, 1 answered. -/
structure Req where
  rid   : Nat
  ctx   : Nat
  kind  : Nat
  va    : Nat
  n     : Nat
  data  : W64
  op    : Nat
  pkg   : Nat
  froms : List Issuer
  naks  : Nat
  state : Nat
  deriving DecidableEq, Repr

/-- A fault or error record that waits for room in its queue (R303): context, fault queue or error queue, 64 bytes. -/
structure RecWait where
  ctx   : Option Nat
  fault : Bool
  bytes : List Byte
  deriving DecidableEq, Repr

/-- What the vector-clock units know of a thread of a DET launch (R275): its knowledge of threads of other blocks, and by thread and tray
what it knows for locations homed in one tray alone (R195); the clock of
its last release fence of each scope, and what wrote the bytes that its relaxed loads have read (R201). -/
structure ThreadClock where
  far  : NMap Nat
  rel  : NMap Carry
  seen : NMap Sync
  near : NMap Nat := []
  deriving DecidableEq, Repr

structure MemSide where
  bytes   : List Host.Cell
  poison  : List Nat
  readers : NMap Nat
  keyOf   : NMap Nat
  lines   : List SwLine
  held    : List Held
  dwords  : List DetWord
  windows : NMap Nat
  arrived : NMap (List (Nat × Nat))
  reqs    : List Req
  recs    : List RecWait
  tqwait  : List (Nat × Nat × Who)
  syncs   : NMap Sync
  clocks  : NMap ThreadClock
  writes  : Nat
  deriving DecidableEq, Repr

/-- What may happen to the machine that is no row of the opcode table (log 91): an error in protected storage, correctable or not (R177),
by its place; a burst or a response of an access whose integrity tag fails (R310); a flit at a switch (R309); a read of a host die's
register (R315); the failure of a host die (R318). -/
inductive World where
  | l1Error (core line word : Nat) (bad : Bool)
  | icacheError (core line : Nat)
  | rdcError (die line : Nat)
  | l2Error (line word : Nat) (bad : Bool)
  | sliceError (tray line word : Nat) (bad : Bool)
  | scratchError (bid word : Nat) (bad : Bool)
  | tileError (bid tile word : Nat) (vis bad : Bool)
  | registerError (bid : Nat) (bad : Bool)
  | burstFails (pkg ctx va times : Nat)
  | responseFails (pkg ctx va : Nat)
  | switchFlit (inp out : Nat) (bytes : List Byte)
  | registerRead (pkg off : Nat)
  | hostFails (pkg : Nat)
  deriving DecidableEq, Repr

/-- A turn of the agenda: an issuer issues, an event of the table happens, or one of the world's; `clocks` core clocks pass before it. -/
inductive Move where
  | issue (w : Who)
  | event (i : Instr)
  | world (w : World)
  deriving DecidableEq, Repr

structure Turn where
  clocks : Nat
  move   : Move
  deriving DecidableEq, Repr

/-- Time: ns and thirds of a nanosecond, clocks since reset, slew still to apply (R88, R323). -/
structure Clock where
  ns    : Nat
  third : Nat
  clk   : Nat
  slew  : Int
  deriving DecidableEq, Repr

/-- The number of things made so far, for fresh names of launches, blocks and requests, the free-value counter, the unit whose issuer
went last (R260), and the units whose last turn looked at a wait (R46). -/
structure Fresh where
  lid  : Nat
  bid  : Nat
  rid  : Nat
  bind : Nat
  free : Nat
  unit : Nat := 0
  looked : List Nat := []
  deriving DecidableEq, Repr

structure State where
  variant  : Nat
  time     : Clock
  cur      : Option Who
  agenda   : List Turn
  fresh    : Fresh
  mem      : MemSide
  cores    : NMap Core
  dies     : NMap Die
  chans    : NMap Chan
  hosts    : NMap HostDie
  ports    : NMap Port
  trays    : NMap Tray
  relay    : Relay
  ctxs     : NMap Ctx
  launches : NMap Launch
  blocks   : NMap Block
  shoots   : List Shoot
  events   : NMap W64
  deriving DecidableEq, Repr

/-- The machine right after reset: nothing placed, bound, cached, booted or stored. What each register reads as when its
table holds no entry stands in Machine/Ops.lean; INVENTORY.md lists the reset values, and log 2, 3, 5 and 6 those the
spec does not give. -/
def State.reset : State where
  variant := 0
  time := { ns := 0, third := 0, clk := 0, slew := 0 }
  cur := none
  agenda := []
  fresh := { lid := 0, bid := 0, rid := 0, bind := 0, free := 0 }
  mem := { bytes := [], poison := [], readers := [], keyOf := [], lines := [], held := [], dwords := [], windows := [], arrived := [],
           reqs := [], recs := [], tqwait := [], syncs := [], clocks := [], writes := 0 }
  cores := []
  dies := []
  chans := []
  hosts := []
  ports := []
  trays := []
  relay := { base := 0, tail := 0, head := 0, en := false, rerrq := 0, rerrlost := 0, primary := none, standby := none,
             beat := 0, mirror := [], mhead := 0, cutOff := [], formed := false, mismatch := none, tstatus := 0,
             toffset := 0 }
  ctxs := []
  launches := []
  blocks := []
  shoots := []
  events := []

end Sys2Proof.Machine
end

