-- ==== Sys2Proof/Machine/Ops.lean ====
section
/-! DEFINITION. The named operations over the state: reading and changing a block, a skein, an arm, a core; registers; the
latch chain; the pass in progress and its end; parking; taking a trap (12 R289) and making a context fatal (R302). -/

namespace Sys2Proof.Machine

/-- What a step answers. -/
abbrev Out := Host.Outcome State Fault Refusal

/-! ### What absent entries read as -/

/-- A core after reset: nothing resident, every algebra slot at its preloaded table (R151). -/
def Core.init : Core where
  ctx := none
  slots := []
  l1 := []
  icache := []
  mq := []
  reset := none
  copies := []
  incs := []
  scales := []
  mons := []
  grants := []
  prefs := []
  gate := 0
  idle := 0
  hangAt := 0
  temp := 0
def Die.init : Die := { rdc := [], l2 := [], spills := 0 }
def Chan.init : Chan :=
  { leaves := [], lend := 0, until_ := 0, last := 0, inited := false, selfRef := false, scrub := 0 }
/-- A host die after reset: CMD 0, DONE 1 (R315), no aperture, binding or key. -/
def HostDie.init : HostDie where
  cmd := List.replicate 64 0
  status := 0
  done := true
  go := none
  apert := []
  binds := []
  keys := []
  booted := false
  recovery := false
  digests := []
  versions := []
  rollback := 0
  serial := 0
  report := []
  rd := 0
  variant := none
def Port.init : Port where
  txSeq := 0
  retry := []
  waiting := []
  rxSeq := 0
  nakSent := false
  resends := 0
  fails := 0
  state := 0
  inPkt := []
  sent := []
  accepted := []
  ids := []
def Tray.init : Tray := { wins := [], parts := [], slices := [], dir := [] }
def JoinReg.idle : JoinReg := { e := 0, a := 0, pd := 0, groups := [], w := 0 }
def Latches.none : Latches := { valid := 0, ent := [] }
def Tile.zero : Tile := { work := [], vis := [], pWork := [], pVis := [], failed := .none, lost := .none }
def Shadow.zero : Shadow :=
  { wv := false, ws := 0, wp := 0, rv := false, rs := 0, rp := 0, sh := false, se := 0 }
def Arm.idle : Arm where
  path := none
  stack := []
  complete := false
  arrived := 0
  split := 0
  ks := []
  wait := none
  hold := none
  issue := none
  again := none
  lb := none
  sw := false
  seen := 0

namespace State

/-! ### Parts of the state -/

def core (s : State) (g : Nat) : Core := mapGetD s.cores g Core.init
def modCore (s : State) (g : Nat) (f : Core → Core) : State := { s with cores := mapSet s.cores g (f (s.core g)) }
def die (s : State) (d : Nat) : Die := mapGetD s.dies d Die.init
def modDie (s : State) (d : Nat) (f : Die → Die) : State := { s with dies := mapSet s.dies d (f (s.die d)) }
def chan (s : State) (c : Nat) : Chan := mapGetD s.chans c Chan.init
def modChan (s : State) (c : Nat) (f : Chan → Chan) : State := { s with chans := mapSet s.chans c (f (s.chan c)) }
def host (s : State) (p : Nat) : HostDie := mapGetD s.hosts p HostDie.init
def modHost (s : State) (p : Nat) (f : HostDie → HostDie) : State := { s with hosts := mapSet s.hosts p (f (s.host p)) }
def port (s : State) (n : Nat) : Port := mapGetD s.ports n Port.init
def modPort (s : State) (n : Nat) (f : Port → Port) : State := { s with ports := mapSet s.ports n (f (s.port n)) }
def tray (s : State) (n : Nat) : Tray := mapGetD s.trays n Tray.init
def modTray (s : State) (n : Nat) (f : Tray → Tray) : State := { s with trays := mapSet s.trays n (f (s.tray n)) }
def ctx? (s : State) (c : Nat) : Option Ctx := mapGet s.ctxs c
def modCtx (s : State) (c : Nat) (f : Ctx → Ctx) : State := { s with ctxs := mapMod s.ctxs c f }
def launch? (s : State) (l : Nat) : Option Launch := mapGet s.launches l
def modLaunch (s : State) (l : Nat) (f : Launch → Launch) : State := { s with launches := mapMod s.launches l f }
def blk? (s : State) (b : Nat) : Option Block := mapGet s.blocks b
def modBlk (s : State) (b : Nat) (f : Block → Block) : State := { s with blocks := mapMod s.blocks b f }
def modSk (s : State) (b i : Nat) (f : Skein → Skein) : State :=
  s.modBlk b fun x => { x with skeins := listMod x.skeins i f }
def modArm (s : State) (b i a : Nat) (f : Arm → Arm) : State :=
  s.modSk b i fun x => { x with arms := listMod x.arms a f }
def modCoach (s : State) (b : Nat) (f : Coach → Coach) : State := s.modBlk b fun x => { x with coach := x.coach.map f }
def sk? (s : State) (b i : Nat) : Option Skein := (s.blk? b).bind fun x => x.skeins[i]?
def arm? (s : State) (b i a : Nat) : Option Arm := (s.sk? b i).bind fun x => x.arms[a]?

/-- Something a parked issuer may wait for has changed: it looks again. -/
def wake (s : State) : State := { s with mem := { s.mem with writes := s.mem.writes + 1 } }
/-- The next free-value number, `n` of them taken (log 4). -/
def takeFree (s : State) (n : Nat) : State := { s with fresh := { s.fresh with free := s.fresh.free + n } }
def dieOf (g : Nat) : Nat := g / Config.coresPerDie
def pkgOf (g : Nat) : Nat := g / (4 * Config.coresPerDie)
def trayOf (g : Nat) : Nat := pkgOf g / Config.perTray
/-- `%loc` of a core (R88). -/
def locOf (g : Nat) : Nat := g % Config.coresPerDie + 64 * (dieOf g % 4) + 256 * pkgOf g
def feat (s : State) : Nat := Config.feat s.variant

/-- Events counted on every enabled counter of the unit at `base` with `n` counters that selects `src` (R324, R325). -/
def countAt (s : State) (base n src ctx by_ : Nat) : State :=
  (List.range n).foldl (fun s i =>
    let sel := (mapGetD s.events (base + 16 * i) 0).toNat
    if bit1 sel 21 && sel % 256 == src && (!bit1 sel 20 || bitsOf sel 19 8 == ctx) then
      { s with events := mapSet s.events (base + 16 * i + 8) (mapGetD s.events (base + 16 * i + 8) 0 + BitVec.ofNat 64 by_) }
    else s) s
/-- Counters of all packages stand in one table, a package's block at 2^24 times its number. -/
def countCore (s : State) (g src ctx : Nat) (by_ : Nat := 1) : State :=
  if s.events.isEmpty then s else s.countAt (16777216 * pkgOf g + 0x1000 * (g % 192)) 16 src ctx by_
def countDie (s : State) (d src ctx : Nat) (by_ : Nat := 1) : State :=
  if s.events.isEmpty then s else s.countAt (16777216 * (d / 4) + 0x100000 + 0x1000 * (d % 4)) 32 src ctx by_
def countPkg (s : State) (p src ctx : Nat) (by_ : Nat := 1) : State :=
  if s.events.isEmpty then s else s.countAt (16777216 * p + 0x200000) 64 src ctx by_

end State

/-! ### Registers of a skein -/

namespace Skein

def trapMode (k : Skein) : Bool := k.frame.isSome
def live (k : Skein) : Lanes := ~~~k.r.exited
/-- The logical register that `v0` names: S in trap mode (R77), B otherwise (R75). -/
def vbase (k : Skein) : Nat := if k.trapMode then k.win.spill else k.win.base
/-- The first register number that may not be named: U, or in trap mode the lower of 64 and A (R75, R77). -/
def vlimit (k : Skein) : Nat := if k.trapMode then min 64 k.win.allot else k.win.reach
/-- Logical register `x` of lane `l`, in slot x mod A (R75). -/
def logical (k : Skein) (x l : Nat) : W32 := mapGetD k.r.lanes (x % k.win.allot * 16 + l) 0
def setLogical (k : Skein) (x l : Nat) (w : W32) : Skein :=
  { k with r := { k.r with lanes := mapSet k.r.lanes (x % k.win.allot * 16 + l) w } }
def v (k : Skein) (i l : Nat) : W32 := k.logical (k.vbase + i) l
def vpair (k : Skein) (i l : Nat) : W64 := k.v (i + 1) l ++ k.v i l
def setV (k : Skein) (i l : Nat) (w : W32) : Skein := k.setLogical (k.vbase + i) l w
def setPair (k : Skein) (i l : Nat) (w : W64) : Skein :=
  (k.setV i l (w.setWidth 32)).setV (i + 1) l (w.extractLsb' 32 32)
/-- `vi` written in the lanes of `ls`, ascending. -/
def setVs (k : Skein) (i : Nat) (ls : List Nat) (f : Nat → W32) : Skein := ls.foldl (fun k l => k.setV i l (f l)) k
def setPairs (k : Skein) (i : Nat) (ls : List Nat) (f : Nat → W64) : Skein := ls.foldl (fun k l => k.setPair i l (f l)) k
def mask (k : Skein) (i : Nat) : Lanes := mapGetD k.r.masks i 0
/-- Bits of `mi` in the lanes of `ls` written (R80); exited lanes stay clear in `m0` (R43). -/
def setMask (k : Skein) (i : Nat) (ls v : Lanes) : Skein :=
  let w := (k.mask i &&& ~~~ls) ||| (v &&& ls)
  { k with r := { k.r with masks := mapSet k.r.masks i (if i = 0 then w &&& k.live else w) } }
def plane (k : Skein) (l : Nat) : Nat := mapGetD k.r.planes l 0
def join (k : Skein) (j : Nat) : JoinReg := mapGetD k.r.joins j JoinReg.idle
def setJoin (k : Skein) (j : Nat) (r : JoinReg) : Skein :=
  { k with r := { k.r with joins := mapSet k.r.joins j r } }
def setLatch (k : Skein) (x : Latches) : Skein := { k with r := { k.r with latch := x } }
/-- Every latch becomes invalid, also for the planes not yet served at an offset (R84). -/
def dropLatches (k : Skein) : Skein :=
  let clear (a : Arm) : Arm := { a with issue := a.issue.map fun u => { u with pushed := u.pushed.map fun b => { b with valid := 0 } } }
  { k.setLatch { k.r.latch with valid := 0 } with arms := k.arms.map clear }
/-- Sticky bits set (R90). -/
def orStatus (k : Skein) (f : BitVec 7) : Skein := { k with r := { k.r with status := k.r.status ||| f } }
def arm (k : Skein) (a : Nat) : Arm := (k.arms[a]?).getD Arm.idle
def modArm (k : Skein) (a : Nat) (f : Arm → Arm) : Skein := { k with arms := listMod k.arms a f }
/-- The lanes an arm's path, stack, arrived sets and held groups hold that have not exited. -/
def stackLanes (st : List Entry) : Lanes :=
  st.foldl (fun m e => match e with | .path p => m ||| p.lanes | .marker _ a _ => m ||| a) 0
def heldBy (k : Skein) (a : Nat) : Lanes :=
  (List.range 8).foldl (fun m j =>
    (k.join j).groups.foldl (fun m g => if g.arm = a then m ||| g.lanes else m) m) 0
def armLanes (k : Skein) (a : Nat) : Lanes :=
  let x := k.arm a
  ((match x.path with | some p => p.lanes | none => 0) ||| stackLanes x.stack ||| x.arrived ||| k.heldBy a) &&& k.live
/-- The lowest lane of an arm that has not exited. -/
def lowLane (k : Skein) (a : Nat) : Nat := (lowestLane (k.armLanes a)).getD 16
/-- The topmost pending path that holds a lane, and the stack without it. -/
def takePath (l : Nat) : List Entry → Option (Path × List Entry)
  | [] => none
  | .path p :: r =>
    if p.lanes.getLsbD l then some (p, r) else (takePath l r).map fun q => (q.1, .path p :: q.2)
  | e :: r => (takePath l r).map fun q => (q.1, e :: q.2)
/-- A pending path of an arm's stack, and not its running path, holds the arm's lowest lane (R47). -/
def pends (k : Skein) (a : Nat) : Bool :=
  (k.arm a).path.elim false (fun p => !p.lanes.getLsbD (k.lowLane a)) && (takePath (k.lowLane a) (k.arm a).stack).isSome
/-- One arm, an empty stack and no held lane (R66). -/
def converged (k : Skein) : Bool :=
  k.arms.length == 1 && (k.arm 0).stack.isEmpty && (k.heldBy 0 ||| k.heldBy 1) == 0
def hasRegs (k : Skein) (i n : Nat) : Bool := decide (i + n ≤ k.vlimit)
/-- A trap of an arm's own is held for it (R293). -/
def owed (k : Skein) (a : Nat) : Bool := k.x.pend.any fun t => t.cls == 0 && min t.arm (k.arms.length - 1) == a
/-- The arm is inside an instruction that has issued, with nothing that keeps it from going on. -/
def inside (k : Skein) (a : Nat) : Bool :=
  let x := k.arm a
  x.issue.isSome && x.wait.isNone && x.hold.isNone && !k.owed a
/-- A trap of an arm must wait: the skein's other arm completes what it has issued first (R289), and a trap held for the lower arm comes
first (R293). -/
def defers (k : Skein) (a : Nat) : Bool :=
  k.arms.length == 2 && (k.inside (1 - a) || (k.owed (1 - a) && decide (1 - a < a)))

end Skein

/-! ### The pass in progress -/

/-- What an instruction sees when it executes: its issuer, place and lanes. `act` are the active lanes of the pass, `path` the
lanes of the running path in it; for a coach instance both are empty. -/
structure Pass where
  bid   : Nat
  ix    : Nat
  ai    : Nat
  coach : Bool
  blk   : Block
  sk    : Skein
  arm   : Arm
  co    : Coach
  off   : Nat
  len   : Nat
  plane : Nat
  act   : Lanes
  path  : Lanes
  em    : Lanes
  last  : Bool

def Coach.blank : Coach where
  off := 0
  len := 4
  last := 0
  ks := []
  wait := none
  hold := none
  ended := false
  held := none
  defer := none
  det := { phase := 1, vc := [] }
  ord := []
  seen := 0
def Skein.blank : Skein where
  idx := 16
  role := 3
  win := { allot := 1, reach := 0, base := 0, spill := 0 }
  r := { lanes := [], masks := [], joins := [], latch := Latches.none, planes := [], exited := 0xFFFF, status := 0 }
  arms := []
  rejoin := 0
  life := .live
  frame := none
  x := { part := 0, region := 0, pend := [], defer := none, bo := none, det := { phase := 1, vc := [] }, ord := [],
         ranArm := 0, evict := none }

namespace State

/-- The pass the current issuer is in: a skein's arm inside an issued instruction, or a coach instance. -/
def pass? (s : State) : Option Pass :=
  match s.cur with
  | none => none
  | some (.skein b i a) => do
    let x ← s.blk? b
    let k ← x.skeins[i]?
    let r ← k.arms[a]?
    let u ← r.issue
    let h ← u.rest.head?
    let lanes := h.2 &&& k.live &&& u.replay.getD 0xFFFF
    some { bid := b, ix := i, ai := a, coach := false, blk := { x with id := { x.id with bid := b } }, sk := k, arm := r, co := Coach.blank, off := u.off,
           len := u.len, plane := h.1, act := lanes &&& u.exec, path := lanes, em := u.exec &&& k.live, last := u.rest.length ≤ 1 }
  | some (.coach b) => do
    let x ← s.blk? b
    let c ← x.coach
    some { bid := b, ix := 16, ai := 0, coach := true, blk := { x with id := { x.id with bid := b } }, sk := Skein.blank, arm := Arm.idle, co := c,
           off := c.off, len := c.len, plane := 0, act := 0, path := 0, em := 0, last := true }

end State

/-- What two arms know of stores together. -/
def Marks.join (a b : Marks) : Marks :=
  { acq := max a.acq b.acq, fence := max a.fence b.fence, mine := b.mine.foldl (fun m e => mapSet m e.1 (max e.2 (mapGetD m e.1 0))) a.mine }

namespace Pass

def who (p : Pass) : Who := if p.coach then .coach p.bid else .skein p.bid p.ix p.ai
def ctx (p : Pass) : Nat := p.blk.id.ctx
def core (p : Pass) : Nat := p.blk.id.core
def lanes (p : Pass) : List Nat := lanesOf p.act
def trapMode (p : Pass) : Bool := !p.coach && p.sk.trapMode
/-- `ki` as the issuer reads it (R72). -/
def k (p : Pass) (i : Nat) : W64 := mapGetD (if p.coach then p.co.ks else p.arm.ks) i 0
def role (p : Pass) : Nat := if p.coach then 3 else p.sk.role
/-- The running path's lanes, of all planes. -/
def whole (p : Pass) : Lanes := p.arm.path.elim p.path fun q => q.lanes &&& p.sk.live
/-- An issuer's stores are known by its key and the lanes of its path, which path order joins (R198); a coach instance has one lane. -/
def issuerKey (bid ix : Nat) : Nat := bid * 32 + ix + 1
def writer (p : Pass) : Nat × Nat := (issuerKey p.bid p.ix, if p.coach then 1 else p.whole.toNat)
def marks (p : Pass) : Marks := if p.coach then p.co.marks else p.arm.marks

end Pass

/-- The trap of a condition the whole instruction meets (R287 steps 2 to 9): the mask is the execute mask. -/
def Pass.trap (p : Pass) (c : TrapCode) (u : Cause) : Trap :=
  { code := c, cause := u, mask := p.em, masked := false, next := false, addr := 0, aux := 0, off := none, race := none }
/-- The same with the lanes that fail and the lowest one's address. -/
def Pass.trapAt (p : Pass) (c : TrapCode) (u : Cause) (m : Lanes) (a : W64) : Trap :=
  { p.trap c u with mask := m, addr := a }
def Pass.ill (p : Pass) (u : Cause) : Trap := p.trap .illegal u
/-- A check: the trap when `bad` holds. -/
def whenBad (bad : Bool) (t : Trap) : Option Trap := if bad then some t else none

/-! ### Codes (R285, R288) -/

def TrapCode.code : TrapCode → Nat
  | .illegal => 0x01 | .unitAbsent => 0x03 | .staleLatch => 0x04 | .windowOverflow => 0x05 | .windowUnderflow => 0x06
  | .misaligned => 0x07 | .pageFault => 0x08 | .protection => 0x09 | .race => 0x0A | .detIllegal => 0x0B
  | .engineFault => 0x0C | .engineReset => 0x0D | .poison => 0x0E | .integrity => 0x0F | .copyFault => 0x10
  | .swatchDangling => 0x11 | .algebraTable => 0x12 | .planeAlign => 0x13 | .software => 0x15 | .breakpoint => 0x16
  | .hang => 0x17 | .contextFatal => 0x18
def Cause.code : Cause → Nat
  | .none => 0x00 | .encoding => 0x01 | .operand => 0x02 | .role => 0x03 | .diverged => 0x04 | .divergeDepth => 0x05
  | .joinBusy => 0x06 | .joinOffset => 0x07 | .reach => 0x08 | .windowDepth => 0x09 | .link => 0x0A | .windowPath => 0x0B
  | .latchSp => 0x0C | .span => 0x0D | .ring => 0x0E | .queue => 0x0F | .boOrder => 0x10 | .scratchBound => 0x11
  | .noncanon => 0x12 | .nohome => 0x13 | .notmapped => 0x14 | .format => 0x15 | .key => 0x16 | .write => 0x17
  | .exec => 0x18 | .cls => 0x19 | .nopool => 0x1A | .unresolved => 0x1B | .instr => 0x1C | .partner => 0x1D
  | .phase => 0x1E | .shadow => 0x1F | .spill => 0x20 | .window => 0x21 | .replay => 0x22 | .order => 0x23
  | .scratch => 0x24 | .global => 0x25 | .reduce => 0x26 | .check => 0x27 | .poisoned => 0x28 | .tileReturned => 0x29
  | .lost => 0x2A | .nested => 0x2B | .unhandled => 0x2C | .register => 0x2D | .restore => 0x2E | .integrity => 0x2F
  | .recordFull => 0x30 | .dangling => 0x31 | .save => 0x32

/-! ### Records (R303, R304) -/

/-- The 64 bytes of a fault or error record, VALID included. -/
def recordBytes (kind cause flags off time seq sk blk mask loc aux va aux2 ctx : Nat) : List Byte :=
  leBytes 1 kind ++ leBytes 1 cause ++ leBytes 1 flags ++ leBytes 1 0 ++ leBytes 4 off ++ leBytes 8 time ++ leBytes 6 seq
    ++ leBytes 1 sk ++ leBytes 1 0 ++ leBytes 8 blk ++ leBytes 2 mask ++ leBytes 2 loc ++ leBytes 4 aux ++ leBytes 8 va
    ++ leBytes 8 aux2 ++ leBytes 2 ctx ++ leBytes 5 0 ++ leBytes 1 1
/-- All ones of 48 and 64 bits, for a record that concerns no launch or block. -/
def ones48 : Nat := 2 ^ 48 - 1
def ones64 : Nat := 2 ^ 64 - 1

namespace State

/-- A record handed to the writer of records (event FAULT_RECORD): `fault` names the fault queue, else the error queue; a
record of no context goes to the rack error queue. -/
def report (s : State) (ctx : Option Nat) (fault : Bool) (b : List Byte) : State :=
  { s with mem := { s.mem with recs := s.mem.recs ++ [{ ctx := ctx, fault := fault, bytes := b }] } }
/-- The record of a pass: kind, cause, flags, mask, aux, address. -/
def reportPass (s : State) (p : Pass) (fault : Bool) (kind cause flags mask aux va : Nat) : State :=
  s.report (some p.ctx) fault
    (recordBytes kind cause (flags + if p.coach then 1 else 0) p.off s.time.ns p.blk.id.seq p.ix p.blk.id.idx mask
      (locOf p.core) aux va 0 0)

/-- A context becomes CONTEXT_FATAL (R302): the first cause stands; the event CONTEXT_FATAL takes the steps. -/
def fatal (s : State) (c : Nat) (u : Cause) (va : Nat) : State :=
  s.modCtx c fun x => match x.fatal with
    | some _ => x
    | none => { x with fatal := some (u, va) }
def isFatal (s : State) (c : Nat) : Bool :=
  match s.ctx? c with
  | some x => x.fatal.isSome || x.dead
  | none => true

/-! ### Taking a trap (R289) -/

/-- `k1` of the trap record. -/
def record1 (t : Trap) (plane cls arm off : Nat) (coach : Bool) : W64 :=
  BitVec.ofNat 64 (t.code.code + 0x100 * t.cause.code + 0x10000 * plane + 0x40000 * cls + 0x100000 * arm
    + 0x200000 * coach.toNat + 0x400000 * t.next.toNat + 0x1000000 * t.masked.toNat + 2 ^ 32 * (t.off.getD off))
def record2 (t : Trap) : W64 := BitVec.ofNat 64 (t.mask.toNat + 2 ^ 32 * t.aux.toNat)
def record4 (t : Trap) : W64 :=
  match t.race with
  | none => 0
  | some r => BitVec.ofNat 64 (r.off + 2 ^ 32 * r.plane + 2 ^ 34 * r.sk + 2 ^ 38 * r.lane + 2 ^ 42 * r.coach.toNat)
def record5 (t : Trap) : W64 := match t.race with | none => 0 | some r => BitVec.ofNat 64 r.blk
def record6 (t : Trap) : W64 := match t.race with | none => 0 | some r => BitVec.ofNat 64 (r.kThis + 16 * r.kOther)

end State

/-- Trap-mode `k0`-`k7`: the spill region and the record (R289). -/
def trapRegs (ks : NMap W64) (region : Nat) (t : Trap) (plane cls arm off time : Nat) (coach : Bool) : NMap W64 :=
  mapSet (mapSet (mapSet (mapSet (mapSet (mapSet (mapSet (mapSet ks 0 (BitVec.ofNat 64 region))
    1 (State.record1 t plane cls arm off coach)) 2 (State.record2 t)) 3 t.addr) 4 (State.record4 t)) 5 (State.record5 t))
    6 (State.record6 t)) 7 (BitVec.ofNat 64 time)

/-- A skein enters trap mode (R289): arms, planes, latch bank and `m0` are set aside, waits of both arms abandoned (R42; log 109); the handler's sole
arm starts at `tentry` in plane 0 with an empty stack, its `m0` the execute mask `em` of the trapping path, or the path's
lanes `pl` that have not exited where that is empty. -/
def Skein.enterTrap (k : Skein) (tentry : Nat) (t : Trap) (plane cls ai off time : Nat) (coach : Bool) (em pl : Lanes) :
    Skein :=
  let ks := trapRegs (k.arm ai).ks k.x.region t plane cls ai off time coach
  let m := if em = 0 then pl &&& k.live else em
  { k with
    frame := some { arms := k.arms.map fun a => { a with wait := none }, rejoin := k.rejoin, planes := k.r.planes,
                    latch := k.r.latch, m0 := k.mask 0, arm := ai, ranArm := k.x.ranArm }
    arms := [{ Arm.idle with path := some { off := tentry, lanes := k.live, base := k.win.base }, ks := ks, marks := (k.arm ai).marks }]
    rejoin := 0
    r := { k.r with planes := [], latch := Latches.none, masks := mapSet k.r.masks 0 m } }

namespace State

/-- The handler of a block's launch (R289); none when the launch is gone or TENTRY is all ones. -/
def handler (s : State) (b : Block) : Option Nat :=
  match s.launch? b.id.lid with
  | none => none
  | some l => if l.tentry = 0xFFFFFFFF then none else some l.tentry

/-- An issuer's wait is over without what it waited for (R42): it leaves the waiting list of its task queue and its condition monitor, and
of its `GROW`'s request only what was evicted stays asked for (R45). -/
def endWait (s : State) (g : Nat) (w : Who) (wait : Wait) : State :=
  let left (q : Grant) : Option Grant :=
    match wait with
    | .grow tiles n =>
      if q.who = w ∧ q.parked = true ∧ q.tiles = tiles then
        if q.amount ≤ n then none else some { q with parked := false, amount := q.amount - n }
      else some q
    | _ => some q
  let s := if (s.core g).mons.length < 16 then s else s.wake
  let s := { s with mem := { s.mem with tqwait := s.mem.tqwait.filter fun e => e.2.2 != w } }
  s.modCore g fun c => { c with mons := c.mons.filter (fun m => m.1 != w), grants := c.grants.filterMap left }
/-- The waits of a skein's arms end so. -/
def endWaits (s : State) (b : Block) (i : Nat) (k : Skein) : State :=
  (List.range k.arms.length).foldl (fun s a => (k.arm a).wait.elim s fun w => s.endWait b.id.core (.skein b.id.bid i a) w) s

/-- A skein takes a trap: NESTED in trap mode, UNHANDLED with no handler (R290). One that must wait for the skein's other arm is held for its
own arm. -/
def trapSkein (s : State) (b : Block) (i : Nat) (k : Skein) (t : Trap) (plane cls ai off : Nat) (coach : Bool)
    (em pl : Lanes) : State :=
  if k.trapMode then s.fatal b.id.ctx .nested 0
  else match s.handler b with
    | none => s.fatal b.id.ctx .unhandled 0
    | some te =>
      if k.defers ai then
        s.modSk b.id.bid i fun k =>
          { k with x := { k.x with pend := k.x.pend ++ [{ trap := t, cls := cls, coach := coach, arm := ai, plane := plane, off := off }] } }
      else (s.endWaits b i k).modSk b.id.bid i fun k => k.enterTrap te t plane cls ai off s.time.ns coach em pl

/-- The current pass raises a trap: a coach instance's is kept to be relayed (R291). -/
def raise (s : State) (p : Pass) (t : Trap) : State :=
  if p.coach then s.modCoach p.bid fun c => { c with held := some t, wait := none }
  else
    let s := if t.code = .staleLatch then s.countCore p.core 0x05 p.ctx else s
    s.trapSkein p.blk p.ix p.sk t p.plane 0 p.ai p.off false p.em (p.arm.path.elim p.path (·.lanes))

/-- The first trap of the checks, or else the effect. -/
def guarded (s : State) (p : Pass) (checks : List (Option Trap)) (eff : State) : State :=
  match firstSome checks with
  | some t => s.raise p t
  | none => eff

/-- The same for a lane-class instruction: a path with an empty execute mask meets no condition (R71; log 32). -/
def laneGuarded (s : State) (p : Pass) (checks : List (Option Trap)) (eff : State) : State :=
  if !p.coach && p.em == 0 then eff else s.guarded p checks eff

/-- The meaning of a word: what the pass of the current issuer does. -/
def withPass (s : State) (f : Pass → State) : Host.Outcome State Fault Refusal :=
  match s.pass? with
  | none => .fault .noIssuer
  | some p => .next (f p)

end State

/-! ### The end of a pass -/

/-- The arm after the pass being served: the next plane, or the next offset with the issue closed (R54). -/
def Arm.endPass (a : Arm) : Arm :=
  match a.issue with
  | none => a
  | some u =>
    match u.rest with
    | _ :: q :: r => { a with issue := some { u with rest := q :: r } }
    | _ => { a with issue := none, path := a.path.map fun x => { x with off := u.off + u.len } }

/-- Planes given by `PSET` at an offset take effect at the next one (R56, R415). -/
def Skein.applyPlanes (k : Skein) (q : NMap Nat) : Skein :=
  let m := (List.range 16).foldl (fun m l => match mapGet q l with | some n => mapSet m l n | none => m) k.r.planes
  { k with r := { k.r with planes := m } }

/-- The planes that a replay serves (R55, R168): those whose passes failed; of failed uniform accesses of one word the first alone,
since a replay executes the access once (R397). -/
def Issue.redone (u : Issue) : List Nat :=
  let fails (q : Nat) (whole : Bool) : Bool := u.fails.any fun f => f.plane == q && f.whole == whole
  let earlier (q : Nat) : Bool := u.sets.any fun e =>
    decide (e.1 < q) && fails e.1 true && mapGetD u.words e.1 0 == mapGetD u.words q 0
  (u.sets.map (·.1)).filter fun q => fails q false || (fails q true && !earlier q)
/-- The lowest lane of a list of failures. -/
def lowestFail (l : List LaneFail) : Option LaneFail := leastBy (·.lane) l

/-- The skein after a pass of arm `ai`: when a lane took a page fault, the path parks after the last pass with its fault mask,
and the replay covers the failed lanes of every plane (R55, R168, R287). -/
def Skein.endPass (k : Skein) (ai : Nat) (stamp : Nat) : Skein :=
  match (k.arm ai).issue with
  | none => k
  | some u =>
    if u.rest.length ≤ 1 then
      if u.fails.isEmpty then (k.modArm ai Arm.endPass).applyPlanes u.pset
      else
        let m := u.fails.foldl (fun m f => m ||| laneBit f.lane) 0
        k.modArm ai fun a =>
          { a with wait := some (.fault m ((lowestFail (u.fails.filter fun f => f.code == .pageFault)).elim 0 (·.addr)) false), seen := stamp,
                   issue := some { u with rest := u.sets.filter fun e => e.2 &&& m != 0 && u.redone.contains e.1, replay := some m, fails := [],
                                          redo := some u.redone } }
    else k.modArm ai Arm.endPass

namespace State

/-- The pass ends. When the last pass at the offset has run and lanes failed: with a page fault among them the path parks and
a fault record is written; else the lowest lane's failure is raised for the lanes that share its code (R168, R287). -/
def endPass (s : State) (p : Pass) : State :=
  if p.coach then s.modCoach p.bid fun c => { c with off := p.off + p.len }
  else
    let k := (s.sk? p.bid p.ix).getD p.sk
    let s' := s.modSk p.bid p.ix fun k => k.endPass p.ai s.mem.writes
    match (k.arm p.ai).issue with
    | none => s'
    | some u =>
      if 1 < u.rest.length then s'
      else match lowestFail (u.fails.filter fun f => f.code == .pageFault), lowestFail u.fails with
        | some f, _ =>
          let m := u.fails.foldl (fun m f => m ||| laneBit f.lane) (0 : Lanes)
          s'.reportPass p true 0x08 f.cause.code (4 * f.plane) m.toNat 0 f.addr
        | none, some f =>
          let l := u.fails.filter fun g => g.code == f.code
          let m := l.foldl (fun m f => m ||| laneBit f.lane) (0 : Lanes)
          let t : Trap := { p.trapAt f.code f.cause m (BitVec.ofNat 64 f.addr) with masked := true, race := f.race }
          let s := s.modArm p.bid p.ix p.ai fun a => { a with issue := a.issue.map fun u => { u with fails := [], redo := some u.redone } }
          s.trapSkein p.blk p.ix k t (l.foldl (fun n f => min n f.plane) 3) 0 p.ai p.off false p.em
            (p.arm.path.elim p.path (·.lanes))
        | none, none => s'
/-- Failures of this pass's lanes noted, to be reported when the offset's last pass has run. -/
def noteFails (s : State) (p : Pass) (l : List LaneFail) : State :=
  s.modArm p.bid p.ix p.ai fun a => { a with issue := a.issue.map fun u => { u with fails := u.fails ++ l } }

/-- The whole path goes on at offset `t`: an offset-shared transfer (R393). -/
def jump (s : State) (p : Pass) (t : Nat) : State :=
  if p.coach then s.modCoach p.bid fun c => { c with off := t }
  else s.modArm p.bid p.ix p.ai fun a =>
    { a with issue := none, path := a.path.map fun x => { x with off := t } }

/-- The issuer parks (R42); its instruction is executed again when it issues next. -/
def park (s : State) (p : Pass) (w : Wait) : State :=
  if p.coach then s.modCoach p.bid fun c => { c with wait := some w, seen := s.mem.writes }
  else s.modArm p.bid p.ix p.ai fun a => { a with wait := some w, seen := s.mem.writes }

/-- `ki` of the issuer written (R72, R79). -/
def setK (s : State) (p : Pass) (i : Nat) (v : W64) : State :=
  if p.coach then s.modCoach p.bid fun c => { c with ks := mapSet c.ks i v }
  else s.modArm p.bid p.ix p.ai fun a => { a with ks := mapSet a.ks i v }

/-- A switch point issues: every latch of the skein becomes invalid (R84), and where a pending path of the arm's stack holds the arm's
lowest lane, the arm switches to it once the instruction has executed (R47). -/
def switchPoint (s : State) (p : Pass) : State :=
  if p.coach then s
  else s.modSk p.bid p.ix fun k => (k.modArm p.ai fun a => { a with sw := a.sw || k.pends p.ai }).dropLatches

/-- An issuer's marks changed. -/
def modMarks (s : State) (p : Pass) (f : Marks → Marks) : State :=
  if p.coach then s.modCoach p.bid fun c => { c with marks := f c.marks } else s.modArm p.bid p.ix p.ai fun a => { a with marks := f a.marks }
/-- The stores of a context so far. -/
def storesOf (s : State) (c : Nat) : Nat := (s.ctx? c).elim 0 (·.stores)
/-- An acquire: every store made before it counts as standing before what follows (log 103). -/
def noteAcquire (s : State) (p : Pass) : State := s.modMarks p fun m => { m with acq := s.storesOf p.ctx }
/-- An `OFENCE`: what its issuer has acquired, and its own stores. -/
def noteFence (s : State) (p : Pass) : State :=
  let n := s.storesOf p.ctx
  s.modMarks p fun m => { m with fence := m.acq, mine := (List.range 16).foldl (fun x l => if bit1 p.writer.2 l then mapSet x l n else x) m.mine }

end State

end Sys2Proof.Machine
end

