-- ==== Sys2Proof/Machine/Operands.lean ====
section
/-! DEFINITION. Operand forms (03 R74-R82, 04 R102, R103): lane sources, pairs, quads, the third source of format F, uniform
and mask operands, the register-field checks of R346 and the shared write of a lane result. -/

namespace Sys2Proof.Machine

/-- The third source of format F (R103): the register named by D, `v1`-`v7` or `b0`-`b7`. -/
def thirdSrc (d c : Nat) : Src := if c = 0 then .v d else if c < 8 then .v c else .b (c - 8)

namespace Pass

/-! ### Checks, in the order of R287: ROLE, reach and alignment (step 2), STALE_LATCH (step 5) -/

/-- A coach instance issues no lane-class instruction but `EXIT` (R37). -/
def laneRole (p : Pass) : Option Trap := whenBad p.coach (p.ill .role)
/-- A coach instance may not issue it, a skein may (R37). -/
def skeinOnly (p : Pass) : Option Trap := whenBad p.coach (p.ill .role)
def coachOnly (p : Pass) : Option Trap := whenBad (!p.coach) (p.ill .role)
/-- A skein of role `r` or a coach instance (R37). -/
def roleOrCoach (p : Pass) (r : Nat) : Option Trap := whenBad (!p.coach && p.sk.role != r) (p.ill .role)
/-- Registers `vi` to `vi+n-1` lie below the reach (R75, R346). -/
def reg (p : Pass) (i n : Nat) : Option Trap := whenBad (!p.sk.hasRegs i n) (p.ill .reach)
def even (p : Pass) (i : Nat) : Option Trap := whenBad (i % 2 != 0) (p.ill .operand)
def quad (p : Pass) (i : Nat) : Option Trap := whenBad (i % 4 != 0) (p.ill .operand)
/-- A destination of `n` registers; with the K bit the field is ignored (R83). -/
def dest (p : Pass) (k : Bool) (i n : Nat) : Option Trap := if k then none else p.reg i n
def destEven (p : Pass) (k : Bool) (i : Nat) : Option Trap := if k then none else p.even i
def srcReg (p : Pass) (a : Src) (n : Nat) : Option Trap :=
  match a with
  | .v i => p.reg i n
  | .b _ => none
def srcEven (p : Pass) (a : Src) : Option Trap :=
  match a with
  | .v i => p.even i
  | .b _ => none
/-- The latch bank that sources read: as it was before a lower plane's pass at this offset pushed the chain (R82). -/
def bank (p : Pass) : Latches := (p.arm.issue.bind (·.pushed)).getD p.sk.r.latch
def latch (p : Pass) (i l : Nat) : W64 := mapGetD p.bank.ent (16 * i + l) 0
/-- A latch source names a valid latch (R84). -/
def fresh (p : Pass) (a : Src) : Option Trap :=
  match a with
  | .v _ => none
  | .b i => whenBad (!p.bank.valid.getLsbD i) (p.trap .staleLatch .none)

/-! ### Values -/

def val32 (p : Pass) (a : Src) (l : Nat) : W32 :=
  match a with
  | .v i => p.sk.v i l
  | .b i => (p.latch i l).setWidth 32
def val64 (p : Pass) (a : Src) (l : Nat) : W64 :=
  match a with
  | .v i => p.sk.vpair i l
  | .b i => p.latch i l
/-- The lanes of the gathered set (R418): of every plane pass at the offset whose word is this pass's. -/
def gathered (p : Pass) : Lanes :=
  match p.arm.issue with
  | none => p.act
  | some u =>
    let word := mapGetD u.words p.plane 0
    (u.sets.foldl (fun m e => if mapGetD u.words e.1 0 = word then m ||| e.2 else m) 0) &&& u.exec &&& p.sk.live
/-- No later pass at the offset has this pass's word, so that the gathered set is complete (R418). -/
def gatherEnds (p : Pass) : Bool :=
  match p.arm.issue with
  | none => true
  | some u =>
    let word := mapGetD u.words p.plane 0
    (u.rest.drop 1).all fun e => mapGetD u.words e.1 0 != word

end Pass

/-! ### The latch chain (R82) -/

/-- The bank shifted by one with `b0` holding `fill l` in lane `l`. -/
def Latches.push (x : Latches) (fill : Nat → W64) : Latches :=
  { valid := (x.valid <<< 1) ||| 1
    ent := (List.range 16).map (fun l => (l, fill l)) ++ (x.ent.filter fun e => e.1 < 112).map fun e => (e.1 + 16, e.2) }

/-- The result of a pass reaches the chain: pushed once per offset, entries of lanes no pass serves unspecified. -/
def Skein.pushLatch (k : Skein) (ai free : Nat) (ls : List Nat) (f : Nat → W64) : Skein :=
  match (k.arm ai).issue with
  | none => k
  | some u =>
    let base := if u.pushed.isSome then k.r.latch else k.r.latch.push fun l => Config.freeDouble (free + l)
    (k.setLatch { base with ent := mapSetAll base.ent ls f }).modArm ai fun a =>
      { a with issue := some { u with pushed := some (u.pushed.getD k.r.latch) } }

/-- `b0` of the lanes of an algebra pass that pushes nothing (R346): unspecified. -/
def Skein.smearLatch (k : Skein) (free : Nat) (ls : List Nat) : Skein :=
  k.setLatch { k.r.latch with ent := mapSetAll k.r.latch.ent ls fun l => Config.freeDouble (free + l) }

namespace State

/-- A 32-bit lane result written (unless K suppresses it) and pushed, sticky bits set, the pass ended. -/
def lane32 (s : State) (p : Pass) (d : Nat) (k : Bool) (f : Nat → W32) (fl : BitVec 7) : State :=
  ((s.modSk p.bid p.ix fun x =>
      ((if k then x else x.setVs d p.lanes f).pushLatch p.ai s.fresh.free p.lanes fun l => (f l).setWidth 64).orStatus fl
    ).takeFree 16).endPass p
/-- The same for a 64-bit result in a register pair. -/
def lane64 (s : State) (p : Pass) (d : Nat) (k : Bool) (f : Nat → W64) (fl : BitVec 7) : State :=
  ((s.modSk p.bid p.ix fun x =>
      ((if k then x else x.setPairs d p.lanes f).pushLatch p.ai s.fresh.free p.lanes f).orStatus fl
    ).takeFree 16).endPass p
/-- Bits of mask `m` of the active lanes written (R80), the pass ended. -/
def laneMask (s : State) (p : Pass) (m : Nat) (v : Lanes) (fl : BitVec 7) : State :=
  (s.modSk p.bid p.ix fun x => (x.setMask m p.act v).orStatus fl).endPass p
/-- A uniform result of a K-class instruction. -/
def uniform (s : State) (p : Pass) (d : Nat) (v : W64) : State := (s.setK p d v).endPass p

end State

/-! ### The moulds of lane instructions: role, reach of every field, latches valid, then the result -/

/-- One source, 32-bit result. -/
def lane1 (s : State) (d : Nat) (k : Bool) (a : Src) (f : W32 → W32) : Host.Outcome State Fault Refusal :=
  s.withPass fun p =>
    s.laneGuarded p [p.laneRole, p.dest k d 1, p.srcReg a 1, p.fresh a] (s.lane32 p d k (fun l => f (p.val32 a l)) 0)
/-- Two sources, 32-bit result. -/
def lane2 (s : State) (d : Nat) (k : Bool) (a b : Src) (f : W32 → W32 → W32) : Host.Outcome State Fault Refusal :=
  s.withPass fun p =>
    s.laneGuarded p [p.laneRole, p.dest k d 1, p.srcReg a 1, p.srcReg b 1, p.fresh a, p.fresh b]
      (s.lane32 p d k (fun l => f (p.val32 a l) (p.val32 b l)) 0)
/-- Three sources, 32-bit result. -/
def lane3 (s : State) (d : Nat) (k : Bool) (a b c : Src) (f : W32 → W32 → W32 → W32) :
    Host.Outcome State Fault Refusal :=
  s.withPass fun p =>
    s.laneGuarded p
      [p.laneRole, p.dest k d 1, p.srcReg a 1, p.srcReg b 1, p.srcReg c 1, p.fresh a, p.fresh b, p.fresh c]
      (s.lane32 p d k (fun l => f (p.val32 a l) (p.val32 b l) (p.val32 c l)) 0)

/-- Sticky bits of every active lane, ORed (R146). -/
def flagsOf (ls : List Nat) (f : Nat → BitVec 7) : BitVec 7 := ls.foldl (fun m l => m ||| f l) 0

/-- One, two and three sources with sticky bits, 32-bit result. -/
def laneF1 (s : State) (d : Nat) (k : Bool) (a : Src) (f : W32 → W32 × BitVec 7) : Host.Outcome State Fault Refusal :=
  s.withPass fun p =>
    s.laneGuarded p [p.laneRole, p.dest k d 1, p.srcReg a 1, p.fresh a]
      (s.lane32 p d k (fun l => (f (p.val32 a l)).1) (flagsOf p.lanes fun l => (f (p.val32 a l)).2))
def laneF2 (s : State) (d : Nat) (k : Bool) (a b : Src) (f : W32 → W32 → W32 × BitVec 7) :
    Host.Outcome State Fault Refusal :=
  s.withPass fun p =>
    s.laneGuarded p [p.laneRole, p.dest k d 1, p.srcReg a 1, p.srcReg b 1, p.fresh a, p.fresh b]
      (s.lane32 p d k (fun l => (f (p.val32 a l) (p.val32 b l)).1)
        (flagsOf p.lanes fun l => (f (p.val32 a l) (p.val32 b l)).2))
def laneF3 (s : State) (d : Nat) (k : Bool) (a b c : Src) (f : W32 → W32 → W32 → W32 × BitVec 7) :
    Host.Outcome State Fault Refusal :=
  s.withPass fun p =>
    s.laneGuarded p
      [p.laneRole, p.dest k d 1, p.srcReg a 1, p.srcReg b 1, p.srcReg c 1, p.fresh a, p.fresh b, p.fresh c]
      (s.lane32 p d k (fun l => (f (p.val32 a l) (p.val32 b l) (p.val32 c l)).1)
        (flagsOf p.lanes fun l => (f (p.val32 a l) (p.val32 b l) (p.val32 c l)).2))

/-- A uniform instruction: K-class, executed by skeins and coach instances alike (R395). -/
def kOp (s : State) (d : Nat) (f : Pass → W64) : Host.Outcome State Fault Refusal :=
  s.withPass fun p => s.uniform p d (f p)

end Sys2Proof.Machine
end

