-- ==== Sys2Proof/Machine/IntegerAlu.lean ====
section
/-! DEFINITION. The integer lane instructions (04 R112; 16 R354, R358, R363; 17 R387-R391, R402, R408; 18 R412, R414, R423,
R424). -/

namespace Sys2Proof.Machine

/-! ### What each operation computes -/

def iminOf (a b : W32) : W32 := if b.slt a then b else a
def imaxOf (a b : W32) : W32 := if a.slt b then b else a
def uminOf (a b : W32) : W32 := if b.ult a then b else a
def umaxOf (a b : W32) : W32 := if a.ult b then b else a
/-- Bits [63:32] of the signed and unsigned products (R388). -/
def mulHigh (a b : W32) : W32 := (a.signExtend 64 * b.signExtend 64).extractLsb' 32 32
def mulHighU (a b : W32) : W32 := (a.setWidth 64 * b.setWidth 64).extractLsb' 32 32
/-- A shift amount is bits [4:0] (R423). -/
def shAmount (b : W32) : Nat := b.toNat % 32
/-- Leading zero bits, 0 to 32 (R363). -/
def clzOf (a : W32) : W32 :=
  match (List.range 32).find? fun i => a.getLsbD (31 - i) with
  | some n => BitVec.ofNat 32 n
  | none => 32
def popcOf (a : W32) : W32 := BitVec.ofNat 32 (popCount a.toNat 32)
def brevOf (a : W32) : W32 := a.reverse
def iabsOf (a : W32) : W32 := if a.getLsbD 31 then 0 - a else a
/-- Position, width and top bit of a field (R358). -/
def fieldPos (b : W32) : Nat := b.toNat % 32
def fieldWidth (b : W32) : Nat := b.toNat / 256 % 32
def fieldTop (b : W32) : Nat := min (fieldPos b + fieldWidth b - 1) 31
/-- `BFX` (R358). -/
def bfxOf (sx : Bool) (a b : W32) : W32 :=
  if fieldWidth b = 0 then 0
  else
    let n := fieldTop b - fieldPos b + 1
    let f := a.toNat / 2 ^ fieldPos b % 2 ^ n
    if sx then BitVec.ofInt 32 (signed n f) else BitVec.ofNat 32 f
/-- `BFI` (R358). -/
def bfiOf (a b c : W32) : W32 :=
  if fieldWidth b = 0 then c
  else
    let n := fieldTop b - fieldPos b + 1
    let m : W32 := BitVec.ofNat 32 ((2 ^ n - 1) * 2 ^ fieldPos b)
    (c &&& ~~~m) ||| ((a <<< fieldPos b) &&& m)

/-! ### Two sources (R112, R388) -/

def execIadd (d : Nat) (k : Bool) (a b : Src) (s : State) : Out := lane2 s d k a b fun x y => x + y
def execIsub (d : Nat) (k : Bool) (a b : Src) (s : State) : Out := lane2 s d k a b fun x y => x - y
def execImul (d : Nat) (k : Bool) (a b : Src) (s : State) : Out := lane2 s d k a b fun x y => x * y
def execImulh (d : Nat) (k : Bool) (a b : Src) (s : State) : Out := lane2 s d k a b mulHigh
def execImulhZ (d : Nat) (k : Bool) (a b : Src) (s : State) : Out := lane2 s d k a b mulHighU
def execImin (d : Nat) (k : Bool) (a b : Src) (s : State) : Out := lane2 s d k a b iminOf
def execIminZ (d : Nat) (k : Bool) (a b : Src) (s : State) : Out := lane2 s d k a b uminOf
def execImax (d : Nat) (k : Bool) (a b : Src) (s : State) : Out := lane2 s d k a b imaxOf
def execImaxZ (d : Nat) (k : Bool) (a b : Src) (s : State) : Out := lane2 s d k a b umaxOf
def execLand (d : Nat) (k : Bool) (a b : Src) (s : State) : Out := lane2 s d k a b fun x y => x &&& y
def execLor (d : Nat) (k : Bool) (a b : Src) (s : State) : Out := lane2 s d k a b fun x y => x ||| y
def execLxor (d : Nat) (k : Bool) (a b : Src) (s : State) : Out := lane2 s d k a b fun x y => x ^^^ y
def execShl (d : Nat) (k : Bool) (a b : Src) (s : State) : Out := lane2 s d k a b fun x y => x <<< shAmount y
def execShr (d : Nat) (k : Bool) (a b : Src) (s : State) : Out := lane2 s d k a b fun x y => x >>> shAmount y
def execSar (d : Nat) (k : Bool) (a b : Src) (s : State) : Out := lane2 s d k a b fun x y => x.sshiftRight (shAmount y)

/-- `IADDC` (R389): the carry of lane `l` in and out of `m7`. -/
def execIaddc (d : Nat) (k : Bool) (a b : Src) (s : State) : Out :=
  s.withPass fun p =>
    let c (l : Nat) : Bool := (p.sk.mask 7).getLsbD l
    s.laneGuarded p [p.laneRole, p.dest k d 1, p.srcReg a 1, p.srcReg b 1, p.fresh a, p.fresh b]
      ((s.modSk p.bid p.ix fun x =>
          x.setMask 7 p.act (laneSet fun l => carryOut (p.val32 a l) (p.val32 b l) (c l))).lane32 p d k
        (fun l => (carrySum (p.val32 a l) (p.val32 b l) (c l)).setWidth 32) 0)

/-! ### One source -/

def execMov (d : Nat) (k : Bool) (a : Src) (s : State) : Out := lane1 s d k a fun x => x
def execLnot (d : Nat) (k : Bool) (a : Src) (s : State) : Out := lane1 s d k a fun x => ~~~x
def execIneg (d : Nat) (k : Bool) (a : Src) (s : State) : Out := lane1 s d k a fun x => 0 - x
def execIabs (d : Nat) (k : Bool) (a : Src) (s : State) : Out := lane1 s d k a iabsOf
def execClz (d : Nat) (k : Bool) (a : Src) (s : State) : Out := lane1 s d k a clzOf
def execPopc (d : Nat) (k : Bool) (a : Src) (s : State) : Out := lane1 s d k a popcOf
def execBrev (d : Nat) (k : Bool) (a : Src) (s : State) : Out := lane1 s d k a brevOf

/-! ### Three sources, selection, addresses, fields, immediates -/

def execImad (d : Nat) (k : Bool) (a b : Src) (c : Nat) (s : State) : Out :=
  lane3 s d k a b (thirdSrc d c) fun x y z => x * y + z
def execBfi (d : Nat) (k : Bool) (a b : Src) (c : Nat) (s : State) : Out := lane3 s d k a b (thirdSrc d c) bfiOf
def execBfx (d : Nat) (k : Bool) (a b : Src) (sx : Bool) (s : State) : Out := lane2 s d k a b (bfxOf sx)

/-- `SEL` (R424): `mc` as it stands at the pass. -/
def selOf (s : State) (d : Nat) (k : Bool) (a b : Src) (c : Nat) : Out :=
  s.withPass fun p =>
    s.laneGuarded p [p.laneRole, p.dest k d 1, p.srcReg a 1, p.srcReg b 1, p.fresh a, p.fresh b]
      (s.lane32 p d k (fun l => if (p.sk.mask c).getLsbD l then p.val32 a l else p.val32 b l) 0)
def execSel (d : Nat) (k : Bool) (a b : Src) (c : Nat) (s : State) : Out := selOf s d k a b c

/-- `LEA` (R402): the pair va plus vb shifted left. -/
def leaOf (s : State) (d : Nat) (k : Bool) (a b : Src) (sh : Nat) : Out :=
  s.withPass fun p =>
    s.laneGuarded p
      [p.laneRole, p.dest k d 2, p.srcReg a 2, p.srcReg b 1, p.destEven k d, p.srcEven a, p.fresh a, p.fresh b]
      (s.lane64 p d k (fun l => p.val64 a l + ((p.val32 b l).setWidth 64 <<< sh)) 0)
def execLea (d : Nat) (k : Bool) (a b : Src) (sh : Nat) (s : State) : Out := leaOf s d k a b sh

/-- A constant in every active lane. -/
def constOf (s : State) (d : Nat) (k : Bool) (w : W32) : Out :=
  s.withPass fun p => s.laneGuarded p [p.laneRole, p.dest k d 1] (s.lane32 p d k (fun _ => w) 0)
/-- `MOVI` (R408): sign-extended. -/
def execMovi (d : Nat) (k : Bool) (imm : Nat) (s : State) : Out :=
  constOf s d k ((BitVec.ofNat 16 imm).signExtend 32)
/-- `MOVH` (R408): vd[15:0] kept; vd is a source also where K suppresses the write. -/
def execMovh (d : Nat) (k : Bool) (imm : Nat) (s : State) : Out :=
  s.withPass fun p =>
    s.laneGuarded p [p.laneRole, p.reg d 1]
      (s.lane32 p d k (fun l => BitVec.ofNat 16 imm ++ (p.sk.v d l).setWidth 16) 0)

/-- `ICMP` (R390): bits of the active lanes of `md`. -/
def execIcmp (d : Nat) (a b : Src) (cond : ICond) (s : State) : Out :=
  s.withPass fun p =>
    s.laneGuarded p [p.laneRole, p.srcReg a 1, p.srcReg b 1, p.fresh a, p.fresh b]
      (s.laneMask p d (laneSet fun l => icond cond (p.val32 a l) (p.val32 b l)) 0)

end Sys2Proof.Machine
end

