-- ==== Sys2Proof/Machine/FloatAlu.lean ====
section
/-! DEFINITION. The floating-point lane instructions but for the transcendental ones (04 R113; 05 R146-R148; 16 R366, R368,
R369, R371; 17 R376-R379, R382, R383, R386). -/

namespace Sys2Proof.Machine

/-! ### Binary32 and binary16 -/

def execFabs (d : Nat) (k : Bool) (a : Src) (s : State) : Out := lane1 s d k a fun x => x &&& 0x7FFFFFFF
def execFneg (d : Nat) (k : Bool) (a : Src) (s : State) : Out := lane1 s d k a fun x => x ^^^ 0x80000000
def execFadd (d : Nat) (k : Bool) (a b : Src) (rm : Rm) (s : State) : Out := laneF2 s d k a b (fadd32 rm)
def execFsub (d : Nat) (k : Bool) (a b : Src) (rm : Rm) (s : State) : Out := laneF2 s d k a b (fsub32 rm)
def execFmul (d : Nat) (k : Bool) (a b : Src) (rm : Rm) (s : State) : Out := laneF2 s d k a b (fmul32 rm)
def execFfma (d : Nat) (k : Bool) (a b : Src) (c : Nat) (s : State) : Out := laneF3 s d k a b (thirdSrc d c) ffma32
def execHfma2 (d : Nat) (k : Bool) (a b : Src) (c : Nat) (s : State) : Out := laneF3 s d k a b (thirdSrc d c) hfma2Of
def execHadd2 (d : Nat) (k : Bool) (a b : Src) (s : State) : Out := laneF2 s d k a b hadd2Of
def execFmin (d : Nat) (k : Bool) (a b : Src) (s : State) : Out := laneF2 s d k a b (fminmax false)
def execFmax (d : Nat) (k : Bool) (a b : Src) (s : State) : Out := laneF2 s d k a b (fminmax true)
def execFclass (d : Nat) (k : Bool) (a : Src) (s : State) : Out := lane1 s d k a fclassOf
def execFsqrt (d : Nat) (k : Bool) (a : Src) (s : State) : Out := laneF1 s d k a fun x => w32 (fmt32.sqrt x.toNat)

/-- `FCMP` (R379): bits of the active lanes of `md`. -/
def execFcmp (d : Nat) (a b : Src) (cond : FCond) (s : State) : Out :=
  s.withPass fun p =>
    s.laneGuarded p [p.laneRole, p.srcReg a 1, p.srcReg b 1, p.fresh a, p.fresh b]
      (s.laneMask p d (laneSet fun l => (fcondOf cond (p.val32 a l).toNat (p.val32 b l).toNat).1)
        (flagsOf p.lanes fun l => (fcondOf cond (p.val32 a l).toNat (p.val32 b l).toNat).2))

/-! ### Binary64 on pairs (R368, R369, R371) -/

/-- Two pairs to a pair. -/
def laneD2 (s : State) (d : Nat) (k : Bool) (a b : Src) (f : W64 → W64 → W64 × BitVec 7) : Out :=
  s.withPass fun p =>
    s.laneGuarded p
      [p.laneRole, p.destEven k d, p.srcEven a, p.srcEven b, p.dest k d 2, p.srcReg a 2, p.srcReg b 2, p.fresh a,
        p.fresh b]
      (s.lane64 p d k (fun l => (f (p.val64 a l) (p.val64 b l)).1)
        (flagsOf p.lanes fun l => (f (p.val64 a l) (p.val64 b l)).2))
def execDadd (d : Nat) (k : Bool) (a b : Src) (rm : Rm) (s : State) : Out := laneD2 s d k a b (dadd64 rm)
def execDmul (d : Nat) (k : Bool) (a b : Src) (rm : Rm) (s : State) : Out := laneD2 s d k a b (dmul64 rm)
/-- `DFMA` (R371): an odd register named by C raises OPERAND. -/
def execDfma (d : Nat) (k : Bool) (a b : Src) (c : Nat) (s : State) : Out :=
  s.withPass fun p =>
    let z := thirdSrc d c
    let r (l : Nat) : W64 × BitVec 7 := dfma64 (p.val64 a l) (p.val64 b l) (p.val64 z l)
    s.laneGuarded p
      [p.laneRole, p.destEven k d, p.srcEven a, p.srcEven b, p.srcEven z, p.dest k d 2, p.srcReg a 2, p.srcReg b 2,
        p.srcReg z 2, p.fresh a, p.fresh b, p.fresh z]
      (s.lane64 p d k (fun l => (r l).1) (flagsOf p.lanes fun l => (r l).2))

/-! ### Conversion (R110, R148) -/

/-- A conversion type: a float format, or an integer of a width, signed or not. -/
inductive CvtKind where
  | flt (f : Fmt)
  | int (w : Nat) (signed : Bool)
  deriving DecidableEq, Repr

def cvtKind : CvtTy → CvtKind
  | .f64 => .flt fmt64 | .f32 => .flt fmt32 | .f16 => .flt fmt16 | .bf16 => .flt fmtBf16 | .e5m2 => .flt fmtE5m2
  | .e4m3 => .flt fmtE4m3 | .e3m4 => .flt fmtE3m4 | .s32 => .int 32 true | .z32 => .int 32 false | .s16 => .int 16 true
  | .z16 => .int 16 false | .s8 => .int 8 true | .z8 => .int 8 false | .s64 => .int 64 true | .z64 => .int 64 false
def wideTy : CvtTy → Bool
  | .f64 | .s64 | .z64 => true
  | _ => false
/-- The ends of an integer type. -/
def intLow (w : Nat) (sg : Bool) : Int := if sg then -((2 ^ (w - 1) : Nat) : Int) else 0
def intHigh (w : Nat) (sg : Bool) : Int := if sg then ((2 ^ (w - 1) : Nat) : Int) - 1 else ((2 ^ w : Nat) : Int) - 1
/-- An integer result as the register holds it: sign above for signed types, else zero (R110). -/
def placeInt (w : Nat) (sg : Bool) (v : Int) : W64 :=
  let n := toBits w v
  if sg then BitVec.ofInt 64 (signed w n) else BitVec.ofNat 64 n
/-- A finite value to an integer type: rounded, clamped to the range. -/
def intOfFin (rm : Rm) (w : Nat) (sg : Bool) (neg : Bool) (man : Nat) (exp : Int) : W64 × BitVec 7 :=
  let r := roundTo rm neg man exp 0
  let v := finInt neg r.1
  if v < intLow w sg then (placeInt w sg (intLow w sg), stNV ||| stNX)
  else if intHigh w sg < v then (placeInt w sg (intHigh w sg), stNV ||| stNX)
  else (placeInt w sg v, flagIf r.2 stNX)
/-- A value to a float format. -/
def fltOf (f : Fmt) (rm : Rm) (sat : Bool) : FV → Nat × BitVec 7
  | .nan g => (f.qnan, flagIf g stNV)
  | .inf n => if sat then (f.maxBits n, stNX) else if f.inf then (f.infBits n, 0) else (f.qnan, stNV)
  | .fin n m e => f.round rm sat n m e
/-- The conversion table of R148; flags of integer sources as log 22 reads them. -/
def cvtOf (sat : Bool) (dt st : CvtTy) (rm : Rm) (x : W64) : W64 × BitVec 7 :=
  match cvtKind st, cvtKind dt with
  | .flt f, .flt g =>
    let r := fltOf g rm sat (f.val (x.toNat % 2 ^ f.width))
    (BitVec.ofNat 64 r.1, r.2)
  | .flt f, .int w sg =>
    match f.val (x.toNat % 2 ^ f.width) with
    | .nan _ => (0, stNV)
    | .inf n => (placeInt w sg (if n then intLow w sg else intHigh w sg), stNV)
    | .fin n m e => intOfFin rm w sg n m e
  | .int w sg, .flt g =>
    let v := if sg then signed w (x.toNat % 2 ^ w) else ((x.toNat % 2 ^ w : Nat) : Int)
    let r := fltOf g rm sat (.fin (decide (v < 0)) v.natAbs 0)
    (BitVec.ofNat 64 r.1, r.2)
  | .int w sg, .int w' sg' =>
    let v := if sg then signed w (x.toNat % 2 ^ w) else ((x.toNat % 2 ^ w : Nat) : Int)
    if intLow w' sg' ≤ v ∧ v ≤ intHigh w' sg' then (placeInt w' sg' v, 0)
    else if sat then (placeInt w' sg' (if v < intLow w' sg' then intLow w' sg' else intHigh w' sg'), stNV ||| stNX)
    else (placeInt w' sg' v, stNV)

/-- Both forms of `CVT` (R366): DT = ST is ENCODING, pairs are even. -/
def cvtWith (sat : Bool) (d : Nat) (k : Bool) (a : Src) (dt st : CvtTy) (rm : Rm) (s : State) : Out :=
  s.withPass fun p =>
    let dw := wideTy dt
    let sw := wideTy st
    let x (l : Nat) : W64 := if sw then p.val64 a l else (p.val32 a l).setWidth 64
    let r (l : Nat) : W64 × BitVec 7 := cvtOf sat dt st rm (x l)
    let fl := flagsOf p.lanes fun l => (r l).2
    s.guarded p [whenBad (dt == st) (p.ill .encoding)] <| s.laneGuarded p
      [p.laneRole, if dw then p.destEven k d else none,
        if sw then p.srcEven a else none, p.dest k d (if dw then 2 else 1), p.srcReg a (if sw then 2 else 1), p.fresh a]
      (if dw then s.lane64 p d k (fun l => (r l).1) fl
       else s.lane32 p d k (fun l => (r l).1.setWidth 32) fl)
def execCvt (d : Nat) (k : Bool) (a : Src) (dt st : CvtTy) (rm : Rm) (s : State) : Out := cvtWith false d k a dt st rm s
def execCvtSat (d : Nat) (k : Bool) (a : Src) (dt st : CvtTy) (rm : Rm) (s : State) : Out :=
  cvtWith true d k a dt st rm s

end Sys2Proof.Machine
end

