-- ==== Sys2Proof/Machine/AlgebraInstr.lean ====
section
/-! DEFINITION. Exact sums of products (05 R144) and the algebra instructions `AMUL`, `AMAD`, `ACONJ` and `ANORM` (05 R150-R154;
16 R346, R353). -/

namespace Sys2Proof.Machine

/-! ### Exact sums of products (R144, R154) -/

/-- An exact product with a sign; none for zero times infinity. -/
def signedMul (neg : Bool) (x y : FV) : Option FV := (x.mul y).map fun v => if neg then v.negate else v
/-- The sum of finite values at one exponent, with whether every one of them is −0. -/
def sumFin (l : List FV) : Int × Int × Bool :=
  let e := l.foldl (fun (e : Int) v => match v with | .fin _ _ f => min e f | _ => e) 0
  (l.foldl (fun (t : Int) v => match v with | .fin n m f => t + finInt n m * 2 ^ (f - e).toNat | _ => t) 0, e,
    !l.isEmpty && l.all fun v => v.isZero && v.neg?)
/-- The exact sum of signed products: the canonical NaN for a NaN operand, zero times infinity or infinities of both signs
(NV where that is an invalid operation), an infinity, or a finite value; −0 only when every product is −0. Beside a quiet NaN operand
another term's zero times infinity sets NV, infinities of both signs do not (log 95). -/
def dotExact (l : List (Bool × FV × FV)) : FV × BitVec 7 :=
  let prods := l.map fun t => signedMul t.1 t.2.1 t.2.2
  let nans := l.filter fun t => isNan t.2.1 || isNan t.2.2
  let sig := l.any fun t => isSig t.2.1 || isSig t.2.2
  let zeroInf := l.any fun t => !isNan t.2.1 && !isNan t.2.2 && (signedMul t.1 t.2.1 t.2.2).isNone
  let vals := prods.filterMap fun v => v
  let up := vals.any fun v => v == .inf false
  let dn := vals.any fun v => v == .inf true
  if !nans.isEmpty || zeroInf then (.nan false, flagIf (sig || zeroInf) stNV)
  else if up && dn then (.nan false, stNV)
  else if up then (.inf false, 0)
  else if dn then (.inf true, 0)
  else
    let t := sumFin vals
    (if t.1 = 0 then .fin t.2.2 0 0 else .fin (decide (t.1 < 0)) t.1.natAbs t.2.1, 0)
/-- A value rounded to nearest even. -/
def Fmt.roundV (f : Fmt) (v : FV) : Nat × BitVec 7 :=
  match v with
  | .nan _ => (f.qnan, 0)
  | .inf n => (f.infBits n, 0)
  | .fin n m e => f.round .rne false n m e
/-- The exact sum rounded once. -/
def Fmt.dot (f : Fmt) (l : List (Bool × FV × FV)) : Nat × BitVec 7 :=
  let t := dotExact l
  let r := f.roundV t.1
  (r.1, t.2 ||| r.2)

/-! ### Algebra tables (R150-R152) -/

/-- The table of a core's slot. -/
def Core.slot (c : Core) (i : Nat) : List Nat := mapGetD c.slots i (Config.preloaded i)
def tableDim (t : List Nat) : Nat := t.headD 1
/-- γ of a component is −1. -/
def tableConj (t : List Nat) (i : Nat) : Bool := bit1 ((t[1]?).getD 0) i
def tableEntry (t : List Nat) (i j : Nat) : Nat := (t[64 + 8 * i + j]?).getD 0
/-- The pairs (i, j) of target `k` with non-zero sign, ascending: i, j and whether the sign is −. -/
def tableTerms (t : List Nat) (k : Nat) : List (Nat × Nat × Bool) :=
  let d := tableDim t
  (List.range (d * d)).filterMap fun n =>
    let e := tableEntry t (n / d) (n % d)
    if bitsOf e 4 3 != 0 && e % 8 == k then some (n / d, n % d, bit1 e 4) else none

/-- Component `k` of a product of two elements. -/
def productTerms (t : List Nat) (k : Nat) (x y : Nat → FV) : List (Bool × FV × FV) :=
  (tableTerms t k).map fun e => (e.2.2, x e.1, y e.2.1)
/-- The terms of a norm: s · γ_j · x_i · x_j with target 0. -/
def normTerms (t : List Nat) (x : Nat → FV) : List (Bool × FV × FV) :=
  (tableTerms t 0).map fun e => (e.2.2 != tableConj t e.2.1, x e.1, x e.2.1)

/-! ### The instructions (R154, R353) -/

namespace Pass

def table (p : Pass) (s : State) (slot : Nat) : List Nat := (s.core p.core).slot slot
/-- Component `i` of the element at `vr` in lane `l`. -/
def comp (p : Pass) (r l i : Nat) : FV := fmt32.val (p.sk.v (r + i) l).toNat
/-- An element field: an aligned group inside `v0`-`v63`. -/
def element (p : Pass) (r d : Nat) : Option Trap := whenBad (r % d != 0 || decide (64 < r + d)) (p.ill .operand)

end Pass

/-- A result element written, `b0` of the lanes unspecified unless d = 1 (R346). -/
def algebraOut (s : State) (p : Pass) (d dim : Nat) (f : Nat → Nat → W32) (fl : BitVec 7) : State :=
  if dim = 1 then s.lane32 p d false (fun l => f l 0) fl
  else
    ((s.modSk p.bid p.ix fun k =>
        (((List.range dim).foldl (fun (k : Skein) i => k.setVs (d + i) p.lanes fun l => f l i) k).smearLatch s.fresh.free
          p.lanes).orStatus fl).takeFree 16).endPass p
/-- `AMUL` and `AMAD`: component `k` of a lane with its flags. -/
def amulOf (p : Pass) (t : List Nat) (a b l k : Nat) : Nat × BitVec 7 := fmt32.dot (productTerms t k (p.comp a l) (p.comp b l))
def amadOf (p : Pass) (t : List Nat) (d a b l k : Nat) : Nat × BitVec 7 :=
  let q := amulOf p t a b l k
  let r := fmt32.add .rne (p.sk.v (d + k) l).toNat q.1
  (r.1, q.2 ||| r.2)
def algebra2 (s : State) (d a b slot : Nat) (f : Pass → List Nat → Nat → Nat → Nat × BitVec 7) : Out :=
  s.withPass fun p =>
    let t := p.table s slot
    let n := tableDim t
    s.laneGuarded p [p.laneRole, p.element a n, p.element b n, p.element d n, p.reg a n, p.reg b n, p.reg d n]
      (algebraOut s p d n (fun l k => BitVec.ofNat 32 (f p t l k).1)
        (flagsOf p.lanes fun l => flagsOf (List.range n) fun k => (f p t l k).2))
def execAmul (d a b slot : Nat) (s : State) : Out := algebra2 s d a b slot fun p t l k => amulOf p t a b l k
def execAmad (d a b slot : Nat) (s : State) : Out := algebra2 s d a b slot fun p t l k => amadOf p t d a b l k
def execAconj (d a slot : Nat) (s : State) : Out :=
  s.withPass fun p =>
    let t := p.table s slot
    let n := tableDim t
    s.laneGuarded p [p.laneRole, p.element a n, p.element d n, p.reg a n, p.reg d n]
      (algebraOut s p d n (fun l k => if tableConj t k then p.sk.v (a + k) l ^^^ 0x80000000 else p.sk.v (a + k) l) 0)
/-- `ANORM` writes one register and always pushes (R346). -/
def execAnorm (d a slot : Nat) (s : State) : Out :=
  s.withPass fun p =>
    let t := p.table s slot
    let n := tableDim t
    let f (l : Nat) : Nat × BitVec 7 := fmt32.dot (normTerms t (p.comp a l))
    s.laneGuarded p [p.laneRole, p.element a n, p.reg a n, p.reg d 1]
      (s.lane32 p d false (fun l => BitVec.ofNat 32 (f l).1) (flagsOf p.lanes fun l => (f l).2))

/-! ### `ATAB` (R152, R153, R355) -/

/-- The image is a legal table. -/
def tableOk (t : List Nat) : Bool :=
  let d := tableDim t
  (d == 1 || d == 2 || d == 4 || d == 8) && (t[1]?).getD 0 / 2 ^ d == 0 && ((t.drop 4).take 60).all (· == 0)
    && (List.range 64).all fun n =>
      let i := n / 8
      let j := n % 8
      let e := tableEntry t i j
      let sg := bitsOf e 4 3
      let k := e % 8
      sg != 2 && e / 32 == 0 && (decide (i < d ∧ j < d) || e == 0) && (if sg = 0 then k == 0 else decide (k < d))

end Sys2Proof.Machine
end

