-- ==== Sys2Proof/Machine/Keccak.lean ====
section
/-! DEFINITION. SHAKE256 (FIPS 202), which names swatch lines and signs launches and firmware (07 R183; 11 R280; 13 R326), and the
CRCs of the links (13 R307, R310). -/

namespace Sys2Proof.Machine

/-! ### Keccak-f[1600]: 25 words, word x + 5 y at index 5 y + x -/

abbrev KState := List (BitVec 64)

def kWord (a : KState) (x y : Nat) : BitVec 64 := (a[x % 5 + 5 * (y % 5)]?).getD 0
def kBuild (f : Nat → Nat → BitVec 64) : KState := (List.range 25).map fun i => f (i % 5) (i / 5)
/-- Rotation offsets ρ, by x + 5 y. -/
def rhoTable : List Nat :=
  [0, 1, 62, 28, 27, 36, 44, 6, 55, 20, 3, 10, 43, 25, 39, 41, 45, 15, 21, 8, 18, 2, 61, 56, 14]
/-- Round constants ι. -/
def iotaTable : List Nat :=
  [0x1, 0x8082, 0x800000000000808A, 0x8000000080008000, 0x808B, 0x80000001, 0x8000000080008081, 0x8000000000008009, 0x8A, 0x88,
   0x80008009, 0x8000000A, 0x8000808B, 0x800000000000008B, 0x8000000000008089, 0x8000000000008003, 0x8000000000008002,
   0x8000000000000080, 0x800A, 0x800000008000000A, 0x8000000080008081, 0x8000000000008080, 0x80000001, 0x8000000080008008]
def kRound (a : KState) (rc : Nat) : KState :=
  let cs := (List.range 5).map fun x => kWord a x 0 ^^^ kWord a x 1 ^^^ kWord a x 2 ^^^ kWord a x 3 ^^^ kWord a x 4
  let col (x : Nat) : BitVec 64 := (cs[x % 5]?).getD 0
  let th := kBuild fun x y => kWord a x y ^^^ col (x + 4) ^^^ (col (x + 1)).rotateLeft 1
  let b := kBuild fun x y =>
    let sx := (x + 3 * y) % 5
    (kWord th sx x).rotateLeft ((rhoTable[sx + 5 * x]?).getD 0)
  let ch := kBuild fun x y => kWord b x y ^^^ (~~~kWord b (x + 1) y &&& kWord b (x + 2) y)
  match ch with
  | [] => []
  | w :: r => (w ^^^ BitVec.ofNat 64 rc) :: r
def keccakF (a : KState) : KState := iotaTable.foldl kRound a

/-! ### The sponge: rate 136 bytes -/

def absorb (a : KState) (block : List Byte) : KState :=
  keccakF ((List.range 25).map fun i =>
    (a[i]?).getD 0 ^^^ (if i < 17 then BitVec.ofNat 64 (natAt block (8 * i) 8) else 0))
def absorbAll : Nat → KState → List Byte → KState
  | 0, a, _ => a
  | n + 1, a, m => absorbAll n (absorb a (m.take 136)) (m.drop 136)
/-- Message padded with the SHAKE suffix 1111 and pad10*1. -/
def shakePad (m : List Byte) : List Byte :=
  let n := 136 - m.length % 136
  m ++ (if n = 1 then [0x9F] else [0x1F] ++ List.replicate (n - 2) 0 ++ [0x80])
def squeeze : Nat → KState → List Byte
  | 0, _ => []
  | n + 1, a => ((a.take 17).map fun w => leBytes 8 w.toNat).flatten ++ squeeze n (keccakF a)
/-- The first `n` bytes of SHAKE256. -/
def shake256 (m : List Byte) (n : Nat) : List Byte :=
  let p := shakePad m
  (squeeze ((n + 135) / 136) (absorbAll (p.length / 136) (List.replicate 25 0) p)).take n

/-! ### CRCs -/

/-- CRC-32 of IEEE 802.3: reflected, initial value and final inversion all ones. -/
def crc32 (m : List Byte) : Nat :=
  let bit (c : BitVec 32) (_ : Nat) : BitVec 32 := if c.getLsbD 0 then (c >>> 1) ^^^ 0xEDB88320 else c >>> 1
  (~~~(m.foldl (fun (c : BitVec 32) b => (List.range 8).foldl bit (c ^^^ b.setWidth 32)) 0xFFFFFFFF)).toNat
/-- CRC-64 with the ECMA-182 polynomial (R310): highest bit first, initial value 0, no final inversion (log 62). -/
def crc64 (m : List Byte) : Nat :=
  let bit (c : BitVec 64) (_ : Nat) : BitVec 64 := if c.getLsbD 63 then (c <<< 1) ^^^ 0x42F0E1EBA9EA3693 else c <<< 1
  (m.foldl (fun (c : BitVec 64) b => (List.range 8).foldl bit (c ^^^ (b.setWidth 64).shiftLeft 56)) 0).toNat

end Sys2Proof.Machine
end

