-- ==== Sys2Proof/Machine/Links.lean ====
section
/-! DEFINITION. Flits, and what a link port sends and receives (13 R305, R307, R308). -/

namespace Sys2Proof.Machine

/-- A flit (R307): payload, type and sequence number, acknowledgement, CRC. -/
def flit (typ seq ack : Nat) (payload : List Byte) : List Byte :=
  let b := padTo 64 payload ++ leBytes 2 (seq % 4096 + 4096 * typ) ++ leBytes 2 (ack % 4096)
  b ++ leBytes 4 (crc32 b)
def flitType (f : List Byte) : Nat := natAt f 64 2 / 4096
def flitSeq (f : List Byte) : Nat := natAt f 64 2 % 4096
def flitAck (f : List Byte) : Nat := natAt f 66 2 % 4096
/-- A flit whose CRC is good and whose type is none of the reserved ones. -/
def flitGood (f : List Byte) : Bool :=
  f.length == 72 && natAt f 68 4 == crc32 (f.take 68) && [1, 2, 3, 4, 5, 8, 9, 10].contains (flitType f)

namespace State

/-- Ports of a package: four to each of its eight tray switches. -/
def portsPerPkg : Nat := 32
def linkPkg (link : Nat) : Nat := link / portsPerPkg
/-- The switch of a tray that a line's traffic passes, 0 to 7 (R305). -/
def planeOf (va : Nat) : Nat := bitsOf va 9 7 ^^^ bitsOf va 12 10
/-- Ports of a package to each switch that are populated: half of them on the 7220 (R305). -/
def portsPerSwitch (s : State) : Nat := if Config.dies s.variant < 4 then 2 else 4
/-- A port that the rack device has; those of a switch stand from 2^32 on. -/
def linkThere (s : State) (link : Nat) : Bool :=
  decide (2 ^ 32 ≤ link) || (decide (linkPkg link < Config.packages) && decide (link % 4 < s.portsPerSwitch))
/-- The port by which a package sends requests and responses for a line (R305); on the 7220 the low bit of VA[14:13] chooses (log 89). -/
def linkFor (s : State) (pkg va : Nat) : Nat := portsPerPkg * pkg + 4 * planeOf va + bitsOf va 14 13 % s.portsPerSwitch
/-- The port by which a tray's switch of the line's plane sends towards a package: one of its four ports to a package of its own tray, or
its port to the same switch of another tray (R305; log 29). -/
def switchPort (s : State) (t va pkg : Nat) : Nat :=
  2 ^ 32 + 64 * (8 * t + planeOf va)
    + if pkg / Config.perTray = t then 4 * (pkg % Config.perTray) + bitsOf va 14 13 % s.portsPerSwitch else 16 + pkg / Config.perTray
/-- What the receiver last took in order. -/
def lastGood (p : Port) : Nat := (p.rxSeq + 4095) % 4096
def putOut (s : State) (link : Nat) (fs : List (List Byte)) : State :=
  (s.modPort link fun p => { p with sent := p.sent ++ fs }).countPkg (linkPkg link) 0x06 4096 fs.length
/-- A sequenced flit: numbered and kept until an ACK covers it; with 512 unacknowledged, or after others that wait, it waits. -/
def sendFlit (s : State) (link typ : Nat) (payload : List Byte) : State :=
  let p := s.port link
  if 512 ≤ p.retry.length ∨ p.waiting ≠ [] ∨ p.state ≠ 0 then s.modPort link fun p => { p with waiting := p.waiting ++ [(typ, payload)] }
  else
    let f := flit typ p.txSeq (lastGood p) payload
    (s.modPort link fun p =>
      { p with txSeq := (p.txSeq + 1) % 4096, retry := p.retry ++ [f], since := if p.retry.isEmpty then s.time.ns else p.since }).putOut link [f]
/-- Flits that wait go out as far as there is room. -/
def flushWaiting : Nat → State → Nat → State
  | 0, s, _ => s
  | n + 1, s, link =>
    let p := s.port link
    match p.waiting with
    | [] => s
    | w :: l =>
      if 512 ≤ p.retry.length ∨ p.state ≠ 0 then s
      else flushWaiting n ((((s.modPort link fun p => { p with waiting := [] }).sendFlit link w.1 w.2)).modPort link fun p => { p with waiting := l }) link
/-- What is kept of a packet in progress when flits of it have been acknowledged: HEAD and BODY, until its last flit is (R308). -/
def openPacket (b l : List (List Byte)) : List (List Byte) :=
  l.foldl (fun b f => match flitType f with
    | 1 => [f]
    | 2 => b ++ [f]
    | _ => []) b
/-- An acknowledgement releases the flits it covers; progress clears the count of resends. -/
def acknowledge (s : State) (link ack : Nat) : State :=
  let p := s.port link
  let n := match p.retry with
    | [] => 0
    | f :: _ =>
      let d := (ack + 4096 - flitSeq f) % 4096
      if d < p.retry.length then d + 1 else 0
  if n = 0 then s
  else flushWaiting 512 (s.modPort link fun p => 
      { p with retry := p.retry.drop n, resends := 0, since := s.time.ns, begun := openPacket p.begun (p.retry.take n) }) link
/-- Every unacknowledged flit is sent again, in order. -/
def resend (s : State) (link : Nat) : State :=
  let p := s.port link
  if p.state ≠ 0 ∨ p.retry.isEmpty then s
  else ((s.modPort link fun p => { p with resends := p.resends + 1, since := s.time.ns }).countPkg (linkPkg link) 0x07 4096 p.retry.length).putOut link p.retry
/-- The integrity tag of a burst stands in its last eight bytes (R310; log 62): the burst with its tag. -/
def withTag (b : List Byte) : List Byte := b ++ leBytes 8 (crc64 b)
def tagGood (b : List Byte) : Bool := decide (8 ≤ b.length) && natAt b (b.length - 8) 8 == crc64 (b.take (b.length - 8))
/-- Every burst of a packet, of up to 16 flits each, has a good tag. -/
def tagsGood (b : List Byte) : Bool := (List.range ((b.length + 1023) / 1024)).all fun i => tagGood ((b.drop (1024 * i)).take 1024)
/-- A packet of one flit on a port: its payload, which the spec does not lay out (log 29), and its integrity tag. -/
def sendSolo (s : State) (link : Nat) : State :=
  (s.sendFlit link 4 (withTag ((List.range 56).map fun i => Config.freeByte (s.fresh.free + i)))).takeFree 56
/-- A request or response leaves a package. -/
def sendPacket (s : State) (pkg va : Nat) : State := s.sendSolo (s.linkFor pkg va)
/-- The switch of a tray sends one towards a package. -/
def switchPacket (s : State) (t va pkg : Nat) : State := s.sendSolo (s.switchPort t va pkg)

end State

end Sys2Proof.Machine
end

