-- ==== Sys2Proof/Machine/Aes.lean ====
section
/-! DEFINITION. AES-256 and its XTS mode over a 32-byte granule (06 R179). Bytes stand as numbers below 256; a block is 16 of them. -/

namespace Sys2Proof.Machine.Aes

/-! ### The field of 256 elements -/

def xtime (a : Nat) : Nat := if a < 128 then 2 * a else (2 * a) ^^^ 0x11B
def gmul (a b : Nat) : Nat :=
  ((List.range 8).foldl (fun (acc : Nat × Nat) i => (if bit1 b i then acc.1 ^^^ acc.2 else acc.1, xtime acc.2)) (0, a)).1
/-- The inverse, a^254; 0 for 0. -/
def inv (a : Nat) : Nat :=
  let r := (List.range 7).foldl (fun r _ => gmul (gmul r r) a) 1
  gmul r r
def rotl8 (b n : Nat) : Nat := (b * 2 ^ n + b / 2 ^ (8 - n)) % 256
def sbox (x : Nat) : Nat :=
  let b := inv x
  b ^^^ rotl8 b 1 ^^^ rotl8 b 2 ^^^ rotl8 b 3 ^^^ rotl8 b 4 ^^^ 0x63
def unsbox (y : Nat) : Nat := inv (rotl8 y 1 ^^^ rotl8 y 3 ^^^ rotl8 y 6 ^^^ 0x05)

/-! ### The cipher -/

def xorBytes (a b : List Nat) : List Nat := List.zipWith (· ^^^ ·) a b
/-- The 60 words of the key schedule, four bytes each. -/
def schedule (key : List Nat) : List (List Nat) :=
  (List.range 52).foldl (fun ws i =>
    let n := i + 8
    let t := (ws[n - 1]?).getD []
    let t :=
      if n % 8 = 0 then
        let r := (t.drop 1 ++ t.take 1).map sbox
        xorBytes r [(List.range (n / 8 - 1)).foldl (fun x _ => xtime x) 1, 0, 0, 0]
      else if n % 8 = 4 then t.map sbox
      else t
    ws ++ [xorBytes ((ws[n - 8]?).getD []) t]) ((List.range 8).map fun i => (key.drop (4 * i)).take 4)
def roundKey (ws : List (List Nat)) (r : Nat) : List Nat := ((ws.drop (4 * r)).take 4).flatten
def byteAt (b : List Nat) (i : Nat) : Nat := (b[i]?).getD 0
/-- Row `r` of the state moves left by `r` columns; `k` = 3 moves it back. -/
def shiftRows (k : Nat) (b : List Nat) : List Nat :=
  (List.range 16).map fun i => byteAt b (i % 4 + 4 * ((i / 4 + k * (i % 4)) % 4))
/-- Every column multiplied by the circulant matrix of a first row. -/
def mixColumns (m : List Nat) (b : List Nat) : List Nat :=
  (List.range 16).map fun i =>
    (List.range 4).foldl (fun x j => x ^^^ gmul (byteAt b (4 * (i / 4) + j)) (byteAt m ((j + 4 - i % 4) % 4))) 0
def encrypt (ws : List (List Nat)) (b : List Nat) : List Nat :=
  let b := (List.range 13).foldl (fun b r =>
    xorBytes (mixColumns [2, 3, 1, 1] (shiftRows 1 (b.map sbox))) (roundKey ws (r + 1))) (xorBytes b (roundKey ws 0))
  xorBytes (shiftRows 1 (b.map sbox)) (roundKey ws 14)
def decrypt (ws : List (List Nat)) (b : List Nat) : List Nat :=
  let b := (List.range 13).foldl (fun b r =>
    mixColumns [14, 11, 13, 9] (xorBytes ((shiftRows 3 b).map unsbox) (roundKey ws (13 - r)))) (xorBytes b (roundKey ws 14))
  xorBytes ((shiftRows 3 b).map unsbox) (roundKey ws 0)

/-! ### XTS over a granule -/

/-- A tweak times the field's generator. -/
def nextTweak (t : Nat) : Nat := if t < 2 ^ 127 then 2 * t else (2 * t - 2 ^ 128) ^^^ 0x87
/-- A granule of 32 bytes at a channel address enciphered, or deciphered, under a key of 64 bytes (log 82): its first half is the data
key, its second half the tweak's. -/
def xts (back : Bool) (key addr : Nat) (b : List Byte) : List Byte :=
  let k := (leBytes 64 key).map (·.toNat)
  let ws := schedule (k.take 32)
  let t0 := leNat ((encrypt (schedule (k.drop 32)) ((leBytes 16 addr).map (·.toNat))).map (BitVec.ofNat 8))
  let block (t : Nat) (x : List Byte) : List Byte :=
    let w := (leBytes 16 t).map (·.toNat)
    let x := xorBytes (x.map (·.toNat)) w
    (xorBytes (if back then decrypt ws x else encrypt ws x) w).map (BitVec.ofNat 8)
  block t0 (b.take 16) ++ block (nextTweak t0) ((b.drop 16).take 16)

end Sys2Proof.Machine.Aes
end

