-- ==== Sys2Proof/Machine/Memory.lean ====
section
/-! DEFINITION. The global space: homes, page tables, channel translation units and what a home does with a read or a store (06
R160-R169, R174, R177-R180; 08 R194, R195, R437; 13 R312). -/

namespace Sys2Proof

/-- A scope's value (R104). -/
def Scope.level : Scope → Nat
  | .core => 0
  | .die => 1
  | .pkg => 2
  | .tray => 3
  | .rack => 4
/-- Bytes of an access (R107). -/
def Size.bytes : Size → Nat
  | .b8 => 1
  | .b16 => 2
  | .b32 => 4
  | .b64 => 8

end Sys2Proof

namespace Sys2Proof.Machine

/-! ### Scopes and channels (R161, R194, R437) -/

def scopeOf : Nat → Scope
  | 0 => .core
  | 1 => .die
  | 2 => .pkg
  | 3 => .tray
  | _ => .rack
/-- A channel's number is package, stack and channel of its channel address (R164). -/
def chanPkg (c : Nat) : Nat := c / 512
def chanStack (c : Nat) : Nat := c / 32 % 16
def chanDie (c : Nat) : Nat := 4 * chanPkg c + chanStack c / 4
def chanTray (c : Nat) : Nat := chanPkg c / Config.perTray
/-- The rack device has a package, and a channel: one of a stack that its part has (R2, R7, R11). -/
def pkgThere (p : Nat) : Bool := decide (p < Config.packages)
def State.chanThere (s : State) (c : Nat) : Bool := pkgThere (chanPkg c) && decide (chanStack c < Config.nstack s.variant)
def chanAddr (c loc : Nat) : Nat := c * 2 ^ 31 + loc
/-- A scope of a thread on core `g` includes a home (R437). -/
def scopeHas (sc : Nat) (g c : Nat) : Bool :=
  match sc with
  | 0 => false
  | 1 => chanDie c == State.dieOf g
  | 2 => chanPkg c == State.pkgOf g
  | 3 => chanTray c == State.trayOf g
  | _ => true

/-- Who makes a request: its context, place and, for a thread of a block, the block, skein (16: coach instance, 255: none), offset, plane and the lanes of the request. -/
structure Origin where
  ctx : Nat
  core : Option Nat
  pkg : Nat
  bid : Option Nat
  ix : Nat
  off : Nat
  plane : Nat := 0
  mask : Lanes := 0
  deriving DecidableEq, Repr

def Origin.die (o : Origin) : Option Nat := o.core.map State.dieOf
def Pass.origin (p : Pass) : Origin :=
  { ctx := p.ctx, core := some p.core, pkg := State.pkgOf p.core, bid := some p.bid, ix := p.ix, off := p.off, plane := p.plane }

/-! ### Homes (R162, R163) -/

def noncanon (a : Nat) : Bool := decide (2 ^ 57 ≤ a)
def placed (va : Nat) : Bool := bit1 va 56
def placeKey (va : Nat) : Nat := bitsOf va 55 40
def homeHash (va : Nat) : Nat :=
  let x := bitsOf va 55 16
  (x % 65536) ^^^ (x / 65536 % 65536) ^^^ (x / 2 ^ 32 * 0x101)
def homeEntryOk (v e : Nat) : Bool := bit1 e 31 && bitsOf e 30 16 == 0 && decide (bitsOf e 10 7 < Config.nstack v)
def placeEntryOk (v e : Nat) : Bool :=
  bit1 e 31 && bitsOf e 30 11 == 0 && bitsOf e 10 7 != 0 && decide (bitsOf e 10 7 < 2 ^ Config.dies v)

namespace State

def homeEntry (s : State) (c va : Nat) : Nat := ((s.ctx? c).elim 0 fun x => (mapGetD x.home (homeHash va) 0).toNat)
def placeEntry (s : State) (c key : Nat) : Nat := ((s.ctx? c).elim 0 fun x => (mapGetD x.place key 0).toNat)
/-- The map entry of a VA is valid (R163). -/
def mapOk (s : State) (c va : Nat) : Bool :=
  if placed va then placeEntryOk s.variant (s.placeEntry c (placeKey va)) else homeEntryOk s.variant (s.homeEntry c va)
/-- Package of a placement-map entry: tray and package in tray. -/
def placePkg (e : Nat) : Nat := 4 * (e % 32) + bitsOf e 6 5
/-- The channel of index `c` among the dies of a mask. -/
def maskChan (e c : Nat) : Nat :=
  let die := ((setBits (bitsOf e 10 7) 4)[c / 128]?).getD 0
  512 * placePkg e + 32 * (4 * die + c % 128 / 32) + c % 32
/-- Home channel and granule row of a VA in a page of the given size. -/
def homeOf (s : State) (c va size : Nat) : Nat × Nat :=
  if placed va then
    let e := s.placeEntry c (placeKey va)
    let n := 128 * popCount (bitsOf e 10 7) 4
    let q := va % 2 ^ 40 / size
    let g := va % 2 ^ 40 % size / 65536
    let rho := ((q % 65536) ^^^ (q / 65536 % 256)) % n
    (maskChan e ((g + rho) % n), g / n)
  else (s.homeEntry c va % 2048 / 128 * 32 + bitsOf (s.homeEntry c va) 15 11 + 512 * (s.homeEntry c va % 128), 0)
/-- A channel address (R164) names a stack the part has. -/
def chanOk (s : State) (a : Nat) : Bool := decide (a < 2 ^ 47) && decide (bitsOf a 39 36 < Config.nstack s.variant)
/-- The tray of a VA's home, which the maps alone give. -/
def homeTray (s : State) (c va : Nat) : Nat :=
  if placed va then s.placeEntry c (placeKey va) % 32 else s.homeEntry c va % 128 / Config.perTray

/-! ### Bytes of a channel, with their key (R179, R180) -/

/-- The key a leaf or root of a context names on a package: 0 plaintext, else one more than the key; none for an empty slot or
one not allowed to the context (R327). -/
def keyFor (s : State) (c pkg : Nat) (enc : Bool) (slot : Nat) : Option Nat :=
  if enc then ((mapGet (s.host pkg).keys slot).filter fun k => k.ctxs.contains c).map fun k => k.key + 1 else some 0
/-- A key stands in some slot of a package. -/
def keyLoaded (s : State) (pkg key : Nat) : Bool := key == 0 || (s.host pkg).keys.any fun e => e.2.key + 1 == key
/-- A granule written under one key as it reads under another (R179); none once the first is in no slot any more (R180). -/
def granUnder (s : State) (key gran : Nat) : Option (List Byte) :=
  let old := mapGetD s.mem.keyOf gran 0
  let b := byteGets s.mem.bytes (32 * gran) 32
  if old = key then some b
  else if !s.keyLoaded (gran / 2 ^ 35) old then none
  else
    let c := if old = 0 then b else Aes.xts false (old - 1) (32 * gran) b
    some (if key = 0 then c else Aes.xts true (key - 1) (32 * gran) c)
/-- `n` bytes at a channel address under a key. -/
def physBytes (s : State) (key a n : Nat) : List Byte :=
  (List.range n).map fun i =>
    if mapGetD s.mem.keyOf ((a + i) / 32) 0 = key then byteGet s.mem.bytes (a + i)
    else ((s.granUnder key ((a + i) / 32)).bind fun l => l[(a + i) % 32]?).getD (Config.freeByte (s.fresh.free + i))
/-- A granule comes under a key. -/
def rekey (s : State) (key gran : Nat) : State :=
  if mapGetD s.mem.keyOf gran 0 = key then s
  else
    { s with mem := { s.mem with
        bytes := byteSets s.mem.bytes (32 * gran)
          ((s.granUnder key gran).getD ((List.range 32).map fun i => Config.freeByte (s.fresh.free + i)))
        keyOf := mapSet s.mem.keyOf gran key } }.takeFree 32
/-- Bytes written at a channel address inside one granule. -/
def physWrite (s : State) (key a : Nat) (b : List Byte) : State :=
  let s := s.rekey key (a / 32)
  { s with mem := { s.mem with bytes := byteSets s.mem.bytes a b } }
def poisoned (s : State) (gran : Nat) : Bool := s.mem.poison.contains gran
def setPoison (s : State) (gran : Nat) (on : Bool) : State :=
  { s with mem := { s.mem with
      poison := if on then listInsertNat s.mem.poison gran else s.mem.poison.filter (· != gran) } }

/-! ### Page tables (R164-R166) -/

/-- The levels L3 to L0 below the root: shift, entries, the page size of a leaf (0: none), whether a table must be 4 KiB
aligned. -/
def levels : List (Nat × Nat × Nat) := [(39, 512, 0), (30, 512, 2 ^ 30), (21, 512, 2 ^ 21), (16, 32, 2 ^ 16)]
def tableOk (v a align : Nat) : Bool := a % align == 0 && decide (bitsOf a 39 36 < Config.nstack v)
/-- A reserved bit of a leaf; the reserved values of CLASS and CACHE count as such (log 97). -/
def leafReserved (e : Nat) : Bool :=
  bitsOf e 23 22 != 0 || bitsOf e 63 39 != 0 || decide (2 ≤ bitsOf e 3 2) || bitsOf e 5 4 == 3
/-- An 8-byte entry, read with the root's key. -/
def tableEntry (s : State) (c : Nat) (root : W64) (a : Nat) : Except Cause Nat :=
  match s.keyFor c (a / 2 ^ 40) (root.getLsbD 58) (bitsOf root.toNat 57 47) with
  | none => .error .key
  | some k => .ok (leNat (s.physBytes k a 8))
/-- The walk from a table of the first level of the list; answers page size and leaf entry. -/
def walkFrom (s : State) (c : Nat) (root : W64) (va : Nat) : List (Nat × Nat × Nat) → Nat → Except Cause (Nat × W64)
  | [], _ => .error .format
  | (sh, n, size) :: rest, table => do
    let e ← s.tableEntry c root (table + 8 * (va / 2 ^ sh % n))
    if !bit1 e 0 then .error .notmapped
    else if bit1 e 1 then
      if size = 0 || (decide (65536 < size) && !placed va) || leafReserved e then .error .format
      else .ok (size, BitVec.ofNat 64 e)
    else
      let t := bitsOf e 46 8 * 256
      if rest.isEmpty || bitsOf e 7 2 != 0 || bitsOf e 63 47 != 0
          || !tableOk s.variant t (if rest.length = 1 then 256 else 4096) then .error .format
      else s.walkFrom c root va rest t
/-- The walk of a context's table (R164-R166). -/
def walk (s : State) (c va : Nat) : Except Cause (Nat × W64) :=
  match s.ctx? c with
  | none => .error .notmapped
  | some x =>
    if !x.d.root.getLsbD 0 then .error .notmapped
    else if !tableOk s.variant (bitsOf x.d.root.toNat 46 8 * 256) 4096 then .error .format
    else s.walkFrom c x.d.root va ((48, 512, 0) :: levels) (bitsOf x.d.root.toNat 46 8 * 256)

/-! ### Channel translation units (R167, R169) -/

/-- The leaf some channel's unit caches for a VA: of the pages that could hold it, the one cached at its home. -/
def ctuFind (s : State) (c va : Nat) : Option Leaf :=
  firstSome ((if placed va then [2 ^ 16, 2 ^ 21, 2 ^ 30] else [2 ^ 16]).map fun size =>
    let x := s.chan (s.homeOf c va size).1
    (x.leaves ++ x.past).find? fun l => l.ctx == c && l.size == size && l.va == va / size * size)
def ctuFill (s : State) (c va size : Nat) (e : W64) : State :=
  s.modChan (s.homeOf c va size).1 fun x =>
    let l : Leaf := { ctx := c, va := va / size * size, size := size, entry := e, pinned := false }
    let free := x.leaves.filter fun l => !l.pinned
    if free.length < 4096 then { x with leaves := x.leaves ++ [l] }
    else { x with leaves := (x.leaves.erase (free.headD l)) ++ [l], past := x.past ++ [free.headD l] }
/-- Translations that `f` selects are dropped. -/
def dropLeaves (s : State) (f : Leaf → Bool) : State :=
  let keep (ls : List Leaf) : List Leaf := ls.filter fun l => !f l
  { s with chans := s.chans.map fun e => (e.1, { e.2 with leaves := keep e.2.leaves, past := keep e.2.past }) }
/-- The translations of all channels, each with its channel. -/
def allLeaves (s : State) : List (Nat × Leaf) := s.chans.flatMap fun e => (e.2.leaves ++ e.2.past).map fun l => (e.1, l)
/-- A 64 KiB granule, by its channel address, lies in the rows that a page has in a channel (R163). -/
def granIn (s : State) (ch : Nat) (l : Leaf) (gran : Nat) : Bool :=
  let n := if placed l.va then 128 * popCount (bitsOf (s.placeEntry l.ctx (placeKey l.va)) 10 7) 4 else 1
  let first := chanAddr ch (bitsOf l.entry.toNat 38 24 * 65536) / 65536
  decide (first ≤ gran) && decide (gran < first + (l.size / 65536 + n - 1) / n)

end State

/-- The kinds of a request (R167). -/
inductive Kind where
  | read | write | atomic | fetch | swRead | swWrite
  deriving DecidableEq, Repr

/-- A translated place: channel, local address of the byte asked for, leaf entry, key; `moved` says that the map entry has been
changed under resident blocks (R162), `wild` that the frame is mapped against the rule of R166. -/
structure Home where
  chan : Nat
  loc : Nat
  entry : W64
  key : Nat
  moved : Bool := false
  wild : Bool := false
  deriving DecidableEq, Repr

def Home.addr (h : Home) : Nat := chanAddr h.chan h.loc
def leafW (e : W64) : Bool := e.getLsbD 6
def leafX (e : W64) : Bool := e.getLsbD 7
def leafShared (e : W64) : Bool := e.getLsbD 8
def leafPin (e : W64) : Bool := e.getLsbD 9
def leafClass (e : W64) : Nat := bitsOf e.toNat 3 2
def leafCache (e : W64) : Nat := bitsOf e.toNat 5 4
def leafFrame (e : W64) : Nat := bitsOf e.toNat 38 24

abbrev Fail := TrapCode × Cause

namespace State

/-- The checks of R167 on a leaf, in the order of its table. -/
def leafCheck (kind : Kind) (e : W64) (key : Option Nat) : Except Fail Nat :=
  match key with
  | none => .error (.pageFault, .key)
  | some k =>
    let wr := kind == .write || kind == .atomic || kind == .swWrite
    let sw := kind == .swRead || kind == .swWrite
    if wr && !leafW e then .error (.protection, .write)
    else if kind == .fetch && !leafX e then .error (.protection, .exec)
    else if leafClass e != (if sw then 1 else 0) then .error (.protection, .cls)
    else .ok k
/-- The descriptor's map entry of a VA is no longer the one copied, or cannot be read, while blocks of the context are resident
(R162). -/
def mapMoved (s : State) (c va : Nat) : Bool :=
  match s.ctx? c with
  | none => false
  | some x =>
    let i := if placed va then 0x41000 + 4 * placeKey va else 0x1000 + 4 * homeHash va
    let e := if placed va then s.placeEntry c (placeKey va) else s.homeEntry c va
    let a := x.d.desc + i
    s.chanOk x.d.desc && (s.granUnder 0 (a / 32)).map (fun b => natAt b (a % 32) 4) != some e
      && s.blocks.any fun b => b.2.id.ctx == c && decide (b.2.id.core < 2 ^ 32)
/-- Two leaves of one channel against the rule of R166: frames that meet, at two VAs of one context or not shared at one VA by two. -/
def leavesClash (s : State) (ch : Nat) (x y : Leaf) : Bool :=
  let rows (l : Leaf) : Nat :=
    let n := if placed l.va then 128 * popCount (bitsOf (s.placeEntry l.ctx (placeKey l.va)) 10 7) 4 else 1
    (l.size / 65536 + n - 1) / n
  let meet := decide (leafFrame x.entry < leafFrame y.entry + rows y) && decide (leafFrame y.entry < leafFrame x.entry + rows x)
  s.chanOk (chanAddr ch 0) && meet
    && if x.ctx = y.ctx then x.va != y.va else x.va != y.va || !leafShared x.entry || !leafShared y.entry
/-- The frame of a VA is mapped against the rule of R166, as far as leaves that translation units have read show (log 101). -/
def frameWild (s : State) (c va : Nat) : Bool :=
  match s.ctuFind c va with
  | none => false
  | some l =>
    let ch := (s.homeOf c va l.size).1
    ((s.chan ch).leaves ++ (s.chan ch).past).any (s.leavesClash ch l)
/-- An access to a VA gives unspecified values: its map entry has moved (R162), or its frame is mapped against the rule (R166). -/
def unsure (s : State) (c va : Nat) : Bool := s.mapMoved c va || s.frameWild c va
/-- A line that a cache holds, as an access sees it. -/
def sureLine (s : State) (c va : Nat) (d : LineW) : State × LineW :=
  if s.unsure c va then (s.takeFree 128, lineOf ((List.range 128).map fun i => Config.freeByte (s.fresh.free + i))) else (s, d)
/-- Effective policy: 0 allocate, 1 not in the L1, 2 first to evict, 3 nowhere, 4 not in the L1 and first to evict below it (R173). -/
def policy (cache pol : Nat) : Nat :=
  if cache = 2 || pol = 3 then 3
  else if cache = 1 && pol = 2 then 4
  else if cache = 1 || pol = 1 then 1
  else if pol = 2 then 2
  else 0
/-- No allocation in the L1. -/
def policyPast (p : Nat) : Bool := p == 1 || p == 3 || p == 4
/-- Allocated as first to evict. -/
def policyFirst (p : Nat) : Bool := p == 2 || p == 4
/-- A line leaves the L2 of a die; a reader-count line among them becomes ordinary (R174). -/
def dropL2 (s : State) (die line : Nat) : State :=
  { (s.modDie die fun x => { x with l2 := x.l2.erase line, early := x.early.erase line }) with
    mem := { s.mem with readers := mapErase s.mem.readers line } }
/-- A line enters the die L2 of its home (96 MiB: 786,432 lines) as an effective policy lets it; the line given up is one marked first
to evict, else the oldest (log 20), and a reader-count line that is given up becomes ordinary (R174). -/
def touchL2 (s : State) (line pol : Nat) : State :=
  let die := chanDie (line * 128 / 2 ^ 31)
  if pol = 3 || (s.die die).l2.contains line then s
  else
    let x := s.die die
    let s := if x.l2.length < 786432 then s else s.dropL2 die ((x.early.head?).getD (x.l2.headD 0))
    s.modDie die fun x => { x with l2 := x.l2 ++ [line], early := if policyFirst pol then x.early ++ [line] else x.early }
/-- A line looked up in its home die's L2, and the granules read from HBM where it is not there (R325). -/
def countHome (s : State) (h : Home) (c grans : Nat) : State :=
  if (s.die (chanDie h.chan)).l2.contains (h.addr / 128) then s.countDie (chanDie h.chan) 0x01 c
  else (s.countDie (chanDie h.chan) 0x02 c).countPkg (chanPkg h.chan) 0x01 c grans
/-- A line of a channel read past every map and key, looked up like any other (R325). -/
def lookAt (s : State) (c a : Nat) : State :=
  (s.countHome { chan := a / 2 ^ 31, loc := a % 2 ^ 31, entry := 0, key := 0 } c 4).touchL2 (a / 128) 0
def lookLines (s : State) (c a n : Nat) : State :=
  (List.range ((a % 128 + n + 127) / 128)).foldl (fun s i => s.lookAt c (a / 128 * 128 + 128 * i)) s
/-- The table entries that a walk reads. -/
def walkReads (s : State) (c : Nat) (root : W64) (va : Nat) : List (Nat × Nat × Nat) → Nat → List Nat
  | [], _ => []
  | (sh, n, _) :: rest, table =>
    let a := table + 8 * (va / 2 ^ sh % n)
    a :: match s.tableEntry c root a with
      | .error _ => []
      | .ok e => if bit1 e 0 && !bit1 e 1 && tableOk s.variant (bitsOf e 46 8 * 256) 256 then s.walkReads c root va rest (bitsOf e 46 8 * 256) else []
/-- A walk's reads of the tables. -/
def lookWalk (s : State) (c va : Nat) : State :=
  match s.ctx? c with
  | none => s
  | some x =>
    let t := bitsOf x.d.root.toNat 46 8 * 256
    if !x.d.root.getLsbD 0 || !tableOk s.variant t 4096 then s
    else (s.walkReads c x.d.root va ((48, 512, 0) :: levels) t).foldl (fun s a => s.lookAt c a) s
/-- A channel that lends its lanes begins to reclaim them, with a handshake of its own (R176). -/
def reclaim (s : State) (ch : Nat) : State :=
  if (s.chan ch).lend = 2 then (s.modChan ch fun x => { x with lend := 3 }).countPkg (chanPkg ch) 0x05 4096 else s
/-- A request reaches its home: translated and checked (R167); a channel that lends reclaims its lanes (R176). -/
def request (s : State) (c va : Nat) (kind : Kind) : State × Except Fail Home :=
  let r : State × Except Cause (Nat × W64) :=
    match s.ctuFind c va with
    | some l => (s, .ok (l.size, l.entry))
    | none => match s.walk c va with
      | .error u => (s.lookWalk c va, .error u)
      | .ok (size, e) => ((s.lookWalk c va).ctuFill c va size e, .ok (size, e))
  match r.2 with
  | .error u => (r.1, .error (.pageFault, u))
  | .ok (size, e) =>
    let h := s.homeOf c va size
    match leafCheck kind e (s.keyFor c (chanPkg h.1) (e.getLsbD 10) (bitsOf e.toNat 21 11)) with
    | .error f => (r.1, .error f)
    | .ok k =>
      ((r.1.reclaim h.1).modChan h.1 fun x => { x with last := s.time.clk, selfRef := false },
        .ok { chan := h.1, loc := leafFrame e * 65536 + 65536 * h.2 + va % 65536, entry := e, key := k, moved := r.1.mapMoved c va, wild := r.1.frameWild c va })
/-- The channel of a VA's home as far as its page is known. -/
def homeChan (s : State) (c va : Nat) : Nat :=
  let size := match s.ctuFind c va with
    | some l => l.size
    | none => match s.walk c va with
      | .ok r => r.1
      | .error _ => 65536
  (s.homeOf c va size).1

/-! ### Cache lines (R170) -/

def lineVa (va : Nat) : Nat := va / 128 * 128
def lineHit (c va : Nat) (l : CLine) : Bool := l.va == lineVa va && (l.tag == none || l.tag == some c)
def lineIn (ls : List CLine) (c va : Nat) : Option CLine := ls.find? (lineHit c va)
def dropLine (ls : List CLine) (c va : Nat) : List CLine := ls.filter fun l => !lineHit c va l
def modLine (ls : List CLine) (c va : Nat) (f : CLine → CLine) : List CLine :=
  ls.map fun l => if lineHit c va l then f l else l
def tagOf (e : W64) (c : Nat) : Option Nat := if leafShared e then none else some c
/-- The line a full cache gives up: one marked first to evict, else the oldest (log 20). -/
def victim (ls : List CLine) : Option CLine := (ls.find? (·.first)).or ls.head?
def allBytes : ByteMask := byteRange 0 128
/-- Bytes of `d` where the mask has them, else of `w`. -/
def spread (m : ByteMask) : LineW := (List.range 128).foldl (fun w i => if m.getLsbD i then w ||| (255#1024 <<< (8 * i)) else w) 0
def mergeLine (w d : LineW) (m : ByteMask) : LineW := (w &&& ~~~spread m) ||| (d &&& spread m)

/-! ### What a home holds (R172, R174, R177, R178, R312) -/

/-- `n` bytes at a home: unspecified where the map has moved under the access (R162), or the frame is mapped against the rule (R166). -/
def homeBytes (s : State) (h : Home) (a n : Nat) : List Byte :=
  if h.moved || h.wild then (List.range n).map fun i => Config.freeByte (s.fresh.free + i) else s.physBytes h.key a n
/-- The line at a home as a reader gets it: bytes and the poisoned ones. -/
def homeLine (s : State) (h : Home) : LineW × ByteMask :=
  let a := h.addr / 128 * 128
  (lineOf (s.homeBytes h a 128),
    (List.range 4).foldl (fun m i => if s.poisoned (a / 32 + i) then m ||| byteRange (32 * i) 32 else m) 0)
def readerCount (s : State) (h : Home) : Nat := mapGetD s.mem.readers (h.addr / 128) 0
/-- A counted read of a reader-count line; at 0 it is dropped and its bytes are unspecified (R174). -/
def countRead (s : State) (h : Home) (c : Nat) : State :=
  let line := h.addr / 128
  match mapGet s.mem.readers line with
  | none => s
  | some n =>
    if 1 < n then { s with mem := { s.mem with readers := mapSet s.mem.readers line (n - 1) } }
    else
      let t := s.dropL2 (chanDie h.chan) line
      ({ t with mem := { t.mem with
          bytes := byteSets t.mem.bytes (128 * line)
            ((List.range 128).map fun i => Config.freeByte (s.fresh.free + i)) } }.takeFree 128).countDie (chanDie h.chan) 0x07 c
/-- Copies of a line in caches of the home's tray are invalidated, but the storing die's, which is updated (R172). -/
def invalidate (s : State) (h : Home) (c va : Nat) (die : Option Nat) (d : LineW) (m : ByteMask) : State :=
  let onDie (e : Nat × Die) : Nat × Die :=
    if some e.1 = die then (e.1, { e.2 with rdc := modLine e.2.rdc c va fun l => { l with data := mergeLine l.data d m, bad := l.bad &&& ~~~m } })
    else if e.1 / 4 / Config.perTray = chanTray h.chan then (e.1, { e.2 with rdc := dropLine e.2.rdc c va })
    else e
  let onTray (e : Nat × Tray) : Nat × Tray :=
    if e.1 = chanTray h.chan then
      (e.1, { e.2 with slices := dropLine e.2.slices c va, dir := e.2.dir.filter fun x => x.1 != h.addr / 128 })
    else e
  let t := { s with dies := s.dies.map onDie, trays := s.trays.map onTray }
  let gone := (s.dies.filter fun e => (onDie e).2.rdc.length < e.2.rdc.length).length
  if gone = 0 then t else t.countDie (chanDie h.chan) 0x05 c gone
/-- A store of masked bytes to a line at its home: granules that are poisoned and only partly covered are not written
(R177, R178), and what reaches a frame mapped against the rule is unpredictable (R166). Answers the bytes dropped. `rc` marks the line, which then stands in the die L2; else `pol` says whether it does. A granule counts as written when its home takes the bytes
(R325; log 20). -/
def homeStore (s : State) (h : Home) (c va : Nat) (die : Option Nat) (d : LineW) (m : ByteMask) (rc : Nat) (pol : Nat := 0) :
    State × ByteMask :=
  let a := h.addr / 128 * 128
  let s := if h.wild then s.takeFree 128 else s
  let d := if h.wild then lineOf ((List.range 128).map fun i => Config.freeByte (s.fresh.free + i)) else d
  let r := (List.range 4).foldl (fun (acc : State × ByteMask) i =>
    let g := a / 32 + i
    let part := (m >>> (32 * i)).toNat % 2 ^ 32
    if part = 0 then acc
    else if part = 2 ^ 32 - 1 || !acc.1.poisoned g then
      let t := if acc.1.poisoned g then acc.1.setPoison g false else acc.1
      ((List.range 32).foldl (fun (t : State) j =>
          if bit1 part j then t.physWrite h.key (a + 32 * i + j) [lineByte d (32 * i + j)] else t) (t.countPkg (chanPkg h.chan) 0x02 c), acc.2)
    else (acc.1, acc.2 ||| (m &&& byteRange (32 * i) 32))) (s, 0#128)
  let t := (r.1.countHome h c (if m == allBytes then 0 else 4)).touchL2 (a / 128) (if rc = 0 then policy (leafCache h.entry) pol else 0)
  let t := { t with mem := { t.mem with
      writes := t.mem.writes + 1
      readers := if rc = 0 then mapErase t.mem.readers (a / 128) else mapSet t.mem.readers (a / 128) rc } }
  (t.invalidate h c va die d (m &&& ~~~r.2), r.2)

/-- A dropped store: its error record, and the deferred POISON of its skein or coach instance (R178). -/
def dropped (s : State) (o : Origin) (va n home : Nat) : State :=
  match o.bid.bind s.blk? with
  | none =>
    s.report (some o.ctx) false
      (recordBytes 0x0E 0 0 o.off s.time.ns 0 255 ones64 0 (o.core.elim 0 locOf) 0 va 0 0)
  | some b =>
    let s := s.report (some o.ctx) false
      (recordBytes 0x0E 0 ((if o.ix = 16 then 1 else 0) + 4 * o.plane) o.off s.time.ns b.id.seq o.ix b.id.idx o.mask.toNat (locOf b.id.core) 0 va 0 0)
    let f : Option Deferred → Option Deferred := fun
      | none => some { va := va, count := n, off := o.off, home := home }
      | some x => some { x with more := x.more ++ [(va, n, home)] }
    if o.ix = 16 then s.modCoach b.id.bid fun c => { c with defer := f c.defer }
    else s.modSk b.id.bid o.ix fun k => { k with x := { k.x with defer := f k.x.defer } }

/-- Bytes a thread stored: the context's store count and, per byte, the last store's number, issuer and lanes (R210, R212); `w` is (0, 0) for
a thread that is no issuer of a core. -/
def stampStores (s : State) (c va : Nat) (m : ByteMask) (w : Nat × Nat := (0, 0)) : State :=
  s.modCtx c fun x =>
    { x with stores := x.stores + 1
             stored := mapSetAll x.stored (((List.range 128).filter fun i => m.getLsbD i).map fun i => va + i) fun _ => (x.stores + 1, w) }
/-- The same of bytes that a dray wrote, which only a matrix command's operands look at (R210). -/
def stampEngine (s : State) (c va n : Nat) : State :=
  s.modCtx c fun x =>
    { x with stores := x.stores + 1, engine := mapSetAll x.engine ((List.range n).map (va + ·)) fun _ => x.stores + 1 }
/-- Package of a VA's home, for the order of emission (R311). -/
def homePkg (s : State) (c va : Nat) : Nat :=
  if placed va then placePkg (s.placeEntry c (placeKey va)) else s.homeEntry c va % 128

/-! ### Dirty bytes that reach their home (R171) -/

def writerKey (g va : Nat) : Nat := g * 2 ^ 57 + va
def setWriters (s : State) (o : Origin) (g va : Nat) (offs : List Nat) : State :=
  s.modCtx o.ctx fun x =>
    { x with writers := mapSetAll x.writers (offs.map fun i => writerKey g (va + i)) fun _ =>
      (o.bid.getD 0, [o.ix, o.off, o.plane, o.mask.toNat]) }
def eraseWriters (s : State) (c g va : Nat) : State :=
  s.modCtx c fun x => { x with writers := x.writers.filter fun e => !(decide (writerKey g va ≤ e.1) && decide (e.1 < writerKey g va + 128)) }
/-- The threads whose stores a write-back dropped, each with the first byte it lost. -/
def losers (x : Ctx) (g va : Nat) (m : ByteMask) : List (Nat × Nat × List Nat) :=
  (List.range 128).foldl (fun acc i =>
    if m.getLsbD i then
      match mapGet x.writers (writerKey g (va + i)) with
      | some w => if acc.any fun y => y.2 == w then acc else acc ++ [(va + i, w)]
      | none => acc
    else acc) []
/-- Dirty bytes of a line are written to the home that a request found; where it refuses them they are dropped as R178 drops stores. -/
def landAt (s : State) (g c : Nat) (l : CLine) (r : Except Fail Home) : State :=
  let (t, lost, home) := match r with
    | .ok h =>
      let q := s.homeStore h c l.va (some (dieOf g)) l.data l.dirty 0 (if l.first then 2 else 0)
      (q.1, q.2, h.chan)
    | .error _ => (s, l.dirty, s.homeChan c l.va)
  let ls := (t.ctx? c).elim [] fun x => losers x g l.va lost
  let t := ls.foldl (fun t w =>
    t.dropped { ctx := c, core := some g, pkg := pkgOf g, bid := some w.2.1, ix := w.2.2.headD 255,
                off := (w.2.2[1]?).getD 0, plane := (w.2.2[2]?).getD 0, mask := BitVec.ofNat 16 ((w.2.2[3]?).getD 0) } w.1 1 home) t
  t.eraseWriters c g l.va
def sendHome (s : State) (g c : Nat) (l : CLine) : State :=
  let r := s.request c l.va .write
  r.1.landAt g c l r.2

end State

end Sys2Proof.Machine
end

