-- ==== Sys2Proof/Machine/Combine.lean ====
section
/-! DEFINITION. What an atomic operation computes (16 R356), one indivisible step at a home (08 R206), and updates combined in tray
switches, which leave for their homes ahead of any other access to their line (13 R313; 18 R419). -/

namespace Sys2Proof.Machine

/-- New value of an operation on an old one (R356). -/
def atomOf (op : AtomOp) (old v : Nat) : Nat :=
  let a : W32 := BitVec.ofNat 32 old
  let b : W32 := BitVec.ofNat 32 v
  match op with
  | .add => (a + b).toNat
  | .and => (a &&& b).toNat
  | .or => (a ||| b).toNat
  | .xor => (a ^^^ b).toNat
  | .min => (if b.slt a then b else a).toNat
  | .max => (if a.slt b then b else a).toNat
  | .minz => (if b.ult a then b else a).toNat
  | .maxz => (if a.ult b then b else a).toNat
  | .exch => b.toNat
  | .fadd => (fmt32.add .rne a.toNat b.toNat).1
  | .add64 => (old + v) % 2 ^ 64
  | .exch64 => v
def atomBytes : AtomOp → Nat
  | .add64 => 8
  | .exch64 => 8
  | _ => 4
/-- The operation of a code (R118). -/
def atomCode : AtomOp → Nat
  | .add => 0 | .and => 1 | .or => 2 | .xor => 3 | .min => 4 | .max => 5 | .minz => 6 | .maxz => 7 | .exch => 8 | .fadd => 9
  | .add64 => 10 | .exch64 => 11
def atomFrom : Nat → AtomOp
  | 0 => .add | 1 => .and | 2 => .or | 3 => .xor | 4 => .min | 5 => .max | 6 => .minz | 7 => .maxz | 8 => .exch | 9 => .fadd
  | 10 => .add64 | _ => .exch64

namespace State

/-- A request is on its way; its identifier is the next one. -/
def pushReq (s : State) (r : Req) : State :=
  let m := { s.mem with reqs := s.mem.reqs ++ [r] }
  { s with fresh := { s.fresh with rid := s.fresh.rid + 1 }, mem := m }

/-- A request is sent, over a link where its home lies in another package. -/
def postReq (s : State) (r : Req) : State := (if s.homePkg r.ctx r.va = r.pkg then s else s.sendPacket r.pkg r.va).pushReq r

/-! ### Updates combined in tray switches (R313) -/

/-- The VA lies in a window of the context registered in a tray's switches. -/
def inWindow (s : State) (t c va : Nat) : Bool :=
  (s.tray t).wins.any fun e => e.2.1 == c && decide (e.2.2.1 ≤ va) && decide (va < e.2.2.1 + e.2.2.2)
/-- An update joins the partial of its context, word and operation. -/
def addPartial (s : State) (t c va op v : Nat) (froms : List Issuer) : State :=
  s.modTray t fun x =>
    if x.parts.any fun q => q.ctx == c && q.va == va && q.op == op then
      { x with parts := x.parts.map fun q =>
          if q.ctx == c && q.va == va && q.op == op then
            { q with value := BitVec.ofNat 64 (atomOf (atomFrom op) q.value.toNat v), count := q.count + 1, froms := q.froms ++ froms }
          else q }
    else { x with parts := x.parts ++ [{ ctx := c, va := va, op := op, value := BitVec.ofNat 64 v, count := 1,
                                         first := s.time.ns, froms := froms }] }
/-- A partial leaves for its home as one update, by the switch's port towards it (R305). -/
def forward (s : State) (t : Nat) (q : Partial) : State :=
  let s := s.modTray t fun x => { x with parts := x.parts.erase q }
  let r : Req := { rid := s.fresh.rid, ctx := q.ctx, kind := 3, va := q.va, n := atomBytes (atomFrom q.op), data := q.value,
                   op := q.op, pkg := 4 * t, froms := q.froms, naks := 0, state := 0 }
  (s.switchPacket t q.va (s.homePkg q.ctx q.va)).pushReq r
/-- A dropped update: its record and a deferred POISON for every issuer it contains (R419). -/
def dropUpdate (s : State) (c va home : Nat) (froms : List Issuer) : State :=
  froms.foldl (fun s f =>
    s.dropped { ctx := c, core := (s.blk? f.bid).map (·.id.core), pkg := 0, bid := some f.bid, ix := f.ix, off := f.off, plane := f.plane,
                mask := f.mask } va 1 home) s
/-- One indivisible step on `n` bytes at their home (R206). Answers the old value. -/
def stepAt (s : State) (o : Origin) (a n : Nat) (f : Nat → Nat) : State × Except Fail Nat :=
  let r := s.request o.ctx a .atomic
  match r.2 with
  | .error e => (r.1, .error e)
  | .ok h =>
    if r.1.poisoned (h.addr / 32) then (r.1, .error (.poison, .none))
    else
      let old := leNat (r.1.homeBytes h h.addr n)
      let t := r.1.takeFree 128
      let q := t.homeStore h o.ctx (lineVa a) o.die (BitVec.ofNat 1024 (f old % 2 ^ (8 * n) * 2 ^ (8 * (a % 128)))) (byteRange (a % 128) n) 0
      (q.1, .ok old)
/-- The issuers of an update hold no copy of its line that is older than the update (R197, R202): their cores' L1 lines are written back
and dropped, and their dies' RDC lines dropped. -/
def dropIssuers (s : State) (c va : Nat) (froms : List Issuer) : State :=
  froms.foldl (fun s f =>
    match (s.blk? f.bid).map (·.id.core) with
    | none => s
    | some g =>
      let t := match lineIn (s.core g).l1 c va with
        | none => s
        | some l => (if l.dirty = 0 then s else s.sendHome g c l).modCore g fun x => { x with l1 := dropLine x.l1 c va }
      t.modDie (dieOf g) fun x => { x with rdc := dropLine x.rdc c va }) s
def answered (s : State) (rid : Nat) : State :=
  { s with mem := { s.mem with reqs := s.mem.reqs.map fun (x : Req) => if x.rid = rid then { x with state := 1 } else x } }
/-- The responses to an update of another package: the home's, and for a merged one the switch's to each issuer (R305, R313). -/
def answerUpdate (s : State) (q : Req) : State :=
  let home := s.homePkg q.ctx q.va
  let s := if q.kind ≠ 3 ∧ home = q.pkg then s else s.sendPacket home q.va
  if q.kind = 3 then
    q.froms.foldl (fun s f => (s.blk? f.bid).elim s fun b => s.switchPacket (q.pkg / Config.perTray) q.va (pkgOf b.id.core)) s
  else s
/-- A store's issuer and lanes, where one issuer made it. -/
def issuersKey : List Issuer → Nat × Nat
  | [f] => (Pass.issuerKey f.bid f.ix, if f.ix = 16 then 1 else f.mask.toNat)
  | _ => (0, 0)
/-- An update in flight reaches its home (R167): performed, or dropped where it fails. -/
def performUpdate (s : State) (q : Req) : State :=
  let o : Origin := { ctx := q.ctx, core := none, pkg := q.pkg, bid := none, ix := 255, off := 0 }
  let n := atomBytes (atomFrom q.op)
  let s := ((s.answered q.rid).dropIssuers q.ctx q.va q.froms).answerUpdate q
  let r := s.stepAt o q.va n fun old => atomOf (atomFrom q.op) old q.data.toNat
  match r.2 with
  | .ok _ => r.1.stampStores q.ctx (lineVa q.va) (byteRange (q.va % 128) n) (issuersKey q.froms)
  | .error _ => r.1.dropUpdate q.ctx q.va (r.1.homeChan q.ctx q.va) q.froms
/-- Partials of a context's line in some trays leave for their home and are performed there. -/
def forwardLine (s : State) (c va : Nat) (f : Nat → Bool) : State :=
  s.trays.foldl (fun s e =>
    if f e.1 then
      (e.2.parts.filter fun q => q.ctx == c && lineVa q.va == lineVa va).foldl (fun s q =>
        let t := s.forward e.1 q
        match t.mem.reqs.find? fun x => x.rid == s.fresh.rid with
        | none => t
        | some x => t.performUpdate x) s
    else s) s
/-- An access that leaves its package passes the switches of its own tray and of the home's (R313); the request and its response take
the links of the line's plane and port (R305). -/
def passSwitch (s : State) (o : Origin) (va : Nat) : State :=
  let home := s.homePkg o.ctx va
  if home = o.pkg then s
  else ((s.forwardLine o.ctx va fun t => t == o.pkg / Config.perTray || t == s.homeTray o.ctx va).sendPacket o.pkg va).sendPacket home va
/-- The update's partial at the switch (event RED_COMBINE). -/
def combineReq (s : State) (q : Req) : State :=
  ({ s with mem := { s.mem with reqs := s.mem.reqs.filter fun (x : Req) => x.rid != q.rid } }).addPartial (q.pkg / Config.perTray) q.ctx
    q.va q.op q.data.toNat q.froms
/-- Updates that `f` selects by context, address and issuers are forwarded, performed and answered (R204, R313). -/
def settleWhere (s : State) (f : Nat → Nat → List Issuer → Bool) : State :=
  let s := (s.mem.reqs.filter fun q => q.kind == 2 && f q.ctx q.va q.froms).foldl (fun s q =>
    if s.inWindow (q.pkg / Config.perTray) q.ctx q.va then s.combineReq q else if q.state = 0 then s.performUpdate q else s) s
  let s := s.trays.foldl (fun s e => (e.2.parts.filter fun q => f q.ctx q.va q.froms).foldl (fun s q => s.forward e.1 q) s) s
  let s := (s.mem.reqs.filter fun q => q.kind == 3 && f q.ctx q.va q.froms && q.state == 0).foldl (fun s q => s.performUpdate q) s
  { s with mem := { s.mem with reqs := s.mem.reqs.filter fun (q : Req) => !((q.kind == 2 || q.kind == 3) && f q.ctx q.va q.froms) } }
/-- An issuer waits until its updates are acknowledged. -/
def settleUpdates (s : State) (bid : Nat) : State := s.settleWhere fun _ _ froms => froms.any fun x => x.bid == bid
/-- A later access of a thread comes after its own updates of the line (R198). -/
def settleOwn (s : State) (o : Origin) (va : Nat) : State :=
  match o.bid with
  | none => s
  | some b =>
    let mine (c v : Nat) (froms : List Issuer) : Bool :=
      c == o.ctx && lineVa v == lineVa va && froms.any fun x => x.bid == b && x.ix == o.ix
    if (s.mem.reqs.any fun q => (q.kind == 2 || q.kind == 3) && mine q.ctx q.va q.froms)
        || s.trays.any fun e => e.2.parts.any fun q => mine q.ctx q.va q.froms then s.settleWhere mine
    else s

end State

end Sys2Proof.Machine
end

