-- ==== Sys2Proof/Machine/Caches.lean ====
section
/-! DEFINITION. The caches: a core's L1, a die's RDC, the switch slices, and how a line is read and stored through them (06 R106,
R170-R174; 08 R197; 13 R312). -/

namespace Sys2Proof.Machine

namespace State

/-! ### The L1 of a core (R171) -/

/-- Dirty bytes of a line are written to its home. -/
def writeBack (s : State) (g c : Nat) (l : CLine) : State :=
  let t := s.passSwitch { ctx := c, core := none, pkg := pkgOf g, bid := none, ix := 255, off := 0 } l.va
  if (t.core g).l1.contains l then t.sendHome g c l else t
/-- Every dirty line of the core is written back and stays, clean (R171). -/
def flushCore (s : State) (g : Nat) : State :=
  let c := ((s.core g).ctx).getD 0
  let t := ((s.core g).l1.filter fun l => l.dirty != 0).foldl (fun t l => t.writeBack g (l.tag.getD c) l) s
  t.modCore g fun x => { x with l1 := x.l1.map fun l => { l with dirty := 0 } }
/-- Every clean line of the core is dropped (R171); of a dirty line only the dirty bytes stay, so that no read after the
acquire returns a byte older than it (R202). -/
def dropClean (s : State) (g : Nat) : State :=
  s.modCore g fun x => { x with l1 := (x.l1.filter fun l => l.dirty != 0).map fun l => { l with valid := l.dirty } }
/-- The RDC lines of a die homed in other trays are dropped (R172). -/
def dropRdc (s : State) (d c : Nat) : State :=
  s.modDie d fun x => { x with rdc := x.rdc.filter fun l => s.homeTray (l.tag.getD c) l.va == d / 4 / Config.perTray }
/-- The same at a `.rack` acquire, whose dropped lines are counted (R325). -/
def dropRemote (s : State) (d c : Nat) : State :=
  let t := s.dropRdc d c
  t.countDie d 0x04 c ((s.die d).rdc.length - (t.die d).rdc.length)
/-- One line is written back and dropped from the core's L1: before an atomic (R206). -/
def expel (s : State) (g c va : Nat) : State :=
  match lineIn (s.core g).l1 c va with
  | none => s
  | some l =>
    let t := if l.dirty = 0 then s else s.writeBack g c l
    t.modCore g fun x => { x with l1 := dropLine x.l1 c va }
/-- A line enters the L1; a full L1 evicts first (256 KiB: 2,048 lines). -/
def allocL1 (s : State) (g c : Nat) (l : CLine) : State :=
  let s :=
    if (s.core g).l1.length < 2048 then s
    else match victim (s.core g).l1 with
      | none => s
      | some v =>
        let t := if v.dirty = 0 then s else s.writeBack g (v.tag.getD c) v
        t.modCore g fun x => { x with l1 := x.l1.erase v }
  s.modCore g fun x => { x with l1 := dropLine x.l1 c l.va ++ [l] }
/-- A line enters a die's RDC (32 MiB: 262,144 lines). -/
def allocRdc (s : State) (d c : Nat) (l : CLine) : State :=
  s.modDie d fun x =>
    let ls := dropLine x.rdc c l.va
    { x with rdc := (if ls.length < 262144 then ls else match victim ls with
        | none => ls
        | some v => ls.erase v) ++ [l] }

/-! ### The switch slices and their directory (R312) -/

/-- Who holds a line, as a directory entry names it: a die, or the slice of a switch. -/
def sliceHolder (va : Nat) : Nat := 2 ^ 16 + planeOf va
/-- Entries of a switch's directory (log 83). -/
def dirEntries : Nat := 1048576
/-- A holder of a line is recorded. The oldest entry of a full directory leaves, and first the copies it recorded are invalidated. -/
def recordHolder (s : State) (t line who : Nat) : State :=
  let s := s.modTray t fun x => { x with dir := x.dir.filter (fun e => e != (line, who)) ++ [(line, who)] }
  match (s.tray t).dir with
  | [] => s
  | e :: _ =>
    if (s.tray t).dir.length ≤ 8 * dirEntries then s
    else
      let old (l : CLine) : Bool := l.old.elim false fun o => chanAddr o.1 o.2.1 / 128 == e.1
      let keep (ls : List CLine) : List CLine := ls.filter fun l => !old l
      let s := s.modTray t fun x => { x with dir := x.dir.filter (fun y => y.1 != e.1), slices := keep x.slices }
      let ds := (List.range (4 * Config.perTray)).map (· + 4 * Config.perTray * t)
      let gone := (ds.filter fun d => (s.die d).rdc.any old).length
      (ds.foldl (fun s d => s.modDie d fun x => { x with rdc := keep x.rdc }) s).countDie (chanDie (e.1 / 2 ^ 24)) 0x05 4096 gone
/-- A line homed in a tray and read from another is kept in the slice of its switch (64 MiB: 524,288 lines); the directory of the home's
tray records the slice, or the die of that tray whose RDC takes the line. -/
def allocSlice (s : State) (h : Home) (c die : Nat) (l : CLine) : State :=
  let t := chanTray h.chan
  if die / 4 / Config.perTray = t then s.recordHolder t (h.addr / 128) die
  else
    let full (ls : List CLine) : Option CLine :=
      let mine := ls.filter fun y => planeOf y.va == planeOf l.va
      if mine.length < 524288 then none else mine.head?
    (s.modTray t fun x =>
      let ls := dropLine x.slices c l.va
      { x with slices := (full ls).elim ls ls.erase ++ [l] }).recordHolder t (h.addr / 128) (sliceHolder l.va)

/-! ### Reading a line (R172, R173, R174) -/

/-- A line as a cache keeps it, with its leaf's bits and the translation under which it was read. -/
def cacheLine (h : Home) (c va : Nat) (d : LineW) (p : Nat) : CLine :=
  { tag := tagOf h.entry c, va := lineVa va, data := d, valid := allBytes, dirty := 0, w := leafW h.entry, first := policyFirst p
    x := leafX h.entry, cache := leafCache h.entry, old := some (h.chan, h.loc / 128 * 128, h.entry, h.key) }
/-- What a read of a line answers: bytes, poisoned bytes, the leaf's W bit, the line as a cache may keep it, and the home, where the read
went there. -/
structure LineRead where
  data : LineW
  bad : ByteMask
  w : Bool
  home : Option Home
  line : Option CLine := none

/-- CACHE as the response carries it. -/
def LineRead.cache (v : LineRead) : Nat := v.line.elim 0 (·.cache)
/-- A line read below the L1: the die's RDC, the switch slice on the way, or the home, which counts the read when `counted` (R174). -/
def readBelow (s : State) (o : Origin) (va : Nat) (kind : Kind) (pol : Nat) (counted : Bool) :
    State × Except Fail LineRead :=
  match o.die.bind fun d => lineIn (s.die d).rdc o.ctx va with
  | some l =>
    let q := s.sureLine o.ctx va l.data
    (q.1.countDie (o.die.getD 0) 0x03 o.ctx, .ok { data := q.2, bad := l.bad, w := l.w, home := none, line := some l })
  | none =>
    let s := s.passSwitch o va
    let tray := s.homeTray o.ctx va
    match if o.pkg / Config.perTray = tray then none else lineIn (s.tray tray).slices o.ctx va with
    | some l =>
      let p := policy l.cache pol
      let t := match o.die with
        | none => s
        | some d => if p = 3 then s else s.allocRdc d o.ctx { l with first := policyFirst p }
      let q := t.sureLine o.ctx va l.data
      (q.1, .ok { data := q.2, bad := l.bad, w := l.w, home := none, line := some l })
    | none =>
      let r := s.request o.ctx (lineVa va) kind
      match r.2 with
      | .error f => (r.1, .error f)
      | .ok h =>
        let v := r.1.homeLine h
        let marked := r.1.readerCount h != 0
        let t := (if counted then r.1.countRead h o.ctx else r.1).takeFree 128
        let p := policy (leafCache h.entry) pol
        let l := cacheLine h o.ctx va v.1 p
        let t := t.countHome h o.ctx 4
        let t := t.touchL2 (h.addr / 128) p
        let t := match o.die with
          | none => t
          | some d =>
            if p = 3 || marked || v.2 != 0 || chanDie h.chan = d then t
            else (t.allocRdc d o.ctx l).allocSlice h o.ctx d l
        (t, .ok { data := v.1, bad := v.2, w := leafW h.entry, home := some h, line := some l })
/-- A line as a core's access of the bytes `m` sees it: from its L1 where that holds them, else from below, kept in the L1
where the policy lets it be; dirty bytes are merged into the result (R173). The thread's own combined updates of the line come first
(R198). -/
def readLine (s : State) (o : Origin) (g va pol : Nat) (m : ByteMask) (counted : Bool := true) : State × Except Fail LineRead :=
  let s := s.settleOwn o va
  let hit := lineIn (s.core g).l1 o.ctx va
  match hit.filter fun l => m &&& ~~~l.valid == 0 with
  | some l =>
    let q := s.sureLine o.ctx va l.data
    (q.1.countCore g 0x07 o.ctx, .ok { data := q.2, bad := l.bad, w := l.w, home := none, line := some l })
  | none =>
    let r := (s.countCore g 0x08 o.ctx).readBelow o va .read pol counted
    match r.2 with
    | .error f => (r.1, .error f)
    | .ok v =>
      let p := policy v.cache pol
      let stays := policyPast p || v.bad != 0 || v.home.elim false fun h => s.readerCount h != 0
      match lineIn (r.1.core g).l1 o.ctx va with
      | some l =>
        let d := mergeLine v.data l.data l.dirty
        (if stays then r.1
         else r.1.modCore g fun x => { x with l1 := modLine x.l1 o.ctx va fun l => { l with data := d, valid := allBytes } },
          .ok { v with data := d, bad := v.bad &&& ~~~l.dirty })
      | none =>
        if stays then (r.1, .ok v)
        else (v.line.elim r.1 fun l => r.1.allocL1 g o.ctx { l with data := v.data, first := policyFirst p }, .ok v)

/-! ### Storing to a line (R171, R173, R428) -/

/-- A store of masked bytes that goes to its home; the core's own L1 copy, if any, takes the bytes as clean. -/
def storeBelow (s : State) (o : Origin) (va : Nat) (d : LineW) (m : ByteMask) (rc : Nat) (pol : Nat := 0) :
    State × Except Fail (ByteMask × Nat) :=
  let r := (s.passSwitch o va).request o.ctx (lineVa va) .write
  match r.2 with
  | .error f => (r.1, .error f)
  | .ok h =>
    let q := r.1.homeStore h o.ctx (lineVa va) o.die d m rc pol
    let t := match o.core with
      | none => q.1
      | some g => q.1.modCore g fun x =>
        { x with l1 := modLine x.l1 o.ctx va fun l =>
            { l with data := mergeLine l.data d m, valid := l.valid ||| m, dirty := l.dirty &&& ~~~m, bad := l.bad &&& ~~~m } }
    (t, .ok (q.2, h.chan))
/-- A store as a core makes it: `through` for a release of `.die` or wider, `rc` for a reader-count store. -/
def storeLine (s : State) (o : Origin) (g va pol : Nat) (through : Bool) (rc : Nat) (d : LineW) (m : ByteMask) :
    State × Except Fail (ByteMask × Nat) :=
  let s := s.settleOwn o va
  let offs := (List.range 128).filter fun i => m.getLsbD i
  let hit := lineIn (s.core g).l1 o.ctx va
  let s := s.countCore g (if hit.isSome then 0x07 else 0x08) o.ctx
  let inL1 (s : State) : State :=
    (s.modCore g fun x =>
      { x with l1 := modLine x.l1 o.ctx va fun l =>
          { l with data := mergeLine l.data d m, valid := l.valid ||| m, dirty := l.dirty ||| m, bad := l.bad &&& ~~~m } }
    ).setWriters o g (lineVa va) offs
  if through || rc != 0 || pol == 3 then s.storeBelow o va d m rc pol
  else
    match hit with
    | some l => if l.w then (inL1 s, .ok (0, 0)) else s.storeBelow o va d m 0 pol
    | none =>
      let r := s.request o.ctx (lineVa va) .write
      match r.2 with
      | .error f => (r.1, .error f)
      | .ok h =>
        let p := policy (leafCache h.entry) pol
        if policyPast p || r.1.readerCount h != 0 || (r.1.homeLine h).2 != 0 then r.1.storeBelow o va d m 0 pol
        else
          let v := r.1.readBelow o va .read pol false
          match v.2 with
          | .error f => (v.1, .error f)
          | .ok x => (inL1 (v.1.allocL1 g o.ctx { cacheLine h o.ctx va x.data p with w := true }), .ok (0, h.chan))

/-! ### Releases and acquires on the caches (R171, R172) -/

def releaseAt (s : State) (g : Nat) (sc : Nat) : State := if 1 ≤ sc then s.flushCore g else s
def acquireAt (s : State) (g c : Nat) (sc : Nat) : State :=
  let s := if 1 ≤ sc then s.dropClean g else s
  if 4 ≤ sc then s.dropRemote (dieOf g) c else s

end State

end Sys2Proof.Machine
end

