-- ==== Sys2Proof/Machine/Det.lean ====
section
/-! DEFINITION. Deterministic launches (11 R268-R279): phases and clocks, the scratchpad shadow, the vector-clock units of
the home dies, and the ordered reductions of `RED.det`. -/

namespace Sys2Proof.Machine

/-- A pending update as the other access of a REDUCE race (R277, R278). -/
def Held.raceInfo (h : Held) (kind : Nat) : RaceInfo :=
  { off := h.off, plane := h.plane, sk := h.sk % 16, lane := h.lane, coach := h.sk == 16, blk := h.blk, kThis := kind, kOther := 3 }

/-- What the units know of a thread that has done nothing. -/
def ThreadClock.zero : ThreadClock := { far := [], rel := [], seen := [] }

namespace State

/-! ### Phases and clocks (R271) -/

/-- A bit of CTL of a launch's packet. -/
def ctlBit (s : State) (lid i : Nat) : Bool := (s.launch? lid).elim false fun l => bit1 (natAt l.packet 0 4) i
def isDet (s : State) (p : Pass) : Bool := s.ctlBit p.blk.id.lid 12
def detInstr (s : State) (p : Pass) : Option Trap := whenBad (s.isDet p) (p.trap .detIllegal .instr)
def clockOf (p : Pass) : DetClock := if p.coach then p.co.det else p.sk.x.det
def farKey (blk sk : Nat) : Nat := blk * 32 + sk
/-- A thread's number over all launches. -/
def threadKey (lid blk sk : Nat) : Nat := lid * 2 ^ 80 + farKey blk sk
def myKey (p : Pass) : Nat := threadKey p.blk.id.lid p.blk.id.idx p.ix
def threadClock (s : State) (p : Pass) : ThreadClock := mapGetD s.mem.clocks (myKey p) ThreadClock.zero
def modThread (s : State) (p : Pass) (f : ThreadClock → ThreadClock) : State :=
  { s with mem := { s.mem with clocks := mapSet s.mem.clocks (myKey p) (f (s.threadClock p)) } }
/-- The phase of a skein of a block up to which this thread is ordered after it. -/
def knows (s : State) (p : Pass) (blk sk : Nat) : Nat :=
  if blk = p.blk.id.idx then (if sk = p.ix then (clockOf p).phase else ((clockOf p).vc[sk]?).getD 0)
  else mapGetD (s.threadClock p).far (farKey blk sk) 0
/-- What a thread knows of another for the locations homed in one tray stands under this key (R195). -/
def nearKey (key tray : Nat) : Nat := key * 32 + tray
/-- The same for a location homed in a tray. -/
def knowsAt (s : State) (p : Pass) (tray blk sk : Nat) : Nat :=
  max (s.knows p blk sk) (mapGetD (s.threadClock p).near (nearKey (farKey blk sk) tray) 0)
/-- The clock a release of a scope carries: its own entry the phase before the increment. -/
def carryOf (s : State) (p : Pass) (sc : Nat) : Carry :=
  { lid := p.blk.id.lid, blk := p.blk.id.idx, sk := p.ix, off := p.off, plane := p.plane
    vc := (List.range 17).map fun i => s.knows p p.blk.id.idx i, far := (s.threadClock p).far
    core := p.core, scope := sc, near := (s.threadClock p).near }
/-- The bound prefetches of a skein whose arrivals are still to come (R235). -/
def prefsDue (s : State) (p : Pass) : List PrefArr := (s.core p.core).prefs.filter fun q => !p.coach && q.bid == p.bid && q.sk == p.ix
/-- A release would raise the phase above 65,535 (R268), the arrivals that the skein's bound prefetches still owe counted (log 105). -/
def phaseFull (s : State) (p : Pass) : Option Trap :=
  whenBad (s.isDet p && decide (65535 ≤ (clockOf p).phase + (s.prefsDue p).length)) (p.trap .detIllegal .phase)
def modClock (s : State) (p : Pass) (f : DetClock → DetClock) : State :=
  if p.coach then s.modCoach p.bid fun c => { c with det := f c.det }
  else s.modSk p.bid p.ix fun k => { k with x := { k.x with det := f k.x.det } }
/-- A release of a DET launch: the phase rises by one. Other launches keep no clock. -/
def detRelease (s : State) (p : Pass) (sc : Nat) : State × Option Carry :=
  if s.isDet p then (s.modClock p fun c => { c with phase := c.phase + 1 }, some (s.carryOf p sc)) else (s, none)
def maxList (a b : List Nat) : List Nat := (List.range 17).map fun i => max ((a[i]?).getD 0) ((b[i]?).getD 0)
def maxMap (a b : NMap Nat) : NMap Nat := b.foldl (fun m e => mapSet m e.1 (max e.2 (mapGetD m e.1 0))) a
/-- A carried clock as one map over the threads of the launch. -/
def Carry.all (c : Carry) : NMap Nat :=
  (List.range 17).foldl (fun m i => let v := (c.vc[i]?).getD 0; if v = 0 then m else mapSet m (farKey c.blk i) v) c.far
/-- What an acquire takes over from a carried clock: for every location, or, of a link that orders only locations homed in their common tray
(R195), what it knows for those. -/
def joinCarry (s : State) (p : Pass) (c : Carry) (every : Bool) : State :=
  if c.lid ≠ p.blk.id.lid then s
  else
    let all := Carry.all c
    if every then
      let own := (List.range 17).map fun i => mapGetD all (farKey p.blk.id.idx i) 0
      (s.modClock p fun d => { d with vc := maxList d.vc own }).modThread p fun t =>
        { t with far := maxMap t.far all, near := maxMap t.near c.near }
    else
      let here := trayOf p.core
      let near := maxMap (all.foldl (fun m e => mapSet m (nearKey e.1 here) e.2) []) (c.near.filter fun e => e.1 % 32 == here)
      s.modThread p fun t => { t with near := maxMap t.near near }
/-- An acquire that synchronises with a release of a block of higher index raises RACE (R270). -/
def orderTrap (s : State) (p : Pass) (cs : List Carry) (addr : Nat) : Option Trap :=
  match cs.find? fun c => c.lid == p.blk.id.lid && decide (p.blk.id.idx < c.blk) with
  | none => none
  | some c =>
    whenBad (s.isDet p)
      { p.trapAt .race .order p.em (BitVec.ofNat 64 addr) with
        race := some { off := c.off, plane := c.plane, sk := c.sk % 16, lane := 0, coach := c.sk == 16, blk := c.blk,
                       kThis := 0, kOther := 1 } }
/-- Two clocks carried from one core at one scope together; the place is that of the higher block. -/
def Carry.join (a b : Carry) : Carry :=
  let m := maxMap (Carry.all a) (Carry.all b)
  let top := if a.blk < b.blk then b else a
  { top with vc := [], far := m, near := maxMap a.near b.near }

end State

/-- The releases whose clocks a word carries. -/
def Sync.rels (y : Sync) : List Carry := y.carry.toList ++ y.fences.map (·.2)
/-- A release joins what a word carries: clocks of one launch, core and scope together, the others beside them. -/
def Sync.add (y : Option Sync) (core sc : Nat) (c : Option Carry) : Sync :=
  match y, c with
  | none, _ => { scope := sc, core := core, carry := c }
  | some y, none => { y with scope := sc, core := core }
  | some y, some c =>
    let same (x : Carry) : Bool := x.lid == c.lid && x.core == c.core && x.scope == c.scope
    { y with scope := sc, core := core, carry := some (((y.rels.find? same).map fun x => State.Carry.join x c).getD c)
             fences := (y.rels.filter fun x => !same x).map fun x => (x.scope, x) }

namespace State

/-! ### Words that a release wrote (R201, R203, R211) -/

def syncKey (c va : Nat) : Nat := c * 2 ^ 57 + va
def syncAt (s : State) (c va : Nat) : Option Sync := mapGet s.mem.syncs (syncKey c va)
def setSync (s : State) (c va : Nat) (y : Option Sync) : State :=
  { s with mem := { s.mem with syncs := match y with
      | some y => mapSet s.mem.syncs (syncKey c va) y
      | none => mapErase s.mem.syncs (syncKey c va) } }
/-- The key of a bit: phase bits of ring control blocks keep the release that wrote them. -/
def bitKey (k bit : Nat) : Nat := 2 ^ 80 + k * 8 + bit
/-- A key names a word or a bit at one of `n` bytes from `k`. -/
def keyIn (k n e : Nat) : Bool :=
  if e < 2 ^ 80 then decide (k ≤ e) && decide (e < k + n) else decide (k ≤ (e - 2 ^ 80) / 8) && decide ((e - 2 ^ 80) / 8 < k + n)
/-- The words that releases wrote among `n` bytes of a context are words no more: plain bytes were stored there. -/
def forgetSync (s : State) (c va n : Nat) : State :=
  { s with mem := { s.mem with syncs := s.mem.syncs.filter fun e => !keyIn (syncKey c va) n e.1 } }
/-- A store ends the release sequences of the bytes it covers; a release leaves its clock there, a plain store those of the release
fences that stand before it, each with its scope (R201). -/
def storeSync (s : State) (p : Pass) (va n : Nat) (rel : Option (Nat × Option Carry)) : State :=
  let s := s.forgetSync p.ctx va n
  let fences := (s.threadClock p).rel
  let put (y : Sync) : State := (List.range n).foldl (fun s i => s.setSync p.ctx (va + i) (some y)) s
  match rel with
  | some (sc, k) => if k.isSome then put { scope := sc, core := p.core, carry := k } else s
  | none => if fences.isEmpty then s else put { scope := 4, core := p.core, carry := none, fences := fences }
/-- Two cores lie in one instance of a scope (R194). -/
def sameInst (sc g h : Nat) : Bool :=
  match sc with
  | 0 => g == h
  | 1 => dieOf g == dieOf h
  | 2 => pkgOf g == pkgOf h
  | 3 => trayOf g == trayOf h
  | _ => true
/-- A scope as it acts on a location for a thread of core `g`: `.pkg` and `.tray` are `.die` where the home is outside the tray (R195). -/
def homeScope (s : State) (c va g sc : Nat) : Nat :=
  if (sc = 2 ∨ sc = 3) ∧ s.homeTray c va ≠ trayOf g then 1 else sc
/-- A release synchronises with an acquire of a scope that reads what it wrote, where each includes the other (R201); `loc` is the global
location. Answers whether it orders the accesses to every location, or only to those homed in their common tray (R195). -/
def links (s : State) (p : Pass) (loc : Option Nat) (sc : Nat) (c : Carry) : Option Bool :=
  let both (f : Nat → Nat → Nat) : Bool := sameInst (f p.core sc) p.core c.core && sameInst (f c.core c.scope) p.core c.core
  if both fun _ z => if z = 2 ∨ z = 3 then 1 else z then some true
  else if both fun g z => loc.elim z fun va => s.homeScope p.ctx va g z then some false
  else none
/-- An acquire of a scope joins the clocks of the releases that synchronise with it. -/
def joinAll (s : State) (p : Pass) (loc : Option Nat) (sc : Nat) (cs : List Carry) : State :=
  if s.isDet p then cs.foldl (fun t c => (s.links p loc sc c).elim t (t.joinCarry p c)) s else s
/-- A load's bytes and what its reader may join of them: now when the load is an acquire, at an acquire fence that follows
otherwise. -/
def loadSync (s : State) (p : Pass) (va n : Nat) (acq : Option Nat) : State :=
  if !s.isDet p then s
  else
    let ys := (List.range n).filterMap fun i => (s.syncAt p.ctx (va + i)).map fun y => (va, y)
    match acq with
    | some sc => ys.foldl (fun t e => t.joinAll p (some e.1) sc e.2.rels) s
    | none => s.modThread p fun t => { t with seen := t.seen ++ (ys.filter fun e => !t.seen.contains e) }
/-- A fence of a scope: its acquire side joins what the thread's loads have read, as far as the scopes allow; its release side leaves the
thread's clock for later stores. -/
def fenceSync (s : State) (p : Pass) (sc : Nat) : State :=
  if s.isDet p then
    let seen := (s.threadClock p).seen
    let s := seen.foldl (fun t e => t.joinAll p (some e.1) sc e.2.rels) s
    match s.pass? with
    | none => s
    | some q =>
      let r := s.detRelease q sc
      r.1.modThread p fun t => { t with rel := r.2.elim t.rel (mapSet t.rel sc) }
  else s

/-! ### The scratchpad shadow (R272, R273) -/

/-- The other skein and the kind of its access that a checked word conflicts with. -/
def shadowRace (s : State) (p : Pass) (h : Shadow) (epoch : Nat) (write : Bool) : Option (Nat × Nat) :=
  let k (i : Nat) : Nat := s.knowsAt p (trayOf p.core) p.blk.id.idx i
  if h.wv && h.ws != p.ix && decide (k h.ws < h.wp) then some (h.ws, 1)
  else if write && h.rv && h.rs != p.ix && decide (k h.rs < h.rp) then some (h.rs, 0)
  else if write && h.sh && decide (epoch ≤ h.se) then some (h.rs, 0)
  else none
def shadowNext (p : Pass) (h : Shadow) (phase epoch : Nat) (write : Bool) : Shadow :=
  if write then { Shadow.zero with wv := true, ws := p.ix, wp := phase }
  else
    let sh := h.sh || (h.rv && h.rs != p.ix)
    { h with sh := sh, se := if sh then epoch else h.se, rv := true, rs := p.ix, rp := phase }
/-- An access of `n` bytes at scratchpad offset `o` of the issuer's block checked and noted; `phase` is the phase of an
engine's command at its issue, or the issuer's. -/
def scratchCheck (s : State) (p : Pass) (o n : Nat) (write : Bool) (phase : Nat) : State × Option (Nat × Nat) :=
  match s.blk? p.bid with
  | none => (s, none)
  | some b =>
    let ws := (List.range ((o + n - 1) / 4 - o / 4 + 1)).map (· + o / 4)
    match firstSome (ws.map fun w => s.shadowRace p (mapGetD b.ps.shadow w Shadow.zero) b.epoch write) with
    | some r => (s, some r)
    | none =>
      (s.modBlk p.bid fun b =>
        { b with ps := { b.ps with shadow := ws.foldl (fun m w =>
            mapSet m w (shadowNext p (mapGetD m w Shadow.zero) phase b.epoch write)) b.ps.shadow } }, none)

/-! ### The vector-clock units (R275-R277) -/

def accessOf (p : Pass) (lane kind : Nat) : Access :=
  { blk := p.blk.id.idx, sk := p.ix, lane := lane, plane := p.plane, off := p.off, kind := kind, phase := (clockOf p).phase }
def sameThread (a b : Access) : Bool := a.blk == b.blk && a.sk == b.sk
def raceOf (a : Access) (kind : Nat) : RaceInfo :=
  { off := a.off, plane := a.plane, sk := a.sk % 16, lane := a.lane, coach := a.sk == 16, blk := a.blk, kThis := kind,
    kOther := a.kind }
/-- The home die of a VA as far as its page is known. -/
def homeDie (s : State) (c va : Nat) : Nat := chanDie (s.homeChan c va)
/-- Accesses in a word's entry that an access conflicts with and is not ordered after. -/
def conflicts (s : State) (p : Pass) (d : DetWord) (a : Access) : List Access :=
  (d.writes ++ if a.kind = 0 then [] else d.reads).filter fun b =>
    !sameThread a b && !(a.kind == 3 && b.kind == 3) && decide (s.knowsAt p (s.homeTray p.ctx (4 * d.word)) b.blk b.sk < b.phase)
def noteAccess (d : DetWord) (a : Access) : DetWord :=
  match a.kind with
  | 0 => { d with reads := (d.reads.filter fun b => !sameThread a b) ++ [a] }
  | 3 => { d with writes := (d.writes.filter fun b => !(sameThread a b && b.kind == 3)) ++ [a] }
  | _ => { d with writes := [a], reads := [] }
/-- One word of an access: a pending update races first (R278), then a read of a higher block's write, ordered or not (R270), then
what is not ordered (R275). -/
def detWord (s : State) (p : Pass) (lane kind word : Nat) : State × Option (TrapCode × Cause × Option RaceInfo) :=
  let lid := p.blk.id.lid
  let a := accessOf p lane kind
  let held := s.mem.held.find? fun h => h.lid == lid && h.va / 4 == word
  match held, kind == 3 with
  | some h, false =>
    (s, some (.race, .reduce, some (h.raceInfo kind)))
  | _, _ =>
    match s.mem.dwords.find? fun d => d.lid == lid && d.word == word with
    | some d =>
      match d.writes.find? fun b => (kind == 0 || kind == 2) && decide (p.blk.id.idx < b.blk), s.conflicts p d a with
      | some b, _ => (s, some (.race, .order, some (raceOf b kind)))
      | none, b :: _ => (s, some (.race, .global, some (raceOf b kind)))
      | none, [] =>
          ({ s with mem := { s.mem with
              dwords := s.mem.dwords.map fun e => if e.lid == lid && e.word == word then noteAccess e a else e } }, none)
    | none =>
      let die := s.homeDie p.ctx (4 * word)
      let full := decide (4194304 ≤ (s.mem.dwords.filter fun d =>
        d.die == die && ((s.launch? d.lid).elim 0 (·.ctx)) == p.ctx).length)
      if full then (s, some (.detIllegal, .shadow, none))
      else
        ({ s with mem := { s.mem with
            dwords := s.mem.dwords ++ [noteAccess { lid := lid, word := word, die := die, writes := [], reads := [] } a] } }, none)
/-- The words that some lanes touch and for which the launch has no entry yet. -/
def newWords (s : State) (lid : Nat) (ls : List Nat) (addr : Nat → Nat) (n : Nat) : List Nat :=
  ls.foldl (fun l i => (List.range ((addr i + n - 1) / 4 - addr i / 4 + 1)).foldl (fun l j =>
    let w := addr i / 4 + j
    if l.contains w || s.mem.dwords.any fun d => d.lid == lid && d.word == w then l else l ++ [w]) l) []
/-- An access of a DET launch needs an entry that its home die's store has no room for: DET_ILLEGAL before any effect (R268, R276). -/
def shadowFull (s : State) (p : Pass) (ls : List Nat) (addr : Nat → Nat) (n : Nat) : Option Trap :=
  if !s.isDet p then none
  else
    let ds := (s.newWords p.blk.id.lid ls addr n).map fun w => s.homeDie p.ctx (4 * w)
    let held (d : Nat) : Nat := (s.mem.dwords.filter fun e => e.die == d && ((s.launch? e.lid).elim 0 (·.ctx)) == p.ctx).length
    whenBad (ds.any fun d => decide (4194304 < held d + (ds.filter (· == d)).length)) (p.trap .detIllegal .shadow)
/-- A global access of `n` bytes of a thread of a DET launch (R275); other launches are not checked. -/
def detAccess (s : State) (p : Pass) (lane va n kind : Nat) : State × Option (TrapCode × Cause × Option RaceInfo) :=
  if s.isDet p then
    ((List.range ((va + n - 1) / 4 - va / 4 + 1)).map (· + va / 4)).foldl (fun acc w =>
      match acc.2 with
      | some _ => acc
      | none => acc.1.detWord p lane kind w) (s, none)
  else (s, none)

/-! ### Ordered reductions (R278, R279) -/

/-- Issuer order: block, skein, lane, then program order. -/
def heldBefore (a b : Held) : Bool :=
  if a.blk ≠ b.blk then decide (a.blk < b.blk)
  else if a.sk ≠ b.sk then decide (a.sk < b.sk)
  else if a.lane ≠ b.lane then decide (a.lane < b.lane)
  else decide (a.ordinal < b.ordinal)
def insertHeld (x : Held) : List Held → List Held
  | [] => [x]
  | y :: l => if heldBefore x y then x :: y :: l else y :: insertHeld x l
def sortHeld (l : List Held) : List Held := l.foldl (fun m x => insertHeld x m) []
/-- The holding buffer of a line at its home. -/
def bufferOf (s : State) (line : Nat) : List Held := s.mem.held.filter fun h => h.line == line && !h.spilled
/-- A full buffer and the update that overflowed it move to the spill list (R279). -/
def spillLine (s : State) (line : Nat) : State :=
  let die := chanDie (line / 2 ^ 24)
  let b := s.bufferOf line
  let s := { s with mem := { s.mem with
      held := s.mem.held.map fun (h : Held) => if h.line == line then { h with spilled := true } else h } }
  (s.modDie die fun d => { d with spills := d.spills + b.length }).countDie die 0x08 ((b.head?).elim 4096 (·.ctx))
/-- The block of a launch with a linear index, while it stands. -/
def bidOf (s : State) (lid idx : Nat) : Option Nat :=
  (s.blocks.find? fun e => e.2.id.lid == lid && e.2.id.idx == idx).map (·.1)
/-- One update applied at its home: binary32, nearest even, a NaN canonical; a poisoned or unreachable word drops it (R419). -/
def applyHeld (s : State) (h : Held) : State :=
  let o : Origin := { ctx := h.ctx, core := none, pkg := 0, bid := s.bidOf h.lid h.blk, ix := h.sk, off := h.off, plane := h.plane, mask := laneBit h.lane }
  let s := s.dropIssuers h.ctx h.va (o.bid.toList.map fun b => { bid := b, ix := h.sk, off := h.off, plane := h.plane, mask := laneBit h.lane })
  let r := s.request h.ctx h.va .atomic
  match r.2 with
  | .error _ => r.1.dropped o h.va 1 (r.1.homeChan h.ctx h.va)
  | .ok m =>
    let v := leNat (r.1.homeBytes m m.addr 4)
    let w := (fmt32.add .rne v h.value.toNat).1
    let i := m.addr % 128
    let q := r.1.homeStore m h.ctx (lineVa h.va) none (BitVec.ofNat 1024 (w * 2 ^ (8 * i))) (byteRange i 4) 0
    if q.2 = 0 then q.1.stampStores h.ctx (lineVa h.va) (byteRange i 4) else q.1.dropped o h.va 1 m.chan
/-- The windows of the entries `f` selects close: applied in issuer order, their spill entries freed. -/
def closeHeld (s : State) (f : Held → Bool) : State :=
  let go := sortHeld (s.mem.held.filter f)
  let s := { s with mem := { s.mem with held := s.mem.held.filter fun h => !f h } }
  go.foldl (fun s h =>
    let s := if h.spilled then s.modDie (chanDie (h.line / 2 ^ 24)) fun d => { d with spills := d.spills - 1 } else s
    s.applyHeld h) s

end State

end Sys2Proof.Machine
end

