-- ==== Sys2Proof/Machine/Access.lean ====
section
/-! DEFINITION. What the memory instructions share: addresses and their checks, requests per line, lane failures, uniform
accesses, releases and acquires of an instruction, the deferred POISON (06 R160, R163, R168, R178; 08 R200-R204; 12 R287,
R301; 13 R311). -/

namespace Sys2Proof.Machine

/-- The OFF8 field times the access size, modulo 2^64 (R397, R399). -/
def offBytes (off8 n : Nat) : W64 := BitVec.ofInt 64 (signed 8 off8 * n)

namespace Pass

/-- Registers that hold `n` bytes of a lane. -/
def dataRegs (n : Nat) : Nat := if n = 8 then 2 else 1
/-- A data register field: below the reach, even for 8 bytes. -/
def dataReg (p : Pass) (i n : Nat) : List (Option Trap) :=
  [p.reg i (dataRegs n), if n = 8 then p.even i else none]
/-- A check of every active lane: the trap names the lanes that fail and the lowest one's address. -/
def laneCheck (p : Pass) (c : TrapCode) (u : Cause) (addr : Nat → Nat) (bad : Nat → Bool) : Option Trap :=
  match p.lanes.filter bad with
  | [] => none
  | l :: r => some (p.trapAt c u (laneSet fun i => (l :: r).contains i) (BitVec.ofNat 64 (addr l)))
/-- Steps 7 to 9 of R287 for global lane addresses. -/
def addrChecks (p : Pass) (s : State) (addr : Nat → Nat) (n : Nat) : List (Option Trap) :=
  [p.laneCheck .protection .noncanon addr fun l => noncanon (addr l),
    p.laneCheck .misaligned .none addr fun l => addr l % n != 0,
    p.laneCheck .protection .nohome addr fun l => !s.mapOk p.ctx (addr l)]
/-- The same for a uniform address. -/
def kCheck (p : Pass) (c : TrapCode) (u : Cause) (a : Nat) (bad : Bool) : Option Trap :=
  whenBad bad (p.trapAt c u p.em (BitVec.ofNat 64 a))
def kAddrChecks (p : Pass) (s : State) (a n : Nat) : List (Option Trap) :=
  [p.kCheck .protection .noncanon a (noncanon a), p.kCheck .misaligned .none a (a % n != 0),
    p.kCheck .protection .nohome a (!s.mapOk p.ctx a)]
def failAt (p : Pass) (addr : Nat → Nat) (l : Nat) (f : Fail) : LaneFail :=
  { lane := l, plane := p.plane, code := f.1, cause := f.2, addr := addr l, race := none }

end Pass

namespace State

/-! ### Requests of one pass -/

def insertLine (x : Nat × Nat) : List (Nat × Nat) → List (Nat × Nat)
  | [] => [x]
  | y :: l =>
    if x = y then y :: l
    else if x.1 < y.1 ∨ (x.1 = y.1 ∧ x.2 < y.2) then x :: y :: l
    else y :: insertLine x l
/-- The lines some lanes touch, in the order of emission: ascending package, then ascending VA (R311). -/
def requestLines (s : State) (c : Nat) (ls : List Nat) (addr : Nat → Nat) : List Nat :=
  (ls.foldl (fun acc l => insertLine (s.homePkg c (addr l), lineVa (addr l)) acc) []).map (·.2)
/-- The vector-clock check of lanes in the order they pass: from the first that fails on, every lane fails (R273, R275). -/
def detLanes (s : State) (p : Pass) (ls : List Nat) (addr : Nat → Nat) (n kind : Nat) : State × List LaneFail :=
  ls.foldl (fun (acc : State × List LaneFail) l =>
    match acc.2 with
    | f :: _ => (acc.1, acc.2 ++ [{ f with lane := l }])
    | [] =>
      let r := acc.1.detAccess p l (addr l) n kind
      match r.2 with
      | none => (r.1, [])
      | some (c, u, i) => (r.1, [{ lane := l, plane := p.plane, code := c, cause := u, addr := addr l, race := i }])) (s, [])
/-- Lanes of a list without those that failed. -/
def passed (ls : List Nat) (f : List LaneFail) : List Nat := ls.filter fun l => !(f.any fun x => x.lane == l)
/-- Bytes of a line that lanes at these addresses touch. -/
def lineMask (line : Nat) (ls : List Nat) (addr : Nat → Nat) (n : Nat) : ByteMask :=
  ls.foldl (fun m l => if lineVa (addr l) = line then m ||| byteRange (addr l % 128) n else m) 0
/-- One read request per line; the answers by line. -/
def readLines (s : State) (o : Origin) (g pol n : Nat) (ls : List Nat) (addr : Nat → Nat) :
    State × NMap (Except Fail LineRead) :=
  (s.requestLines o.ctx ls addr).foldl (fun (acc : State × NMap (Except Fail LineRead)) v =>
    let r := acc.1.readLine o g v pol (lineMask v ls addr n)
    (r.1, mapSet acc.2 v r.2)) (s, [])
/-- A lane's bytes of the answers, or its failure: POISON where a byte it reads is poisoned (R177). -/
def laneBytes (m : NMap (Except Fail LineRead)) (a n : Nat) : Except Fail Nat :=
  match mapGet m (lineVa a) with
  | none => .error (.pageFault, .notmapped)
  | some (.error f) => .error f
  | some (.ok v) =>
    if v.bad &&& byteRange (a % 128) n != 0 then .error (.poison, .none)
    else .ok (v.data.toNat / 2 ^ (8 * (a % 128)) % 2 ^ (8 * n))
def failsOf (p : Pass) (ls : List Nat) (addr : Nat → Nat) (f : Nat → Except Fail Nat) : List LaneFail :=
  ls.filterMap fun l => match f l with
    | .error e => some (p.failAt addr l e)
    | .ok _ => none
/-- A loaded value written: a register, or a pair for 8 bytes. -/
def loadInto (k : Skein) (d n l v : Nat) : Skein :=
  if n = 8 then k.setPair d l (BitVec.ofNat 64 v) else k.setV d l (BitVec.ofNat 32 v)
/-- What a lane that read poisoned bytes gets: an unspecified value (R177). -/
def freeLoad (s : State) (l : Nat) : Nat := (Config.freeDouble (s.fresh.free + l)).toNat
/-- Loads of a pass's active lanes, failures noted (R168, R399). -/
def loadLanes (s : State) (p : Pass) (d n pol : Nat) (addr : Nat → Nat) (acq : Option Nat) : State :=
  let c := s.detLanes p p.lanes addr n 0
  let ls := passed p.lanes c.2
  let r := c.1.readLines p.origin p.core pol n ls addr
  let val (l : Nat) : Except Fail Nat := laneBytes r.2 (addr l) n
  let fails := failsOf p ls addr val
  let ok := passed ls fails
  let s := (r.1.modSk p.bid p.ix fun k =>
    ls.foldl (fun k l => match val l with
      | .ok v => loadInto k d n l v
      | .error f => if f.1 = .poison then loadInto k d n l (freeLoad r.1 l) else k) k).takeFree (if fails.isEmpty then 0 else 16)
  (ok.foldl (fun s l => s.loadSync p (addr l) n acq) s).noteFails p (c.2 ++ fails)

/-- The bytes of a line that lanes store, later lanes over earlier ones (R196). -/
def lineStores (line : Nat) (ls : List Nat) (addr : Nat → Nat) (n : Nat) (val : Nat → Nat) : LineW :=
  ls.foldl (fun d l =>
    if lineVa (addr l) = line then
      mergeLine d (BitVec.ofNat 1024 (val l % 2 ^ (8 * n) * 2 ^ (8 * (addr l % 128)))) (byteRange (addr l % 128) n)
    else d) 0
/-- Stores of a pass's lanes, one request per line: failures noted, dropped stores recorded (R168, R178, R428). -/
def storeLanes (s : State) (p : Pass) (n pol : Nat) (through : Bool) (rc : Nat) (rel : Option (Nat × Option Carry))
    (addr : Nat → Nat) (val : Nat → Nat) : State :=
  let c := s.detLanes p p.lanes addr n 1
  let ls := passed p.lanes c.2
  let r := (s.requestLines p.ctx ls addr).foldl (fun (acc : State × List LaneFail) v =>
    let mine := ls.filter fun l => lineVa (addr l) == v
    let m := lineMask v ls addr n
    let q := acc.1.storeLine { p.origin with mask := laneSet mine.contains } p.core v pol through rc (lineStores v ls addr n val) m
    match q.2 with
    | .error f => (q.1, acc.2 ++ mine.map fun l => p.failAt addr l f)
    | .ok (lost, home) =>
      let gone := mine.filter fun l => lost &&& byteRange (addr l % 128) n != 0
      let t := match gone with
        | [] => q.1
        | l :: _ => q.1.dropped { p.origin with mask := laneSet gone.contains } (addr l) gone.length home
      ((mine.filter fun l => !gone.contains l).foldl (fun t l => t.storeSync p (addr l) n rel) (t.stampStores p.ctx v m p.writer), acc.2))
    (c.1, [])
  r.1.noteFails p (c.2 ++ r.2)

/-! ### The deferred POISON (R178, R301) -/

end State

/-- The pass of a further plane at the offset executes the same word. -/
def Pass.comesAgain (p : Pass) (u : Issue) : Bool := u.rest.any fun e => mapGetD u.words e.1 0 == mapGetD u.words p.plane 0
/-- The dropped stores a deferral stands for: VA, count and home of each. -/
def Deferred.stores (d : Deferred) : List (Nat × Nat × Nat) := (d.va, d.count, d.home) :: d.more
/-- What is left of it once those that `f` selects have been reported. -/
def Deferred.without (d : Deferred) (f : Nat × Nat × Nat → Bool) : Option Deferred :=
  match d.stores.filter fun e => !f e with
  | [] => none
  | e :: l => some { va := e.1, count := e.2.1, off := d.off, home := e.2.2, more := l }

namespace State

/-- Dropped stores whose homes the scope includes: their POISON is raised once the instruction has completed for every plane. Where
further planes are still to be served at the offset, it is held and raised after the last (R55); in trap mode it is held too (R290). -/
def raiseDeferred (s : State) (p : Pass) (sc : Nat) : State :=
  let trapOf (hit : List (Nat × Nat × Nat)) : Trap :=
    { p.trapAt .poison .none p.em (BitVec.ofNat 64 ((hit.head?).elim 0 (·.1))) with
      aux := BitVec.ofNat 32 (hit.foldl (fun n e => n + e.2.1) 0), next := true }
  let here (e : Nat × Nat × Nat) : Bool := scopeHas sc p.core e.2.2
  if p.coach then
    match (s.blk? p.bid).bind (·.coach) with
    | none => s
    | some c => match c.defer with
      | none => s
      | some d =>
        let hit := d.stores.filter here
        if !hit.isEmpty && c.held.isNone then
          s.modCoach p.bid fun c => { c with defer := d.without here, held := some { trapOf hit with off := some p.off } }
        else s
  else
    match s.sk? p.bid p.ix with
    | none => s
    | some k => match k.x.defer with
      | none => s
      | some d =>
        let hit := d.stores.filter here
        let open_ := (k.arm p.ai).issue
        if !hit.isEmpty && open_.elim true fun u => !p.comesAgain u then
          let hold (t : Trap) (plane : Nat) (s : State) : State := s.modSk p.bid p.ix fun k =>
            { k with x := { k.x with pend := k.x.pend ++ [{ trap := t, cls := 1, coach := false, arm := p.ai, plane := plane, off := p.off }] } }
          let s := s.modSk p.bid p.ix fun k => { k with x := { k.x with defer := d.without here } }
          if k.trapMode then hold { trapOf hit with next := false } 0 s
          else if open_.isSome then hold (trapOf hit) p.plane s
          else s.trapSkein p.blk p.ix k (trapOf hit) p.plane 1 p.ai p.off false p.em (p.arm.path.elim p.path (·.lanes))
        else s
/-- An instruction that releases or acquires ends. -/
def endFenced (s : State) (p : Pass) (sc : Nat) : State := (s.endPass p).raiseDeferred p sc
/-- An acquiring instruction ends. -/
def endAcquire (s : State) (p : Pass) (sc : Nat) : State := (s.noteAcquire p).endFenced p sc
/-- A pass of an acquire without active lanes ends; the instruction is an acquire where another plane's pass has some. -/
def endIdle (s : State) (p : Pass) (sc : Option Nat) : State :=
  match sc with
  | some sc => if p.em = 0 then s.endPass p else s.endAcquire p sc
  | none => s.endPass p

/-! ### Uniform accesses (R397) -/

/-- A uniform access that failed, for the path's whole lane set: a page fault parks the issuer with wait kind 9, other failures raise the
trap (R168, R397). -/
def kFail (s : State) (p : Pass) (a : Nat) (f : Fail) (race : Option RaceInfo) : State :=
  if p.coach then
    if f.1 = .pageFault then
      (s.modCoach p.bid fun c => { c with wait := some (.fault 0 a false), seen := s.mem.writes }).reportPass p true 0x08 f.2.code 0 0 0 a
    else s.raise p { p.trapAt f.1 f.2 0 (BitVec.ofNat 64 a) with race := race }
  else
    (s.noteFails p ((lanesOf (p.arm.path.elim p.path fun q => q.lanes &&& p.sk.live)).map fun l =>
      { lane := l, plane := p.plane, code := f.1, cause := f.2, addr := a, race := race, whole := true })).endPass p
/-- A uniform read of `n` bytes through the caches. -/
def kRead (s : State) (p : Pass) (a n pol : Nat) : State × Except Fail Nat :=
  let r := s.readLine p.origin p.core a pol (byteRange (a % 128) n)
  (r.1, match r.2 with
    | .error f => .error f
    | .ok v => laneBytes [(lineVa a, .ok v)] a n)
/-- A uniform read as a fresh acquire at a scope: caches are cleared first, so that the home's value is read (R199). -/
def kReadAcq (s : State) (p : Pass) (a n sc : Nat) : State × Except Fail Nat := (s.acquireAt p.core p.ctx sc).kRead p a n 0
/-- A uniform store of `n` bytes; `rel` is a release's scope and clock. -/
def kWrite (s : State) (p : Pass) (a n pol : Nat) (through : Bool) (rel : Option (Nat × Option Carry)) (v : Nat) :
    State × Except Fail Unit :=
  let m := byteRange (a % 128) n
  let r := s.storeLine p.origin p.core a pol through 0 (BitVec.ofNat 1024 (v % 2 ^ (8 * n) * 2 ^ (8 * (a % 128)))) m
  match r.2 with
  | .error f => (r.1, .error f)
  | .ok (lost, home) =>
    let t := if lost = 0 then r.1.storeSync p a n rel else r.1.dropped p.origin a 1 home
    (t.stampStores p.ctx (lineVa a) m p.writer, .ok ())
/-- A request for the line of an address goes to its home: the issuer's own updates and the core's L1 copy leave first (R198, R206). -/
def reachHome (s : State) (o : Origin) (a : Nat) : State :=
  let s := s.settleOwn o a
  let s := match o.core with
    | some g => s.expel g o.ctx a
    | none => s
  s.passSwitch o a
/-- One indivisible step on `n` bytes at their home (R206). Answers the old value. -/
def homeStep (s : State) (o : Origin) (a n : Nat) (f : Nat → Nat) : State × Except Fail Nat := (s.reachHome o a).stepAt o a n f
/-- Lanes whose effects are requests, one for each (home, line) in the order of emission (R311): `reach` once for a line, then `step` for
each of its lanes, ascending. -/
def byRequests (s : State) (c : Nat) (ls : List Nat) (addr : Nat → Nat) (reach : State → Nat → State)
    (step : State → Nat → State × Option LaneFail) : State × List LaneFail :=
  (s.requestLines c ls addr).foldl (fun (acc : State × List LaneFail) v =>
    (ls.filter fun l => lineVa (addr l) == v).foldl (fun (acc : State × List LaneFail) l =>
      let q := step acc.1 l
      (q.1, acc.2 ++ q.2.toList)) (reach acc.1 v, acc.2)) (s, [])

end State

end Sys2Proof.Machine
end

