-- ==== Sys2Proof/Machine/Updates.lean ====
section
/-! DEFINITION. Updates and posted writes on their way to a home, and the release side of synchronising instructions (08 R204, R211;
18 R419). -/

namespace Sys2Proof.Machine

namespace State

/-- An update to be combined stands in the request that was sent for its line (R419). -/
def sendUpdate (s : State) (c pkg va op v : Nat) (froms : List Issuer) : State :=
  let r : Req := { rid := s.fresh.rid, ctx := c, kind := 2, va := va, n := atomBytes (atomFrom op), data := BitVec.ofNat 64 v,
                   op := op, pkg := pkg, froms := froms, naks := 0, state := 0 }
  s.pushReq r
/-- An update performed at its home, which its request has reached; poison drops it. -/
def updateHome (s : State) (o : Origin) (va : Nat) (op : AtomOp) (v : Nat) (froms : List Issuer) :
    State × Except Fail Unit :=
  let r := s.stepAt o va (atomBytes op) fun old => atomOf op old v
  match r.2 with
  | .ok _ => (r.1, .ok ())
  | .error (.poison, _) =>
    (r.1.dropUpdate o.ctx va (r.1.homeChan o.ctx va) froms, .ok ())
  | .error f => (r.1, .error f)
/-- A request in flight reaches its home (R167): performed, or dropped where it fails. A posted write ends the release sequences of its
bytes (R211). -/
def performReq (s : State) (q : Req) : State :=
  if q.kind = 1 then
    let s := s.answered q.rid
    let o : Origin := { ctx := q.ctx, core := none, pkg := q.pkg, bid := none, ix := 255, off := 0 }
    let m := byteRange (q.va % 128) q.n
    let r := s.storeBelow o q.va (BitVec.ofNat 1024 (q.data.toNat % 2 ^ (8 * q.n) * 2 ^ (8 * (q.va % 128)))) m 0
    match r.2 with
    | .error f => r.1.report (some q.ctx) false (recordBytes f.1.code f.2.code 0 0 s.time.ns 0 255 ones64 0 0 0 q.va 0 0)
    | .ok (lost, home) =>
      if lost = 0 then (r.1.forgetSync q.ctx q.va q.n).stampStores q.ctx (lineVa q.va) m else r.1.dropped o q.va 1 home
  else s.performUpdate q

/-! ### Posted writes of hosts (R283, R314) -/

/-- A store by a host thread, as the recordings of the context's running launches keep it (R283). -/
def noteHostStore (s : State) (c va : Nat) (b : List Byte) : State :=
  { s with launches := s.launches.map fun e =>
      (e.1, if e.2.ctx == c && !e.2.done then
          { e.2 with rec_ := e.2.rec_.map fun (r : Rec) => if r.replay then r else { r with stores := r.stores ++ [(va, s.time.ns, b)] } }
        else e.2) }
/-- The switches drop what a host die sends to another package since a failover (R318). -/
def switchCut (s : State) (pkg c va : Nat) : Bool := s.relay.cutOff.contains pkg && s.homePkg c va != pkg
/-- Traffic of a host die that the rack device lacks, that failed, or that the switches drop. -/
def hostCut (s : State) (pkg c va : Nat) : Bool := !pkgThere pkg || s.relay.failed.contains pkg || s.switchCut pkg c va
def ackReq (s : State) (rid : Nat) : State :=
  { s with mem := { s.mem with reqs := s.mem.reqs.filter fun (q : Req) => q.rid != rid } }
/-- A write of a PCIe function or host core reaches its home, unless a switch drops it. -/
def performWrite (s : State) (q : Req) : State :=
  if s.switchCut q.pkg q.ctx q.va then s.ackReq q.rid
  else if q.state = 0 then
    let ok := !noncanon q.va && s.mapOk q.ctx q.va
    let s := if ok then s.noteHostStore q.ctx q.va (leBytes q.n q.data.toNat) else s
    if ok then s.performReq q
    else
      let s := { s with mem := { s.mem with reqs := s.mem.reqs.map fun (x : Req) => if x.rid = q.rid then { x with state := 1 } else x } }
      s.report (some q.ctx) false
        (recordBytes TrapCode.protection.code (if noncanon q.va then Cause.noncanon else Cause.nohome).code 0 0 s.time.ns ones48 255 ones64 0
          (256 * q.pkg) 0 q.va 0 0)
  else s
/-- Every posted write of a package's PCIe function that stands before a request reaches its home, in order. -/
def drainPosted (s : State) (pkg : Nat) : State :=
  (s.mem.reqs.filter fun q => q.kind == 1 && q.pkg == pkg).foldl (fun s q => (s.performWrite q).ackReq q.rid) s
/-! ### Releases -/

/-- The release side of a synchronising instruction: updates acknowledged, dirty lines written back at `.die` and wider. -/
def releaseAll (s : State) (p : Pass) (sc : Nat) : State := (s.settleUpdates p.bid).releaseAt p.core sc

end State

end Sys2Proof.Machine
end

