-- ==== Sys2Proof/Machine/GlobalMem.lean ====
section
/-! DEFINITION. Global loads and stores of lanes and of uniform registers (04 R118; 17 R397, R399; 18 R428). All are switch
points. -/

namespace Sys2Proof.Machine

/-- Address of a lane in format MI: a pair, or a uniform register, plus the scaled offset. -/
def miAddr (p : Pass) (bk : Bool) (base : Nat) (off8 n l : Nat) : Nat :=
  ((if bk then p.k base else p.sk.vpair base l) + offBytes off8 n).toNat
/-- Address of a lane in format MS: KB = 0 names a pair, else the uniform base plus the lane's index. -/
def msAddr (p : Pass) (kb vx l : Nat) : Nat :=
  (if kb = 0 then p.sk.vpair vx l else p.k kb + (p.sk.v vx l).setWidth 64).toNat
/-- Register checks of the address operands. -/
def miRegs (p : Pass) (bk : Bool) (base : Nat) : List (Option Trap) := if bk then [] else [p.reg base 2, p.even base]
def msRegs (p : Pass) (kb vx : Nat) : List (Option Trap) := if kb = 0 then [p.reg vx 2, p.even vx] else [p.reg vx 1]

/-- A lane load from any address form. -/
def loadWith (s : State) (data : Nat) (sz : Size) (pol : Nat) (acq : Option Nat) (regs : Pass → List (Option Trap))
    (addr : Pass → Nat → Nat) : Out :=
  s.withPass fun p =>
    let s := s.switchPoint p
    let n := sz.bytes
    s.laneGuarded p ([p.laneRole] ++ p.dataReg data n ++ regs p ++ [s.shadowFull p p.lanes (addr p) n] ++ p.addrChecks s (addr p) n)
      (if p.act = 0 then s.endIdle p acq
       else
         let s := match acq with
           | some sc => s.acquireAt p.core p.ctx sc
           | none => s
         let s := s.loadLanes p data n pol (addr p) acq
         match acq with
         | some sc => s.endAcquire p sc
         | none => s.endPass p)
def execLd (data : Nat) (bk : Bool) (base : Nat) (sz : Size) (pol off8 : Nat) (s : State) : Out :=
  loadWith s data sz pol none (fun p => miRegs p bk base) fun p => miAddr p bk base off8 sz.bytes
def execLdMs (data kb vx : Nat) (sz : Size) (acq : LdOrd) (nol1 : Bool) (s : State) : Out :=
  loadWith s data sz (if nol1 then 1 else 0) (match acq with | .relaxed => none | .acq sc => some sc.level)
    (fun p => msRegs p kb vx) fun p => msAddr p kb vx

/-- A lane store to any address form: `rel` a release's scope, `rc` a reader count. -/
def storeWith (s : State) (data : Nat) (sz : Size) (pol rc : Nat) (rel : Option Nat) (regs : Pass → List (Option Trap))
    (addr : Pass → Nat → Nat) : Out :=
  s.withPass fun p =>
    let s := s.switchPoint p
    let n := sz.bytes
    let val (l : Nat) : Nat := if n = 8 then (p.sk.vpair data l).toNat else (p.sk.v data l).toNat
    s.laneGuarded p
      ([p.laneRole] ++ p.dataReg data n ++ regs p ++ [if rel.isSome then s.phaseFull p else none, s.shadowFull p p.lanes (addr p) n]
        ++ p.addrChecks s (addr p) n)
      (if p.act = 0 then s.endPass p
       else match rel with
         | some sc =>
           let r := s.detRelease p sc
           ((r.1.releaseAll p sc).storeLanes p n pol (decide (1 ≤ sc)) rc (some (sc, r.2)) (addr p) val).endPass p
         | none => (s.storeLanes p n pol false rc none (addr p) val).endPass p)
def execSt (data : Nat) (bk : Bool) (base : Nat) (sz : Size) (pol off8 : Nat) (s : State) : Out :=
  storeWith s data sz pol 0 none (fun p => miRegs p bk base) fun p => miAddr p bk base off8 sz.bytes
def execStMs (data kb vx : Nat) (sz : Size) (ord : StOrd) (s : State) : Out :=
  let f (pol rc : Nat) (rel : Option Nat) : Out :=
    storeWith s data sz pol rc rel (fun p => msRegs p kb vx) fun p => msAddr p kb vx
  match ord with
  | .relaxed nol1 => f (if nol1 then 1 else 0) 0 none
  | .rel sc nol1 => f (if nol1 then 1 else 0) 0 (some sc.level)
  | .rc n => f 0 n none

/-! ### Uniform loads and stores (R397) -/

def kAddr (p : Pass) (kb off8 n : Nat) : Nat := (p.k kb + offBytes off8 n).toNat
/-- The lane that stands for a uniform access in the vector-clock unit. -/
def kLane (p : Pass) : Nat := (lowestLane p.path).getD 0
/-- The vector-clock check of a uniform access, then its effect. -/
def kDet (s : State) (p : Pass) (a n kind : Nat) (f : State → State) : State :=
  let c := s.detAccess p (kLane p) a n kind
  match c.2 with
  | some (code, u, i) => c.1.kFail p a (code, u) i
  | none => f c.1
/-- `KLD`; poisoned bytes leave an unspecified value and raise POISON (R177). -/
def execKld (kd kb : Nat) (sz : Size) (pol off8 : Nat) (s : State) : Out :=
  s.withPass fun p =>
    let s := s.switchPoint p
    let n := sz.bytes
    let a := kAddr p kb off8 n
    s.guarded p ([s.shadowFull p [0] (fun _ => a) n] ++ p.kAddrChecks s a n)
      (kDet s p a n 0 fun s =>
        let r := s.kRead p a n pol
        match r.2 with
        | .error f => (if f.1 = .poison then (r.1.setK p kd (Config.freeDouble r.1.fresh.free)).takeFree 1 else r.1).kFail p a f none
        | .ok v => ((r.1.loadSync p a n none).setK p kd (BitVec.ofNat 64 v)).endPass p)
def execKst (ks kb : Nat) (sz : Size) (pol off8 : Nat) (s : State) : Out :=
  s.withPass fun p =>
    let s := s.switchPoint p
    let n := sz.bytes
    let a := kAddr p kb off8 n
    s.guarded p ([s.shadowFull p [0] (fun _ => a) n] ++ p.kAddrChecks s a n)
      (kDet s p a n 1 fun s =>
        let r := s.kWrite p a n pol false none (p.k ks).toNat
        match r.2 with
        | .error f => r.1.kFail p a f none
        | .ok _ => r.1.endPass p)

end Sys2Proof.Machine
end

