-- ==== Sys2Proof/Machine/Atomic.lean ====
section
/-! DEFINITION. Atomics and reductions (08 R205-R208; 11 R278; 13 R313; 16 R356, R365; 18 R419). -/

namespace Sys2Proof.Machine

def pairAddr (p : Pass) (r l : Nat) : Nat := (p.sk.vpair r l).toNat
def laneData (p : Pass) (r n l : Nat) : Nat := if n = 8 then (p.sk.vpair r l).toNat else (p.sk.v r l).toNat
/-- Register checks of format AT. -/
def atRegs (p : Pass) (addr data n : Nat) : List (Option Trap) := [p.reg addr 2, p.even addr] ++ p.dataReg data n

/-! ### `ATOM` and `CAS` -/

/-- One request for each line, and in it one indivisible step for each lane, ascending; a release before and an acquire after. -/
def atomLanes (s : State) (p : Pass) (addr : Nat → Nat) (n sc : Nat) (step : Nat → Nat → Nat) (put : Skein → Nat → Nat → Skein) :
    State :=
  let s := s.releaseAll p sc
  let r := s.byRequests p.ctx p.lanes addr (fun s v => s.reachHome p.origin v) fun s l =>
    let q := s.stepAt p.origin (addr l) n (step l)
    match q.2 with
    | .error f => (q.1, some (p.failAt addr l f))
    | .ok old =>
      ((q.1.stampStores p.ctx (State.lineVa (addr l)) (byteRange (addr l % 128) n) p.writer).modSk p.bid p.ix fun k => put k l old, none)
  ((r.1.acquireAt p.core p.ctx sc).noteFails p r.2).endAcquire p sc
def execAtom (d addr data : Nat) (sc : Scope) (op : AtomOp) (s : State) : Out :=
  s.withPass fun p =>
    let s := s.switchPoint p
    let n := atomBytes op
    s.laneGuarded p ([p.laneRole] ++ p.dataReg d n ++ atRegs p addr data n ++ [s.detInstr p] ++ p.addrChecks s (pairAddr p addr) n)
      (if p.act = 0 then s.endIdle p (some sc.level)
       else atomLanes s p (pairAddr p addr) n sc.level (fun l old => atomOf op old (laneData p data n l)) fun k l old =>
         State.loadInto k d n l old)
/-- `CAS` (R365): bits of `m`F for the lanes whose request succeeded. -/
def execCas (d addr data : Nat) (sc : Scope) (f : Nat) (w64 : Bool) (s : State) : Out :=
  s.withPass fun p =>
    let s := s.switchPoint p
    let n := if w64 then 8 else 4
    s.laneGuarded p ([p.laneRole] ++ p.dataReg d n ++ atRegs p addr data n ++ [s.detInstr p] ++ p.addrChecks s (pairAddr p addr) n)
      (if p.act = 0 then s.endIdle p (some sc.level)
       else atomLanes s p (pairAddr p addr) n sc.level
         (fun l old => if old = laneData p d n l then laneData p data n l else old) fun k l old =>
           (State.loadInto k d n l old).setMask f (laneBit l) (if old = laneData p d n l then 0 else 0xFFFF))

/-! ### `RED` (R419) -/

/-- The lines at their homes that some lanes' updates reach. -/
def heldLines (s : State) (c : Nat) (ls : List Nat) (addr : Nat → Nat) : List Nat :=
  ls.filterMap fun l => ((s.request c (addr l) .atomic).2.toOption).map fun h => h.addr / 128
/-- The updates of some lanes would overflow a line's buffer when its die's spill pool has no room: DET_ILLEGAL before any effect
(R268, R279). -/
def spillFull (s : State) (p : Pass) (addr : Nat → Nat) : Option Trap :=
  let lines := heldLines s p.ctx p.lanes addr
  let spilt (x : Nat) : Nat := ((s.bufferOf x).length + (lines.filter (· == x)).length) / 17 * 17
  let dieOfLine (x : Nat) : Nat := chanDie (x / 2 ^ 24)
  let distinct := lines.foldl (fun l x => if l.contains x then l else l ++ [x]) []
  let need (d : Nat) : Nat := distinct.foldl (fun n x => if dieOfLine x = d then n + spilt x else n) 0
  whenBad (distinct.any fun x => decide (0 < need (dieOfLine x)) && decide (4194304 < (s.die (dieOfLine x)).spills + need (dieOfLine x)))
    (p.trap .detIllegal .spill)
/-- An update of a DET launch, whose request has reached its home, held in its line's buffer (R278); the one that finds 16 there moves all of them to the spill list
(R279). -/
def holdUpdate (s : State) (p : Pass) (l va : Nat) (v : W32) : State × Except Fail Unit :=
  let r := s.request p.ctx va .atomic
  match r.2 with
  | .error f => (r.1, .error f)
  | .ok h =>
    let s := r.1
    let line := h.addr / 128
    let x : Held := { lid := p.blk.id.lid, line := line, ctx := p.ctx, va := va, blk := p.blk.id.idx, sk := p.ix, lane := l,
                      ordinal := s.fresh.rid, window := mapGetD s.mem.windows (State.myKey p) 0, value := v, off := p.off,
                      plane := p.plane, spilled := false }
    let m := { s.mem with held := s.mem.held ++ [x] }
    let s : State := { s with fresh := { s.fresh with rid := s.fresh.rid + 1 }, mem := m }
    (if 17 ≤ (s.bufferOf line).length then s.spillLine line else s, .ok ())
def execRed (det : Bool) (addr data : Nat) (_sc : Scope) (op : AtomOp) (s : State) : Out :=
  s.withPass fun p =>
    let s := s.switchPoint p
    let n := atomBytes op
    let a := pairAddr p addr
    let isDet := s.isDet p
    s.laneGuarded p ([p.laneRole] ++ atRegs p addr data n ++ [whenBad (isDet && !det) (p.trap .detIllegal .instr), s.shadowFull p p.lanes a n,
        if isDet && op == .fadd then spillFull s p a else none] ++ p.addrChecks s a n)
      (let c := s.detLanes p p.lanes a n 3
       let raced (l : Nat) : Option Held := (s.mem.held.find? fun h => h.lid == p.blk.id.lid && decide (a l ≤ h.va) && decide (h.va < a l + n)).filter
         fun _ => isDet && op != .fadd
       let ls := State.passed p.lanes c.2
       let races := (ls.filter fun l => (raced l).isSome).map fun l =>
         { p.failAt a l (.race, .reduce) with race := (raced l).map fun h => h.raceInfo 3 }
       let combined (s : State) (va : Nat) : Bool :=
         !(isDet && op == .fadd) && s.homePkg p.ctx va != State.pkgOf p.core && s.inWindow (State.trayOf p.core) p.ctx va
       let reach (s : State) (v : Nat) : State :=
         if combined s v then (s.expel p.core p.ctx v).sendPacket (State.pkgOf p.core) v else s.reachHome p.origin v
       let r := c.1.byRequests p.ctx (State.passed ls races) a reach fun s l =>
         let v := laneData p data n l
         let from_ : Issuer := { bid := p.bid, ix := p.ix, off := p.off, plane := p.plane, mask := laneBit l }
         if combined s (a l) then (s.sendUpdate p.ctx (State.pkgOf p.core) (a l) (atomCode op) v [from_], none)
         else
           let q := if isDet && op == .fadd then holdUpdate s p l (a l) (BitVec.ofNat 32 v) else s.updateHome p.origin (a l) op v [from_]
           match q.2 with
           | .error f => (q.1, some (p.failAt a l f))
           | .ok _ =>
             (if isDet && op == .fadd then q.1 else q.1.stampStores p.ctx (State.lineVa (a l)) (byteRange (a l % 128) n) p.writer, none)
       let r := (r.1, races ++ r.2)
       (r.1.noteFails p (c.2 ++ r.2)).endPass p)

end Sys2Proof.Machine
end

