-- ==== Sys2Proof/WellFormed.lean ====
section
/-! DEFINITION. Which terms of `Instr` are instructions: every operand inside the field its format gives it
(spec 04 R98-R103). An event is well formed whatever its operands name: an event that names nothing that exists changes
nothing. -/

namespace Sys2Proof

/-- A 7-bit lane source (R81). -/
def Src.wf : Src → Bool
  | .v n => n < 64
  | .b n => n < 8

/-- The 5-bit source of a 16-bit form (R98). -/
def Src.wf16 : Src → Bool
  | .v n => n < 16
  | .b n => n < 8

/-- A reader count is 1 to 16 (R105). -/
def StOrd.wf : StOrd → Bool
  | .relaxed _ => true
  | .rel _ _ => true
  | .rc n => 1 ≤ n && n ≤ 16

/-- `.exch` and `.exch64` are reserved in `RED` (R118). -/
def AtomOp.redOk : AtomOp → Bool
  | .exch => false
  | .exch64 => false
  | _ => true

/-- Every operand lies in its field. -/
def Instr.wf : Instr → Bool
  | .iadd d _ a b => decide (d < 64) && a.wf && b.wf
  | .isub d _ a b => decide (d < 64) && a.wf && b.wf
  | .imul d _ a b => decide (d < 64) && a.wf && b.wf
  | .imulh d _ a b => decide (d < 64) && a.wf && b.wf
  | .imulhZ d _ a b => decide (d < 64) && a.wf && b.wf
  | .imin d _ a b => decide (d < 64) && a.wf && b.wf
  | .iminZ d _ a b => decide (d < 64) && a.wf && b.wf
  | .imax d _ a b => decide (d < 64) && a.wf && b.wf
  | .imaxZ d _ a b => decide (d < 64) && a.wf && b.wf
  | .land d _ a b => decide (d < 64) && a.wf && b.wf
  | .lor d _ a b => decide (d < 64) && a.wf && b.wf
  | .lxor d _ a b => decide (d < 64) && a.wf && b.wf
  | .shl d _ a b => decide (d < 64) && a.wf && b.wf
  | .shr d _ a b => decide (d < 64) && a.wf && b.wf
  | .sar d _ a b => decide (d < 64) && a.wf && b.wf
  | .iaddc d _ a b => decide (d < 64) && a.wf && b.wf
  | .mov d _ a => decide (d < 64) && a.wf
  | .lnot d _ a => decide (d < 64) && a.wf
  | .ineg d _ a => decide (d < 64) && a.wf
  | .iabs d _ a => decide (d < 64) && a.wf
  | .clz d _ a => decide (d < 64) && a.wf
  | .popc d _ a => decide (d < 64) && a.wf
  | .brev d _ a => decide (d < 64) && a.wf
  | .fabs d _ a => decide (d < 64) && a.wf
  | .fneg d _ a => decide (d < 64) && a.wf
  | .frcp d _ a => decide (d < 64) && a.wf
  | .frsq d _ a => decide (d < 64) && a.wf
  | .fsqrt d _ a => decide (d < 64) && a.wf
  | .fexp2 d _ a => decide (d < 64) && a.wf
  | .flog2 d _ a => decide (d < 64) && a.wf
  | .fsin d _ a => decide (d < 64) && a.wf
  | .fcos d _ a => decide (d < 64) && a.wf
  | .fadd d _ a b _ => decide (d < 64) && a.wf && b.wf
  | .fsub d _ a b _ => decide (d < 64) && a.wf && b.wf
  | .fmul d _ a b _ => decide (d < 64) && a.wf && b.wf
  | .dadd d _ a b _ => decide (d < 64) && a.wf && b.wf
  | .dmul d _ a b _ => decide (d < 64) && a.wf && b.wf
  | .ffma d _ a b c => decide (d < 64) && a.wf && b.wf && decide (c < 16)
  | .dfma d _ a b c => decide (d < 64) && a.wf && b.wf && decide (c < 16)
  | .hfma2 d _ a b c => decide (d < 64) && a.wf && b.wf && decide (c < 16)
  | .imad d _ a b c => decide (d < 64) && a.wf && b.wf && decide (c < 16)
  | .bfi d _ a b c => decide (d < 64) && a.wf && b.wf && decide (c < 16)
  | .fmin d _ a b => decide (d < 64) && a.wf && b.wf
  | .fmax d _ a b => decide (d < 64) && a.wf && b.wf
  | .fclass d _ a => decide (d < 64) && a.wf
  | .hadd2 d _ a b => decide (d < 64) && a.wf && b.wf
  | .fcmp d a b _ => decide (d < 8) && a.wf && b.wf
  | .icmp d a b _ => decide (d < 8) && a.wf && b.wf
  | .cvt d _ a _ _ _ => decide (d < 64) && a.wf
  | .cvtSat d _ a _ _ _ => decide (d < 64) && a.wf
  | .sel d _ a b c => decide (d < 64) && a.wf && b.wf && decide (c < 8)
  | .lea d _ a b sh => decide (d < 64) && a.wf && b.wf && decide (sh < 16)
  | .bfx d _ a b _ => decide (d < 64) && a.wf && b.wf
  | .movi d _ imm => decide (d < 64) && decide (imm < 65536)
  | .movh d _ imm => decide (d < 64) && decide (imm < 65536)
  | .k2v d _ ka => decide (d < 64) && decide (ka < 32)
  | .v2k kd a => decide (kd < 32) && a.wf
  | .pget d _ => decide (d < 64)
  | .pset a => a.wf
  | .psetImm n => decide (n < 4)
  | .mmovMM md ma => decide (md < 8) && decide (ma < 8)
  | .mmovMV md a => decide (md < 8) && a.wf
  | .mmovVM d _ ma => decide (d < 64) && decide (ma < 8)
  | .mmovMK md ka => decide (md < 8) && decide (ka < 32)
  | .mmovKM kd ma => decide (kd < 32) && decide (ma < 8)
  | .mlogAnd md ma mb => decide (md < 8) && decide (ma < 8) && decide (mb < 8)
  | .mlogOr md ma mb => decide (md < 8) && decide (ma < 8) && decide (mb < 8)
  | .mlogXor md ma mb => decide (md < 8) && decide (ma < 8) && decide (mb < 8)
  | .mlogAndn md ma mb => decide (md < 8) && decide (ma < 8) && decide (mb < 8)
  | .shfl d _ a b mode => decide (d < 64) && a.wf && b.wf && decide (mode < 4)
  | .voteAny md ma => decide (md < 8) && decide (ma < 8)
  | .voteAll md ma => decide (md < 8) && decide (ma < 8)
  | .voteBallot kd ma => decide (kd < 32) && decide (ma < 8)
  | .rdxAdd kd a => decide (kd < 32) && a.wf
  | .rdxMin kd a => decide (kd < 32) && a.wf
  | .rdxMax kd a => decide (kd < 32) && a.wf
  | .rdxFadd kd a => decide (kd < 32) && a.wf
  | .qbcast d _ a n => decide (d < 64) && a.wf && decide (n < 4)
  | .qswap d _ a n => decide (d < 64) && a.wf && decide (n < 4)
  | .qfill d _ a => decide (d < 64) && a.wf
  | .amul d a b slot => decide (d < 64) && decide (a < 64) && decide (b < 64) && decide (slot < 8)
  | .amad d a b slot => decide (d < 64) && decide (a < 64) && decide (b < 64) && decide (slot < 8)
  | .aconj d a slot => decide (d < 64) && decide (a < 64) && decide (slot < 8)
  | .anorm d a slot => decide (d < 64) && decide (a < 64) && decide (slot < 8)
  | .sread reg toK num => decide (reg < 64) && (!toK || reg < 32) && decide (num < 24)
  | .swrite reg fromK num => decide (reg < 64) && (!fromK || reg < 32) && decide (num < 24)
  | .kadd kd ka kb => decide (kd < 32) && decide (ka < 32) && decide (kb < 32)
  | .ksub kd ka kb => decide (kd < 32) && decide (ka < 32) && decide (kb < 32)
  | .kmul kd ka kb => decide (kd < 32) && decide (ka < 32) && decide (kb < 32)
  | .kshf kd ka kb => decide (kd < 32) && decide (ka < 32) && decide (kb < 32)
  | .kmov kd ka => decide (kd < 32) && decide (ka < 32)
  | .klogAnd kd ka kb => decide (kd < 32) && decide (ka < 32) && decide (kb < 32)
  | .klogOr kd ka kb => decide (kd < 32) && decide (ka < 32) && decide (kb < 32)
  | .klogXor kd ka kb => decide (kd < 32) && decide (ka < 32) && decide (kb < 32)
  | .klogAndn kd ka kb => decide (kd < 32) && decide (ka < 32) && decide (kb < 32)
  | .kcmp kd ka kb _ => decide (kd < 32) && decide (ka < 32) && decide (kb < 32)
  | .kmovi kd h imm => decide (kd < 32) && decide (h < 4) && decide (imm < 65536)
  | .ld data bk base _ pol off8 => decide (data < 64) && decide (base < 64) && decide (pol < 4) && decide (off8 < 256) && (!bk || base < 32)
  | .ldMs data kb vx _ _ _ => decide (data < 64) && decide (kb < 32) && decide (vx < 64)
  | .st data bk base _ pol off8 => decide (data < 64) && decide (base < 64) && decide (pol < 4) && decide (off8 < 256) && (!bk || base < 32)
  | .stMs data kb vx _ ord => decide (data < 64) && decide (kb < 32) && decide (vx < 64) && ord.wf
  | .ldsp data _ base _ off8 => decide (data < 64) && decide (base < 64) && decide (off8 < 256)
  | .stsp data _ base _ off8 => decide (data < 64) && decide (base < 64) && decide (off8 < 256)
  | .kld kd kb _ pol off8 => decide (kd < 32) && decide (kb < 32) && decide (pol < 4) && decide (off8 < 256)
  | .kst ks kb _ pol off8 => decide (ks < 32) && decide (kb < 32) && decide (pol < 4) && decide (off8 < 256)
  | .atom d addr data _ _ => decide (d < 64) && decide (addr < 64) && decide (data < 64)
  | .cas d addr data _ f _ => decide (d < 64) && decide (addr < 64) && decide (data < 64) && decide (f < 8)
  | .red _ addr data _ op => decide (addr < 64) && decide (data < 64) && op.redOk
  | .pref cnt kb vx tier bo bound => decide (cnt < 64) && decide (kb < 32) && decide (vx < 64) && decide (tier < 2) && decide (bo < 32) && (bound || bo == 0) && (kb != 0 || vx % 2 == 0)
  | .wput d a sm => decide (d < 64) && decide (a < 64) && decide (sm < 8)
  | .wget d a b => decide (d < 64) && decide (a < 64) && decide (b < 64)
  | .wname d a sm => decide (d < 64) && decide (a < 64) && decide (sm < 8)
  | .wrefInc a => decide (a < 64)
  | .wrefDec a => decide (a < 64)
  | .wswap d a b sm => decide (d < 64) && decide (a < 64) && decide (b < 64) && decide (sm < 8)
  | .wcopy a b => decide (a < 64) && decide (b < 64)
  | .waitcmp _ _ ka kb => decide (ka < 32) && decide (kb < 32)
  | .dqpush kv km => decide (kv < 32) && decide (km < 32)
  | .dqpop kd => decide (kd < 32)
  | .tqpush kq ke => decide (kq < 32) && decide (ke < 32)
  | .tqpop kd kq => decide (kd < 32) && decide (kq < 32)
  | .srput kr ks _ => decide (kr < 32) && decide (ks < 32)
  | .srwait kr ks => decide (kr < 32) && decide (ks < 32)
  | .cwait kc kt => decide (kc < 32) && decide (kt < 32)
  | .boarr kb => decide (kb < 32)
  | .bowait kb => decide (kb < 32)
  | .dcopy kc ks kx => decide (kc < 32) && decide (ks < 32) && decide (kx < 32)
  | .accz t kc => decide (t < 16) && decide (kc < 32)
  | .accswap t => decide (t < 16)
  | .accrd d _ t w => decide (d < 64) && decide (t < 16) && w.wf
  | .accwr t w a => decide (t < 16) && w.wf && a.wf
  | .atab slot ka => decide (slot < 8) && decide (ka < 32)
  | .atabDefault slot => decide (slot < 8)
  | .growRegs n => decide (n < 64)
  | .growTiles n => decide (n < 64)
  | .shrinkRegs n => decide (n < 64)
  | .shrinkTiles n => decide (n < 64)
  | .rswitch role => decide (role < 3)
  | .mma kab _ tile slot fl kc => decide (kab < 32) && decide (tile < 16) && decide (slot < 8) && decide (fl < 16) && decide (kc < 32)
  | .nop => true
  | .ret => true
  | .exit => true
  | .isync => true
  | .fence _ => true
  | .ofence => true
  | .tfence _ => true
  | .icinv _ => true
  | .bkpt => true
  | .tret => true
  | .trap n => decide (n < 16384)
  | .bar n => decide (n < 16)
  | .jmpi ka => decide (ka < 32)
  | .jinit jn imm => decide (jn < 8) && decide (imm < 65536)
  | .jinitMask jn c => decide (jn < 8) && decide (c < 8)
  | .jarr jn => decide (jn < 8)
  | .jwait jn => decide (jn < 8)
  | .bra cm _ disp => decide (cm < 8) && decide (disp < 2097152)
  | .braRj cm _ disp rdist => decide (cm < 8) && decide (disp < 2048) && decide (rdist < 1024)
  | .brau kc mode disp => decide (kc < 32) && decide (disp < 262144) && (mode != .always || kc == 0)
  | .call n8 disp => decide (n8 < 8) && decide (disp < 524288)
  | .yield kct kth cnt disp => decide (kct < 32) && decide (kth < 32) && decide (disp < 16384) && (cnt || (kct == 0 && kth == 0))
  | .iadd16 d s => decide (d < 64) && s.wf16 && !(d == 0 && s == .v 0)
  | .isub16 d s => decide (d < 64) && s.wf16
  | .and16 d s => decide (d < 64) && s.wf16
  | .or16 d s => decide (d < 64) && s.wf16
  | .xor16 d s => decide (d < 64) && s.wf16
  | .shl16 d s => decide (d < 64) && s.wf16
  | .shr16 d s => decide (d < 64) && s.wf16
  | .mov16 d s => decide (d < 64) && s.wf16
  | .movi16 d imm => decide (d < 64) && decide (imm < 32)
  | .fadd16 d s => decide (d < 64) && s.wf16
  | .fsub16 d s => decide (d < 64) && s.wf16
  | .fmul16 d s => decide (d < 64) && s.wf16
  | .ffma16 d s => decide (d < 64) && s.wf16
  | .imad16 d s => decide (d < 64) && s.wf16
  | .sel16 d s => decide (d < 64) && s.wf16
  | .lea16 d s => decide (d < 64) && s.wf16
  | .nop16 => true
  | .relayedTrap _ => true
  | .resourceEviction _ _ => true
  | .rcqTail _ => true
  | .gridLaunch => true
  | .residentLaunch => true
  | .contextBind => true
  | .contextRelease => true
  | .blockPlacement _ => true
  | .residentPlacement _ => true
  | .startTime _ => true
  | .residencyReport _ _ _ => true
  | .steal _ _ _ => true
  | .priorityPreemption _ => true
  | .contextSave _ => true
  | .contextRestore _ => true
  | .thermalMigration _ _ => true
  | .skeinRetire _ _ => true
  | .gridCompletion _ => true
  | .contextFatal _ => true
  | .heartbeat => true
  | .failover => true
  | .shootdown _ => true
  | .shootdownDone _ => true
  | .faultReply _ => true
  | .pin _ => true
  | .unpin _ => true
  | .ingressBind _ => true
  | .ingressUnbind _ => true
  | .rwinReg _ => true
  | .rwinDereg _ => true
  | .aperture _ => true
  | .flush _ => true
  | .apertureAccess _ _ _ _ _ _ => true
  | .apertureAmo _ _ _ _ _ => true
  | .hostFence _ _ => true
  | .registerWrite _ _ _ => true
  | .homeRequest _ => true
  | .memoryResponse _ _ => true
  | .faultRecord => true
  | .l1Writeback _ _ => true
  | .scrub _ _ => true
  | .refresh _ _ => true
  | .laneLending _ => true
  | .redCombine _ => true
  | .combineCount _ => true
  | .combineTimer _ => true
  | .holdingBufferSpill _ => true
  | .flitReceive _ _ => true
  | .stomp _ => true
  | .idleFlit _ _ => true
  | .nakFlit _ _ => true
  | .retryTimeout _ => true
  | .retrain _ => true
  | .portDown _ => true
  | .endToEndNak _ => true
  | .frameIngress _ _ _ _ => true
  | .uetPacket _ _ _ _ _ => true
  | .ptpMessage _ _ => true
  | .timeFlit _ => true
  | .grandmasterLoss => true
  | .clockGate _ => true
  | .powerGate _ => true
  | .hang _ => true
  | .monitorPoll _ => true
  | .engineHang _ => true
  | .engineResetEnd _ => true
  | .commandStart _ _ => true
  | .commandRetire _ _ => true
  | .commandFault _ _ => true
  | .accswapExchange _ _ => true
  | .copyStart _ _ => true
  | .copyRow _ _ => true
  | .copyPageFault _ _ => true
  | .prefetchArrival _ => true
  | .replayFrame _ _ => true
  | .replayHostStore _ _ => true
  | .rackAssembly => true
  | .firmwareBoot _ _ => true
  | .keyLoad _ _ _ _ => true
  | .attestationReport _ _ _ => true
  | .unassignedEncoding _ _ => true
  | .reservedPacketType => true
  | .reservedRelayCommand _ => true
  | .commandFailed _ _ => true
  | .retrainingEnd _ _ => true
  | .lendingHandshakeEnd _ => true
  | .keySlotClear _ _ => true

/-- The well-formed instructions. -/
abbrev Instr.WellFormed (i : Instr) : Prop := i.wf = true

end Sys2Proof
end

