-- ==== Sys2Proof/Decode.lean ====
section
/-! DEFINITION. The decoder, total on any halfwords (spec 04 R96-R123), and after it the encoder, written from the same
format tables. A word that is no instruction answers the ILLEGAL cause R123 gives it, with what the issuer must be for that
cause to be the first condition it meets (R287). -/

namespace Sys2Proof

/-! ### The formats as fields (R98, R101, R103) -/

/-- A word cut into the fields of its format. `bad` is a word with a reserved bit of its format set. -/
inductive Form where
  | fr (maj d k a b mn : Nat)
  | fw (maj d k h imm : Nat)
  | fcv (maj d k a dt st rm : Nat)
  | fal (d a b slot mn : Nat)
  | fs (reg kind num mn : Nat)
  | fmi (maj data bk base sz pol off8 : Nat)
  | fms (maj data kb vx sz scope ord pol : Nat)
  | fpf (cnt kb vx tier bo bound : Nat)
  | fat (maj d addr data sc op : Nat)
  | fsw (d a b sm mn : Nat)
  | fmx (kab span tile slot fl kc : Nat)
  | fj (jn sub imm : Nat)
  | fbr (cm neg disp : Nat)
  | fbs (cm neg tdisp rdist : Nat)
  | fbu (kc mode disp : Nat)
  | fcl (n8 disp : Nat)
  | fyl (kct kth cnt disp : Nat)
  | fh (op d s : Nat)
  | bad
  deriving DecidableEq, Repr

/-- Bits `lo` upward of `w`, `2^n` wide values given as a power. -/
def fieldOf (w lo size : Nat) : Nat := w / lo % size

/-- The word of a form: bit 0 of the word is its least significant bit. -/
def Form.word : Form → Nat
  | .fr maj d k a b mn => 1 + 2 * maj + 0x80 * d + 0x2000 * k + 0x4000 * a + 0x200000 * b + 0x10000000 * mn
  | .fw maj d k h imm => 1 + 2 * maj + 0x80 * d + 0x2000 * k + 0x4000 * h + 0x10000 * imm
  | .fcv maj d k a dt st rm =>
    1 + 2 * maj + 0x80 * d + 0x2000 * k + 0x4000 * a + 0x200000 * dt + 0x2000000 * st + 0x20000000 * rm
  | .fal d a b slot mn => 1 + 2 * 0x18 + 0x80 * d + 0x4000 * a + 0x100000 * b + 0x4000000 * slot + 0x20000000 * mn
  | .fs reg kind num mn => 1 + 2 * 0x19 + 0x80 * reg + 0x2000 * kind + 0x4000 * num + 0x10000000 * mn
  | .fmi maj data bk base sz pol off8 =>
    1 + 2 * maj + 0x80 * data + 0x2000 * bk + 0x4000 * base + 0x100000 * sz + 0x400000 * pol + 0x1000000 * off8
  | .fms maj data kb vx sz scope ord pol =>
    1 + 2 * maj + 0x80 * data + 0x2000 * kb + 0x40000 * vx + 0x1000000 * sz + 0x4000000 * scope + 0x20000000 * ord
      + 0x80000000 * pol
  | .fpf cnt kb vx tier bo bound =>
    1 + 2 * 0x2B + 0x80 * cnt + 0x2000 * kb + 0x40000 * vx + 0x1000000 * tier + 0x4000000 * bo + 0x80000000 * bound
  | .fat maj d addr data sc op =>
    1 + 2 * maj + 0x80 * d + 0x2000 * addr + 0x80000 * data + 0x2000000 * sc + 0x10000000 * op
  | .fsw d a b sm mn => 1 + 2 * 0x2C + 0x80 * d + 0x2000 * a + 0x80000 * b + 0x2000000 * sm + 0x10000000 * mn
  | .fmx kab span tile slot fl kc =>
    1 + 2 * 0x30 + 0x80 * kab + 0x1000 * span + 0x4000 * tile + 0x40000 * slot + 0x200000 * fl + 0x2000000 * kc
  | .fj jn sub imm => 1 + 2 * 0x32 + 0x80 * jn + 0x4000 * sub + 0x10000 * imm
  | .fbr cm neg disp => 1 + 2 * 0x33 + 0x80 * cm + 0x400 * neg + 0x800 * disp
  | .fbs cm neg tdisp rdist => 1 + 2 * 0x34 + 0x80 * cm + 0x400 * neg + 0x800 * tdisp + 0x400000 * rdist
  | .fbu kc mode disp => 1 + 2 * 0x35 + 0x80 * kc + 0x1000 * mode + 0x4000 * disp
  | .fcl n8 disp => 1 + 2 * 0x36 + 0x80 * n8 + 0x2000 * disp
  | .fyl kct kth cnt disp => 1 + 2 * 0x37 + 0x80 * kct + 0x1000 * kth + 0x20000 * cnt + 0x40000 * disp
  | .fh op d s => 2 * op + 0x20 * d + 0x800 * s
  | .bad => 0

/-- How many bits a form takes: 16 or 32 (R96). -/
def Form.bits : Form → Nat
  | .fh _ _ _ => 16
  | .bad => 16
  | _ => 32

def formR (w : Nat) : Form :=
  .fr (fieldOf w 2 64) (fieldOf w 0x80 64) (fieldOf w 0x2000 2) (fieldOf w 0x4000 128) (fieldOf w 0x200000 128)
    (fieldOf w 0x10000000 16)
def formW (w : Nat) : Form :=
  .fw (fieldOf w 2 64) (fieldOf w 0x80 64) (fieldOf w 0x2000 2) (fieldOf w 0x4000 4) (fieldOf w 0x10000 65536)
def formCV (w : Nat) : Form :=
  .fcv (fieldOf w 2 64) (fieldOf w 0x80 64) (fieldOf w 0x2000 2) (fieldOf w 0x4000 128) (fieldOf w 0x200000 16)
    (fieldOf w 0x2000000 16) (fieldOf w 0x20000000 8)
def formAL (w : Nat) : Form :=
  if fieldOf w 0x2000 2 = 0 then
    .fal (fieldOf w 0x80 64) (fieldOf w 0x4000 64) (fieldOf w 0x100000 64) (fieldOf w 0x4000000 8) (fieldOf w 0x20000000 8)
  else .bad
def formS (w : Nat) : Form :=
  if fieldOf w 0x400000 64 = 0 then
    .fs (fieldOf w 0x80 64) (fieldOf w 0x2000 2) (fieldOf w 0x4000 256) (fieldOf w 0x10000000 16)
  else .bad
def formMI (w : Nat) : Form :=
  .fmi (fieldOf w 2 64) (fieldOf w 0x80 64) (fieldOf w 0x2000 2) (fieldOf w 0x4000 64) (fieldOf w 0x100000 4)
    (fieldOf w 0x400000 4) (fieldOf w 0x1000000 256)
def formMS (w : Nat) : Form :=
  .fms (fieldOf w 2 64) (fieldOf w 0x80 64) (fieldOf w 0x2000 32) (fieldOf w 0x40000 64) (fieldOf w 0x1000000 4)
    (fieldOf w 0x4000000 8) (fieldOf w 0x20000000 4) (fieldOf w 0x80000000 2)
def formPF (w : Nat) : Form :=
  .fpf (fieldOf w 0x80 64) (fieldOf w 0x2000 32) (fieldOf w 0x40000 64) (fieldOf w 0x1000000 4) (fieldOf w 0x4000000 32)
    (fieldOf w 0x80000000 2)
def formAT (w : Nat) : Form :=
  .fat (fieldOf w 2 64) (fieldOf w 0x80 64) (fieldOf w 0x2000 64) (fieldOf w 0x80000 64) (fieldOf w 0x2000000 8)
    (fieldOf w 0x10000000 16)
def formSW (w : Nat) : Form :=
  .fsw (fieldOf w 0x80 64) (fieldOf w 0x2000 64) (fieldOf w 0x80000 64) (fieldOf w 0x2000000 8) (fieldOf w 0x10000000 16)
def formMX (w : Nat) : Form :=
  if fieldOf w 0x2000 2 = 0 ∧ fieldOf w 0x40000000 4 = 0 then
    .fmx (fieldOf w 0x80 32) (fieldOf w 0x1000 2) (fieldOf w 0x4000 16) (fieldOf w 0x40000 8) (fieldOf w 0x200000 16)
      (fieldOf w 0x2000000 32)
  else .bad
def formJ (w : Nat) : Form :=
  if fieldOf w 0x400 16 = 0 then .fj (fieldOf w 0x80 8) (fieldOf w 0x4000 4) (fieldOf w 0x10000 65536) else .bad
def formBR (w : Nat) : Form := .fbr (fieldOf w 0x80 8) (fieldOf w 0x400 2) (fieldOf w 0x800 2097152)
def formBS (w : Nat) : Form :=
  .fbs (fieldOf w 0x80 8) (fieldOf w 0x400 2) (fieldOf w 0x800 2048) (fieldOf w 0x400000 1024)
def formBU (w : Nat) : Form := .fbu (fieldOf w 0x80 32) (fieldOf w 0x1000 4) (fieldOf w 0x4000 262144)
def formCL (w : Nat) : Form :=
  if fieldOf w 0x400 8 = 0 then .fcl (fieldOf w 0x80 8) (fieldOf w 0x2000 524288) else .bad
def formYL (w : Nat) : Form :=
  .fyl (fieldOf w 0x80 32) (fieldOf w 0x1000 32) (fieldOf w 0x20000 2) (fieldOf w 0x40000 16384)
def formH (w : Nat) : Form := .fh (fieldOf w 2 16) (fieldOf w 0x20 64) (fieldOf w 0x800 32)

/-- The format of a 32-bit word by its major opcode (R111). -/
def form32 (w : Nat) : Form :=
  match fieldOf w 2 64 with
  | 0x01 | 0x02 | 0x03 | 0x04 | 0x05 | 0x06 | 0x07 | 0x08 | 0x09 | 0x0A | 0x0B | 0x0C | 0x0D | 0x0E | 0x0F => formR w
  | 0x10 | 0x11 => formCV w
  | 0x12 | 0x13 | 0x14 | 0x16 | 0x17 | 0x1A | 0x1B | 0x2D | 0x2E | 0x2F | 0x31 => formR w
  | 0x15 | 0x1C => formW w
  | 0x18 => formAL w
  | 0x19 => formS w
  | 0x20 | 0x22 | 0x24 | 0x25 | 0x26 | 0x27 => formMI w
  | 0x21 | 0x23 => formMS w
  | 0x28 | 0x29 | 0x2A => formAT w
  | 0x2B => formPF w
  | 0x2C => formSW w
  | 0x30 => formMX w
  | 0x32 => formJ w
  | 0x33 => formBR w
  | 0x34 => formBS w
  | 0x35 => formBU w
  | 0x36 => formCL w
  | 0x37 => formYL w
  | _ => .bad

/-! ### Codes of the enumerations (R104-R110, R118) -/

def Src.code : Src → Nat
  | .v n => n
  | .b n => 64 + n
def Src.code16 : Src → Nat
  | .v n => n
  | .b n => 16 + n
def Src.ofCode (c : Nat) : Option Src :=
  if c < 64 then some (.v c) else if c < 72 then some (.b (c - 64)) else none
def Src.ofCode16 (c : Nat) : Option Src :=
  if c < 16 then some (.v c) else if c < 24 then some (.b (c - 16)) else none
def Rm.code : Rm → Nat
  | .rne => 0
  | .rtz => 1
  | .rup => 2
  | .rdn => 3
  | .rna => 4
def Rm.ofCode : Nat → Option Rm
  | 0 => some .rne
  | 1 => some .rtz
  | 2 => some .rup
  | 3 => some .rdn
  | 4 => some .rna
  | _ => none
def ICond.code : ICond → Nat
  | .eq => 0
  | .ne => 1
  | .lt => 2
  | .le => 3
  | .gt => 4
  | .ge => 5
  | .lo => 6
  | .ls => 7
  | .hi => 8
  | .hs => 9
def ICond.ofCode : Nat → Option ICond
  | 0 => some .eq
  | 1 => some .ne
  | 2 => some .lt
  | 3 => some .le
  | 4 => some .gt
  | 5 => some .ge
  | 6 => some .lo
  | 7 => some .ls
  | 8 => some .hi
  | 9 => some .hs
  | _ => none
def FCond.code : FCond → Nat
  | .eq => 0
  | .ne => 1
  | .lt => 2
  | .le => 3
  | .gt => 4
  | .ge => 5
  | .un => 6
  | .ord => 7
def FCond.ofCode : Nat → Option FCond
  | 0 => some .eq
  | 1 => some .ne
  | 2 => some .lt
  | 3 => some .le
  | 4 => some .gt
  | 5 => some .ge
  | 6 => some .un
  | 7 => some .ord
  | _ => none
def Scope.code : Scope → Nat
  | .core => 0
  | .die => 1
  | .pkg => 2
  | .tray => 3
  | .rack => 4
def Scope.ofCode : Nat → Option Scope
  | 0 => some .core
  | 1 => some .die
  | 2 => some .pkg
  | 3 => some .tray
  | 4 => some .rack
  | _ => none
def Size.code : Size → Nat
  | .b8 => 0
  | .b16 => 1
  | .b32 => 2
  | .b64 => 3
def Size.ofCode : Nat → Option Size
  | 0 => some .b8
  | 1 => some .b16
  | 2 => some .b32
  | 3 => some .b64
  | _ => none
def CvtTy.code : CvtTy → Nat
  | .f64 => 0
  | .f32 => 1
  | .f16 => 2
  | .bf16 => 3
  | .e5m2 => 4
  | .e4m3 => 5
  | .e3m4 => 6
  | .s32 => 7
  | .z32 => 8
  | .s16 => 9
  | .z16 => 10
  | .s8 => 11
  | .z8 => 12
  | .s64 => 13
  | .z64 => 14
def CvtTy.ofCode : Nat → Option CvtTy
  | 0 => some .f64
  | 1 => some .f32
  | 2 => some .f16
  | 3 => some .bf16
  | 4 => some .e5m2
  | 5 => some .e4m3
  | 6 => some .e3m4
  | 7 => some .s32
  | 8 => some .z32
  | 9 => some .s16
  | 10 => some .z16
  | 11 => some .s8
  | 12 => some .z8
  | 13 => some .s64
  | 14 => some .z64
  | _ => none
def AtomOp.code : AtomOp → Nat
  | .add => 0
  | .and => 1
  | .or => 2
  | .xor => 3
  | .min => 4
  | .max => 5
  | .minz => 6
  | .maxz => 7
  | .exch => 8
  | .fadd => 9
  | .add64 => 10
  | .exch64 => 11
def AtomOp.ofCode : Nat → Option AtomOp
  | 0 => some .add
  | 1 => some .and
  | 2 => some .or
  | 3 => some .xor
  | 4 => some .min
  | 5 => some .max
  | 6 => some .minz
  | 7 => some .maxz
  | 8 => some .exch
  | 9 => some .fadd
  | 10 => some .add64
  | 11 => some .exch64
  | _ => none
def UMode.code : UMode → Nat
  | .always => 0
  | .nz => 1
  | .z => 2
def UMode.ofCode : Nat → Option UMode
  | 0 => some .always
  | 1 => some .nz
  | 2 => some .z
  | _ => none
def LdOrd.scopeBits : LdOrd → Nat
  | .relaxed => 0
  | .acq sc => sc.code
def LdOrd.ordBits : LdOrd → Nat
  | .relaxed => 0
  | .acq _ => 1
def StOrd.scopeBits : StOrd → Nat
  | .relaxed _ => 0
  | .rel sc _ => sc.code
  | .rc n => (n - 1) % 8
def StOrd.ordBits : StOrd → Nat
  | .relaxed _ => 0
  | .rel _ _ => 2
  | .rc _ => 3
def StOrd.polBit : StOrd → Nat
  | .relaxed n => n.toNat
  | .rel _ n => n.toNat
  | .rc n => (n - 1) / 8 % 2
/-- ORD 0 or 1 of `LD` (R105, R399). -/
def LdOrd.ofBits (ord scope : Nat) : Option LdOrd :=
  match ord with
  | 0 => if scope = 0 then some .relaxed else none
  | 1 => (Scope.ofCode scope).map LdOrd.acq
  | _ => none
/-- ORD 0, 2 or 3 of `ST` (R105, R428). -/
def StOrd.ofBits (ord scope pol : Nat) : Option StOrd :=
  match ord with
  | 0 => if scope = 0 then some (.relaxed (pol == 1)) else none
  | 2 => (Scope.ofCode scope).map (StOrd.rel · (pol == 1))
  | 3 => some (.rc (scope + 8 * pol + 1))
  | _ => none

/-! ### From the fields to the instruction (R111-R123) -/

/-- What a word is: an instruction, or ILLEGAL with a cause that the issuer reaches if it is what `need` says. -/
inductive Decoded where
  | ok (i : Instr)
  | illegal (cause : IllCause) (need : Need)
  deriving DecidableEq, Repr

namespace Decoded

/-- ILLEGAL with cause ENCODING unless `c` (R123). -/
def enc (c : Bool) (r : Decoded) : Decoded := if c then r else .illegal .encoding .any
/-- ILLEGAL with cause OPERAND unless `c`. -/
def opd (n : Need) (c : Bool) (r : Decoded) : Decoded := if c then r else .illegal .operand n
/-- ILLEGAL with cause LATCH_SP unless the K bit of a switch point is 0 (R83). -/
def sp (n : Need) (k : Nat) (r : Decoded) : Decoded := if k = 0 then r else .illegal .latchSp n
/-- A lane source field (R81): a field that names no source is OPERAND, whose words R123 takes for a field with high bits set
(DEDUCED, log 92). -/
def src (c : Nat) (f : Src → Decoded) : Decoded :=
  match Src.ofCode c with
  | some a => f a
  | none => .illegal .operand .skein
/-- An enumerated field: a reserved value is ENCODING (R123). -/
def val {α : Type} (o : Option α) (f : α → Decoded) : Decoded :=
  match o with
  | some a => f a
  | none => .illegal .encoding .any

end Decoded

open Decoded

def kb (k : Nat) : Bool := k == 1

/-- Majors 0x01 and 0x02: integer binary and unary operations (R112, R113). -/
def decR01 (d k a b mn : Nat) : Decoded :=
  src a fun a => src b fun b => match mn with
    | 0 => .ok (.iadd d (kb k) a b)
    | 1 => .ok (.isub d (kb k) a b)
    | 2 => .ok (.imul d (kb k) a b)
    | 3 => .ok (.imulh d (kb k) a b)
    | 4 => .ok (.imulhZ d (kb k) a b)
    | 5 => .ok (.imin d (kb k) a b)
    | 6 => .ok (.iminZ d (kb k) a b)
    | 7 => .ok (.imax d (kb k) a b)
    | 8 => .ok (.imaxZ d (kb k) a b)
    | 9 => .ok (.land d (kb k) a b)
    | 10 => .ok (.lor d (kb k) a b)
    | 11 => .ok (.lxor d (kb k) a b)
    | 12 => .ok (.shl d (kb k) a b)
    | 13 => .ok (.shr d (kb k) a b)
    | 14 => .ok (.sar d (kb k) a b)
    | 15 => .ok (.iaddc d (kb k) a b)
    | _ => .illegal .encoding .any
def decR02 (d k a b mn : Nat) : Decoded :=
  enc (b == 0) <| src a fun a => match mn with
    | 0 => .ok (.mov d (kb k) a)
    | 1 => .ok (.lnot d (kb k) a)
    | 2 => .ok (.ineg d (kb k) a)
    | 3 => .ok (.iabs d (kb k) a)
    | 4 => .ok (.clz d (kb k) a)
    | 5 => .ok (.popc d (kb k) a)
    | 6 => .ok (.brev d (kb k) a)
    | 7 => .ok (.fabs d (kb k) a)
    | 8 => .ok (.fneg d (kb k) a)
    | 9 => .ok (.frcp d (kb k) a)
    | 10 => .ok (.frsq d (kb k) a)
    | 11 => .ok (.fsqrt d (kb k) a)
    | 12 => .ok (.fexp2 d (kb k) a)
    | 13 => .ok (.flog2 d (kb k) a)
    | 14 => .ok (.fsin d (kb k) a)
    | 15 => .ok (.fcos d (kb k) a)
    | _ => .illegal .encoding .any
/-- Majors 0x03-0x07: the rounded operations, MINOR the rounding mode (R108). -/
def decRnd (maj d k a b mn : Nat) : Decoded :=
  val (Rm.ofCode mn) fun rm => src a fun a => src b fun b => match maj with
    | 3 => .ok (.fadd d (kb k) a b rm)
    | 4 => .ok (.fsub d (kb k) a b rm)
    | 5 => .ok (.fmul d (kb k) a b rm)
    | 6 => .ok (.dadd d (kb k) a b rm)
    | 7 => .ok (.dmul d (kb k) a b rm)
    | _ => .illegal .encoding .any
/-- Majors 0x08-0x0C: format F, C in the minor's place (R103). -/
def decF (maj d k a b c : Nat) : Decoded :=
  src a fun a => src b fun b => match maj with
    | 8 => .ok (.ffma d (kb k) a b c)
    | 9 => .ok (.dfma d (kb k) a b c)
    | 10 => .ok (.hfma2 d (kb k) a b c)
    | 11 => .ok (.imad d (kb k) a b c)
    | 12 => .ok (.bfi d (kb k) a b c)
    | _ => .illegal .encoding .any
def decR0D (d k a b mn : Nat) : Decoded :=
  match mn with
  | 0 => src a fun a => src b fun b => .ok (.fmin d (kb k) a b)
  | 1 => src a fun a => src b fun b => .ok (.fmax d (kb k) a b)
  | 2 => enc (b == 0) <| src a fun a => .ok (.fclass d (kb k) a)
  | 3 => src a fun a => src b fun b => .ok (.hadd2 d (kb k) a b)
  | _ => .illegal .encoding .any
/-- Majors 0x0E and 0x0F: comparisons into a mask register (R379, R390). -/
def decCmp (maj d k a b mn : Nat) : Decoded :=
  match maj with
  | 14 => val (FCond.ofCode mn) fun c =>
      opd .skein (d < 8 && k == 0) <| src a fun a => src b fun b => .ok (.fcmp d a b c)
  | 15 => val (ICond.ofCode mn) fun c =>
      opd .skein (d < 8 && k == 0) <| src a fun a => src b fun b => .ok (.icmp d a b c)
  | _ => .illegal .encoding .any
def decSelLeaBfx (maj d k a b mn : Nat) : Decoded :=
  match maj with
  | 0x12 => enc (mn < 8) <| src a fun a => src b fun b => .ok (.sel d (kb k) a b mn)
  | 0x13 => src a fun a => src b fun b => .ok (.lea d (kb k) a b mn)
  | 0x14 => enc (mn < 2) <| src a fun a => src b fun b => .ok (.bfx d (kb k) a b (mn == 1))
  | _ => .illegal .encoding .any
/-- Major 0x16: moves between the register classes, planes and masks (R114). -/
def decR16 (d k a b mn : Nat) : Decoded :=
  match mn with
  | 0 => enc (b == 0) <| opd .skein (a < 32) <| .ok (.k2v d (kb k) a)
  | 1 => enc (b == 0) <| opd .skein (d < 32 && k == 0) <| src a fun a => .ok (.v2k d a)
  | 2 => enc (a == 0 && b == 0) <| .ok (.pget d (kb k))
  | 3 => enc (d == 0 && k == 0 && b == 0) <| src a fun a => .ok (.pset a)
  | 4 => enc (d == 0 && k == 0 && b == 0 && a < 4) <| .ok (.psetImm a)
  | 5 => enc (b == 0) <| opd .skein (d < 8 && k == 0 && a < 8) <| .ok (.mmovMM d a)
  | 6 => enc (b == 0) <| opd .skein (d < 8 && k == 0) <| src a fun a => .ok (.mmovMV d a)
  | 7 => enc (b == 0) <| opd .skein (a < 8) <| .ok (.mmovVM d (kb k) a)
  | 8 => enc (b == 0) <| opd .skein (d < 8 && k == 0 && a < 32) <| .ok (.mmovMK d a)
  | 9 => enc (b == 0) <| opd .skein (d < 32 && k == 0 && a < 8) <| .ok (.mmovKM d a)
  | 10 => opd .skein (d < 8 && k == 0 && a < 8 && b < 8) <| .ok (.mlogAnd d a b)
  | 11 => opd .skein (d < 8 && k == 0 && a < 8 && b < 8) <| .ok (.mlogOr d a b)
  | 12 => opd .skein (d < 8 && k == 0 && a < 8 && b < 8) <| .ok (.mlogXor d a b)
  | 13 => opd .skein (d < 8 && k == 0 && a < 8 && b < 8) <| .ok (.mlogAndn d a b)
  | _ => .illegal .encoding .any
/-- Major 0x17: cross-lane and quad instructions (R115). -/
def decR17 (d k a b mn : Nat) : Decoded :=
  match mn with
  | 0 => src a fun a => src b fun b => .ok (.shfl d (kb k) a b 0)
  | 1 => src a fun a => src b fun b => .ok (.shfl d (kb k) a b 1)
  | 2 => src a fun a => src b fun b => .ok (.shfl d (kb k) a b 2)
  | 3 => src a fun a => src b fun b => .ok (.shfl d (kb k) a b 3)
  | 4 => enc (b == 0) <| opd .skein (d < 8 && k == 0 && a < 8) <| .ok (.voteAny d a)
  | 5 => enc (b == 0) <| opd .skein (d < 8 && k == 0 && a < 8) <| .ok (.voteAll d a)
  | 6 => enc (b == 0) <| opd .skein (d < 32 && k == 0 && a < 8) <| .ok (.voteBallot d a)
  | 7 => enc (b == 0) <| opd .skein (d < 32 && k == 0) <| src a fun a => .ok (.rdxAdd d a)
  | 8 => enc (b == 0) <| opd .skein (d < 32 && k == 0) <| src a fun a => .ok (.rdxMin d a)
  | 9 => enc (b == 0) <| opd .skein (d < 32 && k == 0) <| src a fun a => .ok (.rdxMax d a)
  | 10 => enc (b == 0) <| opd .skein (d < 32 && k == 0) <| src a fun a => .ok (.rdxFadd d a)
  | 11 => enc (b < 4) <| src a fun a => .ok (.qbcast d (kb k) a b)
  | 12 => enc (b < 4) <| src a fun a => .ok (.qswap d (kb k) a b)
  | 13 => enc (b == 0) <| src a fun a => .ok (.qfill d (kb k) a)
  | _ => .illegal .encoding .any
/-- Majors 0x1A and 0x1B: uniform instructions (R117, R395, R396). -/
def decUniform (maj d k a b mn : Nat) : Decoded :=
  let chk := opd .any (d < 32 && a < 32 && b < 32 && k == 0)
  match maj with
  | 0x1A => match mn with
    | 0 => chk <| .ok (.kadd d a b)
    | 1 => chk <| .ok (.ksub d a b)
    | 2 => chk <| .ok (.kmul d a b)
    | 3 => chk <| .ok (.kshf d a b)
    | 4 => enc (b == 0) <| chk <| .ok (.kmov d a)
    | 5 => chk <| .ok (.klogAnd d a b)
    | 6 => chk <| .ok (.klogOr d a b)
    | 7 => chk <| .ok (.klogXor d a b)
    | 8 => chk <| .ok (.klogAndn d a b)
    | _ => .illegal .encoding .any
  | 0x1B => val (ICond.ofCode mn) fun c => chk <| .ok (.kcmp d a b c)
  | _ => .illegal .encoding .any
/-- Major 0x2D: `WAITCMP` (R261, R434). -/
def decWaitcmp (d k a b mn : Nat) : Decoded :=
  val (ICond.ofCode mn) fun c => val (Scope.ofCode d) fun sc =>
    opd .any (a < 32 && b < 32) <| sp .any k <| .ok (.waitcmp c sc a b)
/-- Major 0x2E: queues, rings and waits (R120). -/
def decR2E (d k a b mn : Nat) : Decoded :=
  match mn with
  | 0 => enc (b == 0) <| opd .coach (d < 32 && a < 32) <| sp .coach k <| .ok (.dqpush d a)
  | 1 => enc (a == 0 && b == 0) <| opd .skein (d < 32) <| sp .skein k <| .ok (.dqpop d)
  | 2 => enc (b == 0) <| opd .any (d < 32 && a < 32) <| sp .any k <| .ok (.tqpush d a)
  | 3 => enc (b == 0) <| opd .any (d < 32 && a < 32 && (k == 0 || d % 4 == 0)) <| sp .skein k <| .ok (.tqpop d a)
  | 4 => val (Scope.ofCode b) fun sc => opd .any (d < 32 && a < 32) <| sp .any k <| .ok (.srput d a sc)
  | 5 => enc (b == 0) <| opd .any (d < 32 && a < 32) <| sp .any k <| .ok (.srwait d a)
  | 6 => enc (b == 0) <| opd .any (d < 32 && a < 32) <| sp .any k <| .ok (.cwait d a)
  | 7 => enc (a == 0 && b == 0) <| opd .any (d < 32) <| sp .any k <| .ok (.boarr d)
  | 8 => enc (a == 0 && b == 0) <| opd .skein (d < 32) <| sp .skein k <| .ok (.bowait d)
  | _ => .illegal .encoding .any
/-- Major 0x2F: engine and resource instructions (R121). -/
def decR2F (d k a b mn : Nat) : Decoded :=
  match mn with
  | 0 => opd .copy (d < 32 && a < 32 && b < 32) <| sp .copy k <| .ok (.dcopy d a b)
  | 1 => enc (d < 16 && b == 0) <| opd .matrix (a < 32) <| sp .matrix k <| .ok (.accz d a)
  | 2 => enc (d < 16 && a == 0 && b == 0) <| sp .any k <| .ok (.accswap d)
  | 3 => enc (a < 16) <| src b fun w => .ok (.accrd d (Sys2Proof.kb k) a w)
  | 4 => enc (d < 16 && k == 0) <| src a fun w => src b fun v => .ok (.accwr d w v)
  | 5 => enc (d < 8 && k == 0 && b == 0) <| opd .any (a < 32) <| .ok (.atab d a)
  | 6 => enc (d < 8 && k == 0 && a == 0 && b == 0) <| .ok (.atabDefault d)
  | 7 => enc (a == 0 && b == 0) <| sp .single k <| .ok (.growRegs d)
  | 8 => enc (a == 0 && b == 0) <| sp .any k <| .ok (.growTiles d)
  | 9 => enc (a == 0 && b == 0) <| sp .single k <| .ok (.shrinkRegs d)
  | 10 => enc (a == 0 && b == 0) <| sp .any k <| .ok (.shrinkTiles d)
  | 11 => enc (d < 3 && a == 0 && b == 0) <| sp .converged k <| .ok (.rswitch d)
  | _ => .illegal .encoding .any
/-- Major 0x31: control and fences (R122, R204, R292). -/
def decR31 (d k a b mn : Nat) : Decoded :=
  let z (n : Need) (i : Instr) : Decoded := enc (d == 0 && a == 0 && b == 0) <| sp n k <| .ok i
  let f (mk : Scope → Instr) : Decoded :=
    enc (a == 0 && b == 0) <| val (Scope.ofCode d) fun sc => sp .any k <| .ok (mk sc)
  match mn with
  | 0 => enc (d == 0 && k == 0 && a == 0 && b == 0) <| .ok .nop
  | 1 => z .single .ret
  | 2 => z .any .exit
  | 3 => z .any .isync
  | 4 => f .fence
  | 5 => z .any .ofence
  | 6 => f .tfence
  | 7 => f .icinv
  | 8 => z .any .bkpt
  | 9 => z .handler .tret
  | 10 => enc (d == 0) <| sp .any k <| .ok (.trap (a + 128 * b))
  | 11 => enc (d < 16 && a == 0 && b == 0) <| sp .converged k <| .ok (.bar d)
  | 12 => enc (d == 0 && k == 0 && b == 0) <| opd .any (a < 32) <| .ok (.jmpi a)
  | _ => .illegal .encoding .any
def decR (maj d k a b mn : Nat) : Decoded :=
  match maj with
  | 0x01 => decR01 d k a b mn
  | 0x02 => decR02 d k a b mn
  | 0x03 | 0x04 | 0x05 | 0x06 | 0x07 => decRnd maj d k a b mn
  | 0x08 | 0x09 | 0x0A | 0x0B | 0x0C => decF maj d k a b mn
  | 0x0D => decR0D d k a b mn
  | 0x0E | 0x0F => decCmp maj d k a b mn
  | 0x12 | 0x13 | 0x14 => decSelLeaBfx maj d k a b mn
  | 0x16 => decR16 d k a b mn
  | 0x17 => decR17 d k a b mn
  | 0x1A | 0x1B => decUniform maj d k a b mn
  | 0x2D => decWaitcmp d k a b mn
  | 0x2E => decR2E d k a b mn
  | 0x2F => decR2F d k a b mn
  | 0x31 => decR31 d k a b mn
  | _ => .illegal .encoding .any
def decW (maj d k h imm : Nat) : Decoded :=
  match maj with
  | 0x15 => match h with
    | 0 => .ok (.movi d (kb k) imm)
    | 1 => .ok (.movh d (kb k) imm)
    | _ => .illegal .encoding .any
  | 0x1C => opd .any (d < 32 && k == 0) <| .ok (.kmovi d h imm)
  | _ => .illegal .encoding .any
def decCV (maj d k a dt st rm : Nat) : Decoded :=
  val (CvtTy.ofCode dt) fun dt => val (CvtTy.ofCode st) fun st => val (Rm.ofCode rm) fun rm =>
    enc (dt != st || (Src.ofCode a).isSome) <| src a fun a => match maj with
    | 0x10 => .ok (.cvt d (kb k) a dt st rm)
    | 0x11 => .ok (.cvtSat d (kb k) a dt st rm)
    | _ => .illegal .encoding .any
/-- A B field of `ACONJ` or `ANORM` is tested after the alignment that the slot's table sets (R353). -/
def decAL (d a b slot mn : Nat) : Decoded :=
  match mn with
  | 0 => .ok (.amul d a b slot)
  | 1 => .ok (.amad d a b slot)
  | 2 => if b = 0 then .ok (.aconj d a slot) else .illegal .encoding (.aligned slot [a, d])
  | 3 => if b = 0 then .ok (.anorm d a slot) else .illegal .encoding (.aligned slot [a])
  | _ => .illegal .encoding .any
def decS (reg kind num mn : Nat) : Decoded :=
  enc (num < 24 && mn < 2) <| opd .any (kind == 0 || reg < 32) <|
    match mn with
    | 0 => .ok (.sread reg (kb kind) num)
    | _ => .ok (.swrite reg (kb kind) num)
/-- The uniform fields of `KLD` and `KST` are ENCODING by the entry (R397), where R123's table reads OPERAND (DEDUCED, log 92). -/
def decMI (maj data bk base sz pol off8 : Nat) : Decoded :=
  val (Size.ofCode sz) fun z => match maj with
    | 0x20 => opd .skein (bk == 0 || base < 32) <| .ok (.ld data (kb bk) base z pol off8)
    | 0x22 => opd .skein (bk == 0 || base < 32) <| .ok (.st data (kb bk) base z pol off8)
    | 0x24 => enc (pol == 0) <| .ok (.ldsp data (kb bk) base z off8)
    | 0x25 => enc (pol == 0) <| .ok (.stsp data (kb bk) base z off8)
    | 0x26 => enc (bk == 1 && data < 32 && base < 32) <| .ok (.kld data base z pol off8)
    | 0x27 => enc (bk == 1 && data < 32 && base < 32) <| .ok (.kst data base z pol off8)
    | _ => .illegal .encoding .any
def decMS (maj data kb vx sz scope ord pol : Nat) : Decoded :=
  val (Size.ofCode sz) fun z => match maj with
    | 0x21 => val (LdOrd.ofBits ord scope) fun o => .ok (.ldMs data kb vx z o (Sys2Proof.kb pol))
    | 0x23 => val (StOrd.ofBits ord scope pol) fun o => .ok (.stMs data kb vx z o)
    | _ => .illegal .encoding .any
/-- An odd VX is ENCODING by the entry (R416), where R123's table reads OPERAND (DEDUCED, log 92). -/
def decPF (cnt kb vx tier bo bound : Nat) : Decoded :=
  enc (tier < 2 && (bound == 1 || bo == 0) && (kb != 0 || vx % 2 == 0)) <|
    .ok (.pref cnt kb vx tier bo (Sys2Proof.kb bound))
def decAT (maj d addr data sc op : Nat) : Decoded :=
  val (Scope.ofCode sc) fun sc => match maj with
    | 0x28 => val (AtomOp.ofCode op) fun o => .ok (.atom d addr data sc o)
    | 0x29 => .ok (.cas d addr data sc (op % 8) (kb (op / 8)))
    | 0x2A => val (AtomOp.ofCode op) fun o => enc (o.redOk && d < 2) <| .ok (.red (kb d) addr data sc o)
    | _ => .illegal .encoding .any
def decSW (d a b sm mn : Nat) : Decoded :=
  match mn with
  | 0 => enc (b == 0) <| .ok (.wput d a sm)
  | 1 => enc (sm == 0) <| .ok (.wget d a b)
  | 2 => enc (b == 0) <| .ok (.wname d a sm)
  | 3 => enc (d == 0 && b == 0 && sm == 0) <| .ok (.wrefInc a)
  | 4 => enc (d == 0 && b == 0 && sm == 0) <| .ok (.wrefDec a)
  | 5 => .ok (.wswap d a b sm)
  | 6 => enc (d == 0 && sm == 0) <| .ok (.wcopy a b)
  | _ => .illegal .encoding .any
def decJ (jn sub imm : Nat) : Decoded :=
  match sub with
  | 0 => .ok (.jinit jn imm)
  | 1 => enc (imm < 8) <| .ok (.jinitMask jn imm)
  | 2 => enc (imm == 0) <| .ok (.jarr jn)
  | 3 => enc (imm == 0) <| .ok (.jwait jn)
  | _ => .illegal .encoding .any
/-- The sixteen-bit operations (R99, R100). -/
def decH (op d s : Nat) : Decoded :=
  match op with
  | 8 => .ok (.movi16 d s)
  | 0 => enc (!(d == 0 && s == 0)) <| val (Src.ofCode16 s) fun s => .ok (.iadd16 d s)
  | 1 => val (Src.ofCode16 s) fun s => .ok (.isub16 d s)
  | 2 => val (Src.ofCode16 s) fun s => .ok (.and16 d s)
  | 3 => val (Src.ofCode16 s) fun s => .ok (.or16 d s)
  | 4 => val (Src.ofCode16 s) fun s => .ok (.xor16 d s)
  | 5 => val (Src.ofCode16 s) fun s => .ok (.shl16 d s)
  | 6 => val (Src.ofCode16 s) fun s => .ok (.shr16 d s)
  | 7 => if d = 0 ∧ s = 31 then .ok .nop16 else val (Src.ofCode16 s) fun s => .ok (.mov16 d s)
  | 9 => val (Src.ofCode16 s) fun s => .ok (.fadd16 d s)
  | 10 => val (Src.ofCode16 s) fun s => .ok (.fsub16 d s)
  | 11 => val (Src.ofCode16 s) fun s => .ok (.fmul16 d s)
  | 12 => val (Src.ofCode16 s) fun s => .ok (.ffma16 d s)
  | 13 => val (Src.ofCode16 s) fun s => .ok (.imad16 d s)
  | 14 => val (Src.ofCode16 s) fun s => .ok (.sel16 d s)
  | 15 => val (Src.ofCode16 s) fun s => .ok (.lea16 d s)
  | _ => .illegal .encoding .any

/-- The instruction a cut word stands for. -/
def decForm : Form → Decoded
  | .fr maj d k a b mn => decR maj d k a b mn
  | .fw maj d k h imm => decW maj d k h imm
  | .fcv maj d k a dt st rm => decCV maj d k a dt st rm
  | .fal d a b slot mn => decAL d a b slot mn
  | .fs reg kind num mn => decS reg kind num mn
  | .fmi maj data bk base sz pol off8 => decMI maj data bk base sz pol off8
  | .fms maj data kb vx sz scope ord pol => decMS maj data kb vx sz scope ord pol
  | .fpf cnt kb vx tier bo bound => decPF cnt kb vx tier bo bound
  | .fat maj d addr data sc op => decAT maj d addr data sc op
  | .fsw d a b sm mn => decSW d a b sm mn
  | .fmx kab span tile slot fl kc => .ok (.mma kab (kb span) tile slot fl kc)
  | .fj jn sub imm => decJ jn sub imm
  | .fbr cm neg disp => .ok (.bra cm (kb neg) disp)
  | .fbs cm neg tdisp rdist => .ok (.braRj cm (kb neg) tdisp rdist)
  | .fbu kc mode disp => val (UMode.ofCode mode) fun m => enc (m != .always || kc == 0) <| .ok (.brau kc m disp)
  | .fcl n8 disp => .ok (.call n8 disp)
  | .fyl kct kth cnt disp =>
    enc (cnt == 1 || (kct == 0 && kth == 0)) <| .ok (.yield kct kth (kb cnt) disp)
  | .fh op d s => decH op d s
  | .bad => .illegal .encoding .any

/-- The form of a word whose bit 0 gives its length (R96). -/
def formOf (w : Nat) : Form := if w % 2 = 0 then formH (w % 65536) else form32 (w % 4294967296)
/-- A word decoded. -/
def decodeWord (w : Nat) : Decoded := decForm (formOf w)
/-- The length in bytes of the instruction whose first halfword is `lo` (R96). -/
def lengthOf (lo : Nat) : Nat := if lo % 2 = 0 then 2 else 4

/-- Decoding halfwords: the instruction and the halfwords after it. With fewer halfwords than bit 0 of the first
asks for, the missing one reads as none: ENCODING. -/
def decodeHalves : List (BitVec 16) → Decoded × List (BitVec 16)
  | [] => (.illegal .encoding .any, [])
  | lo :: rest =>
    if lo.toNat % 2 = 0 then (decodeWord lo.toNat, rest)
    else match rest with
      | [] => (.illegal .encoding .any, [])
      | hi :: rest' => (decodeWord (lo.toNat + 65536 * hi.toNat), rest')

def Decoded.toOption : Decoded → Option Instr
  | .ok i => some i
  | .illegal _ _ => none

/-- The halfwords of an `nbits` wide word, the least significant first, with a zero halfword after it. -/
def tableHalves (w : Nat) : List (BitVec 16) := [BitVec.ofNat 16 w, BitVec.ofNat 16 (w / 65536)]

/-- The instruction the decoder reads from an instruction whose bits are `w`, numbered as spec/opcode_table.json numbers
them: the halfword at the lower offset holds bits 15..0 (R96). An event row has no bits and no word. -/
def decodeTableWord (nbits w : Nat) : Option Instr :=
  if nbits = 0 then none else (decodeHalves (tableHalves (w % 2 ^ nbits))).1.toOption

/-! ### The encoder -/

/-- The form of an instruction; an event has no word. -/
def encodeForm : Instr → Option Form
  | .iadd d k a b => some (.fr 1 d (k.toNat) (a.code) (b.code) 0)
  | .isub d k a b => some (.fr 1 d (k.toNat) (a.code) (b.code) 1)
  | .imul d k a b => some (.fr 1 d (k.toNat) (a.code) (b.code) 2)
  | .imulh d k a b => some (.fr 1 d (k.toNat) (a.code) (b.code) 3)
  | .imulhZ d k a b => some (.fr 1 d (k.toNat) (a.code) (b.code) 4)
  | .imin d k a b => some (.fr 1 d (k.toNat) (a.code) (b.code) 5)
  | .iminZ d k a b => some (.fr 1 d (k.toNat) (a.code) (b.code) 6)
  | .imax d k a b => some (.fr 1 d (k.toNat) (a.code) (b.code) 7)
  | .imaxZ d k a b => some (.fr 1 d (k.toNat) (a.code) (b.code) 8)
  | .land d k a b => some (.fr 1 d (k.toNat) (a.code) (b.code) 9)
  | .lor d k a b => some (.fr 1 d (k.toNat) (a.code) (b.code) 10)
  | .lxor d k a b => some (.fr 1 d (k.toNat) (a.code) (b.code) 11)
  | .shl d k a b => some (.fr 1 d (k.toNat) (a.code) (b.code) 12)
  | .shr d k a b => some (.fr 1 d (k.toNat) (a.code) (b.code) 13)
  | .sar d k a b => some (.fr 1 d (k.toNat) (a.code) (b.code) 14)
  | .iaddc d k a b => some (.fr 1 d (k.toNat) (a.code) (b.code) 15)
  | .mov d k a => some (.fr 2 d (k.toNat) (a.code) 0 0)
  | .lnot d k a => some (.fr 2 d (k.toNat) (a.code) 0 1)
  | .ineg d k a => some (.fr 2 d (k.toNat) (a.code) 0 2)
  | .iabs d k a => some (.fr 2 d (k.toNat) (a.code) 0 3)
  | .clz d k a => some (.fr 2 d (k.toNat) (a.code) 0 4)
  | .popc d k a => some (.fr 2 d (k.toNat) (a.code) 0 5)
  | .brev d k a => some (.fr 2 d (k.toNat) (a.code) 0 6)
  | .fabs d k a => some (.fr 2 d (k.toNat) (a.code) 0 7)
  | .fneg d k a => some (.fr 2 d (k.toNat) (a.code) 0 8)
  | .frcp d k a => some (.fr 2 d (k.toNat) (a.code) 0 9)
  | .frsq d k a => some (.fr 2 d (k.toNat) (a.code) 0 10)
  | .fsqrt d k a => some (.fr 2 d (k.toNat) (a.code) 0 11)
  | .fexp2 d k a => some (.fr 2 d (k.toNat) (a.code) 0 12)
  | .flog2 d k a => some (.fr 2 d (k.toNat) (a.code) 0 13)
  | .fsin d k a => some (.fr 2 d (k.toNat) (a.code) 0 14)
  | .fcos d k a => some (.fr 2 d (k.toNat) (a.code) 0 15)
  | .fadd d k a b rm => some (.fr 3 d (k.toNat) (a.code) (b.code) (rm.code))
  | .fsub d k a b rm => some (.fr 4 d (k.toNat) (a.code) (b.code) (rm.code))
  | .fmul d k a b rm => some (.fr 5 d (k.toNat) (a.code) (b.code) (rm.code))
  | .dadd d k a b rm => some (.fr 6 d (k.toNat) (a.code) (b.code) (rm.code))
  | .dmul d k a b rm => some (.fr 7 d (k.toNat) (a.code) (b.code) (rm.code))
  | .ffma d k a b c => some (.fr 8 d (k.toNat) (a.code) (b.code) c)
  | .dfma d k a b c => some (.fr 9 d (k.toNat) (a.code) (b.code) c)
  | .hfma2 d k a b c => some (.fr 10 d (k.toNat) (a.code) (b.code) c)
  | .imad d k a b c => some (.fr 11 d (k.toNat) (a.code) (b.code) c)
  | .bfi d k a b c => some (.fr 12 d (k.toNat) (a.code) (b.code) c)
  | .fmin d k a b => some (.fr 13 d (k.toNat) (a.code) (b.code) 0)
  | .fmax d k a b => some (.fr 13 d (k.toNat) (a.code) (b.code) 1)
  | .fclass d k a => some (.fr 13 d (k.toNat) (a.code) 0 2)
  | .hadd2 d k a b => some (.fr 13 d (k.toNat) (a.code) (b.code) 3)
  | .fcmp d a b cond => some (.fr 14 d 0 (a.code) (b.code) (cond.code))
  | .icmp d a b cond => some (.fr 15 d 0 (a.code) (b.code) (cond.code))
  | .cvt d k a dt st rm => some (.fcv 16 d (k.toNat) (a.code) (dt.code) (st.code) (rm.code))
  | .cvtSat d k a dt st rm => some (.fcv 17 d (k.toNat) (a.code) (dt.code) (st.code) (rm.code))
  | .sel d k a b c => some (.fr 18 d (k.toNat) (a.code) (b.code) c)
  | .lea d k a b sh => some (.fr 19 d (k.toNat) (a.code) (b.code) sh)
  | .bfx d k a b sx => some (.fr 20 d (k.toNat) (a.code) (b.code) (sx.toNat))
  | .movi d k imm => some (.fw 21 d (k.toNat) 0 imm)
  | .movh d k imm => some (.fw 21 d (k.toNat) 1 imm)
  | .k2v d k ka => some (.fr 22 d (k.toNat) ka 0 0)
  | .v2k kd a => some (.fr 22 kd 0 (a.code) 0 1)
  | .pget d k => some (.fr 22 d (k.toNat) 0 0 2)
  | .pset a => some (.fr 22 0 0 (a.code) 0 3)
  | .psetImm n => some (.fr 22 0 0 n 0 4)
  | .mmovMM md ma => some (.fr 22 md 0 ma 0 5)
  | .mmovMV md a => some (.fr 22 md 0 (a.code) 0 6)
  | .mmovVM d k ma => some (.fr 22 d (k.toNat) ma 0 7)
  | .mmovMK md ka => some (.fr 22 md 0 ka 0 8)
  | .mmovKM kd ma => some (.fr 22 kd 0 ma 0 9)
  | .mlogAnd md ma mb => some (.fr 22 md 0 ma mb 10)
  | .mlogOr md ma mb => some (.fr 22 md 0 ma mb 11)
  | .mlogXor md ma mb => some (.fr 22 md 0 ma mb 12)
  | .mlogAndn md ma mb => some (.fr 22 md 0 ma mb 13)
  | .shfl d k a b mode => some (.fr 23 d (k.toNat) (a.code) (b.code) mode)
  | .voteAny md ma => some (.fr 23 md 0 ma 0 4)
  | .voteAll md ma => some (.fr 23 md 0 ma 0 5)
  | .voteBallot kd ma => some (.fr 23 kd 0 ma 0 6)
  | .rdxAdd kd a => some (.fr 23 kd 0 (a.code) 0 7)
  | .rdxMin kd a => some (.fr 23 kd 0 (a.code) 0 8)
  | .rdxMax kd a => some (.fr 23 kd 0 (a.code) 0 9)
  | .rdxFadd kd a => some (.fr 23 kd 0 (a.code) 0 10)
  | .qbcast d k a n => some (.fr 23 d (k.toNat) (a.code) n 11)
  | .qswap d k a n => some (.fr 23 d (k.toNat) (a.code) n 12)
  | .qfill d k a => some (.fr 23 d (k.toNat) (a.code) 0 13)
  | .amul d a b slot => some (.fal d a b slot 0)
  | .amad d a b slot => some (.fal d a b slot 1)
  | .aconj d a slot => some (.fal d a 0 slot 2)
  | .anorm d a slot => some (.fal d a 0 slot 3)
  | .sread reg toK num => some (.fs reg (toK.toNat) num 0)
  | .swrite reg fromK num => some (.fs reg (fromK.toNat) num 1)
  | .kadd kd ka kb => some (.fr 26 kd 0 ka kb 0)
  | .ksub kd ka kb => some (.fr 26 kd 0 ka kb 1)
  | .kmul kd ka kb => some (.fr 26 kd 0 ka kb 2)
  | .kshf kd ka kb => some (.fr 26 kd 0 ka kb 3)
  | .kmov kd ka => some (.fr 26 kd 0 ka 0 4)
  | .klogAnd kd ka kb => some (.fr 26 kd 0 ka kb 5)
  | .klogOr kd ka kb => some (.fr 26 kd 0 ka kb 6)
  | .klogXor kd ka kb => some (.fr 26 kd 0 ka kb 7)
  | .klogAndn kd ka kb => some (.fr 26 kd 0 ka kb 8)
  | .kcmp kd ka kb cond => some (.fr 27 kd 0 ka kb (cond.code))
  | .kmovi kd h imm => some (.fw 28 kd 0 h imm)
  | .ld data bk base sz pol off8 => some (.fmi 32 data (bk.toNat) base (sz.code) pol off8)
  | .ldMs data kb vx sz acq nol1 => some (.fms 33 data kb vx (sz.code) (acq.scopeBits) (acq.ordBits) (nol1.toNat))
  | .st data bk base sz pol off8 => some (.fmi 34 data (bk.toNat) base (sz.code) pol off8)
  | .stMs data kb vx sz ord => some (.fms 35 data kb vx (sz.code) (ord.scopeBits) (ord.ordBits) (ord.polBit))
  | .ldsp data partner base sz off8 => some (.fmi 36 data (partner.toNat) base (sz.code) 0 off8)
  | .stsp data partner base sz off8 => some (.fmi 37 data (partner.toNat) base (sz.code) 0 off8)
  | .kld kd kb sz pol off8 => some (.fmi 38 kd 1 kb (sz.code) pol off8)
  | .kst ks kb sz pol off8 => some (.fmi 39 ks 1 kb (sz.code) pol off8)
  | .atom d addr data sc op => some (.fat 40 d addr data (sc.code) (op.code))
  | .cas d addr data sc f w64 => some (.fat 41 d addr data (sc.code) (f + 8 * w64.toNat))
  | .red det addr data sc op => some (.fat 42 (det.toNat) addr data (sc.code) (op.code))
  | .pref cnt kb vx tier bo bound => some (.fpf cnt kb vx tier bo (bound.toNat))
  | .wput d a sm => some (.fsw d a 0 sm 0)
  | .wget d a b => some (.fsw d a b 0 1)
  | .wname d a sm => some (.fsw d a 0 sm 2)
  | .wrefInc a => some (.fsw 0 a 0 0 3)
  | .wrefDec a => some (.fsw 0 a 0 0 4)
  | .wswap d a b sm => some (.fsw d a b sm 5)
  | .wcopy a b => some (.fsw 0 a b 0 6)
  | .waitcmp cond sc ka kb => some (.fr 45 (sc.code) 0 ka kb (cond.code))
  | .dqpush kv km => some (.fr 46 kv 0 km 0 0)
  | .dqpop kd => some (.fr 46 kd 0 0 0 1)
  | .tqpush kq ke => some (.fr 46 kq 0 ke 0 2)
  | .tqpop kd kq => some (.fr 46 kd 0 kq 0 3)
  | .srput kr ks sc => some (.fr 46 kr 0 ks (sc.code) 4)
  | .srwait kr ks => some (.fr 46 kr 0 ks 0 5)
  | .cwait kc kt => some (.fr 46 kc 0 kt 0 6)
  | .boarr kb => some (.fr 46 kb 0 0 0 7)
  | .bowait kb => some (.fr 46 kb 0 0 0 8)
  | .dcopy kc ks kx => some (.fr 47 kc 0 ks kx 0)
  | .accz t kc => some (.fr 47 t 0 kc 0 1)
  | .accswap t => some (.fr 47 t 0 0 0 2)
  | .accrd d k t w => some (.fr 47 d (k.toNat) t (w.code) 3)
  | .accwr t w a => some (.fr 47 t 0 (w.code) (a.code) 4)
  | .atab slot ka => some (.fr 47 slot 0 ka 0 5)
  | .atabDefault slot => some (.fr 47 slot 0 0 0 6)
  | .growRegs n => some (.fr 47 n 0 0 0 7)
  | .growTiles n => some (.fr 47 n 0 0 0 8)
  | .shrinkRegs n => some (.fr 47 n 0 0 0 9)
  | .shrinkTiles n => some (.fr 47 n 0 0 0 10)
  | .rswitch role => some (.fr 47 role 0 0 0 11)
  | .mma kab span tile slot fl kc => some (.fmx kab (span.toNat) tile slot fl kc)
  | .nop => some (.fr 49 0 0 0 0 0)
  | .ret => some (.fr 49 0 0 0 0 1)
  | .exit => some (.fr 49 0 0 0 0 2)
  | .isync => some (.fr 49 0 0 0 0 3)
  | .fence sc => some (.fr 49 (sc.code) 0 0 0 4)
  | .ofence => some (.fr 49 0 0 0 0 5)
  | .tfence sc => some (.fr 49 (sc.code) 0 0 0 6)
  | .icinv sc => some (.fr 49 (sc.code) 0 0 0 7)
  | .bkpt => some (.fr 49 0 0 0 0 8)
  | .tret => some (.fr 49 0 0 0 0 9)
  | .trap n => some (.fr 49 0 0 (n % 128) (n / 128) 10)
  | .bar n => some (.fr 49 n 0 0 0 11)
  | .jmpi ka => some (.fr 49 0 0 ka 0 12)
  | .jinit jn imm => some (.fj jn 0 imm)
  | .jinitMask jn c => some (.fj jn 1 c)
  | .jarr jn => some (.fj jn 2 0)
  | .jwait jn => some (.fj jn 3 0)
  | .bra cm neg disp => some (.fbr cm (neg.toNat) disp)
  | .braRj cm neg disp rdist => some (.fbs cm (neg.toNat) disp rdist)
  | .brau kc mode disp => some (.fbu kc (mode.code) disp)
  | .call n8 disp => some (.fcl n8 disp)
  | .yield kct kth cnt disp => some (.fyl kct kth (cnt.toNat) disp)
  | .iadd16 d s => some (.fh 0 d (s.code16))
  | .isub16 d s => some (.fh 1 d (s.code16))
  | .and16 d s => some (.fh 2 d (s.code16))
  | .or16 d s => some (.fh 3 d (s.code16))
  | .xor16 d s => some (.fh 4 d (s.code16))
  | .shl16 d s => some (.fh 5 d (s.code16))
  | .shr16 d s => some (.fh 6 d (s.code16))
  | .mov16 d s => some (.fh 7 d (s.code16))
  | .movi16 d imm => some (.fh 8 d imm)
  | .fadd16 d s => some (.fh 9 d (s.code16))
  | .fsub16 d s => some (.fh 10 d (s.code16))
  | .fmul16 d s => some (.fh 11 d (s.code16))
  | .ffma16 d s => some (.fh 12 d (s.code16))
  | .imad16 d s => some (.fh 13 d (s.code16))
  | .sel16 d s => some (.fh 14 d (s.code16))
  | .lea16 d s => some (.fh 15 d (s.code16))
  | .nop16 => some (.fh 7 0 31)
  | _ => none

/-- The halfwords of an instruction, the one at the lower offset first (R96). -/
def encode (i : Instr) : List (BitVec 16) :=
  match encodeForm i with
  | none => []
  | some f => if f.bits = 16 then [BitVec.ofNat 16 f.word] else [BitVec.ofNat 16 f.word, BitVec.ofNat 16 (f.word / 65536)]

end Sys2Proof
end

