-- ==== Sys2Proof/Machine/Fetch.lean ====
section
/-! DEFINITION. The passing of time, the code region of a launch, instruction caches, loop buffers and fetching a word (02 R51, R52,
R73; 06 R167, R168; 08 R213). -/

namespace Sys2Proof.Machine

/-- Nanoseconds by which a slewed correction moves `%time` over `n` clocks: at most 200 ppm, one in 3,000 clocks (R323). -/
def slewBy (c : Clock) (n : Nat) : Nat := min ((c.clk + n) / 3000 - c.clk / 3000) c.slew.natAbs
/-- The clock moves on by `n` core clocks of 5/3 ns (R11, R88). -/
def State.tick (s : State) (n : Nat) : State :=
  let t := s.time.third + 5 * n
  let a := slewBy s.time n
  let ns := if s.time.slew < 0 then s.time.ns + t / 3 - a else s.time.ns + t / 3 + a
  let left := if s.time.slew < 0 then s.time.slew + a else s.time.slew - a
  { s with time := { ns := ns, third := t % 3, clk := s.time.clk + n, slew := left } }

/-- The code descriptor of a launch (R51, R246). -/
structure Code where
  base : Nat
  stride : Nat
  len : Nat
  n : Nat
  deriving DecidableEq, Repr

def Launch.code (l : Launch) : Code :=
  { base := natAt l.packet 8 8, stride := natAt l.packet 16 4, len := natAt l.packet 20 4, n := natAt l.packet 24 1 }
def Code.none : Code := { base := 0, stride := 0, len := 0, n := 1 }

/-- A fetch that failed: the condition and the address. -/
abbrev FetchFail := Fail × Nat

namespace State

def codeOf (s : State) (lid : Nat) : Code := (s.launch? lid).elim Code.none Launch.code

/-! ### The instruction cache (R73, R173, R213): filled from the home, past the RDC -/

/-- A line of code of a context as core `g` fetches it, with its poisoned bytes. 64 KiB hold 512 lines. -/
def fetchLine (s : State) (g c va : Nat) : State × Except Fail (LineW × ByteMask) :=
  match lineIn (s.core g).icache c va with
  | some l =>
    let q := s.sureLine c va l.data
    (q.1, .ok (q.2, l.bad))
  | none =>
    let r := (s.passSwitch { ctx := c, core := some g, pkg := pkgOf g, bid := none, ix := 255, off := 0 } va).request c (lineVa va) .fetch
    match r.2 with
    | .error f => (r.1, .error f)
    | .ok h =>
      let v := r.1.homeLine h
      let p := policy (leafCache h.entry) 0
      let t := ((r.1.takeFree 128).countHome h c 4).touchL2 (h.addr / 128) p
      if p = 3 || v.2 != 0 then (t, .ok v)
      else
        let l := cacheLine h c va v.1 0
        (t.modCore g fun x => { x with icache := (if x.icache.length < 512 then x.icache else x.icache.drop 1) ++ [l] }, .ok v)
/-- Bytes of code that lie in one line. -/
def fetchBytes (s : State) (g c va n : Nat) : State × Except FetchFail Nat :=
  if noncanon va then (s, .error ((.protection, .noncanon), va))
  else if !s.mapOk c va then (s, .error ((.protection, .nohome), va))
  else
    let r := s.fetchLine g c va
    match r.2 with
    | .error f => (r.1, .error (f, va))
    | .ok v =>
      if v.2 &&& byteRange (va % 128) n != 0 then (r.1, .error ((.poison, .none), va))
      else (r.1, .ok (v.1.toNat / 2 ^ (8 * (va % 128)) % 2 ^ (8 * n)))

/-! ### Loop buffers (R73). Boundary-map bits are held beside the code, as a fifth plane -/

def bufKey (p o : Nat) : Nat := p * 2 ^ 32 + o
/-- The halfword at an offset of a plane image: from the loop buffer where it holds it. -/
def codeHalf (s : State) (d : Code) (g c : Nat) (lb : Option LoopBuf) (p o : Nat) : State × Except FetchFail Nat :=
  match lb.bind fun b => mapGet b.halves (bufKey p o) with
  | some h => (s, .ok h.toNat)
  | none => s.fetchBytes g c (d.base + p * d.stride + o) 2
/-- The boundary-map bit of an offset. -/
def mapBit (s : State) (d : Code) (g c : Nat) (lb : Option LoopBuf) (o : Nat) : State × Except FetchFail Bool :=
  match lb.bind fun b => mapGet b.halves (bufKey 4 o) with
  | some h => (s, .ok (h == 1))
  | none =>
    let r := s.fetchBytes g c (d.base + d.n * d.stride + o / 16) 1
    (r.1, r.2.map fun v => bit1 v (o / 2 % 8))
/-- The buffer loads a range for some planes; what cannot be fetched is left to the instruction cache. -/
def loadBuf (s : State) (d : Code) (g c lo hi : Nat) (planes : List Nat) : State × LoopBuf :=
  let offs := (List.range ((hi - lo) / 2)).map fun i => lo + 2 * i
  let put (m : NMap (BitVec 16)) (k v : Nat) : NMap (BitVec 16) := mapSet m k (BitVec.ofNat 16 v)
  let r := offs.foldl (fun (acc : State × NMap (BitVec 16)) o =>
    let b := acc.1.mapBit d g c .none o
    let acc := match b.2 with
      | .ok v => (b.1, put acc.2 (bufKey 4 o) v.toNat)
      | .error _ => (b.1, acc.2)
    planes.foldl (fun (acc : State × NMap (BitVec 16)) p =>
      let h := acc.1.codeHalf d g c .none p o
      match h.2 with
      | .ok v => (h.1, put acc.2 (bufKey p o) v)
      | .error _ => (h.1, acc.2)) acc) (s, [])
  (r.1, { lo := lo, hi := hi, planes := planes, halves := r.2, stale := false })

/-! ### Fetching a word (R52) -/

/-- An offset is even, below L and marked in the map. -/
def targetOk (s : State) (d : Code) (g c t : Nat) : State × Except FetchFail Bool :=
  if t % 2 != 0 || decide (d.len ≤ t) then (s, .ok false) else s.mapBit d g c .none t
/-- The word of a plane at an offset; none where a check of R52 fails. A 32-bit word at L - 2, whose second map bit lies beyond the
map, fails (log 93). -/
def fetchWord (s : State) (d : Code) (g c : Nat) (lb : Option LoopBuf) (p o : Nat) : State × Except FetchFail (Option Nat) :=
  if o % 2 != 0 || decide (d.len ≤ o) then (s, .ok .none)
  else
    let m := s.mapBit d g c lb o
    match m.2 with
    | .error f => (m.1, .error f)
    | .ok false => (m.1, .ok .none)
    | .ok true =>
      let h := m.1.codeHalf d g c lb p o
      match h.2 with
      | .error f => (h.1, .error f)
      | .ok w =>
        if w % 2 = 0 ∧ o + 2 = d.len then (h.1, .ok (some w))
        else if w % 2 = 1 ∧ d.len < o + 4 then (h.1, .ok .none)
        else
          let n := h.1.mapBit d g c lb (o + 2)
          match n.2 with
          | .error f => (n.1, .error f)
          | .ok b =>
            if w % 2 = 0 then (n.1, .ok (if b then some w else .none))
            else if b then (n.1, .ok .none)
            else
              let u := n.1.codeHalf d g c lb p (o + 2)
              (u.1, u.2.map fun v => some (w + 65536 * v))

/-! ### Transfers (R52, R47, R73) -/

/-- A transfer checks its target: PLANE_ALIGN at the transferring instruction, or else the effect. -/
def withTarget (s : State) (p : Pass) (t : Nat) (eff : State → State) : State :=
  let r := s.targetOk (s.codeOf p.blk.id.lid) p.core p.ctx t
  match r.2 with
  | .error f => r.1.kFail p f.2 f.1 none
  | .ok false => r.1.raise p (p.trap .planeAlign .none)
  | .ok true => eff r.1
/-- The planes a path occupies. -/
def pathPlanes (k : Skein) (m : Lanes) : List Nat :=
  (List.range 4).filter fun q => (lanesOf (m &&& k.live)).any fun l => k.plane l == q
/-- A taken branch from the pass's offset to `t`: if it goes backward, R47 may switch paths and the loop buffer loads or, where
it is stale, reloads. -/
def backward (s : State) (p : Pass) (t : Nat) : State :=
  if p.coach || decide (p.off < t) then s
  else
    let d := s.codeOf p.blk.id.lid
    let range : Option (Nat × Nat × List Nat) :=
      if p.off + p.len - t ≤ 256 then some (t, p.off + p.len, pathPlanes p.sk (p.arm.path.elim p.path (·.lanes)))
      else (p.arm.lb.filter (·.stale)).map fun b => (b.lo, b.hi, b.planes)
    let s := s.modArm p.bid p.ix p.ai fun a => { a with sw := a.sw || p.sk.pends p.ai }
    match range with
    | none => s
    | some (lo, hi, ps) =>
      let r := s.loadBuf d p.core p.ctx lo hi ps
      r.1.modArm p.bid p.ix p.ai fun a => { a with lb := some r.2 }

end State

end Sys2Proof.Machine
end

