-- ==== Sys2Proof/Machine/Joins.lean ====
section
/-! DEFINITION. Paths, arms and joins (02 R58-R69, R72; 01 R47, R438, R439; 03 R76; 17 R392). A stack is a list with its top at
the head. -/

namespace Sys2Proof.Machine

namespace Skein

/-! ### Running paths (R58, R61, R64) -/

/-- A path becomes its arm's running path, and goes on as it left off; every latch is invalid. -/
def runPath (k : Skein) (a : Nat) (p : Path) : Skein :=
  (k.modArm a fun x => { x with path := some { p with again := none }, complete := false, issue := none, again := p.again, sw := false }).dropLatches
/-- The next path of a stack: the first entry from the top that still holds a lane (R61). -/
def popPath (live : Lanes) : List Entry → Option Path × List Entry
  | [] => (none, [])
  | .path p :: r => if p.lanes &&& live = 0 then popPath live r else (some { p with lanes := p.lanes &&& live }, r)
  | .marker rj m b :: r => if m &&& live = 0 then popPath live r else (some { off := rj, lanes := m &&& live, base := b, last := rj }, r)
/-- Two copies of the uniform registers are equal. -/
def sameKs (x y : NMap W64) : Bool := (List.range 32).all fun i => mapGetD x i 0 == mapGetD y i 0
/-- Held groups of both arms pass to arm 0 (R439). -/
def regroup (k : Skein) : Skein :=
  { k with r := { k.r with joins := k.r.joins.map fun e =>
      (e.1, { e.2 with groups := e.2.groups.map fun (g : Group) => { g with arm := 0 } }) } }
/-- Two complete arms merge (R62, R72): the uniform registers of the arm that held the lower lane at the split. -/
def merge (k : Skein) : Skein :=
  match k.arms with
  | [x, y] =>
    if x.complete && y.complete then
      let m := (x.arrived ||| y.arrived) &&& k.live
      let ks := if (lowestLane x.split).getD 16 ≤ (lowestLane y.split).getD 16 then x.ks else y.ks
      let sole : Arm := { Arm.idle with
        ks := ks, complete := m == 0, seen := x.seen, marks := x.marks.join y.marks
        path := if m = 0 then none else some { off := k.rejoin, lanes := m, base := k.win.base, last := k.rejoin } }
      let k := ({ k with arms := [sole], rejoin := 0 }.regroup).dropLatches
      if sameKs x.ks y.ks then k else k.orStatus stKDIV
    else k
  | _ => k
/-- The running path of an arm has ended: the next path of its stack runs, or the arm is complete (R61). -/
def nextPath (k : Skein) (a : Nat) : Skein :=
  let r := popPath k.live (k.arm a).stack
  let k := k.modArm a fun x => { x with path := none, stack := r.2, issue := none, again := none }
  match r.1 with
  | some p => k.runPath a p
  | none => (k.modArm a fun x => { x with complete := true }).dropLatches
/-- The same, and complete arms merge (R62). -/
def endPath (k : Skein) (a : Nat) : Skein := (k.nextPath a).merge

/-! ### Arrival at a rejoin (R61) -/

/-- Lanes join the topmost marker of a stack. -/
def arriveTop (m : Lanes) : List Entry → List Entry
  | [] => []
  | .marker rj a b :: r => .marker rj (a ||| m) b :: r
  | .path p :: r => .path p :: arriveTop m r
/-- The rejoin offset of the topmost marker. -/
def topMarker : List Entry → Option Nat
  | [] => none
  | .marker rj _ _ :: _ => some rj
  | .path _ :: r => topMarker r
/-- A path starts with a recorded window base that is not the current one (R76). -/
def wrongBase (k : Skein) (p : Path) : Bool := p.mis || p.base != k.win.base
/-- The running path fetches at its rejoin: its lanes arrive and the path ends; but one that starts with another window base raises
WINDOW_PATH first (R76). -/
def arrive (k : Skein) (a : Nat) : Option Skein :=
  match (k.arm a).path.filter fun p => !k.wrongBase p with
  | none => none
  | some p =>
    match topMarker (k.arm a).stack with
    | some rj =>
      if p.off = rj then some ((k.modArm a fun x => { x with stack := arriveTop p.lanes x.stack }).endPath a) else none
    | none =>
      if k.arms.length = 2 ∧ p.off = k.rejoin then
        some ((k.modArm a fun x => { x with arrived := x.arrived ||| p.lanes }).endPath a)
      else none

/-! ### Switching to the path of the arm's lowest lane (R47) -/

/-- The arm changes to the path of its lowest lane, if its stack holds that; the path that gives way pends, and goes on later as it
left off. -/
def switchPath (k : Skein) (a : Nat) : Skein :=
  let x := k.arm a
  let k := k.modArm a fun x => { x with sw := false }
  match x.path with
  | none => k
  | some p =>
    if p.lanes.getLsbD (k.lowLane a) then k
    else match takePath (k.lowLane a) x.stack with
      | none => k
      | some (q, st) =>
        (k.modArm a fun x => { x with stack := .path { p with again := x.again } :: st }).runPath a { q with lanes := q.lanes &&& k.live }
/-- The arm waits at a switch point for something other lanes may bring about, while a pending path holds the arm's lowest lane: it
switches there. -/
def mustSwitch (k : Skein) (a : Nat) : Bool :=
  let waits := match (k.arm a).wait with
    | none | some (.bar _) | some (.fault _ _ _) => false
    | _ => true
  waits && k.pends a
/-- The path that waits stands at its instruction again, in the plane and for the lanes it had come to, so that the arm may switch to
another. -/
def leaveWait (k : Skein) (a : Nat) : Skein :=
  let left (u : Issue) : Again :=
    { plane := (u.rest.head?).elim 0 (·.1), lanes := u.replay, pushed := u.pushed.map fun b => { b with valid := 0 }, pset := u.pset,
      fails := u.fails, redo := some (u.rest.map (·.1)) }
  k.modArm a fun x =>
    { x with wait := none, issue := none, again := (x.issue.map left).or x.again
             path := x.path.map fun (p : Path) => { p with off := x.issue.elim p.off (·.off) } }

/-! ### Splits (R60, R72) -/

/-- The arm's stack after a serial split would hold this many entries more. -/
def stackFits (k : Skein) (a n : Nat) : Bool := decide ((k.arm a).stack.length + n ≤ 32)
/-- Serial split: the not-taken lanes pend, below them a marker where the branch names a rejoin. -/
def splitSerial (k : Skein) (a t next : Nat) (rj : Option Nat) (taken : Lanes) : Skein :=
  match (k.arm a).path with
  | none => k
  | some p =>
    let m : List Entry := match rj with
      | some r => [.marker r 0 k.win.base]
      | none => []
    (k.modArm a fun x => { x with stack := .path { off := next, lanes := p.lanes &&& ~~~taken, base := k.win.base, last := p.last } :: m ++ x.stack }
      ).runPath a { off := t, lanes := taken, base := k.win.base, last := p.last }
/-- Top-level split of the sole arm: arm 0 is the one with the lower lane, and takes every held group (R439). -/
def splitArms (k : Skein) (t next rj : Nat) (taken : Lanes) : Skein :=
  let x := k.arm 0
  match x.path with
  | none => k
  | some p =>
    let make (o : Nat) (m : Lanes) : Arm :=
      { Arm.idle with path := some { off := o, lanes := m, base := k.win.base, last := p.last }, split := m, ks := x.ks, seen := x.seen, marks := x.marks }
    let rest := p.lanes &&& ~~~taken
    let one := make t taken
    let two := make next rest
    let arms := if (lowestLane taken).getD 16 ≤ (lowestLane rest).getD 16 then [one, two] else [two, one]
    ({ k with arms := arms, rejoin := rj }.regroup).dropLatches

/-! ### Join registers (R67, R68) -/

def groupLanes (l : List Group) : Lanes := l.foldl (fun m g => m ||| g.lanes) 0
/-- Groups as one path per arm: the base of the first, or of one that differs from B (R76). -/
def joinGroups (b : Nat) (l : List Group) : List Group :=
  [0, 1].filterMap fun a =>
    let g := l.filter fun x => x.arm == a
    match g with
    | [] => none
    | x :: _ => some { lanes := groupLanes g, arm := a, base := ((g.find? fun y => y.base != b).getD x).base }
/-- A group released from the `JWAIT` at `w` becomes its arm's running path, or pends on its stack, whatever that stack holds (log 81).
One whose base is not the current B will raise WINDOW_PATH when it starts (R76). -/
def release (k : Skein) (w : Nat) (g : Group) : Skein :=
  let p : Path := { off := w + 4, lanes := g.lanes, base := g.base, last := w, mis := g.base != k.win.base }
  if (k.arm g.arm).path.isNone then k.runPath g.arm p
  else k.modArm g.arm fun x => { x with stack := .path p :: x.stack }
/-- A join register is evaluated (R68); answers whether it broke. -/
def settleJoin (k : Skein) (j : Nat) : Skein × Bool :=
  let r := k.join j
  let gs := (r.groups.map fun (g : Group) => { g with lanes := g.lanes &&& k.live }).filter fun g => g.lanes != 0
  let r : JoinReg := { r with e := r.e &&& k.live, a := r.a &&& k.live, pd := r.pd &&& k.live, groups := gs }
  let h := groupLanes gs
  if h = 0 then (k.setJoin j r, false)
  else if h = r.e then ((joinGroups k.win.base gs).foldl (fun k g => k.release r.w g) (k.setJoin j JoinReg.idle), false)
  else if r.pd ≠ 0 ∧ r.e &&& ~~~h &&& ~~~r.pd = 0 then
    ((gs.foldl (fun k g => k.release r.w g) (k.setJoin j JoinReg.idle)).orStatus stJLOST, true)
  else (k.setJoin j r, false)
/-- Every join register evaluated, of those `f` selects; answers how many broke. -/
def settleJoins (k : Skein) (f : JoinReg → Bool) : Skein × Nat :=
  (List.range 8).foldl (fun acc j =>
    if f (acc.1.join j) then
      let r := acc.1.settleJoin j
      (r.1, acc.2 + r.2.toNat)
    else acc) (k, 0)

/-- What is done to the program's arms: those set aside where the skein is in trap mode. -/
def onProgram (k : Skein) (f : Skein → Skein) : Skein :=
  match k.frame with
  | none => f k
  | some fr =>
    let q := f { k with arms := fr.arms, rejoin := fr.rejoin, frame := none, r := { k.r with planes := fr.planes, latch := fr.latch } }
    { q with
      arms := k.arms, rejoin := k.rejoin, r := { q.r with planes := k.r.planes, latch := k.r.latch }
      frame := some { fr with arms := q.arms, rejoin := q.rejoin, planes := q.r.planes, latch := q.r.latch } }
/-- Lanes exit for good (R43, R375): their joins are evaluated, and a path that holds no lane more ends. -/
def exitLanes (k : Skein) (a : Nat) (x : Lanes) : Skein × Nat :=
  let k := { k with r := { k.r with exited := k.r.exited ||| x } }
  let k := k.setMask 0 x 0
  let k := k.modArm a fun y => { y with path := y.path.map fun (p : Path) => { p with lanes := p.lanes &&& ~~~x } }
  let r := k.settleJoins fun j => (j.e ||| groupLanes j.groups) &&& x != 0
  match (r.1.arm a).path with
  | some p => if p.lanes = 0 then (r.1.endPath a, r.2) else r
  | none => r

/-- `JINIT` for the lanes of an arm (R67); none where a held group contains one of them. -/
def initJoin (k : Skein) (a j : Nat) (m : Lanes) : Option Skein :=
  let r := k.join j
  let al := k.armLanes a
  if groupLanes r.groups &&& al ≠ 0 then none
  else
    let e := (r.e &&& ~~~al) ||| (m &&& al &&& k.live)
    some (k.setJoin j { r with e := e, a := r.a &&& ~~~al, pd := r.pd &&& ~~~al, w := if e &&& ~~~al = 0 then 0 else r.w })
/-- `JWAIT` at an offset for the active lanes (R67, R68): the held lanes leave the path as one group; inactive lanes go with it
when no lane continues. The register is evaluated before arms that are left without a path merge. -/
def waitJoin (k : Skein) (a j w : Nat) (act : Lanes) : Skein × Bool :=
  let r := k.join j
  match (k.arm a).path with
  | none => (k, false)
  | some p =>
    let held := act &&& r.a
    let g := if act &&& ~~~held = 0 then p.lanes else held
    let r : JoinReg := { r with w := w, pd := r.pd ||| (act &&& r.e &&& ~~~r.a) }
    let r := if held = 0 then r else { r with groups := r.groups ++ [{ lanes := g, arm := a, base := k.win.base }] }
    let k := k.setJoin j r
    let rest := if held = 0 then p.lanes else p.lanes &&& ~~~g
    let k :=
      if rest = 0 then k.nextPath a
      else k.modArm a fun x => { x with issue := none, path := some { p with off := w + 4, lanes := rest } }
    let q := k.settleJoin j
    (q.1.merge, q.2)

end Skein

end Sys2Proof.Machine
end

