-- ==== Sys2Proof/Machine/Moves.lean ====
section
/-! DEFINITION. Moves between register classes, masks and planes (04 R114; 17 R394, R403, R406; 18 R415). -/

namespace Sys2Proof.Machine

/-- `K2V` (R394): `ka`[31:0] in every active lane. -/
def execK2v (d : Nat) (k : Bool) (ka : Nat) (s : State) : Out :=
  s.withPass fun p =>
    s.laneGuarded p [p.laneRole, p.dest k d 1] (s.lane32 p d k (fun _ => (p.k ka).setWidth 32) 0)

/-- `V2K` (R394): the lowest active lane of the offset, over every pass that holds this word; unchanged with none. -/
def execV2k (kd : Nat) (a : Src) (s : State) : Out :=
  s.withPass fun p =>
    s.laneGuarded p [p.laneRole, p.srcReg a 1, p.fresh a]
      (if p.gatherEnds then
        match lowestLane p.gathered with
        | some l => (s.setK p kd ((p.val32 a l).setWidth 64)).endPass p
        | none => s.endPass p
       else s.endPass p)

/-- `PGET` (R415). -/
def execPget (d : Nat) (k : Bool) (s : State) : Out :=
  s.withPass fun p =>
    s.laneGuarded p [p.laneRole, p.dest k d 1] (s.lane32 p d k (fun l => BitVec.ofNat 32 (p.sk.plane l)) 0)

/-- The plane count of the launch of a pass (R51): byte 24 of its packet. -/
def planesOf (s : State) (p : Pass) : Nat :=
  match s.launch? p.blk.id.lid with
  | some l => natAt l.packet 24 1
  | none => 1

/-- New planes are kept until the path's next offset (R56); PLANE_ALIGN with no lane's plane changed where one does not
exist. -/
def psetWith (s : State) (p : Pass) (checks : List (Option Trap)) (q : Nat → Nat) : State :=
  let bad := laneSet fun l => p.act.getLsbD l && decide (planesOf s p ≤ q l)
  let set (f : NMap Nat → NMap Nat) : State :=
    s.modArm p.bid p.ix p.ai fun a => { a with issue := a.issue.map fun u => { u with pset := f u.pset } }
  s.laneGuarded p checks
    (if bad = 0 then (set fun m => mapSetAll m p.lanes q).endPass p
     else (set fun _ => []).raise p (p.trap .planeAlign .none))
def execPset (a : Src) (s : State) : Out :=
  s.withPass fun p => psetWith s p [p.laneRole, p.srcReg a 1, p.fresh a] fun l => (p.val32 a l).toNat % 4
def execPsetImm (n : Nat) (s : State) : Out := s.withPass fun p => psetWith s p [p.laneRole] fun _ => n

/-! ### Masks (R403, R406) -/

def execMmovMM (md ma : Nat) (s : State) : Out :=
  s.withPass fun p => s.laneGuarded p [p.laneRole] (s.laneMask p md (p.sk.mask ma) 0)
def execMmovMV (md : Nat) (a : Src) (s : State) : Out :=
  s.withPass fun p =>
    s.laneGuarded p [p.laneRole, p.srcReg a 1, p.fresh a] (s.laneMask p md (laneSet fun l => p.val32 a l != 0) 0)
def execMmovVM (d : Nat) (k : Bool) (ma : Nat) (s : State) : Out :=
  s.withPass fun p =>
    s.laneGuarded p [p.laneRole, p.dest k d 1]
      (s.lane32 p d k (fun l => if (p.sk.mask ma).getLsbD l then 1 else 0) 0)
def execMmovMK (md ka : Nat) (s : State) : Out :=
  s.withPass fun p => s.laneGuarded p [p.laneRole] (s.laneMask p md ((p.k ka).setWidth 16) 0)
/-- `MMOV kd, ma` (R406): the whole mask, once per pass, that has active lanes or not; nothing under an empty execute mask (R71). -/
def execMmovKM (kd ma : Nat) (s : State) : Out :=
  s.withPass fun p =>
    s.laneGuarded p [p.laneRole]
      (if p.em = 0 then s.endPass p else (s.setK p kd ((p.sk.mask ma).setWidth 64)).endPass p)
def mlogOf (s : State) (md ma mb : Nat) (f : Lanes → Lanes → Lanes) : Out :=
  s.withPass fun p => s.laneGuarded p [p.laneRole] (s.laneMask p md (f (p.sk.mask ma) (p.sk.mask mb)) 0)
def execMlogAnd (md ma mb : Nat) (s : State) : Out := mlogOf s md ma mb fun x y => x &&& y
def execMlogOr (md ma mb : Nat) (s : State) : Out := mlogOf s md ma mb fun x y => x ||| y
def execMlogXor (md ma mb : Nat) (s : State) : Out := mlogOf s md ma mb fun x y => x ^^^ y
def execMlogAndn (md ma mb : Nat) (s : State) : Out := mlogOf s md ma mb fun x y => x &&& ~~~y

end Sys2Proof.Machine
end

