-- ==== Sys2Proof/Machine/Control.lean ====
section
/-! DEFINITION. Control flow, joins, barriers, fences and trap instructions (02 R52-R72; 03 R76; 08 R204, R210, R213; 12 R290-R292;
16 R357, R359, R361, R362, R364; 17 R375, R381, R392, R393; 18 R411, R413, R421, R430, R432). -/

namespace Sys2Proof.Machine

namespace Pass

/-- An instruction that trap mode does not permit (R290): any trap there makes the context fatal. -/
def untrapped (p : Pass) : Option Trap := whenBad p.trapMode (p.ill .none)
def oneArm (p : Pass) : Option Trap := whenBad (p.sk.arms.length == 2) (p.ill .diverged)
def converged (p : Pass) : Option Trap := whenBad (!p.coach && !p.sk.converged) (p.ill .diverged)
/-- An earlier plane of the path executed the same word at this offset. -/
def repeated (p : Pass) : Bool :=
  match p.arm.issue with
  | none => false
  | some u => u.sets.any fun e => decide (e.1 < p.plane) && mapGetD u.words e.1 0 == mapGetD u.words p.plane 0
/-- The displacement of a branch, in halfwords (R103). -/
def target (p : Pass) (bits disp : Nat) : Nat := ((p.off : Int) + 2 * signed bits disp).toNat

end Pass

/-- `NOP` (R411). -/
def nopOf (s : State) : Out := s.withPass fun p => s.endPass p
def execNop (s : State) : Out := nopOf s

/-! ### Uniform branches (R362, R393) -/

/-- A transfer of the whole path or coach instance. -/
def transfer (s : State) (p : Pass) (t : Nat) : State := s.withTarget p t fun s => (s.jump p t).backward p t
/-- A displacement below offset 0 names no offset. -/
def transferBy (s : State) (p : Pass) (bits disp : Nat) : State :=
  if (p.off : Int) + 2 * signed bits disp < 0 then s.raise p (p.trap .planeAlign .none) else transfer s p (p.target bits disp)
def execJmpi (ka : Nat) (s : State) : Out := s.withPass fun p => transfer s p ((p.k ka).toNat % 2 ^ 32)
def brauTakes (mode : UMode) (v : W64) : Bool :=
  match mode with
  | .always => true
  | .nz => v != 0
  | .z => v == 0
def execBrau (kc : Nat) (mode : UMode) (disp : Nat) (s : State) : Out :=
  s.withPass fun p => if brauTakes mode (p.k kc) then transferBy s p 18 disp else s.endPass p

/-! ### Lane-conditional branches (R60, R361) -/

/-- The lanes that take a branch. -/
def takenLanes (p : Pass) (cm : Nat) (neg : Bool) : Lanes := p.act &&& (if neg then ~~~p.sk.mask cm else p.sk.mask cm)
/-- The branch once its target and rejoin are known to be good. -/
def branchTo (s : State) (p : Pass) (t : Nat) (rj : Option Nat) (taken : Lanes) : State :=
  if taken = p.act then (s.jump p t).backward p t
  else
    match rj, p.sk.arms.length == 1 && p.arm.stack.isEmpty && !p.trapMode with
    | some r, true =>
      let s := s.modSk p.bid p.ix fun k => k.splitArms t (p.off + 4) r taken
      let ai := match s.sk? p.bid p.ix with
        | some k => if ((k.arm 0).path.elim 0 (·.lanes)) = taken then 0 else 1
        | none => 0
      s.backward { p with ai := ai } t
    | _, _ =>
      if p.sk.stackFits p.ai (if rj.isSome then 2 else 1) then
        (s.modSk p.bid p.ix fun k => k.splitSerial p.ai t (p.off + 4) rj taken).backward p t
      else s.raise p (p.ill .divergeDepth)
def branchOf (s : State) (p : Pass) (cm : Nat) (neg : Bool) (bits disp : Nat) (rdist : Option Nat) : State :=
  let taken := takenLanes p cm neg
  let t := p.target bits disp
  let rj := rdist.map fun r => t + 2 * r
  s.guarded p [p.laneRole]
    (if taken = 0 then s.endPass p
     else if (p.off : Int) + 2 * signed bits disp < 0 then s.raise p (p.trap .planeAlign .none)
     else s.withTarget p t fun s => match rj with
       | none => branchTo s p t none taken
       | some r => s.withTarget p r fun s => branchTo s p t (some r) taken)
def execBra (cm : Nat) (neg : Bool) (disp : Nat) (s : State) : Out := s.withPass fun p => branchOf s p cm neg 21 disp none
def execBraRj (cm : Nat) (neg : Bool) (disp rdist : Nat) (s : State) : Out :=
  s.withPass fun p => branchOf s p cm neg 11 disp (some rdist)

/-! ### Calls (R76, R364, R421) -/

/-- The running path goes to `t` on window base `b`. -/
def moveWindow (s : State) (p : Pass) (b t : Nat) : State :=
  (s.modSk p.bid p.ix fun k => { k with win := { k.win with base := b } }).modArm p.bid p.ix p.ai fun a =>
    { a with issue := none, path := a.path.map fun (x : Path) => { x with off := t, base := b } }
def execCall (n8 disp : Nat) (s : State) : Out :=
  s.withPass fun p =>
    let s := s.switchPoint p
    let n := 8 * (n8 + 1)
    let w := p.sk.win
    let b := w.base + n
    s.guarded p
      [p.laneRole, p.untrapped, p.oneArm, whenBad (decide (1024 < b + w.reach)) (p.ill .windowDepth),
        whenBad (decide (w.allot + w.spill < b + w.reach)) (p.trap .windowOverflow .none),
        whenBad (decide ((p.off : Int) + 2 * signed 19 disp < 0)) (p.trap .planeAlign .none)]
      (s.withTarget p (p.target 19 disp) fun s =>
        moveWindow (s.setK p 31 (BitVec.ofNat 64 (n * 2 ^ 32 + p.off + p.len))) p b (p.target 19 disp))
def execRet (s : State) : Out :=
  s.withPass fun p =>
    let s := s.switchPoint p
    let link := (p.k 31).toNat
    let n := bitsOf link 47 32
    let w := p.sk.win
    let bad := n == 0 || n % 8 != 0 || decide (64 < n) || decide (w.base < n) || bitsOf link 63 48 != 0
    s.guarded p
      [p.laneRole, p.untrapped, p.oneArm, whenBad bad (p.ill .link),
        whenBad (decide (w.base < w.spill + n)) (p.trap .windowUnderflow .none)]
      (s.withTarget p (link % 2 ^ 32) fun s => moveWindow s p (w.base - n) (link % 2 ^ 32))

/-! ### Barriers (R357) -/

namespace State

/-- The skeins of a block that take part in barriers and decision queues: those neither DRAINING nor RETIRED. -/
def liveSkeins (b : Block) : List Skein := b.skeins.filter fun k => k.life != .draining && k.life != .retired
/-- A barrier joins the clocks of all skeins of a DET block, those that have ended among them, and raises its epoch (R271); the coach
instance's clock takes no part (log 114). -/
def joinBar (s : State) (b : Block) (m : Lanes) : State :=
  if !s.ctlBit b.id.lid 12 then s
  else
    let ks := b.skeins
    let own (k : Skein) : Nat := if m.getLsbD k.idx then k.x.det.phase - 1 else k.x.det.phase
    let key (i : Nat) : Nat := threadKey b.id.lid b.id.idx i
    let clock (i : Nat) : ThreadClock := mapGetD s.mem.clocks (key i) ThreadClock.zero
    let vc := ks.foldl (fun v k => maxList v ((List.range 17).map fun i => if i = k.idx then own k else (k.x.det.vc[i]?).getD 0)) []
    let far := ks.foldl (fun m k => maxMap m (clock k.idx).far) []
    let near := ks.foldl (fun m k => maxMap m (clock k.idx).near) []
    let s := s.modBlk b.id.bid fun x =>
      { x with epoch := x.epoch + 1
               skeins := x.skeins.map fun (k : Skein) =>
                 if m.getLsbD k.idx then { k with x := { k.x with det := { k.x.det with vc := maxList k.x.det.vc vc } } } else k }
    ks.foldl (fun s k =>
      { s with mem := { s.mem with clocks := mapSet s.mem.clocks (key k.idx) { clock k.idx with far := maxMap (clock k.idx).far far, near := maxMap (clock k.idx).near near } } }) s
/-- Barrier `n` of a block is evaluated: when every live skein has arrived, they go on past their `BAR`. -/
def evalBar (s : State) (bid n : Nat) : State :=
  match s.blk? bid with
  | none => s
  | some b =>
    let m := mapGetD b.bars n 0
    if m = 0 ∨ !(liveSkeins b).all fun k => m.getLsbD k.idx then s
    else
      let acq := s.storesOf b.id.ctx
      let go (a : Arm) : Arm := if a.wait = some (.bar n) then ({ a with wait := none, marks := { a.marks with acq := acq } }).endPass else a
      let s := s.joinBar b m
      s.modBlk bid fun b =>
        { b with bars := mapErase b.bars n
                 skeins := b.skeins.map fun (k : Skein) => if m.getLsbD k.idx then { k with arms := k.arms.map go } else k }
def evalBars (s : State) (bid : Nat) : State :=
  match s.blk? bid with
  | none => s
  | some b => b.bars.foldl (fun s e => s.evalBar bid e.1) s
/-- A skein is removed from barriers it had arrived at: its wait is abandoned (R42). -/
def leaveBars (s : State) (bid i : Nat) : State :=
  s.modBlk bid fun b => { b with bars := (b.bars.map fun e => (e.1, e.2 &&& ~~~laneBit i)).filter fun e => e.2 != 0 }

/-! ### The end of a skein's lanes (R42, R178, R372, R375) -/

/-- A skein no longer pops: it leaves the masks of queued entries, and entries fully popped are freed; a coach instance held at a full
queue looks again. -/
def leaveDq (s : State) (bid i : Nat) : State :=
  s.wake.modBlk bid fun b =>
    { b with dq := (b.dq.map fun (e : DqEnt) => { e with mask := e.mask &&& ~~~laneBit i }).filter fun e => e.mask &&& ~~~e.popped != 0 }
/-- A launch's completion record will carry the status POISON. -/
def poisonLaunch (s : State) (lid : Nat) : State := s.modLaunch lid fun l => { l with poison := true }
/-- A skein whose last lane has exited enters DRAINING. -/
def drain (s : State) (b : Block) (i : Nat) : State :=
  match s.sk? b.id.bid i with
  | none => s
  | some k =>
    if k.live = 0 ∧ k.life = .live then
      let s := s.modSk b.id.bid i fun k => { k with life := .draining }
      let s := if k.x.defer.isSome then s.poisonLaunch b.id.lid else s
      ((s.leaveDq b.id.bid i).leaveBars b.id.bid i).evalBars b.id.bid
    else s

end State

def execBar (n : Nat) (s : State) : Out :=
  s.withPass fun p =>
    let s := s.switchPoint p
    s.guarded p
      [p.laneRole, p.converged,
        whenBad (s.isDet p && decide (65535 ≤ p.blk.epoch)) (p.trap .detIllegal .phase), s.phaseFull p]
      (let s := (s.releaseAll p 0).detRelease p 0
       ((s.1.modBlk p.bid fun b => { b with bars := mapSet b.bars n (mapGetD b.bars n 0 ||| laneBit p.ix) }).park p
          (.bar n)).evalBar p.bid n)

/-! ### Joins (R67, R392) -/

def jinitOf (s : State) (jn : Nat) (m : Pass → Lanes) : Out :=
  s.withPass fun p =>
    s.guarded p [p.laneRole]
      (match p.sk.initJoin p.ai jn (m p) with
       | none => s.raise p (p.ill .joinBusy)
       | some k => (s.modSk p.bid p.ix fun _ => k).endPass p)
def execJinit (jn imm : Nat) (s : State) : Out := jinitOf s jn fun _ => BitVec.ofNat 16 imm
def execJinitMask (jn c : Nat) (s : State) : Out := jinitOf s jn fun p => p.sk.mask c
def execJarr (jn : Nat) (s : State) : Out :=
  s.withPass fun p =>
    s.guarded p [p.laneRole]
      ((s.modSk p.bid p.ix fun k => k.setJoin jn { k.join jn with a := (k.join jn).a ||| (p.act &&& (k.join jn).e) }).endPass p)
def execJwait (jn : Nat) (s : State) : Out :=
  s.withPass fun p =>
    let s := s.switchPoint p
    let j := p.sk.join jn
    s.laneGuarded p
      [p.laneRole, p.untrapped,
        whenBad (p.act != 0 && Skein.groupLanes j.groups != 0 && j.w != p.off) (p.ill .joinOffset)]
      (if p.act = 0 then s.endPass p
       else
         let k := (s.sk? p.bid p.ix).getD p.sk
         let r := k.waitJoin p.ai jn p.off p.act
         let s := s.modSk p.bid p.ix fun _ => r.1
         if r.2 then s.countCore p.core 0x06 p.ctx else s)

/-! ### Fences (R204, R209, R210, R213) -/

/-- Release and acquire at a scope; a repeat by another plane has no further effect (R204), and releases nothing, so that the bound on the
phase (R268) is checked of the first alone. -/
def fenceAt (s : State) (p : Pass) (sc : Nat) (more : State → State) : State :=
  if p.repeated then s.endFenced p sc
  else s.guarded p [s.phaseFull p] <| (more (((s.releaseAll p sc).acquireAt p.core p.ctx sc).fenceSync p sc)).endAcquire p sc
def execFence (sc : Scope) (s : State) : Out :=
  s.withPass fun p => fenceAt (s.switchPoint p) p sc.level id
/-- `TFENCE`: a walk reads the tables at their homes, so at every scope the core's dirty lines are written back (R209). -/
def execTfence (sc : Scope) (s : State) : Out :=
  s.withPass fun p => fenceAt (s.switchPoint p) p sc.level fun s => s.flushCore p.core
/-- `OFENCE` (R210, R413): operand buffers and scale-cache entries are emptied; later commands of the issuer read what stands before it. -/
def execOfence (s : State) : Out :=
  s.withPass fun p =>
    let s := s.switchPoint p
    if p.repeated then s.endFenced p 1
    else
      let s := (s.releaseAll p 1).modCore p.core fun c => { c with scales := c.scales.filter fun e => e.ctx != p.ctx }
      (s.noteFence p).endFenced p 1
def staleArm (a : Arm) : Arm := { a with lb := a.lb.map fun b => { b with stale := true } }
/-- Every loop buffer of a skein marked stale. -/
def staleSkein (k : Skein) : Skein :=
  { k with arms := k.arms.map staleArm, frame := k.frame.map fun f => { f with arms := f.arms.map staleArm } }
/-- Instruction caches of the cores of an instance drop the context's lines (R213). -/
def dropCode (s : State) (c sc g : Nat) : State :=
  let core (e : Nat × Core) : Nat × Core :=
    if State.sameInst sc g e.1 then (e.1, { e.2 with icache := e.2.icache.filter fun l => !(l.tag == none || l.tag == some c) })
    else e
  let blk (e : Nat × Block) : Nat × Block :=
    if e.2.id.ctx = c ∧ State.sameInst sc g e.2.id.core then (e.1, { e.2 with skeins := e.2.skeins.map staleSkein }) else e
  { s with cores := s.cores.map core, blocks := s.blocks.map blk }
/-- `ICINV`: a fill reads at the home, so at every scope the core's dirty lines are written back too. -/
def execIcinv (sc : Scope) (s : State) : Out :=
  s.withPass fun p => fenceAt (s.switchPoint p) p sc.level fun s => dropCode (s.flushCore p.core) p.ctx sc.level p.core
/-- The loop buffers of some arms reload; `put` stores arm `i`'s. -/
def reloadBufs (s : State) (p : Pass) (arms : List Arm) (put : State → Nat → LoopBuf → State) : State :=
  (List.range arms.length).foldl (fun s i =>
    match (arms[i]?).bind (·.lb) with
    | none => s
    | some b =>
      let r := s.loadBuf (s.codeOf p.blk.id.lid) p.core p.ctx b.lo b.hi b.planes
      put r.1 i r.2) s
/-- `ISYNC` (R213): every loop buffer of the skein reloads, in trap mode also those of the arms set aside; a repeat by another plane has
no further effect (R204). -/
def execIsync (s : State) : Out :=
  s.withPass fun p =>
    let load (b : LoopBuf) (x : Arm) : Arm := { x with lb := some b }
    let s := s.switchPoint p
    if p.repeated then s.endPass p
    else
    let s := reloadBufs s p p.sk.arms fun s i b => s.modArm p.bid p.ix i (load b)
    let s := reloadBufs s p (p.sk.frame.elim [] (·.arms)) fun s i b => s.modSk p.bid p.ix fun k =>
      { k with frame := k.frame.map fun f => { f with arms := listMod f.arms i (load b) } }
    s.endPass p

/-! ### Trap instructions (R292, R359, R432) -/

def execBkpt (s : State) : Out :=
  s.withPass fun p => (s.switchPoint p).raise p { p.trap .breakpoint .none with next := true }
def execTrap (n : Nat) (s : State) : Out :=
  s.withPass fun p => (s.switchPoint p).raise p { p.trap .software .none with next := true, aux := BitVec.ofNat 32 n }

/-- A skein leaves trap mode (R289, R292): what was set aside comes back; `k8`-`k31` are the program's. -/
def Skein.leaveTrap (k : Skein) (f : Frame) : Skein :=
  let hk := (k.arm 0).ks
  let knows (a : Arm) : Arm := { a with marks := a.marks.join (k.arm 0).marks }
  let ks (a : Arm) : NMap W64 := (List.range 24).foldl (fun m i => mapSet m (8 + i) (mapGetD hk (8 + i) 0)) a.ks
  { k with
    arms := (listMod f.arms f.arm fun a => { a with ks := ks a }).map knows
    rejoin := f.rejoin
    frame := none
    r := { k.r with planes := f.planes, latch := f.latch, masks := mapSet k.r.masks 0 (f.m0 &&& k.live) }
    x := { k.x with ranArm := f.ranArm } }
/-- The target path resumes: past the instruction, or at it from a plane and for some lanes only, with the failures that passes of lower
planes have noted (R55). -/
def Skein.resume (k : Skein) (ai o len res plane : Nat) (masked : Bool) (m : Lanes) : Skein :=
  let a := min ai (k.arms.length - 1)
  let u := (k.arm a).issue.filter fun u => u.off == o
  let goes (off : Nat) (g : Option Again) (x : Arm) : Arm :=
    { x with issue := none, again := g, path := x.path.map fun (q : Path) => { q with off := off } }
  if res = 1 then (k.modArm a (goes (o + len) none)).applyPlanes (u.elim [] (·.pset))
  else
    let lanes := if masked then some m else none
    let g : Again := { plane := plane, lanes := lanes, pushed := u.bind (·.pushed), pset := u.elim [] (·.pset), fails := u.elim [] (·.fails),
                       redo := u.bind (·.redo) }
    k.modArm a (goes o (some g))
/-- `TRET` (R292). -/
def execTret (s : State) : Out :=
  s.withPass fun p =>
    match p.sk.frame, p.coach with
    | some f, false =>
      let k1 := (p.k 1).toNat
      let o := bitsOf k1 63 32
      let res := bitsOf k1 23 22
      let d := s.codeOf p.blk.id.lid
      if !p.arm.stack.isEmpty then s.fatal p.ctx .nested 0
      else
        let r := s.targetOk d p.core p.ctx o
        match r.2 with
        | .error e => r.1.kFail p e.2 e.1 none
        | .ok ok =>
          let n := if o + 2 = d.len then (r.1, Except.ok true) else r.1.mapBit d p.core p.ctx none (o + 2)
          match n.2 with
          | .error e => n.1.kFail p e.2 e.1 none
          | .ok short =>
            let len := if short then 2 else 4
            if !ok || decide (1 < res) then n.1.fatal p.ctx .nested 0
            else
              let s := n.1.modSk p.bid p.ix fun k => k.leaveTrap f
              if bit1 k1 21 then
                s.modCoach p.bid fun c => { c with off := if res = 1 then o + len else o, wait := none, hold := none, held := none }
              else
                s.modSk p.bid p.ix fun k =>
                  k.resume (bitsOf k1 20 20) o len res (bitsOf k1 17 16) (bit1 k1 24) ((p.k 2).setWidth 16)
    | _, _ => (s.switchPoint p).raise p (p.ill .encoding)

end Sys2Proof.Machine
end

