-- ==== Sys2Proof/Machine/Scratchpad.lean ====
section
/-! DEFINITION. Scratchpad: the window's bytes, and `LDSP` and `STSP` (06 R159, R177; 11 R273; 17 R401). -/

namespace Sys2Proof.Machine

namespace State

/-- `n` bytes of a block's window; none where one of them is poisoned (R177). -/
def scratchRead (b : Block) (o n : Nat) : Option Nat :=
  if (List.range n).any fun i => b.ps.poison.contains ((o + i) / 8) then none
  else some (leNat (byteGets b.ps.bytes o n))
/-- Bytes stored into a block's window, and the store numbered (R212). -/
def scratchSet (s : State) (bid o : Nat) (v : List Byte) (w : Nat × Nat := (0, 0)) : State :=
  let n := v.length
  match s.blk? bid with
  | none => s
  | some b =>
    let k := (s.ctx? b.id.ctx).elim 0 (·.stores) + 1
    let s := s.modCtx b.id.ctx fun x => { x with stores := k }
    let s := { s with mem := { s.mem with writes := s.mem.writes + 1 } }
    s.modBlk bid fun b =>
      { b with ps := { b.ps with
          bytes := byteSets b.ps.bytes o v
          stored := mapSetAll b.ps.stored ((List.range n).map (· + o)) fun _ => (k, w) } }
/-- The same, by a store that is no release: words and bits that held a release's mark lose it. -/
def scratchPut (s : State) (bid o : Nat) (v : List Byte) (w : Nat × Nat := (0, 0)) : State :=
  (s.scratchSet bid o v w).modBlk bid fun b => { b with ps := { b.ps with syncs := b.ps.syncs.filter fun e => !keyIn o v.length e.1 } }
/-- A store to a window: fewer than 8 bytes into a poisoned word store nothing; 8 bytes clear the poison (R401). -/
def scratchWrite (s : State) (bid o n v : Nat) (w : Nat × Nat := (0, 0)) : Option State :=
  match s.blk? bid with
  | none => none
  | some b =>
    let bad := b.ps.poison.contains (o / 8)
    if bad && n != 8 then none
    else
      let s := if bad then s.modBlk bid fun b => { b with ps := { b.ps with poison := b.ps.poison.filter (· != o / 8) } } else s
      some (s.scratchPut bid o (leBytes n v) w)
/-- The block whose window an access reaches: the issuer's or the span partner's; none once the partner has retired (log 96). -/
def windowOf (s : State) (p : Pass) (partner : Bool) : Option Block :=
  if partner then p.blk.id.partner.bind s.blk? else some p.blk
/-- The trap information of a scratchpad race (R277): no second program counter, and OTHERBLK 0 (log 117). -/
def scratchRace (r : Nat × Nat) (kind : Nat) : RaceInfo :=
  { off := 0, plane := 0, sk := r.1 % 16, lane := 0, coach := r.1 == 16, blk := 0, kThis := kind, kOther := r.2 }

end State

/-- Scratchpad offset of a lane (R401). -/
def spAddr (p : Pass) (base off8 n l : Nat) : Nat :=
  ((p.sk.v base l).setWidth 64 + offBytes off8 n).toNat % 2 ^ 20
/-- Both directions: checks of R159 and R268, then the lanes ascending; an effect that meets poison answers `.error`. -/
def spWith (s : State) (data : Nat) (partner : Bool) (base : Nat) (sz : Size) (off8 : Nat)
    (eff : Pass → Nat → Nat → Nat → State → Except State State) (write : Bool) : Out :=
  s.withPass fun p =>
    let s := s.switchPoint p
    let n := sz.bytes
    let addr := spAddr p base off8 n
    let w := (s.windowOf p partner)
    s.laneGuarded p
      ([p.laneRole] ++ p.dataReg data n ++ [p.reg base 1, whenBad (partner && w.isNone) (p.ill .span),
        whenBad (partner && s.isDet p) (p.trap .detIllegal .partner),
        p.laneCheck .misaligned .none addr fun l => addr l % n != 0,
        p.laneCheck .protection .scratchBound addr fun l => decide ((w.elim 0 (·.ps.size)) < addr l + n)])
      (let bid := if partner then p.blk.id.partner.getD p.bid else p.bid
       let r := p.lanes.foldl (fun (acc : State × List LaneFail × Bool) l =>
         match acc.2.2, acc.2.1.getLast? with
         | true, some f => (acc.1, acc.2.1 ++ [{ f with lane := l }], true)
         | _, _ =>
           let c := if s.isDet p then acc.1.scratchCheck p (addr l) n write (State.clockOf p).phase else (acc.1, none)
           match c.2 with
           | some x =>
             (c.1, acc.2.1 ++ [{ p.failAt addr l (.race, .scratch) with
                                 race := some (State.scratchRace x (if write then 1 else 0)) }], true)
           | none => match eff p bid (addr l) l c.1 with
             | .ok t => (t, acc.2.1, false)
             | .error t => (t, acc.2.1 ++ [p.failAt addr l (.poison, .none)], false)) (s, [], false)
       (r.1.noteFails p r.2.1).endPass p)
def execLdsp (data : Nat) (partner : Bool) (base : Nat) (sz : Size) (off8 : Nat) (s : State) : Out :=
  spWith s data partner base sz off8 (write := false) fun p bid a l t =>
    match (t.blk? bid).bind fun b => State.scratchRead b a sz.bytes with
    | none => .error ((t.modSk p.bid p.ix fun k => State.loadInto k data sz.bytes l (t.freeLoad l)).takeFree 16)
    | some v => .ok (t.modSk p.bid p.ix fun k => State.loadInto k data sz.bytes l v)
def execStsp (data : Nat) (partner : Bool) (base : Nat) (sz : Size) (off8 : Nat) (s : State) : Out :=
  spWith s data partner base sz off8 (write := true) fun p bid a l t =>
    let v := if sz.bytes = 8 then (p.sk.vpair data l).toNat else (p.sk.v data l).toNat
    match t.scratchWrite bid a sz.bytes v p.writer with
    | none => .error t
    | some t => .ok t

end Sys2Proof.Machine
end

