-- ==== Sys2Proof/Machine/Queues.lean ====
section
/-! DEFINITION. Waits and the queues between threads: completion counters, condition monitors, barrier objects, stage rings,
decision queues, task queues and tier prefetch (01 R40; 09 R221, R233-R242; 10 R261; 16 R348, R360, R367, R372; 18 R416, R427,
R431, R434, R436). -/

namespace Sys2Proof.Machine

namespace State

/-! ### Words at their homes -/

/-- `n` bytes read at their home after the core's own line has been written back; the die's RDC keeps no older copy (R197, R206). No
reader count counts it. -/
def homeRead (s : State) (o : Origin) (a n : Nat) (kind : Kind) : State × Except Fail Nat :=
  if noncanon a then (s, .error (.protection, .noncanon))
  else if !s.mapOk o.ctx a then (s, .error (.protection, .nohome))
  else
    let s := s.settleOwn o a
    let s := match o.core with
      | some g => (s.expel g o.ctx a).modDie (dieOf g) fun x => { x with rdc := dropLine x.rdc o.ctx a }
      | none => s
    let r := (s.passSwitch o a).request o.ctx a kind
    match r.2 with
    | .error f => (r.1, .error f)
    | .ok h =>
      if (List.range ((n + 31) / 32)).any fun i => r.1.poisoned (h.addr / 32 + i) then (r.1, .error (.poison, .none))
      else ((r.1.countHome h o.ctx 4).takeFree n, .ok (leNat (r.1.homeBytes h h.addr n)))
/-- The pass a skein (or, at 16, the coach instance) of a block would make: for the engines and units that act for it. -/
def agent (s : State) (bid ix ai off : Nat) : Option Pass :=
  match s.blk? bid with
  | none => none
  | some b =>
    let k := (b.skeins[ix]?).getD Skein.blank
    some { bid := bid, ix := ix, ai := ai, coach := ix == 16, blk := b, sk := k, arm := k.arm ai, co := b.coach.getD Coach.blank,
           off := off, len := 4, plane := 0, act := 0, path := 0, em := 0, last := true }
/-- An issuer gives back its condition monitor: one that found none free looks again. -/
def freeMon (s : State) (w : Who) : State :=
  match s.cores.find? fun e => e.2.mons.any fun m => m.1 == w with
  | none => s
  | some e =>
    let s := if e.2.mons.length < 16 then s else s.wake
    s.modCore e.1 fun c => { c with mons := c.mons.filter fun m => m.1 != w }

/-! ### Counters (R221, R348) -/

/-- An acquire of a scope that has found what it waited for, with the releases of `y`: trap ORDER where it synchronises with one of a higher
block, or their clocks joined. -/
def acquireCarry (s : State) (p : Pass) (y : List Carry) (loc : Option Nat) (a sc : Nat) (done : State → State) : State :=
  match s.orderTrap p (y.filter fun c => (s.links p loc sc c).isSome) a with
  | some t => (s.freeMon p.who).raise p t
  | none => ((done ((((s.acquireAt p.core p.ctx sc).joinAll p loc sc y)).noteAcquire p)).freeMon p.who).raiseDeferred p sc

end State

namespace Pass

/-- A counter operand: scratchpad or global. -/
def inSp (c : W64) : Bool := c.getLsbD 63
def spOff (c : W64) : Nat := c.toNat % 2 ^ 20
/-- The global address of such an operand, if it has one. -/
def place (c : W64) : Option Nat := if inSp c then none else some c.toNat
/-- The reserved bits of a register that may name scratchpad. -/
def spOperand (p : Pass) (c : W64) : Option Trap := whenBad (inSp c && bitsOf c.toNat 62 20 != 0) (p.ill .operand)
def spCanon (p : Pass) (c : W64) : Option Trap := p.kCheck .protection .noncanon c.toNat (!inSp c && noncanon c.toNat)
def spAlign (p : Pass) (c : W64) (n : Nat) : Option Trap :=
  p.kCheck .misaligned .none (if inSp c then spOff c else c.toNat) (c.toNat % n != 0)
/-- The named bytes lie inside the window, or have a valid home. -/
def spPlace (p : Pass) (s : State) (c : W64) (n : Nat) : Option Trap :=
  if inSp c then p.kCheck .protection .scratchBound (spOff c) (decide (p.blk.ps.size < spOff c + n))
  else p.kCheck .protection .nohome c.toNat (!s.mapOk p.ctx c.toNat)
/-- The checks of R348, in the order of R287. -/
def counterChecks (p : Pass) (s : State) (c : W64) : List (Option Trap) :=
  [p.spOperand c, p.spCanon c, p.spAlign c 4, p.spPlace s c 4]

end Pass

namespace State

/-- `n` bytes at a place that a register names: scratchpad or, at their home, global. -/
def placeRead (s : State) (p : Pass) (c : W64) (n : Nat) (kind : Kind) : State × Except Fail Nat :=
  if Pass.inSp c then
    (s, match (s.blk? p.bid).bind fun b => scratchRead b (Pass.spOff c) n with
      | some v => .ok v
      | none => .error (.poison, .none))
  else s.homeRead p.origin c.toNat n kind
def placeSync (s : State) (p : Pass) (c : W64) (bit : Option Nat) : Option Sync :=
  if Pass.inSp c then
    (s.blk? p.bid).bind fun b => mapGet b.ps.syncs (bit.elim (Pass.spOff c) (bitKey (Pass.spOff c)))
  else mapGet s.mem.syncs (bit.elim (syncKey p.ctx c.toNat) (bitKey (syncKey p.ctx c.toNat)))
def setPlaceSync (s : State) (p : Pass) (c : W64) (bit : Option Nat) (y : Sync) : State :=
  if Pass.inSp c then
    s.modBlk p.bid fun b =>
      { b with ps := { b.ps with syncs := mapSet b.ps.syncs (bit.elim (Pass.spOff c) (bitKey (Pass.spOff c))) y } }
  else
    let k := bit.elim (syncKey p.ctx c.toNat) (bitKey (syncKey p.ctx c.toNat))
    { s with mem := { s.mem with syncs := mapSet s.mem.syncs k y } }

/-- What a look at a counter finds (R221, R367). -/
inductive Count where
  | failed (f : Fail)
  | faulted
  | met (y : Option Sync)
  | short
  deriving DecidableEq, Repr

/-- FAULT = 0 and count − threshold below 2^30 modulo 2^31. -/
def countMet (w t : Nat) : Bool := decide ((w % 2 ^ 31 + 2 ^ 31 - t % 2 ^ 31) % 2 ^ 31 < 2 ^ 30)
def lookCounter (s : State) (p : Pass) (c t : W64) : State × Count :=
  let r := s.placeRead p c 4 .read
  (r.1, match r.2 with
    | .error f => .failed f
    | .ok w =>
      if bit1 w 31 then .faulted
      else if countMet w t.toNat then .met (r.1.placeSync p c none)
      else .short)
/-- The releases that a place carries. -/
def relsOf (y : Option Sync) : List Carry := y.elim [] (·.rels)
/-- The widest scope counted since a store last wrote the counter, or `.rack`. -/
def countScope (y : Option Sync) : Nat := (y.filter (·.counted)).elim 4 (·.scope)
/-- A counted wait: its acquire takes the widest scope counted since the last store, or `.rack` (R211). -/
def awaitCounter (s : State) (p : Pass) (c t : W64) (w : Wait) (back : Option Nat) (done : State → State) : State :=
  let r := s.lookCounter p c t
  match r.2 with
  | .failed f => r.1.kFail p (if Pass.inSp c then Pass.spOff c else c.toNat) f none
  | .faulted => r.1.raise (if back.isSome then { p with plane := 0 } else p) { p.trapAt .copyFault .none p.em c with off := back }
  | .met y => r.1.acquireCarry p (relsOf y) (Pass.place c) c.toNat (countScope y) done
  | .short => r.1.park p w

end State

/-- `CWAIT`: of the executions of one word in several planes the first waits and the others complete at once (R347). -/
def execCwait (kc kt : Nat) (s : State) : Out :=
  s.withPass fun p =>
    let s := s.switchPoint p
    s.guarded p (p.counterChecks s (p.k kc))
      (if p.repeated then s.endAcquire p (State.countScope (s.placeSync p (p.k kc) none))
       else s.awaitCounter p (p.k kc) (p.k kt) .cwait none fun s => s.endPass p)

/-- `YIELD` (R436): the continuation is always the label. -/
def execYield (kct kth : Nat) (cnt : Bool) (disp : Nat) (s : State) : Out :=
  s.withPass fun p =>
    let s := s.switchPoint p
    let t := p.target 14 disp
    s.guarded p [p.laneRole, p.untrapped, p.converged,
        whenBad (decide ((p.off : Int) + 2 * signed 14 disp < 0)) (p.trap .planeAlign .none)]
      (s.withTarget p t fun s =>
        if cnt then
          s.guarded p (p.counterChecks s (p.k kct))
            (s.awaitCounter p (p.k kct) (p.k kth) .yield (some t) fun s => s.jump p t)
        else s.jump p t)

/-! ### `WAITCMP` and its monitors (R261, R434) -/

/-- An issuer parks on a line: it takes a monitor, where one is free. -/
def watch (s : State) (p : Pass) (a : Nat) (w : Wait) : State :=
  let c := s.core p.core
  let s :=
    if (c.mons.any fun m => m.1 == p.who) || decide (16 ≤ c.mons.length) then s
    else s.modCore p.core fun c => { c with mons := c.mons ++ [(p.who, State.lineVa a)] }
  s.park p w
def execWaitcmp (cond : ICond) (sc : Scope) (ka kb : Nat) (s : State) : Out :=
  s.withPass fun p =>
    let s := s.switchPoint p
    let a := (p.k ka).toNat
    s.guarded p ([s.detInstr p] ++ p.kAddrChecks s a 8)
      (let r := s.homeRead p.origin a 8 .read
       match r.2 with
       | .error f => (r.1.freeMon p.who).kFail p a f none
       | .ok w =>
         if icond cond (BitVec.ofNat 64 w) (p.k kb) then r.1.acquireCarry p [] none a sc.level fun s => s.endPass p
         else watch (r.1.acquireAt p.core p.ctx sc.level) p a .waitcmp)

/-! ### Barrier objects (R234, R360) -/

/-- EXPECT, ARRIVED, PHASE, SCOPE. -/
structure BarObj where
  expect : Nat
  arrived : Nat
  phase : Nat
  scope : Nat
  deriving DecidableEq, Repr

/-- The object in its 32 bytes; none where a reserved field is set or SCOPE exceeds 4. -/
def barObj (w : Nat) : Option BarObj :=
  if bitsOf w 255 99 != 0 || decide (4 < bitsOf w 98 96) then none
  else some { expect := w % 2 ^ 32, arrived := bitsOf w 63 32, phase := bitsOf w 95 64, scope := bitsOf w 98 96 }
namespace State

/-- The carried clocks of the arrivals of one phase of an object, under a key of their own. -/
def phaseKey (c a q : Nat) : Nat := 2 ^ 90 + syncKey c a * 2 ^ 32 + q
/-- A skein whose previous arrival at the object is in a phase that has not completed (R268), or that owes it a bound prefetch's (log 105). -/
def sameArrival (s : State) (p : Pass) (a : Nat) (o : BarObj) : Bool :=
  s.isDet p && !p.coach && (mapGet p.sk.x.arrs a == some o.phase || (s.prefsDue p).any fun q => q.obj == a)
/-- One arrival (R360), its checks made: a release at SCOPE, one atomic step, the arrival recorded; a phase of a `.rack` object
that completes closes the reduction windows of its arrivals (R278). -/
def arriveAt (s : State) (p : Pass) (a : Nat) (o : BarObj) : State × Except Fail Unit :=
  let r := (s.releaseAll p o.scope).detRelease p o.scope
  let full := decide (o.expect ≤ o.arrived + 1)
  let q := if full then (o.phase + 1) % 2 ^ 32 else o.phase
  let st := r.1.homeStep p.origin (a + 4) 8 fun _ => (if full then 0 else (o.arrived + 1) % 2 ^ 32) + 2 ^ 32 * q
  match st.2 with
  | .error f => (st.1, .error f)
  | .ok _ =>
    let key := syncKey p.ctx a
    let me := myKey p
    let win := mapGetD st.1.mem.windows me 0
    let here := mapGetD st.1.mem.arrived key [] ++ (if s.isDet p && o.scope == 4 then [(me, win)] else [])
    let t := if p.coach then st.1 else st.1.modSk p.bid p.ix fun k => { k with x := { k.x with bo := some (a, o.phase), arrs := mapSet k.x.arrs a o.phase } }
    let pk := phaseKey p.ctx a o.phase
    let syncs := match r.2 with
      | none => t.mem.syncs
      | some c => mapSet t.mem.syncs pk (Sync.add (mapGet t.mem.syncs pk) p.core o.scope (some c))
    let windows := if s.isDet p && o.scope == 4 then mapSet t.mem.windows me (win + 1) else t.mem.windows
    let arrived := if full || here.isEmpty then mapErase t.mem.arrived key else mapSet t.mem.arrived key here
    let t := { t with mem := { t.mem with syncs := syncs, windows := windows, arrived := arrived } }
    if full then
      (t.closeHeld fun h => here.any fun e => e.1 == threadKey h.lid h.blk h.sk && decide (h.window ≤ e.2), .ok ())
    else (t, .ok ())

end State

/-- The checks a barrier object's address and contents meet, then what is done with it. -/
def withBarObj (s : State) (p : Pass) (a : Nat) (kind : Kind) (f : State → BarObj → State) : State :=
  let r := s.homeRead p.origin a 32 kind
  match r.2 with
  | .error e => r.1.kFail p a e none
  | .ok w => match barObj w with
    | none => r.1.raise p (p.trapAt .illegal .operand p.em (BitVec.ofNat 64 a))
    | some o => f r.1 o
/-- EXPECT = 0 is ILLEGAL; an arrival in a phase that the skein has already arrived in is DET_ILLEGAL (R268). -/
def withArrival (s : State) (p : Pass) (a : Nat) (f : State → BarObj → State) : State :=
  withBarObj s p a .atomic fun s o =>
    if o.expect = 0 then s.raise p (p.trapAt .illegal .operand p.em (BitVec.ofNat 64 a))
    else if s.sameArrival p a o then s.raise p (p.trap .detIllegal .phase) else f s o
def execBoarr (kb : Nat) (s : State) : Out :=
  s.withPass fun p =>
    let s := s.switchPoint p
    let a := (p.k kb).toNat
    s.guarded p ([s.phaseFull p] ++ p.kAddrChecks s a 32)
      (withArrival s p a fun s o =>
        let r := s.arriveAt p a o
        match r.2 with
        | .error e => r.1.kFail p a e none
        | .ok _ => r.1.endPass p)
def execBowait (kb : Nat) (s : State) : Out :=
  s.withPass fun p =>
    let s := s.switchPoint p
    let a := (p.k kb).toNat
    s.guarded p ([p.skeinOnly, whenBad ((p.sk.x.bo.map (·.1)) != some a) (p.ill .boOrder)] ++ p.kAddrChecks s a 32)
      (withBarObj s p a .read fun s o =>
        let q := p.sk.x.bo.elim 0 (·.2)
        if p.repeated then s.endAcquire p o.scope
        else if o.phase = q then s.park p .bowait
        else s.acquireCarry p (State.relsOf (mapGet s.mem.syncs (State.phaseKey p.ctx a q))) (some a) a o.scope fun s => s.endPass p)

/-! ### Stage rings (R236, R237, R427) -/

/-- A slot of a ring: STATE, the byte that holds the side's phase bit, the bit in it, its value, and lambda. -/
structure RingSlot where
  state : Nat
  byte : Nat
  bit : Nat
  value : Bool
  lam : Nat
  deriving DecidableEq, Repr

/-- The slot a running index names in a control block; none where a RING check fails. -/
def ringSlot (w : Nat) (ks : W64) : Option RingSlot :=
  let n := bitsOf w 142 136
  let st := bitsOf w 129 128
  if n = 0 || decide (64 < n) || bitsOf ks.toNat 63 33 != 0 || st == 3 then none
  else
    let i := ks.toNat % 2 ^ 32
    let slot := i % n
    let side := (ks.getLsbD 32).toNat
    some { state := st, byte := 8 * side + slot / 8, bit := slot % 8, value := bit1 w (64 * side + slot), lam := i / n % 2 }
/-- The value `SRWAIT` expects: (lambda + 1) mod 2 on FULL, lambda on FREE. -/
def RingSlot.expected (r : RingSlot) : Bool := if r.byte < 8 then r.lam == 0 else r.lam == 1
/-- What both ring instructions check and read. -/
def ringOf (s : State) (kr ks : Nat) (more : State → Pass → Option Trap) (f : State → Pass → RingSlot → State) : Out :=
  s.withPass fun p =>
    let s := s.switchPoint p
    let c := p.k kr
    s.guarded p [p.spOperand c, more s p, p.spCanon c, p.spAlign c 32, p.spPlace s c 32]
      (let r := s.placeRead p c 32 .read
       let a := if Pass.inSp c then Pass.spOff c else c.toNat
       match r.2 with
       | .error e => (r.1.freeMon p.who).kFail p a e none
       | .ok w => match ringSlot w (p.k ks) with
         | none => (r.1.freeMon p.who).raise p (p.trapAt .illegal .ring p.em (BitVec.ofNat 64 a))
         | some q => f r.1 p q)
/-- The byte that holds a slot's phase bit, named as the control block is. -/
def ringByte (c : W64) (q : RingSlot) : W64 := c + BitVec.ofNat 64 q.byte
def execSrput (kr ks : Nat) (sc : Scope) (s : State) : Out :=
  ringOf s kr ks (fun s p => s.phaseFull p) fun s p q =>
    let c := ringByte (p.k kr) q
    let put (old : Nat) : Nat := if q.lam = 0 then (if bit1 old q.bit then old else old + 2 ^ q.bit)
      else (if bit1 old q.bit then old - 2 ^ q.bit else old)
    let writable := if Pass.inSp c then (s, Except.ok ()) else
      let r := s.homeRead p.origin c.toNat 1 .atomic
      (r.1, r.2.map fun _ => ())
    match writable.2 with
    | .error e => writable.1.kFail p c.toNat e none
    | .ok _ =>
      let r := (writable.1.releaseAll p sc.level).detRelease p sc.level
      let done (t : State) : State :=
        (t.setPlaceSync p c (some q.bit) { scope := sc.level, core := p.core, carry := r.2 }).endPass p
      if Pass.inSp c then
        let old := ((r.1.blk? p.bid).bind fun b => State.scratchRead b (Pass.spOff c) 1).getD 0
        done (r.1.scratchSet p.bid (Pass.spOff c) (leBytes 1 (put old)) p.writer)
      else
        let h := r.1.homeStep p.origin c.toNat 1 put
        match h.2 with
        | .error e => h.1.kFail p c.toNat e none
        | .ok _ => done h.1
def execSrwait (kr ks : Nat) (s : State) : Out :=
  ringOf s kr ks (fun _ _ => none) fun s p q =>
    let c := p.k kr
    let y := s.placeSync p (ringByte c q) (some q.bit)
    if p.repeated then s.endAcquire p (y.elim 4 (·.scope))
    else if q.state = 0 ∧ q.value = q.expected then
      s.acquireCarry p (State.relsOf y) (Pass.place c) c.toNat (y.elim 4 (·.scope)) fun s => s.endPass p
    else if Pass.inSp c then s.park p .srwait
    else watch s p c.toNat .srwait

/-! ### Decision queues (R40, R372) -/

def execDqpush (kv km : Nat) (s : State) : Out :=
  s.withPass fun p =>
    let s := s.switchPoint p
    s.guarded p [p.coachOnly, s.phaseFull p]
      (let m := (State.liveSkeins p.blk).foldl (fun m k => if (p.k km).getLsbD k.idx then m ||| laneBit k.idx else m) (0 : Lanes)
       if 16 ≤ p.blk.dq.length then s.park p .dqpush
       else
         let r := (s.releaseAll p 0).detRelease p 0
         let e : DqEnt := { value := p.k kv, mask := m, popped := 0, carry := r.2 }
         let s := if m = 0 then r.1 else (r.1.modBlk p.bid fun b => { b with dq := b.dq ++ [e] }).wake
         s.endPass p)
/-- The oldest entry meant for a skein that it has not popped. -/
def nextEntry (i : Nat) (l : List DqEnt) : Option DqEnt := l.find? fun e => e.mask.getLsbD i && !e.popped.getLsbD i
/-- The queue once a skein has popped its next entry; an entry popped by all it names is freed. -/
def popEntry (i : Nat) : List DqEnt → List DqEnt
  | [] => []
  | e :: l =>
    if e.mask.getLsbD i && !e.popped.getLsbD i then
      let e : DqEnt := { e with popped := e.popped ||| laneBit i }
      if e.mask &&& ~~~e.popped = 0 then l else e :: l
    else e :: popEntry i l
def execDqpop (kd : Nat) (s : State) : Out :=
  s.withPass fun p =>
    let s := s.switchPoint p
    s.guarded p [p.skeinOnly, p.untrapped]
      (match nextEntry p.ix p.blk.dq with
       | none => s.park p .dqpop
       | some e =>
         let s := s.modBlk p.bid fun b => { b with dq := popEntry p.ix b.dq }
         (s.wake).acquireCarry p e.carry.toList none 0 0 fun s => s.uniform p kd e.value)

/-! ### Task queues (R239-R242, R431) -/

structure TaskQ where
  entries : Nat
  cap : Nat
  head : Nat
  tail : Nat
  deriving DecidableEq, Repr

/-- The descriptor in its 64 bytes; none where a reserved field is set or CAP is no power of two from 1 to 65,536. -/
def taskQ (w : Nat) : Option TaskQ :=
  let cap := bitsOf w 95 64
  if w / 2 ^ 160 != 0 || !((List.range 17).any fun i => cap == 2 ^ i) then none
  else some { entries := w % 2 ^ 64, cap := cap, head := bitsOf w 127 96, tail := bitsOf w 159 128 }
/-- Where entry `i` lies (log 26: the array's address has its low five bits cleared). -/
def TaskQ.slot (q : TaskQ) (i : Nat) : Nat := q.entries / 32 * 32 + 32 * (i % q.cap)

namespace State

/-- The identifier of an issuer as one number (R22, R64): launch, block, skein and the arm's lowest lane that has not exited; a coach
instance stands before the skeins of its block. -/
def identOf (s : State) (w : Who) : Nat :=
  match w with
  | .skein b i a => (s.blk? b).elim 0 fun x =>
      (x.id.seq * 2 ^ 64 + x.id.idx) * 1024 + 1 + 32 * i + (x.skeins[i]?).elim 16 fun k => k.lowLane a
  | .coach b => (s.blk? b).elim 0 fun x => (x.id.seq * 2 ^ 64 + x.id.idx) * 1024
/-- The recording that a pass's launch replays (R284). -/
def replayOf (s : State) (p : Pass) : Option Rec := ((s.launch? p.blk.id.lid).bind (·.rec_)).filter (·.replay)
/-- An entry delivered to a skein of a recorded launch is noted with its receiver (R283). -/
def noteTask (s : State) (p : Pass) (w : Nat) : State :=
  let item := leBytes 32 w ++ leBytes 8 p.blk.id.idx ++ leBytes 1 p.ix ++ leBytes 23 0
  s.modLaunch p.blk.id.lid fun l =>
    { l with rec_ := l.rec_.map fun (c : Rec) => if c.replay then c else { c with tasks := c.tasks ++ [item] } }
/-- The next recorded entry of a receiver, as it is delivered in replay: KIND 2. -/
def recordedTask (c : Rec) (p : Pass) : Option (List Byte) :=
  c.tasks.find? fun b => leNat (slice b 32 8) == p.blk.id.idx && leNat (slice b 40 1) == p.ix
def takeTask (s : State) (p : Pass) (b : List Byte) : State :=
  s.modLaunch p.blk.id.lid fun l => { l with rec_ := l.rec_.map fun (c : Rec) => { c with tasks := c.tasks.erase b } }
/-- The four registers of a delivered entry. -/
def setEntry (s : State) (p : Pass) (d w : Nat) : State :=
  (List.range 4).foldl (fun s i => s.setK p (d + i) (BitVec.ofNat 64 (w / 2 ^ (64 * i) % 2 ^ 64))) s
/-- The entry at HEAD goes to the lowest-identifier waiter of the queue, as its `.rack` acquire. -/
def deliver (s : State) (c q : Nat) : State :=
  match leastBy (fun (e : Nat × Nat × Who) => s.identOf e.2.2) (s.mem.tqwait.filter fun e => e.1 == syncKey c q) with
  | none => s
  | some e =>
    match ({ s with cur := some e.2.2 } : State).pass? with
    | none => s
    | some p =>
      let r := s.homeRead p.origin q 64 .atomic
      match r.2.toOption.bind taskQ with
      | none => r.1
      | some t =>
        if t.head = t.tail then r.1
        else
          let v := r.1.homeRead p.origin (t.slot t.head) 32 .read
          match v.2 with
          | .error _ => v.1
          | .ok w =>
            let h := v.1.homeStep p.origin (q + 12) 4 fun _ => t.head + 1
            let s := { h.1 with mem := { h.1.mem with tqwait := h.1.mem.tqwait.erase e } }
            let s := (s.setEntry p e.2.1 w).noteTask p w
            let s := s.modArm p.bid p.ix p.ai fun a => { a with wait := none }
            (s.acquireAt p.core p.ctx 4).endAcquire p 4
/-- An entry is committed (R241): SEQ and TIME are the queue unit's; false when the queue is full. -/
def commit (s : State) (o : Origin) (q : Nat) (t : TaskQ) (w stamp : Nat) : State × Except (Fail × Nat) Unit :=
  let base := w % 2 ^ 32
  let flagged := if bit1 base 16 then base else base + 2 ^ 16
  let e := flagged + 2 ^ 32 * t.tail + 2 ^ 64 * (stamp % 2 ^ 64) + w / 2 ^ 128 * 2 ^ 128
  let a := t.slot t.tail
  let r : State × Except Fail Nat :=
    if noncanon a then (s, .error (.protection, .noncanon))
    else if !s.mapOk o.ctx a then (s, .error (.protection, .nohome))
    else s.homeStep o a 32 fun _ => e
  match r.2 with
  | .error f => (r.1, .error (f, t.slot t.tail))
  | .ok _ =>
    let h := r.1.homeStep o (q + 16) 4 fun _ => t.tail + 1
    match h.2 with
    | .error f => (h.1, .error (f, q))
    | .ok _ => (h.1.deliver o.ctx q, .ok ())

end State

/-- The descriptor read and checked, for both task-queue instructions. -/
def withTaskQ (s : State) (p : Pass) (q : Nat) (f : State → TaskQ → State) : State :=
  let r := s.homeRead p.origin q 64 .atomic
  match r.2 with
  | .error e => r.1.kFail p q e none
  | .ok w => match taskQ w with
    | none => r.1.raise p (p.trapAt .illegal .queue p.em (BitVec.ofNat 64 q))
    | some t => f r.1 t
def execTqpush (kq ke : Nat) (s : State) : Out :=
  s.withPass fun p =>
    let s := s.switchPoint p
    let q := (p.k kq).toNat
    let w := (List.range 4).foldl (fun n i => n + (p.k (ke + i)).toNat * 2 ^ (64 * i)) 0
    s.guarded p
      ([p.untrapped, whenBad (ke % 4 != 0) (p.ill .operand), whenBad (w % 2 ^ 16 != 0 || bitsOf w 23 17 != 0) (p.ill .queue),
        s.detInstr p] ++ p.kAddrChecks s q 64)
      (withTaskQ s p q fun s t =>
        if (t.tail + 2 ^ 32 - t.head) % 2 ^ 32 = t.cap then s.park p (.tqpush q)
        else
          let r := (s.releaseAll p 4).commit p.origin q t w s.time.ns
          match r.2 with
          | .error e => r.1.kFail p e.2 e.1 none
          | .ok _ => r.1.endPass p)
def execTqpop (kd kq : Nat) (s : State) : Out :=
  s.withPass fun p =>
    let s := s.switchPoint p
    let q := (p.k kq).toNat
    s.guarded p
      ([p.untrapped, whenBad (kd % 4 != 0) (p.ill .operand), p.skeinOnly, s.detInstr p] ++ p.kAddrChecks s q 64)
      (withTaskQ s p q fun s t =>
        let key := State.syncKey p.ctx q
        let lower := s.mem.tqwait.any fun e => e.1 == key && decide (s.identOf e.2.2 < s.identOf p.who)
        match s.replayOf p with
        | some c => match State.recordedTask c p with
          | none => s.raise p (p.trap .detIllegal .replay)
          | some b =>
            let s := if t.head = t.tail then s else (s.homeStep p.origin (q + 12) 4 fun _ => t.head + 1).1
            (((s.takeTask p b).setEntry p kd (leNat (b.take 32) / 65536 * 65536 + 2)).acquireAt p.core p.ctx 4).endAcquire p 4
        | none =>
        if t.head = t.tail || lower then
          let l := s.mem.tqwait.filter fun e => e.2.2 != p.who
          ({ s with mem := { s.mem with tqwait := l ++ [(key, kd, p.who)] } }).park p (.tqpop q)
        else
          let r := s.homeRead p.origin (t.slot t.head) 32 .read
          match r.2 with
          | .error e => r.1.kFail p (t.slot t.head) e none
          | .ok w =>
            let h := r.1.homeStep p.origin (q + 12) 4 fun _ => t.head + 1
            let s := (h.1.setEntry p kd w).noteTask p w
            (s.acquireAt p.core p.ctx 4).endAcquire p 4)

/-! ### Tier prefetch (R235, R416) -/

/-- A line fetched into a tier that its policy lets it enter; a reader-count line stays where it is (R174). -/
def prefTake (s : State) (p : Pass) (tier a : Nat) : State :=
  let r := s.readBelow p.origin a .read 0 false
  match r.2 with
  | .error _ => r.1
  | .ok v =>
    if tier != 0 || v.home.elim false (fun h => r.1.readerCount h != 0) then r.1
    else v.line.elim r.1 fun l => r.1.allocL1 p.core p.ctx { l with data := v.data }
/-- One line fetched into a tier, or skipped: its request goes out, and a line that is poisoned or whose policy forbids the tier enters no
cache. -/
def prefLine (s : State) (p : Pass) (tier a : Nat) : State :=
  let past (cache : Nat) (bad : ByteMask) : Bool :=
    bad != 0 || (if tier = 0 then State.policyPast (State.policy cache 0) else State.policy cache 0 == 3)
  if noncanon a || !s.mapOk p.ctx a || (tier == 0 && (State.lineIn (s.core p.core).l1 p.ctx a).isSome) then s
  else
    let tray := s.homeTray p.ctx a
    let slice := if State.trayOf p.core = tray then none else State.lineIn (s.tray tray).slices p.ctx a
    match (State.lineIn (s.die (State.dieOf p.core)).rdc p.ctx a).or slice with
    | some l => if past l.cache l.bad then s else prefTake s p tier a
    | none =>
      let r := (s.passSwitch p.origin a).request p.ctx (State.lineVa a) .read
      match r.2 with
      | .error _ => r.1
      | .ok h => if past (leafCache h.entry) (r.1.homeLine h).2 then r.1 else prefTake s p tier a
def execPref (cnt kb vx tier bo : Nat) (bound : Bool) (s : State) : Out :=
  s.withPass fun p =>
    let s := s.switchPoint p
    let obj := (p.k bo).toNat
    let live := bound && p.act != 0
    let go (s : State) : State :=
      let s := p.lanes.foldl (fun s l =>
        (List.range (cnt + 1)).foldl (fun s i =>
          prefLine s p tier ((State.lineVa (msAddr p kb vx l) + 128 * i) % 2 ^ 64)) s) s
      let s := if bound && p.gathered != 0 && p.gatherEnds then
          s.modCore p.core fun c => { c with prefs := c.prefs ++ [{ bid := p.bid, sk := p.ix, arm := p.ai, obj := obj }] }
        else s
      s.endPass p
    s.laneGuarded p
      ([p.laneRole] ++ msRegs p kb vx ++ [if live then s.phaseFull p else none] ++ (if live then p.kAddrChecks s obj 32 else []))
      (if live then withArrival s p obj fun s _ => go s else go s)

end Sys2Proof.Machine
end

