-- ==== Sys2Proof/Machine/Special.lean ====
section
/-! DEFINITION. The special registers (03 R77, R88-R90; 11 R283, R284; 18 R426) and the loading of algebra slots (05 R153;
16 R355). -/

namespace Sys2Proof.Machine

/-! ### `SREAD` and `SWRITE` (R88, R89, R426) -/

/-- Class L registers: one value per lane. -/
def isLaneSpecial (num : Nat) : Bool := num == 0x00 || num == 0x01 || num == 0x09
/-- The value of a class L register in a lane. -/
def laneSpecial (p : Pass) (num l : Nat) : Nat :=
  match num with
  | 0x00 => l
  | 0x01 => quadOf l
  | _ => p.sk.plane l
/-- Grid dimensions X, Y, Z of the block's launch. -/
def gridDims (s : State) (lid : Nat) : Nat × Nat × Nat :=
  match s.launch? lid with
  | none => (1, 1, 1)
  | some l => (natAt l.packet 32 4, natAt l.packet 36 2, natAt l.packet 38 2)
/-- The value of a class U register; those that belong to a skein read as R89 states in a coach instance. -/
def uniformSpecial (s : State) (p : Pass) (num : Nat) : Nat :=
  let d := gridDims s p.blk.id.lid
  let own (v : Nat) : Nat := if p.coach then 0 else v
  match num with
  | 0x02 => if p.coach then 16 else p.sk.idx
  | 0x03 => p.blk.id.idx % d.1
  | 0x04 => p.blk.id.idx / d.1 % d.2.1
  | 0x05 => p.blk.id.idx / d.1 / d.2.1
  | 0x06 => d.1
  | 0x07 => d.2.1
  | 0x08 => d.2.2
  | 0x0A => p.blk.id.seq
  | 0x0B => p.ctx
  | 0x0C => State.locOf p.core
  | 0x0D => s.time.ns
  | 0x0E => s.time.clk
  | 0x0F => s.feat
  | 0x10 => Config.gen
  | 0x11 => own p.sk.r.status.toNat
  | 0x12 => own p.sk.win.base
  | 0x13 => own p.sk.win.spill
  | 0x14 => own p.sk.win.allot
  | 0x15 => own p.sk.win.reach
  | 0x16 => p.blk.ntiles
  | _ => p.role

/-- The registers a recording captures, as it numbers them (R283). -/
def recordedReg (num : Nat) : Option Nat :=
  if num = 0x0D then some 0 else if num = 0x0A then some 1 else if num = 0x0B then some 2 else none
def ordOf (p : Pass) : NMap Nat := if p.coach then p.co.ord else p.sk.x.ord
/-- The next read of a recorded register. -/
def countOrd (s : State) (p : Pass) (r : Nat) : State :=
  let f (m : NMap Nat) : NMap Nat := mapSet m r (mapGetD m r 0 + 1)
  if p.coach then s.modCoach p.bid fun c => { c with ord := f c.ord }
  else s.modSk p.bid p.ix fun k => { k with x := { k.x with ord := f k.x.ord } }
/-- The value a read of a uniform register gives: in replay the recorded one, none where the recording holds none (R284). -/
def sampled (s : State) (p : Pass) (num : Nat) : Option Nat :=
  let v := uniformSpecial s p num
  match recordedReg num, (s.launch? p.blk.id.lid).bind (·.rec_) with
  | some r, some c =>
    if c.replay then
      (c.times.find? fun t => t.1 == p.blk.id.idx && t.2.1 == p.ix && t.2.2.1 == r && t.2.2.2.1 == mapGetD (ordOf p) r 0).map
        (·.2.2.2.2)
    else some v
  | _, _ => some v
/-- The read counted, and noted where the launch is recorded. -/
def noteSample (s : State) (p : Pass) (num v : Nat) : State :=
  match recordedReg num with
  | none => s
  | some r =>
    let item := (p.blk.id.idx, p.ix, r, mapGetD (ordOf p) r 0, v)
    let add (c : Rec) : Rec := if c.replay then c else { c with times := c.times ++ [item] }
    (countOrd s p r).modLaunch p.blk.id.lid fun l => { l with rec_ := l.rec_.map add }

def execSread (reg : Nat) (toK : Bool) (num : Nat) (s : State) : Out :=
  s.withPass fun p =>
    let v := if isLaneSpecial num then some 0 else sampled s p num
    s.guarded p
      [whenBad (p.coach && !toK) (p.ill .role), whenBad (toK && isLaneSpecial num) (p.ill .operand),
        if toK then none else p.reg reg 1,
        whenBad (s.isDet p && (num == 0x0E || num == 0x0C)) (p.trap .detIllegal .instr),
        whenBad v.isNone (p.trap .detIllegal .replay)]
      (let v := v.getD 0
       let s := noteSample s p num v
       if toK then s.uniform p reg (BitVec.ofNat 64 v)
       else
         (s.modSk p.bid p.ix fun k =>
           k.setVs reg p.lanes fun l => BitVec.ofNat 32 (if isLaneSpecial num then laneSpecial p num l else v)).endPass p)

/-- The spill depth changes (R77): registers that lowering it makes resident hold unspecified values. -/
def Skein.setSpill (k : Skein) (n free : Nat) : Skein :=
  let old := k.win.spill
  let k := { k with win := { k.win with spill := n } }
  (List.range (old - n)).foldl (fun k i =>
    (List.range 16).foldl (fun k l => k.setLogical (n + i) l (Config.freeWord (free + 16 * i + l))) k) k
def execSwrite (reg : Nat) (fromK : Bool) (num : Nat) (s : State) : Out :=
  s.withPass fun p =>
    let w : Option W64 := if fromK then some (p.k reg) else (lowestLane p.act).map fun l => (p.sk.v reg l).setWidth 64
    let bad := match w with
      | some w => num == 0x13 && (w.toNat % 8 != 0 || decide (p.sk.win.base < w.toNat))
      | none => false
    s.guarded p
      [if fromK || p.coach then none else p.reg reg 1, whenBad (num != 0x11 && !(num == 0x13 && p.trapMode)) (p.ill .operand),
        whenBad bad (p.ill .operand)]
      (match w, p.coach with
       | some w, false =>
         if num = 0x11 then
           (s.modSk p.bid p.ix fun k => { k with r := { k.r with status := clearStatus k.r.status w } }).endPass p
         else
           ((s.modSk p.bid p.ix fun k => k.setSpill w.toNat s.fresh.free).takeFree (16 * (p.sk.win.spill - w.toNat))).endPass p
       | _, _ => s.endPass p)

/-! ### `ATAB` (R153, R355) -/

def execAtab (slot ka : Nat) (s : State) : Out :=
  s.withPass fun p =>
    let a := (p.k ka).toNat
    s.guarded p ([whenBad (!bit1 s.feat 3) (p.trap .unitAbsent .none), s.shadowFull p [0] (fun _ => a) 128] ++ p.kAddrChecks s a 128)
      (kDet s p a 128 0 fun s =>
        let r := s.kRead p a 128 0
        match r.2 with
        | .error f => r.1.kFail p a f none
        | .ok v =>
          let t := (leBytes 128 v).map (·.toNat)
          if tableOk t then (r.1.modCore p.core fun c => { c with slots := mapSet c.slots slot t }).endPass p
          else r.1.raise p (p.trap .algebraTable .none))
def execAtabDefault (slot : Nat) (s : State) : Out :=
  s.withPass fun p => (s.modCore p.core fun c => { c with slots := mapErase c.slots slot }).endPass p

end Sys2Proof.Machine
end

