-- ==== Sys2Proof/Machine/EngineCmd.lean ====
section
/-! DEFINITION. Resource grants, role switching, accumulator tiles as lanes see them and the issue of engine commands and copies
(01 R37, R44, R45; 03 R78, R86, R87; 09 R223, R229, R238; 16 R348-R352, R370; 17 R384, R385, R404; 18 R422). -/

namespace Sys2Proof.Machine

/-! ### Completion counters incremented by an engine (R210, R211, R348) -/

namespace State

/-- FAULT kept, the count one higher modulo 2^31; or FAULT set. -/
def countedWord (w : Nat) (fault : Bool) : Nat :=
  if fault then (if bit1 w 31 then w else w + 2 ^ 31) else w / 2 ^ 31 * 2 ^ 31 + (w + 1) % 2 ^ 31
/-- What a counter remembers of its increments: the widest scope since a store, the clocks together. -/
def widen (y : Option Sync) (core sc : Nat) (c : Option Carry) : Sync :=
  { Sync.add y core (max ((y.filter (·.counted)).elim 0 (·.scope)) sc) c with counted := true }
/-- The increment of a command's or copy's counter, a release at scope `sc`: a translation fault waits for the driver; another
failure drops it with an error record. The setting of FAULT waits likewise (R230). A counter in scratchpad is not checked against the
window's shadow (log 115). -/
def countDone (s : State) (p : Pass) (num : Nat) (isCopy : Bool) (kc : W64) (sc : Nat) (c : Option Carry) (fault : Bool) : State :=
  let y := s.placeSync p kc none
  let c := c.map fun (x : Carry) => { x with core := p.core, scope := sc }
  let kind := if isCopy then 0x10 else 0x0C
  let lost (s : State) (u : Cause) : State :=
    s.report (some p.ctx) false
      (recordBytes (if isCopy then 0x41 else 0x0C) u.code (2 + p.coach.toNat) p.off s.time.ns p.blk.id.seq p.ix p.blk.id.idx 0
        (locOf p.core) num kc.toNat 0 0)
  let s := s.wake
  if Pass.inSp kc then
    match (s.blk? p.bid).bind fun b => scratchRead b (Pass.spOff kc) 4 with
    | none => lost s .poisoned
    | some w =>
      (s.scratchSet p.bid (Pass.spOff kc) (leBytes 4 (countedWord w fault))).setPlaceSync p kc none (widen y p.core sc c)
  else if !s.mapOk p.ctx kc.toNat then lost s .nohome
  else
    let r := s.homeStep p.origin kc.toNat 4 fun w => countedWord w fault
    match r.2 with
    | .ok _ => r.1.setPlaceSync p kc none (widen y p.core sc c)
    | .error (.pageFault, u) =>
      let t := r.1.report (some p.ctx) true
        (recordBytes kind u.code (2 + p.coach.toNat) p.off s.time.ns p.blk.id.seq p.ix p.blk.id.idx 0 (locOf p.core) num kc.toNat 0 0)
      let x : IncWait := { bid := p.bid, num := num, isCopy := isCopy, kc := kc, who := p.ix, arm := p.ai, off := p.off, sc := sc, det := c, fault := fault }
      t.modCore p.core fun y => { y with incs := y.incs ++ [x] }
    | .error (_, u) => lost r.1 u

/-! ### Resource grants (R44, R45, R78, R384) -/

end State

/-- Lane registers of a skein that its core counts as held. -/
def heldRegs (k : Skein) : Nat := if k.x.evict.isSome || k.life == .retired then 0 else k.win.allot
/-- The registers re-laid under a new allotment: logical contents unchanged, newly resident registers 0. -/
def Skein.relay (k : Skein) (a : Nat) : Skein :=
  let keep := min k.win.allot a
  let cells := (List.range keep).foldl (fun m i =>
    (List.range 16).foldl (fun m l =>
      mapSet m ((k.win.spill + i) % a * 16 + l) (k.logical (k.win.spill + i) l)) m) ([] : NMap W32)
  { k with win := { k.win with allot := a }, r := { k.r with lanes := cells } }

namespace State

def blocksOn (s : State) (g : Nat) : List Block := (mapVals s.blocks).filter fun b => b.id.core == g
/-- A `.span 1` block claims the matrix array and the accumulator memory of core 2n + 1 (R34). -/
def claimed (s : State) (g : Nat) : Bool := g % 2 == 1 && (s.blocksOn (g - 1)).any fun b => b.id.span == 1
def freeTiles (s : State) (g : Nat) : Nat :=
  if s.claimed g then 0 else Config.tilesPerCore - ((s.blocksOn g).foldl (fun n b => n + (b.ntiles - b.evicted)) 0)
def freeRegs (s : State) (g : Nat) : Nat :=
  Config.regRows - ((s.blocksOn g).foldl (fun n b => b.skeins.foldl (fun n k => n + heldRegs k) n) 0)
/-- Registers are allotted in rows of sixteen lanes: a request of `n` registers per lane takes `n` rows. -/
def freeOf (s : State) (g : Nat) (tiles : Bool) : Nat := if tiles then s.freeTiles g else s.freeRegs g
/-- The rank of a request: the coach instance's tile requests before those of its block's skeins. -/
def rankOf (s : State) (q : Grant) : Nat := s.identOf q.who
def lowestGrant (s : State) (g : Nat) (tiles : Bool) : Option Grant :=
  leastBy s.rankOf ((s.core g).grants.filter fun q => q.tiles == tiles)
/-- An issuer parked at its `GROW` goes on past it. -/
def unpark (s : State) (w : Who) : State :=
  match w with
  | .skein b i a =>
    match (s.arm? b i a).bind (·.wait), ({ s with cur := some w } : State).pass? with
    | some (.grow _ _), some p => (s.modArm b i a fun x => { x with wait := none }).endPass p
    | _, _ => s
  | .coach b => s.modCoach b fun c => match c.wait with
    | some (.grow _ _) => { c with wait := none, off := c.off + c.len }
    | _ => c
/-- The amount a parked issuer's own `GROW` asks for. -/
def askedBy (s : State) (w : Who) (tiles : Bool) : Nat :=
  let f : Option Wait → Nat := fun
    | some (.grow t n) => if t = tiles then n else 0
    | _ => 0
  match w with
  | .skein b i a => (s.arm? b i a).elim 0 fun x => f x.wait
  | .coach b => ((s.blk? b).bind (·.coach)).elim 0 fun c => f c.wait
/-- Commands that ran on a block's evicted tiles run again, as from now (R298). -/
def restartCmds (s : State) (g bid : Nat) : State :=
  s.modCore g fun c => { c with mq := c.mq.map fun (m : MCmd) => if m.bid = bid ∧ m.state = 1 then { m with since := s.time.ns } else m }
/-- A request granted: what was evicted returns with the request that carries it, what was asked for is added. -/
def grant (s : State) (g : Nat) (q : Grant) : State :=
  let s := s.modCore g fun c => { c with grants := c.grants.erase q }
  let n := if q.parked then s.askedBy q.who q.tiles else 0
  let back (k : Skein) : Skein := { k with life := if k.life = .saved then .live else k.life, x := { k.x with evict := none } }
  let s :=
    if q.tiles then
      (s.restartCmds g q.bid).modBlk q.bid fun b =>
        { b with ntiles := b.ntiles + n, evicted := b.evicted - q.back, tiles := b.tiles.filter fun e => decide (e.1 < b.ntiles) }
    else
      (s.modBlk q.bid fun b => { b with skeins := b.skeins.map fun (k : Skein) => if k.x.evict.isSome && q.back != 0 then back k else k }).modSk
        q.bid q.sk fun k => if n = 0 then k else k.relay (k.win.allot + n)
  (if q.parked then s.unpark q.who else s).wake
/-- The procedure of R45 as far as free resources go; the event RESOURCE_EVICTION evicts. -/
def runGrants : Nat → State → Nat → Bool → State
  | 0, s, _, _ => s
  | f + 1, s, g, tiles =>
    match s.lowestGrant g tiles with
    | none => s
    | some q => if q.amount ≤ s.freeOf g tiles then runGrants f (s.grant g q) g tiles else s
/-- After a request or a release: both kinds. -/
def settleGrants (s : State) (g : Nat) : State := runGrants 64 (runGrants 64 s g false) g true
/-- After blocks have left a core: a `.span 1` claim that ends frees the tiles of the next core too (R34). -/
def settleLeft (s : State) (g : Nat) (claims : Bool) : State :=
  let s := s.settleGrants g
  if claims then s.settleGrants (g + 1) else s

end State

def growOf (s : State) (tiles : Bool) (n : Nat) : Out :=
  s.withPass fun p =>
    let s := s.switchPoint p
    let amount := if tiles then n else 8 * n
    let checks := if tiles then [p.untrapped, whenBad (n == 0 || decide (16 < p.blk.ntiles + n)) (p.ill .operand)]
      else [p.untrapped, whenBad (n == 0) (p.ill .operand), p.skeinOnly, p.oneArm,
            whenBad (decide (30 < n) || decide (256 < p.sk.win.allot + amount)) (p.ill .operand)]
    s.guarded p checks
      (let q : Grant := { who := p.who, bid := p.bid, sk := p.ix, tiles := tiles, amount := amount, parked := true }
       ((s.modCore p.core fun c => { c with grants := c.grants ++ [q] }).park p (.grow tiles amount)).settleGrants p.core)
def execGrowRegs (n : Nat) (s : State) : Out := growOf s false n
def execGrowTiles (n : Nat) (s : State) : Out := growOf s true n
def execShrinkRegs (n : Nat) (s : State) : Out :=
  s.withPass fun p =>
    let s := s.switchPoint p
    let w := p.sk.win
    s.guarded p
      [p.untrapped, p.skeinOnly, p.oneArm, whenBad (n == 0 || decide (30 < n) || decide (w.allot < 16 + 8 * n)) (p.ill .operand),
        whenBad (decide (w.allot - 8 * n < w.base + w.reach - w.spill)) (p.trap .windowOverflow .none)]
      (((s.modSk p.bid p.ix fun k => k.relay (w.allot - 8 * n)).endPass p).settleGrants p.core)

namespace State

/-- A hold at an instruction that looks again when something changes. -/
def holdHere (s : State) (p : Pass) : State :=
  if p.coach then s.modCoach p.bid fun c => { c with hold := some (2 ^ 32), seen := s.mem.writes }
  else s.modArm p.bid p.ix p.ai fun a => { a with hold := some (2 ^ 32), seen := s.mem.writes }
/-- The issuer of an `ACCSWAP` is held no more; its arm may stand set aside in trap mode. -/
def endSwap (s : State) (m : MCmd) : State :=
  let free (a : Arm) : Arm := if a.hold = some m.num then { a with hold := none } else a
  if m.who = 16 then s.modCoach m.bid fun c => if c.hold = some m.num then { c with hold := none } else c
  else s.modSk m.bid m.who fun k =>
    { k with arms := k.arms.map free, frame := k.frame.map fun f => { f with arms := f.arms.map free } }
/-- A trap at the `ACCSWAP` an issuer is held by: its hold ends. The trap of an arm that is set aside waits for the `TRET` (R293). -/
def trapSwap (s : State) (m : MCmd) (t : Trap) : State :=
  match s.blk? m.bid with
  | none => s
  | some b =>
    if m.who = 16 then (s.endSwap m).modCoach m.bid fun c => { c with held := some { t with off := some m.off } }
    else
      match s.sk? m.bid m.who with
      | none => s.endSwap m
      | some k =>
        let own := k.arms.any fun a => a.hold == some m.num
        let s := s.endSwap m
        let arm := if k.trapMode && !own then k.frame.elim Arm.idle fun f => (f.arms[m.arm]?).getD Arm.idle else k.arm m.arm
        let lanes := arm.path.elim 0 (·.lanes)
        let m0 := if k.trapMode && !own then k.frame.elim 0 (·.m0) else k.mask 0
        let t : Trap := { t with mask := m0 &&& lanes }
        if k.trapMode && !own then
          s.modSk m.bid m.who fun k =>
            { k with x := { k.x with pend := k.x.pend ++ [{ trap := t, cls := 0, coach := false, arm := m.arm, plane := m.slot, off := m.off }] } }
        else s.trapSkein b m.who k t m.slot 0 m.arm m.off false (m0 &&& lanes) lanes
/-- A matrix command or swap named by block and number leaves the queue; an issuer parked on a full queue looks again (R223). -/
def dropCmd (s : State) (g : Nat) (m : MCmd) : State :=
  (s.modCore g fun c => { c with mq := c.mq.filter fun x => !(x.bid == m.bid && x.num == m.num) }).wake
/-- A command retires: it leaves the queue and increments its counter as a release at `.die`. -/
def retireCmd (s : State) (g : Nat) (m : MCmd) : State :=
  match s.agent m.bid m.who m.arm m.off with
  | none => s.dropCmd g m
  | some p => (s.dropCmd g m).countDone p m.num false m.kc 1 m.det false

end State

def execShrinkTiles (n : Nat) (s : State) : Out :=
  s.withPass fun p =>
    let s := s.switchPoint p
    let lo := p.blk.ntiles - n
    let mine (m : MCmd) : Bool := m.bid == p.bid && decide (lo ≤ m.tile)
    let cores := [p.core] ++ (p.blk.id.partner.bind s.blk?).elim [] fun b => [b.id.core]
    let span := cores.any fun g => (s.core g).mq.any fun m =>
      m.span && decide (lo ≤ m.tile) && (m.bid == p.bid || p.blk.id.partner == some m.bid)
    s.guarded p [p.untrapped, whenBad (n == 0 || decide (p.blk.ntiles < n)) (p.ill .operand)]
      (if span then s.holdHere p
       else
         let gone := (s.core p.core).mq.filter mine
         let s := s.modBlk p.bid fun b =>
           { b with ntiles := lo, evicted := min b.evicted lo, tiles := b.tiles.filter fun e => decide (e.1 < lo) }
         let back : Trap := { p.trap .engineFault .tileReturned with next := true }
         let s := gone.foldl (fun s m =>
           if m.kind = 2 then
             ((s.dropCmd p.core m).trapSwap m { back with mask := 0 })
           else s.retireCmd p.core m) s
         let s := s.settleGrants p.core
         match leastBy (·.num) (gone.filter fun m => m.kind != 2) with
         | none => s.endPass p
         | some m => s.raise { p with sk := (s.sk? p.bid p.ix).getD p.sk } { back with aux := BitVec.ofNat 32 m.num })

/-! ### `RSWITCH` (R238, R422) -/

def execRswitch (role : Nat) (s : State) : Out :=
  s.withPass fun p =>
    let s := s.switchPoint p
    s.guarded p [p.skeinOnly, p.untrapped, p.converged]
      (let c := s.core p.core
       let busy := (c.copies.any fun x => x.bid == p.bid && x.who == p.ix)
         || (c.incs.any fun x => x.bid == p.bid && x.who == p.ix && x.isCopy)
        || c.mq.any fun m => m.bid == p.bid && m.who == p.ix && m.kind != 2
       if busy then s.holdHere p
       else if p.sk.win.allot < p.sk.win.reach then s.raise p (p.trap .windowOverflow .none)
       else
         let t := (s.launch? p.blk.id.lid).elim 0 fun l => natAt l.packet (52 + 4 * role) 4
         s.withTarget p t fun s =>
           let s := s.modSk p.bid p.ix fun k =>
             { k with role := role, win := { k.win with base := 64 * role, spill := 64 * role }, r := { k.r with planes := [] } }
           moveWindow s p (64 * role) t)

/-! ### `ACCRD`, `ACCWR` (R349, R351) -/

def tileOk (p : Pass) (t : Nat) : Option Trap := whenBad (decide (p.blk.ntiles ≤ t)) (p.ill .operand)
def tileWord (p : Pass) (w : Src) (l : Nat) : Nat := (p.val32 w l).toNat
def wordChecks (p : Pass) (w : Src) : Option Trap :=
  p.laneCheck .misaligned .none (tileWord p w) fun l => decide (16384 ≤ tileWord p w l)
def execAccrd (d : Nat) (k : Bool) (t : Nat) (w : Src) (s : State) : Out :=
  s.withPass fun p =>
    s.laneGuarded p [p.laneRole, tileOk p t, p.dest k d 1, p.srcReg w 1, p.fresh w, wordChecks p w]
      (let tile := mapGetD p.blk.tiles t Tile.zero
       let bad (l : Nat) : Bool := tile.pVis.contains (tileWord p w l)
       let ls := p.lanes.filter fun l => !bad l
       let f (l : Nat) : W32 := mapGetD tile.vis (tileWord p w l) 0
       let fails := (p.lanes.filter bad).map fun l => p.failAt (fun l => tileWord p w l) l (.poison, .none)
       let s := (s.modSk p.bid p.ix fun x =>
         (if k then x else x.setVs d ls f).pushLatch p.ai s.fresh.free ls fun l => (f l).setWidth 64).takeFree 16
       (s.noteFails p fails).endPass p)
def execAccwr (t : Nat) (w a : Src) (s : State) : Out :=
  s.withPass fun p =>
    s.laneGuarded p [p.laneRole, tileOk p t, p.srcReg w 1, p.srcReg a 1, p.fresh w, p.fresh a, wordChecks p w]
      ((s.modBlk p.bid fun b =>
          let tile := mapGetD b.tiles t Tile.zero
          let tile := p.lanes.foldl (fun (x : Tile) l =>
            { x with vis := mapSet x.vis (tileWord p w l) (p.val32 a l), pVis := x.pVis.filter (· != tileWord p w l) }) tile
          { b with tiles := mapSet b.tiles t tile }).endPass p)

/-! ### Matrix commands at issue (R223, R350, R352, R404) -/

/-- The clock a command carries: its scratchpad accesses and its counter's acquirers see the issuer at issue. -/
def carryHere (s : State) (p : Pass) : Option Carry := if s.isDet p then some (s.carryOf p 1) else none
/-- A command joins the queue with the block's next number. -/
def queueCmd (s : State) (p : Pass) (kind tile slot fl : Nat) (span : Bool) (ka kb kc : W64) (table : List Nat) : State :=
  let m : MCmd := { bid := p.bid, num := p.blk.ncmd % 2 ^ 16, kind := kind, tile := tile, slot := slot, fl := fl, span := span,
                    who := p.ix, arm := p.ai, off := p.off, ka := ka, kb := kb, kc := kc, state := 0, prog := 0, table := table, seq := p.marks.fence, mine := p.marks.mine,
                    det := carryHere s p }
  (s.modBlk p.bid fun b => { b with ncmd := b.ncmd + 1 }).modCore p.core fun c => { c with mq := c.mq ++ [m] }
def queueFull (s : State) (p : Pass) (resets : Bool) : Bool :=
  decide (64 ≤ (s.core p.core).mq.length) || (resets && (s.core p.core).reset.isSome)
def execAccz (t kc : Nat) (s : State) : Out :=
  s.withPass fun p =>
    let s := s.switchPoint p
    s.guarded p ([p.roleOrCoach 2, tileOk p t] ++ p.counterChecks s (p.k kc))
      (if queueFull s p true then s.park p .mqueue else (queueCmd s p 1 t 0 0 false 0 0 (p.k kc) []).endPass p)
/-- `ACCSWAP`: a swap entry joins the queue and the issuer is held until it is done. -/
def execAccswap (t : Nat) (s : State) : Out :=
  s.withPass fun p =>
    let s := s.switchPoint p
    s.guarded p [tileOk p t]
      (if queueFull s p false then s.park p .mqueue
       else
         let s := (queueCmd s p 2 t p.plane 0 false 0 0 0 []).endPass p
         let n := p.blk.ncmd % 2 ^ 16
         if p.coach then s.modCoach p.bid fun c => { c with hold := some n }
         else s.modArm p.bid p.ix p.ai fun a => { a with hold := some n })
/-- The address of the record a register names. -/
def recordVa (r : W64) : Nat := r.toNat / 128 * 128
/-- One relaxed K-class read of a record field, then what follows. -/
def kField (s : State) (p : Pass) (a n : Nat) (f : State → Nat → State) : State :=
  s.guarded p [p.kCheck .protection .nohome a (!s.mapOk p.ctx a)]
    (kDet s p a n 0 fun s =>
      let r := s.kRead p a n 0
      match r.2 with
      | .error e => r.1.kFail p a e none
      | .ok v => f r.1 v)
def execMma (kab : Nat) (span : Bool) (tile slot fl kc : Nat) (s : State) : Out :=
  s.withPass fun p =>
    let s := s.switchPoint p
    let a := p.k kab
    let b := p.k (kab + 1)
    let high (r : W64) : Bool := bitsOf r.toNat 63 57 != 0
    let go (s : State) : State :=
      if queueFull s p true then s.park p .mqueue
      else (queueCmd s p 0 tile slot fl span a b (p.k kc) ((s.core p.core).slot slot)).endPass p
    s.guarded p
      ([p.roleOrCoach 2, whenBad (kab % 2 != 0) (p.ill .operand), tileOk p tile, whenBad (span && p.blk.id.span != 2) (p.ill .span),
        whenBad (high a || high b) (p.ill .operand),
        if bit1 s.feat 1 then none else s.shadowFull p [0, 1] (fun i => recordVa (if i = 0 then a else b) + 24) 1] ++ p.counterChecks s (p.k kc)
       ++ (if bit1 s.feat 1 then [] else [a, b].map fun r =>
            p.kCheck .protection .nohome (recordVa r + 24) (!s.mapOk p.ctx (recordVa r + 24))))
      (if bit1 s.feat 1 then go s
       else
         kField s p (recordVa a + 24) 1 fun s x => kField s p (recordVa b + 24) 1 fun s y =>
           if x % 16 == 0 || y % 16 == 0 then s.raise p (p.trap .unitAbsent .none) else go s)

/-! ### `DCOPY` at issue (R229, R370) -/

def execDcopy (kc ks kx : Nat) (s : State) : Out :=
  s.withPass fun p =>
    let s := s.switchPoint p
    let r := p.k ks
    let x := p.k kx
    let a := recordVa r
    s.guarded p
      ([p.roleOrCoach 1, whenBad (bitsOf r.toNat 63 57 != 0 || x.getLsbD 63) (p.ill .operand),
          p.spOperand (p.k kc), s.phaseFull p, s.shadowFull p [0, 1] (fun i => a + 128 * i) 8] ++ p.counterChecks s (p.k kc)
        ++ [p.kCheck .protection .nohome a (!s.mapOk p.ctx a), p.kCheck .protection .nohome (a + 128) (!s.mapOk p.ctx (a + 128))])
      (kField s p a 8 fun s src => kField s p (a + 128) 8 fun s dst =>
        if bit1 src 62 && !bit1 s.feat 2 then s.raise p (p.trap .unitAbsent .none)
        else if 96 ≤ (s.core p.core).copies.length then s.park p .copyLimit
        else
          let q := (s.releaseAll p (max 1 (min 4 (bitsOf dst 60 58)))).detRelease p (max 1 (min 4 (bitsOf dst 60 58)))
          let y : Copy := { bid := p.bid, num := p.blk.ncopy % 2 ^ 32, ks := r, kx := x, kc := p.k kc, who := p.ix, off := p.off, state := 0,
                            prog := 0, seq := (q.1.ctx? p.ctx).elim 0 (·.stores), abort := false, det := q.2 }
          ((q.1.modBlk p.bid fun b => { b with ncopy := b.ncopy + 1 }).modCore p.core fun c => { c with copies := c.copies ++ [y] }).endPass p)

end Sys2Proof.Machine
end

