-- ==== Sys2Proof/Machine/Matrix.lean ====
section
/-! DEFINITION. Shape records and the arithmetic of the matrix engine (00 R12; 05 R133-R145, R155-R157; 09 R218-R226). -/

namespace Sys2Proof.Machine

/-! ### Shape records (R218, R219) -/

structure Shape where
  base : Nat
  sp : Bool
  nl : Bool
  scope : Nat
  rows : Nat
  cols : Nat
  stride : Nat
  fmt : Nat
  planar : Bool
  d : Nat
  tid : Nat
  slots : Nat
  slotb : Nat
  codebook : Nat
  scales : Nat
  clean : Bool
  deriving DecidableEq, Repr

/-- The record in its 128 bytes. `clean`: every reserved field is zero and every value is one the layout gives. -/
def shapeOf (w : Nat) : Shape :=
  let alg := bitsOf w 215 208
  let sp := bit1 w 63
  { base := if sp then w % 2 ^ 20 else w % 2 ^ 57, sp := sp, nl := bit1 w 62, scope := bitsOf w 60 58, rows := bitsOf w 95 64,
    cols := bitsOf w 127 96, stride := bitsOf w 191 128, fmt := bitsOf w 195 192, planar := bitsOf w 207 200 == 1,
    d := if alg = 0 then 1 else alg, tid := bitsOf w 239 224, slots := bitsOf w 255 240, slotb := bitsOf w 287 256,
    codebook := bitsOf w 383 320, scales := bitsOf w 447 384
    clean := !bit1 w 61 && !bit1 w 57 && (!sp || bitsOf w 56 20 == 0) && bitsOf w 95 64 != 0 && bitsOf w 127 96 != 0
      && bitsOf w 199 196 == 0 && decide (bitsOf w 207 200 < 2) && [0, 1, 2, 4, 8].contains alg && bitsOf w 223 216 == 0
      && decide (bitsOf w 255 240 ≤ 64) && bitsOf w 287 256 % 128 == 0 && bitsOf w 319 288 == 0 && w / 2 ^ 448 == 0 }

/-- Bits of an element (R133). -/
def fmtBits : Nat → Nat
  | 0x0 => 64 | 0x1 => 32 | 0x2 => 16 | 0x3 => 16 | 0x4 => 8 | 0x5 => 8 | 0x6 => 8 | 0x7 => 16 | 0x8 => 8 | 0x9 => 8
  | 0xA => 4 | 0xB => 4 | 0xC => 4 | 0xD => 4 | 0xE => 2 | _ => 1
/-- Eight times the rate of R12, so that it is whole. -/
def fmtRate8 : Nat → Nat
  | 0x0 => 1 | 0x1 => 4 | 0x2 => 16 | 0x3 => 16 | 0x7 => 16 | 0x4 => 64 | 0x5 => 64 | 0x6 => 64 | 0x8 => 64 | 0x9 => 64
  | 0xE => 256 | 0xF => 256 | _ => 128
def fmtIsInt (f : Nat) : Bool := [0x7, 0x8, 0x9, 0xA, 0xB, 0xE, 0xF].contains f
namespace Shape

/-- Elements of a stored row, and bytes of one. -/
def rowElems (h : Shape) : Nat := h.cols * if h.planar then 1 else h.d
def rowBits (h : Shape) : Nat := h.rowElems * fmtBits h.fmt
def rowBytes (h : Shape) : Nat := (h.rowBits + 7) / 8
/-- Stored row and element index in it of component `c` of element (`r`, `col`) (R157). -/
def place (h : Shape) (r col c : Nat) : Nat × Nat := if h.planar then (c * h.rows + r, col) else (r, col * h.d + c)
/-- Start of the slot a running index names (R220). -/
def start (h : Shape) (slot : Nat) : Nat := h.base + if h.slots = 0 then 0 else slot % h.slots * h.slotb
def slotOk (h : Shape) (slot : Nat) : Bool := h.slots != 0 || slot == 0
/-- Byte, bit in it and bytes to read of component `c` of element (`r`, `col`), as an offset from the start (R134, R157). -/
def elemAt (h : Shape) (r col c : Nat) : Nat × Nat × Nat :=
  let q := h.place r col c
  let b := q.2 * fmtBits h.fmt
  (q.1 * h.stride + b / 8, b % 8, (fmtBits h.fmt + 7) / 8)

end Shape

/-! ### Values of elements (R133, R134, R136, R141) -/

def intVal (n : Int) : FV := .fin (decide (n < 0)) n.natAbs 0
/-- The exact value of an element's bits; Q4N as its level numerator, Q4L through its codebook. -/
def elemVal (fmt w : Nat) (book : Nat → Nat) : FV :=
  match fmt with
  | 0x0 => fmt64.val w
  | 0x1 => fmt32.val w
  | 0x2 => fmt16.val w
  | 0x3 => fmtBf16.val w
  | 0x4 => fmtE5m2.val w
  | 0x5 => fmtE4m3.val w
  | 0x6 => fmtE3m4.val w
  | 0x7 => intVal (signed 16 w)
  | 0x8 => intVal (signed 8 w)
  | 0x9 => intVal w
  | 0xA => intVal (signed 4 w)
  | 0xB => intVal w
  | 0xC => intVal (Config.q4n w)
  | 0xD => fmt16.val (book w)
  | 0xE => intVal (if w = 1 then 1 else if w = 3 then -1 else 0)
  | _ => intVal (if w = 0 then 1 else -1)

/-! ### Scale factors of Q4N (R137, R144) -/

/-- A factor c · S of a scale block, or of two: NaN, an infinity, or n · 2^e / 255^k. -/
inductive Scale where
  | nan
  | inf (neg : Bool)
  | fin (n : Int) (e : Int) (k : Nat)
  deriving DecidableEq, Repr

def Scale.one : Scale := .fin 1 0 0
/-- The factor of a scale code and a super-scale; the levels' 256 stands in the exponent. -/
def scaleOf (code super : Nat) : Scale :=
  match fmt32.val super with
  | .nan _ => .nan
  | .inf n => if code = 0 then .nan else .inf n
  | .fin n m e => .fin (finInt n m * code) (e - 8) 1
def Scale.mul : Scale → Scale → Scale
  | .nan, _ => .nan
  | _, .nan => .nan
  | .inf a, .inf b => .inf (a != b)
  | .inf a, .fin n _ _ => if n = 0 then .nan else .inf (a != decide (n < 0))
  | .fin n _ _, .inf b => if n = 0 then .nan else .inf (b != decide (n < 0))
  | .fin n e k, .fin m f l => .fin (n * m) (e + f) (k + l)
/-- n · 2^e / 255^k rounded once to binary32. -/
def roundRat (n : Int) (e : Int) (k : Nat) : Nat :=
  if k = 0 then (fmt32.round .rne false (decide (n < 0)) n.natAbs e).1
  else
    let den := 255 ^ k
    let g := 64 + 8 * k
    let q := n.natAbs * 2 ^ g / den
    let sticky := if n.natAbs * 2 ^ g % den = 0 then 0 else 1
    if n = 0 then 0 else (fmt32.round .rne false (decide (n < 0)) (2 * q + sticky) (e - g - 1)).1

/-! ### Cells (R143-R145, R155) -/

/-- Accumulation types (R142); none for FP64 with another format. -/
inductive Acc where
  | int | fp32 | fp64
  deriving DecidableEq, Repr

def accOf (a b : Nat) : Option Acc :=
  if fmtIsInt a && fmtIsInt b then some .int
  else if a == 0 && b == 0 then some .fp64
  else if a == 0 || b == 0 then none
  else some .fp32
/-- Each product is added on its own. -/
def fusedOf (a b : Nat) : Bool := decide (min (fmtRate8 a) (fmtRate8 b) < 8)
/-- Consecutive `k` of a chunk (R143). -/
def chunkOf (a b d : Nat) : Nat :=
  if d != 1 then 1
  else if a == 0xC || b == 0xC then 64
  else max 1 (min (fmtRate8 a) (fmtRate8 b) / 8)
/-- The rounded sum of one chunk with its scale factor. -/
def chunkSum (l : List (Bool × FV × FV)) (f : Scale) : Nat :=
  let t := (dotExact l).1
  match t, f with
  | .nan _, _ => fmt32.qnan
  | _, .nan => fmt32.qnan
  | .inf n, .inf g => fmt32.infBits (n != g)
  | .inf n, .fin m _ _ => if m = 0 then fmt32.qnan else fmt32.infBits (n != decide (m < 0))
  | .fin n m _, .inf g => if m = 0 then fmt32.qnan else fmt32.infBits (n != g)
  | .fin n m e, .fin c x k =>
    if m = 0 then fmt32.zeroBits n
    else if c = 0 then 0
    else roundRat (finInt n m * c) (e + x) k
/-- An exact value as a factor that scales multiply. -/
def Scale.of : FV → Scale
  | .nan _ => .nan
  | .inf n => .inf n
  | .fin n m e => .fin (finInt n m) e 0
/-- One product, scaled by the factors of its Q4N operands (R137, R144), added to a binary32 accumulator with one rounding. -/
def addScaled (acc : Nat) (t : Bool × FV × FV) (f : Scale) : Nat :=
  let a := fmt32.val acc
  if isNan a || isNan t.2.1 || isNan t.2.2 then fmt32.qnan
  else match signedMul t.1 t.2.1 t.2.2 with
    | none => fmt32.qnan
    | some v => match (Scale.of v).mul f, a with
      | .nan, _ => fmt32.qnan
      | .inf n, _ => (fmt32.addV .rne (.inf n) a).1
      | .fin n e k, .fin an am ae =>
        if n = 0 then (fmt32.addV .rne (.fin (match v with | .fin s 0 _ => s | _ => false) 0 0) a).1
        else
          let g := min e ae
          roundRat (n * 2 ^ (e - g).toNat + finInt an am * 255 ^ k * 2 ^ (ae - g).toNat) g k
      | .fin _ _ _, x => (fmt32.addV .rne (.fin false 0 0) x).1
/-- One product added to an accumulator with one rounding. -/
def Fmt.addProduct (g : Fmt) (acc : Nat) (t : Bool × FV × FV) : Nat :=
  let a := g.val acc
  if isNan a || isNan t.2.1 || isNan t.2.2 then g.qnan
  else match signedMul t.1 t.2.1 t.2.2 with
    | none => g.qnan
    | some v => (g.addV .rne v a).1
/-- An accumulator element (32 bits, or 64 for FP64) after one chunk. -/
def accChunk (ty : Acc) (fused : Bool) (acc : Nat) (l : List (Bool × FV × FV)) (f : Scale) : Nat :=
  match ty with
  | .int =>
    let t := sumFin (l.filterMap fun t => signedMul t.1 t.2.1 t.2.2)
    toBits 32 ((acc : Int) + t.1 * 2 ^ t.2.1.toNat)
  | .fp32 =>
    if fused then l.foldl (fun acc t => addScaled acc t f) acc else (fmt32.add .rne acc (chunkSum l f)).1
  | .fp64 => l.foldl (fun acc t => fmt64.addProduct acc t) acc

end Sys2Proof.Machine
end

