-- ==== Sys2Proof/Machine/SwatchInstr.lean ====
section
/-! DEFINITION. Swatch pools, names and lines, and the swatch instructions (07 R181-R192; 18 R435). -/

namespace Sys2Proof.Machine

/-! ### Names and lines (R183-R186) -/

/-- DIGEST of 128 bytes. -/
def swDigest (d : LineW) : Nat := leNat (shake256 (lineBytes d) 15)
def nameDigest (n : Nat) : Nat := n % 2 ^ 120
def nameChain (n : Nat) : Nat := n / 2 ^ 120 % 256
def nameOf (digest chain : Nat) : Nat := chain * 2 ^ 120 + digest
def nullName : Nat := 0
def poolFull : Nat := nameOf 0 1
/-- A count that never changes again. -/
def pinnedCount : Nat := 0xFFFFFFFF

namespace State

/-- The granules of a context's pool. -/
def poolSize (s : State) (c : Nat) : Nat := (s.ctx? c).elim 0 fun x => x.d.gcount
/-- VA of the home granule of a digest (R184). -/
def poolVa (s : State) (c digest : Nat) : Nat :=
  match s.ctx? c with
  | none => 0
  | some x => x.d.pool + 65536 * (digest % 2 ^ 32 % x.d.gcount)
/-- The line of its granule that stands for a digest's slot, which the spec does not place (log 102). -/
def poolSlot (digest : Nat) : Nat := 128 * (digest % 384)
/-- A swatch request reaches its pool granule, by the switches and links of its line (R305), and looks its line up there (R325). An invalid map
entry fails the lanes concerned (log 106). -/
def poolHome (s : State) (o : Origin) (digest : Nat) (write : Bool) : State × Except Fail Home :=
  let va := s.poolVa o.ctx digest
  if !s.mapOk o.ctx va then (s, .error (.protection, .nohome))
  else
    let r := (s.passSwitch o (va + poolSlot digest)).request o.ctx va (if write then .swWrite else .swRead)
    match r.2 with
    | .error f => (r.1, .error f)
    | .ok h =>
      let at_ : Home := { h with loc := h.loc + poolSlot digest }
      ((r.1.countHome at_ o.ctx 4).touchL2 (at_.addr / 128) (policy (leafCache h.entry) 0), .ok h)
def granOf (h : Home) : Nat := h.addr / 65536
/-- Live lines of a granule with a digest; a line under another key is not found. -/
def chainOf (s : State) (h : Home) (digest : Nat) : List SwLine :=
  s.mem.lines.filter fun y => y.gran == granOf h && y.digest == digest && y.key == h.key
def modLines (s : State) (f : List SwLine → List SwLine) : State := { s with mem := { s.mem with lines := f s.mem.lines } }
def sameLine (y z : SwLine) : Bool := y.gran == z.gran && y.digest == z.digest && y.chain == z.chain
/-- The count of a line set; 0 frees the slot. -/
def setCount (s : State) (y : SwLine) (n : Nat) : State :=
  s.modLines fun l =>
    if n = 0 then l.filter fun z => !sameLine y z else l.map fun (z : SwLine) => if sameLine y z then { z with count := n } else z
def lowestFree (used : List Nat) : Nat := ((List.range 256).find? fun i => !used.contains i).getD 0
/-- `WPUT` and `WNAME` of contents (R185): the name and whether it succeeded. A line whose slot is poisoned matches no contents (log 107). -/
def putLine (s : State) (o : Origin) (x : LineW) (allocate : Bool) : State × Except Fail (Nat × Bool) :=
  let d := swDigest x
  if d = 0 then (s, .ok (nullName, false))
  else
    let r := s.poolHome o d allocate
    match r.2 with
    | .error f => (r.1, .error f)
    | .ok h =>
      let ys := r.1.chainOf h d
      match ys.find? fun y => y.data == x && !y.bad with
      | some y =>
        (if allocate && y.count != pinnedCount then r.1.setCount y (y.count + 1) else r.1, .ok (nameOf d y.chain, true))
      | none =>
        if !allocate || decide (256 ≤ ys.length) then (r.1, .ok (nullName, false))
        else if 384 ≤ (r.1.mem.lines.filter fun y => y.gran == granOf h).length then (r.1, .ok (poolFull, false))
        else
          let n := lowestFree (ys.map (·.chain))
          let y : SwLine := { gran := granOf h, digest := d, chain := n, data := x, count := 1, key := h.key, bad := false, ctx := o.ctx }
          ((r.1.modLines fun l => l ++ [y]).countPkg (chanPkg h.chan) 0x02 o.ctx 4, .ok (nameOf d n, true))
/-- The live line of a name; a status name and a name of no live line dangle (R189). -/
def findLine (s : State) (o : Origin) (n : Nat) (write : Bool) : State × Except Fail SwLine :=
  if nameDigest n = 0 then (s, .error (.swatchDangling, .none))
  else
    let r := s.poolHome o (nameDigest n) write
    match r.2 with
    | .error f => (r.1, .error f)
    | .ok h => match (r.1.chainOf h (nameDigest n)).find? fun y => y.chain == nameChain n with
      | some y => (r.1, .ok y)
      | none => (r.1, .error (.swatchDangling, .none))
/-- The contents of a line by name. -/
def lineByName (s : State) (o : Origin) (n : Nat) : State × Except Fail LineW :=
  let r := s.findLine o n false
  (r.1, match r.2 with
    | .error f => .error f
    | .ok y => if y.bad then .error (.poison, .none) else .ok y.data)
/-- A reference taken or returned (R186); a pinned line's count does not change. -/
def countRef (s : State) (o : Origin) (n : Nat) (up : Bool) : State × Except Fail Unit :=
  let r := s.findLine o n true
  match r.2 with
  | .error f => (r.1, .error f)
  | .ok y =>
    (if y.count = pinnedCount then r.1 else r.1.setCount y (if up then y.count + 1 else y.count - 1), .ok ())

/-! ### The life of a pool (R181, R192) -/

/-- The granule of a context's pool, number `i`, as its tables now name it. -/
def poolGranule (s : State) (c : Nat) (x : Ctx) (i : Nat) : Option Nat :=
  let va := x.d.pool + 65536 * i
  if x.d.gcount = 0 || !s.mapOk c va then none
  else match s.walk c va with
    | .error _ => none
    | .ok (size, e) =>
      if leafClass e != 1 then none
      else
        let h := s.homeOf c va size
        some (chanAddr h.1 (leafFrame e * 65536 + 65536 * h.2) / 65536)
/-- The bound context whose pool a line stands in: one whose tables name its granule for its digest, else the one that put it, as long as
granules of its pool are mapped (log 51). -/
def poolOwner (s : State) (y : SwLine) : Option Nat :=
  let names (e : Nat × Ctx) : Bool := s.poolGranule e.1 e.2 (y.digest % 2 ^ 32 % e.2.d.gcount) == some y.gran
  match s.ctxs.find? names with
  | some e => some e.1
  | none => match s.ctx? y.ctx with
    | none => none
    | some x => if (List.range x.d.gcount).any fun i => (s.poolGranule y.ctx x i).isSome then some y.ctx else none
/-- Lines of pools that the driver has destroyed go with them. -/
def reclaimLines (s : State) : State :=
  s.modLines fun l => l.filterMap fun (y : SwLine) => (s.poolOwner y).map fun c => { y with ctx := c }

end State

/-! ### Operands and checks (R187, R189, R287) -/

/-- The quad at `vi` of a lane. -/
def Skein.vquad (k : Skein) (i l : Nat) : Nat := (k.vpair i l).toNat + 2 ^ 64 * (k.vpair (i + 2) l).toNat
def Skein.setQuad (k : Skein) (i l n : Nat) : Skein :=
  (k.setPair i l (BitVec.ofNat 64 (n % 2 ^ 64))).setPair (i + 2) l (BitVec.ofNat 64 (n / 2 ^ 64))
namespace Pass
def quadReg (p : Pass) (i : Nat) : List (Option Trap) := [p.reg i 4, p.quad i]
def pairReg (p : Pass) (i : Nat) : List (Option Trap) := [p.reg i 2, p.even i]
def swUnit (p : Pass) (s : State) : Option Trap := whenBad (!bit1 s.feat 2) (p.trap .unitAbsent .none)
def noPool (p : Pass) (s : State) : Option Trap := whenBad (s.poolSize p.ctx == 0) (p.trap .protection .nopool)
end Pass

/-- Lanes ascending: the effect of each, or its failure noted with the address that failed: the lane's own, or the pool granule's. -/
def eachLane (s : State) (p : Pass) (ls : List Nat) (f : State → Nat → State × Except (Fail × Nat) Unit)
    (earlier : List LaneFail) : State :=
  let r := ls.foldl (fun (acc : State × List LaneFail) l =>
    let q := f acc.1 l
    match q.2 with
    | .ok _ => (q.1, acc.2)
    | .error e => (q.1, acc.2 ++ [p.failAt (fun _ => e.2) l e.1])) (s, earlier)
  r.1.noteFails p r.2
/-- A lane's quad result and status bit. -/
def quadResult (s : State) (p : Pass) (d sm l n : Nat) (bad : Bool) : State :=
  s.modSk p.bid p.ix fun k => (k.setQuad d l n).setMask sm (laneBit l) (if bad then 0xFFFF else 0)
/-- The 128 bytes a lane names by address, as a relaxed load that no reader count counts. -/
def sourceLine (s : State) (p : Pass) (a : Nat) : State × Except Fail LineW :=
  let r := s.readLine p.origin p.core a 0 State.allBytes (counted := false)
  (r.1, match r.2 with
    | .error f => .error f
    | .ok v => if v.bad != 0 then .error (.poison, .none) else .ok v.data)

/-! ### The instructions (R188, R435) -/

/-- `WPUT` and `WNAME`. -/
def nameSource (s : State) (d a sm : Nat) (allocate : Bool) : Out :=
  s.withPass fun p =>
    let s := s.switchPoint p
    let addr := pairAddr p a
    s.laneGuarded p
      ([p.laneRole] ++ p.quadReg d ++ p.pairReg a ++ [p.swUnit s, s.shadowFull p p.lanes addr 128] ++ p.addrChecks s addr 128 ++ [p.noPool s])
      (let c := s.detLanes p p.lanes addr 128 0
       (eachLane c.1 p (State.passed p.lanes c.2) (earlier := c.2) fun s l =>
         let r := sourceLine s p (addr l)
         match r.2 with
         | .error f => (r.1, .error (f, addr l))
         | .ok x =>
           let q := (r.1.loadSync p (addr l) 128 none).putLine p.origin x allocate
           match q.2 with
           | .error f => (q.1, .error (f, s.poolVa p.ctx (swDigest x)))
           | .ok (n, ok) => (quadResult q.1 p d sm l n (!ok), .ok ())).endPass p)
def execWput (d a sm : Nat) (s : State) : Out := nameSource s d a sm true
def execWname (d a sm : Nat) (s : State) : Out := nameSource s d a sm false
/-- `WGET`: an offset that is no multiple of 4 or exceeds 124 is MISALIGNED before any lane's effect. -/
def execWget (d a b : Nat) (s : State) : Out :=
  s.withPass fun p =>
    let s := s.switchPoint p
    let off (l : Nat) : Nat := (p.sk.v b l).toNat
    s.laneGuarded p
      ([p.laneRole, p.reg d 1] ++ p.quadReg a ++ [p.reg b 1, p.swUnit s,
        p.laneCheck .misaligned .none off fun l => off l % 4 != 0 || decide (124 < off l), p.noPool s])
      ((eachLane s p p.lanes (earlier := []) fun s l =>
         let r := s.lineByName p.origin (p.sk.vquad a l)
         match r.2 with
         | .error f => (r.1, .error (f, s.poolVa p.ctx (nameDigest (p.sk.vquad a l))))
         | .ok x => (r.1.modSk p.bid p.ix fun k => k.setV d l (x.extractLsb' (8 * off l) 32), .ok ())).endPass p)
def countRefs (s : State) (a : Nat) (up : Bool) : Out :=
  s.withPass fun p =>
    let s := s.switchPoint p
    s.laneGuarded p ([p.laneRole] ++ p.quadReg a ++ [p.swUnit s, p.noPool s])
      ((eachLane s p p.lanes (earlier := []) fun s l =>
         let r := s.countRef p.origin (p.sk.vquad a l) up
         (r.1, r.2.mapError fun f => (f, s.poolVa p.ctx (nameDigest (p.sk.vquad a l))))).endPass p)
def execWrefInc (a : Nat) (s : State) : Out := countRefs s a true
def execWrefDec (a : Nat) (s : State) : Out := countRefs s a false
/-- `WSWAP`: one atomic step on 16 bytes for each lane, one request for each line (R311); acquire, release and SC at `.rack`; DET_ILLEGAL in a
DET launch. -/
def execWswap (d a b sm : Nat) (s : State) : Out :=
  s.withPass fun p =>
    let s := s.switchPoint p
    let addr := pairAddr p a
    s.laneGuarded p
      ([p.laneRole] ++ p.quadReg d ++ p.pairReg a ++ p.quadReg b ++ [p.swUnit s, s.detInstr p] ++ p.addrChecks s addr 16
        ++ [p.noPool s])
      (if p.act = 0 then s.endIdle p (some 4)
       else
         let r := (s.releaseAll p 4).byRequests p.ctx p.lanes addr (fun s v => s.reachHome p.origin v) fun s l =>
           let want := p.sk.vquad d l
           let q := s.stepAt p.origin (addr l) 16 fun old => if old = want then p.sk.vquad b l else old
           match q.2 with
           | .error f => (q.1, some (p.failAt addr l f))
           | .ok old =>
             (quadResult (q.1.stampStores p.ctx (State.lineVa (addr l)) (byteRange (addr l % 128) 16) p.writer) p d sm l old (old != want), none)
         ((r.1.acquireAt p.core p.ctx 4).noteFails p r.2).endAcquire p 4)
/-- The lines that lanes name at `b`, lanes ascending: the contents by lane, and the failures. -/
def namedLines (s : State) (p : Pass) (b : Nat) (ls : List Nat) : State × NMap LineW × List LaneFail :=
  ls.foldl (fun (acc : State × NMap LineW × List LaneFail) l =>
    let n := p.sk.vquad b l
    let q := acc.1.lineByName p.origin n
    match q.2 with
    | .error f => (q.1, acc.2.1, acc.2.2 ++ [p.failAt (fun _ => s.poolVa p.ctx (nameDigest n)) l f])
    | .ok x => (q.1, mapSet acc.2.1 l x, acc.2.2)) (s, [], [])
/-- `WCOPY`: a relaxed store of a line's contents, one request for each destination line, later lanes over earlier ones (R196, R311). -/
def execWcopy (a b : Nat) (s : State) : Out :=
  s.withPass fun p =>
    let s := s.switchPoint p
    let addr := pairAddr p a
    s.laneGuarded p
      ([p.laneRole] ++ p.pairReg a ++ p.quadReg b ++ [p.swUnit s, s.shadowFull p p.lanes addr 128] ++ p.addrChecks s addr 128 ++ [p.noPool s])
      (let c := s.detLanes p p.lanes addr 128 1
       let r := namedLines c.1 p b (State.passed p.lanes c.2)
       let ls := State.passed (State.passed p.lanes c.2) r.2.2
       let w := (r.1.requestLines p.ctx ls addr).foldl (fun (acc : State × List LaneFail) v =>
         let mine := ls.filter fun l => State.lineVa (addr l) == v
         let x := mine.foldl (fun _ l => mapGetD r.2.1 l 0) (0 : LineW)
         let q := acc.1.storeLine { p.origin with mask := laneSet mine.contains } p.core v 0 false 0 x State.allBytes
         match q.2 with
         | .error f => (q.1, acc.2 ++ mine.map fun l => p.failAt addr l f)
         | .ok _ => ((mine.foldl (fun s l => s.storeSync p (addr l) 128 none) q.1).stampStores p.ctx v State.allBytes p.writer, acc.2)) (r.1, [])
       (w.1.noteFails p (c.2 ++ r.2.2 ++ w.2)).endPass p)

end Sys2Proof.Machine
end

