-- ==== Sys2Proof/Machine/EngineRuns.lean ====
section
/-! DEFINITION. The events of the matrix engine, the drays, bound prefetches and register and tile eviction (01 R45; 09 R223-R232,
R235; 12 R298-R300; 16 R350). -/

namespace Sys2Proof.Machine

/-- A failed read of an engine, with the address that failed. -/
abbrev EngineFail := Fail × Nat

/-- A store that no `OFENCE` of the issuer puts before its command (R210): neither one that it had acquired by then, nor one of its own
path. -/
def MCmd.unfenced (m : MCmd) (x : Nat × Nat × Nat) : Bool :=
  !(decide (x.1 ≤ m.seq)
    || (x.2.1 == Pass.issuerKey m.bid m.who && (List.range 16).any fun l => bit1 x.2.2 l && decide (x.1 ≤ mapGetD m.mine l 0)))

namespace State

/-! ### Reads of the engines: at the homes; bytes stored meanwhile are unspecified (R210, R212) -/

/-- A byte of a context's space whose last store by a thread, or for a matrix command (`mma`) by a dray, a command need not observe. -/
def lateAt (s : State) (c : Nat) (late : Nat × Nat × Nat → Bool) (mma : Bool) (a : Nat) : Bool :=
  (s.ctx? c).elim false fun x => late (mapGetD x.stored a (0, 0, 0)) || (mma && late (mapGetD x.engine a 0, 0, 0))
/-- The same of a block's window. -/
def lateIn (b : Block) (late : Nat × Nat × Nat → Bool) (mma : Bool) (a : Nat) : Bool :=
  late (mapGetD b.ps.stored a (0, 0, 0)) || (mma && late (mapGetD b.ps.engine a 0, 0, 0))
/-- A store later than a number. -/
def after (n : Nat) (x : Nat × Nat × Nat) : Bool := decide (n < x.1)
/-- One byte of the global space as an engine reads it, none of the machine's state changed by the read. -/
def peekByte (s : State) (o : Origin) (late : Nat → Bool) (a : Nat) : Except EngineFail Nat :=
  if noncanon a then .error ((.protection, .noncanon), a)
  else if !s.mapOk o.ctx a then .error ((.protection, .nohome), a)
  else match (s.request o.ctx a .read).2 with
    | .error f => .error (f, a)
    | .ok h =>
      if s.poisoned (h.addr / 32) then .error ((.poison, .none), a)
      else if late a || h.moved || h.wild then .ok (Config.freeByte (s.fresh.free + a)).toNat
      else .ok (leNat (s.physBytes h.key h.addr 1))
def peekFrom (s : State) (o : Origin) (late : Nat → Bool) (a : Nat) : Nat → Except EngineFail Nat
  | 0 => .ok 0
  | n + 1 => do
    let b ← s.peekByte o late a
    let r ← peekFrom s o late (a + 1) n
    .ok (b + 256 * r)
/-- The same of a block's scratchpad window. -/
def peekScratch (s : State) (b : Block) (late : Nat → Bool) (a : Nat) : Nat → Except EngineFail Nat
  | 0 => .ok 0
  | n + 1 =>
    if b.ps.size ≤ a then .error ((.protection, .scratchBound), a)
    else if b.ps.poison.contains (a / 8) then .error ((.poison, .none), a)
    else do
      let r ← peekScratch s b late (a + 1) n
      let v := if late a then (Config.freeByte (s.fresh.free + 2 ^ 57 + a)).toNat else (byteGet b.ps.bytes a).toNat
      .ok (v + 256 * r)
/-- Operand bytes of a matrix command. -/
def engineRead (s : State) (p : Pass) (m : MCmd) (sp : Bool) (a n : Nat) : Except EngineFail Nat :=
  let b := (s.blk? p.bid).getD p.blk
  if sp then s.peekScratch b (lateIn b m.unfenced true) a n else s.peekFrom p.origin (s.lateAt p.ctx m.unfenced true) a n

end State

/-! ### One command's operands (R222, R225) -/

/-- A running product: both records, their codebook lines, the running indices, the table and the flags. -/
structure Product where
  a : Shape
  b : Shape
  bookA : Nat
  bookB : Nat
  ia : Nat
  ib : Nat
  table : List Nat
  fl : Nat
  deriving DecidableEq, Repr

namespace Product

def ta (q : Product) : Bool := bit1 q.fl 2
def tb (q : Product) : Bool := bit1 q.fl 3
def m (q : Product) : Nat := if q.ta then q.a.cols else q.a.rows
def kLen (q : Product) : Nat := if q.ta then q.a.rows else q.a.cols
def kLenB (q : Product) : Nat := if q.tb then q.b.cols else q.b.rows
def n (q : Product) : Nat := if q.tb then q.b.rows else q.b.cols
def d (q : Product) : Nat := tableDim q.table
def acc (q : Product) : Acc := (accOf q.a.fmt q.b.fmt).getD .fp32
/-- Words of an accumulator component. -/
def w (q : Product) : Nat := if q.acc = .fp64 then 2 else 1
/-- A Q4N or Q4L operand runs along k and has d = 1; Q4N rows are whole scale blocks (R139). -/
def quarterOk (h : Shape) (along : Bool) (d : Nat) : Bool :=
  (h.fmt != 0xC && h.fmt != 0xD) || (along && d == 1 && (h.fmt != 0xC || h.cols % 64 == 0))
/-- The start check (R225). -/
def startOk (q : Product) (span : Bool) : Bool :=
  q.a.clean && q.b.clean && !q.a.nl && !q.b.nl && q.a.scope == 0 && q.b.scope == 0 && q.a.slotOk q.ia && q.b.slotOk q.ib
    && (accOf q.a.fmt q.b.fmt).isSome && quarterOk q.a (!q.ta) q.d && quarterOk q.b q.tb q.d && q.a.d == q.d && q.b.d == q.d
    && q.kLen == q.kLenB && decide (q.m ≤ 128) && decide (q.n * q.d * q.w ≤ if span then 256 else 128)

end Product

namespace State

/-- The product of both records and codebook lines, as a command holds them. -/
def productFrom (m : MCmd) (l : List Nat) : Product :=
  { a := shapeOf (l[0]?.getD 0), b := shapeOf (l[1]?.getD 0), bookA := l[2]?.getD 0, bookB := l[3]?.getD 0, ia := m.ka.toNat % 128,
    ib := m.kb.toNat % 128, table := m.table, fl := m.fl }
/-- The product of a command that has read its records; one restored while it ran reads them again (R296). -/
def productOf (m : MCmd) : Option Product := if m.reread then none else m.recs.map (productFrom m)
/-- Both records as memory holds them. -/
def readRecs (s : State) (p : Pass) (m : MCmd) : Except EngineFail (List Nat) := do
  let late := s.lateAt p.ctx m.unfenced true
  let a ← s.peekFrom p.origin late (recordVa m.ka) 128
  let b ← s.peekFrom p.origin late (recordVa m.kb) 128
  .ok [a, b]
/-- The entries of the codebook line of a Q4L operand, of which a line that is no multiple of 128 is read as named (log 94). -/
def readBook (s : State) (p : Pass) (m : MCmd) (h : Shape) : Except EngineFail Nat :=
  if h.fmt = 0xD then s.peekFrom p.origin (s.lateAt p.ctx m.unfenced true) h.codebook 32 else .ok 0
/-- What a command reads at its start (R141, R225): both records and, where they pass the check, the codebook lines. -/
def startRead (s : State) (p : Pass) (m : MCmd) : Except EngineFail (List Nat) := do
  let l ← s.readRecs p m
  let q := productFrom m l
  if q.startOk m.span then
    let x ← s.readBook p m q.a
    let y ← s.readBook p m q.b
    .ok (l ++ [x, y])
  else .ok l
/-- Component `c` of stored element (`r`, `col`) of an operand. -/
def elemRead (s : State) (p : Pass) (m : MCmd) (h : Shape) (book slot r col c : Nat) : Except EngineFail FV := do
  let q := h.elemAt r col c
  let w ← s.engineRead p m h.sp (h.start slot + q.1) q.2.2
  .ok (elemVal h.fmt (w / 2 ^ q.2.1 % 2 ^ fmtBits h.fmt) fun x => book / 2 ^ (16 * x) % 2 ^ 16)
/-- Component `c` of op(A)[i, k] and of op(B)[k, j] (R156). -/
def aElem (s : State) (p : Pass) (m : MCmd) (q : Product) (i k c : Nat) : Except EngineFail FV := do
  let v ← if q.ta then s.elemRead p m q.a q.bookA q.ia k i c else s.elemRead p m q.a q.bookA q.ia i k c
  .ok (if bit1 q.fl 0 && tableConj q.table c then v.negate else v)
def bElem (s : State) (p : Pass) (m : MCmd) (q : Product) (k j c : Nat) : Except EngineFail FV := do
  let v ← if q.tb then s.elemRead p m q.b q.bookB q.ib j k c else s.elemRead p m q.b q.bookB q.ib k j c
  .ok (if bit1 q.fl 1 && tableConj q.table c then v.negate else v)
/-- Groups of 256 blocks of a Q4N operand, in whole 16s, as its scale area is laid out (R138). -/
def scaleGroups (h : Shape) : Nat := ((h.rows * (h.cols / 64) + 255) / 256 + 15) / 16 * 16
/-- Code and super-scale of a block as the scale area holds them (R138). An area that is no multiple of 64 is read as named (log 94). -/
def areaRead (s : State) (p : Pass) (m : MCmd) (h : Shape) (b : Nat) : Except EngineFail (Nat × Nat) := do
  let late := s.lateAt p.ctx m.unfenced true
  let sup ← s.peekFrom p.origin late (h.scales + 4 * (b / 256)) 4
  let code ← s.peekFrom p.origin late (h.scales + 4 * scaleGroups h + b) 1
  .ok (code, sup)
/-- Bytes of a block's code or super-scale that no `OFENCE` puts before the command. -/
def areaLate (s : State) (p : Pass) (m : MCmd) (h : Shape) (b : Nat) : Bool :=
  s.lateAt p.ctx m.unfenced true (h.scales + 4 * scaleGroups h + b)
    || (List.range 4).any fun i => s.lateAt p.ctx m.unfenced true (h.scales + 4 * (b / 256) + i)
/-- A block in the core's scale cache. -/
def scaleHit (s : State) (p : Pass) (h : Shape) (b : Nat) : Option ScaleEnt :=
  (s.core p.core).scales.find? fun e => e.ctx == p.ctx && e.tid == h.tid && e.blk == b
/-- The scale factor of a Q4N operand's block that holds (`r`, `col`) (R137, R138), from the scale cache where that holds it: a tensor
identifier that the cache holds for another area, or bytes of the area stored or copied since the `OFENCE`, give unspecified values
(R140). -/
def scaleAt (s : State) (p : Pass) (m : MCmd) (h : Shape) (r col : Nat) : Except EngineFail Scale :=
  if h.fmt != 0xC then .ok Scale.one
  else
    let b := r * (h.cols / 64) + col / 64
    match s.scaleHit p h b with
    | none => (s.areaRead p m h b).map fun x => scaleOf x.1 x.2
    | some e =>
      .ok (if e.area != h.scales || s.areaLate p m h b then
        scaleOf (Config.freeByte (s.fresh.free + 2 ^ 58 + b)).toNat (Config.freeWord (s.fresh.free + 2 ^ 58 + b / 256)).toNat
      else scaleOf e.code e.sup)
/-- The products of component `c` of cell (i, j) over the `k` of a chunk. -/
def chunkTerms (s : State) (p : Pass) (m : MCmd) (q : Product) (i j c : Nat) (ks : List Nat) : Except EngineFail (List (Bool × FV × FV)) := do
  let l ← ks.mapM fun k => do
    let xs ← (List.range q.d).mapM fun x => s.aElem p m q i k x
    let ys ← (List.range q.d).mapM fun x => s.bElem p m q k j x
    .ok (productTerms q.table c (fun x => (xs[x]?).getD (.fin false 0 0)) fun x => (ys[x]?).getD (.fin false 0 0))
  .ok l.flatten
def chunkScale (s : State) (p : Pass) (m : MCmd) (q : Product) (i j k : Nat) : Except EngineFail Scale := do
  let x ← s.scaleAt p m q.a i k
  let y ← s.scaleAt p m q.b j k
  .ok (x.mul y)

end State

/-! ### Tiles (R226, R227) -/

/-- The tile bank word of component `c` of cell (i, j), and whether it lies in the follower's tile. -/
def cellWord (q : Product) (i j c : Nat) : Nat × Bool :=
  let far := decide (128 ≤ q.d * j * q.w)
  let j := if far then j - 128 / (q.d * q.w) else j
  (128 * i + q.w * (q.d * j + c), far)
def bankGet (m : NMap W32) (w n : Nat) : Nat := (List.range n).foldl (fun v i => v + (mapGetD m (w + i) 0).toNat * 2 ^ (32 * i)) 0
def bankPut (m : NMap W32) (w n v : Nat) : NMap W32 :=
  (List.range n).foldl (fun m i => mapSet m (w + i) (BitVec.ofNat 32 (v / 2 ^ (32 * i)))) m
/-- Every word of a bank unspecified. -/
def freeBank (n : Nat) : NMap W32 := (List.range 16384).map fun i => (i, Config.freeWord (n + i))
/-- The cells of a product: (i, j, component). -/
def cells (q : Product) : List (Nat × Nat × Nat) :=
  (List.range q.m).flatMap fun i => (List.range q.n).flatMap fun j => (List.range q.d).map fun c => (i, j, c)
/-- The bank words of some cells, each with the bank. -/
def cellWords (q : Product) (l : List (Nat × Nat × Nat)) : List (Nat × Bool) :=
  l.flatMap fun e =>
    let w := cellWord q e.1 e.2.1 e.2.2
    (List.range q.w).map fun i => (w.1 + i, w.2)

namespace State

/-- One chunk accumulated in the working banks of the tile and of the follower's. -/
def chunkStep (s : State) (p : Pass) (m : MCmd) (q : Product) (k0 : Nat) (banks : NMap W32 × NMap W32) :
    Except EngineFail (NMap W32 × NMap W32) :=
  let s0 := chunkOf q.a.fmt q.b.fmt q.d
  let ks := (List.range (min s0 (q.kLen - k0))).map (· + k0)
  let fused := fusedOf q.a.fmt q.b.fmt
  (cells q).foldlM (fun banks e => do
    let t ← s.chunkTerms p m q e.1 e.2.1 e.2.2 ks
    let f ← s.chunkScale p m q e.1 e.2.1 k0
    let w := cellWord q e.1 e.2.1 e.2.2
    let bank := if w.2 then banks.2 else banks.1
    let v := accChunk q.acc fused (bankGet bank w.1 q.w) t f
    .ok (if w.2 then (banks.1, bankPut bank w.1 q.w v) else (bankPut bank w.1 q.w v, banks.2))) banks
/-- Chunks from `k0` on: the banks, the progress reached and what stopped it. -/
def runChunks (s : State) (p : Pass) (m : MCmd) (q : Product) : Nat → Nat → NMap W32 × NMap W32 →
    (NMap W32 × NMap W32) × Nat × Option EngineFail
  | 0, k0, b => (b, k0, none)
  | n + 1, k0, b =>
    if q.kLen ≤ k0 then (b, q.kLen, none)
    else match s.chunkStep p m q k0 b with
      | .error f => (b, k0, some f)
      | .ok b => runChunks s p m q n (k0 + chunkOf q.a.fmt q.b.fmt q.d) b
/-- A tile's working bank as the array reads it: a poisoned word is unspecified (R177); `n` numbers the free values. -/
def workOf (s : State) (bid t n : Nat) : NMap W32 :=
  (s.blk? bid).elim [] fun b =>
    let x := mapGetD b.tiles t Tile.zero
    x.pWork.foldl (fun m w => mapSet m w (Config.freeWord (s.fresh.free + n + w))) x.work
/-- Both banks that a command works on. -/
def banksOf (s : State) (p : Pass) (m : MCmd) : NMap W32 × NMap W32 :=
  (s.workOf p.bid m.tile (2 ^ 59), s.workOf (p.blk.id.partner.getD p.bid) m.tile (2 ^ 59 + 16384))
def modTile (s : State) (bid t : Nat) (f : Tile → Tile) : State :=
  s.modBlk bid fun b => { b with tiles := mapSet b.tiles t (f (mapGetD b.tiles t Tile.zero)) }
/-- What a command's run gives: the banks, its progress and what stopped it; before its records are read, nothing. -/
def runCmd (s : State) (p : Pass) (m : MCmd) : Option (Product × (NMap W32 × NMap W32) × Nat × Option EngineFail) :=
  (productOf m).map fun q => (q, s.runChunks p m q (q.kLen + 1) m.prog (s.banksOf p m))
/-- A run's banks. Its results clear the poison of the words they write (R177). -/
def putBanks (s : State) (p : Pass) (m : MCmd) (b : NMap W32 × NMap W32) (written : List (Nat × Bool)) : State :=
  let put (far : Bool) (w : NMap W32) (t : Tile) : Tile :=
    { t with work := if written.isEmpty then t.work else w, pWork := t.pWork.filter fun x => !written.contains (x, far) }
  let s := s.modTile p.bid m.tile (put false b.1)
  match m.span, p.blk.id.partner with
  | true, some x => s.modTile x m.tile (put true b.2)
  | _, _ => s

/-! ### The matrix command queue (R223-R228) -/

def modCmd (s : State) (g : Nat) (m : MCmd) (f : MCmd → MCmd) : State :=
  s.modCore g fun c => { c with mq := c.mq.map fun (x : MCmd) => if x.bid == m.bid && x.num == m.num then f x else x }
/-- Entry `i` of a core's queue with its issuer, as at issue. -/
def cmdAt (s : State) (g i : Nat) : Option (MCmd × Pass) := do
  let m ← (s.core g).mq[i]?
  let p ← s.agent m.bid m.who m.arm m.off
  let at_ : DetClock := match m.det with
    | none => clockOf p
    | some c => { phase := (c.vc[m.who]?).getD 1, vc := c.vc }
  some (m, { p with sk := { p.sk with x := { p.sk.x with det := at_ } }, co := { p.co with det := at_ } })
/-- The tile of a command, of a span command both, is not evicted (R45). -/
def tilesHere (s : State) (m : MCmd) (p : Pass) : Bool :=
  decide (p.blk.evicted ≤ m.tile) && (!m.span || (p.blk.id.partner.bind s.blk?).elim true fun b => decide (b.evicted ≤ m.tile))
/-- Nothing earlier stands on the entry's tile, the tile (of a span command both) is not evicted, and no span command that is QUEUED or
RUNNING slaves the array (R227). -/
def cmdFree (s : State) (g i : Nat) (m : MCmd) (p : Pass) : Bool :=
  let pair := p.blk.id.partner.bind s.blk?
  let slaved := pair.elim false fun b => p.blk.id.span == 3 && ((s.core b.id.core).mq.any fun x =>
    x.bid == b.id.bid && x.span && (if m.kind = 2 then x.tile == m.tile else x.state != 2))
  !(((s.core g).mq.take i).any fun x => x.bid == m.bid && x.tile == m.tile) && s.tilesHere m p && !slaved && (s.core g).reset.isNone
/-- A tile is marked failed by a command; an earlier mark stands. -/
def markFailed (s : State) (p : Pass) (m : MCmd) (u : Cause) : State :=
  let f (t : Tile) : Tile := { t with failed := t.failed.or (some (m.num, u)) }
  let s := s.modTile p.bid m.tile f
  match m.span, p.blk.id.partner with
  | true, some x => s.modTile x m.tile f
  | _, _ => s
/-- The cause a failed read gives a command or copy (R300, R301). -/
def failCause (f : Fail) : Cause := if f.1 = .poison then .poisoned else if f.1 = .swatchDangling then .dangling else f.2
/-- The TERN codes 0b10 among the stored elements of an operand (R133). -/
def ternCodes (s : State) (p : Pass) (m : MCmd) (h : Shape) (slot : Nat) : Nat :=
  if h.fmt != 0xE then 0
  else (List.range h.rows).foldl (fun n r => (List.range h.cols).foldl (fun n x => (List.range h.d).foldl (fun n c =>
    let q := h.elemAt r x c
    match s.engineRead p m h.sp (h.start slot + q.1) q.2.2 with
    | .ok w => if w / 2 ^ q.2.1 % 4 = 2 then n + 1 else n
    | .error _ => n) n) n) 0
/-- The blocks of scales that a run up to `k1` meets, k-block by k-block (R137, R138). -/
def runBlocks (m : MCmd) (q : Product) (k1 : Nat) : List (Shape × Nat) :=
  ((List.range ((k1 + 63) / 64)).filter fun k => decide (m.prog / 64 ≤ k)).flatMap fun k =>
    ([q.a, q.b].filter fun h => h.fmt == 0xC).flatMap fun h => (List.range h.rows).map fun r => (h, r * (h.cols / 64) + k)
/-- A block that the scale cache misses enters it, the oldest of 8,192 leaving (R140; log 104). -/
def takeScale (s : State) (p : Pass) (m : MCmd) (h : Shape) (b : Nat) : State :=
  match s.scaleHit p h b, s.areaRead p m h b with
  | none, .ok x => (s.countCore p.core 0x0A p.ctx).modCore p.core fun c =>
      { c with scales := (if c.scales.length < 8192 then c.scales else c.scales.drop 1)
                 ++ [{ ctx := p.ctx, tid := h.tid, blk := b, area := h.scales, code := x.1, sup := x.2 }] }
  | _, _ => s
/-- What a run up to `to_` leaves on its core: the scale cache, and its events (R325): scale-cache misses, the chunks accumulated, at the
end of a product the TERN codes 0b10 that it decoded. -/
def countRun (s : State) (p : Pass) (m : MCmd) (q : Product) (to_ : Nat) (whole : Bool) : State :=
  let t := (runBlocks m q to_).foldl (fun t e => t.takeScale p m e.1 e.2) s
  if s.events.isEmpty then t
  else
    let k := chunkOf q.a.fmt q.b.fmt q.d
    let t := t.countCore p.core 0x09 p.ctx ((to_ - m.prog + k - 1) / k)
    if whole then t.countCore p.core 0x0B p.ctx (s.ternCodes p m q.a q.ia + s.ternCodes p m q.b q.ib) else t
/-- Some cells of a command's tiles become unspecified; poison that no result has cleared stands. -/
def freeCells (s : State) (p : Pass) (m : MCmd) (q : Product) (l : List (Nat × Nat × Nat)) : State :=
  if l.isEmpty then s
  else
    let free (far : Bool) (t : Tile) : Tile :=
      { t with work := (cellWords q l).foldl (fun b e =>
          if e.2 == far then mapSet b e.1 (Config.freeWord (s.fresh.free + e.1 + 16384 * far.toNat)) else b) t.work }
    let s := s.modTile p.bid m.tile (free false)
    let s := match m.span, p.blk.id.partner with
      | true, some x => s.modTile x m.tile (free true)
      | _, _ => s
    s.takeFree 32768
/-- Row `i` of an operand along k has a byte below `m.prog` that was stored since, or a scale of such a block (R212). -/
def rowLate (s : State) (p : Pass) (m : MCmd) (h : Shape) (slot : Nat) (kRows : Bool) (d i : Nat) : Bool :=
  let b := (s.blk? p.bid).getD p.blk
  let late (a : Nat) : Bool := if h.sp then lateIn b m.unfenced true a else s.lateAt p.ctx m.unfenced true a
  (List.range m.prog).any fun k =>
    (h.fmt == 0xC && s.areaLate p m h (i * (h.cols / 64) + k / 64)) || (List.range d).any fun c =>
      let e := if kRows then h.elemAt k i c else h.elemAt i k c
      (List.range e.2.2).any fun x => late (h.start slot + e.1 + x)
/-- The cells whose operands below a command's progress have been stored to since they were read (R212). -/
def lateCells (s : State) (p : Pass) (m : MCmd) (q : Product) : List (Nat × Nat × Nat) :=
  if m.prog = 0 then []
  else
    let rs := (List.range q.m).filter (s.rowLate p m q.a q.ia q.ta q.d)
    let cs := (List.range q.n).filter (s.rowLate p m q.b q.ib (!q.tb) q.d)
    (cells q).filter fun e => rs.contains e.1 || cs.contains e.2.1
/-- A command becomes FAILED and retires (R224, R225); the elements a running one had updated are unspecified. -/
def failCmd (s : State) (g : Nat) (m : MCmd) (p : Pass) (u : Cause) : State :=
  let s := s.markFailed p m u
  let s := match m.recs.map (productFrom m) with
    | some q => if m.state = 0 then s else s.freeCells p m q (cells q)
    | none => s
  s.retireCmd g m
/-- What a run that has come to `k` leaves: its banks, the scale cache, its events. -/
def endRun (s : State) (p : Pass) (m : MCmd) (q : Product) (b : NMap W32 × NMap W32) (k : Nat) (whole : Bool) : State :=
  ((s.countRun p m q k whole).putBanks p m b (if k = m.prog then [] else cellWords q (cells q))).takeFree (2 ^ 60)

/-! ### The lines an engine reads (R305, R313, R325) -/

/-- A line that a read visits at its home, whose look-up counts (R325); `counted`: a reader-count line counts the read down (R174). -/
def lookLine (s : State) (o : Origin) (v : Nat) (counted : Bool) : State :=
  let r := s.request o.ctx v .read
  match r.2 with
  | .ok h => (((if counted then r.1.countRead h o.ctx else r.1)).countHome h o.ctx 4).touchL2 (h.addr / 128) (policy (leafCache h.entry) 0)
  | .error _ => r.1
/-- The request for a line goes out, by the switches, which forward its partials first (R313), and over the links (R305). -/
def sendLine (s : State) (o : Origin) (v : Nat) : State :=
  if noncanon v || !s.mapOk o.ctx v then s else s.passSwitch o v
/-- Lines that the matrix engine reads. -/
def visitLines (s : State) (o : Origin) (l : List Nat) : State :=
  (l.foldl (fun m v => listInsertNat m (lineVa v)) []).foldl (fun s v =>
    if noncanon v || !s.mapOk o.ctx v then s else (s.sendLine o v).lookLine o v false) s
/-- Lines of an operand in the global space at `k` from `k0` on. -/
def operandLines (h : Shape) (slot : Nat) (kRows : Bool) (k0 : Nat) : List Nat :=
  if h.sp then []
  else
    let e := if h.planar then 1 else h.d
    let lo := if kRows then 0 else k0 * e * fmtBits h.fmt / 8
    ((List.range (h.rows * if h.planar then h.d else 1)).filter fun r => !kRows || decide (k0 ≤ r % h.rows)).flatMap fun r =>
      let a := h.start slot + r * h.stride + lo
      let n := h.rowBytes - lo
      (List.range ((a % 128 + n + 127) / 128)).map fun i => lineVa a + 128 * i
/-- A run's reads reach the homes: lines of both operands, and of the scales that the scale cache misses. -/
def reach (s : State) (p : Pass) (m : MCmd) : State :=
  match productOf m with
  | none => s
  | some q =>
    let scales := ((runBlocks m q q.kLen).filter fun e => (s.scaleHit p e.1 e.2).isNone).flatMap fun e =>
      [e.1.scales + 4 * (e.2 / 256), e.1.scales + 4 * scaleGroups e.1 + e.2]
    s.visitLines p.origin (operandLines q.a q.ia q.ta m.prog ++ operandLines q.b q.ib (!q.tb) m.prog ++ scales)
/-- The reads of a command's start reach the homes: both records, and codebook lines. -/
def reachStart (s : State) (p : Pass) (m : MCmd) : State :=
  let s := s.visitLines p.origin [recordVa m.ka, recordVa m.kb]
  match s.readRecs p m with
  | .error _ => s
  | .ok l =>
    let q := productFrom m l
    if q.startOk m.span then s.visitLines p.origin (([q.a, q.b].filter fun h => h.fmt == 0xD).map (·.codebook)) else s
/-- A command parks on a page fault with its progress (R224). -/
def faultCmd (s : State) (g : Nat) (m : MCmd) (p : Pass) (prog : Nat) (f : EngineFail) : State :=
  (s.modCmd g m fun x => { x with state := 2, prog := prog }).report (some p.ctx) true
    (recordBytes 0x0C f.1.2.code (2 + p.coach.toNat) p.off s.time.ns p.blk.id.seq p.ix p.blk.id.idx 0 (locOf g) m.num f.2 0 0)
/-- Scratchpad operands of a DET launch are checked as the issuer's reads at its phase at issue (R271, R404); answers whether
one races. -/
def checkRows (s : State) (p : Pass) (h : Shape) (slot : Nat) : State × Bool :=
  if !h.sp || !s.isDet p then (s, false)
  else (List.range (h.rows * if h.planar then h.d else 1)).foldl (fun acc r =>
    if acc.2 then acc
    else
      let c := acc.1.scratchCheck p (h.start slot + r * h.stride) (max 1 h.rowBytes) false (clockOf p).phase
      (c.1, c.2.isSome)) (s, false)

end State

namespace State

/-- A command may read its records: its turn has come (R224), or it is resumed after a fault met in reading them, or restored (R296). -/
def mayStart (s : State) (g i : Nat) (m : MCmd) (p : Pass) : Bool :=
  m.kind == 0 && ((m.state == 0 && s.cmdFree g i m p) || (m.state == 1 && (m.recs.isNone || m.reread) && s.tilesHere m p))

end State

/-- `COMMAND_START`: a command whose turn it is reads and checks its records. -/
def execCommandStart (core idx : Nat) (s : State) : Out :=
  .next (match s.cmdAt core idx with
    | none => s
    | some (m, p) =>
      if m.kind = 1 ∧ m.state = 0 ∧ s.cmdFree core idx m p = true then
        s.modCmd core m fun x => { x with state := 1, since := s.time.ns }
      else if !s.mayStart core idx m p then s
      else
        let t := s.reachStart p m
        match t.startRead p m with
        | .error f => if f.1.1 = .pageFault then s else t.failCmd core m p (State.failCause f.1)
        | .ok l =>
          let q := State.productFrom m l
          let far := match m.span, p.blk.id.partner.bind s.blk? with
            | true, some b => decide (b.ntiles ≤ m.tile)
            | x, _ => x
          if !q.startOk m.span || far then t.failCmd core m p .check
          else (t.modCmd core m fun x => { x with state := 1, recs := some l, reread := false, since := s.time.ns }).takeFree (2 ^ 57))
/-- `COMMAND_RETIRE`: the last chunk is accumulated. -/
def execCommandRetire (core idx : Nat) (s : State) : Out :=
  .next (match s.cmdAt core idx with
    | none => s
    | some (m, p) =>
      if m.state != 1 || !s.tilesHere m p then s
      else if m.kind = 1 then
        (s.modTile p.bid m.tile fun t => { t with work := [], pWork := [] }).retireCmd core m
      else
        let t := s.reach p m
        match t.runCmd p m with
        | some (q, b, _, none) =>
          let c := t.checkRows p q.a q.ia
          let d := c.1.checkRows p q.b q.ib
          if c.2 || d.2 then d.1.failCmd core m p .scratch
          else ((d.1.endRun p m q b q.kLen true).freeCells p m q (t.lateCells p m q)).retireCmd core m
        | _ => s)
/-- `COMMAND_FAULT`: an operand or record page fault. -/
def execCommandFault (core idx : Nat) (s : State) : Out :=
  .next (match s.cmdAt core idx with
    | none => s
    | some (m, p) =>
      if s.mayStart core idx m p then
        let t := s.reachStart p m
        match t.startRead p m with
        | .error f => if f.1.1 = .pageFault then t.faultCmd core m p m.prog f else s
        | .ok _ => s
      else if m.kind != 0 || m.state != 1 || !s.tilesHere m p then s
      else
        let t := s.reach p m
        match t.runCmd p m with
        | some (q, b, k, some f) => if f.1.1 = .pageFault then (t.endRun p m q b k false).faultCmd core m p k f else s
        | _ => s)
/-- `COMMAND_FAILED`: an operand read of a running command that is neither served nor a page fault. -/
def execCommandFailed (core idx : Nat) (s : State) : Out :=
  .next (match s.cmdAt core idx with
    | none => s
    | some (m, p) =>
      if m.kind != 0 || m.state != 1 || !s.tilesHere m p then s
      else
        let t := s.reach p m
        match t.runCmd p m with
        | some (q, b, k, some f) => if f.1.1 = .pageFault then s else (t.endRun p m q b k false).failCmd core m p (State.failCause f.1)
        | _ => s)
/-- `ACCSWAP_EXCHANGE` (R350, R299): a mark is reported and cleared, or the banks change places. -/
def execAccswapExchange (core idx : Nat) (s : State) : Out :=
  .next (match s.cmdAt core idx with
    | none => s
    | some (m, p) =>
      if m.kind != 2 || !s.cmdFree core idx m p then s
      else
        let t := mapGetD p.blk.tiles m.tile Tile.zero
        let s := s.dropCmd core m
        let base : Trap := { p.trap .engineFault .none with mask := 0 }
        match t.lost, t.failed with
        | some n, _ =>
          (s.modTile p.bid m.tile fun t => { t with lost := none, failed := none }).trapSwap m
            { base with code := .engineReset, cause := .lost, aux := BitVec.ofNat 32 n }
        | none, some (n, u) =>
          (s.modTile p.bid m.tile fun t => { t with failed := none }).trapSwap m { base with cause := u, aux := BitVec.ofNat 32 n }
        | none, none =>
          let s := s.modTile p.bid m.tile fun t => { t with work := t.vis, vis := t.work, pWork := t.pVis, pVis := t.pWork }
          (s.endSwap m).wake)

/-! ### Reset of a hung array (R298) -/

namespace State

/-- Every command on a core's array is lost, pending swaps among them. A tile is marked by the lost commands that name it, its partner's
span commands among them. A swap stays pending, to take ENGINE_RESET at its tile's mark (R299). -/
def loseCmds (s : State) (g : Nat) (spans : List MCmd) : State :=
  let gone := (s.core g).mq
  let low := (leastBy (·.num) gone).elim 0 (·.num)
  let s := (s.blocksOn g).foldl (fun s b =>
    let named := gone.filter (fun m => m.bid == b.id.bid) ++ spans.filter fun m => b.id.partner == some m.bid
    (s.modBlk b.id.bid fun b =>
      { b with tiles := (List.range b.ntiles).foldl (fun ts t =>
          let old := mapGetD ts t Tile.zero
          let n := leastBy (·.num) (named.filter fun m => m.tile == t)
          mapSet ts t { old with work := freeBank (s.fresh.free + 16384 * t), pWork := [], lost := old.lost.or (n.map (·.num)) }) b.tiles }
      ).takeFree (16384 * 16)) s
  let s := (gone.filter fun m => m.kind != 2).foldl (fun s m => s.retireCmd g m) s
  let ctx := (s.core g).ctx
  (s.report ctx false
    (recordBytes 0x40 0 2 0 s.time.ns 0 255 ones64 0 (locOf g) low 0 gone.length 0)).modCore g fun c => { c with reset := some (s.time.clk + 12000) }
/-- A running command whose tiles are at hand has accumulated no chunk for 2 ms. -/
def hung (s : State) (g : Nat) : Bool :=
  (List.range (s.core g).mq.length).any fun i => (s.cmdAt g i).elim false fun q =>
    q.1.state == 1 && decide (q.1.since + 2000000 ≤ s.time.ns) && s.tilesHere q.1 q.2
def spanCmds (s : State) (g : Nat) : List MCmd := (s.core g).mq.filter fun m => m.span && m.state != 2

end State

/-- `ENGINE_HANG`: a running command has accumulated no chunk for 2 ms. A span command QUEUED or RUNNING on either core of the pair takes
the other core with it. -/
def execEngineHang (core : Nat) (s : State) : Out :=
  .next (
    if !s.hung core || (s.core core).reset.isSome then s
    else
      let other := if core % 2 = 0 then core + 1 else core - 1
      let spans := s.spanCmds core ++ s.spanCmds other
      let t := s.loseCmds core spans
      if spans.isEmpty then t else t.loseCmds other spans)
def execEngineResetEnd (core : Nat) (s : State) : Out :=
  .next (if (s.core core).reset.isSome then (s.modCore core fun c => { c with reset := none }).wake else s)

/-! ### Copies (R229-R232, R300) -/

namespace State

/-- `n` bytes of the global space read by a dray: one read request per line, which reader counts count (R174). -/
def drayRead (s : State) (o : Origin) (a n mark : Nat) : State × Except EngineFail Nat :=
  let late := s.lateAt o.ctx (after mark) false
  let lines := (List.range ((a % 128 + n + 127) / 128)).map fun i => lineVa a + 128 * i
  lines.foldl (fun (acc : State × Except EngineFail Nat) v =>
    match acc.2 with
    | .error f => (acc.1, .error f)
    | .ok x =>
      let lo := max a v
      let hi := min (a + n) (v + 128)
      let t := acc.1.sendLine o v
      match t.peekFrom o late lo (hi - lo) with
      | .error f => (t, .error f)
      | .ok w => (t.lookLine o v true, .ok (x + w * 2 ^ (8 * (lo - a))))) (s, .ok 0)
/-- `n` bytes of the global space written by a dray, one line at a time; bytes stored since the issue are unspecified (R212). They end the
release sequences of their places (R211) and are numbered for the matrix engine (R210). -/
def drayWrite (s : State) (o : Origin) (a n mark v : Nat) : State × Except EngineFail Unit :=
  let lines := (List.range ((a % 128 + n + 127) / 128)).map fun i => lineVa a + 128 * i
  lines.foldl (fun (acc : State × Except EngineFail Unit) l =>
    match acc.2 with
    | .error f => (acc.1, .error f)
    | .ok _ =>
      let lo := max a l
      let hi := min (a + n) (l + 128)
      if noncanon lo then (acc.1, .error ((.protection, .noncanon), lo))
      else if !acc.1.mapOk o.ctx lo then (acc.1, .error ((.protection, .nohome), lo))
      else
        let bytes := (List.range (hi - lo)).map fun i =>
          if acc.1.lateAt o.ctx (after mark) false (lo + i) then Config.freeByte (acc.1.fresh.free + lo + i) else BitVec.ofNat 8 (v / 2 ^ (8 * (lo + i - a)))
        let r := acc.1.storeBelow o l (BitVec.ofNat 1024 (leNat bytes * 2 ^ (8 * (lo - l)))) (byteRange (lo - l) (hi - lo)) 0
        match r.2 with
        | .error f => (r.1, .error (f, lo))
        | .ok (lost, _) =>
          if lost = 0 then ((r.1.forgetSync o.ctx lo (hi - lo)).stampEngine o.ctx lo (hi - lo), .ok ())
          else (r.1, .error ((.poison, .none), lo))) (s, .ok ())
/-- Bytes written into a window by a dray. -/
def drayScratch (s : State) (p : Pass) (a n mark v : Nat) : State × Except EngineFail Unit :=
  match s.blk? p.bid with
  | none => (s, .ok ())
  | some b =>
    if b.ps.size < a + n then (s, .error ((.protection, .scratchBound), a))
    else
      let words := (List.range (a / 8 + n / 8 + 2)).filter fun w => decide (a / 8 ≤ w) && decide (8 * w < a + n)
      let part := words.filter fun w => b.ps.poison.contains w && (decide (8 * w < a) || decide (a + n < 8 * w + 8))
      if !part.isEmpty then (s, .error ((.poison, .none), a))
      else
        let c := if s.isDet p then s.scratchCheck p a (max 1 n) true (clockOf p).phase else (s, none)
        if c.2.isSome then (c.1, .error ((.race, .scratch), a))
        else
          let bytes := (List.range n).map fun i =>
            if lateIn b (after mark) false (a + i) then Config.freeByte (s.fresh.free + i) else BitVec.ofNat 8 (v / 2 ^ (8 * i))
          let k := (c.1.ctx? p.ctx).elim 0 (·.stores) + 1
          let s := c.1.modCtx p.ctx fun x => { x with stores := k }
          ((s.modBlk p.bid fun b =>
              { b with ps := { b.ps with
                  bytes := byteSets b.ps.bytes a bytes
                  engine := mapSetAll b.ps.engine ((List.range n).map (a + ·)) fun _ => k
                  poison := b.ps.poison.filter fun w => !words.contains w
                  syncs := b.ps.syncs.filter fun e => !keyIn a n e.1 } }).wake, .ok ())

end State

/-- A copy with both records and its origin. -/
structure CopyJob where
  src : Shape
  dst : Shape
  is : Nat
  id : Nat
  row0 : Nat
  col0 : Nat
  deriving DecidableEq, Repr

namespace CopyJob

/-- Component rows of the destination. -/
def rows (q : CopyJob) : Nat := q.dst.rows * if q.dst.planar then q.dst.d else 1
/-- The checks of R230 and the row length of R231. ALG 0 and ALG 1 are one value, d = 1, to the comparison (log 112). -/
def ok (q : CopyJob) : Bool :=
  let sub (h : Shape) : Bool := h.rowBits % 8 == 0
  q.src.clean && q.dst.clean && q.src.fmt == q.dst.fmt && q.src.d == q.dst.d && sub q.src && sub q.dst && !q.dst.nl
    && q.src.scope == 0 && decide (q.dst.scope ≤ 4) && decide (q.row0 + q.dst.rows ≤ q.src.rows)
    && decide (q.col0 + q.dst.cols ≤ q.src.cols) && (q.src.nl || decide (q.src.rowBytes ≤ q.src.stride))
    && decide (q.dst.rowBytes ≤ q.dst.stride) && (q.src.d == 1 || q.src.planar == q.dst.planar)
    && q.src.slotOk q.is && q.dst.slotOk q.id && (!q.src.nl || q.src.rowBytes == 128)
/-- The stored source row of destination row `i`. -/
def srcRow (q : CopyJob) (i : Nat) : Nat :=
  if q.dst.planar then i / q.dst.rows * q.src.rows + q.row0 + i % q.dst.rows else q.row0 + i
/-- First bit of the region in a source row. -/
def bit0 (q : CopyJob) : Nat := q.col0 * (if q.src.planar then 1 else q.src.d) * fmtBits q.src.fmt

end CopyJob

namespace State

/-- The copy that both records in 256 bytes give. -/
def jobFrom (y : Copy) (w : Nat) : CopyJob :=
  { src := shapeOf (w % 2 ^ 1024), dst := shapeOf (w / 2 ^ 1024), is := y.ks.toNat % 128, id := bitsOf y.kx.toNat 62 56,
    row0 := y.kx.toNat % 2 ^ 32, col0 := bitsOf y.kx.toNat 55 32 }
/-- The records of a copy that has started (R370); one restored while it ran reads them again (R296). -/
def heldJob (y : Copy) : Option Nat := if y.reread then none else y.recs
/-- Both records of a copy: as it holds them, or as it reads them now. -/
def recsOf (s : State) (p : Pass) (y : Copy) : State × Except EngineFail Nat :=
  match heldJob y with
  | some w => (s, .ok w)
  | none => s.drayRead p.origin (recordVa y.ks) 256 y.seq
/-- The bytes of one destination row, read from the source. The name list of a record with SP and NL both set is read from the scratchpad
window (log 111). -/
def copySource (s : State) (p : Pass) (y : Copy) (q : CopyJob) (i : Nat) : State × Except EngineFail Nat :=
  let n := q.dst.rowBytes
  let m := (q.bit0 % 8 + 8 * n + 7) / 8
  let cut (w : Nat) : Nat := w / 2 ^ (q.bit0 % 8) % 2 ^ (8 * n)
  let row := q.srcRow i
  let b := (s.blk? p.bid).getD p.blk
  if q.src.nl then
    let entry := q.src.start q.is + 16 * row
    let l := if q.src.sp then (s, s.peekScratch b (lateIn b (after y.seq) false) entry 16) else s.drayRead p.origin entry 16 y.seq
    match l.2 with
    | .error f => (l.1, .error f)
    | .ok name =>
      let r := l.1.lineByName p.origin name
      (r.1, match r.2 with
        | .error f => .error (f, r.1.poolVa p.ctx (nameDigest name))
        | .ok d => .ok (cut (d.toNat / 2 ^ (8 * (q.bit0 / 8)))))
  else
    let a := q.src.start q.is + row * q.src.stride + q.bit0 / 8
    let r :=
      if q.src.sp then
        let c := if s.isDet p then s.scratchCheck p a (max 1 m) false (clockOf p).phase else (s, none)
        (c.1, if c.2.isSome then Except.error (((.race, .scratch), a) : EngineFail)
              else s.peekScratch b (lateIn b (after y.seq) false) a m)
      else s.drayRead p.origin a m y.seq
    (r.1, r.2.map cut)
/-- One destination row copied. -/
def copyRowOf (s : State) (p : Pass) (y : Copy) (q : CopyJob) (i : Nat) : State × Except EngineFail Unit :=
  let r := s.copySource p y q i
  match r.2 with
  | .error f => (r.1, .error f)
  | .ok v =>
    let a := q.dst.start q.id + i * q.dst.stride
    if q.dst.sp then r.1.drayScratch p a q.dst.rowBytes y.seq v else r.1.drayWrite p.origin a q.dst.rowBytes y.seq v
def copyAt (s : State) (g i : Nat) : Option (Copy × Pass) := do
  let y ← (s.core g).copies[i]?
  let p ← s.agent y.bid y.who 0 y.off
  let at_ : DetClock := match y.det with
    | none => clockOf p
    | some c => { phase := (c.vc[y.who]?).getD 1, vc := c.vc }
  some (y, { p with sk := { p.sk with x := { p.sk.x with det := at_ } }, co := { p.co with det := at_ } })
def modCopy (s : State) (g : Nat) (y : Copy) (f : Copy → Copy) : State :=
  s.modCore g fun c => { c with copies := c.copies.map fun (x : Copy) => if x.bid == y.bid && x.num == y.num then f x else x }
def dropCopy (s : State) (g : Nat) (y : Copy) : State :=
  s.modCore g fun c => { c with copies := c.copies.filter fun x => !(x.bid == y.bid && x.num == y.num) }
/-- Bytes of a destination become unspecified, piece by piece (a first byte and the first after it), as far as they can be written: where one
fails the others do not. -/
def spoil (s : State) (p : Pass) (y : Copy) (q : CopyJob) (l : List (Nat × Nat)) : State :=
  let p : Pass := { p with blk := { p.blk with id := { p.blk.id with lid := s.fresh.lid + 1 } } }
  l.foldl (fun s w =>
    let v := (Config.freeDouble s.fresh.free).toNat
    let s := s.takeFree 1
    if q.dst.sp then (s.drayScratch p w.1 (w.2 - w.1) y.seq v).1 else (s.drayWrite p.origin w.1 (w.2 - w.1) y.seq v).1) s
/-- The row in progress holds unspecified bytes (R232). -/
def spoilRow (s : State) (p : Pass) (y : Copy) (q : CopyJob) : State :=
  let a := q.dst.start q.id + y.prog * q.dst.stride
  s.spoil p y q ((List.range ((a % 8 + q.dst.rowBytes + 7) / 8)).map fun i =>
    (max a (a / 8 * 8 + 8 * i), min (a + q.dst.rowBytes) (a / 8 * 8 + 8 * i + 8)))
/-- A byte of a source that is read at byte `a` was stored since the issue. -/
def sourceLate (s : State) (p : Pass) (y : Copy) (q : CopyJob) (a : Nat) : Bool :=
  if q.src.sp then lateIn ((s.blk? p.bid).getD p.blk) (after y.seq) false a else s.lateAt p.ctx (after y.seq) false a
/-- Bytes of the destination that are stored to, or whose source is, between a copy's issue and its counter's value (R212). -/
def lateBytes (s : State) (p : Pass) (y : Copy) (q : CopyJob) : List (Nat × Nat) :=
  (List.range q.rows).flatMap fun i =>
    let a := q.dst.start q.id + i * q.dst.stride
    let row := q.srcRow i
    let listed := q.src.nl && (List.range 16).any fun x => s.sourceLate p y q (q.src.start q.is + 16 * row + x)
    let from_ := q.src.start q.is + row * q.src.stride + q.bit0 / 8
    let hit (x : Nat) : Bool :=
      listed || (if q.dst.sp then lateIn ((s.blk? p.bid).getD p.blk) (after y.seq) false (a + x) else s.lateAt p.ctx (after y.seq) false (a + x))
        || (!q.src.nl && (s.sourceLate p y q (from_ + x) || (q.bit0 % 8 != 0 && s.sourceLate p y q (from_ + x + 1))))
    ((List.range q.dst.rowBytes).filter hit).map fun x => (a + x, a + x + 1)
/-- An unrecoverable fault (R300): the fault's row is unspecified, FAULT is set and an error record is written. -/
def abortCopy (s : State) (g : Nat) (y : Copy) (p : Pass) (u : Cause) (va : Nat) : State :=
  let q := y.recs.map (jobFrom y)
  let s := if y.state = 0 then s else q.elim s fun q => s.spoilRow p y q
  let scope := q.elim 4 fun q => min 4 q.dst.scope
  let s := s.report (some p.ctx) false
    (recordBytes 0x41 u.code (2 + p.coach.toNat) p.off s.time.ns p.blk.id.seq p.ix p.blk.id.idx 0 (locOf g) y.num va 0 0)
  (s.dropCopy g y).countDone p y.num true y.kc scope y.det true
/-- A copy parks on a page fault with its row progress (R232) and the address that faulted. -/
def parkCopy (s : State) (g : Nat) (y : Copy) (p : Pass) (f : EngineFail) : State :=
  (s.modCopy g y fun x => { x with state := 2, va := f.2 }).report (some p.ctx) true
    (recordBytes 0x10 f.1.2.code (2 + p.coach.toNat) p.off s.time.ns p.blk.id.seq p.ix p.blk.id.idx 0 (locOf g) y.num f.2 0 0)
/-- The die's 24 drays serve the copies of its cores, lowest queue position first; of two at one position the lower core's (log 84). -/
def drayFree (s : State) (g idx : Nat) : Bool :=
  let here := s.cores.filter fun e => dieOf e.1 == dieOf g
  let before (e : Nat × Core) (i : Nat) : Bool :=
    (e.2.copies[i]?).elim false (fun y => y.state == 0) && (decide (i < idx) || (i == idx && decide (e.1 < g)))
  decide ((here.foldl (fun n e => n + (e.2.copies.filter fun y => y.state == 1).length) 0) < 24)
    && !here.any fun e => (List.range e.2.copies.length).any (before e)

end State

/-- `COPY_START`: a dray takes a copy, whose records it reads and checks once (R230, R370). -/
def execCopyStart (core idx : Nat) (s : State) : Out :=
  .next (match s.copyAt core idx with
    | none => s
    | some (y, p) =>
      if y.state != 0 || !s.drayFree core idx then s
      else
        let r := s.recsOf p y
        match r.2 with
        | .error f => if f.1.1 = .pageFault then s else r.1.abortCopy core y p (State.failCause f.1) f.2
        | .ok w =>
          if (State.jobFrom y w).ok then r.1.modCopy core y fun x => { x with state := 1, recs := some w, reread := false }
          else r.1.abortCopy core { y with recs := some w } p .check (recordVa y.ks))
/-- `COPY_ROW`: one row; the last increments the counter. -/
def execCopyRow (core idx : Nat) (s : State) : Out :=
  .next (match s.copyAt core idx with
    | none => s
    | some (y, p) =>
      if y.state != 1 then s
      else
        let j := s.recsOf p y
        match j.2 with
        | .error f => if f.1.1 = .pageFault then s else j.1.abortCopy core y p (State.failCause f.1) f.2
        | .ok w =>
          let y := { y with recs := some w, reread := false }
          let q := State.jobFrom y w
          if !q.ok then j.1.abortCopy core y p .check (recordVa y.ks)
          else
            let r := j.1.copyRowOf p y q y.prog
            match r.2 with
            | .error f => if f.1.1 = .pageFault then s else r.1.abortCopy core y p (State.failCause f.1) f.2
            | .ok _ =>
              let t := (r.1.countDie (State.dieOf core) 0x06 p.ctx).takeFree (2 ^ 58)
              if q.rows ≤ y.prog + 1 then
                ((t.spoil p y q (t.lateBytes p y q)).dropCopy core y).countDone p y.num true y.kc (min 4 q.dst.scope) y.det false
              else t.modCopy core y fun x => { x with prog := y.prog + 1, recs := some w, reread := false })
/-- `COPY_PAGE_FAULT`: at the records, or in the row in progress. -/
def execCopyPageFault (core idx : Nat) (s : State) : Out :=
  .next (match s.copyAt core idx with
    | none => s
    | some (y, p) =>
      if 2 ≤ y.state || (y.state == 0 && !s.drayFree core idx) then s
      else
        let j := s.recsOf p y
        match j.2 with
        | .error f => if f.1.1 = .pageFault then s.parkCopy core y p f else s
        | .ok w =>
          if y.state = 0 ∨ (State.jobFrom y w).ok = false then s
          else match (j.1.copyRowOf p y (State.jobFrom y w) y.prog).2 with
            | .error f => if f.1.1 = .pageFault then s.parkCopy core y p f else s
            | .ok _ => s)

/-! ### Bound prefetches (R235) -/

namespace State

/-- The bound prefetches outstanding, core by core. -/
def prefsOf (s : State) : List (Nat × PrefArr) := s.cores.flatMap fun e => e.2.prefs.map fun q => (e.1, q)
/-- A bound prefetch makes its arrival; an object that cannot be reached keeps it waiting. -/
def prefArrive (s : State) (g : Nat) (q : PrefArr) : State :=
  match s.agent q.bid q.sk q.arm 0 with
  | none => s.modCore g fun c => { c with prefs := c.prefs.erase q }
  | some p =>
    let r := s.homeRead p.origin q.obj 32 .atomic
    match r.2.toOption.bind barObj with
    | none => if r.2.toOption.isNone then r.1 else r.1.modCore g fun c => { c with prefs := c.prefs.erase q }
    | some o =>
      let t := r.1.modCore g fun c => { c with prefs := c.prefs.erase q }
      if o.expect = 0 then t else (t.arriveAt p q.obj o).1

end State

def execPrefetchArrival (idx : Nat) (s : State) : Out :=
  .next (match s.prefsOf[idx]? with
    | none => s
    | some (g, q) => s.prefArrive g q)

end Sys2Proof.Machine
end

