-- ==== Sys2Proof/Machine/Hardware.lean ====
section
/-! DEFINITION. What relays, controllers and host dies share: reads and writes of a context's space and of channel addresses, the
parked issuers of a core, abandoning a wait (01 R42; 06 R164; 10 R262; 12 R295; 13 R314, R316). -/

namespace Sys2Proof.Machine

/-! ### Reads and writes made by no block -/

/-- A unit of a package acting for a context. -/
def unitOrigin (c pkg : Nat) : Origin := { ctx := c, core := none, pkg := pkg, bid := none, ix := 255, off := 0 }

namespace State

/-- The pieces of `n` bytes from `a` that each lie in one line: address and length. -/
def pieces (a n : Nat) : List (Nat × Nat) :=
  (List.range ((a % 128 + n + 127) / 128)).map fun i =>
    let v := lineVa a + 128 * i
    let lo := max a v
    (lo, min (a + n) (v + 128) - lo)
/-- One piece read at its home. -/
def readPiece (s : State) (o : Origin) (a n : Nat) : State × Except Fail (List Byte) :=
  if noncanon a then (s, .error (.protection, .noncanon))
  else if !s.mapOk o.ctx a then (s, .error (.protection, .nohome))
  else
    let r := (s.passSwitch o a).request o.ctx a .read
    match r.2 with
    | .error f => (r.1, .error f)
    | .ok h =>
      let grans := (h.addr % 32 + n + 31) / 32
      let t := r.1.countHome h o.ctx grans
      if (List.range grans).any fun i => t.poisoned (h.addr / 32 + i) then (t, .error (.poison, .none))
      else (t.takeFree n, .ok (t.homeBytes h h.addr n))
/-- `n` bytes of a context's space read by a unit: the first failure, with its address, ends the read. -/
def hwRead (s : State) (o : Origin) (a n : Nat) : State × Except (Fail × Nat) (List Byte) :=
  (pieces a n).foldl (fun (acc : State × Except (Fail × Nat) (List Byte)) q =>
    match acc.2 with
    | .error _ => acc
    | .ok l =>
      let r := acc.1.readPiece o q.1 q.2
      (r.1, match r.2 with
        | .error f => .error (f, q.1)
        | .ok b => .ok (l ++ b))) (s, .ok [])
/-- Bytes written at their homes by a unit, as later readers see it: they end release sequences (R211), and an engine that is not
ordered after them finds them unspecified (R210, R212). A byte that lands on a partly covered poisoned granule fails the write. -/
def hwWrite (s : State) (o : Origin) (a : Nat) (b : List Byte) : State × Except (Fail × Nat) Unit :=
  (pieces a b.length).foldl (fun (acc : State × Except (Fail × Nat) Unit) q =>
    match acc.2 with
    | .error _ => acc
    | .ok _ =>
      if noncanon q.1 then (acc.1, .error ((.protection, .noncanon), q.1))
      else if !acc.1.mapOk o.ctx q.1 then (acc.1, .error ((.protection, .nohome), q.1))
      else
        let v := leNat (slice b (q.1 - a) q.2)
        let m := byteRange (q.1 % 128) q.2
        let r := acc.1.storeBelow { o with core := none } q.1 (BitVec.ofNat 1024 (v * 2 ^ (8 * (q.1 % 128)))) m 0
        match r.2 with
        | .error f => (r.1, .error (f, q.1))
        | .ok (lost, _) =>
          ((r.1.forgetSync o.ctx q.1 q.2).stampStores o.ctx (lineVa q.1) (m &&& ~~~lost),
            if lost = 0 then .ok () else .error ((.poison, .none), q.1))) (s, .ok ())

/-- Bytes at a channel address, in plaintext (R316); none where a granule is poisoned or the channel does not exist. -/
def chanRead (s : State) (a n : Nat) : Option (List Byte) :=
  if !s.chanOk a || (List.range ((a % 32 + n + 31) / 32)).any fun i => s.poisoned (a / 32 + i) then none
  else some (s.physBytes 0 a n)
/-- Bytes written at a channel address, in plaintext; a granule covered whole loses its poison, a granule covered in part that
is poisoned fails the write. -/
def chanWrite (s : State) (a : Nat) (b : List Byte) : Option State :=
  let n := b.length
  let grans := (List.range ((a % 32 + n + 31) / 32)).map fun i => a / 32 + i
  let whole (g : Nat) : Bool := decide (a ≤ 32 * g) && decide (32 * g + 32 ≤ a + n)
  if !s.chanOk a || grans.any fun g => s.poisoned g && !whole g then none
  else
    let s := grans.foldl (fun s g => (s.rekey 0 g).setPoison g false) s
    let t : State := { s with mem := { s.mem with bytes := byteSets s.mem.bytes a b, writes := s.mem.writes + 1 } }
    some ((t.lookLines 4096 a n).countPkg (chanPkg (a / 2 ^ 31)) 0x02 4096 grans.length)

/-! ### Parked issuers -/

/-- The number of a core slot that no core has: where a saved block stands. -/
def nowhere : Nat := 2 ^ 32
/-- Where blocks of context `c` saved from core `g` stand. -/
def away (c g : Nat) : Nat := nowhere * (c + 1) + g
def placedBlk (b : Block) : Bool := decide (b.id.core < nowhere)

end State

/-- The wait kinds of the save records (R93). -/
def Wait.code : Wait → Nat
  | .bar _ => 1 | .cwait => 2 | .waitcmp => 4 | .grow _ _ => 5 | .tqpop _ => 6 | .tqpush _ => 6 | .dqpop => 7 | .yield => 8
  | .fault _ _ _ => 9 | .srwait => 0xA | .bowait => 0xB | .dqpush => 0xC | .mqueue => 0xD | .copyLimit => 0xE
def Wait.isFault : Wait → Bool
  | .fault _ _ _ => true
  | _ => false
/-- An arm that issues nothing now: parked, held, complete, or with all its lanes held at joins. -/
def Arm.still (a : Arm) : Bool := a.wait.isSome || a.hold.isSome || a.complete || a.path.isNone
/-- A skein is parked when no arm of it can go on and one waits, or its lanes are held at joins (R42). -/
def Skein.parked (k : Skein) : Bool :=
  k.life == .live && k.arms.all (fun a => a.wait.isSome || a.complete || a.path.isNone) && k.live != 0
/-- Its wait kind: the first arm's that waits, else 3, `JWAIT`. -/
def Skein.waitKind (k : Skein) : Nat := ((k.arms.find? fun a => a.wait.isSome).bind (·.wait)).elim 3 Wait.code
def Skein.onFault (k : Skein) : Bool := k.parked && k.arms.any fun a => a.wait.elim false Wait.isFault
/-- Every arm stands between two instructions. -/
def Skein.atBoundary (k : Skein) : Bool :=
  k.arms.all fun a => a.wait.isSome || a.hold == some (2 ^ 32) || (a.hold.isNone && a.issue.isNone)
def Coach.still (c : Coach) : Bool := c.ended || c.held.isSome || c.wait.isSome || c.hold.isSome

namespace State

/-- A core is idle (R262): every issuer parked or held, no command running, no copy queued or running. -/
def coreIdle (s : State) (g : Nat) : Bool :=
  let bs := s.blocksOn g
  bs.all (fun b => b.held || (b.skeins.all (fun k => k.life != .live || k.arms.all Arm.still) && b.coach.elim true Coach.still))
    && !((s.core g).mq.any fun m => m.state == 1) && !((s.core g).copies.any fun y => decide (y.state ≤ 1))
/-- A launch of flags at CTL bit `i` that runs on a core (R256, R262). -/
def coreCtl (s : State) (g i : Nat) : Bool := (s.blocksOn g).any fun b => s.ctlBit b.id.lid i
/-- An arm leaves the waiting lists and monitors of its wait. -/
def abandonArm (s : State) (b : Block) (i : Nat) (k : Skein) (a : Nat) : State :=
  (k.arm a).wait.elim s fun w => s.endWait b.id.core (.skein b.id.bid i a) w
/-- A skein's waits are abandoned (R42): it leaves barriers, waiting lists and monitors. -/
def abandon (s : State) (bid i : Nat) : State :=
  match s.sk? bid i, s.blk? bid with
  | some k, some b =>
    ((s.endWaits b i k).leaveBars bid i).modSk bid i fun k =>
      let free (a : Arm) : Arm := { a with wait := none, hold := if a.hold = some (2 ^ 32) then none else a.hold }
      { k with arms := k.arms.map free }
  | _, _ => s
end State

end Sys2Proof.Machine
end

