-- ==== Sys2Proof/Machine/Records.lean ====
section
/-! DEFINITION. Fault and error records in their queues, completion records, the reproducibility signature and recordings (10 R248;
11 R280-R283; 12 R303, R304; 13 R316). -/

namespace Sys2Proof.Machine

/-! ### Record queues (R303, R316) -/

def powerCap (n : Nat) : Bool := (List.range 17).any fun i => n == 2 ^ i
/-- A record as the rack error queue takes it: bytes 57:56 name the context. -/
def rackRecord (c : Option Nat) (b : List Byte) : List Byte :=
  match c with
  | none => b
  | some n => b.take 56 ++ leBytes 2 (n % 4096 + 32768) ++ b.drop 58

namespace State

def loseRerr (s : State) : State := { s with relay := { s.relay with rerrlost := min (s.relay.rerrlost + 1) 0xFFFFFFFF } }
/-- A record for the rack error queue: dropped and counted where there is no queue or no room (R316). -/
def rackReport (s : State) (b : List Byte) : State :=
  let q := s.relay.rerrq
  if q = 0 then s.loseRerr
  else match s.chanRead q 16 with
    | none => s.loseRerr
    | some h =>
      let s := s.lookLines 4096 q 16
      let cap := natAt h 0 4
      let tail := natAt h 8 4
      if !powerCap cap || (tail + 2 ^ 32 - natAt h 4 4) % 2 ^ 32 == cap then
        (s.chanWrite (q + 12) (leBytes 4 (min (natAt h 12 4 + 1) 0xFFFFFFFF))).getD s.loseRerr
      else
        match s.chanWrite (q + 64 + 64 * (tail % cap)) b with
        | none => s.loseRerr
        | some t => (t.chanWrite (q + 8) (leBytes 4 (tail + 1))).getD t
/-- A record leaves for its queue; none while a fault record waits for room. -/
def putRecord (s : State) (r : RecWait) : Option State :=
  let toRack (s : State) : Option State := some (s.rackReport (rackRecord r.ctx r.bytes))
  match r.ctx with
  | none => toRack s
  | some c =>
    let va := (s.ctx? c).elim 0 fun x => if r.fault then x.d.faultq else x.d.errq
    let o := unitOrigin c ((s.relay.primary).getD 0)
    if va = 0 then toRack s
    else
      let h := s.hwRead o va 16
      match h.2 with
      | .error _ => toRack h.1
      | .ok h4 =>
        let cap := natAt h4 0 4
        let tail := natAt h4 8 4
        if !powerCap cap || (tail + 2 ^ 32 - natAt h4 4 4) % 2 ^ 32 == cap then
          if r.fault then none
          else
            let w := h.1.hwWrite o (va + 12) (leBytes 4 (min (natAt h4 12 4 + 1) 0xFFFFFFFF))
            match w.2 with
            | .ok _ => some w.1
            | .error _ => toRack w.1
        else
          let w := h.1.hwWrite o (va + 64 + 64 * (tail % cap)) r.bytes
          match w.2 with
          | .error _ => toRack w.1
          | .ok _ =>
            let t := w.1.hwWrite o (va + 8) (leBytes 4 (tail + 1))
            match t.2 with
            | .error _ => toRack t.1
            | .ok _ => some t.1
/-- The first record of a list that can leave, with the state after it and the records that stay. -/
def firstRecord (s : State) : List RecWait → Option (State × List RecWait)
  | [] => none
  | r :: l => match s.putRecord r with
    | some t => some (t, l)
    | none => (s.firstRecord l).map fun q => (q.1, r :: q.2)

end State

def execFaultRecord (s : State) : Out :=
  .next (match s.firstRecord s.mem.recs with
    | none => s
    | some (t, l) => { t with mem := { t.mem with recs := l } })

/-! ### Completion records (R248) -/

/-- Bytes 0 to 55 of a completion record. -/
def completionBytes (status detail seq accept first end_ retired : Nat) : List Byte :=
  leBytes 1 status ++ leBytes 1 0 ++ leBytes 2 detail ++ leBytes 4 0 ++ leBytes 8 seq ++ leBytes 8 accept ++ leBytes 8 first
    ++ leBytes 8 end_ ++ leBytes 8 retired ++ leBytes 8 0
namespace State

def primaryPkg (s : State) : Nat := s.relay.primary.getD 0
/-- A completion record written, DONE last; where it cannot be, an error record stands in its place. -/
def writeCompletion (s : State) (c va seq : Nat) (b : List Byte) : State :=
  let o := unitOrigin c s.primaryPkg
  let r := s.hwWrite o va (b.take 56)
  let d := match r.2 with
    | .error f => (r.1, Except.error f)
    | .ok _ => r.1.hwWrite o (va + 56) (leBytes 8 1)
  match d.2 with
  | .ok _ => d.1
  | .error f =>
    d.1.report (some c) false
      (recordBytes 0x43 f.1.2.code 0 0 s.time.ns seq 255 ones64 0 (256 * s.primaryPkg) 0 va 0 0)

/-! ### The reproducibility signature (R280) -/

/-- Part 2 of M: the packet with the fields that do not count zeroed. -/
def signedPacket (p : List Byte) : List Byte :=
  let z (i n : Nat) (l : List Byte) : List Byte := l.take i ++ List.replicate n 0 ++ l.drop (i + n)
  let p := leBytes 4 (natAt p 0 4 % 8192) ++ p.drop 4
  z 4 2 (z 7 1 (z 64 8 (z 72 8 (z 80 8 (z 88 8 (z 96 8 (z 104 8 (z 112 8 (z 120 8 p)))))))))
/-- Part 4 of M: slots 0 to 5. -/
def preloadedBytes : List Byte :=
  ((List.range 6).map fun i => (Config.preloaded i).map fun b => (BitVec.ofNat 8 b : Byte)).flatten
/-- M without the code image, which stands between its two lists. -/
def signatureOf (p code : List Byte) : List Byte :=
  shake256 (leBytes 1 7 ++ leBytes 1 1 ++ leBytes 2 1 ++ leBytes 4 0 ++ signedPacket p ++ code ++ preloadedBytes) 32
/-- The signature of a packet: the code image is read from CODE. -/
def computeSignature (s : State) (c : Nat) (p : List Byte) : State × Option (List Byte) :=
  let n := natAt p 24 1 * natAt p 16 4 + natAt p 20 4 / 16
  let r := s.hwRead (unitOrigin c s.primaryPkg) (natAt p 8 8) n
  (r.1, match r.2 with
    | .error _ => none
    | .ok code => some (signatureOf p code))

/-! ### Recordings as swatch trees (R282, R283) -/

/-- `l` cut into pieces of `n`. -/
def chunks (n : Nat) : Nat → List Byte → List (List Byte)
  | 0, _ => []
  | f + 1, l => if l.isEmpty then [] else l.take n :: chunks n f (l.drop n)
def linesOf (l : List Byte) : List LineW := (chunks 128 (l.length / 128 + 1) l).map fun b => lineOf (padTo 128 b)
/-- Lines put into the pool in order: their names, or none once one does not find room; `taken` are the references held. -/
def putLines (s : State) (c : Nat) (taken : List Nat) (l : List LineW) : State × List Nat × Option (List Nat) :=
  l.foldl (fun (acc : State × List Nat × Option (List Nat)) x =>
    match acc.2.2 with
    | none => acc
    | some ns =>
      let r := if acc.1.poolSize c = 0 then (acc.1, Except.ok (nullName, false)) else acc.1.putLine (unitOrigin c s.primaryPkg) x true
      match r.2 with
      | .ok (n, true) => (r.1, acc.2.1 ++ [n], some (ns ++ [n]))
      | _ => (r.1, acc.2.1, none)) (s, taken, some [])
/-- Interior lines over names, eight to a line. -/
def interior (ns : List Nat) : List LineW :=
  linesOf ((ns.map fun n => leBytes 16 n).flatten)
/-- A tree over named leaves: the name of its root, `NULL` for none. -/
def putTree (s : State) (c : Nat) (taken : List Nat) : Nat → List Nat → State × List Nat × Option Nat
  | 0, _ => (s, taken, none)
  | f + 1, ns => match ns with
    | [] => (s, taken, some nullName)
    | [n] => (s, taken, some n)
    | _ =>
      let r := s.putLines c taken (interior ns)
      match r.2.2 with
      | none => (r.1, r.2.1, none)
      | some ms => putTree r.1 c r.2.1 f ms
def putStream (s : State) (c : Nat) (taken : List Nat) (b : List Byte) : State × List Nat × Option Nat :=
  let r := s.putLines c taken (linesOf b)
  match r.2.2 with
  | none => (r.1, r.2.1, none)
  | some ns => r.1.putTree c r.2.1 24 ns
/-- Streams put one after another. -/
def putStreams (s : State) (c : Nat) (l : List (List Byte)) : State × List Nat × Option (List Nat) :=
  l.foldl (fun (acc : State × List Nat × Option (List Nat)) b =>
    match acc.2.2 with
    | none => acc
    | some ns =>
      let r := acc.1.putStream c acc.2.1 b
      (r.1, r.2.1, r.2.2.map fun n => ns ++ [n])) (s, [], some [])

/-! ### The items of a recording -/

def timeItem (t : Nat × Nat × Nat × Nat × Nat) : List Byte :=
  leBytes 8 t.1 ++ leBytes 1 t.2.1 ++ leBytes 1 t.2.2.1 ++ leBytes 6 0 ++ leBytes 8 t.2.2.2.1 ++ leBytes 8 t.2.2.2.2
def timeLess (a b : Nat × Nat × Nat × Nat × Nat) : Bool :=
  decide (a.1 < b.1) || (a.1 == b.1 && (decide (a.2.1 < b.2.1) || (a.2.1 == b.2.1 && (decide (a.2.2.1 < b.2.2.1)
    || (a.2.2.1 == b.2.2.1 && decide (a.2.2.2.1 ≤ b.2.2.2.1))))))
/-- Items in rising order, the earlier of equals first. -/
def insertBy {α : Type} (le : α → α → Bool) (x : α) : List α → List α
  | [] => [x]
  | y :: l => if le y x then y :: insertBy le x l else x :: y :: l
def sortBy {α : Type} (le : α → α → Bool) (l : List α) : List α := l.foldl (fun m x => insertBy le x m) []
def storeItem (t : Nat × Nat × List Byte) : List Byte :=
  leBytes 8 t.1 ++ leBytes 8 t.2.1 ++ leBytes 4 t.2.2.length ++ leBytes 12 0 ++ padTo ((t.2.2.length + 31) / 32 * 32) t.2.2
def storeLe (a b : Nat × Nat × List Byte) : Bool := decide (a.2.1 < b.2.1) || (a.2.1 == b.2.1 && decide (a.1 ≤ b.1))
/-- Ordered by SEQ, bytes 7:4 of the entry. -/
def seqLe (a b : List Byte) : Bool := decide (natAt a 4 4 ≤ natAt b 4 4)
/-- The header leaf. -/
def headerLeaf (seq accept start : Nat) (sig : List Byte) (counts : List Nat) : List Byte :=
  leBytes 4 1 ++ leBytes 4 0 ++ leBytes 8 seq ++ leBytes 8 accept ++ leBytes 8 start ++ padTo 32 sig
    ++ (counts.map fun n => leBytes 8 n).flatten ++ leBytes 32 0
/-- The recording of a launch is built and its root stored; where the pool has no room it is abandoned, the references are
returned and an error record is written (R282). -/
def buildRecording (s : State) (l : Launch) (completion : List Byte) : State :=
  match l.rec_ with
  | none => s
  | some c =>
    if c.replay then s
    else
      let times := sortBy timeLess c.times
      let frames := sortBy seqLe c.frames
      let tasks := sortBy seqLe c.tasks
      let stores := sortBy storeLe c.stores
      let header := headerLeaf l.seq l.accept l.start c.header [times.length, frames.length, tasks.length, stores.length]
      let r := s.putStreams l.ctx [header, l.packet, (times.map timeItem).flatten, frames.flatten, tasks.flatten,
        (stores.map storeItem).flatten, padTo 128 completion]
      let root := match r.2.2 with
        | none => (r.1, r.2.1, none)
        | some ns =>
          let q := r.1.putLines l.ctx r.2.1 (interior (ns ++ [nullName]))
          (q.1, q.2.1, q.2.2.bind (·.head?))
      let done := match root.2.2 with
        | none => (root.1, Except.error ())
        | some n =>
          let w := root.1.hwWrite (unitOrigin l.ctx s.primaryPkg) (natAt l.packet 120 8) (leBytes 16 n)
          (w.1, w.2.mapError fun _ => ())
      match done.2 with
      | .ok _ => done.1
      | .error _ =>
        let back := root.2.1.foldl (fun s n => (s.countRef (unitOrigin l.ctx s.primaryPkg) n false).1) done.1
        back.report (some l.ctx) false
          (recordBytes 0x42 Cause.recordFull.code 0 0 s.time.ns l.seq 255 ones64 0 (256 * s.primaryPkg) 0 0 0 0)

/-! ### Reading a recording (R284) -/

/-- The leaves of a tree of a given depth, in order. -/
def treeBytes (s : State) (c : Nat) : Nat → Nat → State × Option (List Byte)
  | 0, n =>
    if n = nullName then (s, some [])
    else
      let r := s.lineByName (unitOrigin c s.primaryPkg) n
      (r.1, r.2.toOption.map lineBytes)
  | d + 1, n =>
    if n = nullName then (s, some [])
    else
      let r := s.lineByName (unitOrigin c s.primaryPkg) n
      match r.2 with
      | .error _ => (r.1, none)
      | .ok x =>
        (List.range 8).foldl (fun (acc : State × Option (List Byte)) i =>
          match acc.2 with
          | none => acc
          | some b =>
            let q := acc.1.treeBytes c d (x.toNat / 2 ^ (128 * i) % 2 ^ 128)
            (q.1, q.2.map fun y => b ++ y)) (r.1, some [])
/-- `count` items cut from a byte string, `size` giving each item's length from its first bytes. -/
def cutItems (size : List Byte → Nat) : Nat → List Byte → Option (List (List Byte))
  | 0, _ => some []
  | n + 1, b =>
    let k := size b
    if b.length < k then none else (cutItems size n (b.drop k)).map fun l => b.take k :: l
/-- Levels of interior lines over `m` leaves. -/
def treeDepth : Nat → Nat → Nat
  | 0, _ => 0
  | f + 1, m => if m ≤ 1 then 0 else 1 + treeDepth f ((m + 7) / 8)
/-- A stream read back: of the depths it could have, the one its items agree with. -/
def readStream (s : State) (c root count : Nat) (size : List Byte → Nat) : State × Option (List (List Byte)) :=
  (List.range 12).foldl (fun (acc : State × Option (List (List Byte))) d =>
    match acc.2 with
    | some _ => acc
    | none =>
      let r := acc.1.treeBytes c d root
      let items := r.2.bind fun b => cutItems size count b
      (r.1, items.filter fun l => treeDepth 24 (((l.map List.length).sum + 127) / 128) == d)) (s, none)
def timeOf (b : List Byte) : Nat × Nat × Nat × Nat × Nat := (natAt b 0 8, natAt b 8 1, natAt b 9 1, natAt b 16 8, natAt b 24 8)
/-- Length of an ingress item: ARG1 bits 47:32 hold the frame's length. -/
def frameSize (b : List Byte) : Nat := 32 + (natAt b 28 2 + 31) / 32 * 32
def storeSize (b : List Byte) : Nat := 32 + (natAt b 16 4 + 31) / 32 * 32
def storeOf (b : List Byte) : Nat × Nat × List Byte := (natAt b 0 8, natAt b 8 8, slice b 32 (natAt b 16 4))
/-- A recording by its root name, with its header leaf. -/
def readRecording (s : State) (c root : Nat) : State × Option Rec :=
  let r := s.lineByName (unitOrigin c s.primaryPkg) root
  match r.2 with
  | .error _ => (r.1, none)
  | .ok x =>
    let child (i : Nat) : Nat := x.toNat / 2 ^ (128 * i) % 2 ^ 128
    let h := r.1.treeBytes c 0 (child 0)
    match h.2.filter fun b => b.length == 128 && natAt b 0 4 == 1 with
    | none => (h.1, none)
    | some b =>
      let t := h.1.readStream c (child 2) (natAt b 64 8) fun _ => 32
      let f := t.1.readStream c (child 3) (natAt b 72 8) frameSize
      let k := f.1.readStream c (child 4) (natAt b 80 8) fun _ => 64
      let w := k.1.readStream c (child 5) (natAt b 88 8) storeSize
      (w.1, do
        let t ← t.2
        let f ← f.2
        let k ← k.2
        let w ← w.2
        some { replay := true, root := root, times := t.map timeOf, frames := f, tasks := k, stores := w.map storeOf, header := b })

end State

end Sys2Proof.Machine
end

