-- ==== Sys2Proof/Machine/Life.lean ====
section
/-! DEFINITION. The end of skeins, blocks and grids (01 R39, R42; 08 R215; 10 R248, R249; 11 R278; 17 R375). -/

namespace Sys2Proof.Machine

/-- The number of a skein's frame spill region (R249). -/
def regionOf (x : Ctx) (a : Nat) : Nat := (a - x.d.spillb) / 65536
namespace State

def freeRegion (s : State) (c a : Nat) : State :=
  s.modCtx c fun x => { x with regions := x.regions.filter (· != regionOf x a) }
/-- Outstanding asynchronous operations of an issuer of a block (R42): commands, copies, counter increments, bound prefetches whose
arrivals are still to come. -/
def busyBlock (s : State) (b : Block) : Bool :=
  let c := s.core b.id.core
  (c.mq.any fun m => m.bid == b.id.bid && m.kind != 2) || (c.copies.any fun y => y.bid == b.id.bid)
    || (c.incs.any fun i => i.bid == b.id.bid) || c.prefs.any fun q => q.bid == b.id.bid
def busySkein (s : State) (b : Block) (i : Nat) : Bool :=
  let c := s.core b.id.core
  (c.mq.any fun m => m.bid == b.id.bid && m.who == i && m.kind != 2) || (c.copies.any fun y => y.bid == b.id.bid && y.who == i)
    || (c.incs.any fun x => x.bid == b.id.bid && x.who == i) || c.prefs.any fun q => q.bid == b.id.bid && q.sk == i
def whoBlk : Who → Nat
  | .skein b _ _ => b
  | .coach b => b
/-- Everything a core and the queue units hold for a block goes. -/
def forgetBlock (s : State) (b : Block) : State :=
  let n := b.id.bid
  let s := s.modCore b.id.core fun c =>
    { c with mq := c.mq.filter (·.bid != n), copies := c.copies.filter (·.bid != n), incs := c.incs.filter (·.bid != n),
             mons := c.mons.filter (fun m => whoBlk m.1 != n), grants := c.grants.filter (·.bid != n),
             prefs := c.prefs.filter (·.bid != n) }
  { s with mem := { s.mem with tqwait := s.mem.tqwait.filter fun e => whoBlk e.2.2 != n } }
/-- A core without blocks is free: it belongs to no context, and its algebra slots are the preloaded ones again (R153). -/
def freeCore (s : State) (g : Nat) : State :=
  if (s.blocksOn g).isEmpty then s.modCore g fun c => { c with ctx := none, slots := [], scales := [] } else s
/-- A block leaves its core: its registers, tiles, window and spill regions are free (R42, R249). -/
def dropBlock (s : State) (b : Block) : State :=
  let s := b.skeins.foldl (fun s k => if k.life = .retired then s else s.freeRegion b.id.ctx k.x.region) (s.forgetBlock b)
  let s := { s with blocks := mapErase s.blocks b.id.bid }
  (s.freeCore b.id.core).settleLeft b.id.core (b.id.span == 1)
/-- A block whose skeins have retired and whose coach instance has ended retires: its core writes back its dirty lines (R39,
R215). -/
def retireBlock (s : State) (bid : Nat) : State :=
  match s.blk? bid with
  | none => s
  | some b =>
    if b.skeins.all (fun k => k.life == .retired) && b.coach.elim true (·.ended) && !s.busyBlock b then
      let s := s.flushCore b.id.core
      let s := if b.coach.elim false (·.defer.isSome) then s.poisonLaunch b.id.lid else s
      let s := if ((s.blk? bid).elim false fun b => b.skeins.any fun k => k.x.defer.isSome) then s.poisonLaunch b.id.lid else s
      (s.dropBlock b).modLaunch b.id.lid fun l =>
        let d := State.dieOf b.id.core
        { l with retired := l.retired + 1, doneAt := mapSet l.doneAt d (mapGetD l.doneAt d 0 + 1) }
    else s

end State

/-- A draining skein whose asynchronous operations are complete retires, and with the last one its block. -/
def execSkeinRetire (bid sk : Nat) (s : State) : Out :=
  .next (match s.blk? bid with
    | none => s
    | some b =>
      if !State.placedBlk b then s
      else match b.skeins[sk]? with
        | none => s.retireBlock bid
        | some k =>
          if k.life = .draining ∧ s.busySkein b sk = false then
            let s := (s.freeRegion b.id.ctx k.x.region).modSk bid sk fun k => { k with life := .retired }
            (s.settleGrants b.id.core).retireBlock bid
          else s.retireBlock bid)

/-- `EXIT` (R375): under an empty execute mask the lanes of the planes that hold it end. -/
def execExit (s : State) : Out :=
  s.withPass fun p =>
    if p.coach then (s.modCoach p.bid fun c => { c with ended := true }).retireBlock p.bid
    else
      s.guarded p [p.untrapped]
        (let none? := p.arm.issue.elim 0 (·.exec) == 0
         let s := s.switchPoint p
         let k := (s.sk? p.bid p.ix).getD p.sk
         let r := k.exitLanes p.ai (if none? then p.path else p.act)
         let s := s.modSk p.bid p.ix fun _ => r.1
         let s := if r.2 = 0 then s else s.countCore p.core 0x06 p.ctx r.2
         let s := if (r.1.arm p.ai).issue.isSome && r.1.arms.length == p.sk.arms.length then s.endPass p else s
         s.drain p.blk p.ix)

/-! ### The end of a launch (R215, R247, R248) -/

namespace State

/-- What the vector-clock units and holding buffers keep of a launch goes with it; updates still held are dropped unapplied (log 118). -/
def forgetDet (s : State) (lid : Nat) : State :=
  let mine (k : Nat) : Bool := k / 2 ^ 80 == lid
  let s := (s.mem.held.filter fun h => h.lid == lid && h.spilled).foldl
    (fun s h => s.modDie (chanDie (h.line / 2 ^ 24)) fun d => { d with spills := d.spills - 1 }) s
  { s with mem := { s.mem with
      dwords := s.mem.dwords.filter fun d => d.lid != lid
      clocks := s.mem.clocks.filter fun e => !mine e.1
      windows := s.mem.windows.filter fun e => !mine e.1
      held := s.mem.held.filter fun h => h.lid != lid } }
/-- Ingress bindings end when their launch ends (R320). -/
def endBindings (s : State) (c seq : Nat) : State :=
  { s with hosts := s.hosts.map fun e =>
      (e.1, { e.2 with binds := e.2.binds.filter fun (b : Binding) => !(b.ctx == c && b.seq == seq) }) }
/-- A launch ends with a status: its recording is built before its completion record is written (R282). -/
def endLaunch (s : State) (l : Launch) (status : Nat) : State :=
  let b := completionBytes status 0 l.seq l.accept l.first s.time.ns l.retired
  let s := s.buildRecording l (b ++ leBytes 8 1)
  let s := s.writeCompletion l.ctx (natAt l.packet 80 8) l.seq b
  (((s.forgetDet l.lid).endBindings l.ctx l.seq).modLaunch l.lid fun l => { l with done := true, shares := [], reports := [] })
/-- Updates of a context on their way, which its fences and its grids' completion wait for. -/
def updatesOut (s : State) (c : Nat) : Bool :=
  (s.mem.reqs.any fun q => q.ctx == c && q.kind != 1) || s.trays.any fun e => e.2.parts.any fun q => q.ctx == c

/-- The sum of RETIRED that the tray relays have reported (R253). -/
def reportedRetired (l : Launch) : Nat := ((l.reports.filter fun r => r.level == 2).map (·.retired)).sum

end State

/-- Every block has retired, as the tray relays report (R253), and every write is acknowledged: windows close, the recording is built,
the record is written. -/
def execGridCompletion (lid : Nat) (s : State) : Out :=
  .next (match s.launch? lid with
    | none => s
    | some l =>
      if l.done || State.reportedRetired l != l.total || s.updatesOut l.ctx || s.isFatal l.ctx then s
      else
        let s := s.closeHeld fun h => h.lid == lid
        match s.launch? lid with
        | none => s
        | some l => s.endLaunch l (if l.poison then 0x0E else 0))

end Sys2Proof.Machine
end

