-- ==== Sys2Proof/Machine/Shares.lean ====
section
/-! DEFINITION. Splitting a grid over relays, the room on a core, and placing a block (01 R30, R31, R33, R34, R38, R41; 08 R214; 10
R251-R254, R258; 11 R269). -/

namespace Sys2Proof.Machine

namespace Launch

def ctl (l : Launch) : Nat := natAt l.packet 0 4
def resident (l : Launch) : Bool := l.ctl % 256 == 2
def isDet (l : Launch) : Bool := bit1 l.ctl 12
def priority (l : Launch) : Nat := bitsOf l.ctl 15 13
def exempt (l : Launch) : Bool := bit1 l.ctl 17
def serial (l : Launch) : Bool := bit1 l.ctl 18
def skeins (l : Launch) : Nat := natAt l.packet 25 1
def tiles (l : Launch) : Nat := natAt l.packet 26 1
def span (l : Launch) : Nat := natAt l.packet 27 1
def scratch (l : Launch) : Nat := natAt l.packet 28 4
def regs (l : Launch) : Nat := natAt l.packet 40 2
def reach (l : Launch) : Nat := natAt l.packet 42 1
def coachAt (l : Launch) : Nat := natAt l.packet 44 4
def hasCoach (l : Launch) : Bool := l.coachAt != 0xFFFFFFFF
def roleOf (l : Launch) (i : Nat) : Nat := natAt l.packet 48 4 / 4 ^ i % 4
def entryOf (l : Launch) (role : Nat) : Nat := natAt l.packet (52 + 4 * role) 4
def args (l : Launch) : Nat := natAt l.packet 64 8
def pfunc (l : Launch) : Nat := natAt l.packet 88 8
def mode (l : Launch) : Nat := bitsOf l.pfunc 23 21
def shift (l : Launch) : Nat := bitsOf l.pfunc 20 16
def routed (l : Launch) : Bool := l.mode != 2
/-- The block whose key and place count: of a span, its leader (R33, R251). -/
def lead (l : Launch) (b : Nat) : Nat := if l.span = 2 then b / 2 * 2 else b
/-- The placement key of a block (R251). -/
def keyOf (l : Launch) (b : Nat) : Nat :=
  let j := l.lead b / 2 ^ l.shift
  match l.mode with
  | 0 => (l.pfunc % 65536 + j) % 65536
  | 1 => (l.keys[j]?).getD 0
  | _ => l.pfunc % 65536
/-- Blocks that are placed together. -/
def unit (l : Launch) : Nat := if l.span = 2 then 2 else 1

end Launch

namespace State

/-! ### Where a block stands (R252) -/

def ndies (s : State) : Nat := Config.dies s.variant
/-- The packages of the rack device. -/
def packages (_s : State) : List Nat := List.range Config.packages
/-- The dies of a package as die numbers of the rack device. -/
def diesOf (s : State) (p : Nat) : List Nat := (List.range s.ndies).map fun d => 4 * p + d
/-- The rack device has a die, and a relay of a level (R2, R11). -/
def dieThere (s : State) (d : Nat) : Bool := decide (d / 4 < Config.packages) && decide (d % 4 < s.ndies)
def relayThere (s : State) (level node : Nat) : Bool :=
  match level with
  | 0 => s.dieThere node
  | 1 => decide (node < Config.packages)
  | _ => decide (node < Config.packages / Config.perTray)
def coresOf (d : Nat) : List Nat := (List.range Config.coresPerDie).map fun i => Config.coresPerDie * d + i
/-- The die a keyed block of a share goes to: the relay holding the share routes it below itself by the key's entry. -/
def dieFor (s : State) (l : Launch) (sh : Share) (b : Nat) : Nat :=
  if sh.level = 0 then sh.node
  else
    let e := s.placeEntry l.ctx (l.keyOf b)
    let pkg := match sh.level with
      | 1 => sh.node
      | 2 => 4 * sh.node + bitsOf e 6 5
      | _ => placePkg e
    let mask := setBits (bitsOf e 10 7) 4
    4 * pkg + (mask[l.lead b % max 1 mask.length]?).getD 0
/-- The relay at a level above a relay. -/
def above (level node to_ : Nat) : Nat :=
  let p := if level = 0 then node / 4 else if level = 1 then node else 0
  match to_ with
  | 0 => node
  | 1 => if level = 0 then node / 4 else node
  | 2 => if level = 2 then node else p / Config.perTray
  | _ => 0
/-- A block of a share stands in the share of a relay or of one below it. -/
def inShare (s : State) (l : Launch) (level node : Nat) (sh : Share) (b : Nat) : Bool :=
  if sh.keyed || sh.level == 0 then above 0 (s.dieFor l sh b) level == node
  else decide (sh.level ≤ level) && above sh.level sh.node level == node
/-- The first index of a range of which `f` holds. -/
def firstIn (f : Nat → Bool) : Nat → Nat → Option Nat
  | 0, _ => none
  | n + 1, b => if f b then some b else firstIn f n (b + 1)
def countIn (f : Nat → Bool) : Nat → Nat → Nat
  | 0, _ => 0
  | n + 1, b => (if f b then 1 else 0) + countIn f n (b + 1)
/-- LOWEST of a relay's share, and UNSTARTED (R253). -/
def lowestOf (s : State) (l : Launch) (level node : Nat) : Option Nat :=
  leastBy id (l.shares.filterMap fun sh => firstIn (s.inShare l level node sh) sh.count sh.lo)
def unstarted (s : State) (l : Launch) (level node : Nat) : Nat :=
  (l.shares.map fun sh => countIn (s.inShare l level node sh) sh.count sh.lo).sum
/-- The placement frontier: the lowest unplaced index (R269). -/
def frontier (l : Launch) : Option Nat := leastBy id (l.shares.map (·.lo))
/-- A block leaves the range that holds it. -/
def takeOut (b : Nat) (l : List Share) : List Share :=
  l.flatMap fun sh =>
    if b < sh.lo ∨ sh.lo + sh.count ≤ b then [sh]
    else ([{ sh with count := b - sh.lo }, { sh with lo := b + 1, count := sh.lo + sh.count - b - 1 }] : List Share).filter fun sh =>
      sh.count != 0

end State

/-! ### Room on a core (R30, R31, R34, R38) -/

/-- What a core has free. -/
structure Room where
  ctx   : Option Nat
  slots : List Nat
  regs  : Nat
  tiles : Nat
  bytes : Nat
  coach : Nat
  deriving DecidableEq, Repr

/-- What a block takes. -/
structure Need3 where
  ctx    : Nat
  skeins : Nat
  regs   : Nat
  tiles  : Nat
  bytes  : Nat
  coach  : Bool
  deriving DecidableEq, Repr

def Launch.need (l : Launch) : Need3 :=
  { ctx := l.ctx, skeins := l.skeins, regs := l.skeins * l.regs, tiles := l.tiles, bytes := l.scratch, coach := l.hasCoach }
/-- The partition with the most free slots, the lowest on ties. -/
def firstPart (slots : List Nat) : Nat :=
  (List.range 4).foldl (fun b p => if (slots[b]?).getD 0 < (slots[p]?).getD 0 then p else b) 0
/-- Slots left once the skeins of a block stand cyclically from the first partition; none where they do not fit. -/
def takeSlots (slots : List Nat) (n : Nat) : Option (List Nat) :=
  let b := firstPart slots
  let left := (List.range 4).map fun p =>
    ((slots[p]?).getD 0, ((List.range n).filter fun i => (b + i) % 4 == p).length)
  if left.any fun q => decide (q.1 < q.2) then none else some (left.map fun q => q.1 - q.2)
def Room.take (r : Room) (n : Need3) : Option Room :=
  if !(r.ctx.elim true (· == n.ctx)) || decide (r.regs < n.regs) || decide (r.tiles < n.tiles) || decide (r.bytes < n.bytes)
      || (n.coach && r.coach == 0) then none
  else (takeSlots r.slots n.skeins).map fun sl =>
    { ctx := some n.ctx, slots := sl, regs := r.regs - n.regs, tiles := r.tiles - n.tiles, bytes := r.bytes - n.bytes,
      coach := if n.coach then r.coach - 1 else r.coach }

namespace State

/-- Free slots of each partition, registers, tiles, scratchpad and coach instances of a core. -/
def room (s : State) (g : Nat) : Room :=
  let bs := s.blocksOn g
  let used (p : Nat) : Nat := (bs.map fun b => (b.skeins.filter fun k => k.life != .retired && k.x.part == p).length).sum
  { ctx := (s.core g).ctx, slots := (List.range 4).map fun p => Config.slotsPerPartition - used p, regs := s.freeRegs g,
    tiles := s.freeTiles g, bytes := Config.scratchPerCore - (bs.map fun b => b.ps.size).sum,
    coach := 16 - (bs.filter fun b => b.coach.elim false fun c => !c.ended).length }
/-- Rooms of the cores looked at so far. -/
abbrev Rooms := NMap Room
def roomIn (s : State) (m : Rooms) (g : Nat) : Room := (mapGet m g).getD (s.room g)
/-- A unit of a launch put on core `g` (and `g + 1`): the rooms after it. A `.span 1` block needs every tile of the next core, which
holds no context or the block's own (log 87). -/
def fitIn (s : State) (l : Launch) (m : Rooms) (g : Nat) : Option Rooms :=
  let n := l.need
  match l.span with
  | 0 => ((s.roomIn m g).take n).map fun r => mapSet m g r
  | 1 =>
    if g % 2 = 1 then none
    else
      let r := s.roomIn m (g + 1)
      if r.tiles < Config.tilesPerCore || !(r.ctx.elim true (· == n.ctx)) then none
      else ((s.roomIn m g).take n).map fun q => mapSet (mapSet m g q) (g + 1) { r with tiles := 0 }
  | _ =>
    if g % 2 = 1 then none
    else match (s.roomIn m g).take n, (s.roomIn m (g + 1)).take n with
      | some a, some b => some (mapSet (mapSet m g a) (g + 1) b)
      | _, _ => none
/-- The lowest-numbered core of a die that takes a unit. -/
def coreFor (s : State) (l : Launch) (m : Rooms) (d : Nat) : Option (Nat × Rooms) :=
  firstSome ((coresOf d).map fun g => (s.fitIn l m g).map fun r => (g, r))
/-- Units of a launch a core could take now. -/
def capIn (s : State) (l : Launch) : Nat → Rooms → Nat → Nat
  | 0, _, _ => 0
  | f + 1, m, g => match s.fitIn l m g with
    | none => 0
    | some m => 1 + s.capIn l f m g
/-- FREE of a die: blocks of the launch's shape its cores could take now. -/
def freeDie (s : State) (l : Launch) (d : Nat) : Nat :=
  if s.dieThere d then l.unit * ((coresOf d).map fun g => s.capIn l 96 [] g).sum else 0
def freeRelay (s : State) (l : Launch) (level node : Nat) : Nat :=
  match level with
  | 0 => s.freeDie l node
  | 1 => ((s.diesOf node).map fun d => s.freeDie l d).sum
  | 2 => ((List.range Config.perTray).map fun p => ((s.diesOf (4 * node + p)).map fun d => s.freeDie l d).sum).sum
  | _ => 0
/-- Spill regions left (R249). -/
def freeRegions (s : State) (c : Nat) : Nat := (s.ctx? c).elim 0 fun x => x.d.spills - x.regions.length

/-! ### Moving ranges between relays (R252, R254) -/

def sortShares (l : List Share) : List Share := sortBy (fun a b => decide (a.lo ≤ b.lo)) l
/-- The lowest `n` blocks of the ranges `f` selects leave them. -/
def takeLow (f : Share → Bool) : Nat → List Share → List (Nat × Nat) × List Share
  | _, [] => ([], [])
  | n, sh :: r =>
    if n = 0 || !f sh then
      let q := takeLow f n r
      (q.1, sh :: q.2)
    else
      let k := min n sh.count
      let q := takeLow f (n - k) r
      ((sh.lo, k) :: q.1, if k = sh.count then q.2 else { sh with lo := sh.lo + k, count := sh.count - k } :: q.2)
/-- The relay above hands load-routed blocks down to a relay. -/
def handDown (level node n : Nat) (l : List Share) : List Share :=
  let up := above level node (level + 1)
  let q := takeLow (fun sh => !sh.keyed && sh.level == level + 1 && sh.node == up) n l
  sortShares (q.2 ++ q.1.map fun r => { level := level, node := node, lo := r.1, count := r.2, keyed := false })
def poolOf (level node : Nat) (l : List Share) : Nat :=
  ((l.filter fun sh => !sh.keyed && sh.level == level && sh.node == node).map (·.count)).sum
/-- The shares of a launch at acceptance: keyed blocks go by their keys; load-routed ones in contiguous ranges by free capacity. -/
def firstShares (s : State) (l : Launch) : List Share :=
  let all : Share := { level := 3, node := 0, lo := 0, count := l.total, keyed := l.routed }
  if l.routed then [all]
  else
    (List.range (Config.packages / Config.perTray)).foldl (fun sh t =>
      if poolOf 3 0 sh = 0 then sh
      else
        let sh := handDown 2 t (s.freeRelay l 2 t) sh
        (List.range Config.perTray).foldl (fun sh i =>
          let p := Config.perTray * t + i
          if poolOf 2 t sh = 0 then sh
          else (s.diesOf p).foldl (fun sh d => handDown 0 d (s.freeDie l d) sh) (handDown 1 p (s.freeRelay l 1 p) sh)) sh) [all]
/-- Relays that hold an unstarted block are idle for no launch of its context; when they become so again they report at once (R253). -/
def unidle (s : State) (c : Nat) : State :=
  let holds (r : Report) : Bool := (mapVals s.launches).any fun q => q.ctx == c && (s.lowestOf q r.level r.node).isSome
  let busy (r : Report) : Report := if holds r then { r with idle := false } else r
  { s with launches := s.launches.map fun e => (e.1, if e.2.ctx = c then { e.2 with reports := e.2.reports.map busy } else e.2) }
/-- Shares changed: the wait for the lowest unstarted block begins anew when that block changes (R256). -/
def setShares (s : State) (lid : Nat) (f : List Share → List Share) : State :=
  match s.launch? lid with
  | none => s
  | some l =>
    let sh := f l.shares
    (s.modLaunch lid fun l =>
      { l with shares := sh, waiting := if leastBy id (sh.map (·.lo)) = frontier l then l.waiting else s.time.ns }).unidle l.ctx

/-! ### Placing a block (R41, R31, R249) -/

/-- The lowest-numbered free frame spill region. -/
def freeRegionOf (x : Ctx) : Nat := ((List.range (x.regions.length + 1)).find? fun r => !x.regions.contains r).getD 0
/-- A skein as it stands at placement; what stands before its launch was taken stands before what it does (R214). -/
def newSkein (l : Launch) (i part region : Nat) : Skein :=
  let role := l.roleOf i
  { idx := i, role := role,
    win := { allot := l.regs, reach := l.reach, base := 64 * role, spill := 64 * role },
    r := { lanes := [], masks := [(0, 0xFFFF)], joins := [], latch := Latches.none, planes := [], exited := 0, status := 0 },
    arms := [{ Arm.idle with path := some { off := l.entryOf role, lanes := 0xFFFF, base := 64 * role, last := l.entryOf role },
                             ks := [(0, BitVec.ofNat 64 l.args)], marks := { acq := l.mark } }],
    rejoin := 0, life := .live, frame := none,
    x := { Skein.blank.x with part := part, region := region } }
def emptyScratch (n : Nat) : Scratch := { size := n, bytes := [], poison := [], shadow := [], stored := [], syncs := [] }
/-! ### The maps of a context (R162) -/

/-- The maps of a descriptor: entries of the granules that memory lists, the others being as memory reads unlisted. -/
def mapAt (s : State) (a : Nat) : NMap (BitVec 32) :=
  let inMap (x : Nat) : Bool := decide (a ≤ x) && decide (x < a + 262144)
  let grans := (s.mem.bytes.filter fun e => inMap e.1).foldl (fun l e => listInsertNat l (e.1 / 32)) []
  let grans := (s.mem.keyOf.filter fun e => inMap (32 * e.1)).foldl (fun l e => listInsertNat l e.1) grans
  grans.foldl (fun m g => (List.range 8).foldl (fun m j =>
    let v := leNat (s.physBytes 0 (32 * g + 4 * j) 4)
    if v = 0 then m else mapSet m ((32 * g - a) / 4 + j) (BitVec.ofNat 32 v)) m) []
/-- A context whose blocks stand on no core takes its maps as its descriptor holds them then: they may have changed meanwhile. -/
def refreshMaps (s : State) (c : Nat) : State :=
  if s.blocks.any fun e => e.2.id.ctx == c && decide (e.2.id.core < 2 ^ 32) then s
  else s.modCtx c fun x =>
    if s.chanOk x.d.desc then { x with home := s.mapAt (x.d.desc + 0x1000), place := s.mapAt (x.d.desc + 0x41000) } else x
/-- Block `b` of a launch placed on core `g`. -/
def placeOne (s : State) (l : Launch) (b g span : Nat) (partner : Option Nat) : State :=
  let s := s.refreshMaps l.ctx
  let part := firstPart (s.room g).slots
  let r := (List.range l.skeins).foldl (fun (acc : State × List Skein) i =>
    match acc.1.ctx? l.ctx with
    | none => acc
    | some x =>
      let n := freeRegionOf x
      (acc.1.modCtx l.ctx fun x => { x with regions := n :: x.regions },
        acc.2 ++ [newSkein l i ((part + i) % 4) (x.d.spillb + 65536 * n)])) (s, [])
  let s := r.1
  let bid := s.fresh.bid
  let coach : Coach := { Coach.blank with off := l.coachAt, last := l.coachAt, ks := [(0, BitVec.ofNat 64 l.args)], marks := { acq := l.mark } }
  let blk : Block :=
    { id := { bid := bid, lid := l.lid, ctx := l.ctx, seq := l.seq, idx := b, key := l.keyOf b, core := g, span := span, partner := partner },
      placed := s.time.ns, ps := emptyScratch l.scratch, ntiles := l.tiles, tiles := [], evicted := 0, dq := [], bars := [],
      skeins := r.2, coach := if l.hasCoach then some coach else none, ncmd := 0, ncopy := 0, epoch := 0,
      held := decide (s.time.ns < l.start) }
  let s := { s with blocks := mapSet s.blocks bid blk, fresh := { s.fresh with bid := bid + 1 } }
  ((s.modCore g fun c => { c with ctx := some l.ctx, gate := 0, idle := s.time.clk }).dropClean g).dropRdc (dieOf g) l.ctx
/-- A unit placed: a block, or both blocks of a `.span 2` span, leader on the even core (R33). -/
def placeUnit (s : State) (l : Launch) (b g : Nat) : State :=
  if l.span = 2 then
    let n := s.fresh.bid
    let b := l.lead b
    (((s.placeOne l b g 2 (some (n + 1))).placeOne l (b + 1) (g + 1) 3 (some n)).setShares l.lid fun sh =>
      takeOut (b + 1) (takeOut b sh))
  else (s.placeOne l b g l.span none).setShares l.lid (takeOut b)

/-! ### When a launch may place (R245, R257, R269) -/

/-- The completion record of the context's previous launch is written (R245). -/
def prevDone (s : State) (l : Launch) : Bool :=
  (mapVals s.launches).all fun q => !(q.ctx == l.ctx && q.seq + 1 == l.seq) || q.done
def mayPlace (s : State) (l : Launch) : Bool :=
  !l.done && !s.isFatal l.ctx && (s.ctx? l.ctx).elim false (fun x => x.saved == 0) && (!l.serial || s.prevDone l)
/-- The highest PRIORITY among a context's accepted, unfinished launches (R256). -/
def priorityOf (s : State) (c : Nat) : Nat :=
  (mapVals s.launches).foldl (fun p l => if l.ctx == c && !l.done then max p l.priority else p) 0

end State

end Sys2Proof.Machine
end

