-- ==== Sys2Proof/Machine/Launch.lean ====
section
/-! DEFINITION. The rack command queue: its tail, launch packets and their checks, contexts bound and released (10 R244-R250, R265;
11 R281, R284; 12 R289). -/

namespace Sys2Proof.Machine

/-! ### The tail of the queue (R244) -/

/-- A write of RCQ_TAIL comes after every write that precedes it in PCIe order: those posted to the primary and the standby reach their
homes first (R314). -/
def execRcqTail (val : Nat) (s : State) : Out :=
  .next (
    let s := (s.relay.primary.toList ++ s.relay.standby.toList).foldl (fun s p => s.drainPosted p) s
    let q := s.relay
    let v := val % 2 ^ 32
    if q.primary.isNone then s
    else if (v + 2 ^ 32 - q.tail) % 2 ^ 32 ≤ 1024 - (q.tail + 2 ^ 32 - q.head) % 2 ^ 32 then
      { s with relay := { q with tail := v } }
    else
      s.report none false
        (recordBytes 0x44 Cause.format.code 0 0 s.time.ns ones48 255 ones64 0 (256 * s.primaryPkg) v 0 0 0))

/-! ### The static checks of a packet (R246, R247 LAUNCH_FORMAT) -/

/-- The fields that a bind or release packet must have zero: offset and size. -/
def unusedFields : List (Nat × Nat) :=
  [(6, 1), (7, 1), (8, 8), (16, 4), (20, 4), (24, 1), (25, 1), (26, 1), (27, 1), (28, 4), (32, 4), (36, 2), (38, 2), (40, 2),
   (42, 1), (43, 1), (44, 4), (48, 4), (52, 4), (56, 4), (60, 4), (72, 8), (88, 8), (96, 8), (104, 8), (112, 8), (120, 8)]
/-- A byte offset below the code's length that is even (R51, R52). -/
def offsetBad (p : List Byte) (at_ : Nat) : Bool := natAt p at_ 4 % 2 != 0 || decide (natAt p 20 4 ≤ natAt p at_ 4)
def roleTaken (p : List Byte) (r : Nat) : Bool := (List.range (min 16 (natAt p 25 1))).any fun i => natAt p 48 4 / 4 ^ i % 4 == r
/-- The checks of a launch packet, in the order of its fields: offset, and whether the field offends. -/
def launchFields (p : List Byte) : List (Nat × Bool) :=
  let len := natAt p 20 4
  let regs := natAt p 40 2
  let ctl := natAt p 0 4
  [(4, natAt p 4 2 / 4096 != 0), (6, natAt p 6 1 / 16 != 0), (7, (natAt p 104 8 != 0) != (natAt p 7 1 != 0)),
   (8, natAt p 8 8 % 256 != 0),
   (16, natAt p 16 4 % 256 != 0 || decide (natAt p 16 4 < len) || decide (2 ^ 24 < natAt p 16 4)), (20, len % 16 != 0),
   (24, natAt p 24 1 == 0 || decide (4 < natAt p 24 1)), (25, natAt p 25 1 == 0 || decide (16 < natAt p 25 1)),
   (26, decide (16 < natAt p 26 1)), (27, decide (2 < natAt p 27 1)),
   (28, natAt p 28 4 % 256 != 0 || decide (1048576 < natAt p 28 4)),
   (40, regs % 8 != 0 || decide (regs < 16) || decide (256 < regs)),
   (42, natAt p 42 1 % 8 != 0 || decide (natAt p 42 1 < 8) || decide (min 64 regs < natAt p 42 1)), (43, natAt p 43 1 != 0),
   (44, natAt p 44 4 != 0xFFFFFFFF && offsetBad p 44), (48, (List.range 16).any fun i => natAt p 48 4 / 4 ^ i % 4 == 3),
   (52, roleTaken p 0 && offsetBad p 52), (56, roleTaken p 1 && offsetBad p 56), (60, roleTaken p 2 && offsetBad p 60),
   (80, natAt p 80 8 % 64 != 0), (88, natAt p 88 8 / 2 ^ 24 != 0 || decide (2 < bitsOf (natAt p 88 8) 23 21)),
   (96, bitsOf (natAt p 88 8) 23 21 == 1 && natAt p 96 8 % 2 != 0),
   (112, if ctl % 256 = 1 then natAt p 112 8 != 0 else natAt p 112 8 % 64 != 0),
   (120, bit1 ctl 16 && natAt p 120 8 % 16 != 0)]
/-- The first offending field of a packet; `maxpri` of a bound context that is not dead. -/
def formatFault (p : List Byte) (maxpri : Option Nat) : Option Nat :=
  let ctl := natAt p 0 4
  let typ := ctl % 256
  let ctlBad := typ == 0 || decide (4 < typ) || bitsOf ctl 11 8 != 1 || ctl / 2 ^ 19 != 0
    || (decide (typ ≤ 2) && (maxpri.elim false fun m => decide (m < bitsOf ctl 15 13)))
    || (typ == 2 && bit1 ctl 12)
  if ctlBad then some 0
  else if typ ≤ 2 then ((launchFields p).find? (·.2)).map (·.1)
  else
    let l := [(4, natAt p 4 2 / 4096 != 0)] ++ ((unusedFields.filter fun f => decide (f.1 < 80)).map fun f => (f.1, natAt p f.1 f.2 != 0))
      ++ [(80, natAt p 80 8 % 64 != 0)] ++ (unusedFields.filter fun f => decide (80 < f.1)).map fun f => (f.1, natAt p f.1 f.2 != 0)
    (l.find? (·.2)).map (·.1)
def dimsFault (p : List Byte) : Option Nat :=
  if natAt p 32 4 = 0 || decide (2 ^ 31 ≤ natAt p 32 4) then some 0x20
  else if natAt p 36 2 = 0 then some 0x24
  else if natAt p 38 2 = 0 then some 0x26 else none

/-! ### Status values (R247) -/

def stFormat : Nat := 0x01
def stDims : Nat := 0x02
def stFit : Nat := 0x03
def stSpan : Nat := 0x04
def stCtx : Nat := 0x05
def stKey : Nat := 0x06
def stExempt : Nat := 0x07
def stRead : Nat := 0x08
def stGen : Nat := 0x0B
def stUnit : Nat := 0x0C

/-! ### The checks that read memory -/

namespace State

/-- Distinct keys of a grid in PFUNC's order: how many key places it has. -/
def keyPlaces (l : Launch) : Nat := (l.total - 1) / 2 ^ l.shift + 1
/-- The offending key of a launch, if one has an invalid entry (R247 LAUNCH_KEY); no key is used by load routing. -/
def badKey (s : State) (l : Launch) : Option Nat :=
  let bad (k : Nat) : Bool := !placeEntryOk s.variant (s.placeEntry l.ctx k)
  match l.mode with
  | 0 => ((List.range (min 65536 (keyPlaces l))).map fun j => (l.pfunc % 65536 + j) % 65536).find? bad
  | 1 => l.keys.find? bad
  | _ => [l.pfunc % 65536].find? bad
/-- The first field an empty core cannot meet together with those before it. -/
def emptyFault (l : Launch) (spills : Nat) : Option Nat :=
  if 4 * Config.slotsPerPartition < l.skeins then some 0x19
  else if Config.regRows < l.skeins * l.regs then some 0x28
  else if Config.tilesPerCore < l.tiles then some 0x1A
  else if Config.scratchPerCore < l.scratch then some 0x1C
  else if spills < l.skeins then some 0x19 else none
/-- Cores for every unit of a launch at once, in ascending index order; none where they do not fit (R36). -/
def planFrom (s : State) (l : Launch) : Nat → Nat → Rooms → Option (List (Nat × Nat))
  | 0, _, _ => some []
  | f + 1, b, m =>
    if l.total ≤ b then some []
    else
      let dies := if l.routed then [s.dieFor l { level := 3, node := 0, lo := 0, count := l.total, keyed := true } b]
        else s.packages.flatMap s.diesOf
      match firstSome (dies.map fun d => s.coreFor l m d) with
      | none => none
      | some (g, m) => (s.planFrom l f (b + l.unit) m).map fun r => (b, g) :: r
def plan (s : State) (l : Launch) : Option (List (Nat × Nat)) :=
  if s.freeRegions l.ctx < l.skeins * l.total then none else s.planFrom l l.total 0 []
/-- The same launch without its coach instances. -/
def withoutCoach (l : Launch) : Launch :=
  { l with packet := l.packet.take 44 ++ leBytes 4 0xFFFFFFFF ++ l.packet.drop 48 }
/-- A replay's or a recording's part of a packet: the root slot is read; NULL records, a name replays (R282, R284). -/
def recordingOf (s : State) (c : Nat) (p sig : List Byte) : State × Except (Nat × Nat) Rec :=
  let r := s.hwRead (unitOrigin c s.primaryPkg) (natAt p 120 8) 16
  match r.2 with
  | .error _ => (r.1, .error (stRead, 0x78))
  | .ok b =>
    if leNat b = nullName then
      (r.1, .ok { replay := false, root := 0, times := [], frames := [], tasks := [], stores := [], header := sig })
    else
      let q := r.1.readRecording c (leNat b)
      match q.2 with
      | none => (q.1, .error (stRead, 0x78))
      | some x => (q.1, if slice x.header 32 32 == sig then .ok x else .error (stGen, 0x78))
/-- The signature of a launch that gives SIG or records: computed, and compared where SIG is given (R281). -/
def signatureCheck (s : State) (c : Nat) (p : List Byte) : State × Except (Nat × Nat) (Option Rec) :=
  let named := natAt p 104 8 != 0
  let rec_ := bit1 (natAt p 0 4) 16
  if named && natAt p 7 1 != Config.gen then (s, .error (stGen, 0x07))
  else if !named && !rec_ then (s, .ok none)
  else
    let g := if named then s.hwRead (unitOrigin c s.primaryPkg) (natAt p 104 8) 32 else (s, .ok [])
    match g.2 with
    | .error _ => (g.1, .error (stRead, 0x68))
    | .ok given =>
      let m := g.1.computeSignature c p
      match m.2 with
      | none => (m.1, .error (stRead, 0x08))
      | some mine =>
        if named && given != mine then (m.1, .error (stGen, 0x68))
        else if rec_ then
          let q := m.1.recordingOf c p mine
          (q.1, q.2.map some)
        else (m.1, .ok none)
/-- The keys of PFUNC mode 1, read from PTABLE. -/
def keysOf (s : State) (l : Launch) : State × Except (Nat × Nat) (List Nat) :=
  if l.mode = 1 then
    let r := s.hwRead (unitOrigin l.ctx s.primaryPkg) (natAt l.packet 96 8) (2 * keyPlaces l)
    (r.1, match r.2 with
      | .error _ => .error (stRead, 0x60)
      | .ok b => .ok ((List.range (keyPlaces l)).map fun j => natAt b (2 * j) 2))
  else (s, .ok [])
/-- A launch as its packet describes it, before it is accepted. -/
def draft (s : State) (c seq : Nat) (p : List Byte) (tentry : Nat) (r : Option Rec) : Launch :=
  { lid := s.fresh.lid, ctx := c, seq := seq, packet := p, accept := s.time.ns, first := 0, start := max (natAt p 72 8) s.time.ns,
    tentry := tentry, total := natAt p 32 4 * natAt p 36 2 * natAt p 38 2, retired := 0, poison := false, keys := [], doneAt := [],
    shares := [], reports := [], waiting := s.time.ns, done := false, rec_ := r }
/-- The checks of R247 from LAUNCH_DIMS on, in their order: the launch to accept, or status and DETAIL. -/
def checkLaunch (s : State) (c : Nat) (p : List Byte) : State × Except (Nat × Nat) Launch :=
  let s := s.refreshMaps c
  let o := unitOrigin c s.primaryPkg
  match dimsFault p, (s.ctx? c).filter fun x => !x.dead && x.fatal.isNone with
  | some d, _ => (s, .error (stDims, d))
  | none, none => (s, .error (stCtx, 4))
  | none, some x =>
    let h := s.hwRead o (natAt p 64 8) 8
    match h.2 with
    | .error _ => (h.1, .error (stRead, 0x40))
    | .ok w =>
      let ctl := natAt p 0 4
      if leNat w / 2 ^ 32 != 0 then (h.1, .error (stFormat, 0xFFFF))
      else if bit1 ctl 17 && (ctl % 256 == 1 || !x.d.exok) then (h.1, .error (stExempt, 0))
      else if setBits (natAt p 6 1) 4 |>.any fun i => !bit1 s.feat i then (h.1, .error (stUnit, 6))
      else
        let g := h.1.signatureCheck c p
        match g.2 with
        | .error e => (g.1, .error e)
        | .ok r =>
          let l := s.draft c x.nextSeq p (leNat w) r
          if l.span = 2 && l.total % 2 != 0 then (g.1, .error (stSpan, 0x1B))
          else
            let k := g.1.keysOf l
            match k.2 with
            | .error e => (k.1, .error e)
            | .ok keys =>
              let l := { l with keys := keys }
              match k.1.badKey l, emptyFault l x.d.spills with
              | some b, _ => (k.1, .error (stKey, b))
              | none, some d => (k.1, .error (stFit, d))
              | none, none =>
                if l.resident && (k.1.plan l).isNone then
                  (k.1, .error (stFit, if (k.1.plan (withoutCoach l)).isSome then 0x2C else 0))
                else (k.1, .ok { l with mark := k.1.storesOf c })

/-! ### Taking a packet (R245, R247, R318) -/

/-- The packet at HEAD, when the relay takes packets and one is there: a granule that cannot be read gives unspecified bytes. -/
def nextPacket (s : State) : Option (List Byte) :=
  let q := s.relay
  if q.primary.elim true q.failed.contains || !q.en || q.head == q.tail then none
  else
    let a := q.base + 128 * (q.head % 1024)
    some ((s.chanRead a 128).getD ((List.range 128).map fun i => Config.freeByte (s.fresh.free + i)))
/-- HEAD advances, and the primary mirrors what it decided to the standby. -/
def taken (s : State) (seq status : Nat) : State :=
  let q := s.relay
  let s := s.lookLines 4096 (q.base + 128 * (q.head % 1024)) 128
  let s := if (s.chanRead (q.base + 128 * (q.head % 1024)) 128).isSome then s else s.takeFree 128
  let mirror := if q.standby.isSome then q.mirror ++ [(q.head % 1024, seq, status)] else q.mirror
  let head := (q.head + 1) % 2 ^ 32
  { s with relay := { s.relay with head := head, mirror := mirror, mhead := if q.standby.isSome then head else q.mhead } }
/-- A refused packet: its record carries status and DETAIL; of a bind or release END is ACCEPT (R250), of any other packet 0 (log 113). -/
def refuse (s : State) (p : List Byte) (status detail : Nat) : State :=
  let typ := natAt p 0 1
  let end_ := if typ = 3 ∨ typ = 4 then s.time.ns else 0
  (s.taken ones48 status).writeCompletion (natAt p 4 2 % 4096) (natAt p 80 8) ones48
    (completionBytes status detail ones48 s.time.ns 0 end_ 0)
def maxpri (s : State) (c : Nat) : Option Nat := ((s.ctx? c).filter fun x => !x.dead && x.fatal.isNone).map fun x => x.d.maxpri
/-- A packet of a type taken: its static checks, then `f`. -/
def withPacket (s : State) (typ : Nat → Bool) (f : State → List Byte → State) : State :=
  match s.nextPacket with
  | none => s
  | some p =>
    if !typ (natAt p 0 1) then s
    else match formatFault p (s.maxpri (natAt p 4 2 % 4096)) with
      | some d => s.refuse p stFormat d
      | none => f s p
/-- A launch packet checked, and accepted or refused. -/
def takeLaunch (s : State) (p : List Byte) : State :=
  let c := natAt p 4 2 % 4096
  let r := s.checkLaunch c p
  match r.2 with
  | .error e => r.1.refuse p e.1 e.2
  | .ok l =>
    let s := r.1.taken l.seq 0
    let s := { s with fresh := { s.fresh with lid := s.fresh.lid + 1 }, launches := mapSet s.launches l.lid l }
    (s.modCtx c fun x => { x with nextSeq := x.nextSeq + 1 }).setShares l.lid fun _ => s.firstShares l

end State

def execGridLaunch (s : State) : Out := .next (s.withPacket (· == 1) State.takeLaunch)
def execResidentLaunch (s : State) : Out := .next (s.withPacket (· == 2) State.takeLaunch)
def execReservedPacketType (s : State) : Out :=
  .next (s.withPacket (fun t => t == 0 || decide (4 < t)) fun s _ => s)

/-! ### Contexts (R249, R250) -/

namespace State

/-- A descriptor can be read: its channel exists and no granule of it is poisoned. -/
def descriptorOk (s : State) (a : Nat) : Bool :=
  s.chanOk a && !s.mem.poison.any fun g => decide (a < 32 * g + 32) && decide (32 * g < a + 0x81000)
def descriptorOf (s : State) (a : Nat) : CtxDesc :=
  let n (i k : Nat) : Nat := leNat (s.physBytes 0 (a + i) k)
  { maxpri := n 2 1 % 8, exok := bit1 (n 3 1) 0, hangms := n 4 4, root := BitVec.ofNat 64 (n 8 8), save := n 0x10 8, pool := n 0x18 8,
    gcount := n 0x20 4, spills := n 0x24 4, faultq := n 0x28 8, errq := n 0x30 8, spillb := n 0x38 8, desc := a }
def newCtx (s : State) (c a : Nat) : Ctx :=
  { id := c, d := s.descriptorOf a, home := s.mapAt (a + 0x1000), place := s.mapAt (a + 0x41000), dead := false, fatal := none,
    saved := 0, since := s.time.ns, nextSeq := 0, order := s.fresh.bind, regions := [], stores := 0, stored := [], cores := [],
    writers := [], replies := [] }
/-- The record of an accepted bind or release. -/
def acceptedRecord (s : State) (p : List Byte) : State :=
  s.writeCompletion (natAt p 4 2 % 4096) (natAt p 80 8) ones48 (completionBytes 0 0 ones48 s.time.ns 0 s.time.ns 0)
def takeBind (s : State) (p : List Byte) : State :=
  let c := natAt p 4 2 % 4096
  let a := natAt p 64 8
  if (s.ctx? c).isSome then s.refuse p stCtx 4
  else if a % 4096 != 0 || decide (2 ^ 47 ≤ a) then s.refuse p stFormat 0x40
  else if !s.descriptorOk a then s.refuse p stRead 0x40
  else if leNat (s.physBytes 0 a 2) % 4096 != c then s.refuse p stFormat 0x40
  else
    let s := (s.taken ones48 0).lookLines 4096 a 128
    let x := s.newCtx c a
    ({ s with ctxs := mapSet s.ctxs c x, fresh := { s.fresh with bind := s.fresh.bind + 1 } }.takeFree (2 ^ 20)).acceptedRecord p

/-! ### Removing a context's blocks (R250, R302) -/

/-- The blocks of a context leave without a save; what its cores stored already is acknowledged at its homes first. -/
def removeBlocks (s : State) (c : Nat) : State :=
  let bs := (mapVals s.blocks).filter fun b => b.id.ctx == c
  let cores := bs.foldl (fun l b => if placedBlk b then listInsertNat l b.id.core else l) []
  let s := { s with mem := { s.mem with reqs := s.mem.reqs.filter fun q => !(q.ctx == c && q.kind == 1) ||  q.state == 0 } }
  let s := cores.foldl (fun s g => s.flushCore g) s
  bs.foldl (fun s b => s.dropBlock b) s
/-- Every unfinished launch of a context ends with a status, its records written in sequence order. -/
def endLaunches (s : State) (c status : Nat) : State :=
  let ls := sortBy (fun (a b : Launch) => decide (a.seq ≤ b.seq)) ((mapVals s.launches).filter fun l => l.ctx == c && !l.done)
  ls.foldl (fun s l => s.endLaunch l status) s
/-- The context whose location a key of `syncs` names (Machine/Det.lean, Machine/Queues.lean). -/
def syncCtx (k : Nat) : Nat :=
  (if 2 ^ 90 ≤ k then (k - 2 ^ 90) / 2 ^ 32 else if 2 ^ 80 ≤ k then (k - 2 ^ 80) / 8 else k) / 2 ^ 57
/-- Nothing cached under a context's id outlives it, nor do the lines of its swatch pool where no other context shares it (R192). -/
def forgetCtx (s : State) (c : Nat) : State :=
  let keep (l : CLine) : Bool := l.tag != some c
  let s := s.dropLeaves fun y => y.ctx == c
  let s : State := { s with
    cores := s.cores.map fun e => (e.1, { e.2 with l1 := e.2.l1.filter keep, icache := e.2.icache.filter keep })
    dies := s.dies.map fun e => (e.1, { e.2 with rdc := e.2.rdc.filter keep })
    trays := s.trays.map fun e =>
      (e.1, { e.2 with slices := e.2.slices.filter keep, parts := e.2.parts.filter fun q => q.ctx != c })
    ctxs := mapErase s.ctxs c
    launches := s.launches.filter fun e => e.2.ctx != c
    shoots := s.shoots.filter fun q => q.ctx != c
    mem := { s.mem with
      reqs := s.mem.reqs.filter fun q => q.ctx != c
      arrived := s.mem.arrived.filter fun e => syncCtx e.1 != c
      syncs := s.mem.syncs.filter fun e => syncCtx e.1 != c } }
  s.reclaimLines
def takeRelease (s : State) (p : List Byte) : State :=
  let c := natAt p 4 2 % 4096
  if (s.ctx? c).isNone then s.refuse p stCtx 4
  else
    let s := ((s.taken ones48 0).removeBlocks c).endLaunches c 0x20
    (s.acceptedRecord p).forgetCtx c

end State

def execContextBind (s : State) : Out := .next (s.withPacket (· == 3) State.takeBind)
def execContextRelease (s : State) : Out := .next (s.withPacket (· == 4) State.takeRelease)

/-! ### Context-fatal events (R302) -/

/-- The relays stop a context: stores issued are acknowledged, one record is written, blocks leave, launches end. -/
def execContextFatal (ctx : Nat) (s : State) : Out :=
  .next (match s.ctx? ctx with
    | none => s
    | some x => match x.fatal with
      | none => s
      | some (u, va) =>
        if x.dead then s
        else
          let s := (s.blocks.filter fun e => e.2.id.ctx == ctx).foldl (fun s e => s.settleUpdates e.1) s
          let s := (s.mem.reqs.filter fun q => q.ctx == ctx && q.state == 0 && q.kind != 2).foldl (fun s q => s.performReq q) s
          let s := s.modCtx ctx fun x => { x with dead := true, saved := 0, cores := [], regions := [] }
          let s := s.report (some ctx) false
            (recordBytes 0x18 u.code 0 0 s.time.ns ones48 255 ones64 0 (256 * s.primaryPkg) 0 va 0 0)
          (s.removeBlocks ctx).endLaunches ctx 0x18)

end Sys2Proof.Machine
end

