-- ==== Sys2Proof/Machine/Placement.lean ====
section
/-! DEFINITION. Placement, start times, residency reports, stealing, priorities and the host pair (01 R33, R36, R48; 10 R252-R258; 11
R269; 13 R318). -/

namespace Sys2Proof.Machine

namespace State

/-! ### Placement (R252) -/

/-- The launch and block a die relay would place next for a context: the lowest unstarted block of its share, in identifier order, so
that one that waits holds those after it, and so does a resident launch that waits; of a DET launch only the block at the frontier (R48,
R256, R269). -/
def headOf (s : State) (c d : Nat) : Option (Launch × Nat) :=
  let ls := (mapVals s.launches).filter fun l =>
    l.ctx == c && !l.done && (if l.resident then !l.shares.isEmpty else (s.lowestOf l 0 d).isSome)
  match leastBy (·.seq) ls with
  | none => none
  | some l => match s.lowestOf l 0 d with
    | some b => if l.resident || !s.mayPlace l || (l.isDet && frontier l != some b) then none else some (l, b)
    | none => none
/-- Contexts, those of higher priority first, the earlier bound of equals first. -/
def byPriority (s : State) : List Nat :=
  (sortBy (fun (a b : Ctx) => decide (s.priorityOf b.id < s.priorityOf a.id)
    || (s.priorityOf a.id == s.priorityOf b.id && decide (a.order ≤ b.order))) (mapVals s.ctxs)).map (·.id)
/-- What a die relay can place now: launch, block, core. -/
def placeable (s : State) (d : Nat) : Option (Launch × Nat × Nat) :=
  firstSome (s.byPriority.map fun c => match s.headOf c d with
    | none => none
    | some (l, b) =>
      if s.freeRegions c < l.skeins * l.unit then none
      else (s.coreFor l [] d).map fun g => (l, b, g.1))

end State

def execBlockPlacement (die : Nat) (s : State) : Out :=
  .next (match (s.placeable die).filter fun _ => s.dieThere die with
    | none => s
    | some (l, b, g) => s.placeUnit l b g)
/-- An earlier launch of the context has an unstarted block (R256). -/
def State.earlierWaits (s : State) (l : Launch) : Bool :=
  (mapVals s.launches).any fun q => q.ctx == l.ctx && decide (q.seq < l.seq) && !q.done && !q.shares.isEmpty
/-- A resident launch that may start is placed whole, once all its blocks fit at once (R36). -/
def execResidentPlacement (lid : Nat) (s : State) : Out :=
  .next (match s.launch? lid with
    | none => s
    | some l =>
      if !l.resident || !s.mayPlace l || l.shares.isEmpty || s.earlierWaits l then s
      else match s.plan l with
        | none => s
        | some bs => bs.foldl (fun s q => s.placeUnit l q.1 q.2) s)
/-- `%time` has reached the launch's start: the block's skeins and coach instance become RUNNABLE (R258). -/
def execStartTime (bid : Nat) (s : State) : Out :=
  .next (match s.blk? bid with
    | none => s
    | some b =>
      let start := (s.launch? b.id.lid).elim 0 (·.start)
      if b.held && decide (start ≤ s.time.ns) then s.modBlk bid fun b => { b with held := false } else s)

namespace State

/-! ### Reports and stealing (R253-R255) -/

/-- A relay is idle for a launch: no unstarted block of any launch of the context in its share, and room for one. -/
def relayIdle (s : State) (l : Launch) (level node : Nat) : Bool :=
  ((mapVals s.launches).all fun q => q.ctx != l.ctx || (s.lowestOf q level node).isNone) && decide (1 ≤ s.freeRelay l level node)
def retiredIn (l : Launch) (level node : Nat) : Nat :=
  ((l.doneAt.filter fun e => above 0 e.1 level == node).map (·.2)).sum
/-- Blocks of its share that have started. -/
def startedIn (s : State) (l : Launch) (level node : Nat) : Nat :=
  (s.blocks.filter fun e => e.2.id.lid == l.lid && decide (e.2.id.core < 2 ^ 32) && above 0 (dieOf e.2.id.core) level == node).length
    + retiredIn l level node
/-- The report a relay would send now. -/
def reportOf (s : State) (l : Launch) (level node : Nat) : Report :=
  { level := level, node := node, free := s.freeRelay l level node, unstarted := s.unstarted l level node,
    lowest := (s.lowestOf l level node).getD ones64, retired := retiredIn l level node, at_ := s.time.ns
    started := s.startedIn l level node, idle := s.relayIdle l level node }
def lastReport (l : Launch) (level node : Nat) : Option Report := l.reports.find? fun r => r.level == level && r.node == node
/-- A report is due when a block of the share has started or retired, at most once a microsecond, and at once when the relay becomes
idle; the first one when the relay holds a share or is idle (R253). -/
def reportDue (s : State) (l : Launch) (level node : Nat) : Bool :=
  match lastReport l level node with
  | none => s.unstarted l level node != 0 || s.startedIn l level node != 0 || s.relayIdle l level node
  | some r => (!r.idle && s.relayIdle l level node)
      || (decide (r.at_ + 1000 ≤ s.time.ns)
        && (r.retired != retiredIn l level node || r.started != s.startedIn l level node || r.idle != s.relayIdle l level node))
/-- The relays of a level. -/
def siblings (s : State) (level node : Nat) : List Nat :=
  match level with
  | 0 => (s.diesOf (node / 4)).filter (· != node)
  | 1 => ((List.range Config.perTray).map fun i => Config.perTray * (node / Config.perTray) + i).filter (· != node)
  | _ => (List.range (Config.packages / Config.perTray)).filter (· != node)
def quantum (level : Nat) : Nat := if level = 0 then 4 else if level = 1 then 16 else 64
/-- The blocks of a relay's share, the lowest `n`. -/
def lowestBlocks (s : State) (l : Launch) (level node : Nat) : Nat → List Share → List Nat
  | 0, _ => []
  | n + 1, sh =>
    match s.lowestOf { l with shares := sh } level node with
    | none => []
    | some b => b :: lowestBlocks s l level node n (takeOut b sh)
/-- A relay is idle for a launch, as it has reported (R254). -/
def idleSaid (s : State) (l : Launch) (level node : Nat) : Bool :=
  ((mapVals s.launches).all fun q => q.ctx != l.ctx || (s.lowestOf q level node).isNone)
    && (lastReport l level node).elim false fun r => decide (1 ≤ r.free)
/-- What a relay would steal: the quantum of the sibling whose reported LOWEST is lowest (R254). -/
def stealFrom (s : State) (l : Launch) (level node : Nat) : List Nat :=
  if l.resident || l.done || s.isFatal l.ctx || (s.ctx? l.ctx).elim true (fun x => x.saved != 0) || decide (2 < level)
      || !s.relayThere level node || !s.idleSaid l level node then []
  else
    let sib := (s.siblings level node).filterMap fun v =>
      (lastReport l level v).bind fun r => if r.lowest = ones64 then none else some (v, r.lowest)
    match leastBy (·.2) sib with
    | none => []
    | some (v, _) =>
      let q := quantum level * l.unit
      if s.unstarted l level v ≤ q then [] else s.lowestBlocks l level v q l.shares

end State

def execResidencyReport (level node lid : Nat) (s : State) : Out :=
  .next (match s.launch? lid with
    | none => s
    | some l =>
      if l.done || decide (2 < level) || !s.relayThere level node || !s.reportDue l level node then s
      else
        let r := s.reportOf l level node
        let s := s.modLaunch lid fun l =>
          { l with reports := r :: l.reports.filter fun q => !(q.level == level && q.node == node) }
        if l.routed || l.resident || (s.ctx? l.ctx).elim true (fun x => x.saved != 0) then s
        else s.setShares lid (State.handDown level node ((r.free - r.unstarted) / l.unit * l.unit)))
def execSteal (level node lid : Nat) (s : State) : Out :=
  .next (match s.launch? lid with
    | none => s
    | some l =>
      let bs := s.stealFrom l level node
      s.setShares lid fun sh =>
        State.sortShares (bs.foldl (fun sh b => State.takeOut b sh) sh ++ bs.map fun b =>
          { level := level, node := node, lo := b, count := 1, keyed := l.routed }))

/-! ### Priorities (R256) -/

namespace State

/-- The cores that could hold a launch's lowest-index unstarted block: those of the dies its share may use. -/
def coresThatHold (s : State) (l : Launch) : List Nat :=
  match frontier l with
  | none => []
  | some b =>
    let dies := (l.shares.filter fun sh => decide (sh.lo ≤ b) && decide (b < sh.lo + sh.count)).flatMap fun sh =>
      if sh.keyed || sh.level == 0 then [s.dieFor l sh b]
      else s.packages.flatMap fun p => (s.diesOf p).filter fun d => above 0 d sh.level == sh.node
    dies.flatMap coresOf
/-- The context a launch's wait pre-empts: of the contexts of lower priority that hold every core it could use, the lowest in
priority, the one bound most recently of equals; contexts with an EXEMPT launch are passed over. While one of them is being saved, none. -/
def victimFor (s : State) (l : Launch) : Option Nat :=
  let hosts := (s.coresThatHold l).map fun g => (s.core g).ctx
  if l.done || s.isFatal l.ctx || (s.ctx? l.ctx).elim true (fun x => x.saved != 0) || hosts.isEmpty
      || decide (s.time.ns < l.waiting + 50000)
      || hosts.any (fun h => h.elim true fun c =>
        c == l.ctx || decide (l.priority ≤ s.priorityOf c) || (s.ctx? c).elim false fun x => x.saved == 1) then none
  else
    let cs := ((hosts.filterMap id).foldl listInsertNat []).filter fun c =>
      ((s.ctx? c).elim false fun x => x.saved == 0 && !x.dead) && !(mapVals s.launches).any fun q => q.ctx == c && !q.done && q.exempt
    leastBy (fun c => s.priorityOf c * 2 ^ 64 + (2 ^ 64 - 1 - (s.ctx? c).elim 0 (·.order))) cs

end State

/-- The victim is to be saved rack-wide; the event CONTEXT_SAVE saves it. -/
def execPriorityPreemption (lid : Nat) (s : State) : Out :=
  .next (match (s.launch? lid).bind s.victimFor with
    | none => s
    | some c => s.modCtx c fun x => { x with saved := 1, since := s.time.ns })

/-! ### The host pair (R318) -/

/-- The primary's heartbeat, every 100 microseconds. -/
def execHeartbeat (s : State) : Out :=
  .next (if (s.relay.primary.elim false fun p => !s.relay.failed.contains p) && s.relay.standby.isSome && decide (s.relay.beat + 100000 ≤ s.time.ns) then
      { s with relay := { s.relay with beat := s.time.ns } }
    else s)
/-- After a millisecond without one the standby takes over: the tray switches drop the old primary's traffic, and it goes on from
what was mirrored. Residency reports are collected anew, and launches accepted are all in the relays' shares already. -/
def execFailover (s : State) : Out :=
  .next (match s.relay.standby, s.relay.primary with
    | some n, some old =>
      if s.time.ns < s.relay.beat + 1000000 then s
      else
        { s with
          relay := { s.relay with primary := some n, standby := none, head := s.relay.mhead, cutOff := s.relay.cutOff ++ [old], mirror := [] }
          launches := s.launches.map fun e => (e.1, { e.2 with reports := [] }) }
    | _, _ => s)

end Sys2Proof.Machine
end

