-- ==== Sys2Proof/Machine/SaveRecords.lean ====
section
/-! DEFINITION. The records of a core save region, written and read back (03 R91-R95; 11 R274; 12 R295, R296). -/

namespace Sys2Proof.Machine

/-! ### Writing fields at offsets -/

/-- Byte strings at rising offsets, with zeros between them. -/
def layout (l : List (Nat × List Byte)) : List Byte := l.foldl (fun acc f => padTo f.1 acc ++ f.2) []
def nats (n : Nat) (l : List Nat) : List Byte := (l.map (leBytes n)).flatten
def roundUp (n k : Nat) : Nat := (n + k - 1) / k * k

/-! ### Waits (R93, R295) -/

/-- The wait field of an issuer: kind and extra bits. `grown` is the amount of its queued request. -/
def waitField (w : Option Wait) (grown : Nat) : Nat :=
  match w with
  | none => 0
  | some w => w.code + match w with
    | .bar n => 2 ^ 8 * n
    | .grow tiles _ => 2 ^ 8 * tiles.toNat + 2 ^ 16 * (grown % 65536)
    | .fault m _ r => 2 ^ 8 * r.toNat + 2 ^ 16 * m.toNat
    | _ => 0
/-- What a recorded wait becomes at restore: barriers, requests and faults wait on, every other waiting instruction is executed
again (R295); `old` is the wait as it was kept, with a reply that arrived since (R317). -/
def waitOf (f : Nat) (old : Option Wait) : Option Wait :=
  let asked := match old with
    | some (.grow _ n) => n
    | _ => 0
  let fault := match old with
    | some (.fault _ va r) => (va, r)
    | _ => (0, false)
  match f % 256 with
  | 1 => some (.bar (bitsOf f 11 8))
  | 5 => some (.grow (bit1 f 8) asked)
  | 9 => if bit1 f 8 || fault.2 then none else some (.fault (BitVec.ofNat 16 (bitsOf f 31 16)) fault.1 false)
  | _ => none

/-! ### Skein records (R93, R94) -/

def planeBits (m : NMap Nat) : Nat := (List.range 16).foldl (fun n l => n + mapGetD m l 0 * 4 ^ l) 0
def planeMap (n : Nat) : NMap Nat := (List.range 16).foldl (fun m l => if n / 4 ^ l % 4 = 0 then m else mapSet m l (n / 4 ^ l % 4)) []
def entryBits : Entry → Nat
  | .path p => p.off + 2 ^ 32 * p.lanes.toNat + 2 ^ 48 * (p.base / 8)
  | .marker rj a b => rj + 2 ^ 32 * a.toNat + 2 ^ 48 * (b / 8) + 2 ^ 63
def entryOf (n : Nat) : Entry :=
  let o := n % 2 ^ 32
  let m : Lanes := BitVec.ofNat 16 (bitsOf n 47 32)
  let b := 8 * bitsOf n 54 48
  if bit1 n 63 then .marker o m b else .path { off := o, lanes := m, base := b }
/-- An arm record of 288 bytes. -/
def armRecord (a : Arm) (off : Nat) : List Byte :=
  layout [(0, leBytes 4 off), (4, leBytes 2 (a.path.elim 0 (·.lanes.toNat))), (6, leBytes 1 a.stack.length),
    (7, leBytes 1 (a.path.isSome.toNat + 2 * a.complete.toNat)), (8, leBytes 2 a.arrived.toNat),
    (16, nats 8 (a.stack.reverse.map entryBits)), (288, [])]
/-- A join register's 32 bytes; a group's number is its hold order from 1. Of the bases of several groups the record holds the last one's
(log 108). -/
def joinRecord (r : JoinReg) : List Byte :=
  let gs := (List.range r.groups.length).filterMap fun i => r.groups[i]?.map fun g => (i + 1, g)
  let of (l : Nat) : Nat := ((gs.find? fun g => g.2.lanes.getLsbD l).map (·.1)).getD 0
  layout [(0, leBytes 2 r.e.toNat), (2, leBytes 2 r.a.toNat), (4, leBytes 2 r.pd.toNat),
    (6, leBytes 2 (Skein.groupLanes r.groups).toNat), (8, leBytes 4 r.w),
    (12, leBytes 2 ((gs.map fun g => g.2.arm % 2 * 2 ^ g.1).sum)),
    (16, leBytes 8 ((List.range 16).foldl (fun n l => n + of l * 16 ^ l) 0)), (24, leBytes 4 ((r.groups.getLast?).elim 0 (·.base))), (32, [])]
/-- A join register rebuilt: the groups' bases stay as they were kept where the record still holds what was written there. -/
def joinFrom (b : List Byte) (old : JoinReg) : JoinReg :=
  let g := natAt b 16 8
  let base := natAt b 24 4
  let asKept := (old.groups.getLast?).elim 0 (·.base) == base
  let groups := ((List.range 15).map fun i =>
    let m := laneSet fun l => g / 16 ^ l % 16 == i + 1
    ({ lanes := m, arm := (bit1 (natAt b 12 2) (i + 1)).toNat,
       base := ((old.groups[i]?).filter fun x => asKept && x.lanes == m).elim base (·.base) } : Group)).filter fun x => x.lanes != 0
  { e := BitVec.ofNat 16 (natAt b 0 2), a := BitVec.ofNat 16 (natAt b 2 2), pd := BitVec.ofNat 16 (natAt b 4 2), groups := groups,
    w := natAt b 8 4 }
def latchBytes (x : Latches) : List Byte := nats 8 ((List.range 128).map fun i => (mapGetD x.ent i 0).toNat)
def latchesFrom (valid : Nat) (b : List Byte) : Latches :=
  { valid := BitVec.ofNat 8 valid
    ent := (List.range 128).filterMap fun i => if natAt b (8 * i) 8 = 0 then none else some (i, BitVec.ofNat 64 (natAt b (8 * i) 8)) }
def ksBytes (k : NMap W64) : List Byte := nats 8 ((List.range 32).map fun i => (mapGetD k i 0).toNat)
def ksFrom (b : List Byte) : NMap W64 :=
  (List.range 32).filterMap fun i => if natAt b (8 * i) 8 = 0 then none else some (i, BitVec.ofNat 64 (natAt b (8 * i) 8))
/-- The offset an arm's record gives: its waiting instruction's, or where its path stands. -/
def Arm.recordOff (a : Arm) : Nat := a.issue.elim (a.path.elim 0 (·.off)) (·.off)
/-- Where a skein is saved from (R93): 0 RUNNABLE, 1 PARKED, 2 TRAP. -/
def Skein.savedFrom (k : Skein) : Nat := if k.trapMode then 2 else if { k with life := Life.live }.parked then 1 else 0
def skeinSize (a : Nat) : Nat := roundUp (0x1000 + 64 * a) 256
/-- A skein record. In trap mode the trapping arm's record gives the handler's offset, and its `k0`-`k7` are those set aside. -/
def skeinRecord (b : Block) (k : Skein) (pos grown extra : Nat) : List Byte :=
  let arms := k.frame.elim k.arms (·.arms)
  let h := k.arm 0
  let off (i : Nat) (a : Arm) : Nat := match k.frame with
    | some f => if f.arm = i then h.recordOff else a.recordOff
    | none => a.recordOff
  let ks (i : Nat) (a : Arm) : NMap W64 := match k.frame with
    | some f => if f.arm = i then (List.range 24).foldl (fun m j => mapSet m (8 + j) (mapGetD h.ks (8 + j) 0)) a.ks else a.ks
    | none => a.ks
  let rec_ (i : Nat) : List Byte := (arms[i]?).elim [] fun a => armRecord a (off i a)
  let regs (i : Nat) : List Byte := (arms[i]?).elim [] fun a => ksBytes (ks i a)
  let wait := ((k.arms.find? fun a => a.wait.isSome).bind (·.wait))
  let held := k.waitKind == 3 && k.parked
  let m0 := k.frame.elim (k.mask 0) (·.m0)
  layout [(0, leBytes 8 (b.id.seq + 2 ^ 48 * k.idx + 2 ^ 52 * k.role + 2 ^ 54 * k.savedFrom)),
    (8, leBytes 8 (if held then 3 else waitField wait grown)), (0x10, leBytes 4 k.win.base), (0x14, leBytes 4 k.win.spill),
    (0x18, leBytes 2 k.win.allot), (0x1A, leBytes 2 k.win.reach), (0x1C, leBytes 2 k.r.status.toNat), (0x1E, leBytes 2 k.r.exited.toNat),
    (0x20, leBytes 4 (planeBits k.r.planes)), (0x24, leBytes 4 (k.frame.elim 0 fun f => planeBits f.planes)),
    (0x28, leBytes 1 arms.length), (0x2C, leBytes 4 (k.frame.elim k.rejoin (·.rejoin))),
    (0x30, nats 2 (m0.toNat :: (List.range 7).map fun i => (k.mask (i + 1)).toNat)),
    (0x40, ((List.range 8).map fun j => joinRecord (k.join j)).flatten), (0x140, rec_ 0), (0x260, rec_ 1), (0x380, regs 0), (0x480, regs 1),
    (0x580, if k.trapMode then nats 8 ((List.range 8).map fun i => (mapGetD h.ks i 0).toNat) else []),
    (0x5C0, leBytes 2 (if k.trapMode then (k.mask 0).toNat else 0)),
    (0x5C2, leBytes 1 (k.frame.elim k.r.latch (·.latch)).valid.toNat), (0x5C3, leBytes 1 (if k.trapMode then k.r.latch.valid.toNat else 0)),
    (0x5C8, leBytes 8 k.x.region), (0x5D0, leBytes 8 b.id.idx), (0x5D8, leBytes 1 pos), (0x5DC, leBytes 4 extra),
    (0x600, latchBytes (k.frame.elim k.r.latch (·.latch))), (0xA00, if k.trapMode then latchBytes k.r.latch else []),
    (0x1000, nats 4 ((List.range k.win.allot).flatMap fun i =>
      (List.range 16).map fun l => (k.logical (k.win.spill + i) l).toNat)), (skeinSize k.win.allot, [])]
/-- A running path rebuilt: the kept one where the record agrees with it, else one at the window base. -/
def pathFrom (off : Nat) (lanes : Lanes) (base : Nat) (old : Option Path) : Path :=
  (old.filter fun p => p.off == off && p.lanes == lanes).getD { off := off, lanes := lanes, base := base, last := off }
/-- An arm rebuilt from its record: what the record does not hold stays as it was kept. -/
def armFrom (b : List Byte) (base : Nat) (ks : NMap W64) (wait : Option Wait) (old : Arm) : Arm :=
  let off := natAt b 0 4
  let same := old.recordOff == off
  let flags := natAt b 7 1
  let entry (i : Nat) : Entry :=
    let n := natAt b (16 + 8 * i) 8
    ((old.stack.reverse[i]?).filter fun e => entryBits e == n).getD (entryOf n)
  { old with
    path := if bit1 flags 0 then
        some (pathFrom off (BitVec.ofNat 16 (natAt b 4 2)) base old.path) else none
    stack := ((List.range (natAt b 6 1)).map entry).reverse
    complete := bit1 flags 1, arrived := BitVec.ofNat 16 (natAt b 8 2), ks := ks, wait := wait,
    issue := if same then old.issue else none, again := if same then old.again else none }
/-- A skein rebuilt from its record; `k` as it was kept gives what the record does not hold. -/
def skeinFrom (b : List Byte) (k : Skein) : Skein :=
  let allot := natAt b 0x18 2
  let spill := natAt b 0x14 4
  let trap := natAt b 0 8 / 2 ^ 54 % 16 == 2
  let wf := natAt b 8 8
  let waiter := ((List.range k.arms.length).find? fun i => (k.arm i).wait.isSome).getD 0
  let wait (i : Nat) (a : Arm) : Option Wait := if i = waiter then waitOf wf a.wait else waitOf (waitField a.wait 0) a.wait
  let ksAt (i : Nat) : NMap W64 := ksFrom (slice b (0x380 + 0x100 * i) 256)
  let recAt (i : Nat) : List Byte := slice b (0x140 + 288 * i) 288
  let cells := (List.range allot).foldl (fun m i => (List.range 16).foldl (fun m l =>
    let v := natAt b (0x1000 + 64 * i + 4 * l) 4
    if v = 0 then m else mapSet m ((spill + i) % max 1 allot * 16 + l) (BitVec.ofNat 32 v)) m) ([] : NMap W32)
  let mAt (i : Nat) : Lanes := BitVec.ofNat 16 (natAt b (0x30 + 2 * i) 2)
  let m0 : Lanes := if trap then BitVec.ofNat 16 (natAt b 0x5C0 2) else mAt 0
  let progLatch := latchesFrom (natAt b 0x5C2 1) (slice b 0x600 1024)
  let base := natAt b 0x10 4
  let h := k.arm 0
  let kept := k.frame.elim k.arms (·.arms)
  let rearm (i : Nat) (wait : Option Wait) : Arm := armFrom (recAt i) base (ksAt i) wait ((kept[i]?).getD Arm.idle)
  let n := max 1 (natAt b 0x28 1)
  let frame := k.frame.getD { arms := [], rejoin := 0, planes := [], latch := Latches.none, m0 := 0, arm := 0, ranArm := 0 }
  let k := { k with
    role := natAt b 0 8 / 2 ^ 52 % 4
    win := { allot := allot, reach := natAt b 0x1A 2, base := base, spill := spill }
    r := { lanes := cells, masks := (0, m0) :: (List.range 7).map fun i => (i + 1, mAt (i + 1)),
           joins := (List.range 8).map fun j => (j, joinFrom (slice b (0x40 + 32 * j) 32) (k.join j)),
           latch := if trap then latchesFrom (natAt b 0x5C3 1) (slice b 0xA00 1024) else progLatch,
           planes := planeMap (natAt b 0x20 4), exited := BitVec.ofNat 16 (natAt b 0x1E 2), status := BitVec.ofNat 7 (natAt b 0x1C 2) }
    x := { k.x with region := natAt b 0x5C8 8 } }
  if trap then
    let lanesIn (r : List Byte) (old : Option Path) : Option Path :=
      if bit1 (natAt r 7 1) 0 then
        some { old.getD { off := natAt r 0 4, lanes := 0, base := base, last := natAt r 0 4 } with lanes := BitVec.ofNat 16 (natAt r 4 2) }
      else none
    let aside (i : Nat) : Arm :=
      let a := rearm i none
      match kept[i]? with
      | some old => if i = frame.arm then { a with path := lanesIn (recAt i) old.path, issue := old.issue, again := old.again } else a
      | none => a
    let off := natAt (recAt frame.arm) 0 4
    let ks := (List.range 32).foldl (fun m i =>
      mapSet m i (if i < 8 then BitVec.ofNat 64 (natAt b (0x580 + 8 * i) 8) else mapGetD (ksAt frame.arm) i 0)) ([] : NMap W64)
    let h : Arm := { h with path := some (pathFrom off (h.path.elim k.live (·.lanes)) base h.path), ks := ks, wait := wait 0 h,
                            issue := if h.recordOff = off then h.issue else none }
    { k with arms := [h], frame := some { frame with
        arms := (List.range n).map aside, rejoin := natAt b 0x2C 4, planes := planeMap (natAt b 0x24 4), latch := progLatch, m0 := mAt 0 } }
  else
    { k with rejoin := natAt b 0x2C 4, frame := none
             arms := (List.range n).map fun i => rearm i (wait i ((kept[i]?).getD Arm.idle)) }

/-! ### Block records (R92, R296, R274) -/

def dqBytes (l : List DqEnt) : List Byte :=
  (l.map fun e => leBytes 8 e.value.toNat ++ leBytes 2 e.mask.toNat ++ leBytes 2 e.popped.toNat ++ leBytes 1 1 ++ leBytes 3 0).flatten
def slotBytes (t : List Nat) : List Byte := padTo 128 (t.map fun (b : Nat) => (BitVec.ofNat 8 b : Byte))
/-- A matrix queue entry of 192 bytes. -/
def mcmdBytes (m : MCmd) : List Byte :=
  layout [(0, leBytes 1 m.kind), (1, leBytes 1 m.tile), (2, leBytes 1 (if m.kind = 0 then m.slot else 0)),
    (3, leBytes 1 (m.fl % 16 + 16 * m.span.toNat)), (4, leBytes 2 m.num), (6, leBytes 1 m.who), (7, leBytes 1 m.state),
    (8, leBytes 8 m.ka.toNat), (16, leBytes 8 m.kb.toNat), (24, leBytes 8 m.kc.toNat), (32, leBytes 4 m.prog),
    (64, if m.kind = 0 then slotBytes m.table else []), (192, [])]
def mcmdFrom (b : List Byte) (m : MCmd) : MCmd :=
  { m with kind := natAt b 0 1, tile := natAt b 1 1, slot := if natAt b 0 1 = 0 then natAt b 2 1 else m.slot, fl := natAt b 3 1 % 16,
           span := bit1 (natAt b 3 1) 4, num := natAt b 4 2, who := natAt b 6 1, state := natAt b 7 1, ka := BitVec.ofNat 64 (natAt b 8 8),
           kb := BitVec.ofNat 64 (natAt b 16 8), kc := BitVec.ofNat 64 (natAt b 24 8), prog := natAt b 32 4,
           table := if natAt b 0 1 = 0 then (slice b 64 128).map (·.toNat) else m.table, reread := true }
/-- A copy entry of 64 bytes; a copy done but for its counter counts as running. -/
def copyBytes (y : Copy) : List Byte :=
  layout [(0, leBytes 8 y.ks.toNat), (8, leBytes 8 y.kx.toNat), (16, leBytes 8 y.kc.toNat), (24, leBytes 4 y.prog),
    (28, leBytes 1 (if y.state = 3 then 1 else y.state)), (29, leBytes 1 y.who), (30, leBytes 4 y.num), (64, [])]
def copyFrom (b : List Byte) (y : Copy) : Copy :=
  { y with ks := BitVec.ofNat 64 (natAt b 0 8), kx := BitVec.ofNat 64 (natAt b 8 8), kc := BitVec.ofNat 64 (natAt b 16 8),
           prog := natAt b 24 4, state := if y.state = 3 ∧ natAt b 28 1 = 1 then 3 else natAt b 28 1, who := natAt b 29 1, num := natAt b 30 4, reread := true }
def bankBytes (m : NMap W32) : List Byte := nats 4 ((List.range 16384).map fun i => (mapGetD m i 0).toNat)
def bankFrom (b : List Byte) : NMap W32 :=
  (List.range 16384).filterMap fun i => if natAt b (4 * i) 4 = 0 then none else some (i, BitVec.ofNat 32 (natAt b (4 * i) 4))
def shadowBits (h : Shadow) : Nat :=
  h.wv.toNat + 2 * h.ws + 2 ^ 6 * h.wp + 2 ^ 22 * h.rv.toNat + 2 ^ 23 * h.rs + 2 ^ 28 * h.rp + 2 ^ 44 * h.sh.toNat + 2 ^ 45 * h.se
def shadowFrom (n : Nat) : Shadow :=
  { wv := bit1 n 0, ws := bitsOf n 5 1, wp := bitsOf n 21 6, rv := bit1 n 22, rs := bitsOf n 27 23, rp := bitsOf n 43 28, sh := bit1 n 44,
    se := bitsOf n 60 45 }
/-- A clock's 17 entries; its own is the phase. -/
def clockBytes (i : Nat) (d : DetClock) : List Byte :=
  nats 2 ((List.range 17).map fun j => if j = i then d.phase else (d.vc[j]?).getD 0)
def clockFrom (i : Nat) (b : List Byte) : DetClock :=
  { phase := natAt b (2 * i) 2, vc := (List.range 17).map fun j => if j = i then 0 else natAt b (2 * j) 2 }
def detSize (b : Block) : Nat := 34 * (b.skeins.length + b.coach.isSome.toNat) + 2 + 8 * (b.ps.size / 4)
/-- The DET state of a block (R274): the epoch in 2 bytes, the coach instance's clock after the skeins' where there is one (log 116). -/
def detBytes (b : Block) : List Byte :=
  (b.skeins.map fun k => clockBytes k.idx k.x.det).flatten ++ (b.coach.elim [] fun c => clockBytes 16 c.det) ++ leBytes 2 b.epoch
    ++ nats 8 ((List.range (b.ps.size / 4)).map fun w => shadowBits (mapGetD b.ps.shadow w Shadow.zero))
/-- How many stores a deferral stands for. -/
def Deferred.total (d : Deferred) : Nat := (d.stores.map (·.2.1)).sum
/-- A skein's deferred POISON as its record gives it; the kept one where they agree. -/
def deferFrom (r : List Byte) (at_ : Nat) (old : Option Deferred) : Option Deferred :=
  let d : Deferred := { va := natAt r at_ 8, count := natAt r (at_ + 8) 4, off := natAt r (at_ + 12) 4, home := old.elim 0 (·.home) }
  if d.count = 0 then none
  else (old.filter fun q => q.va == d.va && q.total == d.count && q.off == d.off).or (some d)
/-- Where the tile images, the DET state and the queue extension of a block's record stand. -/
def tilesAt (b : Block) : Nat := 0x1000 + roundUp b.ps.size 4096
def detAt (b : Block) : Nat := tilesAt b + 131072 * b.ntiles
def extAt (det : Bool) (b : Block) : Nat := detAt b + if det then detSize b else 0
/-- A block record with its queue extension. The decision queue is written from slot 0 on, with head 0 (log 85). `coachGrown` is the
amount of the coach instance's parked request, `tilesOut` the evicted tiles that no parked `GROW` holds. -/
def blockRecord (b : Block) (c : Core) (det : Bool) (coachGrown tilesOut : Nat) : List Byte :=
  let mq := c.mq.filter fun m => m.bid == b.id.bid
  let cp := c.copies.filter fun y => y.bid == b.id.bid
  let tile (t : Nat) : Tile := mapGetD b.tiles t Tile.zero
  let marks (f : Tile → Bool) : Nat := ((List.range b.ntiles).map fun t => if f (tile t) then 2 ^ t else 0).sum
  let defer (k : Skein) : List Byte := k.x.defer.elim (leBytes 16 0) fun d => leBytes 8 d.va ++ leBytes 4 d.total ++ leBytes 4 d.off
  let arr (k : Skein) : List Byte := k.x.bo.elim (leBytes 16 0) fun q => leBytes 8 q.1 ++ leBytes 4 q.2 ++ leBytes 1 1 ++ leBytes 3 0
  layout ([(0, leBytes 8 b.id.idx), (8, leBytes 2 b.id.key), (0xA, leBytes 1 b.ntiles), (0xB, leBytes 1 b.skeins.length),
    (0xC, leBytes 1 b.id.span), (0x10, leBytes 4 b.ps.size),
    (0x18, leBytes 8 (b.coach.elim 0 fun x => x.off + 2 ^ 32 * (x.wait.isSome || x.hold.isSome).toNat + 2 ^ 40 * (!x.ended).toNat)),
    (0x20, b.coach.elim [] fun x => ksBytes x.ks), (0x120, dqBytes b.dq), (0x220, leBytes 4 (2 ^ 16 * b.dq.length)),
    (0x228, leBytes 8 b.id.seq), (0x230, leBytes 8 (b.coach.elim 0 fun x => waitField x.wait coachGrown)), (0x238, leBytes 1 tilesOut),
    (0x400, leBytes 1 mq.length), (0x401, leBytes 1 cp.length), (0x402, leBytes 2 b.ncmd), (0x404, leBytes 4 b.ncopy),
    (0x408, leBytes 2 (marks fun t => t.failed.isSome)), (0x40A, leBytes 2 (marks fun t => t.lost.isSome)),
    (0x410, leBytes 8 (extAt det b)), (0x500, (b.skeins.map arr).flatten),
    (0x600, ((List.range 8).map fun i => slotBytes (mapGetD c.slots i (Config.preloaded i))).flatten),
    (0xA00, (b.skeins.map defer).flatten), (0x1000, byteGets b.ps.bytes 0 b.ps.size)]
    ++ ((List.range b.ntiles).flatMap fun t =>
      [(tilesAt b + 131072 * t, bankBytes (tile t).vis), (tilesAt b + 131072 * t + 65536, bankBytes (tile t).work)])
    ++ (if det then [(detAt b, detBytes b)] else [])
    ++ [(extAt det b, (mq.map mcmdBytes).flatten ++ (cp.map copyBytes).flatten)])
/-- A decision queue rebuilt: `count` slots from the head on, those that are valid. -/
def dqFrom (r : List Byte) (old : List DqEnt) : List DqEnt :=
  (List.range (natAt r 0x222 2)).filterMap fun i =>
    let o := 0x120 + 16 * ((natAt r 0x220 2 + i) % 16)
    if natAt r (o + 12) 1 % 2 = 0 then none
    else some { value := BitVec.ofNat 64 (natAt r o 8), mask := BitVec.ofNat 16 (natAt r (o + 8) 2),
                popped := BitVec.ofNat 16 (natAt r (o + 10) 2), carry := (old[i]?).bind (·.carry) }
/-- A block rebuilt from its record; `b` as it was kept gives what the record does not hold. -/
def blockFrom (r : List Byte) (det : Bool) (b : Block) : Block :=
  let b := { b with id := { b.id with key := natAt r 8 2, span := natAt r 0xC 1 }, ntiles := natAt r 0xA 1,
                    ps := { b.ps with size := natAt r 0x10 4 }
                    skeins := (List.range (natAt r 0xB 1)).map fun i => (b.skeins[i]?).getD { Skein.blank with idx := i } }
  let coach := b.coach.map fun c =>
    { c with off := natAt r 0x18 4, ks := ksFrom (slice r 0x20 256), ended := !bit1 (natAt r 0x18 8) 40, wait := waitOf (natAt r 0x230 8) c.wait,
             det := if det then clockFrom 16 (slice r (detAt b + 34 * b.skeins.length) 34) else c.det }
  let tiles := (List.range b.ntiles).foldl (fun m t =>
    let old := mapGetD b.tiles t Tile.zero
    let o := tilesAt b + 131072 * t
    mapSet m t { old with vis := bankFrom (slice r o 65536), work := bankFrom (slice r (o + 65536) 65536)
                          failed := if bit1 (natAt r 0x408 2) t then old.failed.or (some (0, .none)) else none
                          lost := if bit1 (natAt r 0x40A 2) t then old.lost.or (some 0) else none }) ([] : NMap Tile)
  let shadow := (List.range (b.ps.size / 4)).filterMap fun w =>
    let n := natAt r (detAt b + 34 * (b.skeins.length + b.coach.isSome.toNat) + 2 + 8 * w) 8
    if n = 0 then none else some (w, shadowFrom n)
  let sk (k : Skein) : Skein :=
    let bo := 0x500 + 16 * k.idx
    let df := 0xA00 + 16 * k.idx
    { k with x := { k.x with
        bo := if natAt r (bo + 12) 1 = 1 then some (natAt r bo 8, natAt r (bo + 8) 4) else none
        defer := deferFrom r df k.x.defer
        det := if det then clockFrom k.idx (slice r (detAt b + 34 * k.idx) 34) else k.x.det } }
  { b with
    coach := coach, dq := dqFrom r b.dq, tiles := tiles, ncmd := natAt r 0x402 2, ncopy := natAt r 0x404 4
    ps := { b.ps with bytes := byteSets [] 0 (slice r 0x1000 b.ps.size), shadow := if det then shadow else b.ps.shadow }
    epoch := if det then natAt r (detAt b + 34 * (b.skeins.length + b.coach.isSome.toNat)) 2 else b.epoch
    skeins := b.skeins.map sk }
/-- The algebra slots a record holds. -/
def slotsFrom (r : List Byte) : NMap (List Nat) := (List.range 8).map fun i => (i, (slice r (0x600 + 128 * i) 128).map (·.toNat))

/-! ### The region (R91) -/

/-- The header, its directories and the records, packed from 0x1000. -/
def regionBytes (time ctx : Nat) (blocks skeins : List (List Byte)) : List Byte :=
  let offs (l : List (List Byte)) (at_ : Nat) : List Nat := (l.foldl (fun (acc : Nat × List Nat) r => (acc.1 + r.length, acc.2 ++ [acc.1])) (at_, [])).2
  let n := 0x1000 + (blocks.map List.length).sum
  layout [(0, leBytes 4 1), (4, leBytes 1 7), (5, leBytes 1 blocks.length), (6, leBytes 1 skeins.length), (8, leBytes 8 time),
    (0x10, leBytes 4 ctx), (0x100, nats 8 (offs blocks 0x1000)), (0x400, nats 4 (offs skeins n)), (0x1000, blocks.flatten ++ skeins.flatten)]

end Sys2Proof.Machine
end

