-- ==== Sys2Proof/Machine/Replies.lean ====
section
/-! DEFINITION. The driver's replies to fault records (12 R303; 13 R317; 16 R348). -/

namespace Sys2Proof.Machine

namespace State

/-- The context id a command names. -/
def cmdCtxId (c : List Byte) : Nat := natAt c 2 2 % 4096
/-- A skein or coach instance parked on a fault: resumed, or given PAGE_FAULT. -/
def replySkein (s : State) (b : Block) (ix : Nat) (bad : Bool) : Option State :=
  let trap (m : Lanes) (va : Nat) : Trap :=
    { code := .pageFault, cause := .unresolved, mask := m, masked := true, next := false, addr := BitVec.ofNat 64 va, aux := 0,
      off := none, race := none }
  if ix = 16 then
    match b.coach.bind (·.wait) with
    | some (.fault m va _) =>
      some (s.modCoach b.id.bid fun c => { c with wait := none, held := if bad then some (trap m va) else c.held })
    | _ => none
  else
    (b.skeins[ix]?).bind fun k =>
      ((List.range k.arms.length).find? fun a => (k.arm a).wait.elim false Wait.isFault).map fun a =>
        let s := (s.modArm b.id.bid ix a fun x => { x with wait := none }).wake
        match (k.arm a).wait with
        | some (.fault m va _) =>
          if !bad then s
          else
            let u := (k.arm a).issue
            let plane := match u with
              | some u => (u.rest.head?).elim 0 (·.1)
              | none => (lanesOf m).foldl (fun n l => min n (k.plane l)) 3
            let em := match u with
              | some u => u.exec
              | none => m
            s.trapSkein b ix k (trap m va) plane 0 a ((k.arm a).recordOff) false em m
        | _ => s
/-- A faulted copy, or its counter's increment. -/
def replyCopy (s : State) (b : Block) (num : Nat) (bad : Bool) : Option State :=
  let g := b.id.core
  let c := s.core g
  match (List.range c.copies.length).find? fun i => (c.copies[i]?).elim false fun y => y.bid == b.id.bid && y.num == num && y.state == 2 with
  | some i => (s.copyAt g i).map fun q =>
      if bad then
        s.abortCopy g q.1 q.2 .unresolved q.1.va
      else s.modCopy g q.1 fun y => { y with state := 0 }
  | none => none
/-- A counter increment that waits: made, or dropped with an error record (R348). -/
def replyInc (s : State) (b : Block) (num : Nat) (isCopy bad : Bool) : Option State :=
  ((s.core b.id.core).incs.find? fun i => i.bid == b.id.bid && i.num == num && i.isCopy == isCopy).bind fun i =>
    (s.agent i.bid i.who i.arm i.off).map fun p =>
      let s := s.modCore b.id.core fun c => { c with incs := c.incs.erase i }
      if bad then
        s.report (some p.ctx) false (recordBytes (if isCopy then 0x41 else 0x0C) Cause.unresolved.code (2 + p.coach.toNat) i.off s.time.ns
          b.id.seq p.ix b.id.idx 0 (locOf b.id.core) num i.kc.toNat 0 0)
      else s.countDone p num isCopy i.kc i.sc i.det i.fault
def replyCmd (s : State) (b : Block) (num : Nat) (bad : Bool) : Option State :=
  let g := b.id.core
  let c := s.core g
  match (List.range c.mq.length).find? fun i => (c.mq[i]?).elim false fun m => m.bid == b.id.bid && m.num == num && m.kind != 2 && m.state == 2 with
  | some i => (s.cmdAt g i).map fun q =>
      if bad then s.failCmd g { q.1 with state := 1 } q.2 .unresolved else s.modCmd g q.1 fun m => { m with state := 1, since := s.time.ns }
  | none => none
/-- What a reply does; none where nothing matches. -/
def applyReply (s : State) (c : List Byte) : Option State :=
  match (mapVals s.blocks).find? fun b => b.id.ctx == cmdCtxId c && b.id.seq == natAt c 8 6 && b.id.idx == natAt c 16 8 with
  | none => none
  | some b =>
    let bad := natAt c 26 1 == 1
    let num := natAt c 28 4
    match natAt c 25 1 with
    | 0 => s.replySkein b (natAt c 24 1) bad
    | 1 => (s.replyCopy b num bad).or (s.replyInc b num true bad)
    | _ => (s.replyCmd b num bad).or (s.replyInc b num false bad)
/-- A resume of a skein or coach instance, while its context is being saved, sets RESUMED: the wait ends at the restore (R295). -/
def markResumed (s : State) (c : List Byte) : Option State :=
  let mark (w : Option Wait) : Option Wait := w.map fun w => match w with
    | .fault m va _ => .fault m va true
    | w => w
  if natAt c 25 1 ≠ 0 ∨ natAt c 26 1 = 1 then none
  else
    ((mapVals s.blocks).find? fun b => b.id.ctx == cmdCtxId c && b.id.seq == natAt c 8 6 && b.id.idx == natAt c 16 8).map fun b =>
      let ix := natAt c 24 1
      if ix = 16 then s.modCoach b.id.bid fun x => { x with wait := mark x.wait }
      else s.modSk b.id.bid ix fun k => { k with arms := k.arms.map fun a => { a with wait := mark a.wait } }
/-- The replies that awaited a context's restore take effect (R317). -/
def applyReplies (s : State) (c : Nat) : State :=
  let l := (s.ctx? c).elim [] (·.replies)
  l.foldl (fun s r => (s.applyReply r).getD s) (s.modCtx c fun x => { x with replies := [] })

end State

end Sys2Proof.Machine
end

