-- ==== Sys2Proof/Machine/Preempt.lean ====
section
/-! DEFINITION. Saving and restoring contexts, thermal migration and the eviction of resources (01 R45; 03 R91-R95; 10 R256, R257,
R259; 12 R295-R297). -/

namespace Sys2Proof.Machine

/-- Every arm stands where a save may land: between instructions, waiting or held at one. -/
def Skein.quiet (k : Skein) : Bool := k.arms.all fun a => a.wait.isSome || a.hold.isSome || a.issue.isNone

namespace State

/-! ### Writing a core's records (R91) -/

/-- The region of core `g` in a context's save area. -/
def saveRegion (s : State) (c g : Nat) : Nat := (s.ctx? c).elim 0 fun x => x.d.save + 2 ^ 23 * g
def grantFor (s : State) (g : Nat) (f : Grant → Bool) : Nat := (((s.core g).grants.filter f).map (·.amount)).sum
/-- The amount of a skein's parked request, and of its block's evicted registers that no parked request covers. -/
def skeinAmounts (s : State) (g : Nat) (b : Block) (k : Skein) : Nat × Nat :=
  let mine (q : Grant) : Bool := match q.who with
    | .skein n i _ => n == b.id.bid && i == k.idx && q.parked
    | .coach _ => false
  let covered := (s.core g).grants.any fun q => q.bid == b.id.bid && !q.tiles && q.parked
  (s.grantFor g mine, if covered then 0 else k.x.evict.getD 0)
/-- The records of some blocks of a core, as one region. -/
def regionOfBlocks (s : State) (c g : Nat) (bs : List Block) : List Byte :=
  let rec_ (b : Block) : List Byte :=
    let coach := s.grantFor g fun q => q.who == .coach b.id.bid && q.parked
    let out := s.grantFor g fun q => q.bid == b.id.bid && q.tiles && !q.parked
    blockRecord b (s.core g) (s.ctlBit b.id.lid 12) coach out
  let sks (i : Nat) (b : Block) : List (List Byte) := (b.skeins.filter fun k => k.life != .retired).map fun k =>
    let a := s.skeinAmounts g b k
    skeinRecord b k i a.1 a.2
  regionBytes s.time.ns c (bs.map rec_) ((List.range bs.length).flatMap fun i => (bs[i]?).elim [] (sks i))
/-- The records of blocks written to the region of their core; a write that fails makes the context fatal. -/
def writeRegion (s : State) (c g : Nat) (bs : List Block) : State :=
  let r := s.hwWrite (unitOrigin c (pkgOf g)) (s.saveRegion c g) (s.regionOfBlocks c g bs)
  match r.2 with
  | .ok _ => r.1
  | .error e => r.1.fatal c .save e.2

/-! ### Blocks off a core and onto one (R295, R297) -/

def idsOf (bs : List Block) : List Nat := bs.map fun b => b.id.bid
/-- What a core holds for some blocks, and what it keeps. -/
def splitCore (c : Core) (ids : List Nat) : Core × Core :=
  let mine (n : Nat) : Bool := ids.contains n
  ({ Core.init with
      ctx := c.ctx, slots := c.slots, scales := [], mq := c.mq.filter fun m => mine m.bid, copies := c.copies.filter fun y => mine y.bid,
      incs := c.incs.filter fun i => mine i.bid, grants := c.grants.filter fun q => mine q.bid, prefs := c.prefs.filter fun q => mine q.bid },
   { c with
      mq := c.mq.filter fun m => !mine m.bid, copies := c.copies.filter fun y => !mine y.bid, incs := c.incs.filter fun i => !mine i.bid,
      grants := c.grants.filter fun q => !mine q.bid, prefs := c.prefs.filter fun q => !mine q.bid,
      mons := c.mons.filter fun m => !mine (whoBlk m.1) })
/-- Writes in flight to the blocks' registers land: bound prefetches arrive, updates are acknowledged, dirty lines are written. -/
def quiesce (s : State) (g : Nat) (bs : List Block) : State :=
  let ids := idsOf bs
  let s := ((s.core g).prefs.filter fun q => ids.contains q.bid).foldl (fun s q => s.prefArrive g q) s
  (ids.foldl (fun s b => s.settleUpdates b) s).flushCore g
/-- Blocks of core `g` saved: their records are written, and they leave the core. -/
def lift (s : State) (c g : Nat) (ids : List Nat) : State :=
  let s := s.quiesce g ((s.blocksOn g).filter fun b => ids.contains b.id.bid)
  let bs := (s.blocksOn g).filter fun b => ids.contains b.id.bid
  let s := s.writeRegion c g bs
  let q := splitCore (s.core g) ids
  let s := { s with
    cores := mapSet (mapSet s.cores (away c g) q.1) g q.2
    mem := { s.mem with tqwait := s.mem.tqwait.filter fun e => !ids.contains (whoBlk e.2.2) } }
  let s := ids.foldl (fun s b => s.modBlk b fun b => { b with id := { b.id with core := away c g } }) s
  (s.freeCore g).settleLeft g (bs.any fun b => b.id.span == 1)

/-- A block's record read back, with its place in the directory. -/
def readBlocks (s : State) (o : Origin) (base : Nat) (bs : List Block) : List Nat →
    State × Except (Cause × Nat) (List (Block × List Byte))
  | [] => (s, .ok [])
  | at_ :: rest =>
    match s.hwRead o (base + at_) 0x1000 with
    | (s, .error e) => (s, .error (.restore, e.2))
    | (s, .ok h) =>
      match bs.find? fun b => b.id.seq == natAt h 0x228 6 && b.id.idx == natAt h 0 8 with
      | none => (s, .error (.restore, base + at_))
      | some b =>
        let n := natAt h 0x410 8 + 192 * natAt h 0x400 1 + 64 * natAt h 0x401 1
        match s.hwRead o (base + at_) (max 0x1000 n) with
        | (s, .error e) => (s, .error (.restore, e.2))
        | (s, .ok r) => match s.readBlocks o base bs rest with
          | (s, .error e) => (s, .error e)
          | (s, .ok l) => (s, .ok ((b, r) :: l))
/-- The skein records, each joined to the block record it names (R95). -/
def readSkeins (s : State) (o : Origin) (base : Nat) (bs : List (Block × List Byte)) : List Nat →
    State × Except (Cause × Nat) (List (Nat × Nat × List Byte))
  | [] => (s, .ok [])
  | at_ :: rest =>
    match s.hwRead o (base + at_) 0x1000 with
    | (s, .error e) => (s, .error (.restore, e.2))
    | (s, .ok h) =>
      match bs[natAt h 0x5D8 1]? with
      | none => (s, .error (.restore, base + at_))
      | some (b, r) =>
        if natAt h 0 6 ≠ natAt r 0x228 6 ∨ natAt h 0x5D0 8 ≠ natAt r 0 8 then (s, .error (.restore, base + at_))
        else match s.hwRead o (base + at_) (skeinSize (natAt h 0x18 2)) with
          | (s, .error e) => (s, .error (.restore, e.2))
          | (s, .ok k) => match s.readSkeins o base bs rest with
            | (s, .error e) => (s, .error e)
            | (s, .ok l) => (s, .ok ((b.id.bid, natAt h 6 1 % 16, k) :: l))
/-- A request as the records give it. -/
def grantFrom (bs : List (Block × List Byte)) (ks : List (Nat × Nat × List Byte)) (q : Grant) : Grant :=
  let rec_ := ((bs.find? fun x => x.1.id.bid == q.bid).map (·.2)).getD []
  let mine := ks.filter fun x => x.1 == q.bid
  let n := match q.who, q.parked, q.tiles with
    | .coach _, true, _ => bitsOf (natAt rec_ 0x230 8) 31 16
    | .skein _ i _, true, _ => ((mine.find? fun x => x.2.1 == i).map fun x => bitsOf (natAt x.2.2 8 8) 31 16).getD q.amount
    | _, false, true => natAt rec_ 0x238 1
    | _, false, false => (mine.map fun x => natAt x.2.2 0x5DC 4).sum
  { q with amount := n }
/-- Entries of one block among those of a core, rebuilt in order from its record. -/
def overlay {α : Type} (mine : α → Bool) (f : Nat → α → α) : Nat → List α → List α
  | _, [] => []
  | i, x :: l => if mine x then f i x :: overlay mine f (i + 1) l else x :: overlay mine f i l
/-- A rebuilt block stands on its new core; its skeins take slots as at placement (R31), and their joins are evaluated (R68). -/
def standOn (s : State) (g : Nat) (b : Block) : State :=
  let part := firstPart (s.room g).slots
  let start := (s.launch? b.id.lid).elim 0 (·.start)
  let seat (k : Skein) : Skein :=
    let k := k.onProgram fun k => (k.settleJoins fun j => !j.groups.isEmpty).1
    { k with x := { k.x with part := (part + k.idx) % 4 } }
  s.modBlk b.id.bid fun _ =>
    { b with id := { b.id with core := g }, skeins := b.skeins.map seat, placed := s.time.ns, held := b.held && decide (s.time.ns < start) }
/-- The blocks saved from core `g0` restored onto core `g`. -/
def land (s : State) (c g0 g : Nat) : State :=
  let from_ := away c g0
  let kept := s.blocksOn from_
  let base := s.saveRegion c g0
  let o := unitOrigin c (pkgOf g)
  let refuse (s : State) (e : Cause × Nat) : State := s.fatal c e.1 e.2
  match (s.refreshMaps c).hwRead o base 0x1000 with
  | (s, .error e) => refuse s (.restore, e.2)
  | (s, .ok h) =>
    if natAt h 0 4 ≠ 1 ∨ natAt h 4 1 ≠ 7 ∨ natAt h 5 1 ≠ kept.length then refuse s (.restore, base)
    else match s.readBlocks o base kept ((List.range (natAt h 5 1)).map fun i => natAt h (0x100 + 8 * i) 8) with
    | (s, .error e) => refuse s e
    | (s, .ok bs) =>
    match s.readSkeins o base bs ((List.range (natAt h 6 1)).map fun i => natAt h (0x400 + 4 * i) 4) with
    | (s, .error e) => refuse s e
    | (s, .ok ks) =>
      let old := s.core from_
      let mq := bs.foldl (fun l x => overlay (fun (m : MCmd) => m.bid == x.1.id.bid) (fun i m =>
        mcmdFrom (slice x.2 (natAt x.2 0x410 8 + 192 * i) 192) m) 0 l) old.mq
      let cp := bs.foldl (fun l x => overlay (fun (y : Copy) => y.bid == x.1.id.bid) (fun i y =>
        copyFrom (slice x.2 (natAt x.2 0x410 8 + 192 * natAt x.2 0x400 1 + 64 * i) 64) y) 0 l) old.copies
      let slots := (bs.head?).elim old.slots fun x => slotsFrom x.2
      let s := s.modCore g fun x =>
        { x with ctx := some c, slots := slots, mq := x.mq ++ mq, copies := x.copies ++ cp, incs := x.incs ++ old.incs,
                 grants := x.grants ++ old.grants.map (grantFrom bs ks), prefs := x.prefs ++ old.prefs, gate := 0, idle := s.time.clk }
      let s := { s with cores := mapErase s.cores from_ }
      let s := bs.foldl (fun s x =>
        let b := blockFrom x.2 (s.ctlBit x.1.id.lid 12) x.1
        let sk (k : Skein) : Skein := ((ks.find? fun y => y.1 == b.id.bid && y.2.1 == k.idx).map fun y => skeinFrom y.2.2 k).getD k
        s.standOn g { b with skeins := b.skeins.map sk }) s
      (((s.dropClean g).dropRemote (dieOf g) c).settleGrants g).wake

/-! ### Saving and restoring a context (R256, R257) -/

/-- The cores on which a context has blocks. -/
def coresWith (s : State) (c : Nat) : List Nat :=
  ((mapVals s.blocks).filter fun b => b.id.ctx == c && placedBlk b).foldl (fun l b => listInsertNat l b.id.core) []
def mayBeSaved (_s : State) (b : Block) : Bool := b.skeins.all Skein.quiet

end State

/-- The cores of a context to be saved are saved once every issuer stands between two instructions or waits at one. -/
def execContextSave (ctx : Nat) (s : State) : Out :=
  .next (match s.ctx? ctx with
    | none => s
    | some x =>
      if x.saved ≠ 1 ∨ x.dead ∨ x.fatal.isSome ∨ !((mapVals s.blocks).all fun b => b.id.ctx != ctx || s.mayBeSaved b) then s
      else
        let gs := s.coresWith ctx
        let s := gs.foldl (fun s g => s.lift ctx g (State.idsOf (s.blocksOn g))) s
        s.modCtx ctx fun x => { x with saved := 2, since := s.time.ns, cores := gs })

namespace State

/-- A core that nothing holds, nor a `.span 1` block beside it claims (R34). -/
def coreFree (s : State) (g : Nat) : Bool := (s.blocksOn g).isEmpty && (s.core g).ctx.isNone && (s.core g).reset.isNone && !s.claimed g
def allCores (s : State) : List Nat := s.packages.flatMap fun p => (s.diesOf p).flatMap coresOf
/-- The restore of some cores: each onto a free core, a pair that holds a span onto a pair; none where too few are free. -/
def targets (s : State) (c : Nat) (gs : List Nat) : List Nat → List Nat → Option (List (Nat × Nat))
  | [], _ => some []
  | g :: rest, taken =>
    let spans (h : Nat) : Bool := (s.blocksOn (away c h)).any fun b => b.id.span != 0
    let pair := spans (g / 2 * 2) || spans (g / 2 * 2 + 1)
    let free (t : Nat) : Bool := s.coreFree t && !taken.contains t
    if pair && g % 2 == 1 && gs.contains (g - 1) then s.targets c gs rest taken
    else if pair then
      (s.allCores.find? fun t => t % 2 == 0 && free t && free (t + 1)).bind fun t =>
        (s.targets c gs rest (t :: (t + 1) :: taken)).map fun l =>
          ((if g % 2 = 1 then [(g, t + 1)] else if gs.contains (g + 1) then [(g, t), (g + 1, t + 1)] else [(g, t)]) ++ l)
    else
      (s.allCores.find? free).bind fun t => (s.targets c gs rest (t :: taken)).map fun l => (g, t) :: l
/-- A context of higher priority has an unstarted block. -/
def outranked (s : State) (c : Nat) : Bool :=
  (mapVals s.launches).any fun l =>
    l.ctx != c && !l.done && !l.shares.isEmpty && !s.isFatal l.ctx && decide (s.priorityOf c < s.priorityOf l.ctx)

end State

/-- A saved context is restored whole. -/
def execContextRestore (ctx : Nat) (s : State) : Out :=
  .next (match s.ctx? ctx with
    | none => s
    | some x =>
      if x.saved ≠ 2 ∨ x.dead ∨ x.fatal.isSome ∨ s.outranked ctx then s
      else match s.targets ctx x.cores x.cores [] with
        | none => s
        | some l =>
          let s := l.foldl (fun s q => if s.isFatal ctx then s else s.land ctx q.1 q.2) s
          let s := s.modCtx ctx fun x => { x with saved := 0, since := s.time.ns, cores := [] }
          if s.isFatal ctx then s else s.applyReplies ctx)

/-! ### Thermal migration (R259) -/

namespace State

/-- What a block holds now. -/
def needOf (b : Block) : Need3 :=
  { ctx := b.id.ctx, skeins := (b.skeins.filter fun k => k.life != .retired).length, regs := (b.skeins.map heldRegs).sum,
    tiles := b.ntiles - b.evicted, bytes := b.ps.size, coach := b.coach.elim false fun c => !c.ended }
/-- A block that may be shed from a core: resident at least 2 ms. -/
def canShed (s : State) (b : Block) : Bool := decide (b.placed + 2000000 ≤ s.time.ns) && !s.isFatal b.id.ctx
    && (s.ctx? b.id.ctx).elim false fun x => x.saved == 0
/-- The block's unit on its cores: a `.span 2` span moves as a pair. -/
def unitOf (s : State) (b : Block) : List Block :=
  match b.id.partner.bind s.blk? with
  | some q => if b.id.span = 2 then [b, q] else if b.id.span = 3 then [q, b] else [b]
  | none => [b]
/-- Blocks of a unit fit on core `g` and the ones after it; its algebra slots must be those the unit's core holds. -/
def hasRoom (s : State) (u : List Block) (g : Nat) : Bool :=
  (List.range u.length).all (fun i => match u[i]? with
    | none => true
    | some b => (s.core (g + i)).reset.isNone && ((s.room (g + i)).take (needOf b)).isSome
        && ((s.blocksOn (g + i)).isEmpty || (s.core (g + i)).slots == (s.core b.id.core).slots))
    && ((u.all fun b => b.id.span == 0) || g % 2 == 0)
    && (!(u.any fun b => b.id.span == 1) || ((s.room (g + 1)).tiles == Config.tilesPerCore
          && ((s.core (g + 1)).ctx.elim true fun c => (u.head?).elim false fun b => b.id.ctx == c)))
/-- The coolest core of some that has room, the lowest-numbered of equals. -/
def coolest (s : State) (u : List Block) (gs : List Nat) : Option Nat :=
  leastBy (fun g => (s.core g).temp) (gs.filter fun g => !(u.any fun b => b.id.core == g) && s.hasRoom u g)

end State

/-- A core at the shed threshold that its firmware set: its longest-resident block moves to the coolest core of its package,
otherwise of its tray; a block with an instruction in progress is waited for. -/
def execThermalMigration (core temp : Nat) (s : State) : Out :=
  let s := s.modCore core fun c => { c with temp := temp }
  .next (if temp < Config.shedAt (State.pkgOf core) || (s.blocksOn core).any fun b => (s.launch? b.id.lid).elim false (·.exempt) then s
    else match leastBy (fun (b : Block) => b.placed) ((s.blocksOn core).filter fun b => (s.unitOf b).all s.canShed) with
      | none => s
      | some b =>
        let u := s.unitOf b
        if !u.all s.mayBeSaved then s else
        let here := s.allCores.filter fun g => State.pkgOf g == State.pkgOf core
        let near := s.allCores.filter fun g => State.trayOf g == State.trayOf core
        match (s.coolest u here).or (s.coolest u near) with
        | none => s
        | some t =>
          let c := b.id.ctx
          let js := List.range u.length
          let s := js.foldl (fun s i => (u[i]?).elim s fun b => s.lift c b.id.core [b.id.bid]) s
          js.foldl (fun s i => (u[i]?).elim s fun b => if s.isFatal c then s else s.land c b.id.core (t + i)) s)

/-! ### Resource eviction (R45) -/

namespace State

def blockRank (b : Block) : Nat := b.id.seq * 2 ^ 64 + b.id.idx
def holds (b : Block) (tiles : Bool) : Nat := if tiles then b.ntiles - b.evicted else (b.skeins.map heldRegs).sum
/-- The block whose holding of a kind is evicted for the lowest-ranked request. -/
def evictee (s : State) (g : Nat) (tiles : Bool) : Option Block :=
  match s.lowestGrant g tiles with
  | none => none
  | some q =>
    if q.amount ≤ s.freeOf g tiles then none
    else
      let floor := (s.blk? q.bid).elim 0 blockRank
      let l := (s.blocksOn g).filter fun b =>
        decide (floor < blockRank b) && holds b tiles != 0 && (s.core g).grants.any fun r => r.bid == b.id.bid
      l.foldl (fun best b => match best with
        | none => some b
        | some h => if blockRank h < blockRank b then some b else best) none
/-- The evicted amount joins the block's lowest-ranked request of the kind, or makes one. -/
def askBack (s : State) (g : Nat) (b : Block) (tiles : Bool) (n : Nat) : State :=
  match leastBy s.rankOf ((s.core g).grants.filter fun q => q.tiles == tiles && q.bid == b.id.bid) with
  | some q => s.modCore g fun c => { c with grants := c.grants.map fun r => if r = q then { r with amount := r.amount + n, back := r.back + n } else r }
  | none =>
    let first := ((b.skeins.find? fun k => heldRegs k != 0).map (·.idx)).getD 0
    let q : Grant := { who := if tiles then .coach b.id.bid else .skein b.id.bid first 0, bid := b.id.bid, sk := if tiles then 16 else first,
                       tiles := tiles, amount := n, parked := false, back := n }
    s.modCore g fun c => { c with grants := c.grants ++ [q] }

/-- A command runs on a block's tiles: one of its own, or a span command of its leader. -/
def tilesBusy (s : State) (h : Block) : Bool :=
  (s.core h.id.core).mq.any (fun m => m.bid == h.id.bid && m.state == 1)
    || (h.id.partner.bind s.blk?).elim false fun b => (s.core b.id.core).mq.any fun m => m.bid == b.id.bid && m.span && m.state == 1

end State

/-- One eviction of the grant procedure: it waits for commands running on the block's tiles, and for its skeins to stand still. -/
def execResourceEviction (core : Nat) (tiles : Bool) (s : State) : Out :=
  .next (match s.evictee core tiles with
    | none => s.settleGrants core
    | some h =>
      if (tiles && s.tilesBusy h) || (!tiles && !s.mayBeSaved h) then s
      else
        let n := State.holds h tiles
        let c := h.id.ctx
        let out (k : Skein) : Skein :=
          if heldRegs k = 0 then k
          else { k with life := if k.life = .live then .saved else k.life, x := { k.x with evict := some k.win.allot } }
        let s := s.quiesce core [h]
        let s := s.askBack core h tiles n
        let s := s.modBlk h.id.bid fun b => if tiles then { b with evicted := b.ntiles } else { b with skeins := b.skeins.map out }
        let s := (s.blk? h.id.bid).elim s fun b => s.writeRegion c core [b]
        if s.isFatal c then s else s.settleGrants core)

end Sys2Proof.Machine
end

