-- ==== Sys2Proof/Machine/HostCmd.lean ====
section
/-! DEFINITION. Relay registers and relay commands of a host die (06 R169; 12 R303; 13 R313-R317, R320, R324). -/

namespace Sys2Proof.Machine

/-! ### Commands (R317) -/

def cmdOk : Nat := 0
def cmdFormat : Nat := 1
def cmdCtx : Nat := 2
def cmdAbsent : Nat := 3
def cmdFull : Nat := 4
def cmdNotFound : Nat := 5
def cmdBusy : Nat := 6

/-- The bytes of CMD that an operation's arguments occupy. -/
def argBytes (op : Nat) : List Nat :=
  let r (a n : Nat) : List Nat := (List.range n).map (· + a)
  match op with
  | 1 => r 8 16
  | 2 => r 8 19 ++ r 28 4
  | 3 | 4 => r 8 8
  | 5 => r 8 13 ++ r 24 26 ++ r 56 8
  | 6 => r 8 2
  | 7 | 8 => r 8 1 ++ r 16 16
  | 9 => r 8 1 ++ r 16 9
  | _ => []
def mult64K (n : Nat) : Bool := n % 65536 == 0
/-- A command with a reserved field that is not zero, or a value its operation does not allow. -/
def cmdBad (c : List Byte) : Bool :=
  let op := natAt c 0 1
  let n (a k : Nat) : Nat := natAt c a k
  n 2 2 / 4096 != 0
    || ((List.range 64).any fun i => !(decide (i = 0) || decide (i = 2) || decide (i = 3) || (argBytes op).contains i) && n i 1 != 0)
    || match op with
      | 1 => !mult64K (n 8 8) || !mult64K (n 16 8)
      | 2 => decide (16 < n 24 1) || decide (2 < n 25 1) || decide (1 < n 26 1) || n 14 2 != 0
      | 5 => decide (3 < n 8 1) || decide (15 < n 9 1) || n 12 2 / 2 ^ 13 != 0 || n 20 1 / 4 != 0 || n 30 2 != 0 || n 40 4 / 2 ^ 20 != 0
          || n 44 4 / 2 ^ 20 != 0 || n 44 4 % 32 != 0 || n 48 2 % 32 != 0 || decide (n 48 2 < 96) || decide (16384 < n 48 2) || n 40 4 % 32 != 0
      | 6 => decide (3 < n 8 1) || decide (15 < n 9 1)
      | 7 | 8 => decide (63 < n 8 1) || !mult64K (n 16 8) || !mult64K (n 24 8)
      | 9 => decide (15 < n 8 1) || n 16 8 % 2 ^ 40 != 0 || n 24 1 / 2 != 0
      | _ => false

namespace State

/-- The command a host die executes is done, with a status. -/
def cmdDone (s : State) (pkg st : Nat) : State := s.modHost pkg fun h => { h with go := none, done := true, status := st }
def ctxLive (s : State) (c : Nat) : Bool := (s.ctx? c).elim false fun x => !x.dead && x.fatal.isNone
/-- A command of a class executed, by a host die that has not failed and is not cut off (R318): its format, the unit's presence, its context, then its effect; without a status it stays in
progress. -/
def command (s : State) (pkg : Nat) (op : Nat → Bool) (f : State → List Byte → State × Option Nat) : State :=
  match (s.host pkg).go with
  | none => s
  | some c =>
    let n := natAt c 0 1
    if !op n || s.relay.failed.contains pkg || s.relay.cutOff.contains pkg then s
    else if n = 0 ∨ 9 < n ∨ cmdBad c then s.cmdDone pkg cmdFormat
    else if (n = 5 ∨ n = 6) ∧ !bit1 s.feat 0 then s.cmdDone pkg cmdAbsent
    else if !s.ctxLive (cmdCtxId c) then s.cmdDone pkg cmdCtx
    else
      let r := f s c
      match r.2 with
      | some st => r.1.cmdDone pkg st
      | none => r.1.modHost pkg fun h => { h with go := none }

/-! ### Shootdowns and pinned pages (R169) -/

def overlaps (a n b k : Nat) : Bool := decide (a < b + k) && decide (b < a + n)
/-- The page of a VA: base, size and leaf. -/
def pageOf (s : State) (c va : Nat) : Option (Nat × Nat × W64) :=
  match s.walk c va with
  | .ok (size, e) => some (va / size * size, size, e)
  | .error _ => none
/-- The channels that home a granule of a page. -/
def pageChans (s : State) (c base size : Nat) : List Nat :=
  if placed base then
    (List.range (size / 65536)).foldl (fun l i => listInsertNat l (s.homeOf c (base + 65536 * i) size).1) []
  else [(s.homeOf c base size).1]
def pairOf (c : Nat) : Nat := if c % 2 = 0 then c + 1 else c - 1
/-- A channel that homes a pinned page neither lends nor borrows: a lending in force or in its handshake ends (R176). -/
def endLending (s : State) (ch : Nat) : State :=
  [ch, pairOf ch].foldl (fun s c => (s.modChan c fun x => { x with lend := if x.lend = 1 then 2 else x.lend }).reclaim c) s
/-- A page's leaf is loaded into the pinned store of each of its channels. -/
def pinPage (s : State) (c base size : Nat) (e : W64) : State :=
  let l : Leaf := { ctx := c, va := base, size := size, entry := e, pinned := true }
  (s.pageChans c base size).foldl (fun s ch => (s.endLending ch).modChan ch fun x =>
    { x with leaves := l :: x.leaves.filter fun y => !(y.ctx == c && y.va == base && y.size == size) }) s
/-- A page can be pinned: none of its channels holds 256 pinned leaves beside it. -/
def pinRoom (s : State) (c base size : Nat) : Bool :=
  (s.pageChans c base size).all fun ch =>
    decide (((s.chan ch).leaves.filter fun l => l.pinned && !(l.ctx == c && l.va == base && l.size == size)).length < 256)
/-- The pages of a context pinned in a range. -/
def pinnedIn (s : State) (q : Shoot) : List (Nat × Nat) :=
  s.chans.foldl (fun acc e => e.2.leaves.foldl (fun acc l =>
    if l.pinned && l.ctx == q.ctx && overlaps q.va q.len l.va l.size && !acc.contains (l.va, l.size) then acc ++ [(l.va, l.size)] else acc) acc) []
/-- A dirty line goes home through the translation under which it was read (R169). -/
def shootBack (s : State) (g c : Nat) (l : CLine) : State :=
  match l.old with
  | none => s.writeBack g c l
  | some (ch, loc, e, k) =>
    let s := s.passSwitch { ctx := c, core := none, pkg := pkgOf g, bid := none, ix := 255, off := 0 } l.va
    if (s.core g).l1.contains l then s.landAt g c l (.ok { chan := ch, loc := loc, entry := e, key := k }) else s
/-- A shootdown: the dirty lines of the range go home through their old translations, then translations and lines are
dropped; a page that was pinned and whose new leaf asks for it is pinned anew. -/
def shootdown (s : State) (q : Shoot) : State :=
  let inRange (l : CLine) : Bool := (l.tag == none || l.tag == some q.ctx) && overlaps q.va q.len l.va 128
  let s := s.cores.foldl (fun s e => (e.2.l1.filter fun l => inRange l && l.dirty != 0).foldl (fun s l =>
    if l.tag == some q.ctx || e.2.ctx == some q.ctx then s.shootBack e.1 q.ctx l else s.shootBack e.1 (e.2.ctx.getD q.ctx) l) s) s
  let pins := s.pinnedIn q
  let old := s.allLeaves.filter fun e => e.2.ctx == q.ctx && overlaps q.va q.len e.2.va e.2.size
  let s := s.dropLeaves fun l => l.ctx == q.ctx && overlaps q.va q.len l.va l.size
  let stays (l : Nat) : Bool := !old.any fun o => s.granIn o.1 o.2 (l / 512)
  let s : State := { s with
    cores := s.cores.map fun e => (e.1, { e.2 with l1 := e.2.l1.filter fun l => !inRange l })
    dies := s.dies.map fun e =>
      (e.1, { e.2 with rdc := e.2.rdc.filter (fun l => !inRange l), l2 := e.2.l2.filter stays, early := e.2.early.filter stays })
    mem := { s.mem with readers := s.mem.readers.filter fun e => stays e.1 }
    trays := s.trays.map fun e => (e.1, { e.2 with slices := e.2.slices.filter fun l => !inRange l }) }
  pins.foldl (fun s p => match s.pageOf q.ctx p.1 with
    | some (b, n, e) => if leafPin e && s.pinRoom q.ctx b n then s.pinPage q.ctx b n e else s
    | none => s) (if old.any fun e => leafClass e.2.entry == 1 then s.reclaimLines else s)

end State

/-- `SHOOTDOWN` begins: from now to its end an access may use the old or the new translation. -/
def execShootdown (pkg : Nat) (s : State) : Out :=
  .next (s.command pkg (· == 1) fun s c =>
    ({ s with shoots := s.shoots ++ [{ pkg := pkg, ctx := State.cmdCtxId c, va := natAt c 8 8, len := natAt c 16 8 }] }, none))
def execShootdownDone (pkg : Nat) (s : State) : Out :=
  .next (match s.shoots.find? fun q => q.pkg == pkg with
    | none => s
    | some q => (({ s with shoots := s.shoots.erase q }).shootdown q).cmdDone pkg cmdOk)
/-- A page without a valid leaf that has PIN set cannot be pinned (log 27). -/
def execPin (pkg : Nat) (s : State) : Out :=
  .next (s.command pkg (· == 3) fun s c =>
    let x := State.cmdCtxId c
    match s.pageOf x (natAt c 8 8) with
    | none => (s, some cmdFormat)
    | some (b, n, e) =>
      if !leafPin e then (s, some cmdFormat)
      else if s.pinRoom x b n then (s.pinPage x b n e, some cmdOk) else (s, some cmdFull))
def execUnpin (pkg : Nat) (s : State) : Out :=
  .next (s.command pkg (· == 4) fun s c =>
    let va := natAt c 8 8
    let out (l : Leaf) : Bool := l.pinned && l.ctx == State.cmdCtxId c && decide (l.va ≤ va) && decide (va < l.va + l.size)
    let free (x : Chan) : Chan :=
      { x with leaves := x.leaves.filter fun l => !out l
               past := x.past ++ (x.leaves.filter out).map fun l => { l with pinned := false } }
    ({ s with chans := s.chans.map fun e => (e.1, free e.2) }, some cmdOk))

/-- A reply to work of a saved context takes effect at its restore; one that comes while the context is being saved sets RESUMED (R295). -/
def execFaultReply (pkg : Nat) (s : State) : Out :=
  .next (s.command pkg (· == 2) fun s c =>
    match s.applyReply c with
    | none => (s, some cmdNotFound)
    | some t =>
      match (s.ctx? (State.cmdCtxId c)).elim 0 (·.saved) with
      | 2 => (s.modCtx (State.cmdCtxId c) fun x => { x with replies := x.replies ++ [c] }, some cmdOk)
      | 1 => ((s.markResumed c).getD t, some cmdOk)
      | _ => (t, some cmdOk))

/-! ### Ingress bindings, reduction windows, apertures (R313, R314, R320) -/

/-- The binding a command describes, as far as its fields go. -/
def bindingOf (c : List Byte) (lid : Nat) : Binding :=
  { port := natAt c 8 1, index := natAt c 9 1, etype := natAt c 10 2, vlan := natAt c 12 2, dmac := slice c 14 6, flags := natAt c 20 1,
    lid := lid, seq := natAt c 24 6, ctx := State.cmdCtxId c, blk := natAt c 32 8, rcb := natAt c 40 4, slots := natAt c 44 4,
    slotb := natAt c 48 2, tq := natAt c 56 8, count := 0 }
def execIngressBind (pkg : Nat) (s : State) : Out :=
  .next (s.command pkg (· == 5) fun s c =>
    let x := State.cmdCtxId c
    match (mapVals s.launches).find? fun l => l.ctx == x && l.seq == natAt c 24 6 && !l.done && l.resident with
    | none => (s, some cmdFormat)
    | some l =>
      let b := bindingOf c l.lid
      if l.total ≤ b.blk ∨ l.scratch < b.rcb + 32 ∨ l.scratch < b.slots + b.slotb then (s, some cmdFormat)
      else if (s.host pkg).binds.any fun y => y.port == b.port && y.index == b.index then (s, some cmdBusy)
      else (s.modHost pkg fun h => { h with binds := h.binds ++ [b] }, some cmdOk))
def execIngressUnbind (pkg : Nat) (s : State) : Out :=
  .next (s.command pkg (· == 6) fun s c =>
    (s.modHost pkg fun h => { h with binds := h.binds.filter fun y => !(y.port == natAt c 8 1 && y.index == natAt c 9 1) }, some cmdOk))

namespace State

def trayList : List Nat := List.range (Config.packages / Config.perTray)
/-- The partials of a registered window leave for their homes. -/
def closeWindow (s : State) (t entry : Nat) : State :=
  match mapGet (s.tray t).wins entry with
  | none => s
  | some w =>
    let s := ((s.tray t).parts.filter fun q => q.ctx == w.1 && decide (w.2.1 ≤ q.va) && decide (q.va < w.2.1 + w.2.2)).foldl
      (fun s q => s.forward t q) s
    s.modTray t fun x => { x with wins := mapErase x.wins entry }

end State

def execRwinReg (pkg : Nat) (s : State) : Out :=
  .next (s.command pkg (· == 7) fun s c =>
    let n := natAt c 8 1
    if State.trayList.any fun t => (mapGet (s.tray t).wins n).isSome then (s, some cmdBusy)
    else (State.trayList.foldl (fun s t =>
      s.modTray t fun x => { x with wins := mapSet x.wins n (State.cmdCtxId c, natAt c 16 8, natAt c 24 8) }) s, some cmdOk))
def execRwinDereg (pkg : Nat) (s : State) : Out :=
  .next (s.command pkg (· == 8) fun s c => (State.trayList.foldl (fun s t => s.closeWindow t (natAt c 8 1)) s, some cmdOk))
def execAperture (pkg : Nat) (s : State) : Out :=
  .next (s.command pkg (· == 9) fun s c =>
    let a := natAt c 8 1
    (s.modHost pkg fun h =>
      { h with apert := if bit1 (natAt c 24 1) 0 then mapSet h.apert a (State.cmdCtxId c, natAt c 16 8) else mapErase h.apert a }, some cmdOk))
def execReservedRelayCommand (pkg : Nat) (s : State) : Out :=
  .next (s.command pkg (fun n => n == 0 || decide (9 < n)) fun s _ => (s, some cmdFormat))

/-! ### Registers (R244, R315, R324) -/

namespace State

/-- Registers of the rack relay act on the primary, directly or through the standby. -/
def relayDie (s : State) (pkg : Nat) : Bool := s.relay.primary == some pkg || s.relay.standby == some pkg
/-- A counter register's offset in the counter block: it exists on this part. -/
def counterOk (s : State) (rel : Nat) : Bool :=
  let reg := rel % 4096
  let nd := Config.dies s.variant
  rel % 8 == 0 && (if rel < 0x100000 then decide (rel / 4096 < Config.coresPerDie * nd) && decide (reg < 256)
    else if rel < 0x200000 then decide ((rel - 0x100000) / 4096 < nd) && decide (reg < 512)
    else decide (rel - 0x200000 < 1024))
def relayWrite (s : State) (off val : Nat) : State :=
  let q := s.relay
  match off with
  | 0x000 => { s with relay := { q with base := val % 2 ^ 47 } }
  | 0x010 => { s with relay := { q with en := bit1 val 0 } }
  | 0x028 => { s with relay := { q with rerrq := val % 2 ^ 47 } }
  | _ => s

end State

/-- A write of a register of the relay block or, from 2^32 on, of the counter block; RCQ_TAIL has an event of its own. CMD
takes the eight bytes at any offset (log 86); CMD_GO comes after the writes posted before it (R317). -/
def execRegisterWrite (pkg off val : Nat) (s : State) : Out :=
  .next (
    if !pkgThere pkg then s
    else if 2 ^ 32 ≤ off then
      let rel := off - 2 ^ 32
      if s.counterOk rel then
        let v := if rel % 16 = 0 then val % 2 ^ 22 else val % 2 ^ 64
        { s with events := mapSet s.events (16777216 * pkg + rel) (BitVec.ofNat 64 v) }
      else s
    else if 0x100 ≤ off ∧ off < 0x140 then
      s.modHost pkg fun h => { h with cmd := (h.cmd.take (off - 0x100) ++ leBytes 8 (val % 2 ^ 64) ++ h.cmd.drop (off - 0xF8)).take 64 }
    else if off = 0x140 then
      if bit1 val 0 && (s.host pkg).done then (s.drainPosted pkg).modHost pkg fun h => { h with done := false, go := some h.cmd } else s
    else if s.relayDie pkg then s.relayWrite off val
    else s)

end Sys2Proof.Machine
end

