-- ==== Sys2Proof/Machine/Aperture.lean ====
section
/-! DEFINITION. Accesses of host threads through apertures and Ultra Ethernet packets (08 R193, R196; 11 R283; 13 R314, R319). -/

namespace Sys2Proof.Machine

namespace State

/-- Where a host physical address lies: its aperture's context and the VA. -/
def apertureAt (s : State) (pkg pa : Nat) : Option (Nat × Nat) :=
  let base := 0xF1000000000000
  if pa < base ∨ base + 16 * 2 ^ 40 ≤ pa then none
  else (mapGet (s.host pkg).apert ((pa - base) / 2 ^ 40)).map fun q => (q.1, q.2 + (pa - base) % 2 ^ 40)
def apertureFor (s : State) (pkg pa : Nat) : Option (Nat × Nat) := (s.apertureAt pkg pa).filter fun q => !s.hostCut pkg q.1 q.2
/-- Posted writes of up to a line's bytes each. -/
def postWrites (s : State) (c pkg va n v : Nat) : State × List Nat :=
  (pieces va n).foldl (fun acc q =>
    let r : Req := { rid := acc.1.fresh.rid, ctx := c, kind := 1, va := q.1, n := q.2, data := BitVec.ofNat 64 (v / 256 ^ (q.1 - va) % 256 ^ q.2),
                     op := 0, pkg := pkg, froms := [], naks := 0, state := 0 }
    (acc.1.postReq r, acc.2 ++ [acc.1.fresh.rid])) (s, [])
/-- A host thread's read at the homes: it counts on reader-count lines (R174); one that fails gives an unspecified value. -/
def hostRead (s : State) (c pkg va n : Nat) : State × Nat :=
  let o := unitOrigin c pkg
  let r := (pieces va n).foldl (fun (acc : State × Option (List Byte)) q =>
    match acc.2 with
    | none => acc
    | some l =>
      if noncanon q.1 || !acc.1.mapOk c q.1 then (acc.1, none)
      else
        let r := acc.1.readBelow o q.1 .read 2 true
        match r.2 with
        | .error _ => (r.1, none)
        | .ok x =>
          if x.bad &&& byteRange (q.1 % 128) q.2 ≠ 0 then (r.1, none)
          else (r.1, some (l ++ (List.range q.2).map fun i => BitVec.ofNat 8 (x.data.toNat / 256 ^ (q.1 % 128 + i) % 256)))) (s, some [])
  match r.2 with
  | some l => (r.1, leNat l)
  | none => (r.1.takeFree 1, (Config.freeDouble r.1.fresh.free).toNat % 256 ^ n)
def setRd (s : State) (pkg v : Nat) : State := s.modHost pkg fun h => { h with rd := BitVec.ofNat 64 v }

end State

/-- A load or store of a host-die core, or of the external host, through an aperture. An external store is posted; an external
load comes after the posted stores before it. -/
def execApertureAccess (pkg : Nat) (ext : Bool) (pa : Nat) (sz : Size) (wr : Bool) (val : Nat) (s : State) : Out :=
  .next (match s.apertureFor pkg pa with
    | none => if wr then s else (s.takeFree 1).setRd pkg (Config.freeDouble s.fresh.free).toNat
    | some (c, va) =>
      let n := sz.bytes
      if wr then
        let r := s.postWrites c pkg va n val
        if ext then r.1
        else r.2.foldl (fun s id => ((s.mem.reqs.find? fun q => q.rid == id).elim s s.performWrite).ackReq id) r.1
      else
        let s := if ext then s.drainPosted pkg else s
        let r := s.hostRead c pkg va n
        r.1.setRd pkg r.2)
/-- An AMO acts as `ATOM.rack`; LR and SC raise an access fault on the host core, and the device does nothing. -/
def execApertureAmo (pkg pa : Nat) (op : AtomOp) (val : Nat) (lrsc : Bool) (s : State) : Out :=
  .next (match s.apertureFor pkg pa with
    | none => s
    | some (c, va) =>
      let n := atomBytes op
      if lrsc || va % n != 0 || noncanon va || !s.mapOk c va then s
      else
        let r := s.homeStep (unitOrigin c pkg) va n fun old => atomOf op old val
        match r.2 with
        | .ok old =>
          let t := (r.1.forgetSync c va n).stampStores c (State.lineVa va) (byteRange (va % 128) n)
          (t.noteHostStore c va (leBytes n (atomOf op old val))).setRd pkg old
        | .error _ => (r.1.takeFree 1).setRd pkg (Config.freeDouble r.1.fresh.free).toNat)
/-- A RISC-V fence acts as `FENCE.rack` on aperture accesses: a host core's own are at their homes already, so that nothing is
left to wait for (log 8). -/
def execHostFence (pkg : Nat) (rw : Bool) (s : State) : Out :=
  .next (if rw then { s with mem := { s.mem with reqs := s.mem.reqs.filter fun (q : Req) => !(q.kind == 1 && q.pkg == pkg && q.state == 1) } } else s)
/-- A read of FLUSH returns 0 once the function's earlier writes are acknowledged. -/
def execFlush (pkg : Nat) (s : State) : Out := .next (if !pkgThere pkg then s else (s.drainPosted pkg).setRd pkg 0)

/-! ### Ultra Ethernet transport (R319) -/

/-- A packet's data read or written in a context's global space, translated at the homes; what a read returns goes out with the packet, and
what fails has no effect. -/
def execUetPacket (pkg ctx va : Nat) (data : List Byte) (wr : Bool) (s : State) : Out :=
  .next (
    if !s.ctxLive ctx || decide (4096 < data.length) || s.hostCut pkg ctx va then s
    else if wr then (s.hwWrite (unitOrigin ctx pkg) va data).1
    else
      let r := s.hwRead (unitOrigin ctx pkg) va data.length
      match r.2 with
      | .ok b => (r.1.setRd pkg (leNat (b.take 8))).modHost pkg fun h => { h with uet := b }
      | .error _ => r.1)

end Sys2Proof.Machine
end

