-- ==== Sys2Proof/Machine/CrossLane.lean ====
section
/-! DEFINITION. The cross-lane instructions (04 R115; 18 R417, R418, R425, R433). Within a pass every source lane is read
before a destination is written; lanes not served supply the value they hold, as helpers (01 R29). -/

namespace Sys2Proof.Machine

/-- Source lane of `SHFL` (R425); an index outside 0 to 15 reads the lane's own register. -/
def shflLane (mode l : Nat) (b : W32) : Nat :=
  match mode with
  | 0 => b.toNat % 16
  | 1 => if b.toNat ≤ l then l - b.toNat else l
  | 2 => if l + b.toNat < 16 then l + b.toNat else l
  | _ => l ^^^ (b.toNat % 16)
def execShfl (d : Nat) (k : Bool) (a b : Src) (mode : Nat) (s : State) : Out :=
  s.withPass fun p =>
    s.laneGuarded p [p.laneRole, p.dest k d 1, p.srcReg a 1, p.srcReg b 1, p.fresh a, p.fresh b]
      (s.lane32 p d k (fun l => p.val32 a (shflLane mode l (p.val32 b l))) 0)

/-- A quad instruction: `f` gives the source lane. -/
def quadOp (s : State) (d : Nat) (k : Bool) (a : Src) (pre : Pass → List (Option Trap)) (f : Pass → Nat → Nat) : Out :=
  s.withPass fun p =>
    s.guarded p (pre p) <| s.laneGuarded p [p.laneRole, p.dest k d 1, p.srcReg a 1, p.fresh a]
      (s.lane32 p d k (fun l => p.val32 a (f p l)) 0)
def execQbcast (d : Nat) (k : Bool) (a : Src) (n : Nat) (s : State) : Out :=
  quadOp s d k a (fun _ => []) fun _ l => 4 * quadOf l + n
/-- `QSWAP` with B = 0 is ENCODING (R417). -/
def execQswap (d : Nat) (k : Bool) (a : Src) (n : Nat) (s : State) : Out :=
  quadOp s d k a (fun p => [whenBad (n == 0) (p.ill .encoding)]) fun _ l => l ^^^ n
def execQfill (d : Nat) (k : Bool) (a : Src) (s : State) : Out :=
  quadOp s d k a (fun _ => []) fun p l =>
    ((p.lanes.filter fun x => quadOf x == quadOf l).head?).getD l

/-! ### Over the gathered set, when its last pass has run (R418, R433) -/

/-- Bits of a mask register for every lane of the gathered set. -/
def voteMask (s : State) (md ma : Nat) (f : Lanes → Lanes → Bool) : Out :=
  s.withPass fun p =>
    s.laneGuarded p [p.laneRole]
      (if p.gatherEnds then
        (s.modSk p.bid p.ix fun x => x.setMask md p.gathered (if f (p.sk.mask ma) p.gathered then 0xFFFF else 0)).endPass p
       else s.endPass p)
def execVoteAny (md ma : Nat) (s : State) : Out := voteMask s md ma fun m g => m &&& g != 0
def execVoteAll (md ma : Nat) (s : State) : Out := voteMask s md ma fun m g => m &&& g == g
/-- A uniform register written from the gathered set, unchanged where it is empty. -/
def gatherK (s : State) (kd : Nat) (checks : Pass → List (Option Trap)) (f : Pass → List Nat → W64 × BitVec 7) : Out :=
  s.withPass fun p =>
    s.laneGuarded p (p.laneRole :: checks p)
      (if p.gatherEnds && p.gathered != 0 then
        let r := f p (lanesOf p.gathered)
        ((s.setK p kd r.1).modSk p.bid p.ix fun x => x.orStatus r.2).endPass p
       else s.endPass p)
def execVoteBallot (kd ma : Nat) (s : State) : Out :=
  gatherK s kd (fun _ => []) fun p _ => ((p.sk.mask ma &&& p.gathered).setWidth 64, 0)
/-- `RDX` (R418): the lanes ascending, first to last. -/
def rdxOf (s : State) (kd : Nat) (a : Src) (f : W32 → W32 → W32 × BitVec 7) : Out :=
  gatherK s kd (fun p => [p.srcReg a 1, p.fresh a]) fun p ls =>
    match ls with
    | [] => (0, 0)
    | l :: r =>
      let t := r.foldl (fun acc l => let z := f acc.1 (p.val32 a l); (z.1, acc.2 ||| z.2)) (p.val32 a l, (0 : BitVec 7))
      (t.1.setWidth 64, t.2)
def execRdxAdd (kd : Nat) (a : Src) (s : State) : Out := rdxOf s kd a fun x y => (x + y, 0)
def execRdxMin (kd : Nat) (a : Src) (s : State) : Out := rdxOf s kd a fun x y => (iminOf x y, 0)
def execRdxMax (kd : Nat) (a : Src) (s : State) : Out := rdxOf s kd a fun x y => (imaxOf x y, 0)
def execRdxFadd (kd : Nat) (a : Src) (s : State) : Out := rdxOf s kd a (fadd32 .rne)

end Sys2Proof.Machine
end

