-- ==== Sys2Proof/Machine/MemEvents.lean ====
section
/-! DEFINITION. Events of the memory side: requests and responses, write-backs, scrubbing, refresh, lane lending, combined updates and
spills (06 R167-R171, R175-R177; 11 R279; 13 R313). -/

namespace Sys2Proof.Machine

/-! ### Requests and responses -/

/-- A request in flight reaches its home. Posted writes of one PCIe function perform in order; an update bound for a switch is
combined there (RED_COMBINE) while its window is registered. -/
def execHomeRequest (rid : Nat) (s : State) : Out :=
  .next (match s.mem.reqs.find? fun q => q.rid == rid with
    | none => s
    | some q =>
      if q.state ≠ 0 then s
      else if q.kind = 1 then
        if s.mem.reqs.any fun x => x.kind == 1 && x.pkg == q.pkg && x.state == 0 && decide (x.rid < rid) then s else s.performWrite q
      else if q.kind = 2 && s.inWindow (q.pkg / Config.perTray) q.ctx q.va then s
      else s.performReq q)
namespace State

/-- Copies of a line in the caches are poisoned (R310). -/
def taint (s : State) (c va : Nat) : State :=
  let f (ls : List CLine) : List CLine := modLine ls c va fun l => { l with bad := allBytes }
  { s with
    cores := s.cores.map fun e => (e.1, { e.2 with l1 := f e.2.l1, icache := f e.2.icache })
    dies := s.dies.map fun e => (e.1, { e.2 with rdc := f e.2.rdc })
    trays := s.trays.map fun e => (e.1, { e.2 with slices := f e.2.slices }) }

end State

/-- The response to a performed request returns, and its issuer's fences wait for it no more. With a bad integrity tag the line is
poisoned in the caches that took it and the context becomes fatal (R310). -/
def execMemoryResponse (rid : Nat) (bad : Bool) (s : State) : Out :=
  .next (match s.mem.reqs.find? fun q => q.rid == rid with
    | none => s
    | some q =>
      if q.state ≠ 1 then s
      else
        let s := (s.ackReq rid).wake
        if !bad then s
        else
          ((s.countPkg q.pkg 0x0A q.ctx).taint q.ctx q.va).fatal q.ctx .integrity (State.lineVa q.va))
/-- A core's L1 evicts a line: its dirty bytes go home. -/
def execL1Writeback (core line : Nat) (s : State) : Out :=
  .next (match (s.core core).ctx with
    | none => s
    | some c => s.expel core c line)

/-! ### Memory controllers -/

/-- A granule scrubbed. `err` 0: no error; 1: a correctable one, corrected, written back and counted; 2: an uncorrectable one, the
granule, or the swatch line whose slot it lies in, poisoned (log 28). -/
def execScrub (gran err : Nat) (s : State) : Out :=
  let ch := gran / 2 ^ 26
  .next (if !s.chanThere ch then s
    else
      let s := s.modChan ch fun c => { c with scrub := gran % 2 ^ 26 }
      match err with
      | 0 => s
      | 1 => s.countPkg (chanPkg ch) 0x03 4096
      | _ =>
        let s := (s.countPkg (chanPkg ch) 0x04 4096).setPoison gran true
        let here := s.mem.lines.filter fun y => y.gran == gran / 2048
        match here[gran % 2048 / 4]? with
        | none => s
        | some l => { s with mem := { s.mem with lines := s.mem.lines.map fun y => if y = l then { y with bad := true } else y } })
/-- Refresh: 0 all banks, at initialisation; 1 per bank; 2 a management command; 3 self-refresh while the channel is gated. -/
def execRefresh (chan kind : Nat) (s : State) : Out :=
  .next (if !s.chanThere chan then s
    else match kind with
    | 0 => s.modChan chan fun c => { c with inited := true, selfRef := false }
    | 3 => s.modChan chan fun c => { c with selfRef := true }
    | _ => s.modChan chan fun c => { c with selfRef := false })

namespace State

def homesPinned (s : State) (c : Nat) : Bool := (s.chan c).leaves.any (·.pinned)

end State

/-- A channel without a request for 10 microseconds lends its lanes to its busy partner: the handshake begins. -/
def execLaneLending (chan : Nat) (s : State) : Out :=
  let far := State.pairOf chan
  .next (if s.chanThere chan = true ∧ (s.chan chan).lend = 0 ∧ (s.chan far).lend = 0 ∧ (s.chan chan).last + 6000 ≤ s.time.clk ∧ s.homesPinned chan = false
      ∧ s.homesPinned far = false then
      (s.modChan chan fun c => { c with lend := 1, until_ := s.time.clk + 1200 }).countPkg (chanPkg chan) 0x05 4096
    else s)
/-- A handshake ends: the lanes are lent, or a request that arrived meanwhile reclaims them; or they are reclaimed. -/
def execLendingHandshakeEnd (chan : Nat) (s : State) : Out :=
  .next (match (s.chan chan).lend with
    | 1 =>
      let t := s.modChan chan fun c => { c with lend := 2 }
      if (s.chan chan).until_ ≤ (s.chan chan).last + 1200 then t.reclaim chan else t
    | 3 => s.modChan chan fun c => { c with lend := 0 }
    | _ => s)

/-! ### Updates in tray switches (R313) -/

namespace State

/-- Partials of all trays. -/
def partials (s : State) : List (Nat × Partial) := s.trays.flatMap fun e => e.2.parts.map fun q => (e.1, q)
def forwardIf (s : State) (idx : Nat) (f : Partial → Bool) : State :=
  match s.partials[idx]? with
  | none => s
  | some q => if f q.2 then s.forward q.1 q.2 else s

end State

def execRedCombine (rid : Nat) (s : State) : Out :=
  .next (match s.mem.reqs.find? fun q => q.rid == rid with
    | none => s
    | some q => if q.kind = 2 ∧ q.state = 0 ∧ s.inWindow (q.pkg / Config.perTray) q.ctx q.va then s.combineReq q else s)
def execCombineCount (idx : Nat) (s : State) : Out := .next (s.forwardIf idx fun q => decide (64 ≤ q.count))
def execCombineTimer (idx : Nat) (s : State) : Out := .next (s.forwardIf idx fun q => decide (q.first + 1000 ≤ s.time.ns))
/-- A holding buffer that a seventeenth update reached moves to the spill list, in issuer order (R279). -/
def execHoldingBufferSpill (line : Nat) (s : State) : Out :=
  .next (match s.mem.held.find? fun h => h.line == line && !h.spilled && decide (17 ≤ (s.bufferOf line).length) with
    | none => s
    | some _ => s.spillLine line)

end Sys2Proof.Machine
end

