-- ==== Sys2Proof/Machine/Ingress.lean ====
section
/-! DEFINITION. Raw-frame ingress, and the frames and host stores of a recording replayed (09 R236, R237; 11 R283, R284; 13 R320,
R321). -/

namespace Sys2Proof.Machine

/-! ### Matching a frame (R320) -/

/-- A 16-bit field in transmission order. -/
def wire16 (f : List Byte) (i : Nat) : Nat := natAt f i 1 * 256 + natAt f (i + 1) 1
def tagged (f : List Byte) : Bool := wire16 f 12 == 0x8100 && decide (18 ≤ f.length)
def etherType (f : List Byte) : Nat := if tagged f then wire16 f 16 else wire16 f 12
def vlanId (f : List Byte) : Option Nat := if tagged f then some (wire16 f 14 % 4096) else none
def Binding.takes (b : Binding) (f : List Byte) : Bool :=
  decide (14 ≤ f.length) && (bit1 b.flags 1 || etherType f == b.etype) && (bit1 b.flags 0 || f.take 6 == b.dmac)
    && (bit1 b.vlan 12 || match vlanId f with
      | some v => v == b.vlan % 4096
      | none => b.vlan % 4096 == 0)

/-! ### A ring as an ingress port sees it (R236, R321) -/

structure RingView where
  state : Nat
  n : Nat
  widx : Nat
  full : Nat
  free : Nat
  deriving DecidableEq, Repr

def RingView.slot (r : RingView) : Nat := r.widx % r.n
def RingView.lam (r : RingView) : Nat := r.widx / r.n % 2

namespace State

/-- The control block of a binding's ring; none where it holds poison. -/
def ringView (b : Block) (rcb : Nat) : Option RingView := do
  let ctl ← scratchRead b (rcb + 16) 4
  let widx ← scratchRead b (rcb + 24) 4
  let full ← scratchRead b rcb 8
  let free ← scratchRead b (rcb + 8) 8
  some { state := ctl % 4, n := bitsOf ctl 14 8, widx := widx, full := full, free := free }
/-- A frame written into the ring's next slot: the frame, its header as a `.rack` release, FULL, WIDX. -/
def deposit (s : State) (b : Block) (y : Binding) (r : RingView) (stamp : Nat) (f : List Byte) : State :=
  let at_ := y.slots + r.slot * y.slotb
  let bid := b.id.bid
  let s := s.scratchPut bid (at_ + 16) f
  let s := s.scratchPut bid at_ (leBytes 2 f.length ++ leBytes 1 y.port ++ leBytes 1 1 ++ leBytes 4 y.count ++ leBytes 8 (stamp % 2 ^ 64))
  let bit := 2 ^ r.slot
  let full := if r.lam = 0 then (if bit1 r.full r.slot then r.full else r.full + bit) else (if bit1 r.full r.slot then r.full - bit else r.full)
  let j := r.slot / 8
  let s := (s.scratchSet bid (y.rcb + j) (leBytes 1 (full / 256 ^ j % 256))).scratchPut bid (y.rcb + 24) (leBytes 4 (r.widx + 1))
  let c : W64 := BitVec.ofNat 64 (2 ^ 63 + y.rcb + r.slot / 8)
  (s.agent bid 16 0 0).elim s fun p => (s.setPlaceSync p c (some (r.slot % 8)) { scope := 4, core := b.id.core, carry := none }).wake
/-- What a binding's block and ring hold at this frame: none where the frame is dropped NOTRUN. -/
def ringReady (s : State) (y : Binding) : Option (Block × RingView) :=
  match (mapVals s.blocks).find? fun b => b.id.lid == y.lid && b.id.idx == y.blk && placedBlk b with
  | none => none
  | some b => ((ringView b y.rcb).filter fun r => r.state == 0 && decide (0 < r.n) && decide (r.n ≤ 64)).map fun r => (b, r)
def slotOut (b : Block) (y : Binding) (r : RingView) : Bool := decide (b.ps.size < y.slots + (r.slot + 1) * y.slotb)
/-- A place in the binding's task queue: the descriptor, or none when it is full, or the cause that denies it. -/
def reserve (s : State) (o : Origin) (q : Nat) : State × Except Cause (Option TaskQ) :=
  let r := if q % 64 ≠ 0 then (s, Except.error (TrapCode.misaligned, Cause.queue)) else s.homeRead o q 64 .atomic
  match r.2 with
  | .error f => (r.1, .error (if f.1 = .poison then .poisoned else if f.2 = .noncanon ∨ f.2 = .nohome then .queue else f.2))
  | .ok w => match taskQ w with
    | none => (r.1, .error .queue)
    | some t =>
      if (t.tail + 2 ^ 32 - t.head) % 2 ^ 32 = t.cap then (r.1, .ok none)
      else
        let a := t.slot t.tail
        if noncanon a || !r.1.mapOk o.ctx a then (r.1, .error .queue)
        else
          let h := r.1.request o.ctx a .atomic
          match h.2 with
          | .error f => (h.1, .error f.2)
          | .ok m => if h.1.poisoned (m.addr / 32) then (h.1, .error .poisoned) else (h.1, .ok (some t))
def modBinding (s : State) (pkg : Nat) (y : Binding) (f : Binding → Binding) : State :=
  s.modHost pkg fun h => { h with binds := h.binds.map fun (z : Binding) => if z.port == y.port && z.index == y.index then f z else z }
/-- A frame a binding takes. -/
def ingress (s : State) (pkg : Nat) (y : Binding) (f : List Byte) : State :=
  let drop (s : State) (src : Nat) : State := s.countPkg pkg src y.ctx
  if ((s.launch? y.lid).bind (·.rec_)).elim false (·.replay) then drop s 0x12
  else match s.ringReady y with
  | none => drop s 0x0D
  | some (b, r) =>
    if y.slotb < f.length + 16 then drop s 0x0E
    else if slotOut b y r then drop s 0x0D
    else if bit1 r.free r.slot ≠ (r.lam == 1) then drop s 0x0F
    else
      let o := unitOrigin y.ctx pkg
      let q := s.reserve o y.tq
      match q.2 with
      | .error u =>
        drop (q.1.report (some y.ctx) false
          (recordBytes 0x45 u.code 0 0 s.time.ns y.seq 255 y.blk 0 (256 * pkg) (16 * y.port + y.index) y.tq 0 0)) 0x13
      | .ok none => drop q.1 0x10
      | .ok (some t) =>
        let stamp := s.time.ns
        let entry := 1 + 2 ^ 24 * y.port + 2 ^ 128 * (2 ^ 63 + y.rcb) + 2 ^ 192 * (r.widx + 2 ^ 32 * f.length)
        let item := leBytes 32 (entry + 2 ^ 16 + 2 ^ 32 * t.tail + 2 ^ 64 * (stamp % 2 ^ 64)) ++ padTo ((f.length + 31) / 32 * 32) f
        let s := (q.1.deposit b y r stamp f).modBinding pkg y fun z => { z with count := (z.count + 1) % 2 ^ 32 }
        let s := (s.commit o y.tq t entry stamp).1
        (s.countPkg pkg 0x0C y.ctx).modLaunch y.lid fun l =>
          { l with rec_ := l.rec_.map fun (c : Rec) => if c.replay then c else { c with frames := c.frames ++ [item] } }

/-- The switches drop what a port of a cut-off host die sends to a block or a queue of another package (R318). -/
def ingressCut (s : State) (pkg : Nat) (y : Binding) : Bool :=
  s.relay.cutOff.contains pkg && (s.switchCut pkg y.ctx y.tq || (mapVals s.blocks).any fun b =>
    b.id.lid == y.lid && b.id.idx == y.blk && placedBlk b && pkgOf b.id.core != pkg)

end State

/-- A frame received on a port: counted and dropped with a bad FCS; else the binding of lowest index that matches takes it. A frame
that no binding takes goes to host-die software (R319). -/
def execFrameIngress (pkg port : Nat) (frame : List Byte) (fcs : Bool) (s : State) : Out :=
  .next (
    if !bit1 s.feat 0 || !pkgThere pkg || s.relay.failed.contains pkg then s
    else if !fcs then s.countPkg pkg 0x11 4096
    else match leastBy (fun (b : Binding) => b.index) ((s.host pkg).binds.filter fun b => b.port == port && b.takes frame) with
      | none => s
      | some y => if s.ingressCut pkg y then s else s.ingress pkg y frame)

/-! ### Replay (R284) -/

namespace State

/-- The time of a recorded input in a replay: as far from START as it was recorded. -/
def replayTime (l : Launch) (c : Rec) (t : Nat) : Nat := l.start + t - natAt c.header 24 8
def dropAt {α : Type} (i : Nat) (l : List α) : List α := l.take i ++ l.drop (i + 1)
def modRec (s : State) (lid : Nat) (f : Rec → Rec) : State := s.modLaunch lid fun l => { l with rec_ := l.rec_.map f }

end State

/-- The `idx`-th recorded frame left is written into its slot: that of a binding of its ring control block and port, of several the one that
takes the frame (log 67), no earlier than its time, once its ring can take it. -/
def execReplayFrame (lid idx : Nat) (s : State) : Out :=
  .next (match (s.launch? lid).bind fun l => (l.rec_.filter (·.replay)).bind fun c => c.frames[idx]?.map fun f => (l, c, f) with
    | none => s
    | some (l, c, f) =>
      let rcb := natAt f 16 8 % 2 ^ 20
      let binds := s.hosts.flatMap fun e => e.2.binds.map fun y => (e.1, y)
      let same := binds.filter fun e => e.2.lid == lid && e.2.rcb == rcb && e.2.port == natAt f 3 1
      match (same.find? fun e => e.2.takes (slice f 32 (natAt f 28 2))).or same.head? with
      | none => s
      | some (pkg, y) => match s.ringReady y with
        | none => s
        | some (b, r) =>
          let i := natAt f 24 4
          let r := { r with widx := i }
          if l.done ∨ s.time.ns < State.replayTime l c (natAt f 8 8) ∨ State.slotOut b y r ∨ bit1 r.free r.slot ≠ (r.lam == 1) then s
          else
            let s := (s.deposit b y r (natAt f 8 8) (slice f 32 (natAt f 28 2))).modBinding pkg y fun z => { z with count := (z.count + 1) % 2 ^ 32 }
            s.modRec lid fun c => { c with frames := State.dropAt idx c.frames })
/-- The `idx`-th recorded host store left is performed, no earlier than its time. -/
def execReplayHostStore (lid idx : Nat) (s : State) : Out :=
  .next (match (s.launch? lid).bind fun l => (l.rec_.filter (·.replay)).bind fun c => c.stores[idx]?.map fun w => (l, c, w) with
    | none => s
    | some (l, c, w) =>
      if l.done ∨ s.time.ns < State.replayTime l c w.2.1 then s
      else (s.hwWrite (unitOrigin l.ctx s.primaryPkg) w.1 w.2.2).1.modRec lid fun c => { c with stores := State.dropAt idx c.stores })

end Sys2Proof.Machine
end

