-- ==== Sys2Proof/Machine/Fabric.lean ====
section
/-! DEFINITION. Events of the links, and failures of end-to-end integrity (13 R307-R310). -/

namespace Sys2Proof.Machine

namespace State

/-- A flit that is not the next good one is discarded; the first discard after an accepted flit sends one NAK. -/
def discardFlit (s : State) (link : Nat) : State :=
  let p := s.port link
  if p.nakSent then s else (s.modPort link fun p => { p with nakSent := true }).putOut link [flit 9 0 (lastGood p) []]
/-- A packet whose last flit came: refused where the integrity tag of a burst fails (R310); else accepted unless the package has accepted
its end-to-end identifier, the first eight payload bytes (log 29), before, over whichever port. -/
def takePacket (s : State) (link : Nat) (b : List Byte) : State :=
  let id := natAt b 0 8
  let known := s.ports.any fun e => linkPkg e.1 == linkPkg link && e.2.ids.contains id
  let s := if tagsGood b then s else s.countPkg (linkPkg link) 0x0A 4096
  s.modPort link fun p =>
    let p := { p with inPkt := [] }
    if known || !tagsGood b then p else { p with accepted := p.accepted ++ [b], ids := p.ids ++ [id] }
/-- The next sequenced flit accepted. -/
def acceptFlit (s : State) (link typ : Nat) (payload : List Byte) : State :=
  let s := s.modPort link fun p => { p with rxSeq := (p.rxSeq + 1) % 4096, nakSent := false }
  let p := s.port link
  match typ with
  | 1 => s.modPort link fun p => { p with inPkt := payload }
  | 2 => s.modPort link fun p => { p with inPkt := p.inPkt ++ payload }
  | 3 => s.takePacket link (p.inPkt ++ payload)
  | 4 => s.takePacket link payload
  | _ => (s.modPort link fun p => { p with inPkt := [] }).countPkg (linkPkg link) 0x09 4096

end State

/-- A flit arrives on a port that is up: discarded, or its acknowledgement taken and, if sequenced, its payload. -/
def execFlitReceive (link : Nat) (bytes : List Byte) (s : State) : Out :=
  .next (
    if (s.port link).state ≠ 0 ∨ s.linkThere link = false then s
    else if !flitGood bytes then s.discardFlit link
    else if flitType bytes = 8 ∨ flitType bytes = 10 then s.acknowledge link (flitAck bytes)
    else if flitType bytes = 9 then ((s.acknowledge link (flitAck bytes)).countPkg (State.linkPkg link) 0x08 4096).resend link
    else if flitSeq bytes ≠ (s.port link).rxSeq then s.discardFlit link
    else (s.acceptFlit link (flitType bytes) (bytes.take 64)).acknowledge link (flitAck bytes))
/-- The next sequenced flit is a STOMP: the packet in progress is discarded whole. -/
def execStomp (link : Nat) (s : State) : Out :=
  .next (if (s.port link).state ≠ 0 ∨ s.linkThere link = false then s else s.acceptFlit link 5 [])
def execIdleFlit (link ack : Nat) (s : State) : Out :=
  .next (if (s.port link).state ≠ 0 ∨ s.linkThere link = false then s else s.acknowledge link (ack % 4096))
def execNakFlit (link ack : Nat) (s : State) : Out :=
  .next (if (s.port link).state ≠ 0 ∨ s.linkThere link = false then s
    else ((s.acknowledge link (ack % 4096)).countPkg (State.linkPkg link) 0x08 4096).resend link)
/-- A microsecond without progress while flits are unacknowledged; after 16 resends in a row the port retrains instead. -/
def execRetryTimeout (link : Nat) (s : State) : Out :=
  .next (if s.linkThere link = false ∨ 16 ≤ (s.port link).resends ∨ s.time.ns < (s.port link).since + 1000 then s else s.resend link)
def execRetrain (link : Nat) (s : State) : Out :=
  .next (if s.linkThere link = true ∧ (s.port link).state = 0 ∧ 16 ≤ (s.port link).resends then s.modPort link fun p => { p with state := 1 } else s)
/-- Retraining keeps buffer and numbering; on success the unacknowledged flits are sent again. -/
def execRetrainingEnd (link : Nat) (ok : Bool) (s : State) : Out :=
  .next (if (s.port link).state ≠ 1 ∨ s.linkThere link = false then s
    else if ok then
      State.flushWaiting 512 ((s.modPort link fun p => { p with state := 0, resends := 0, fails := 0 }).resend link) link
    else s.modPort link fun p => { p with fails := p.fails + 1 })
/-- The flits at the head of those that wait which end a packet begun before. -/
def State.packetRest : List (Nat × List Byte) → Nat
  | [] => 0
  | w :: l => if w.1 = 2 then State.packetRest l + 1 else if w.1 = 3 then 1 else 0
/-- The third failed retraining takes the port down: its unacknowledged packets go out again whole on another port to the same switch,
ahead of new traffic there, but after the packet that is going out. -/
def execPortDown (link : Nat) (s : State) : Out :=
  .next (
    let p := s.port link
    if p.state ≠ 1 ∨ p.fails < 3 ∨ s.linkThere link = false then s
    else
      let s := s.modPort link fun p => { p with state := 2, retry := [], waiting := [], begun := [] }
      let again := ((p.begun ++ p.retry).map fun f => (flitType f, f.take 64)) ++ p.waiting
      match ((List.range 4).map fun i => link / 4 * 4 + i).find? fun l => l != link && s.linkThere l && (s.port l).state == 0 with
      | none => s.modPort link fun q => { q with retry := p.retry, waiting := p.waiting, begun := p.begun }
      | some l => State.flushWaiting 512 (s.modPort l fun q =>
          let n := State.packetRest q.waiting
          { q with waiting := q.waiting.take n ++ again ++ q.waiting.drop n }) l)
/-- A flit that arrives at a switch's port `inp` and leaves by its port `out`: the switch forwards a header before it has checked its CRC, and
ends the packet with a STOMP where the CRC then fails; upstream it is a receiver like any other (R309). -/
def switchFlit (inp out : Nat) (bytes : List Byte) (s : State) : State :=
  let expected := flitSeq bytes == (s.port inp).rxSeq
  let typ := flitType bytes
  if (s.port inp).state ≠ 0 ∨ s.linkThere inp = false ∨ s.linkThere out = false then s
  else if expected && (typ == 1 || typ == 4) && !flitGood bytes then
    (((s.sendFlit out 1 (bytes.take 64)).sendFlit out 5 []).discardFlit inp)
  else if !flitGood bytes then s.discardFlit inp
  else if typ = 8 ∨ typ = 10 then s.acknowledge inp (flitAck bytes)
  else if typ = 9 then (s.acknowledge inp (flitAck bytes)).resend inp
  else if !expected then s.discardFlit inp
  else
    ((s.modPort inp fun p => { p with rxSeq := (p.rxSeq + 1) % 4096, nakSent := false }).sendFlit out typ (bytes.take 64)).acknowledge inp
      (flitAck bytes)
/-- The home refuses a burst whose integrity tag fails: its source sends it again, and the third failure is fatal to the context; the
request is never performed. -/
def execEndToEndNak (rid : Nat) (s : State) : Out :=
  .next (match s.mem.reqs.find? fun q => q.rid == rid with
    | none => s
    | some q =>
      if q.state ≠ 0 ∨ s.homePkg q.ctx q.va = q.pkg then s
      else
        let s := s.countPkg (s.homePkg q.ctx q.va) 0x0A q.ctx
        let s := { s with mem := { s.mem with reqs := s.mem.reqs.map fun (x : Req) => if x.rid = rid then { x with naks := x.naks + 1 } else x } }
        if 3 ≤ q.naks + 1 then
          ({ s with mem := { s.mem with reqs := s.mem.reqs.filter fun (x : Req) => x.rid != rid } }).fatal q.ctx .integrity q.va
        else (s.countPkg q.pkg 0x0B q.ctx).sendPacket q.pkg q.va)

end Sys2Proof.Machine
end

