-- ==== Sys2Proof/Machine/Firmware.lean ====
section
/-! DEFINITION. Device time, firmware, key slots, attestation and the forming of a rack device (00 R4; 06 R180; 13 R318, R322, R323,
R326-R328). -/

namespace Sys2Proof.Machine

/-! ### Time (R322, R323) -/

/-- A message on a port of the primary disciplines time: `offset` is how far the grandmaster is ahead, in ns. A correction of less
than 1 ms, or backward, is slewed; another is one step. LOCKED within 20 ns, else LOCKING (log 30). -/
def execPtpMessage (pkg : Nat) (offset : Int) (s : State) : Out :=
  .next (
    if s.relay.primary ≠ some pkg then s
    else
      let s := { s with relay := { s.relay with tstatus := if offset.natAbs ≤ 20 then 2 else 1, toffset := offset } }
      if 1000000 ≤ offset then { s with time := { s.time with ns := s.time.ns + offset.toNat, slew := 0 } }
      else { s with time := { s.time with slew := offset } })
/-- TIME flits go out on a package's ports that are up, once a millisecond, to measure their links (log 8). -/
def execTimeFlit (pkg : Nat) (s : State) : Out :=
  .next (if pkgThere pkg = false ∨ ((s.host pkg).flitAt ≠ 0 ∧ s.time.ns < (s.host pkg).flitAt + 1000000) then s
    else
      (List.range State.portsPerPkg).foldl (fun s i =>
        let link := State.portsPerPkg * pkg + i
        if (s.port link).state ≠ 0 ∨ s.linkThere link = false then s
        else s.putOut link [flit 10 0 (State.lastGood (s.port link)) []]) (s.modHost pkg fun h => { h with flitAt := s.time.ns }))
/-- Without the grandmaster time runs free, in HOLDOVER. -/
def execGrandmasterLoss (s : State) : Out :=
  .next (if s.relay.tstatus = 0 then s
    else { s with relay := { s.relay with tstatus := 3 }, time := { s.time with slew := 0 } })

/-! ### Firmware (R326) -/

/-- An image whose signature over its digest verifies under a key and whose version is not below the fused counter. -/
def imageOk (rollback : Nat) (key : List Byte) (i : Image) : Bool :=
  Config.falconVerify (shake256 i.content 32) key i.sig && decide (rollback ≤ i.version)
/-- Images that each the one before checks, the first one with the key given (log 63). -/
def chainFrom (rollback : Nat) : List Byte → List Image → Bool
  | _, [] => true
  | key, i :: l => imageOk rollback key i && chainFrom rollback (Config.nextKey i.content) l
/-- The chain of a package: the boot ROM checks the first image with a key that has the fused digest. -/
def chainOk (pkg rollback : Nat) (l : List Image) : Bool :=
  l.length == 4 && match l with
    | [] => false
    | i :: _ => shake256 i.pubKey 32 == Config.fusedKeyDigest pkg && chainFrom rollback i.pubKey l
def execFirmwareBoot (pkg : Nat) (images : List Image) (s : State) : Out :=
  .next (if !pkgThere pkg then s
    else
      let s : State := { s with relay := { s.relay with failed := s.relay.failed.filter (· != pkg) } }
      s.modHost pkg fun h =>
        if chainOk pkg h.rollback images then
          { h with booted := true, recovery := false, digests := images.map fun i => shake256 i.content 32, versions := images.map (·.version) }
        else { h with booted := false, recovery := true })

/-! ### The rack device (R4, R318, R326) -/

namespace State

def featOf (s : State) (pkg : Nat) : Nat := Config.feat ((s.host pkg).variant.getD s.variant)
def inRack (s : State) (pkg : Nat) : Bool := (s.host pkg).booted && !(s.host pkg).recovery

end State

/-- The rack relay forms the rack device from its packages once all run the same firmware: one of another variant stops it, and is
reported: the first that differs from package 0 (log 90). The lowest-numbered package becomes the primary, the lowest of another tray the
standby (log 31). -/
def execRackAssembly (s : State) : Out :=
  .next (
    let ps := List.range Config.packages
    if s.relay.formed || !(ps.all s.inRack) then s
    else match ps.find? fun p => s.featOf p != s.featOf 0 with
      | some p => { s with relay := { s.relay with mismatch := some p } }
      | none =>
        if ps.any fun p => (s.host p).digests != (s.host 0).digests || s.relay.failed.contains p then s
        else { s with relay := { s.relay with formed := true, mismatch := none, primary := some 0, standby := some Config.perTray,
                                              cutOff := [], mhead := s.relay.head, beat := s.time.ns } })

/-! ### Key slots (R180, R327) -/

/-- Firmware loads a slot with the contexts that may name it; every package holds the same key in a slot. -/
def execKeyLoad (pkg slot key : Nat) (ctxs : List Nat) (s : State) : Out :=
  .next (
    let other := (List.range Config.packages).any fun p => (mapGet (s.host p).keys slot).elim false fun k => k.key != key
    if !(s.host pkg).booted || decide (2048 ≤ slot) || other then s
    else s.modHost pkg fun h => { h with keys := mapSet h.keys slot { key := key, ctxs := ctxs } })
def execKeySlotClear (pkg slot : Nat) (s : State) : Out :=
  .next (if (s.host pkg).booted then s.modHost pkg fun h => { h with keys := mapErase h.keys slot } else s)

/-! ### Attestation (R328) -/

def execAttestationReport (pkg : Nat) (nonce : List Byte) (ctx : Option Nat) (s : State) : Out :=
  .next (
    let h := s.host pkg
    if !h.booted then s
    else
      let desc := match ctx.bind s.ctx? with
        | some x => shake256 (s.physBytes 0 x.d.desc 0x81000) 32
        | none => leBytes 32 0
      let body := padTo 32 (nonce.take 32) ++ leBytes 8 h.serial ++ leBytes 8 (s.featOf pkg) ++ leBytes 1 Config.gen ++ leBytes 15 0
        ++ (h.digests.map (padTo 32)).flatten ++ (h.versions.map (leBytes 4)).flatten ++ desc ++ leBytes 16 0
      s.modHost pkg fun h => { h with report := body ++ Config.falconSign h.serial body })

end Sys2Proof.Machine
end

