-- ==== Sys2Proof/Machine/Short.lean ====
section
/-! DEFINITION. The 16-bit instructions (04 R98-R100): each stands for the 32-bit instruction of R99. -/

namespace Sys2Proof.Machine

def execIadd16 (d : Nat) (src : Src) (s : State) : Out := lane2 s d false (.v d) src fun x y => x + y
def execIsub16 (d : Nat) (src : Src) (s : State) : Out := lane2 s d false (.v d) src fun x y => x - y
def execAnd16 (d : Nat) (src : Src) (s : State) : Out := lane2 s d false (.v d) src fun x y => x &&& y
def execOr16 (d : Nat) (src : Src) (s : State) : Out := lane2 s d false (.v d) src fun x y => x ||| y
def execXor16 (d : Nat) (src : Src) (s : State) : Out := lane2 s d false (.v d) src fun x y => x ^^^ y
def execShl16 (d : Nat) (src : Src) (s : State) : Out := lane2 s d false (.v d) src fun x y => x <<< shAmount y
def execShr16 (d : Nat) (src : Src) (s : State) : Out := lane2 s d false (.v d) src fun x y => x >>> shAmount y
def execMov16 (d : Nat) (src : Src) (s : State) : Out := lane1 s d false src fun x => x
/-- The 5-bit immediate, sign-extended (R408). -/
def execMovi16 (d imm : Nat) (s : State) : Out := constOf s d false ((BitVec.ofNat 5 imm).signExtend 32)
def execFadd16 (d : Nat) (src : Src) (s : State) : Out := laneF2 s d false (.v d) src (fadd32 .rne)
def execFsub16 (d : Nat) (src : Src) (s : State) : Out := laneF2 s d false (.v d) src (fsub32 .rne)
def execFmul16 (d : Nat) (src : Src) (s : State) : Out := laneF2 s d false (.v d) src (fmul32 .rne)
def execFfma16 (d : Nat) (src : Src) (s : State) : Out := laneF3 s d false (.b 0) src (.v d) ffma32
def execImad16 (d : Nat) (src : Src) (s : State) : Out := lane3 s d false (.b 0) src (.v d) fun x y z => x * y + z
def execSel16 (d : Nat) (src : Src) (s : State) : Out := selOf s d false src (.v d) 1
def execLea16 (d : Nat) (src : Src) (s : State) : Out := leaOf s d false (.v d) src 2
/-- The 16-bit `NOP` (R100). -/
def execNop16 (s : State) : Out := nopOf s

end Sys2Proof.Machine
end

