-- ==== Sys2Proof/Machine/Transcendental.lean ====
section
/-! DEFINITION. `FRCP`, `FRSQ`, `FEXP2`, `FLOG2`, `FSIN` and `FCOS` (05 R149, 17 R380). Each is a fixed function of its input
bits that the spec bounds and does not give: the meaning takes the free function `Config.transcendental` where its value
lies within the bound of the exact result, and the correctly rounded result elsewhere (log 15). Exact results are computed
in fixed point, scaled by 2^320. -/

namespace Sys2Proof.Machine

/-! ### Reference values scaled by 2^320 -/

def piFix : Nat := 0x3243F6A8885A308D313198A2E03707344A4093822299F31D0082EFA98EC4E6C89452821E638D01377
def ln2Fix : Nat := 0xB17217F7D1CF79ABC9E3B39803F2F6AF40F343267298B62D8A0D175B8BAAFA2BE7B876206DEBAC98
def fixOne : Nat := 2 ^ 320
/-- man · 2^exp in fixed point, rounded down. -/
def fixOf (man : Nat) (exp : Int) : Nat := if -320 ≤ exp then man * 2 ^ (exp + 320).toNat else man / 2 ^ (-320 - exp).toNat
/-- Σ tⁿ/n! for 0 ≤ t < 1, term by term. -/
def expSum (t : Nat) : Nat → Nat → Nat → Nat
  | 0, _, _ => 0
  | n + 1, i, term => term + expSum t n (i + 1) (term * t / fixOne / (i + 1))
/-- Alternating series term · (1 − t²/((i+1)(i+2)) + ...). -/
def altSum (t2 : Nat) : Nat → Nat → Nat → Int
  | 0, _, _ => 0
  | n + 1, i, term => (term : Int) - altSum t2 n (i + 2) (term * t2 / fixOne / ((i + 1) * (i + 2)))
/-- Binary digits of log₂ y for y in [1, 2), by repeated squaring. -/
def logDigits : Nat → Nat → Nat → Nat
  | 0, _, acc => acc
  | n + 1, y, acc =>
    let z := y * y / fixOne
    if 2 * fixOne ≤ z then logDigits n (z / 2) (2 * acc + 1) else logDigits n z (2 * acc)

def rcpFix (man : Nat) (exp : Int) : Nat := 2 ^ (320 - exp).toNat / man
def rsqFix (man : Nat) (exp : Int) : Nat := isqrt (2 ^ (640 - exp).toNat / man)
def exp2Fix (neg : Bool) (man : Nat) (exp : Int) : Nat :=
  let x := fixOf man exp
  let whole := x / fixOne
  let part := x % fixOne
  if neg then
    if part = 0 then fixOne / 2 ^ whole
    else expSum ((fixOne - part) * ln2Fix / fixOne) 70 0 fixOne / 2 ^ (whole + 1)
  else expSum (part * ln2Fix / fixOne) 70 0 fixOne * 2 ^ whole
def log2Fix (man : Nat) (exp : Int) : Int :=
  let n := bitLen man
  let y := man * 2 ^ (321 - n)
  ((n : Int) - 1 + exp) * (fixOne : Int) + ((logDigits 120 y 0 * 2 ^ 200 : Nat) : Int)
/-- Sine (`odd = 0`) or cosine of a non-negative value, reduced exactly by quarters of π/2. -/
def trigFix (cosine : Bool) (man : Nat) (exp : Int) : Int :=
  let x := fixOf man exp
  let half := piFix / 2
  let q := x / half
  let r := x % half
  let t2 := r * r / fixOne
  let sinR := altSum t2 60 1 r
  let cosR := altSum t2 60 0 fixOne
  match (if cosine then q + 1 else q) % 4 with
  | 0 => sinR
  | 1 => cosR
  | 2 => -sinR
  | _ => -cosR

/-! ### The bound and the choice -/

/-- One unit in the last place of binary32 at a value scaled by 2^320, scaled alike. -/
def ulpFix (r : Int) : Nat := 2 ^ (max (bitLen r.natAbs) 195 - 24)
/-- Whether a binary32 pattern is finite and within `b` of `r`. -/
def within (w : W32) (r : Int) (b : Nat) : Bool :=
  match fmt32.val w.toNat with
  | .fin n m e => decide ((finInt n (fixOf m e) - r).natAbs + 2 ^ 64 ≤ b)
  | _ => false
/-- The free function's value inside the bound, the rounded reference elsewhere. -/
def chosen (op : Nat) (x : W32) (r : Int) (b : Nat) : W32 :=
  let c := Config.transcendental op x
  if within c r b then c else BitVec.ofNat 32 (fmt32.round .rne false (decide (r < 0)) (2 * r.natAbs + 1) (-321)).1

def nan32 : W32 := BitVec.ofNat 32 fmt32.qnan
def inf32 (n : Bool) : W32 := BitVec.ofNat 32 (fmt32.infBits n)
def zero32 (n : Bool) : W32 := BitVec.ofNat 32 (fmt32.zeroBits n)

/-- `FRCP` (R149). A tiny inexact result sets no UF, which R149 names for `FEXP2` below −149 only (log 110). -/
def frcp32 (x : W32) : W32 × BitVec 7 :=
  match fmt32.val x.toNat with
  | .nan g => (nan32, flagIf g stNV)
  | .inf n => (zero32 n, 0)
  | .fin n m e =>
    if m = 0 then (inf32 n, stDZ)
    else
      let r := rcpFix m e
      if 2 ^ 448 ≤ r + 2 ^ 423 then (inf32 n, stOF) else (chosen 0 x (finInt n r) (ulpFix r), 0)
def frsq32 (x : W32) : W32 × BitVec 7 :=
  match fmt32.val x.toNat with
  | .nan g => (nan32, flagIf g stNV)
  | .inf n => if n then (nan32, stNV) else (zero32 false, 0)
  | .fin n m e =>
    if m = 0 then (inf32 n, stDZ)
    else if n then (nan32, stNV)
    else
      let r : Int := rsqFix m e
      (chosen 1 x r (ulpFix r), 0)
/-- `FEXP2` (R149). From −149 up a tiny inexact result sets no UF (log 110). -/
def fexp232 (x : W32) : W32 × BitVec 7 :=
  match fmt32.val x.toNat with
  | .nan g => (nan32, flagIf g stNV)
  | .inf n => (if n then zero32 false else inf32 false, 0)
  | .fin n m e =>
    let f := fixOf m e
    if !n && decide (128 * fixOne ≤ f) then (inf32 false, stOF)
    else if n && decide (149 * fixOne < f) then (zero32 false, stUF)
    else if f % fixOne = 0 then
      (BitVec.ofNat 32 (fmt32.round .rne false false 1 (finInt n (f / fixOne))).1, 0)
    else
      let r : Int := exp2Fix n m e
      (chosen 2 x r (2 * ulpFix r), 0)
def flog232 (x : W32) : W32 × BitVec 7 :=
  match fmt32.val x.toNat with
  | .nan g => (nan32, flagIf g stNV)
  | .inf n => if n then (nan32, stNV) else (inf32 false, 0)
  | .fin n m e =>
    if m = 0 then (inf32 true, stDZ)
    else if n then (nan32, stNV)
    else if m = 2 ^ (bitLen m - 1) then
      let v : Int := (bitLen m : Int) - 1 + e
      (BitVec.ofNat 32 (fmt32.round .rne false (decide (v < 0)) v.natAbs 0).1, 0)
    else
      let r := log2Fix m e
      let inside := decide (r.natAbs ≤ fixOne)
      (chosen 3 x r (if inside then 2 ^ 298 else 2 * ulpFix r), 0)
def fsin32 (x : W32) : W32 × BitVec 7 :=
  match fmt32.val x.toNat with
  | .nan g => (nan32, flagIf g stNV)
  | .inf _ => (nan32, stNV)
  | .fin n m e =>
    if m = 0 then (x, 0)
    else
      let r := trigFix false m e
      (chosen 4 x (if n then -r else r) (2 ^ 299), 0)
def fcos32 (x : W32) : W32 × BitVec 7 :=
  match fmt32.val x.toNat with
  | .nan g => (nan32, flagIf g stNV)
  | .inf _ => (nan32, stNV)
  | .fin _ m e => if m = 0 then (0x3F800000, 0) else (chosen 5 x (trigFix true m e) (2 ^ 299), 0)

def execFrcp (d : Nat) (k : Bool) (a : Src) (s : State) : Out := laneF1 s d k a frcp32
def execFrsq (d : Nat) (k : Bool) (a : Src) (s : State) : Out := laneF1 s d k a frsq32
def execFexp2 (d : Nat) (k : Bool) (a : Src) (s : State) : Out := laneF1 s d k a fexp232
def execFlog2 (d : Nat) (k : Bool) (a : Src) (s : State) : Out := laneF1 s d k a flog232
def execFsin (d : Nat) (k : Bool) (a : Src) (s : State) : Out := laneF1 s d k a fsin32
def execFcos (d : Nat) (k : Bool) (a : Src) (s : State) : Out := laneF1 s d k a fcos32

end Sys2Proof.Machine
end

