-- ==== Sys2Proof/Machine/TrapEvents.lean ====
section
/-! DEFINITION. Illegal words, traps relayed from coach instances, condition monitors, gating and hang reports (04 R123; 10 R261-R263;
12 R291). -/

namespace Sys2Proof.Machine

/-! ### A word that is no instruction (R100, R123) -/

def illCause : IllCause → Cause
  | .encoding => .encoding
  | .operand => .operand
  | .latchSp => .latchSp
/-- The conditions that come before those of a word: first in the reference entry's order, or ENCODING, ROLE and DIVERGED where the
entry does not place the word's own (R287, R353). -/
def needTrap (s : State) (p : Pass) : Need → Option Trap
  | .any => none
  | .skein => p.laneRole
  | .copy => p.roleOrCoach 1
  | .matrix => p.roleOrCoach 2
  | .coach => p.coachOnly
  | .converged => firstSome [p.laneRole, p.converged]
  | .single => firstSome [p.laneRole, p.oneArm]
  | .handler => whenBad (p.sk.frame.isNone || p.coach) (p.ill .encoding)
  | .aligned slot rs => if !p.coach && p.em == 0 then none else
    firstSome (p.laneRole :: rs.map fun r => p.element r (tableDim (p.table s slot)))
def execUnassignedEncoding (cause : IllCause) (need : Need) (s : State) : Out :=
  s.withPass fun p => s.guarded p [needTrap s p need] (s.raise p (p.ill (illCause cause)))

/-! ### Traps relayed from a coach instance (R291) -/

/-- A coach instance that waits for the handler's `TRET`. -/
def relayedHold : Nat := 2 ^ 33
/-- The trap goes to the lowest skein that has not exited and is not parked on a fault, when it stands at a boundary; in trap mode it is
held there until after the `TRET` (R290, log 88). -/
def execRelayedTrap (bid : Nat) (s : State) : Out :=
  .next (match s.blk? bid with
    | none => s
    | some b => match b.coach.bind fun c => c.held.map fun t => (c, t) with
      | none => s
      | some (c, t) =>
        let alive := b.skeins.filter fun k => k.life == .live || k.life == .saved
        if !State.placedBlk b then s
        else if alive.isEmpty then s.fatal b.id.ctx .unhandled 0
        else match alive.find? fun k => !k.onFault with
          | none => s
          | some k =>
            let sent (s : State) : State := s.modCoach bid fun c => { c with held := none, hold := some relayedHold }
            if k.trapMode then
              (sent s).modSk bid k.idx fun k =>
                { k with x := { k.x with pend := k.x.pend ++ [{ trap := { t with next := false, off := none }, cls := 2, coach := true,
                                                                arm := 0, plane := 0, off := c.off }] } }
            else if !k.atBoundary then s
            else
              let s := sent (s.abandon bid k.idx)
              let lanes := (k.arm 0).path.elim k.live (·.lanes)
              (s.blk? bid).elim s fun b => s.trapSkein b k.idx k t 0 2 0 c.off true (k.mask 0 &&& lanes) lanes)

/-! ### Monitors, gating, hangs (R261-R263) -/

/-- Every monitor of a core fires: its waiter reads its word again. -/
def execMonitorPoll (core : Nat) (s : State) : Out :=
  .next ((s.core core).mons.foldl (fun s m => match m.1 with
    | .skein b i a => s.modArm b i a fun x => { x with seen := s.mem.writes + 1 }
    | .coach b => s.modCoach b fun c => { c with seen := s.mem.writes + 1 }) s)
/-- Core clocks in 200 microseconds and in a millisecond (R11: 600 MHz). -/
def clocks200us : Nat := 120000
def clocksMs : Nat := 600000
/-- When a core's idle clocks began: at its last issue or its last wake. -/
def Core.rest (c : Core) : Nat := max c.idle c.woke
def execClockGate (core : Nat) (s : State) : Out :=
  .next (if s.coreIdle core && (s.core core).gate == 0 && decide ((s.core core).rest + 64 ≤ s.time.clk) then
      s.modCore core fun c => { c with gate := 1 }
    else s)
/-- Cores that run an EXEMPT launch are never power-gated. -/
def execPowerGate (core : Nat) (s : State) : Out :=
  .next (if s.coreIdle core && (s.core core).gate == 1 && !s.coreCtl core 17
        && decide ((s.core core).rest + 64 + clocks200us ≤ s.time.clk) then
      s.modCore core fun c => { c with gate := 2 }
    else s)

namespace State

/-- A parked skein takes HANG at its waiting instruction, after its record is written. -/
def hangSkein (s : State) (b : Block) (k : Skein) : State :=
  let ai := ((List.range k.arms.length).find? fun a => (k.arm a).wait.isSome).getD 0
  let a := k.arm ai
  let w := ((List.range 8).find? fun j => !(k.join j).groups.isEmpty).elim 0 fun j => (k.join j).w
  let off := a.issue.elim (a.path.elim w (·.off)) (·.off)
  let head := a.issue.bind (·.rest.head?)
  let path := a.path.elim 0 (·.lanes) &&& k.live
  let em := head.elim (k.mask 0 &&& path) fun h => h.2 &&& (a.issue.elim 0 (·.exec)) &&& k.live
  let s := s.report (some b.id.ctx) false
    (recordBytes 0x17 0 (4 * head.elim 0 (·.1)) off s.time.ns b.id.seq k.idx b.id.idx em.toNat (locOf b.id.core) k.waitKind 0 0 0)
  let s := s.abandon b.id.bid k.idx
  let t : Trap := { code := .hang, cause := .none, mask := em, masked := false, next := false, addr := 0, aux := 0, off := none, race := none }
  s.trapSkein b k.idx k t (head.elim 0 (·.1)) 0 ai off false em path
/-- The residency timer of a core stands at its context's threshold. -/
def hangDue (s : State) (g : Nat) : Bool :=
  match ((s.core g).ctx).bind s.ctx? with
  | none => false
  | some x =>
    x.d.hangms != 0 && !(s.blocksOn g).isEmpty && s.coreIdle g
      && (s.blocksOn g).any (fun b => b.skeins.any fun k => k.parked && k.waitKind != 6)
      && decide (max (s.core g).idle (s.core g).hangAt + x.d.hangms * clocksMs ≤ s.time.clk)

end State

def execHang (core : Nat) (s : State) : Out :=
  .next (if s.hangDue core then
      let s := s.modCore core fun c => { c with hangAt := s.time.clk }
      (s.blocksOn core).foldl (fun s b =>
        (b.skeins.filter fun k => k.parked).foldl (fun s k => s.hangSkein b k) s) s
    else s)

end Sys2Proof.Machine
end

