-- ==== Sys2Proof/Machine/Uniform.lean ====
section
/-! DEFINITION. The uniform instructions (04 R117; 17 R395, R396, R398): K-class, for skeins and coach instances, under any
execute mask. -/

namespace Sys2Proof.Machine

/-- `KSHF` (R395): left by a signed amount, logically right by its negative, 0 from 64 on. -/
def kshfOf (a b : W64) : W64 :=
  let n := signed 8 (b.toNat % 256)
  if 0 ≤ n then (if n.toNat ≥ 64 then 0 else a <<< n.toNat)
  else (if (-n).toNat ≥ 64 then 0 else a >>> (-n).toNat)
/-- `KMOVI` (R398): H = 0 sign-extends; else one halfword is replaced. -/
def kmoviOf (old : W64) (h imm : Nat) : W64 :=
  let i := BitVec.ofNat 16 imm
  if h = 0 then i.signExtend 64
  else (old &&& ~~~((0xFFFF#64) <<< (16 * h))) ||| ((i.setWidth 64) <<< (16 * h))

def execKadd (kd ka kb : Nat) (s : State) : Out := kOp s kd fun p => p.k ka + p.k kb
def execKsub (kd ka kb : Nat) (s : State) : Out := kOp s kd fun p => p.k ka - p.k kb
def execKmul (kd ka kb : Nat) (s : State) : Out := kOp s kd fun p => p.k ka * p.k kb
def execKshf (kd ka kb : Nat) (s : State) : Out := kOp s kd fun p => kshfOf (p.k ka) (p.k kb)
def execKmov (kd ka : Nat) (s : State) : Out := kOp s kd fun p => p.k ka
def execKlogAnd (kd ka kb : Nat) (s : State) : Out := kOp s kd fun p => p.k ka &&& p.k kb
def execKlogOr (kd ka kb : Nat) (s : State) : Out := kOp s kd fun p => p.k ka ||| p.k kb
def execKlogXor (kd ka kb : Nat) (s : State) : Out := kOp s kd fun p => p.k ka ^^^ p.k kb
def execKlogAndn (kd ka kb : Nat) (s : State) : Out := kOp s kd fun p => p.k ka &&& ~~~p.k kb
def execKcmp (kd ka kb : Nat) (cond : ICond) (s : State) : Out :=
  kOp s kd fun p => if icond cond (p.k ka) (p.k kb) then 1 else 0
def execKmovi (kd h imm : Nat) (s : State) : Out := kOp s kd fun p => kmoviOf (p.k kd) h imm

end Sys2Proof.Machine
end

