-- ==== Sys2Proof/Machine/Dispatch.lean ====
section
/-! DEFINITION. One arm per constructor of `Instr`: each is one direct call of that instruction's meaning. -/

namespace Sys2Proof.Machine

def exec (i : Instr) (s : State) : Host.Outcome State Fault Refusal :=
  match i with
  | .iadd d k a b => Sys2Proof.Machine.execIadd d k a b s
  | .isub d k a b => Sys2Proof.Machine.execIsub d k a b s
  | .imul d k a b => Sys2Proof.Machine.execImul d k a b s
  | .imulh d k a b => Sys2Proof.Machine.execImulh d k a b s
  | .imulhZ d k a b => Sys2Proof.Machine.execImulhZ d k a b s
  | .imin d k a b => Sys2Proof.Machine.execImin d k a b s
  | .iminZ d k a b => Sys2Proof.Machine.execIminZ d k a b s
  | .imax d k a b => Sys2Proof.Machine.execImax d k a b s
  | .imaxZ d k a b => Sys2Proof.Machine.execImaxZ d k a b s
  | .land d k a b => Sys2Proof.Machine.execLand d k a b s
  | .lor d k a b => Sys2Proof.Machine.execLor d k a b s
  | .lxor d k a b => Sys2Proof.Machine.execLxor d k a b s
  | .shl d k a b => Sys2Proof.Machine.execShl d k a b s
  | .shr d k a b => Sys2Proof.Machine.execShr d k a b s
  | .sar d k a b => Sys2Proof.Machine.execSar d k a b s
  | .iaddc d k a b => Sys2Proof.Machine.execIaddc d k a b s
  | .mov d k a => Sys2Proof.Machine.execMov d k a s
  | .lnot d k a => Sys2Proof.Machine.execLnot d k a s
  | .ineg d k a => Sys2Proof.Machine.execIneg d k a s
  | .iabs d k a => Sys2Proof.Machine.execIabs d k a s
  | .clz d k a => Sys2Proof.Machine.execClz d k a s
  | .popc d k a => Sys2Proof.Machine.execPopc d k a s
  | .brev d k a => Sys2Proof.Machine.execBrev d k a s
  | .fabs d k a => Sys2Proof.Machine.execFabs d k a s
  | .fneg d k a => Sys2Proof.Machine.execFneg d k a s
  | .frcp d k a => Sys2Proof.Machine.execFrcp d k a s
  | .frsq d k a => Sys2Proof.Machine.execFrsq d k a s
  | .fsqrt d k a => Sys2Proof.Machine.execFsqrt d k a s
  | .fexp2 d k a => Sys2Proof.Machine.execFexp2 d k a s
  | .flog2 d k a => Sys2Proof.Machine.execFlog2 d k a s
  | .fsin d k a => Sys2Proof.Machine.execFsin d k a s
  | .fcos d k a => Sys2Proof.Machine.execFcos d k a s
  | .fadd d k a b rm => Sys2Proof.Machine.execFadd d k a b rm s
  | .fsub d k a b rm => Sys2Proof.Machine.execFsub d k a b rm s
  | .fmul d k a b rm => Sys2Proof.Machine.execFmul d k a b rm s
  | .dadd d k a b rm => Sys2Proof.Machine.execDadd d k a b rm s
  | .dmul d k a b rm => Sys2Proof.Machine.execDmul d k a b rm s
  | .ffma d k a b c => Sys2Proof.Machine.execFfma d k a b c s
  | .dfma d k a b c => Sys2Proof.Machine.execDfma d k a b c s
  | .hfma2 d k a b c => Sys2Proof.Machine.execHfma2 d k a b c s
  | .imad d k a b c => Sys2Proof.Machine.execImad d k a b c s
  | .bfi d k a b c => Sys2Proof.Machine.execBfi d k a b c s
  | .fmin d k a b => Sys2Proof.Machine.execFmin d k a b s
  | .fmax d k a b => Sys2Proof.Machine.execFmax d k a b s
  | .fclass d k a => Sys2Proof.Machine.execFclass d k a s
  | .hadd2 d k a b => Sys2Proof.Machine.execHadd2 d k a b s
  | .fcmp d a b cond => Sys2Proof.Machine.execFcmp d a b cond s
  | .icmp d a b cond => Sys2Proof.Machine.execIcmp d a b cond s
  | .cvt d k a dt st rm => Sys2Proof.Machine.execCvt d k a dt st rm s
  | .cvtSat d k a dt st rm => Sys2Proof.Machine.execCvtSat d k a dt st rm s
  | .sel d k a b c => Sys2Proof.Machine.execSel d k a b c s
  | .lea d k a b sh => Sys2Proof.Machine.execLea d k a b sh s
  | .bfx d k a b sx => Sys2Proof.Machine.execBfx d k a b sx s
  | .movi d k imm => Sys2Proof.Machine.execMovi d k imm s
  | .movh d k imm => Sys2Proof.Machine.execMovh d k imm s
  | .k2v d k ka => Sys2Proof.Machine.execK2v d k ka s
  | .v2k kd a => Sys2Proof.Machine.execV2k kd a s
  | .pget d k => Sys2Proof.Machine.execPget d k s
  | .pset a => Sys2Proof.Machine.execPset a s
  | .psetImm n => Sys2Proof.Machine.execPsetImm n s
  | .mmovMM md ma => Sys2Proof.Machine.execMmovMM md ma s
  | .mmovMV md a => Sys2Proof.Machine.execMmovMV md a s
  | .mmovVM d k ma => Sys2Proof.Machine.execMmovVM d k ma s
  | .mmovMK md ka => Sys2Proof.Machine.execMmovMK md ka s
  | .mmovKM kd ma => Sys2Proof.Machine.execMmovKM kd ma s
  | .mlogAnd md ma mb => Sys2Proof.Machine.execMlogAnd md ma mb s
  | .mlogOr md ma mb => Sys2Proof.Machine.execMlogOr md ma mb s
  | .mlogXor md ma mb => Sys2Proof.Machine.execMlogXor md ma mb s
  | .mlogAndn md ma mb => Sys2Proof.Machine.execMlogAndn md ma mb s
  | .shfl d k a b mode => Sys2Proof.Machine.execShfl d k a b mode s
  | .voteAny md ma => Sys2Proof.Machine.execVoteAny md ma s
  | .voteAll md ma => Sys2Proof.Machine.execVoteAll md ma s
  | .voteBallot kd ma => Sys2Proof.Machine.execVoteBallot kd ma s
  | .rdxAdd kd a => Sys2Proof.Machine.execRdxAdd kd a s
  | .rdxMin kd a => Sys2Proof.Machine.execRdxMin kd a s
  | .rdxMax kd a => Sys2Proof.Machine.execRdxMax kd a s
  | .rdxFadd kd a => Sys2Proof.Machine.execRdxFadd kd a s
  | .qbcast d k a n => Sys2Proof.Machine.execQbcast d k a n s
  | .qswap d k a n => Sys2Proof.Machine.execQswap d k a n s
  | .qfill d k a => Sys2Proof.Machine.execQfill d k a s
  | .amul d a b slot => Sys2Proof.Machine.execAmul d a b slot s
  | .amad d a b slot => Sys2Proof.Machine.execAmad d a b slot s
  | .aconj d a slot => Sys2Proof.Machine.execAconj d a slot s
  | .anorm d a slot => Sys2Proof.Machine.execAnorm d a slot s
  | .sread reg toK num => Sys2Proof.Machine.execSread reg toK num s
  | .swrite reg fromK num => Sys2Proof.Machine.execSwrite reg fromK num s
  | .kadd kd ka kb => Sys2Proof.Machine.execKadd kd ka kb s
  | .ksub kd ka kb => Sys2Proof.Machine.execKsub kd ka kb s
  | .kmul kd ka kb => Sys2Proof.Machine.execKmul kd ka kb s
  | .kshf kd ka kb => Sys2Proof.Machine.execKshf kd ka kb s
  | .kmov kd ka => Sys2Proof.Machine.execKmov kd ka s
  | .klogAnd kd ka kb => Sys2Proof.Machine.execKlogAnd kd ka kb s
  | .klogOr kd ka kb => Sys2Proof.Machine.execKlogOr kd ka kb s
  | .klogXor kd ka kb => Sys2Proof.Machine.execKlogXor kd ka kb s
  | .klogAndn kd ka kb => Sys2Proof.Machine.execKlogAndn kd ka kb s
  | .kcmp kd ka kb cond => Sys2Proof.Machine.execKcmp kd ka kb cond s
  | .kmovi kd h imm => Sys2Proof.Machine.execKmovi kd h imm s
  | .ld data bk base sz pol off8 => Sys2Proof.Machine.execLd data bk base sz pol off8 s
  | .ldMs data kb vx sz acq nol1 => Sys2Proof.Machine.execLdMs data kb vx sz acq nol1 s
  | .st data bk base sz pol off8 => Sys2Proof.Machine.execSt data bk base sz pol off8 s
  | .stMs data kb vx sz ord => Sys2Proof.Machine.execStMs data kb vx sz ord s
  | .ldsp data partner base sz off8 => Sys2Proof.Machine.execLdsp data partner base sz off8 s
  | .stsp data partner base sz off8 => Sys2Proof.Machine.execStsp data partner base sz off8 s
  | .kld kd kb sz pol off8 => Sys2Proof.Machine.execKld kd kb sz pol off8 s
  | .kst ks kb sz pol off8 => Sys2Proof.Machine.execKst ks kb sz pol off8 s
  | .atom d addr data sc op => Sys2Proof.Machine.execAtom d addr data sc op s
  | .cas d addr data sc f w64 => Sys2Proof.Machine.execCas d addr data sc f w64 s
  | .red det addr data sc op => Sys2Proof.Machine.execRed det addr data sc op s
  | .pref cnt kb vx tier bo bound => Sys2Proof.Machine.execPref cnt kb vx tier bo bound s
  | .wput d a sm => Sys2Proof.Machine.execWput d a sm s
  | .wget d a b => Sys2Proof.Machine.execWget d a b s
  | .wname d a sm => Sys2Proof.Machine.execWname d a sm s
  | .wrefInc a => Sys2Proof.Machine.execWrefInc a s
  | .wrefDec a => Sys2Proof.Machine.execWrefDec a s
  | .wswap d a b sm => Sys2Proof.Machine.execWswap d a b sm s
  | .wcopy a b => Sys2Proof.Machine.execWcopy a b s
  | .waitcmp cond sc ka kb => Sys2Proof.Machine.execWaitcmp cond sc ka kb s
  | .dqpush kv km => Sys2Proof.Machine.execDqpush kv km s
  | .dqpop kd => Sys2Proof.Machine.execDqpop kd s
  | .tqpush kq ke => Sys2Proof.Machine.execTqpush kq ke s
  | .tqpop kd kq => Sys2Proof.Machine.execTqpop kd kq s
  | .srput kr ks sc => Sys2Proof.Machine.execSrput kr ks sc s
  | .srwait kr ks => Sys2Proof.Machine.execSrwait kr ks s
  | .cwait kc kt => Sys2Proof.Machine.execCwait kc kt s
  | .boarr kb => Sys2Proof.Machine.execBoarr kb s
  | .bowait kb => Sys2Proof.Machine.execBowait kb s
  | .dcopy kc ks kx => Sys2Proof.Machine.execDcopy kc ks kx s
  | .accz t kc => Sys2Proof.Machine.execAccz t kc s
  | .accswap t => Sys2Proof.Machine.execAccswap t s
  | .accrd d k t w => Sys2Proof.Machine.execAccrd d k t w s
  | .accwr t w a => Sys2Proof.Machine.execAccwr t w a s
  | .atab slot ka => Sys2Proof.Machine.execAtab slot ka s
  | .atabDefault slot => Sys2Proof.Machine.execAtabDefault slot s
  | .growRegs n => Sys2Proof.Machine.execGrowRegs n s
  | .growTiles n => Sys2Proof.Machine.execGrowTiles n s
  | .shrinkRegs n => Sys2Proof.Machine.execShrinkRegs n s
  | .shrinkTiles n => Sys2Proof.Machine.execShrinkTiles n s
  | .rswitch role => Sys2Proof.Machine.execRswitch role s
  | .mma kab span tile slot fl kc => Sys2Proof.Machine.execMma kab span tile slot fl kc s
  | .nop => Sys2Proof.Machine.execNop s
  | .ret => Sys2Proof.Machine.execRet s
  | .exit => Sys2Proof.Machine.execExit s
  | .isync => Sys2Proof.Machine.execIsync s
  | .fence sc => Sys2Proof.Machine.execFence sc s
  | .ofence => Sys2Proof.Machine.execOfence s
  | .tfence sc => Sys2Proof.Machine.execTfence sc s
  | .icinv sc => Sys2Proof.Machine.execIcinv sc s
  | .bkpt => Sys2Proof.Machine.execBkpt s
  | .tret => Sys2Proof.Machine.execTret s
  | .trap n => Sys2Proof.Machine.execTrap n s
  | .bar n => Sys2Proof.Machine.execBar n s
  | .jmpi ka => Sys2Proof.Machine.execJmpi ka s
  | .jinit jn imm => Sys2Proof.Machine.execJinit jn imm s
  | .jinitMask jn c => Sys2Proof.Machine.execJinitMask jn c s
  | .jarr jn => Sys2Proof.Machine.execJarr jn s
  | .jwait jn => Sys2Proof.Machine.execJwait jn s
  | .bra cm neg disp => Sys2Proof.Machine.execBra cm neg disp s
  | .braRj cm neg disp rdist => Sys2Proof.Machine.execBraRj cm neg disp rdist s
  | .brau kc mode disp => Sys2Proof.Machine.execBrau kc mode disp s
  | .call n8 disp => Sys2Proof.Machine.execCall n8 disp s
  | .yield kct kth cnt disp => Sys2Proof.Machine.execYield kct kth cnt disp s
  | .iadd16 d src => Sys2Proof.Machine.execIadd16 d src s
  | .isub16 d src => Sys2Proof.Machine.execIsub16 d src s
  | .and16 d src => Sys2Proof.Machine.execAnd16 d src s
  | .or16 d src => Sys2Proof.Machine.execOr16 d src s
  | .xor16 d src => Sys2Proof.Machine.execXor16 d src s
  | .shl16 d src => Sys2Proof.Machine.execShl16 d src s
  | .shr16 d src => Sys2Proof.Machine.execShr16 d src s
  | .mov16 d src => Sys2Proof.Machine.execMov16 d src s
  | .movi16 d imm => Sys2Proof.Machine.execMovi16 d imm s
  | .fadd16 d src => Sys2Proof.Machine.execFadd16 d src s
  | .fsub16 d src => Sys2Proof.Machine.execFsub16 d src s
  | .fmul16 d src => Sys2Proof.Machine.execFmul16 d src s
  | .ffma16 d src => Sys2Proof.Machine.execFfma16 d src s
  | .imad16 d src => Sys2Proof.Machine.execImad16 d src s
  | .sel16 d src => Sys2Proof.Machine.execSel16 d src s
  | .lea16 d src => Sys2Proof.Machine.execLea16 d src s
  | .nop16 => Sys2Proof.Machine.execNop16 s
  | .relayedTrap bid => Sys2Proof.Machine.execRelayedTrap bid s
  | .resourceEviction core tiles => Sys2Proof.Machine.execResourceEviction core tiles s
  | .rcqTail val => Sys2Proof.Machine.execRcqTail val s
  | .gridLaunch => Sys2Proof.Machine.execGridLaunch s
  | .residentLaunch => Sys2Proof.Machine.execResidentLaunch s
  | .contextBind => Sys2Proof.Machine.execContextBind s
  | .contextRelease => Sys2Proof.Machine.execContextRelease s
  | .blockPlacement die => Sys2Proof.Machine.execBlockPlacement die s
  | .residentPlacement lid => Sys2Proof.Machine.execResidentPlacement lid s
  | .startTime bid => Sys2Proof.Machine.execStartTime bid s
  | .residencyReport level node lid => Sys2Proof.Machine.execResidencyReport level node lid s
  | .steal level node lid => Sys2Proof.Machine.execSteal level node lid s
  | .priorityPreemption lid => Sys2Proof.Machine.execPriorityPreemption lid s
  | .contextSave ctx => Sys2Proof.Machine.execContextSave ctx s
  | .contextRestore ctx => Sys2Proof.Machine.execContextRestore ctx s
  | .thermalMigration core temp => Sys2Proof.Machine.execThermalMigration core temp s
  | .skeinRetire bid sk => Sys2Proof.Machine.execSkeinRetire bid sk s
  | .gridCompletion lid => Sys2Proof.Machine.execGridCompletion lid s
  | .contextFatal ctx => Sys2Proof.Machine.execContextFatal ctx s
  | .heartbeat => Sys2Proof.Machine.execHeartbeat s
  | .failover => Sys2Proof.Machine.execFailover s
  | .shootdown pkg => Sys2Proof.Machine.execShootdown pkg s
  | .shootdownDone pkg => Sys2Proof.Machine.execShootdownDone pkg s
  | .faultReply pkg => Sys2Proof.Machine.execFaultReply pkg s
  | .pin pkg => Sys2Proof.Machine.execPin pkg s
  | .unpin pkg => Sys2Proof.Machine.execUnpin pkg s
  | .ingressBind pkg => Sys2Proof.Machine.execIngressBind pkg s
  | .ingressUnbind pkg => Sys2Proof.Machine.execIngressUnbind pkg s
  | .rwinReg pkg => Sys2Proof.Machine.execRwinReg pkg s
  | .rwinDereg pkg => Sys2Proof.Machine.execRwinDereg pkg s
  | .aperture pkg => Sys2Proof.Machine.execAperture pkg s
  | .flush pkg => Sys2Proof.Machine.execFlush pkg s
  | .apertureAccess pkg ext pa sz wr val => Sys2Proof.Machine.execApertureAccess pkg ext pa sz wr val s
  | .apertureAmo pkg pa op val lrsc => Sys2Proof.Machine.execApertureAmo pkg pa op val lrsc s
  | .hostFence pkg rw => Sys2Proof.Machine.execHostFence pkg rw s
  | .registerWrite pkg off val => Sys2Proof.Machine.execRegisterWrite pkg off val s
  | .homeRequest rid => Sys2Proof.Machine.execHomeRequest rid s
  | .memoryResponse rid bad => Sys2Proof.Machine.execMemoryResponse rid bad s
  | .faultRecord => Sys2Proof.Machine.execFaultRecord s
  | .l1Writeback core line => Sys2Proof.Machine.execL1Writeback core line s
  | .scrub gran err => Sys2Proof.Machine.execScrub gran err s
  | .refresh chan kind => Sys2Proof.Machine.execRefresh chan kind s
  | .laneLending chan => Sys2Proof.Machine.execLaneLending chan s
  | .redCombine rid => Sys2Proof.Machine.execRedCombine rid s
  | .combineCount idx => Sys2Proof.Machine.execCombineCount idx s
  | .combineTimer idx => Sys2Proof.Machine.execCombineTimer idx s
  | .holdingBufferSpill line => Sys2Proof.Machine.execHoldingBufferSpill line s
  | .flitReceive link bytes => Sys2Proof.Machine.execFlitReceive link bytes s
  | .stomp link => Sys2Proof.Machine.execStomp link s
  | .idleFlit link ack => Sys2Proof.Machine.execIdleFlit link ack s
  | .nakFlit link ack => Sys2Proof.Machine.execNakFlit link ack s
  | .retryTimeout link => Sys2Proof.Machine.execRetryTimeout link s
  | .retrain link => Sys2Proof.Machine.execRetrain link s
  | .portDown link => Sys2Proof.Machine.execPortDown link s
  | .endToEndNak rid => Sys2Proof.Machine.execEndToEndNak rid s
  | .frameIngress pkg port frame fcs => Sys2Proof.Machine.execFrameIngress pkg port frame fcs s
  | .uetPacket pkg ctx va data wr => Sys2Proof.Machine.execUetPacket pkg ctx va data wr s
  | .ptpMessage pkg offset => Sys2Proof.Machine.execPtpMessage pkg offset s
  | .timeFlit pkg => Sys2Proof.Machine.execTimeFlit pkg s
  | .grandmasterLoss => Sys2Proof.Machine.execGrandmasterLoss s
  | .clockGate core => Sys2Proof.Machine.execClockGate core s
  | .powerGate core => Sys2Proof.Machine.execPowerGate core s
  | .hang core => Sys2Proof.Machine.execHang core s
  | .monitorPoll core => Sys2Proof.Machine.execMonitorPoll core s
  | .engineHang core => Sys2Proof.Machine.execEngineHang core s
  | .engineResetEnd core => Sys2Proof.Machine.execEngineResetEnd core s
  | .commandStart core idx => Sys2Proof.Machine.execCommandStart core idx s
  | .commandRetire core idx => Sys2Proof.Machine.execCommandRetire core idx s
  | .commandFault core idx => Sys2Proof.Machine.execCommandFault core idx s
  | .accswapExchange core idx => Sys2Proof.Machine.execAccswapExchange core idx s
  | .copyStart core idx => Sys2Proof.Machine.execCopyStart core idx s
  | .copyRow core idx => Sys2Proof.Machine.execCopyRow core idx s
  | .copyPageFault core idx => Sys2Proof.Machine.execCopyPageFault core idx s
  | .prefetchArrival idx => Sys2Proof.Machine.execPrefetchArrival idx s
  | .replayFrame lid idx => Sys2Proof.Machine.execReplayFrame lid idx s
  | .replayHostStore lid idx => Sys2Proof.Machine.execReplayHostStore lid idx s
  | .rackAssembly => Sys2Proof.Machine.execRackAssembly s
  | .firmwareBoot pkg images => Sys2Proof.Machine.execFirmwareBoot pkg images s
  | .keyLoad pkg slot key ctxs => Sys2Proof.Machine.execKeyLoad pkg slot key ctxs s
  | .attestationReport pkg nonce ctx => Sys2Proof.Machine.execAttestationReport pkg nonce ctx s
  | .unassignedEncoding cause need => Sys2Proof.Machine.execUnassignedEncoding cause need s
  | .reservedPacketType => Sys2Proof.Machine.execReservedPacketType s
  | .reservedRelayCommand pkg => Sys2Proof.Machine.execReservedRelayCommand pkg s
  | .commandFailed core idx => Sys2Proof.Machine.execCommandFailed core idx s
  | .retrainingEnd link ok => Sys2Proof.Machine.execRetrainingEnd link ok s
  | .lendingHandshakeEnd chan => Sys2Proof.Machine.execLendingHandshakeEnd chan s
  | .keySlotClear pkg slot => Sys2Proof.Machine.execKeySlotClear pkg slot s

end Sys2Proof.Machine
end

