-- ==== Sys2Proof/Machine/Issue.lean ====
section
/-! DEFINITION. What stands between an issuer's turn and the meaning of its instruction: readiness, arrival at rejoins, the fetch of
every occupied plane, opening an issue (01 R39, R42, R46-R48; 02 R52-R55, R61, R64; 03 R76; 06 R168; 10 R258, R260; 12 R290). -/

namespace Sys2Proof.Machine

/-- What a word stands for: an instruction, or the event UNASSIGNED_ENCODING with its cause (R100, R123). -/
def readWord (w : Nat) : Decoded := (decodeHalves (tableHalves w)).1
/-- The instructions that every occupied plane must hold alike (R53). -/
def sharedInstr : Instr → Bool
  | .bra _ _ _ | .braRj _ _ _ _ | .brau _ _ _ | .jmpi _ | .call _ _ | .ret | .rswitch _ | .tret | .bar _ | .yield _ _ _ _
  | .jinit _ _ | .jinitMask _ _ | .jwait _ => true
  | _ => false
def sharedWord (w : Nat) : Bool :=
  match readWord w with
  | .ok i => sharedInstr i
  | .illegal _ _ => false
/-- The instructions that execute once for the skein or once per plane, without a datapath pass (R28, R54). -/
def uniformInstr : Instr → Bool
  | .sread _ _ _ | .swrite _ _ _ | .kadd _ _ _ | .ksub _ _ _ | .kmul _ _ _ | .kshf _ _ _ | .kmov _ _ | .klogAnd _ _ _ | .klogOr _ _ _
  | .klogXor _ _ _ | .klogAndn _ _ _ | .kcmp _ _ _ _ | .kmovi _ _ _ | .kld _ _ _ _ _ | .kst _ _ _ _ _ | .waitcmp _ _ _ _ | .dqpush _ _
  | .dqpop _ | .tqpush _ _ | .tqpop _ _ | .srput _ _ _ | .srwait _ _ | .cwait _ _ | .boarr _ | .bowait _ | .dcopy _ _ _ | .accz _ _
  | .accswap _ | .atab _ _ | .atabDefault _ | .growRegs _ | .growTiles _ | .shrinkRegs _ | .shrinkTiles _ | .rswitch _
  | .mma _ _ _ _ _ _ | .nop | .nop16 | .ret | .isync | .fence _ | .ofence | .tfence _ | .icinv _ | .bkpt | .tret | .trap _ | .bar _
  | .jmpi _ | .brau _ _ _ | .call _ _ | .yield _ _ _ _ => true
  | _ => false
/-- The quad operations: inactive lanes of a visited quad are helpers (R29). -/
def quadInstr : Instr → Bool
  | .qbcast _ _ _ _ | .qswap _ _ _ _ | .qfill _ _ _ => true
  | _ => false
def wordLen (w : Nat) : Nat := if w % 2 = 0 then 2 else 4

/-! ### Who may issue (R42, R260) -/

/-- Waits that end when their instruction is executed again; the others are ended by what they wait for. -/
def Wait.looks : Wait → Bool
  | .bar _ | .grow _ _ | .tqpop _ | .fault _ _ _ => false
  | _ => true
/-- A waiting or held issuer has something to do: its instruction is executed again once anything has changed. -/
def mayGoOn (wait : Option Wait) (hold : Option Nat) (seen now : Nat) : Bool :=
  match wait, hold with
  | some w, _ => w.looks && seen != now
  | none, some n => n == 2 ^ 32 && seen != now
  | none, none => true

/-- A held trap that its own arm takes at the instruction it names: a precise one (R293), or a deferred POISON whose instruction has
completed (R301). -/
def Pending.owned (t : Pending) : Bool := t.cls == 0 || t.trap.next

namespace State

/-- The block runs: on a core, past its start, its context alive and resident; in a context to be saved only an instruction in
progress goes on. -/
def blockRuns (s : State) (b : Block) (open_ : Bool) : Bool :=
  placedBlk b && !b.held && (s.launch? b.id.lid).isSome
    && (s.ctx? b.id.ctx).elim false fun x => !x.dead && x.fatal.isNone && (x.saved == 0 || (x.saved == 1 && open_))
/-- A `WAITCMP` that found no condition monitor free waits until one is freed (R261). -/
def monFree (s : State) (g : Nat) (w : Who) (wait : Option Wait) : Bool :=
  wait != some .waitcmp || (s.core g).mons.any (fun m => m.1 == w) || decide ((s.core g).mons.length < 16)
/-- The skein's other arm is inside an instruction that has issued; it goes on first, so that none is half done when a trap is taken
(R289). Of two arms that are, the one that issued last goes on. -/
def siblingFirst (k : Skein) (ai : Nat) : Bool := k.arms.length == 2 && k.inside (1 - ai) && !(k.inside ai && k.x.ranArm == ai)
def ready (s : State) (w : Who) : Bool :=
  match w with
  | .skein bid ix ai =>
    match s.blk? bid with
    | none => false
    | some b => match b.skeins[ix]? with
      | none => false
      | some k => match k.arms[ai]? with
        | none => false
        | some a =>
          k.life == .live && !a.complete && a.path.isSome && !siblingFirst k ai
            && ((mayGoOn a.wait a.hold a.seen s.mem.writes && s.monFree b.id.core w a.wait) || k.mustSwitch ai)
            && s.blockRuns b (a.issue.isSome && a.wait.isNone)
  | .coach bid =>
    match s.blk? bid with
    | none => false
    | some b => match b.coach with
      | none => false
      | some c => !c.ended && c.held.isNone && mayGoOn c.wait c.hold c.seen s.mem.writes && s.monFree b.id.core w c.wait
          && s.blockRuns b false

/-! ### Opening an issue (R52-R55) -/

/-- The planes that hold some lanes, ascending, with their lanes. -/
def occupied (k : Skein) (m : Lanes) : List (Nat × Lanes) :=
  ((List.range 4).map fun q => (q, laneSet fun l => m.getLsbD l && k.plane l == q)).filter fun e => e.2 != 0
/-- The word at an offset in each plane, and the planes whose fetch fails; a plane whose fetch fails a check of R52 has neither. -/
def fetchPlanes (s : State) (d : Code) (g c : Nat) (lb : Option LoopBuf) (o : Nat) :
    List (Nat × Lanes) → State × List (Nat × Nat) × List (FetchFail × Nat × Lanes)
  | [] => (s, [], [])
  | (q, m) :: r =>
    match s.fetchWord d g c lb q o with
    | (s, .error f) =>
      let t := s.fetchPlanes d g c lb o r
      (t.1, t.2.1, (f, q, m) :: t.2.2)
    | (s, .ok w) =>
      let t := s.fetchPlanes d g c lb o r
      (t.1, w.elim t.2.1 (fun w => (q, w) :: t.2.1), t.2.2)
/-- An issue's place in the counts: the launch's first issue, the core's, its gating and its idle time. -/
def countIssue (s : State) (b : Block) : State :=
  ((s.modCore b.id.core fun c => { c with gate := 0, idle := s.time.clk }).countCore b.id.core 0x01 b.id.ctx).modLaunch b.id.lid fun l =>
    { l with first := if l.first = 0 then s.time.ns else l.first }
/-- The issue of the words fetched: the offset-shared ones execute once, for the lanes of all planes; a replay begins at its plane. -/
def newIssue (a : Arm) (k : Skein) (o : Nat) (lanes : Lanes) (sets : List (Nat × Lanes)) (words : List (Nat × Nat)) : Issue :=
  let shared := words.any fun w => sharedWord w.2
  let sets := if shared then ((sets.head?).elim [] fun e => [(e.1, lanes)]) else sets
  let rest := match a.again with
    | none => sets
    | some g =>
      let r := sets.filter fun e =>
        decide (g.plane ≤ e.1) && e.2 &&& g.lanes.getD 0xFFFF != 0 && g.redo.elim true fun l => l.contains e.1
      if r.isEmpty then sets else r
  { off := o, len := (words.head?).elim 4 fun w => wordLen w.2, exec := k.mask 0 &&& lanes, sets := sets, words := words, rest := rest,
    pushed := a.again.bind (·.pushed), fails := a.again.elim [] (·.fails), pset := a.again.elim [] (·.pset),
    replay := a.again.bind (·.lanes), redo := a.again.bind (·.redo) }
/-- The pass at which a fetch acts: a plane's lanes. -/
def fetchPass (b : Block) (ix ai : Nat) (k : Skein) (o : Nat) (lanes : Lanes) (q : Nat × Lanes) : Pass :=
  { bid := b.id.bid, ix := ix, ai := ai, coach := false, blk := b, sk := k, arm := k.arm ai, co := Coach.blank, off := o, len := 4,
    plane := q.1, act := q.2 &&& k.mask 0, path := q.2, em := k.mask 0 &&& lanes, last := true }
/-- A page fault of a fetch parks the path with the plane's lanes as fault mask (R168). -/
def parkFetch (s : State) (p : Pass) (u : Cause) (va : Nat) : State :=
  (s.park p (.fault p.path va false)).reportPass p true 0x08 u.code (4 * p.plane) p.path.toNat 0 va
/-- A fetch that failed for the lanes of a plane: a page fault parks, any other condition is raised (R52, R168). No plane's pass has run,
so that the record names the lowest plane `low`, from which a replay begins (log 100). -/
def fetchFails (s : State) (p : Pass) (low : Nat) (f : FetchFail) : State :=
  if f.1.1 = .pageFault then s.parkFetch p f.1.2 f.2
  else s.raise { p with plane := low } { p.trapAt f.1.1 f.1.2 p.path (BitVec.ofNat 64 f.2) with mask := p.path }
/-- An issue is opened at the running path's offset, or the fetch takes its trap or parks. The word of every occupied plane is fetched
and compared before any plane's pass runs (R53). -/
def openIssue (s : State) (b : Block) (ix ai : Nat) (k : Skein) (p : Path) : State :=
  let a := k.arm ai
  let lanes := p.lanes &&& k.live
  let sets := occupied k lanes
  let low := (sets.head?).getD (0, lanes)
  let pass := fetchPass b ix ai k p.off lanes
  let d := s.codeOf b.id.lid
  if k.wrongBase p then s.raise (pass low) ((pass low).ill .windowPath)
  else if d.len ≤ p.off then s.raise (pass low) { (pass low).trap .planeAlign .none with off := some p.last }
  else
    let r := s.fetchPlanes d b.id.core b.id.ctx a.lb p.off sets
    let s := r.1
    let words := r.2.1
    let shared := words.any fun w => sharedWord w.2
    let alike := words.all fun w => some w.2 == (words.head?).map (·.2)
    if words.length + r.2.2.length ≠ sets.length ∨ (shared && !alike) = true then s.raise (pass low) ((pass low).trap .planeAlign .none)
    else match r.2.2 with
      | f :: _ => s.fetchFails (pass f.2) low.1 f.1
      | [] =>
        let u := newIssue a k p.off lanes sets words
        let alone := k.arms.length ≠ 2 ∨ k.x.ranArm = ai
        let ran (x : Arm) : Arm := { x with issue := some u, again := none, path := x.path.map fun (q : Path) => { q with last := p.off } }
        (s.modSk b.id.bid ix fun k =>
          let k := if alone then k else k.dropLatches
          { k.modArm ai ran with x := { k.x with ranArm := ai } }).countIssue b

/-! ### A skein's turn -/

/-- A running path that stands at its rejoin arrives, and so does the path after it (R61); arms that merge end the turn. -/
def arriveAll : Nat → Skein → Nat → Skein
  | 0, k, _ => k
  | n + 1, k, a =>
    match k.arrive a with
    | none => k
    | some q => if q.arms.length = k.arms.length then arriveAll n q a else q
/-- Waits and holds of an arm whose turn it is are over: its instruction is executed again. -/
def unwait (a : Arm) : Arm := { a with wait := none, hold := none }
/-- An arm whose waiting path gives way to the path of its lowest lane leaves its wait (R47). -/
def giveWay (s : State) (bid ix ai : Nat) : State :=
  match s.blk? bid, s.sk? bid ix with
  | some b, some k =>
    if k.mustSwitch ai then
      (s.abandonArm { b with id := { b.id with bid := bid } } ix k ai).modSk bid ix fun k => (k.leaveWait ai).switchPath ai
    else s
  | _, _ => s
/-- A turn on a core ungates it, and its idle clocks are counted anew (R262). -/
def ungate (s : State) (bid : Nat) : State :=
  match s.blk? bid with
  | none => s
  | some b => s.modCore b.id.core fun c => { c with gate := 0, woke := s.time.clk }
/-- The first held trap that an arm may take (R290, R293): its own, a precise one also before a further plane's pass; one held since trap
mode at an instruction boundary, where no issue is open and no replay to come. -/
def heldFor (k : Skein) (ai : Nat) : Option Pending :=
  let a := k.arm ai
  let own (t : Pending) : Bool := min t.arm (k.arms.length - 1) == ai
  if k.trapMode then none
  else k.x.pend.find? fun t =>
    if t.cls = 0 then own t
    else a.issue.isNone && a.again.isNone && (!t.owned || own t)
/-- A held trap is taken; the record of one held since trap mode names the instruction at the boundary. -/
def takeHeld (s : State) (b : Block) (ix ai : Nat) (k : Skein) (t : Pending) : State :=
  let p : Path := ((k.arm ai).path).getD { off := 0, lanes := 0, base := 0 }
  let off := if t.owned then t.off else p.off
  let plane := if t.owned then t.plane else 0
  let em := ((k.arm ai).issue.elim (k.mask 0 &&& p.lanes) (·.exec)) &&& k.live
  let took (k : Skein) : Skein := { k with x := { k.x with pend := k.x.pend.erase t } }
  (s.modSk b.id.bid ix took).trapSkein b ix (took k) t.trap plane t.cls ai off t.coach em p.lanes
/-- An open issue goes on; results of the other arm since its last pass leave every latch invalid (R64). -/
def goOn (s : State) (bid ix ai : Nat) : State :=
  s.modSk bid ix fun k => if k.arms.length ≠ 2 ∨ k.x.ranArm = ai then k else { k.dropLatches with x := { k.x with ranArm := ai } }
/-- A turn of a skein's arm up to its instruction: a trap held for it is taken, or an open issue goes on; else the path is chosen, one
that stands at its rejoin arrives (R61), and an issue is opened. -/
def prepSkein (s : State) (bid ix ai : Nat) : State :=
  let s := ((s.ungate bid).giveWay bid ix ai).modArm bid ix ai unwait
  match s.blk? bid, s.sk? bid ix with
  | some b, some k =>
    let b : Block := { b with id := { b.id with bid := bid } }
    if (k.arm ai).issue.isSome then
      match heldFor k ai with
      | some t => s.takeHeld b ix ai k t
      | none => s.goOn bid ix ai
    else
      let q := if (k.arm ai).sw && (k.arm ai).again.isNone then k.switchPath ai else k
      let q := arriveAll 70 q ai
      let s := s.modSk bid ix fun _ => q
      if q.arms.length ≠ k.arms.length then s
      else match (q.arm ai).path with
        | none => s
        | some p => match heldFor q ai with
          | some t => s.takeHeld b ix ai q t
          | none => s.openIssue b ix ai q p
  | _, _ => s
/-- A pass's datapath slots, helper slots and the bubble before it (R25, R29, R54), as the core's counters see them (R325). -/
def countPass (s : State) (p : Pass) (d : Decoded) (first : Bool) : State :=
  match d with
  | .illegal _ _ => s
  | .ok i =>
    if s.events.isEmpty || uniformInstr i then s
    else
      let n := popCount p.act.toNat 16
      let quads := ((List.range 4).filter fun q => bitsOf p.act.toNat (4 * q + 3) (4 * q) != 0).length
      let s := s.countCore p.core 0x02 p.ctx n
      let s := if quadInstr i then s.countCore p.core 0x03 p.ctx (4 * quads - n) else s
      if first then s else s.countCore p.core 0x04 p.ctx
/-- The instruction of the pass being served, among the words that the issue read. -/
def headInstr (s : State) (bid ix ai : Nat) : State × Option Decoded :=
  match (s.arm? bid ix ai).bind (·.issue) with
  | none => (s, none)
  | some u => match u.rest with
    | [] => (s, none)
    | q :: _ => match mapGet u.words q.1, ({ s with cur := some (.skein bid ix ai) } : State).pass? with
      | some w, some p =>
        let s : State := { s with cur := some (.skein bid ix ai) }
        (s.countPass p (readWord w) ((u.sets.head?).elim true fun e => e.1 == q.1), some (readWord w))
      | _, _ => (s, none)

/-! ### A coach instance's turn (R39) -/

def prepCoach (s : State) (bid : Nat) : State × Option Decoded :=
  match s.blk? bid with
  | none => (s, none)
  | some b => match b.coach with
    | none => (s, none)
    | some c =>
      let again := c.wait.isSome || c.hold.isSome
      let s := { s.ungate bid with cur := some (.coach bid) }.modCoach bid fun c => { c with wait := none, hold := none }
      match s.pass? with
      | none => (s, none)
      | some p =>
        let d := s.codeOf b.id.lid
        if d.len ≤ c.off then (s.raise p { p.trap .planeAlign .none with off := some c.last }, none)
        else match s.fetchWord d b.id.core b.id.ctx none 0 c.off with
          | (s, .error f) => (s.kFail p f.2 f.1 none, none)
          | (s, .ok none) => (s.raise p (p.trap .planeAlign .none), none)
          | (s, .ok (some w)) =>
            let s := s.modCoach bid fun c => { c with len := wordLen w, last := c.off }
            (if again then s else s.countIssue b, some (readWord w))

/-- The state in which an issuer's instruction executes, and the instruction; none when its turn ends before one. -/
def prepare (s : State) (w : Who) : State × Option Decoded :=
  match w with
  | .skein b i a => (s.prepSkein b i a).headInstr b i a
  | .coach b => s.prepCoach b

/-! ### Time before a turn -/

/-- Idle and clock-gated clocks of the cores whose counters are in use (R325). -/
def countIdle (s : State) (clocks : Nat) : State :=
  let key (a : Nat) : Option Nat := if a % 16 = 0 ∧ a % 16777216 < 0xC0000 then some (a / 16777216 * 192 + a % 16777216 / 0x1000) else none
  let gs := ((mapKeys s.events).filterMap key).foldl (fun l g => if l.contains g then l else l ++ [g]) []
  gs.foldl (fun s g =>
    let c := (s.core g).ctx.getD 4096
    let s := if s.coreIdle g then s.countCore g 0x0C c clocks else s
    if (s.core g).gate = 0 then s else s.countCore g 0x0D c clocks) s
/-- Time passes; a core that is not idle, or that an event has woken, is ungated and counts as busy up to now (R262, R263). -/
def pass (s : State) (clocks : Nat) : State :=
  let s := s.tick clocks
  let s := { s with cores := s.cores.map fun e =>
      (e.1, if e.2.ctx.isSome && !s.coreIdle e.1 then { e.2 with idle := s.time.clk, gate := 0 } else e.2) }
  if s.events.isEmpty then s else s.countIdle clocks

end State

end Sys2Proof.Machine
end

