-- ==== Sys2Proof/Machine/World.lean ====
section
/-! DEFINITION. What happens to the machine that is no row of the opcode table (log 91): errors in protected storage (06 R177; 12 R302),
integrity tags that fail on ordinary accesses and flits at a switch (13 R309, R310), reads of a host die's registers (13 R315, R324), and
the failure of a host die (13 R318). -/

namespace Sys2Proof.Machine

namespace State

/-! ### Errors in protected storage (R177) -/

/-- A correctable error: corrected and counted for its package (R325). -/
def corrected (s : State) (pkg : Nat) : State := s.countPkg pkg 0x03 4096
/-- The granule of an 8-byte word of a line becomes poisoned at its home. -/
def poisonWord (s : State) (line word : Nat) : State :=
  (s.setPoison (4 * line + word % 16 / 4) true).countPkg (chanPkg (line / 2 ^ 24)) 0x04 4096
/-- The line of a channel address that a cached line holds. -/
def homeLineOf (l : CLine) : Option Nat := l.old.map fun o => chanAddr o.1 o.2.1 / 128
/-- An L1 line: a clean one is dropped, to be fetched again; of a dirty one an error is corrected, or the granule poisoned. -/
def l1Error (s : State) (g line word : Nat) (bad : Bool) : State :=
  match (s.core g).l1[line]? with
  | none => s
  | some l =>
    if l.dirty = 0 then s.modCore g fun x => { x with l1 := x.l1.erase l }
    else if !bad then s.corrected (pkgOf g)
    else
      let c := l.tag.getD (((s.core g).ctx).getD 0)
      let lost := byteRange (8 * (word % 16) / 32 * 32) 32
      let s := s.modCore g fun x => { x with l1 := x.l1.erase l }
      let s := if l.dirty &&& ~~~lost = 0 then s else s.sendHome g c { l with dirty := l.dirty &&& ~~~lost }
      ((homeLineOf l).elim s fun n => s.poisonWord n word).wake
/-- A line of the die L2: corrected, or the granule poisoned at its home, which here is the die's own channel. -/
def l2Error (s : State) (line word : Nat) (bad : Bool) : State :=
  let pkg := chanPkg (line / 2 ^ 24)
  if !(s.die (chanDie (line / 2 ^ 24))).l2.contains line then s
  else if bad then (s.poisonWord line word).wake else s.corrected pkg
def sliceError (s : State) (t line word : Nat) (bad : Bool) : State :=
  match (s.tray t).slices[line]? with
  | none => s
  | some l =>
    if !bad then s.corrected (Config.perTray * t)
    else ((homeLineOf l).elim s fun n => s.poisonWord n word).modTray t fun x => { x with slices := x.slices.erase l }
def scratchError (s : State) (bid word : Nat) (bad : Bool) : State :=
  match s.blk? bid with
  | none => s
  | some b =>
    if b.ps.size ≤ 8 * word then s
    else if bad then s.modBlk bid fun b => { b with ps := { b.ps with poison := listInsertNat b.ps.poison word } }
    else s.corrected (pkgOf b.id.core)
def tileError (s : State) (bid tile word : Nat) (vis bad : Bool) : State :=
  match s.blk? bid with
  | none => s
  | some b =>
    if b.ntiles ≤ tile ∨ 16384 ≤ word then s
    else if bad then
      let t := mapGetD b.tiles tile Tile.zero
      let t := if vis then { t with pVis := listInsertNat t.pVis word } else { t with pWork := listInsertNat t.pWork word }
      s.modBlk bid fun b => { b with tiles := mapSet b.tiles tile t }
    else s.corrected (pkgOf b.id.core)
/-- A lane, uniform or latch register: an uncorrectable error is fatal to the context (R302). -/
def registerError (s : State) (bid : Nat) (bad : Bool) : State :=
  match s.blk? bid with
  | none => s
  | some b => if bad then s.fatal b.id.ctx .register 0 else s.corrected (pkgOf b.id.core)

/-! ### Integrity tags of ordinary accesses (R310) -/

/-- A burst of a store, an atomic or a dray write is refused `times` times before its home takes it: its source sends it again, and the third
refusal is fatal. -/
def burstFails (s : State) (pkg c va times : Nat) : State :=
  let n := min times 3
  let home := s.homePkg c va
  if home = pkg ∨ n = 0 then s
  else
    let s := (s.countPkg home 0x0A c n).countPkg pkg 0x0B c (min n 2)
    let s := (List.range (min n 2)).foldl (fun s _ => s.sendPacket pkg va) s
    if n = 3 then s.fatal c .integrity va else s
def responseFails (s : State) (pkg c va : Nat) : State :=
  if s.homePkg c va = pkg then s else ((s.countPkg pkg 0x0A c).taint c va).fatal c .integrity (lineVa va)

/-! ### Registers of a host die (R315, R324) -/

/-- A signed number of 32 bits, saturating. -/
def saturate32 (i : Int) : Nat := (BitVec.ofInt 32 (max (-(2 ^ 31)) (min (2 ^ 31 - 1) i))).toNat
/-- The value of a register of the relay block of a host die. -/
def relayRead (s : State) (pkg off : Nat) : Nat :=
  let q := s.relay
  let h := s.host pkg
  let own (n : Nat) : Nat := if s.relayDie pkg then n else 0
  if 0x100 ≤ off ∧ off < 0x140 then natAt h.cmd (off - 0x100) 8
  else match off with
    | 0x000 => own q.base
    | 0x008 => own (q.tail + 2 ^ 32 * q.head)
    | 0x00C => own q.head
    | 0x010 => own q.en.toNat
    | 0x018 => (q.primary == some pkg).toNat + 2 * (q.standby == some pkg).toNat + 4 * q.standby.isSome.toNat
    | 0x020 => q.tstatus + 2 ^ 32 * saturate32 q.toffset
    | 0x028 => own q.rerrq
    | 0x030 => own q.rerrlost
    | 0x148 => h.status + 2 ^ 8 * h.done.toNat
    | _ => 0
/-- A read of a register of the relay block or, from 2^32 on, of the counter block; FLUSH has an event of its own. -/
def registerRead (s : State) (pkg off : Nat) : State :=
  if !pkgThere pkg then s
  else if 2 ^ 32 ≤ off then
    let rel := off - 2 ^ 32
    s.setRd pkg (if s.counterOk rel then (mapGetD s.events (16777216 * pkg + rel) 0).toNat else 0)
  else s.setRd pkg (s.relayRead pkg off)

/-! ### A host die fails (R318) -/

/-- A host die fails: its relay's heartbeats end. Without a standby, the failure of the primary stops acceptance until the rack device is
formed again. -/
def hostFails (s : State) (pkg : Nat) : State :=
  let q := s.relay
  let t : State := { s with relay := { q with failed := listInsertNat q.failed pkg } }
  let t := t.modHost pkg fun h => { h with booted := false, go := none }
  if !pkgThere pkg then s
  else if q.primary = some pkg ∧ q.standby = none then { t with relay := { t.relay with primary := none, formed := false } }
  else if q.standby = some pkg then { t with relay := { t.relay with standby := none } }
  else t

/-- One of the world's events. -/
def worldly (s : State) (w : World) : State :=
  match w with
  | .l1Error g l i b => s.l1Error g l i b
  | .icacheError g l => s.modCore g fun x => { x with icache := x.icache.eraseIdx l }
  | .rdcError d l => s.modDie d fun x => { x with rdc := x.rdc.eraseIdx l }
  | .l2Error l i b => s.l2Error l i b
  | .sliceError t l i b => s.sliceError t l i b
  | .scratchError n i b => s.scratchError n i b
  | .tileError n t i v b => s.tileError n t i v b
  | .registerError n b => s.registerError n b
  | .burstFails p c a n => s.burstFails p c a n
  | .responseFails p c a => s.responseFails p c a
  | .switchFlit i o b => switchFlit i o b s
  | .registerRead p o => s.registerRead p o
  | .hostFails p => s.hostFails p

end State

end Sys2Proof.Machine
end

