-- ==== Sys2Proof/Machine/Schedule.lean ====
section
/-! DEFINITION. Which turn comes next when the agenda names none, and what a turn does (01 R22, R46, R48; log 1). The spec
lets many turns happen at once and in many orders; the agenda, plain data in the state, names any of them, and where it is empty
one fixed choice is made: events that are due, then the ready issuer of the lowest identifier, then what parked issuers, idle
relays and time itself may do. -/

namespace Sys2Proof.Machine

/-! ### A turn -/

/-- The atomic operations on lanes, whose plane passes stand together (R207). -/
def isAtom : Instr → Bool
  | .atom _ _ _ _ _ | .cas _ _ _ _ _ _ => true
  | _ => false
/-- The passes of one `ATOM` or `CAS`: nothing comes between them (R207), so that they make one turn. `n` bounds the planes. -/
def State.atomPasses : Nat → State → Who → Instr → Out
  | 0, s, _, i => exec i s
  | n + 1, s, w, i =>
    match exec i s, w with
    | .next t, .skein b k a =>
      if (t.arm? b k a).elim false fun x => x.issue.isSome && x.wait.isNone && x.hold.isNone then
        match t.headInstr b k a with
        | (u, some (.ok j)) => if j = i then u.atomPasses n w i else .next t
        | _ => .next t
      else .next t
    | r, _ => r
/-- An issuer's turn: its instruction executes, or for a word of none UNASSIGNED_ENCODING (R100, R123); a turn of an issuer that may
not issue, or that ends before an instruction, has the effect of its preparation alone. -/
def State.issueTurn (s : State) (w : Who) : Out :=
  if s.ready w then
    match s.prepare w with
    | (s, none) => .next s
    | (s, some (.ok i)) => if isAtom i then s.atomPasses 4 w i else exec i s
    | (s, some (.illegal c n)) => execUnassignedEncoding c n s
  else .next s
def State.turn (s : State) (t : Turn) : Out :=
  let s := ({ s with cur := none } : State).pass t.clocks
  match t.move with
  | .event i => exec i s
  | .issue w => s.issueTurn w
  | .world w => .next (s.worldly w)

/-! ### The turns that may come of themselves -/

namespace State

/-- Every skein's arms and the coach instances of the blocks on cores. -/
def issuers (s : State) : List Who :=
  ((mapVals s.blocks).filter placedBlk).flatMap fun b =>
    (if b.coach.isSome then [.coach b.id.bid] else []) ++ (List.range b.skeins.length).flatMap fun i =>
      (List.range ((b.skeins[i]?).elim 0 (·.arms.length))).map fun a => .skein b.id.bid i a
/-- The unit that issues for an issuer: a partition of its core, or the core's coachman (R24, R39). -/
def unitOfWho (s : State) (w : Who) : Nat :=
  match w with
  | .coach b => (s.blk? b).elim 0 fun x => 8 * x.id.core + 4
  | .skein b i _ => (s.blk? b).elim 0 fun x => 8 * x.id.core + (x.skeins[i]?).elim 0 (·.x.part)
/-- An issuer that is parked or held: its turn looks again whether it may go on. -/
def looking (s : State) (w : Who) : Bool :=
  match w with
  | .skein b i a => (s.arm? b i a).elim false fun x => x.wait.isSome || x.hold.isSome
  | .coach b => ((s.blk? b).bind (·.coach)).elim false fun c => c.wait.isSome || c.hold.isSome
def seenBy (s : State) (w : Who) : Nat :=
  match w with
  | .skein b i a => (s.arm? b i a).elim 0 (·.seen)
  | .coach b => ((s.blk? b).bind (·.coach)).elim 0 (·.seen)
/-- Of a unit's ready issuers: the one of the lowest identifier. One that waits is ready when something has changed since it looked last;
after a turn that looked at a wait an issuer that does not wait goes first, and of those that wait the one that has not looked for
longest: so looking never keeps the lowest runnable lane from its next instruction (R46). -/
def pickOf (s : State) (u : Nat) (ws : List Who) : Option Who :=
  let run := leastBy s.identOf (ws.filter fun w => !s.looking w)
  let look := leastBy s.seenBy (ws.filter s.looking)
  match run, leastBy s.identOf ws with
  | some w, some v => if s.looking v && !s.fresh.looked.contains u then look else some w
  | _, _ => look
/-- The next issuer: the units take turns, and each issues from its ready issuer of the lowest identifier (R46, R48, R260). -/
def nextIssuer (s : State) : Option Who :=
  let ws := s.issuers.filter s.ready
  let later := ws.filter fun w => decide (s.fresh.unit < s.unitOfWho w)
  match leastBy s.unitOfWho (if later.isEmpty then ws else later) with
  | none => none
  | some v => s.pickOf (s.unitOfWho v) (ws.filter fun w => s.unitOfWho w == s.unitOfWho v)
/-- The turn of an issuer that the machine chooses: the unit has gone, and looked or not. -/
def chosen (s : State) (w : Who) : State :=
  let u := s.unitOfWho w
  let rest := s.fresh.looked.filter (· != u)
  { s with fresh := { s.fresh with unit := u, looked := if s.looking w then u :: rest else rest } }

def ids (s : State) : List Nat := mapKeys s.ctxs
def liveLids (s : State) : List Nat := (mapVals s.launches).filterMap fun l => if l.done then none else some l.lid
def bids (s : State) : List Nat := mapKeys s.blocks
def coreIds (s : State) : List Nat := mapKeys s.cores
/-- Positions of a list of each core. -/
def onCores (s : State) {α : Type} (f : Core → List α) (g : Nat → Nat → State → Out) : List (State → Out) :=
  s.cores.flatMap fun e => (List.range (f e.2).length).map fun i => g e.1 i
/-- Records, requests, engines, drays and the ends of skeins and launches. -/
def workTurns (s : State) : List (State → Out) :=
  s.ids.map execContextFatal
  ++ [execFaultRecord]
  ++ s.bids.map execRelayedTrap
  ++ (s.mem.reqs.flatMap fun q => [execHomeRequest q.rid, execRedCombine q.rid, execMemoryResponse q.rid false])
  ++ ((List.range s.partials.length).flatMap fun i => [execCombineCount i, execCombineTimer i])
  ++ s.onCores (·.mq) execAccswapExchange ++ s.onCores (·.mq) execCommandStart ++ s.onCores (·.mq) execCommandFault
  ++ s.onCores (·.mq) execCommandFailed ++ s.onCores (·.mq) execCommandRetire
  ++ s.onCores (·.copies) execCopyStart ++ s.onCores (·.copies) execCopyRow ++ s.onCores (·.copies) execCopyPageFault
  ++ (List.range s.prefsOf.length).map execPrefetchArrival
  ++ (s.coreIds.filter fun g => (s.core g).reset.elim false fun t => decide (t ≤ s.time.clk)).map execEngineResetEnd
  ++ (s.bids.flatMap fun b => (List.range ((s.blk? b).elim 0 (·.skeins.length))).map fun i => execSkeinRetire b i)
  ++ s.liveLids.map execGridCompletion
/-- The relays below the rack's: level and number. -/
def relays (s : State) : List (Nat × Nat) :=
  ((s.packages.flatMap s.diesOf).map fun d => (0, d)) ++ (s.packages.map fun p => (1, p))
    ++ ((List.range (Config.packages / Config.perTray)).map fun t => (2, t))
/-- Packets, placement, residency reports, resource grants, contexts and the relays' commands. -/
def relayTurns (s : State) : List (State → Out) :=
  [execContextBind, execContextRelease, execGridLaunch, execResidentLaunch, execReservedPacketType]
  ++ s.liveLids.map execResidentPlacement
  ++ (if s.liveLids.isEmpty then [] else (s.packages.flatMap s.diesOf).map execBlockPlacement)
  ++ s.bids.map execStartTime
  ++ (s.coreIds.flatMap fun g => [execResourceEviction g false, execResourceEviction g true])
  ++ s.liveLids.map execPriorityPreemption
  ++ (s.liveLids.flatMap fun l => s.relays.map fun n => execResidencyReport n.1 n.2 l)
  ++ s.ids.map execContextSave ++ s.ids.map execContextRestore
  ++ ((mapKeys s.hosts).flatMap fun p => [execShootdown p, execFaultReply p, execPin p, execUnpin p, execIngressBind p, execIngressUnbind p,
       execRwinReg p, execRwinDereg p, execAperture p, execReservedRelayCommand p, execShootdownDone p])
/-- What happens when no issuer is ready: steals, polls, hangs, gating, the heartbeat. -/
def quietTurns (s : State) : List (State → Out) :=
  (s.liveLids.flatMap fun l => s.relays.map fun n => execSteal n.1 n.2 l)
  ++ s.coreIds.map execHang ++ s.coreIds.map execMonitorPoll
  ++ [execHeartbeat] ++ s.coreIds.map execClockGate ++ s.coreIds.map execPowerGate
/-- The first turn that changes something. -/
def firstMove (s : State) : List (State → Out) → Option Out
  | [] => none
  | f :: l => match f s with
    | .next t => if t = s then s.firstMove l else some (.next t)
    | r => some r
/-- The turn of a machine whose agenda is empty: one clock passes. -/
def defaultTurn (s : State) : Out :=
  let s := ({ s with cur := none } : State).pass 1
  match s.firstMove s.workTurns with
  | some r => r
  | none => match s.firstMove s.relayTurns with
    | some r => r
    | none => match s.nextIssuer with
      | some w => (s.chosen w).issueTurn w
      | none => (s.firstMove s.quietTurns).getD (.next s)

/-! ### A word placed for the next step to fetch (log 1) -/

/-- A context whose home map gives the first granule to a channel. -/
def slotCtx : Ctx :=
  { id := 0, d := { maxpri := 0, exok := true, hangms := 0, root := 0, save := 0, pool := 0, gcount := 0, spills := 0, faultq := 0, errq := 0,
                    spillb := 0, desc := 2 ^ 47 },
    home := [(0, 0x80000000#32)], place := [], dead := false, fatal := none, saved := 0, since := 0, nextSeq := 1, order := 0, regions := [],
    stores := 0, stored := [], cores := [], writers := [], replies := [] }
/-- The packet of a launch of one block: code of 16 bytes at VA 0, one plane, one lane skein of 64 registers, one tile, a
scratchpad of 4096 bytes, no coach instance. -/
def slotPacket : List Byte :=
  leBytes 8 1 ++ leBytes 8 0 ++ leBytes 4 256 ++ leBytes 4 16 ++ [1, 1, 1, 0] ++ leBytes 4 4096 ++ leBytes 8 0 ++ leBytes 2 64 ++ [64, 0]
    ++ leBytes 4 0xFFFFFFFF ++ List.replicate 208 0
def slotLaunch : Launch :=
  { lid := 0, ctx := 0, seq := 0, packet := slotPacket, accept := 0, first := 0, start := 0, tentry := 8, total := 1, retired := 0,
    poison := false, keys := [], doneAt := [], shares := [], reports := [], waiting := 0, done := false, rec_ := none }
def slotSkein : Skein :=
  { idx := 0, role := 0, win := { allot := 64, reach := 64, base := 0, spill := 0 },
    r := { lanes := [], masks := [(0, 0xFFFF)], joins := [], latch := Latches.none, planes := [], exited := 0, status := 0 },
    arms := [{ Arm.idle with path := some { off := 0, lanes := 0xFFFF, base := 0 } }],
    rejoin := 0, life := .live, frame := none, x := Skein.blank.x }
def slotBlock : Block :=
  { id := { bid := 0, lid := 0, ctx := 0, seq := 0, idx := 0, key := 0, core := 0, span := 0, partner := none }, placed := 0,
    ps := emptyScratch 4096, ntiles := 1, tiles := [], evicted := 0, dq := [], bars := [], skeins := [slotSkein], coach := none, ncmd := 0,
    ncopy := 0, epoch := 0, held := false }
/-- A line of the code as core 0 holds it. -/
def slotLine (va : Nat) (data : Nat) : CLine :=
  { tag := some 0, va := va, data := BitVec.ofNat 1024 data, valid := allBytes, dirty := 0, w := false, first := false }
/-- The state with a launch of one block whose skein stands at offset 0 of a plane image that begins with the word, its code and
boundary map in the core's instruction cache, and that skein's turn next. -/
def placeWord (s : State) (w : Nat) : State :=
  let core := { s.core 0 with ctx := some 0, icache := [slotLine 0 w, slotLine 256 (if w % 2 = 0 then 0xFF else 0xFD)] }
  { s with
    ctxs := mapSet s.ctxs 0 slotCtx
    launches := mapSet s.launches 0 slotLaunch
    blocks := mapSet s.blocks 0 slotBlock
    cores := mapSet s.cores 0 core
    agenda := [{ clocks := 1, move := .issue (.skein 0 0 0) }] }

end State

end Sys2Proof.Machine
end

