-- ==== Sys2Proof/Machine/Step.lean ====
section
/-! DEFINITION. One step of the machine: the next turn of the agenda, or the default turn. -/

namespace Sys2Proof.Machine

/-- One turn: the first of the agenda, or, where the agenda is empty, the default one. -/
def step (s : State) : Host.Outcome State Fault Refusal :=
  match s.agenda with
  | [] => s.defaultTurn
  | t :: r => ({ s with agenda := r } : State).turn t

/-- The state in which the next step fetches and runs the instruction of `nbits` bits `w` (log 1); an event row has no word. -/
def State.withFetchWord (s : State) (nbits w : Nat) : State :=
  if nbits = 0 then s else s.placeWord (w % 2 ^ nbits)

end Sys2Proof.Machine
end

