-- ==== Sys2Proof/Safety.lean ====
section
/-! DEFINITION. What counts as a safe run, and the terms the statements use: what a pass leaves unchanged, how it goes on, and what
a lane, mask, uniform or memory result changes. -/

namespace Sys2Proof.Machine

/-- A state from which `n` steps run without a fault or a refusal. -/
def RunsSafely (n : Nat) (s : State) : Prop := ∃ t, Sys2Proof.core.run n s = .next t

/-- The memory invariant: the bytes of HBM stand in their canonical form. -/
def MemoryOk (s : State) : Prop := Memory.wf s.mem.bytes = true

/-! ### Operands of a pass -/

/-- The integer conditions on the values of two words: signed and unsigned orders (R109). -/
def condHolds {w : Nat} (c : ICond) (x y : BitVec w) : Bool :=
  match c with
  | .eq => decide (x.toNat = y.toNat)
  | .ne => decide (x.toNat ≠ y.toNat)
  | .lt => decide (x.toInt < y.toInt)
  | .le => decide (x.toInt ≤ y.toInt)
  | .gt => decide (y.toInt < x.toInt)
  | .ge => decide (y.toInt ≤ x.toInt)
  | .lo => decide (x.toNat < y.toNat)
  | .ls => decide (x.toNat ≤ y.toNat)
  | .hi => decide (y.toNat < x.toNat)
  | .hs => decide (y.toNat ≤ x.toNat)
/-- A lane pass of a skein in which no lane of a lower plane has failed. -/
def LanePass (s : State) (p : Pass) : Prop := s.pass? = some p ∧ p.coach = false ∧ (p.arm.issue.elim [] (·.fails)) = []
/-- `n` registers from `vi` lie below the reach (R75). -/
def RegOk (p : Pass) (i n : Nat) : Prop := i + n ≤ p.sk.vlimit
/-- A destination: below the reach unless the K bit keeps the result in the chain (R83). -/
def DestOk (p : Pass) (k : Bool) (i n : Nat) : Prop := k = true ∨ RegOk p i n
/-- A lane source of `n` registers: below the reach, or a valid latch (R75, R84). -/
def SrcOk (p : Pass) (a : Src) (n : Nat) : Prop :=
  match a with
  | .v i => RegOk p i n
  | .b i => p.bank.valid.getLsbD i = true
/-- A 64-bit register operand names an even register (R74, R102); a latch delivers 64 bits by itself. -/
def SrcEven (a : Src) : Prop :=
  match a with
  | .v i => i % 2 = 0
  | .b _ => True

/-- Destination and sources of a lane instruction pass R346 and R84, or the path's execute mask is empty (R71). -/
def Fields (p : Pass) (k : Bool) (d n : Nat) (srcs : List (Src × Nat)) : Prop :=
  p.em = 0 ∨ (DestOk p k d n ∧ ∀ x ∈ srcs, SrcOk p x.1 x.2)
/-- The same with 64-bit operands at even registers: the destination, and the sources of two registers (R102, R368). -/
def PairFields (p : Pass) (k : Bool) (d : Nat) (srcs : List (Src × Nat)) : Prop :=
  p.em = 0 ∨ ((k = true ∨ d % 2 = 0) ∧ DestOk p k d 2 ∧ ∀ x ∈ srcs, SrcOk p x.1 x.2 ∧ (x.2 = 2 → SrcEven x.1))
/-- An instruction answers a next state of which `Q` holds. -/
def Runs (s : State) (i : Instr) (Q : State → Prop) : Prop := ∃ t, exec i s = .next t ∧ Q t

/-- The 32-bit word whose bits are given one by one. -/
def laneWord (f : Nat → Bool) : W32 := (List.range 32).foldl (fun w n => if f n then w ||| (1#32 <<< n) else w) 0

/-- The pass of a coach instance. -/
def CoachPass (s : State) (p : Pass) : Prop := s.pass? = some p ∧ p.coach = true

/-! ### Frames -/

/-- Nothing but skein `i` of block `b` differs, which has become `k`; free values may have been taken. -/
def OnlySkein (s t : State) (b i : Nat) (k : Skein) : Prop := ∃ n, t = (s.modSk b i fun _ => k).takeFree n
/-- The parts of a skein that no lane, mask or uniform result touches: its identity, role, window, joins, exited lanes, life,
trap frame, held traps and deferred stores, and every other arm. -/
structure RestKept (p : Pass) (k : Skein) : Prop where
  idx : k.idx = p.sk.idx
  role : k.role = p.sk.role
  win : k.win = p.sk.win
  joins : k.r.joins = p.sk.r.joins
  exited : k.r.exited = p.sk.r.exited
  life : k.life = p.sk.life
  frame : k.frame = p.sk.frame
  rejoin : k.rejoin = p.sk.rejoin
  misc : k.x = p.sk.x
  arms : ∀ a, a ≠ p.ai → k.arms[a]? = p.sk.arms[a]?
/-- The issuing arm after the pass: the next plane's pass, or the issue closed and the path at the next offset (R54), with the planes
`PSET` gave (R56); its stack, waits and uniform registers `ks`. -/
structure WentOn (p : Pass) (k : Skein) (ks : NMap W64) : Prop where
  next : ∃ a, k.arms[p.ai]? = some a ∧ a.ks = ks ∧ a.stack = p.arm.stack ∧ a.wait = p.arm.wait ∧ a.hold = p.arm.hold
    ∧ a.complete = p.arm.complete ∧ a.arrived = p.arm.arrived ∧ a.lb = p.arm.lb
    ∧ (p.last = true → a.issue = none ∧ a.path = p.arm.path.map fun x => { x with off := p.off + p.len })
    ∧ (p.last = false → a.path = p.arm.path ∧ (a.issue.map (·.rest)) = p.arm.issue.map fun u => u.rest.drop 1)
  planes : ∀ l, l < 16 →
    k.plane l = if p.last then (mapGet (p.arm.issue.elim [] (·.pset)) l).getD (p.sk.plane l) else p.sk.plane l
/-- A lane's register outside the destination's slots keeps its value; `d` is the first of `n` destination registers. -/
def LanesKept (p : Pass) (k : Skein) (d n : Nat) : Prop :=
  ∀ x l, l < 16 → (l ∉ p.lanes ∨ ∀ i, i < n → x % p.sk.win.allot ≠ (p.sk.vbase + d + i) % p.sk.win.allot) →
    k.logical x l = p.sk.logical x l
/-- The chain after a result (R82): `b0` of the lanes served holds it; at the offset's first push the older latches have moved up. -/
structure Pushed (p : Pass) (k : Skein) (f : Nat → W64) : Prop where
  top : ∀ l ∈ p.lanes, mapGetD k.r.latch.ent l 0 = f l
  first : (p.arm.issue.bind (·.pushed)) = none →
    k.r.latch.valid = (p.sk.r.latch.valid <<< 1) ||| 1
      ∧ ∀ i l, i < 7 → l < 16 → mapGetD k.r.latch.ent (16 * (i + 1) + l) 0 = mapGetD p.sk.r.latch.ent (16 * i + l) 0
  again : (p.arm.issue.bind (·.pushed)) ≠ none →
    k.r.latch.valid = p.sk.r.latch.valid
      ∧ ∀ i l, 0 < i → l < 16 → mapGetD k.r.latch.ent (16 * i + l) 0 = mapGetD p.sk.r.latch.ent (16 * i + l) 0

/-! ### Results -/

/-- A 32-bit lane result `f` in `vd`, or with K in `b0` alone; sticky bits `fl` are set; nothing else changes. -/
def LaneResult (s t : State) (p : Pass) (d : Nat) (kb : Bool) (f : Nat → W32) (fl : BitVec 7) : Prop :=
  ∃ k, OnlySkein s t p.bid p.ix k ∧ RestKept p k ∧ WentOn p k p.arm.ks ∧ Pushed p k (fun l => (f l).setWidth 64)
    ∧ (kb = false → ∀ l ∈ p.lanes, k.v d l = f l) ∧ LanesKept p k d (if kb then 0 else 1)
    ∧ k.r.masks = p.sk.r.masks ∧ k.r.status = p.sk.r.status ||| fl
/-- The same with a carry per lane written to `m7`. -/
def CarryResult (s t : State) (p : Pass) (d : Nat) (kb : Bool) (f : Nat → W32) (c : Nat → Bool) : Prop :=
  ∃ k, OnlySkein s t p.bid p.ix k ∧ RestKept p k ∧ WentOn p k p.arm.ks ∧ Pushed p k (fun l => (f l).setWidth 64)
    ∧ (kb = false → ∀ l ∈ p.lanes, k.v d l = f l) ∧ LanesKept p k d (if kb then 0 else 1)
    ∧ (∀ l, l < 16 → (k.mask 7).getLsbD l = if l ∈ p.lanes then c l else (p.sk.mask 7).getLsbD l)
    ∧ (∀ m, m ≠ 7 → k.mask m = p.sk.mask m) ∧ k.r.status = p.sk.r.status
/-- A 64-bit lane result `f` in the pair `vd`, `vd+1`, or with K in `b0` alone. -/
def PairResult (s t : State) (p : Pass) (d : Nat) (kb : Bool) (f : Nat → W64) (fl : BitVec 7) : Prop :=
  ∃ k, OnlySkein s t p.bid p.ix k ∧ RestKept p k ∧ WentOn p k p.arm.ks ∧ Pushed p k f
    ∧ (kb = false → ∀ l ∈ p.lanes, k.v (d + 1) l = (f l).extractLsb' 32 32
        ∧ ((p.sk.vbase + d) % p.sk.win.allot ≠ (p.sk.vbase + (d + 1)) % p.sk.win.allot → k.v d l = (f l).setWidth 32))
    ∧ LanesKept p k d (if kb then 0 else 2) ∧ k.r.masks = p.sk.r.masks ∧ k.r.status = p.sk.r.status ||| fl
/-- The bits `v` of the lanes `ls` in mask `m` (in `m0` exited lanes stay clear, R43); nothing is pushed. -/
def MaskResult (s t : State) (p : Pass) (m : Nat) (ls v : Lanes) (fl : BitVec 7) : Prop :=
  ∃ k, OnlySkein s t p.bid p.ix k ∧ RestKept p k ∧ WentOn p k p.arm.ks
    ∧ (∀ l, l < 16 → (k.mask m).getLsbD l
        = ((if ls.getLsbD l then v.getLsbD l else (p.sk.mask m).getLsbD l) && (m != 0 || !p.sk.r.exited.getLsbD l)))
    ∧ (∀ x, x ≠ m → k.mask x = p.sk.mask x) ∧ k.r.lanes = p.sk.r.lanes ∧ k.r.latch = p.sk.r.latch
    ∧ k.r.status = p.sk.r.status ||| fl
/-- A uniform register `kd` of the issuing arm written, sticky bits set; no lane register, mask or latch changes. -/
def UniformResult (s t : State) (p : Pass) (kd : Nat) (v : W64) (fl : BitVec 7) : Prop :=
  ∃ k, OnlySkein s t p.bid p.ix k ∧ RestKept p k ∧ WentOn p k (mapSet p.arm.ks kd v) ∧ k.r.lanes = p.sk.r.lanes
    ∧ k.r.masks = p.sk.r.masks ∧ k.r.latch = p.sk.r.latch ∧ k.r.status = p.sk.r.status ||| fl
/-- Lane registers alone: `f` in `vd` of the active lanes; the chain is not pushed. -/
def SilentResult (s t : State) (p : Pass) (d : Nat) (f : Nat → W32) : Prop :=
  ∃ k, OnlySkein s t p.bid p.ix k ∧ RestKept p k ∧ WentOn p k p.arm.ks ∧ (∀ l ∈ p.lanes, k.v d l = f l) ∧ LanesKept p k d 1
    ∧ k.r.masks = p.sk.r.masks ∧ k.r.latch = p.sk.r.latch ∧ k.r.status = p.sk.r.status
/-- A result of `n` registers per lane, component `i` in `v(d+i)`; the chain keeps its entries but `b0` of the active lanes (R346). -/
def ElementResult (s t : State) (p : Pass) (d n : Nat) (f : Nat → Nat → W32) (fl : BitVec 7) : Prop :=
  ∃ k, OnlySkein s t p.bid p.ix k ∧ RestKept p k ∧ WentOn p k p.arm.ks ∧ (∀ l ∈ p.lanes, ∀ i, i < n → k.v (d + i) l = f l i)
    ∧ LanesKept p k d n ∧ k.r.masks = p.sk.r.masks ∧ k.r.latch.valid = p.sk.r.latch.valid
    ∧ (∀ x, x ∉ p.lanes → mapGetD k.r.latch.ent x 0 = mapGetD p.sk.r.latch.ent x 0) ∧ k.r.status = p.sk.r.status ||| fl
/-- Planes noted for the next offset (R56): `q l` for the active lanes; at the offset's last pass they take effect with those of
its earlier passes. -/
def PlaneResult (s t : State) (p : Pass) (q : Nat → Nat) : Prop :=
  ∃ k, OnlySkein s t p.bid p.ix k ∧ RestKept p k ∧ k.r.lanes = p.sk.r.lanes ∧ k.r.masks = p.sk.r.masks ∧ k.r.latch = p.sk.r.latch
    ∧ k.r.status = p.sk.r.status ∧ ∃ a, k.arms[p.ai]? = some a ∧ a.ks = p.arm.ks ∧ a.stack = p.arm.stack
      ∧ let was := p.arm.issue.elim [] (·.pset)
        if p.last then a.issue = none ∧ a.path = p.arm.path.map (fun x => { x with off := p.off + p.len })
          ∧ ∀ l, l < 16 → k.plane l = if l ∈ p.lanes then q l else (mapGet was l).getD (p.sk.plane l)
        else a.path = p.arm.path ∧ (∀ l, l < 16 → k.plane l = p.sk.plane l)
          ∧ ∀ l, l < 16 → mapGet (a.issue.elim [] (·.pset)) l = if l ∈ p.lanes then some (q l) else mapGet was l
/-- A coach instance's pass: its registers and its place in the code; nothing else differs. -/
def CoachResult (s t : State) (p : Pass) (kd : Nat) (v : W64) : Prop :=
  t = s.modCoach p.bid fun c => { c with ks := mapSet c.ks kd v, off := p.off + p.len }
/-- The pass leaves nothing behind but its end. -/
def NoResult (s t : State) (p : Pass) : Prop :=
  ∃ k, OnlySkein s t p.bid p.ix k ∧ RestKept p k ∧ WentOn p k p.arm.ks ∧ k.r.lanes = p.sk.r.lanes
    ∧ k.r.masks = p.sk.r.masks ∧ k.r.latch = p.sk.r.latch ∧ k.r.status = p.sk.r.status

/-! ### Places in the code -/

/-- No update stands combined in a tray switch. -/
def NoParts (s : State) : Prop := ∀ e ∈ s.trays, e.2.parts = []
/-- Code was fetched: instruction caches, die L2s with the reader counts they give up, translation units, link ports, event counters
and the free values alone may differ. -/
def CodeFetched (s t : State) : Prop :=
  t = { s with cores := t.cores, dies := t.dies, chans := t.chans, ports := t.ports, events := t.events,
               fresh := { s.fresh with free := t.fresh.free }, mem := { s.mem with readers := t.mem.readers } }
    ∧ (∀ g, t.core g = { s.core g with icache := (t.core g).icache })
    ∧ ∀ d, t.die d = { s.die d with l2 := (t.die d).l2, early := (t.die d).early }
/-- Offset `o` passes the target checks of R52, as the pass's core reads the boundary map. -/
def TargetOk (s : State) (p : Pass) (o : Nat) : Prop := (s.targetOk (s.codeOf p.blk.id.lid) p.core p.ctx o).2 = .ok true
/-- The state once the map has been read for `o`. -/
def afterTarget (s : State) (p : Pass) (o : Nat) : State := (s.targetOk (s.codeOf p.blk.id.lid) p.core p.ctx o).1
/-- The skein of the pass has become `k`; code may have been fetched. -/
def OnlySkeinC (s t : State) (p : Pass) (k : Skein) : Prop := ∃ u, CodeFetched s u ∧ t = u.modSk p.bid p.ix fun _ => k
/-- The arm of the pass as `a`, every other arm as the pass found it. -/
def ArmIs (p : Pass) (k : Skein) (a : Arm) : Prop := k.arms[p.ai]? = some a ∧ ∀ b, b ≠ p.ai → k.arms[b]? = p.sk.arms[b]?
/-- The pass's skein at a switch point: every latch invalid (R84). -/
def Pass.switched (p : Pass) : Pass := { p with sk := p.sk.dropLatches }
/-- A transfer of the whole path to `o`: nothing of the skein differs but the arm's place; a backward one may load the loop buffer
and is a switch (R47, R73). -/
def WentTo (s t : State) (p : Pass) (o : Nat) : Prop :=
  ∃ k a, OnlySkeinC s t p k ∧ k = { p.sk with arms := k.arms } ∧ ArmIs p k a
    ∧ a = { p.arm with issue := none, path := p.arm.path.map fun x => { x with off := o }, sw := a.sw, lb := a.lb }
    ∧ if p.off < o then a.sw = p.arm.sw ∧ a.lb = p.arm.lb else a.sw = (p.arm.sw || p.sk.pends p.ai)
/-- A transfer of a coach instance. -/
def CoachWentTo (s t : State) (p : Pass) (o : Nat) : Prop := ∃ u, CodeFetched s u ∧ t = u.modCoach p.bid fun c => { c with off := o }
/-- A serial split (R60): the taken lanes run at `o`, the others pend at the next offset, above a marker where there is a rejoin. -/
def SplitSerially (s t : State) (p : Pass) (o : Nat) (rj : Option Nat) (taken : Lanes) : Prop :=
  ∃ k a x, p.arm.path = some x ∧ OnlySkeinC s t p k ∧ k = { p.sk.dropLatches with arms := k.arms } ∧ ArmIs p.switched k a
    ∧ a = { p.arm with
        path := some { off := o, lanes := taken, base := p.sk.win.base, last := x.last }, issue := none, again := none, complete := false
        stack := .path { off := p.off + 4, lanes := x.lanes &&& ~~~taken, base := p.sk.win.base, last := x.last }
          :: (rj.elim [] fun r => [.marker r 0 p.sk.win.base]) ++ p.arm.stack
        sw := a.sw, lb := a.lb }
/-- A top-level split into two arms (R60, R64): arm 0 has the lower lane; held groups pass to it (R439). -/
def SplitInArms (s t : State) (p : Pass) (o rj : Nat) (taken : Lanes) : Prop :=
  ∃ k one two x, p.arm.path = some x ∧ OnlySkeinC s t p k
    ∧ k = { (p.sk.regroup).dropLatches with arms := k.arms, rejoin := rj }
    ∧ (let rest := x.lanes &&& ~~~taken
       one = { Arm.idle with path := some { off := o, lanes := taken, base := p.sk.win.base, last := x.last }, split := taken,
                             ks := p.arm.ks, seen := p.arm.seen, marks := p.arm.marks, sw := one.sw, lb := one.lb }
       ∧ two = { Arm.idle with path := some { off := p.off + 4, lanes := rest, base := p.sk.win.base, last := x.last }, split := rest,
                               ks := p.arm.ks, seen := p.arm.seen, marks := p.arm.marks }
       ∧ k.arms = if (lowestLane taken).getD 16 ≤ (lowestLane rest).getD 16 then [one, two] else [two, one])
/-- The window moved to base `b`, the path gone on at `o`, uniform registers `ks` (R76). -/
def WindowMoved (s t : State) (p : Pass) (b o : Nat) (ks : NMap W64) : Prop :=
  ∃ k a, OnlySkeinC s t p k ∧ k = { p.sk.dropLatches with win := { p.sk.win with base := b }, arms := k.arms } ∧ ArmIs p.switched k a
    ∧ a = { p.arm with
        issue := none, path := p.arm.path.map (fun (x : Path) => { x with off := o, base := b }), ks := ks, sw := p.arm.sw || p.sk.pends p.ai }
/-! ### Arrival at a rejoin (R61, R62, R65, R72) -/

/-- The skein `z` is `k` with every latch invalid, except for its arms: arm `ai` has become `y`, the others are as they were. -/
def ArmRuns (k z : Skein) (ai : Nat) (y : Arm) : Prop :=
  z = { k.dropLatches with arms := z.arms } ∧ z.arms[ai]? = some y ∧ ∀ b, b ≠ ai → z.arms[b]? = k.dropLatches.arms[b]?
/-- What the running path of arm `ai` finds at its rejoin: with a marker on top of the stack, the marker's lanes run there with its own; with
a pending path above the marker that one runs, and the marker has its lanes; at the end of an arm whose sibling still runs the arm is complete. -/
def ArrivesAt (k : Skein) (ai : Nat) (x : Arm) (q : Path) : Prop :=
  (∀ (m : Lanes) (b : Nat) (st : List Entry), x.stack = .marker q.off m b :: st → (m ||| q.lanes) &&& k.live ≠ 0 →
    ∃ z y, k.arrive ai = some z ∧ ArmRuns k z ai y ∧ y.stack = st ∧ y.issue = none ∧ y.again = none ∧ y.complete = false ∧ y.ks = x.ks
      ∧ y.path = some { off := q.off, lanes := (m ||| q.lanes) &&& k.live, base := b, last := q.off })
  ∧ (∀ (w : Path) (m : Lanes) (b : Nat) (st : List Entry), x.stack = .path w :: .marker q.off m b :: st → w.lanes &&& k.live ≠ 0 →
    ∃ z y, k.arrive ai = some z ∧ ArmRuns k z ai y ∧ y.stack = .marker q.off (m ||| q.lanes) b :: st ∧ y.issue = none ∧ y.again = w.again
      ∧ y.complete = false ∧ y.ks = x.ks ∧ y.path = some { w with lanes := w.lanes &&& k.live, again := none })
  ∧ (x.stack = [] → k.arms.length = 2 → q.off = k.rejoin → (∀ o, k.arms[1 - ai]? = some o → o.complete = false) →
    ∃ z y, k.arrive ai = some z ∧ ArmRuns k z ai y ∧ y.path = none ∧ y.stack = [] ∧ y.complete = true ∧ y.arrived = x.arrived ||| q.lanes ∧ y.ks = x.ks)
/-- Two top-level arms merge as the last path of one arrives: one path at the rejoin with the lanes of both, the uniform registers of the arm
that held the lower lane at the split, and KDIV where the copies differ. -/
def Merged (k z : Skein) (one two : Arm) (m : Lanes) : Prop :=
  ∃ y, z.arms = [y] ∧ z.rejoin = 0 ∧ y.stack = [] ∧ y.complete = false ∧ y.issue = none ∧ y.wait = none
    ∧ y.path = some { off := k.rejoin, lanes := m, base := k.win.base, last := k.rejoin }
    ∧ y.ks = (if (lowestLane one.split).getD 16 ≤ (lowestLane two.split).getD 16 then one.ks else two.ks)
    ∧ (let alike := ∀ i, i < 32 → mapGetD one.ks i 0 = mapGetD two.ks i 0
       (alike → z.r.status = k.r.status) ∧ (¬alike → z.r.status = k.r.status ||| stKDIV))
    ∧ z.r.latch.valid = 0 ∧ z.r.lanes = k.r.lanes ∧ z.r.masks = k.r.masks ∧ z.r.planes = k.r.planes ∧ z.r.exited = k.r.exited
    ∧ z.win = k.win ∧ z.frame = k.frame ∧ z.life = k.life ∧ z.x = k.x
    ∧ z.r.joins = k.r.joins.map fun e => (e.1, { e.2 with groups := e.2.groups.map fun (g : Group) => { g with arm := 0 } })

/-- An arm's loop buffer has been loaded again (R213). -/
def Reloaded (a c : Arm) : Prop :=
  (c.lb.map fun x => (x.lo, x.hi, x.planes, x.stale)) = a.lb.map fun x => (x.lo, x.hi, x.planes, false)
/-- The instruction raises this trap for its whole pass, and does nothing else. -/
def Traps (s : State) (p : Pass) (i : Instr) (c : TrapCode) (u : Cause) : Prop := exec i s = .next (s.raise p (p.trap c u))
/-- A switch point raises this trap for its whole pass; its own invalidation of the latches stands (R84). -/
def SwitchTraps (s : State) (p : Pass) (i : Instr) (c : TrapCode) (u : Cause) : Prop :=
  exec i s = .next ((s.switchPoint p).raise p (p.trap c u))
/-- One join register becomes `r`; nothing else of the skein differs but the end of the pass. -/
def JoinResult (s t : State) (p : Pass) (j : Nat) (r : JoinReg) : Prop :=
  ∃ k, OnlySkein s t p.bid p.ix k ∧ WentOn p k p.arm.ks ∧ k.join j = r ∧ (∀ i, i ≠ j → k.join i = p.sk.join i)
    ∧ k = { p.sk with r := { p.sk.r with joins := k.r.joins, planes := k.r.planes }, arms := k.arms }
    ∧ ∀ b, b ≠ p.ai → k.arms[b]? = p.sk.arms[b]?

/-! ### Switch points -/

/-- No other skein, coach instance or block differs, and no byte of HBM. -/
def OthersKept (s t : State) (p : Pass) : Prop :=
  t.mem.bytes = s.mem.bytes ∧ (∀ b, b ≠ p.bid → t.blk? b = s.blk? b) ∧ (∀ i, i ≠ p.ix → t.sk? p.bid i = s.sk? p.bid i)
/-- A switch point that has completed: every latch invalid, uniform registers `ks`, the pass gone on, nothing else of the skein. -/
def SwitchedOn (s t : State) (p : Pass) (ks : NMap W64) : Prop :=
  OthersKept s t p ∧ ∃ k, t.sk? p.bid p.ix = some k ∧ RestKept p.switched k ∧ WentOn p k ks
    ∧ k.r = { p.sk.dropLatches.r with planes := k.r.planes }
/-- A switch point that has parked its path with wait `w` (R42). -/
def ParkedOn (s t : State) (p : Pass) (w : Wait) : Prop :=
  OthersKept s t p ∧ ∃ k a, t.sk? p.bid p.ix = some k ∧ k = { p.sk.dropLatches with arms := k.arms } ∧ ArmIs p.switched k a
    ∧ a.wait = some w ∧ a.path = p.arm.path ∧ a.stack = p.arm.stack ∧ a.ks = p.arm.ks
/-- No update of anyone is on its way to its home. -/
def NoUpdates (s : State) : Prop := s.mem.reqs = [] ∧ NoParts s
/-- No update of the pass's own thread is on its way to its home (R198). -/
def NoOwnUpdates (s : State) (p : Pass) : Prop :=
  (∀ q ∈ s.mem.reqs, ∀ x ∈ q.froms, x.bid = p.bid → x.ix ≠ p.ix)
    ∧ ∀ e ∈ s.trays, ∀ q ∈ e.2.parts, ∀ x ∈ q.froms, x.bid = p.bid → x.ix ≠ p.ix
/-- `n` bytes at an address as a home holds them: the core has no copy, the page is readable under its key, nothing is poisoned. -/
def HomeValue (s : State) (p : Pass) (a n : Nat) (kind : Kind) (v : Nat) : Prop :=
  noncanon a = false ∧ s.mapOk p.ctx a = true ∧ a % n = 0 ∧ State.lineIn (s.core p.core).l1 p.ctx a = none
    ∧ ∃ h, (s.request p.ctx a kind).2 = .ok h ∧ h.moved = false ∧ h.wild = false ∧ (∀ i, i < n → s.poisoned (h.addr / 32 + i / 32) = false)
      ∧ (∀ i, i < n → mapGetD s.mem.keyOf ((h.addr + i) / 32) 0 = h.key) ∧ v = leNat (byteGets s.mem.bytes h.addr n)

/-! ### Traps (R289) -/

/-- The pass at a switch point, as a trap sets it aside. -/
def Pass.atSwitch (p : Pass) : Pass := { p with sk := (p.sk.modArm p.ai fun a => { a with sw := a.sw || p.sk.pends p.ai }).dropLatches }
/-- Trap mode entered from the pass: the program's arms, their waits abandoned (log 109), planes, latches and `m0` set aside; the handler's sole arm at `te`, in plane
0, with the record in `k1` to `k7` and the spill region in `k0`; lane registers, other masks, joins, window and status stay. -/
def TrapEntered (s t : State) (p : Pass) (tr : Trap) (cls te : Nat) : Prop :=
  OthersKept s t p ∧ ∃ k a, t.sk? p.bid p.ix = some k
    ∧ k.frame = some { arms := p.sk.arms.map (fun a => { a with wait := none }), rejoin := p.sk.rejoin, planes := p.sk.r.planes,
                       latch := p.sk.r.latch, m0 := p.sk.mask 0, arm := p.ai, ranArm := p.sk.x.ranArm }
    ∧ k.arms = [a] ∧ a.path = some { off := te, lanes := p.sk.live, base := p.sk.win.base } ∧ a.stack = [] ∧ a.issue = none ∧ a.wait = none
    ∧ (∀ l, k.plane l = 0) ∧ k.r.latch.valid = 0 ∧ k.r.lanes = p.sk.r.lanes ∧ k.r.joins = p.sk.r.joins ∧ k.r.exited = p.sk.r.exited
    ∧ k.r.status = p.sk.r.status ∧ k.win = p.sk.win ∧ k.life = p.sk.life ∧ k.role = p.sk.role
    ∧ k.mask 0 = (if p.em ≠ 0 then p.em else p.arm.path.elim p.path (·.lanes) &&& p.sk.live) ∧ (∀ i, i ≠ 0 → k.mask i = p.sk.mask i)
    ∧ mapGetD a.ks 0 0 = BitVec.ofNat 64 p.sk.x.region
    ∧ mapGetD a.ks 1 0 = BitVec.ofNat 64 (tr.code.code + 2 ^ 8 * tr.cause.code + 2 ^ 16 * p.plane + 2 ^ 18 * cls + 2 ^ 20 * p.ai
        + 2 ^ 22 * tr.next.toNat + 2 ^ 24 * tr.masked.toNat + 2 ^ 32 * tr.off.getD p.off)
    ∧ mapGetD a.ks 2 0 = BitVec.ofNat 64 (tr.mask.toNat + 2 ^ 32 * tr.aux.toNat) ∧ mapGetD a.ks 3 0 = tr.addr
    ∧ mapGetD a.ks 7 0 = BitVec.ofNat 64 s.time.ns ∧ ∀ i, 8 ≤ i → mapGetD a.ks i 0 = mapGetD p.arm.ks i 0

/-! ### Special registers, memory and queues -/

/-- The pass with `o` as its counts of recorded reads (R283). -/
def Pass.withOrd (p : Pass) (o : NMap Nat) : Pass := { p with sk := { p.sk with x := { p.sk.x with ord := o } } }
/-- A pass of a launch without determinism checks whose skein has dropped no store. -/
def PlainPass (s : State) (p : Pass) : Prop := LanePass s p ∧ s.isDet p = false ∧ p.sk.x.defer = none
/-- Every active lane's address is canonical, aligned to `n` and has a home (R287 steps 7 to 9). -/
def AddrsOk (s : State) (p : Pass) (n : Nat) (addr : Nat → Nat) : Prop :=
  ∀ l ∈ p.lanes, noncanon (addr l) = false ∧ addr l % n = 0 ∧ s.mapOk p.ctx (addr l) = true
/-- A data register field of `n` bytes: below the reach, even for a pair. -/
def DataOk (p : Pass) (d n : Nat) : Prop := RegOk p d (if n = 8 then 2 else 1) ∧ (n = 8 → d % 2 = 0)
/-- The core's L1 holds `n` bytes at `a`, in the line `x`, none of them poisoned, and the map and leaf of `a` stand as the rules ask (R162, R166). -/
def InL1 (s : State) (p : Pass) (a n : Nat) (x : CLine) : Prop :=
  State.lineIn (s.core p.core).l1 p.ctx a = some x ∧ byteRange (a % 128) n &&& ~~~x.valid = 0 ∧ x.bad &&& byteRange (a % 128) n = 0
    ∧ s.unsure p.ctx a = false ∧ s.unsure p.ctx (State.lineVa a) = false
/-- `n` bytes at `a` of a line, as a number. -/
def lineValue (x : LineW) (a n : Nat) : Nat := leNat ((List.range n).map fun i => lineByte x (a % 128 + i))
/-- `n` bytes of a block's scratchpad window, as a number. -/
def windowValue (b : Block) (o n : Nat) : Nat := leNat (byteGets b.ps.bytes o n)
/-- The active lanes hold `n` bytes each, zero-extended in a register or a pair; other registers are kept. -/
def LanesLoaded (p : Pass) (k : Skein) (d n : Nat) (f : Nat → Nat) : Prop :=
  ((n = 8 → (p.sk.vbase + d) % p.sk.win.allot ≠ (p.sk.vbase + (d + 1)) % p.sk.win.allot) → ∀ l ∈ p.lanes, k.v d l = BitVec.ofNat 32 (f l))
    ∧ (n = 8 → ∀ l ∈ p.lanes, k.v (d + 1) l = BitVec.ofNat 32 (f l / 2 ^ 32)) ∧ LanesKept p k d (if n = 8 then 2 else 1)
/-- A switch point that gives the active lanes `n` bytes each. -/
def LoadResult (s t : State) (p : Pass) (d n : Nat) (f : Nat → Nat) : Prop :=
  OthersKept s t p ∧ ∃ k, t.sk? p.bid p.ix = some k ∧ RestKept p.switched k ∧ WentOn p k p.arm.ks ∧ LanesLoaded p k d n f
    ∧ k.r.masks = p.sk.r.masks ∧ k.r.latch = p.sk.dropLatches.r.latch ∧ k.r.status = p.sk.r.status
/-- A switch point whose uniform result, or none, is in: for a skein and for a coach instance. -/
def OnK (s t : State) (p : Pass) (ks : NMap W64) : Prop :=
  if p.coach then
    t.mem.bytes = s.mem.bytes ∧ (∀ b, b ≠ p.bid → t.blk? b = s.blk? b) ∧ (∀ i, t.sk? p.bid i = s.sk? p.bid i)
      ∧ ∃ c, (t.blk? p.bid).bind (·.coach) = some c ∧ c.ks = ks ∧ c.off = p.off + p.len ∧ c.wait = p.co.wait ∧ c.held = p.co.held
  else SwitchedOn s t p ks
/-- Uniform registers of the issuer. -/
def Pass.kregs (p : Pass) : NMap W64 := if p.coach then p.co.ks else p.arm.ks
/-- A byte as the core's L1 shows it. -/
def l1Byte (s : State) (p : Pass) (a : Nat) : Option Byte :=
  (State.lineIn (s.core p.core).l1 p.ctx a).map fun x => lineByte x.data (a % 128)
/-- Byte `a` lies in the `n` bytes a lane stores. -/
def Covers (addr : Nat → Nat) (n l a : Nat) : Prop := addr l ≤ a ∧ a < addr l + n
/-- The bytes `f` shows after the lanes have stored `n` bytes each, later lanes over earlier ones, where `g` showed them before. -/
def BytesStored (ls : List Nat) (addr : Nat → Nat) (n : Nat) (val : Nat → Nat) (g f : Nat → Byte) : Prop :=
  ∀ a, (∀ l ∈ ls, Covers addr n l a → (∀ m ∈ ls, l < m → ¬Covers addr n m a) → f a = BitVec.ofNat 8 (val l / 256 ^ (a - addr l)))
    ∧ ((∀ l ∈ ls, ¬Covers addr n l a) → f a = g a)
/-- A line's home by which the pass may write it: translated by a cached leaf, under its key, nothing poisoned. -/
def HomeOk (s : State) (p : Pass) (a : Nat) (kind : Kind) (h : Home) : Prop :=
  (s.ctuFind p.ctx a).isSome = true ∧ (s.request p.ctx a kind).2 = .ok h ∧ h.moved = false ∧ h.wild = false
    ∧ (∀ i, i < 4 → s.poisoned (h.addr / 128 * 4 + i) = false ∧ mapGetD s.mem.keyOf (h.addr / 128 * 4 + i) 0 = h.key)
/-- A home's line lies apart from the maps in the context's descriptor (R162, R250). -/
def MapsApart (s : State) (p : Pass) (h : Home) : Prop :=
  ∀ x, s.ctx? p.ctx = some x → h.addr / 128 * 128 + 128 ≤ x.d.desc ∨ x.d.desc + 0x81000 ≤ h.addr / 128 * 128
/-- No line of the core's L1 is dirty. -/
def CleanL1 (s : State) (p : Pass) : Prop := ∀ x ∈ (s.core p.core).l1, x.dirty = 0

/-- Exactly the `n` bytes at `a` of HBM differ, and hold `v`. -/
def Stored (s t : State) (a n v : Nat) : Prop := BytesStored [0] (fun _ => a) n (fun _ => v) (byteGet s.mem.bytes) (byteGet t.mem.bytes)
/-- The state with the bytes of HBM of another: what a store is compared with. -/
def State.withBytes (s t : State) : State := { s with mem := { s.mem with bytes := t.mem.bytes } }
/-- A group of four registers. -/
def QuadOk (p : Pass) (i : Nat) : Prop := RegOk p i 4 ∧ i % 4 = 0
/-- A register pair. -/
def PairOk (p : Pass) (i : Nat) : Prop := RegOk p i 2 ∧ i % 2 = 0
/-- A switch point that gives each active lane 128 bits in four registers, and a bit of mask `sm`. -/
def QuadResult (s t : State) (p : Pass) (d sm : Nat) (n : Nat → Nat) (bad : Nat → Bool) : Prop :=
  OthersKept s t p ∧ ∃ k, t.sk? p.bid p.ix = some k ∧ RestKept p.switched k ∧ WentOn p k p.arm.ks
    ∧ (4 ≤ p.sk.win.allot → ∀ l ∈ p.lanes, ∀ i, i < 4 → k.v (d + i) l = BitVec.ofNat 32 (n l / 2 ^ (32 * i))) ∧ LanesKept p k d 4
    ∧ (∀ l ∈ p.lanes, (k.mask sm).getLsbD l = bad l)
    ∧ (∀ l, l < 16 → l ∉ p.lanes → (k.mask sm).getLsbD l = ((p.sk.mask sm).getLsbD l && (sm != 0 || !p.sk.r.exited.getLsbD l)))
    ∧ (∀ i, i ≠ sm → k.mask i = p.sk.mask i) ∧ k.r.latch = p.sk.dropLatches.r.latch ∧ k.r.status = p.sk.r.status
/-- No update to a line of a context stands combined in a tray switch. -/
def NoPartsOf (s : State) (c a : Nat) : Prop := ∀ e ∈ s.trays, ∀ q ∈ e.2.parts, q.ctx = c → State.lineVa q.va ≠ State.lineVa a
/-- The pool granule of a digest may be reached for reads or writes of swatch lines, by a cached leaf. -/
def PoolOk (s : State) (p : Pass) (digest : Nat) (write : Bool) (h : Home) : Prop :=
  NoPartsOf s p.ctx (s.poolVa p.ctx digest + State.poolSlot digest) ∧ s.mapOk p.ctx (s.poolVa p.ctx digest) = true ∧ (s.ctuFind p.ctx (s.poolVa p.ctx digest)).isSome = true
    ∧ (s.request p.ctx (s.poolVa p.ctx digest) (if write then .swWrite else .swRead)).2 = .ok h
/-- A name names the live line `y`. -/
def LineNamed (s : State) (p : Pass) (n : Nat) (write : Bool) (y : SwLine) : Prop :=
  n % 2 ^ 120 ≠ 0 ∧ ∃ h, PoolOk s p (n % 2 ^ 120) write h ∧ (s.chainOf h (n % 2 ^ 120)).find? (fun z => z.chain == n / 2 ^ 120 % 256) = some y
/-- Swatch instructions may run: the unit is present and the context has a pool. -/
def SwatchOk (s : State) (p : Pass) : Prop := bit1 s.feat 2 = true ∧ s.poolSize p.ctx ≠ 0
/-- A counter, ring or object that a register names, `n` bytes of it: in the block's window where bit 63 is set, else at its home. -/
def PlaceValue (s : State) (p : Pass) (c : W64) (n : Nat) (kind : Kind) (v : Nat) : Prop :=
  if c.getLsbD 63 then
    bitsOf c.toNat 62 20 = 0 ∧ c.toNat % n = 0 ∧ c.toNat % 2 ^ 20 + n ≤ p.blk.ps.size
      ∧ (∀ i, i < n → p.blk.ps.poison.contains ((c.toNat % 2 ^ 20 + i) / 8) = false) ∧ v = windowValue p.blk (c.toNat % 2 ^ 20) n
  else HomeValue s p c.toNat n kind v
/-- The issuer has parked with wait `w`. -/
def ParkedK (s t : State) (p : Pass) (w : Wait) : Prop :=
  if p.coach then
    t.mem.bytes = s.mem.bytes ∧ (∀ b, b ≠ p.bid → t.blk? b = s.blk? b) ∧ (∀ i, t.sk? p.bid i = s.sk? p.bid i)
      ∧ ∃ c, (t.blk? p.bid).bind (·.coach) = some c ∧ c.wait = some w ∧ c.off = p.co.off ∧ c.ks = p.co.ks
  else ParkedOn s t p w
/-- A pass of a skein or coach instance of a launch without determinism checks, with no store dropped. -/
def PlainK (s : State) (p : Pass) : Prop :=
  (LanePass s p ∨ CoachPass s p) ∧ s.isDet p = false ∧ (if p.coach then p.co.defer = none else p.sk.x.defer = none)

/-- A completion counter's operand is well-formed and names a place that exists (R348). -/
def CounterOk (s : State) (p : Pass) (c : W64) : Prop :=
  c.toNat % 4 = 0 ∧ if c.getLsbD 63 then bitsOf c.toNat 62 20 = 0 ∧ c.toNat % 2 ^ 20 + 4 ≤ p.blk.ps.size
    else noncanon c.toNat = false ∧ s.mapOk p.ctx c.toNat = true
/-- An engine command `m` has joined the pass's core's queue, as its block's next. -/
def Queued (s t : State) (p : Pass) (m : MCmd) : Prop :=
  (t.core p.core).mq = (s.core p.core).mq ++ [m] ∧ ∃ b, t.blk? p.bid = some b ∧ b.ncmd = p.blk.ncmd + 1 ∧ b.tiles = p.blk.tiles
/-- The command that the pass would queue. -/
def Pass.command (p : Pass) (kind tile slot fl : Nat) (span : Bool) (ka kb kc : W64) (table : List Nat) : MCmd :=
  { bid := p.bid, num := p.blk.ncmd % 2 ^ 16, kind := kind, tile := tile, slot := slot, fl := fl, span := span, who := p.ix, arm := p.ai,
    off := p.off, ka := ka, kb := kb, kc := kc, state := 0, prog := 0, table := table,
    seq := p.marks.fence, mine := p.marks.mine, det := none }
/-- The copy that the pass would start. -/
def Pass.copy (p : Pass) (ks kx kc : W64) (seq : Nat) : Copy :=
  { bid := p.bid, num := p.blk.ncopy % 2 ^ 32, ks := ks, kx := kx, kc := kc, who := p.ix, off := p.off, state := 0, prog := 0, seq := seq,
    abort := false, det := none }
/-- Lane registers re-laid under the allotment `n` (R78): logical contents unchanged, registers newly resident 0. -/
def Relaid (p : Pass) (k : Skein) (n : Nat) : Prop :=
  k.win = { p.sk.win with allot := n } ∧ k.r = { p.sk.dropLatches.r with planes := k.r.planes, lanes := k.r.lanes }
    ∧ ∀ i l, i < n → l < 16 → k.logical (p.sk.win.spill + i) l =
        if i < p.sk.win.allot then p.sk.logical (p.sk.win.spill + i) l else 0

/-! ### Relay commands and events -/

/-- The command of a host die is done, with status `st` (R317). -/
def State.ended (s : State) (pkg st : Nat) : State := s.modHost pkg fun h => { h with go := none, done := true, status := st }
/-- A host die takes commands: it has not failed and is not cut off (R318). -/
def HostActs (s : State) (pkg : Nat) : Prop := pkg ∉ s.relay.failed ∧ pkg ∉ s.relay.cutOff
/-- A host die executes the command `c` of operation `op`: well-formed, for a live context, its unit present. -/
def CommandOk (s : State) (pkg : Nat) (c : List Byte) (op : Nat) : Prop :=
  HostActs s pkg ∧ (s.host pkg).go = some c ∧ natAt c 0 1 = op ∧ cmdBad c = false ∧ (op = 5 ∨ op = 6 → bit1 s.feat 0 = true)
    ∧ ∃ x, s.ctx? (natAt c 2 2 % 4096) = some x ∧ x.dead = false ∧ x.fatal = none
/-- A VA range meets another. -/
def Meets (a n b k : Nat) : Prop := a < b + k ∧ b < a + n

/-- An address of a context has a home by a cached leaf, under its key, nothing in its line poisoned. -/
def HomeAt (s : State) (c a : Nat) (kind : Kind) (h : Home) : Prop :=
  noncanon a = false ∧ s.mapOk c a = true ∧ (s.ctuFind c a).isSome = true ∧ (s.request c a kind).2 = .ok h
    ∧ h.moved = false ∧ h.wild = false
    ∧ ∀ i, i < 4 → s.poisoned (h.addr / 128 * 4 + i) = false ∧ mapGetD s.mem.keyOf (h.addr / 128 * 4 + i) 0 = h.key
/-- The request `q` is the one of its identifier, not yet performed. -/
def ReqPending (s : State) (q : Req) : Prop := s.mem.reqs.find? (fun x => x.rid == q.rid) = some q ∧ q.state = 0
/-- The cores of some issuers hold no dirty copy of a line. -/
def IssuersClean (s : State) (froms : List Issuer) (c a : Nat) : Prop :=
  ∀ f ∈ froms, ∀ b l, s.blk? f.bid = some b → State.lineIn (s.core b.id.core).l1 c a = some l → l.dirty = 0
/-- The requests with the one of identifier `i` performed. -/
def performed (l : List Req) (i : Nat) : List Req := l.map fun x => if x.rid = i then { x with state := 1 } else x
/-- A posted write of `n` bytes of a package's PCIe function. -/
def postedReq (s : State) (c pkg va n val : Nat) : Req :=
  { rid := s.fresh.rid, ctx := c, kind := 1, va := va, n := n, data := BitVec.ofNat 64 (val % 256 ^ n), op := 0, pkg := pkg, froms := [],
    naks := 0, state := 0 }
/-- The update by which a partial of tray `tr` leaves for its home. -/
def partialReq (s : State) (tr : Nat) (y : Partial) : Req :=
  { rid := s.fresh.rid, ctx := y.ctx, kind := 3, va := y.va, n := atomBytes (atomFrom y.op), data := y.value, op := y.op, pkg := 4 * tr,
    froms := y.froms, naks := 0, state := 0 }
/-- Parts of the machine that an event of the memory side leaves alone: blocks, contexts' descriptors, cores' engines, hosts. -/
def BlocksKept (s t : State) : Prop := t.blocks = s.blocks ∧ t.hosts = s.hosts ∧ t.relay = s.relay ∧ t.time = s.time

/-- What a write of a host die's registers does (R244, R315, R317, R324); that CMD takes eight bytes at a time at 0x100 to 0x138 is the model's
choice (log 86). -/
def RegisterWrites (s : State) (pkg : Nat) : Prop :=
  ∀ off val : Nat,
    let w := Instr.registerWrite pkg off val
    (pkgThere pkg = false → exec w s = .next s) ∧ (pkgThere pkg = true →
    let relay := s.relay.primary = some pkg ∨ s.relay.standby = some pkg
    (∀ i, i < 8 → off = 0x100 + 8 * i → (s.host pkg).cmd.length = 64 → Runs s w fun t => ∃ l,
      t = (s.modHost pkg fun h => { h with cmd := l }) ∧ l.length = 64 ∧ natAt l (8 * i) 8 = val % 2 ^ 64
        ∧ ∀ j, j < 8 → j ≠ i → natAt l (8 * j) 8 = natAt (s.host pkg).cmd (8 * j) 8)
    ∧ (off = 0x140 → ((s.host pkg).done = true → val % 2 = 1 → exec w s =
          .next ((s.drainPosted pkg).modHost pkg fun h => { h with done := false, go := some h.cmd }))
        ∧ ((s.host pkg).done = false ∨ val % 2 = 0 → exec w s = .next s))
    ∧ (relay → (off = 0x000 → exec w s = .next { s with relay := { s.relay with base := val % 2 ^ 47 } })
        ∧ (off = 0x010 → exec w s = .next { s with relay := { s.relay with en := decide (val % 2 = 1) } })
        ∧ (off = 0x028 → exec w s = .next { s with relay := { s.relay with rerrq := val % 2 ^ 47 } }))
    ∧ (off < 2 ^ 32 → ¬relay → ¬(0x100 ≤ off ∧ off ≤ 0x140) → exec w s = .next s)
    ∧ (∀ unit n : Nat, off = 2 ^ 32 + 0x1000 * unit + 16 * n → unit < 48 * Config.dies s.variant → n < 16 →
        exec w s = .next { s with events := mapSet s.events (2 ^ 24 * pkg + (0x1000 * unit + 16 * n)) (BitVec.ofNat 64 (val % 2 ^ 22)) })
    ∧ (∀ unit n : Nat, off = 2 ^ 32 + 0x1000 * unit + 16 * n + 8 → unit < 48 * Config.dies s.variant → n < 16 →
        exec w s = .next { s with events := mapSet s.events (2 ^ 24 * pkg + (0x1000 * unit + 16 * n + 8)) (BitVec.ofNat 64 (val % 2 ^ 64)) }))
/-- A counter in a block's window, of value `v`. -/
def WindowCounter (b : Block) (kc : W64) (v : Nat) : Prop :=
  kc.getLsbD 63 = true ∧ kc.toNat % 2 ^ 20 + 4 ≤ b.ps.size ∧ Memory.wf b.ps.bytes = true ∧ b.ps.poison = []
    ∧ v = windowValue b (kc.toNat % 2 ^ 20) 4
/-- The counter after a command or copy: one more, or FAULT set (R210, R211). -/
def Counted (b : Block) (kc : W64) (v : Nat) (fault : Bool) : Prop :=
  windowValue b (kc.toNat % 2 ^ 20) 4 = if fault then v % 2 ^ 31 + 2 ^ 31 else v / 2 ^ 31 * 2 ^ 31 + (v + 1) % 2 ^ 31
/-- A fault or error record of a kind, with AUX and VA, stands last among those that leave. -/
def Recorded (s t : State) (c : Nat) (fault : Bool) (kind aux va : Nat) : Prop :=
  ∃ r, t.mem.recs = s.mem.recs ++ [r] ∧ r.ctx = some c ∧ r.fault = fault ∧ natAt r.bytes 0 1 = kind
    ∧ natAt r.bytes 36 4 = aux % 2 ^ 32 ∧ natAt r.bytes 40 8 = va % 2 ^ 64
/-- A skein in trap mode at offset `te`, with code, cause and AUX in its record. -/
def InTrap (k : Skein) (te code cause aux : Nat) : Prop :=
  k.frame ≠ none ∧ ∃ y w, k.arms = [y] ∧ y.path = some w ∧ w.off = te ∧ (mapGetD y.ks 1 0).toNat % 2 ^ 16 = code + 2 ^ 8 * cause
    ∧ (mapGetD y.ks 2 0).toNat / 2 ^ 32 = aux % 2 ^ 32
/-- A frame in slot `i` of a ring with its header, the slot full and the index moved on (R236, R321). -/
def Deposited (b : Block) (y : Binding) (i lam widx stamp : Nat) (f : List Byte) : Prop :=
  let a := y.slots + i * y.slotb
  byteGets b.ps.bytes (a + 16) f.length = f ∧ windowValue b a 2 = f.length % 2 ^ 16 ∧ windowValue b (a + 2) 1 = y.port % 2 ^ 8
    ∧ windowValue b (a + 3) 1 = 1 ∧ windowValue b (a + 4) 4 = y.count % 2 ^ 32 ∧ windowValue b (a + 8) 8 = stamp % 2 ^ 64
    ∧ windowValue b (y.rcb + 24) 4 = (widx + 1) % 2 ^ 32 ∧ bit1 (windowValue b y.rcb 8) i = decide (lam = 0)
/-- A binding's ring stands ready for a frame in slot `i`, which lies apart from the ring's control block. -/
def RingOk (b : Block) (y : Binding) (r : RingView) (i lam n : Nat) : Prop :=
  Memory.wf b.ps.bytes = true ∧ n + 16 ≤ y.slotb ∧ y.slots + (i + 1) * y.slotb ≤ b.ps.size ∧ i < 64 ∧ bit1 r.free i = decide (lam = 1)
    ∧ (y.slots + (i + 1) * y.slotb ≤ y.rcb ∨ y.rcb + 32 ≤ y.slots + i * y.slotb)

/-! ### Launches -/

/-- A table's keys rise. -/
def Sorted {α : Type} (m : NMap α) : Prop := m.Pairwise fun a b => a.1 < b.1
/-- The relay has taken one packet. -/
def Advanced (s t : State) : Prop := t.relay.head = (s.relay.head + 1) % 2 ^ 32
/-- A completion record as a number: its fields at the places of R248, DONE 1. -/
def completionValue (status detail seq accept first end_ retired : Nat) : Nat :=
  status % 2 ^ 8 + 2 ^ 16 * (detail % 2 ^ 16) + 2 ^ 64 * (seq % 2 ^ 64) + 2 ^ 128 * (accept % 2 ^ 64) + 2 ^ 192 * (first % 2 ^ 64)
    + 2 ^ 256 * (end_ % 2 ^ 64) + 2 ^ 320 * (retired % 2 ^ 64) + 2 ^ 448
/-- The record stands where context `c` asked for it, and no other byte of HBM differs. -/
def Completed (s t : State) (c va v : Nat) : Prop :=
  ∀ h : Home, MemoryOk s → HomeAt s c va .write h → NoPartsOf s c va → va % 64 = 0 → Stored s t h.addr 64 v
/-- The contexts are the same but for the counts of bytes stored in them. -/
def CtxsKept (s t : State) : Prop :=
  let plain (x : Ctx) : Ctx := { x with stores := 0, stored := [] }
  ∀ c, (t.ctx? c).map plain = (s.ctx? c).map plain
/-- A packet is refused: no launch, context or block differs, and its record carries status and DETAIL. -/
def Refused (s t : State) (p : List Byte) (status detail : Nat) : Prop :=
  Advanced s t ∧ t.launches = s.launches ∧ CtxsKept s t ∧ t.blocks = s.blocks
    ∧ Completed s t (natAt p 4 2 % 4096) (natAt p 80 8)
        (completionValue status detail (2 ^ 48 - 1) s.time.ns 0 (if natAt p 0 1 = 3 ∨ natAt p 0 1 = 4 then s.time.ns else 0) 0)
/-- Index `n` stands unplaced in a launch's shares. -/
def Unplaced (l : Launch) (n : Nat) : Prop := ∃ sh ∈ l.shares, sh.lo ≤ n ∧ n < sh.lo + sh.count
/-- Names of blocks made so far lie below the next one. -/
def BlocksBelow (s : State) : Prop := Sorted s.blocks ∧ ∀ e ∈ s.blocks, e.1 < s.fresh.bid ∧ e.2.id.bid = e.1
/-- Block `b` of a launch placed on core `g` under the name `n` (R30, R41, R92, R249, R258). -/
def Placed (s t : State) (l : Launch) (x : Ctx) (n b g span : Nat) (partner : Option Nat) : Prop :=
  ∃ k : Block, t.blk? n = some k
    ∧ k.id = { bid := n, lid := l.lid, ctx := l.ctx, seq := l.seq, idx := b, key := l.keyOf b, core := g, span := span, partner := partner }
    ∧ k.placed = s.time.ns ∧ k.held = decide (s.time.ns < l.start) ∧ k.ntiles = l.tiles ∧ k.tiles = [] ∧ k.evicted = 0 ∧ k.dq = [] ∧ k.bars = []
    ∧ k.ps.size = l.scratch ∧ k.ps.bytes = [] ∧ k.ps.poison = [] ∧ k.ncmd = 0 ∧ k.ncopy = 0
    ∧ k.skeins.length = l.skeins ∧ (k.skeins.map fun y => y.x.region).Nodup
    ∧ (∀ i y, k.skeins[i]? = some y → ∃ m, m ∉ x.regions ∧ y.x.region = x.d.spillb + 65536 * m ∧ y.idx = i ∧ y.role = l.roleOf i
        ∧ y.win = { allot := l.regs, reach := l.reach, base := 64 * l.roleOf i, spill := 64 * l.roleOf i } ∧ y.life = .live ∧ y.frame = none
        ∧ (∀ j f, y.logical j f = 0) ∧ y.mask 0 = 0xFFFF ∧ (∀ j, 0 < j → y.mask j = 0) ∧ y.r.latch.valid = 0 ∧ y.r.status = 0 ∧ y.r.exited = 0
        ∧ ∃ a, y.arms = [a]
          ∧ a.path = some { off := l.entryOf (l.roleOf i), lanes := 0xFFFF, base := 64 * l.roleOf i, last := l.entryOf (l.roleOf i) }
          ∧ ∀ j, mapGetD a.ks j 0 = if j = 0 then BitVec.ofNat 64 l.args else 0)
    ∧ (if l.hasCoach then ∃ c, k.coach = some c ∧ c.off = l.coachAt ∧ c.ended = false
          ∧ ∀ j, mapGetD c.ks j 0 = if j = 0 then BitVec.ofNat 64 l.args else 0
       else k.coach = none)
/-- No line of a core's L1 is dirty. -/
def CleanCore (s : State) (g : Nat) : Prop := ∀ x ∈ (s.core g).l1, x.dirty = 0

/-! ### Code and turns -/

/-- `n` bytes of code at a VA of context `c` stand in core `g`'s instruction cache, with the value `v`. -/
def CachedCode (s : State) (g c a n v : Nat) : Prop :=
  noncanon a = false ∧ s.mapOk c a = true ∧ s.unsure c a = false ∧ ∃ l, State.lineIn (s.core g).icache c a = some l
    ∧ l.data.toNat / 2 ^ (8 * (a % 128)) % 2 ^ (8 * n) = v
/-- The boundary-map bit of offset `o`, as core `g` holds the map (R51). -/
def CachedMap (s : State) (g c : Nat) (d : Code) (o : Nat) (v : Bool) : Prop :=
  ∃ n, CachedCode s g c (d.base + d.n * d.stride + o / 16) 1 n ∧ v = bit1 n (o / 2 % 8)
/-- The word `w` stands at offset `o` of plane `q`, aligned as R52 asks, in core `g`'s instruction cache. -/
def WordAt (s : State) (g c : Nat) (d : Code) (q o w : Nat) : Prop :=
  let a := d.base + q * d.stride + o
  o % 2 = 0 ∧ a % 2 = 0 ∧ o < d.len ∧ w < 2 ^ 32 ∧ CachedMap s g c d o true ∧ CachedCode s g c a 2 (w % 65536)
    ∧ (w % 2 = 0 → w < 65536 ∧ (o + 2 = d.len ∨ CachedMap s g c d (o + 2) true))
    ∧ (w % 2 = 1 → o + 4 ≤ d.len ∧ CachedMap s g c d (o + 2) false ∧ CachedCode s g c (a + 2) 2 (w / 65536))
/-- An arm between two instructions: no wait, no hold, no issue open, nothing to repeat. -/
def IdleArm (x : Arm) : Prop :=
  x.wait = none ∧ x.hold = none ∧ x.issue = none ∧ x.again = none ∧ x.complete = false ∧ x.sw = false ∧ x.lb = none
/-- The sole arm of a skein stands at an offset ready to issue: no wait, no issue open, nothing held, no rejoin reached. -/
structure AtIssue (b : Block) (k : Skein) (x : Arm) (q : Path) : Prop where
  arms : k.arms = [x]
  path : x.path = some q
  life : k.life = .live
  plain : k.frame = none ∧ k.x.pend = [] ∧ k.arrive 0 = none
  arm : IdleArm x
  base : q.base = k.win.base ∧ q.mis = false

/-! ### What an instruction gives, by the number of its sources -/

/-- A uniform result, of a skein or of a coach instance. -/
def GivesK (s : State) (p : Pass) (kd : Nat) (i : Instr) (v : W64) : Prop :=
  Runs s i fun t => if p.coach then CoachResult s t p kd v else UniformResult s t p kd v 0

/-- A word `f` of one, two or three 32-bit sources in each lane, no sticky bit set. -/
def Gives1 (s : State) (p : Pass) (d : Nat) (k : Bool) (a : Src) (i : Instr) (f : W32 → W32) : Prop :=
  Runs s i fun t => LaneResult s t p d k (fun l => f (p.val32 a l)) 0
def Gives2 (s : State) (p : Pass) (d : Nat) (k : Bool) (a b : Src) (i : Instr) (f : W32 → W32 → W32) : Prop :=
  Runs s i fun t => LaneResult s t p d k (fun l => f (p.val32 a l) (p.val32 b l)) 0
def Gives3 (s : State) (p : Pass) (d : Nat) (k : Bool) (a b c : Src) (i : Instr) (f : W32 → W32 → W32 → W32) : Prop :=
  Runs s i fun t => LaneResult s t p d k (fun l => f (p.val32 a l) (p.val32 b l) (p.val32 c l)) 0
/-- The same with sticky bits, ORed over the active lanes (R146). -/
def GivesF1 (s : State) (p : Pass) (d : Nat) (k : Bool) (a : Src) (i : Instr) (f : W32 → W32 × BitVec 7) : Prop :=
  Runs s i fun t => LaneResult s t p d k (fun l => (f (p.val32 a l)).1) (flagsOf p.lanes fun l => (f (p.val32 a l)).2)
def GivesF2 (s : State) (p : Pass) (d : Nat) (k : Bool) (a b : Src) (i : Instr) (f : W32 → W32 → W32 × BitVec 7) : Prop :=
  Runs s i fun t => LaneResult s t p d k (fun l => (f (p.val32 a l) (p.val32 b l)).1)
    (flagsOf p.lanes fun l => (f (p.val32 a l) (p.val32 b l)).2)
def GivesF3 (s : State) (p : Pass) (d : Nat) (k : Bool) (a b c : Src) (i : Instr) (f : W32 → W32 → W32 → W32 × BitVec 7) : Prop :=
  Runs s i fun t => LaneResult s t p d k (fun l => (f (p.val32 a l) (p.val32 b l) (p.val32 c l)).1)
    (flagsOf p.lanes fun l => (f (p.val32 a l) (p.val32 b l) (p.val32 c l)).2)

end Sys2Proof.Machine
end

