-- ==== Sys2Proof/Certificates/Slice0/Obligations.lean ====
section
/-! DEFINITION. The statements for the provers: one `def Obligations.<Name> : Prop` each, listed in OBLIGATIONS.json. -/

open Sys2Proof Sys2Proof.Machine

/-! ### Lane arithmetic -/

/-- R112, R354, R388, R414, R423: what the two-source integer instructions of the long form compute. -/
def Obligations.IntegerTwoSource : Prop :=
  ∀ (s : State) (p : Pass) (d : Nat) (k : Bool) (a b : Src), LanePass s p → Fields p k d 1 [(a, 1), (b, 1)] →
    Gives2 s p d k a b (.iadd d k a b) (fun x y => BitVec.ofNat 32 (x.toNat + y.toNat))
    ∧ Gives2 s p d k a b (.isub d k a b) (fun x y => BitVec.ofInt 32 ((x.toNat : Int) - y.toNat))
    ∧ Gives2 s p d k a b (.imul d k a b) (fun x y => BitVec.ofNat 32 (x.toNat * y.toNat))
    ∧ Gives2 s p d k a b (.imulh d k a b) (fun x y => BitVec.ofInt 32 (x.toInt * y.toInt / 2 ^ 32))
    ∧ Gives2 s p d k a b (.imulhZ d k a b) (fun x y => BitVec.ofNat 32 (x.toNat * y.toNat / 2 ^ 32))
    ∧ Gives2 s p d k a b (.imin d k a b) (fun x y => BitVec.ofInt 32 (min x.toInt y.toInt))
    ∧ Gives2 s p d k a b (.iminZ d k a b) (fun x y => BitVec.ofNat 32 (min x.toNat y.toNat))
    ∧ Gives2 s p d k a b (.imax d k a b) (fun x y => BitVec.ofInt 32 (max x.toInt y.toInt))
    ∧ Gives2 s p d k a b (.imaxZ d k a b) (fun x y => BitVec.ofNat 32 (max x.toNat y.toNat))
    ∧ Gives2 s p d k a b (.land d k a b) (fun x y => x &&& y)
    ∧ Gives2 s p d k a b (.lor d k a b) (fun x y => x ||| y)
    ∧ Gives2 s p d k a b (.lxor d k a b) (fun x y => x ^^^ y)
    ∧ Gives2 s p d k a b (.shl d k a b) (fun x y => BitVec.ofNat 32 (x.toNat * 2 ^ (y.toNat % 32)))
    ∧ Gives2 s p d k a b (.shr d k a b) (fun x y => BitVec.ofNat 32 (x.toNat / 2 ^ (y.toNat % 32)))
    ∧ Gives2 s p d k a b (.sar d k a b) (fun x y => BitVec.ofInt 32 (x.toInt / 2 ^ (y.toNat % 32)))

/-- R363, R376, R387, R407, R412: the one-source instructions that set no flag. -/
def Obligations.OneSource : Prop :=
  ∀ (s : State) (p : Pass) (d : Nat) (k : Bool) (a : Src), LanePass s p → Fields p k d 1 [(a, 1)] →
    Gives1 s p d k a (.mov d k a) (fun x => x)
    ∧ Gives1 s p d k a (.lnot d k a) (fun x => BitVec.ofNat 32 (0xFFFFFFFF - x.toNat))
    ∧ Gives1 s p d k a (.ineg d k a) (fun x => BitVec.ofInt 32 (0 - x.toInt))
    ∧ Gives1 s p d k a (.iabs d k a) (fun x => BitVec.ofNat 32 x.toInt.natAbs)
    ∧ Gives1 s p d k a (.clz d k a) (fun x => BitVec.ofNat 32 (if x.toNat = 0 then 32 else 31 - Nat.log2 x.toNat))
    ∧ Gives1 s p d k a (.popc d k a) (fun x => BitVec.ofNat 32 ((List.range 32).countP fun n => x.getLsbD n))
    ∧ Gives1 s p d k a (.brev d k a) (fun x => laneWord fun n => x.getLsbD (31 - n))
    ∧ Gives1 s p d k a (.fabs d k a) (fun x => laneWord fun n => decide (n < 31) && x.getLsbD n)
    ∧ Gives1 s p d k a (.fneg d k a) (fun x => laneWord fun n => x.getLsbD n != decide (n = 31))

/-- R389: the sum with the carry of `m7`, and the carry out into `m7`. -/
def Obligations.AddWithCarry : Prop :=
  ∀ (s : State) (p : Pass) (d : Nat) (k : Bool) (a b : Src), LanePass s p → Fields p k d 1 [(a, 1), (b, 1)] →
    let sum (l : Nat) : Nat := (p.val32 a l).toNat + (p.val32 b l).toNat + ((p.sk.mask 7).getLsbD l).toNat
    Runs s (.iaddc d k a b) fun t =>
      CarryResult s t p d k (fun l => BitVec.ofNat 32 (sum l)) (fun l => decide (2 ^ 32 ≤ sum l))

/-- R358, R391: the third source of format F; `BFI`, and `IMAD`. -/
def Obligations.IntegerThreeSource : Prop :=
  ∀ (s : State) (p : Pass) (d : Nat) (k : Bool) (a b : Src) (c : Nat), LanePass s p →
    Fields p k d 1 [(a, 1), (b, 1), (thirdSrc d c, 1)] →
    Gives3 s p d k a b (thirdSrc d c) (.imad d k a b c) (fun x y z => BitVec.ofInt 32 (x.toInt * y.toInt + z.toInt))
    ∧ Gives3 s p d k a b (thirdSrc d c) (.bfi d k a b c) (fun x y z =>
        let q := y.toNat % 32
        let w := y.toNat / 256 % 32
        laneWord fun n => if q ≤ n ∧ n < q + w then x.getLsbD (n - q) else z.getLsbD n)

/-- R358, R402, R408, R424: field extraction, address arithmetic, immediates and selection. -/
def Obligations.FieldsAddressesImmediates : Prop :=
  ∀ (s : State) (p : Pass) (d : Nat) (k : Bool) (a b : Src), LanePass s p →
    (Fields p k d 1 [(a, 1), (b, 1)] → ∀ sx : Bool, Runs s (.bfx d k a b sx) fun t =>
      LaneResult s t p d k (fun l =>
        let x := p.val32 a l
        let q := (p.val32 b l).toNat % 32
        let w := (p.val32 b l).toNat / 256 % 32
        let h := min (q + w - 1) 31
        laneWord fun n => decide (w ≠ 0) && if q + n ≤ h then x.getLsbD (q + n) else sx && x.getLsbD h) 0)
    ∧ (Fields p k d 1 [(a, 1), (b, 1)] → ∀ c : Nat, Runs s (.sel d k a b c) fun t =>
      LaneResult s t p d k (fun l => if (p.sk.mask c).getLsbD l then p.val32 a l else p.val32 b l) 0)
    ∧ (PairFields p k d [(a, 2), (b, 1)] → ∀ sh : Nat, Runs s (.lea d k a b sh) fun t =>
      PairResult s t p d k (fun l => BitVec.ofNat 64 ((p.val64 a l).toNat + (p.val32 b l).toNat * 2 ^ sh)) 0)
    ∧ (Fields p k d 1 [] → ∀ imm : Nat, imm < 2 ^ 16 → Runs s (.movi d k imm) fun t =>
      LaneResult s t p d k (fun _ => BitVec.ofInt 32 (if imm < 2 ^ 15 then imm else (imm : Int) - 2 ^ 16)) 0)
    ∧ (p.em = 0 ∨ RegOk p d 1 → ∀ imm : Nat, imm < 2 ^ 16 → Runs s (.movh d k imm) fun t =>
      LaneResult s t p d k (fun l => BitVec.ofNat 32 (imm * 2 ^ 16 + (p.sk.v d l).toNat % 2 ^ 16)) 0)

/-- R109, R379, R390: the comparisons write the bits of the active lanes of a mask. -/
def Obligations.Comparisons : Prop :=
  ∀ (s : State) (p : Pass) (d : Nat) (a b : Src), LanePass s p → Fields p false 0 0 [(a, 1), (b, 1)] →
    (∀ c : ICond, Runs s (.icmp d a b c) fun t => MaskResult s t p d p.act (laneSet fun l => condHolds c (p.val32 a l) (p.val32 b l)) 0)
    ∧ ∀ c : FCond, Runs s (.fcmp d a b c) fun t =>
      let r (l : Nat) : Bool × BitVec 7 := fcondOf c (p.val32 a l).toNat (p.val32 b l).toNat
      MaskResult s t p d p.act (laneSet fun l => (r l).1) (flagsOf p.lanes fun l => (r l).2)

/-- R113, R146, R147, R377, R378, R382, R383, R386: the binary32 and binary16 instructions, by the named operations of the model. -/
def Obligations.FloatOperations : Prop :=
  ∀ (s : State) (p : Pass) (d : Nat) (k : Bool) (a b : Src), LanePass s p →
    (Fields p k d 1 [(a, 1)] →
      Gives1 s p d k a (.fclass d k a) fclassOf ∧ GivesF1 s p d k a (.fsqrt d k a) (fun x => w32 (fmt32.sqrt x.toNat)))
    ∧ (Fields p k d 1 [(a, 1), (b, 1)] →
      (∀ rm : Rm, GivesF2 s p d k a b (.fadd d k a b rm) (fadd32 rm) ∧ GivesF2 s p d k a b (.fsub d k a b rm) (fsub32 rm)
        ∧ GivesF2 s p d k a b (.fmul d k a b rm) (fmul32 rm))
      ∧ GivesF2 s p d k a b (.fmin d k a b) (fminmax false) ∧ GivesF2 s p d k a b (.fmax d k a b) (fminmax true)
      ∧ GivesF2 s p d k a b (.hadd2 d k a b) hadd2Of)
    ∧ ∀ c : Nat, Fields p k d 1 [(a, 1), (b, 1), (thirdSrc d c, 1)] →
      GivesF3 s p d k a b (thirdSrc d c) (.ffma d k a b c) ffma32
      ∧ GivesF3 s p d k a b (thirdSrc d c) (.hfma2 d k a b c) hfma2Of

/-- R108: a magnitude rounded to a multiple of 2^u: `q` multiples of `e`, `x` the inexact flag. -/
def Obligations.RoundingModes : Prop :=
  ∀ (rm : Rm) (neg : Bool) (man : Nat) (exp u : Int), exp < u →
    let e : Nat := 2 ^ (u - exp).toNat
    let q := (roundTo rm neg man exp u).1
    ((roundTo rm neg man exp u).2 = true ↔ man % e ≠ 0)
    ∧ (man % e = 0 → q * e = man)
    ∧ match rm with
      | .rtz => q * e ≤ man ∧ man < q * e + e
      | .rup => if neg then q * e ≤ man ∧ man < q * e + e else man ≤ q * e ∧ q * e < man + e
      | .rdn => if neg then man ≤ q * e ∧ q * e < man + e else q * e ≤ man ∧ man < q * e + e
      | .rne => 2 * man ≤ 2 * (q * e) + e ∧ 2 * (q * e) ≤ 2 * man + e
          ∧ (2 * man = 2 * (q * e) + e ∨ 2 * (q * e) = 2 * man + e → q % 2 = 0)
      | .rna => 2 * man < 2 * (q * e) + e ∧ 2 * (q * e) ≤ 2 * man + e

/-- R135, R146, R377, R378, R379, R383: NaN operands, the sign of an exact zero, the class mask, and minimum and maximum. -/
def Obligations.FloatSpecialValues : Prop :=
  (∀ (rm : Rm) (x y : W32), isNan (fmt32.val x.toNat) = true ∨ isNan (fmt32.val y.toNat) = true →
    let nv := flagIf (isSig (fmt32.val x.toNat) || isSig (fmt32.val y.toNat)) stNV
    fadd32 rm x y = (0x7FC00000#32, nv) ∧ fsub32 rm x y = (0x7FC00000#32, nv) ∧ fmul32 rm x y = (0x7FC00000#32, nv)
    ∧ (∀ c : FCond, (fcondOf c x.toNat y.toNat).1 = (c == .ne || c == .un))
    ∧ (fcondOf .lt x.toNat y.toNat).2 = stNV ∧ (fcondOf .le x.toNat y.toNat).2 = stNV ∧ (fcondOf .gt x.toNat y.toNat).2 = stNV
    ∧ (fcondOf .ge x.toNat y.toNat).2 = stNV ∧ (fcondOf .eq x.toNat y.toNat).2 = nv ∧ (fcondOf .ne x.toNat y.toNat).2 = nv
    ∧ (fcondOf .un x.toNat y.toNat).2 = nv ∧ (fcondOf .ord x.toNat y.toNat).2 = nv
    ∧ ∀ m : Bool, fminmax m x y =
        (if isNan (fmt32.val x.toNat) && isNan (fmt32.val y.toNat) then 0x7FC00000#32
         else if isNan (fmt32.val x.toNat) then y else x, nv))
  ∧ (∀ (rm : Rm) (x : W32), isNan (fmt32.val x.toNat) = false → fmt32.val x.toNat ≠ .inf true → fmt32.val x.toNat ≠ .inf false →
    fsub32 rm x x = (if rm = .rdn then 0x80000000#32 else 0#32, 0))
  ∧ ∀ x : W32, ∃ i, i < 10 ∧ fclassOf x = 1#32 <<< i

/-- R149, R380: the special cases of the transcendental instructions, and that no lane's result depends on anything but its operand. -/
def Obligations.Transcendental : Prop :=
  (∀ (s : State) (p : Pass) (d : Nat) (k : Bool) (a : Src), LanePass s p → Fields p k d 1 [(a, 1)] →
    GivesF1 s p d k a (.frcp d k a) frcp32 ∧ GivesF1 s p d k a (.frsq d k a) frsq32 ∧ GivesF1 s p d k a (.fexp2 d k a) fexp232
    ∧ GivesF1 s p d k a (.flog2 d k a) flog232 ∧ GivesF1 s p d k a (.fsin d k a) fsin32 ∧ GivesF1 s p d k a (.fcos d k a) fcos32)
  ∧ (∀ (f : W32 → W32 × BitVec 7) (x : W32) (g : Bool), f ∈ [frcp32, frsq32, fexp232, flog232, fsin32, fcos32] →
      fmt32.val x.toNat = .nan g → f x = (0x7FC00000#32, flagIf g stNV))
  ∧ frcp32 0x00000000 = (0x7F800000#32, stDZ) ∧ frcp32 0x80000000 = (0xFF800000#32, stDZ)
  ∧ frcp32 0x7F800000 = (0x00000000#32, 0) ∧ frcp32 0xFF800000 = (0x80000000#32, 0)
  ∧ frsq32 0x00000000 = (0x7F800000#32, stDZ) ∧ frsq32 0x80000000 = (0xFF800000#32, stDZ) ∧ frsq32 0x7F800000 = (0#32, 0)
  ∧ fexp232 0xFF800000 = (0#32, 0) ∧ fexp232 0x7F800000 = (0x7F800000#32, 0) ∧ fexp232 0x43000000 = (0x7F800000#32, stOF)
  ∧ fexp232 0xC3160000 = (0#32, stUF) ∧ fexp232 0x3F800000 = (0x40000000#32, 0)
  ∧ flog232 0x00000000 = (0xFF800000#32, stDZ) ∧ flog232 0x80000000 = (0xFF800000#32, stDZ)
  ∧ flog232 0x7F800000 = (0x7F800000#32, 0) ∧ flog232 0x3F800000 = (0#32, 0) ∧ flog232 0x41000000 = (0x40400000#32, 0)
  ∧ fsin32 0x7F800000 = (0x7FC00000#32, stNV) ∧ fcos32 0xFF800000 = (0x7FC00000#32, stNV)
  ∧ fsin32 0x00000000 = (0x00000000#32, 0) ∧ fsin32 0x80000000 = (0x80000000#32, 0)
  ∧ fcos32 0x00000000 = (0x3F800000#32, 0) ∧ fcos32 0x80000000 = (0x3F800000#32, 0)

/-- R368, R369, R371: binary64 on register pairs. -/
def Obligations.FloatDouble : Prop :=
  ∀ (s : State) (p : Pass) (d : Nat) (k : Bool) (a b : Src), LanePass s p →
    (PairFields p k d [(a, 2), (b, 2)] → ∀ rm : Rm,
      (Runs s (.dadd d k a b rm) fun t => PairResult s t p d k (fun l => (dadd64 rm (p.val64 a l) (p.val64 b l)).1)
        (flagsOf p.lanes fun l => (dadd64 rm (p.val64 a l) (p.val64 b l)).2))
      ∧ Runs s (.dmul d k a b rm) fun t => PairResult s t p d k (fun l => (dmul64 rm (p.val64 a l) (p.val64 b l)).1)
        (flagsOf p.lanes fun l => (dmul64 rm (p.val64 a l) (p.val64 b l)).2))
    ∧ ∀ c : Nat, PairFields p k d [(a, 2), (b, 2), (thirdSrc d c, 2)] →
      Runs s (.dfma d k a b c) fun t =>
        PairResult s t p d k (fun l => (dfma64 (p.val64 a l) (p.val64 b l) (p.val64 (thirdSrc d c) l)).1)
          (flagsOf p.lanes fun l => (dfma64 (p.val64 a l) (p.val64 b l) (p.val64 (thirdSrc d c) l)).2)

/-- R110, R148, R366: conversion, with the placement of narrow results and the values between integer types. -/
def Obligations.Conversion : Prop :=
  (∀ (s : State) (p : Pass) (d : Nat) (k : Bool) (a : Src) (dt st : CvtTy) (rm : Rm), LanePass s p → dt ≠ st →
    (p.em = 0 ∨ (DestOk p k d (if wideTy dt then 2 else 1) ∧ SrcOk p a (if wideTy st then 2 else 1)
      ∧ (wideTy dt = true → k = true ∨ d % 2 = 0) ∧ (wideTy st = true → SrcEven a))) →
    ∀ sat : Bool, Runs s (if sat then .cvtSat d k a dt st rm else .cvt d k a dt st rm) fun t =>
      let x (l : Nat) : W64 := if wideTy st then p.val64 a l else (p.val32 a l).setWidth 64
      let r (l : Nat) : W64 × BitVec 7 := cvtOf sat dt st rm (x l)
      if wideTy dt then PairResult s t p d k (fun l => (r l).1) (flagsOf p.lanes fun l => (r l).2)
      else LaneResult s t p d k (fun l => (r l).1.setWidth 32) (flagsOf p.lanes fun l => (r l).2))
  ∧ (∀ (sat : Bool) (dt st : CvtTy) (rm : Rm) (x : W64) (f : Fmt) (w : Nat) (sg g : Bool),
      cvtKind st = .flt f → cvtKind dt = .int w sg → f.val (x.toNat % 2 ^ f.width) = .nan g → cvtOf sat dt st rm x = (0, stNV))
  ∧ ∀ (dt st : CvtTy) (rm : Rm) (x : W64) (w w' : Nat) (sg sg' : Bool), cvtKind st = .int w sg → cvtKind dt = .int w' sg' →
      let v : Int := if sg then (x.setWidth w).toInt else (x.setWidth w).toNat
      (cvtOf false dt st rm x).1.setWidth w' = BitVec.ofInt w' v
      ∧ (cvtOf true dt st rm x).1 =
          BitVec.ofInt 64 (max (if sg' then -2 ^ (w' - 1) else 0) (min v (if sg' then 2 ^ (w' - 1) - 1 else 2 ^ w' - 1)))

/-- R98, R99, R100: each 16-bit instruction is the 32-bit one of the table. -/
def Obligations.ShortForms : Prop :=
  ∀ (s : State) (p : Pass) (d : Nat) (x : Src), LanePass s p →
    (Fields p false d 1 [(x, 1)] → Gives1 s p d false x (.mov16 d x) fun w => w)
    ∧ (Fields p false d 1 [(.v d, 1), (x, 1)] →
      Gives2 s p d false (.v d) x (.iadd16 d x) (fun u w => BitVec.ofNat 32 (u.toNat + w.toNat))
      ∧ Gives2 s p d false (.v d) x (.isub16 d x) (fun u w => BitVec.ofInt 32 ((u.toNat : Int) - w.toNat))
      ∧ Gives2 s p d false (.v d) x (.and16 d x) (fun u w => u &&& w)
      ∧ Gives2 s p d false (.v d) x (.or16 d x) (fun u w => u ||| w)
      ∧ Gives2 s p d false (.v d) x (.xor16 d x) (fun u w => u ^^^ w)
      ∧ Gives2 s p d false (.v d) x (.shl16 d x) (fun u w => BitVec.ofNat 32 (u.toNat * 2 ^ (w.toNat % 32)))
      ∧ Gives2 s p d false (.v d) x (.shr16 d x) (fun u w => BitVec.ofNat 32 (u.toNat / 2 ^ (w.toNat % 32)))
      ∧ GivesF2 s p d false (.v d) x (.fadd16 d x) (fadd32 .rne) ∧ GivesF2 s p d false (.v d) x (.fsub16 d x) (fsub32 .rne)
      ∧ GivesF2 s p d false (.v d) x (.fmul16 d x) (fmul32 .rne))
    ∧ (Fields p false d 1 [(.b 0, 1), (x, 1), (.v d, 1)] →
      GivesF3 s p d false (.b 0) x (.v d) (.ffma16 d x) ffma32
      ∧ Gives3 s p d false (.b 0) x (.v d) (.imad16 d x) (fun u w z => BitVec.ofInt 32 (u.toInt * w.toInt + z.toInt)))
    ∧ (Fields p false d 1 [(x, 1), (.v d, 1)] → Runs s (.sel16 d x) fun t =>
      LaneResult s t p d false (fun l => if (p.sk.mask 1).getLsbD l then p.val32 x l else p.sk.v d l) 0)
    ∧ (PairFields p false d [(.v d, 2), (x, 1)] → Runs s (.lea16 d x) fun t =>
      PairResult s t p d false (fun l => BitVec.ofNat 64 ((p.sk.vpair d l).toNat + (p.val32 x l).toNat * 4)) 0)
    ∧ (Fields p false d 1 [] → ∀ imm : Nat, imm < 32 → Runs s (.movi16 d imm) fun t =>
      LaneResult s t p d false (fun _ => BitVec.ofInt 32 (if imm < 16 then imm else (imm : Int) - 32)) 0)
    ∧ Runs s .nop16 fun t => NoResult s t p

/-! ### Moves, masks, planes and lanes of one another -/

/-- R394, R415: moves between lanes, uniform registers and planes. -/
def Obligations.Moves : Prop :=
  ∀ (s : State) (p : Pass), LanePass s p →
    (∀ (d : Nat) (k : Bool), Fields p k d 1 [] →
      (∀ ka : Nat, Runs s (.k2v d k ka) fun t => LaneResult s t p d k (fun _ => BitVec.ofNat 32 (p.k ka).toNat) 0)
      ∧ (Runs s (.pget d k) fun t => LaneResult s t p d k (fun l => BitVec.ofNat 32 (p.sk.plane l)) 0)
      ∧ ∀ ma : Nat, Runs s (.mmovVM d k ma) fun t =>
        LaneResult s t p d k (fun l => BitVec.ofNat 32 ((p.sk.mask ma).getLsbD l).toNat) 0)
    ∧ (∀ (kd : Nat) (a : Src), Fields p false 0 0 [(a, 1)] → Runs s (.v2k kd a) fun t =>
      if p.gatherEnds && p.gathered != 0 then
        ∃ l, p.gathered.getLsbD l = true ∧ (∀ m, m < l → p.gathered.getLsbD m = false)
          ∧ UniformResult s t p kd (BitVec.ofNat 64 (p.val32 a l).toNat) 0
      else NoResult s t p)
    ∧ (∀ n : Nat, n < planesOf s p → Runs s (.psetImm n) fun t => PlaneResult s t p fun _ => n)
    ∧ ∀ a : Src, Fields p false 0 0 [(a, 1)] → (∀ l ∈ p.lanes, (p.val32 a l).toNat % 4 < planesOf s p) →
      Runs s (.pset a) fun t => PlaneResult s t p fun l => (p.val32 a l).toNat % 4

/-- R403, R406: mask registers. -/
def Obligations.Masks : Prop :=
  ∀ (s : State) (p : Pass), LanePass s p →
    (∀ md ma : Nat, Runs s (.mmovMM md ma) fun t => MaskResult s t p md p.act (p.sk.mask ma) 0)
    ∧ (∀ (md : Nat) (a : Src), Fields p false 0 0 [(a, 1)] → Runs s (.mmovMV md a) fun t =>
      MaskResult s t p md p.act (laneSet fun l => decide ((p.val32 a l).toNat ≠ 0)) 0)
    ∧ (∀ md ka : Nat, Runs s (.mmovMK md ka) fun t => MaskResult s t p md p.act (BitVec.ofNat 16 (p.k ka).toNat) 0)
    ∧ (∀ kd ma : Nat, Runs s (.mmovKM kd ma) fun t =>
      if p.em = 0 then NoResult s t p else UniformResult s t p kd (BitVec.ofNat 64 (p.sk.mask ma).toNat) 0)
    ∧ ∀ md ma mb : Nat,
      let gives (i : Instr) (f : Bool → Bool → Bool) : Prop := Runs s i fun t =>
        MaskResult s t p md p.act (laneSet fun l => f ((p.sk.mask ma).getLsbD l) ((p.sk.mask mb).getLsbD l)) 0
      gives (.mlogAnd md ma mb) (fun x y => x && y) ∧ gives (.mlogOr md ma mb) (fun x y => x || y)
      ∧ gives (.mlogXor md ma mb) (fun x y => x != y) ∧ gives (.mlogAndn md ma mb) (fun x y => x && !y)

/-- R115, R417, R425: which lane each lane reads. -/
def Obligations.Shuffles : Prop :=
  ∀ (s : State) (p : Pass) (d : Nat) (k : Bool) (a b : Src), LanePass s p →
    (Fields p k d 1 [(a, 1), (b, 1)] → ∀ mode : Nat, mode < 4 → Runs s (.shfl d k a b mode) fun t =>
      LaneResult s t p d k (fun l =>
        let n := (p.val32 b l).toNat
        let from_ : Int := match mode with
          | 0 => (n % 16 : Nat)
          | 1 => (l : Int) - n
          | 2 => (l : Int) + n
          | _ => (l ^^^ (n % 16) : Nat)
        p.val32 a (if 0 ≤ from_ ∧ from_ < 16 then from_.toNat else l)) 0)
    ∧ (Fields p k d 1 [(a, 1)] →
      (∀ n : Nat, n < 4 → Runs s (.qbcast d k a n) fun t => LaneResult s t p d k (fun l => p.val32 a (l / 4 * 4 + n)) 0)
      ∧ (∀ n : Nat, 1 ≤ n → n < 4 → Runs s (.qswap d k a n) fun t => LaneResult s t p d k (fun l => p.val32 a (l ^^^ n)) 0)
      ∧ Runs s (.qfill d k a) fun t => ∃ g : Nat → Nat,
          (∀ l ∈ p.lanes, g l ∈ p.lanes ∧ g l / 4 = l / 4 ∧ ∀ m ∈ p.lanes, m / 4 = l / 4 → g l ≤ m)
          ∧ LaneResult s t p d k (fun l => p.val32 a (g l)) 0)

/-- R418, R433: votes and reductions over the gathered set, when its last pass has run. -/
def Obligations.VotesAndReductions : Prop :=
  ∀ (s : State) (p : Pass), LanePass s p →
    (∀ md ma : Nat,
      (Runs s (.voteAny md ma) fun t => if p.gatherEnds then MaskResult s t p md p.gathered
          (laneSet fun _ => (lanesOf p.gathered).any fun l => (p.sk.mask ma).getLsbD l) 0
        else NoResult s t p)
      ∧ Runs s (.voteAll md ma) fun t => if p.gatherEnds then MaskResult s t p md p.gathered
          (laneSet fun _ => (lanesOf p.gathered).all fun l => (p.sk.mask ma).getLsbD l) 0
        else NoResult s t p)
    ∧ (∀ kd ma : Nat, Runs s (.voteBallot kd ma) fun t =>
      if p.gatherEnds && p.gathered != 0 then UniformResult s t p kd (BitVec.ofNat 64 (p.sk.mask ma &&& p.gathered).toNat) 0
      else NoResult s t p)
    ∧ ∀ (kd : Nat) (a : Src), Fields p false 0 0 [(a, 1)] →
      let gives (i : Instr) (f : W32 → W32 → W32 × BitVec 7) : Prop := Runs s i fun t =>
        if p.gatherEnds && p.gathered != 0 then
          ∃ (l : Nat) (r : List Nat), lanesOf p.gathered = l :: r ∧
            let acc := r.foldl (fun acc m => ((f acc.1 (p.val32 a m)).1, acc.2 ||| (f acc.1 (p.val32 a m)).2)) (p.val32 a l, 0#7)
            UniformResult s t p kd (BitVec.ofNat 64 acc.1.toNat) acc.2
        else NoResult s t p
      gives (.rdxAdd kd a) (fun x y => (BitVec.ofNat 32 (x.toNat + y.toNat), 0))
      ∧ gives (.rdxMin kd a) (fun x y => (BitVec.ofInt 32 (min x.toInt y.toInt), 0))
      ∧ gives (.rdxMax kd a) (fun x y => (BitVec.ofInt 32 (max x.toInt y.toInt), 0))
      ∧ gives (.rdxFadd kd a) (fadd32 .rne)

/-- R116, R144, R150, R154, R346, R353: the algebra instructions, by the terms of the slot's table. -/
def Obligations.Algebra : Prop :=
  ∀ (s : State) (p : Pass) (d a b slot : Nat), LanePass s p →
    let t := p.table s slot
    let n := tableDim t
    let fits (r : Nat) : Prop := r % n = 0 ∧ r + n ≤ 64 ∧ RegOk p r n
    n ≤ p.sk.win.allot →
    (p.em = 0 ∨ (fits d ∧ fits a ∧ fits b) →
      let gives (i : Instr) (f : Nat → Nat → Nat × BitVec 7) : Prop := Runs s i fun u =>
        let fl := flagsOf p.lanes fun l => flagsOf (List.range n) fun k => (f l k).2
        if n = 1 then LaneResult s u p d false (fun l => BitVec.ofNat 32 (f l 0).1) fl
        else ElementResult s u p d n (fun l k => BitVec.ofNat 32 (f l k).1) fl
      let product (l k : Nat) : Nat × BitVec 7 :=
        fmt32.dot ((tableTerms t k).map fun e => (e.2.2, p.comp a l e.1, p.comp b l e.2.1))
      gives (.amul d a b slot) product
      ∧ gives (.amad d a b slot) fun l k =>
          let r := fmt32.add .rne (p.sk.v (d + k) l).toNat (product l k).1
          (r.1, (product l k).2 ||| r.2))
    ∧ (p.em = 0 ∨ (fits d ∧ fits a) → Runs s (.aconj d a slot) fun u =>
        let f (l k : Nat) : W32 := if tableConj t k then p.sk.v (a + k) l ^^^ 0x80000000 else p.sk.v (a + k) l
        if n = 1 then LaneResult s u p d false (fun l => f l 0) 0 else ElementResult s u p d n f 0)
    ∧ (p.em = 0 ∨ (fits a ∧ RegOk p d 1) → Runs s (.anorm d a slot) fun u =>
        let f (l : Nat) : Nat × BitVec 7 :=
          fmt32.dot ((tableTerms t 0).map fun e => (e.2.2 != tableConj t e.2.1, p.comp a l e.1, p.comp a l e.2.1))
        LaneResult s u p d false (fun l => BitVec.ofNat 32 (f l).1) (flagsOf p.lanes fun l => (f l).2))

/-! ### Uniform registers and special registers -/

/-- R395, R396, R398: the uniform instructions, for skeins and coach instances alike. -/
def Obligations.UniformArithmetic : Prop :=
  ∀ (s : State) (p : Pass) (kd ka kb : Nat), LanePass s p ∨ CoachPass s p →
    let x := p.k ka
    let y := p.k kb
    GivesK s p kd (.kadd kd ka kb) (BitVec.ofNat 64 (x.toNat + y.toNat))
    ∧ GivesK s p kd (.ksub kd ka kb) (BitVec.ofInt 64 ((x.toNat : Int) - y.toNat))
    ∧ GivesK s p kd (.kmul kd ka kb) (BitVec.ofNat 64 (x.toNat * y.toNat))
    ∧ GivesK s p kd (.kshf kd ka kb)
        (let n := (y.setWidth 8).toInt
         if 0 ≤ n then BitVec.ofNat 64 (x.toNat * 2 ^ n.toNat) else BitVec.ofNat 64 (x.toNat / 2 ^ (-n).toNat))
    ∧ GivesK s p kd (.kmov kd ka) x
    ∧ GivesK s p kd (.klogAnd kd ka kb) (x &&& y) ∧ GivesK s p kd (.klogOr kd ka kb) (x ||| y)
    ∧ GivesK s p kd (.klogXor kd ka kb) (x ^^^ y) ∧ GivesK s p kd (.klogAndn kd ka kb) (x &&& ~~~y)
    ∧ (∀ c : ICond, GivesK s p kd (.kcmp kd ka kb c)
        (if condHolds c x y then 1 else 0))
    ∧ ∀ h imm : Nat, h < 4 → imm < 2 ^ 16 → GivesK s p kd (.kmovi kd h imm)
        (if h = 0 then BitVec.ofInt 64 (if imm < 2 ^ 15 then imm else (imm : Int) - 2 ^ 16)
         else BitVec.ofNat 64 ((p.k kd).toNat - (p.k kd).toNat / 2 ^ (16 * h) % 2 ^ 16 * 2 ^ (16 * h) + imm * 2 ^ (16 * h)))

/-! ### Control flow -/

/-- R52, R362, R393, R411: the uniform transfers of skeins and coach instances, and what a bad target raises. -/
def Obligations.UniformTransfers : Prop :=
  ∀ (s : State) (p : Pass), LanePass s p ∨ CoachPass s p → NoParts s →
    let went (t : State) (o : Nat) : Prop := if p.coach then CoachWentTo s t p o else WentTo s t p o
    let stays (t : State) : Prop := if p.coach then t = s.modCoach p.bid fun c => { c with off := p.off + p.len } else NoResult s t p
    (∀ ka : Nat, let o := (p.k ka).toNat % 2 ^ 32
      (TargetOk s p o → Runs s (.jmpi ka) fun t => went t o)
      ∧ (o % 2 = 1 ∨ (s.codeOf p.blk.id.lid).len ≤ o → Traps s p (.jmpi ka) .planeAlign .none))
    ∧ (∀ (kc : Nat) (mode : UMode) (disp : Nat), disp < 2 ^ 18 →
      let takes := match mode with
        | .always => true
        | .nz => decide ((p.k kc).toNat ≠ 0)
        | .z => decide ((p.k kc).toNat = 0)
      let d : Int := p.off + 2 * (BitVec.ofNat 18 disp).toInt
      (takes = false → Runs s (.brau kc mode disp) stays)
      ∧ (takes = true → ∀ o : Nat, d = o → TargetOk s p o → Runs s (.brau kc mode disp) fun t => went t o)
      ∧ (takes = true → d < 0 → Traps s p (.brau kc mode disp) .planeAlign .none))
    ∧ Runs s .nop stays

/-- R60-R62, R64, R65, R71, R72, R361: a lane branch is not taken, taken by all, or splits its path; paths arrive at their rejoin, the next
path of the stack runs, and two arms merge. -/
def Obligations.LaneBranches : Prop :=
  (∀ (k : Skein) (ai : Nat) (x : Arm) (q : Path), k.arms[ai]? = some x → x.path = some q → q.base = k.win.base → q.mis = false →
    ArrivesAt k ai x q
    ∧ ∀ (one two : Arm), k.arms = [one, two] → x.stack = [] → q.off = k.rejoin → (∀ o, k.arms[1 - ai]? = some o → o.complete = true) →
      let m := (one.arrived ||| two.arrived ||| q.lanes) &&& k.live
      m ≠ 0 → ∃ z, k.arrive ai = some z ∧ Merged k z one two m)
  ∧ (∀ (live : Lanes) (l st : List Entry) (w : Path),
      (∀ e ∈ l, (match e with | .path v => v.lanes | .marker _ m _ => m) &&& live = 0) → w.lanes &&& live ≠ 0 →
      Skein.popPath live (l ++ .path w :: st) = (some { w with lanes := w.lanes &&& live }, st))
  ∧ ∀ (s : State) (p : Pass) (x : Path) (cm : Nat) (neg : Bool), LanePass s p → NoParts s → p.arm.path = some x →
    let taken : Lanes := laneSet fun l => p.act.getLsbD l && ((p.sk.mask cm).getLsbD l != neg)
    (taken = 0 → (∀ disp, Runs s (.bra cm neg disp) fun t => NoResult s t p)
      ∧ ∀ disp rd, Runs s (.braRj cm neg disp rd) fun t => NoResult s t p)
    ∧ (taken ≠ 0 →
      (∀ (disp o : Nat), disp < 2 ^ 21 → (p.off : Int) + 2 * (BitVec.ofNat 21 disp).toInt = o → TargetOk s p o →
        (taken = p.act → Runs s (.bra cm neg disp) fun t => WentTo s t p o)
        ∧ (taken ≠ p.act → p.arm.stack.length < 32 → Runs s (.bra cm neg disp) fun t => SplitSerially s t p o none taken)
        ∧ (taken ≠ p.act → 32 ≤ p.arm.stack.length →
          exec (.bra cm neg disp) s = .next ((afterTarget s p o).raise p (p.ill .divergeDepth))))
      ∧ ∀ (disp rd o : Nat), disp < 2 ^ 11 → (p.off : Int) + 2 * (BitVec.ofNat 11 disp).toInt = o → TargetOk s p o →
        TargetOk (afterTarget s p o) p (o + 2 * rd) →
        (taken = p.act → Runs s (.braRj cm neg disp rd) fun t => WentTo s t p o)
        ∧ (taken ≠ p.act → p.sk.arms.length = 1 → p.arm.stack = [] → p.sk.frame = none →
          Runs s (.braRj cm neg disp rd) fun t => SplitInArms s t p o (o + 2 * rd) taken)
        ∧ (taken ≠ p.act → p.sk.arms.length ≠ 1 ∨ p.arm.stack ≠ [] ∨ p.sk.frame ≠ none → p.arm.stack.length < 31 →
          Runs s (.braRj cm neg disp rd) fun t => SplitSerially s t p o (some (o + 2 * rd)) taken))

/-- R76, R364, R421: calls and returns move the window; a window that does not fit raises its trap with no effect. -/
def Obligations.CallsAndReturns : Prop :=
  ∀ (s : State) (p : Pass), LanePass s p → NoParts s → p.sk.frame = none → p.sk.arms.length ≠ 2 →
    (∀ n8 disp o : Nat, disp < 2 ^ 19 → (p.off : Int) + 2 * (BitVec.ofNat 19 disp).toInt = o →
      let n := 8 * (n8 + 1)
      let b := p.sk.win.base + n
      (1024 < b + p.sk.win.reach → SwitchTraps s p (.call n8 disp) .illegal .windowDepth)
      ∧ (b + p.sk.win.reach ≤ 1024 → p.sk.win.allot + p.sk.win.spill < b + p.sk.win.reach →
        SwitchTraps s p (.call n8 disp) .windowOverflow .none)
      ∧ (b + p.sk.win.reach ≤ 1024 → b + p.sk.win.reach ≤ p.sk.win.allot + p.sk.win.spill → TargetOk s p o →
        Runs s (.call n8 disp) fun t =>
          WindowMoved s t p b o (mapSet p.arm.ks 31 (BitVec.ofNat 64 (n * 2 ^ 32 + (p.off + p.len))))))
    ∧ (let link := p.k 31
       let n := (link.extractLsb' 32 16).toNat
       let o := (link.extractLsb' 0 32).toNat
       let bad := n = 0 ∨ n % 8 ≠ 0 ∨ 64 < n ∨ p.sk.win.base < n ∨ (link.extractLsb' 48 16).toNat ≠ 0
       (bad → SwitchTraps s p .ret .illegal .link)
       ∧ (¬bad → p.sk.win.base - n < p.sk.win.spill → SwitchTraps s p .ret .windowUnderflow .none)
       ∧ (¬bad → p.sk.win.spill ≤ p.sk.win.base - n → TargetOk s p o →
         Runs s .ret fun t => WindowMoved s t p (p.sk.win.base - n) o p.arm.ks))

/-- R67, R68, R70, R392: the join registers: initialised, arrived at, waited at, passed, complete and broken. -/
def Obligations.Joins : Prop :=
  ∀ (s : State) (p : Pass) (j : Nat), LanePass s p →
    let r := p.sk.join j
    let mine := p.sk.armLanes p.ai
    let init (m : Lanes) : JoinReg :=
      let e := (r.e &&& ~~~mine) ||| (m &&& mine &&& p.sk.live)
      { r with e := e, a := r.a &&& ~~~mine, pd := r.pd &&& ~~~mine, w := if e &&& ~~~mine = 0 then 0 else r.w }
    (Skein.groupLanes r.groups &&& mine = 0 →
      (∀ imm : Nat, Runs s (.jinit j imm) fun t => JoinResult s t p j (init (BitVec.ofNat 16 imm)))
      ∧ ∀ c : Nat, Runs s (.jinitMask j c) fun t => JoinResult s t p j (init (p.sk.mask c)))
    ∧ (Skein.groupLanes r.groups &&& mine ≠ 0 →
      (∀ imm : Nat, Traps s p (.jinit j imm) .illegal .joinBusy) ∧ ∀ c : Nat, Traps s p (.jinitMask j c) .illegal .joinBusy)
    ∧ (Runs s (.jarr j) fun t => JoinResult s t p j { r with a := r.a ||| (p.act &&& r.e) })
    ∧ (p.sk.frame = none → p.act = 0 → Runs s (.jwait j) fun t => SwitchedOn s t p p.arm.ks)
    ∧ (p.sk.frame = none → p.act ≠ 0 → Skein.groupLanes r.groups ≠ 0 → r.w ≠ p.off → SwitchTraps s p (.jwait j) .illegal .joinOffset)
    ∧ (∀ x : Path, p.sk.frame = none → p.act ≠ 0 → p.arm.path = some x → p.arm.complete = false → x.lanes ≠ 0 →
      let live := p.sk.live
      -- all its lanes have arrived: held as one group, the path ends
      (r.groups = [] → p.act &&& ~~~r.a = 0 → x.lanes &&& live ≠ 0 → x.lanes &&& live ≠ r.e &&& live →
        (r.pd &&& live = 0 ∨ r.e &&& live &&& ~~~x.lanes &&& ~~~r.pd ≠ 0) → p.arm.stack = [] → p.sk.arms = [p.arm] →
        Runs s (.jwait j) fun t => ∃ k a, OnlySkein s t p.bid p.ix k
          ∧ k = { p.sk.dropLatches with r := { p.sk.dropLatches.r with joins := k.r.joins }, arms := [a] }
          ∧ k.join j = { e := r.e &&& live, a := r.a &&& live, pd := r.pd &&& live, w := p.off,
                         groups := [{ lanes := x.lanes &&& live, arm := p.ai, base := p.sk.win.base }] }
          ∧ (∀ i, i ≠ j → k.join i = p.sk.join i) ∧ a.path = none ∧ a.complete = true ∧ a.stack = [] ∧ a.issue = none ∧ a.ks = p.arm.ks)
      -- none has: they pass, and the register notes it
      ∧ (r.groups = [] → p.act &&& r.a = 0 → Runs s (.jwait j) fun t => ∃ k a, OnlySkein s t p.bid p.ix k
          ∧ k = { p.sk.dropLatches with r := { p.sk.dropLatches.r with joins := k.r.joins }, arms := k.arms } ∧ ArmIs p.switched k a
          ∧ k.join j = { e := r.e &&& live, a := r.a &&& live, pd := (r.pd ||| (p.act &&& r.e)) &&& live, groups := [], w := p.off }
          ∧ (∀ i, i ≠ j → k.join i = p.sk.join i) ∧ a = { p.arm with issue := none, path := some { x with off := p.off + 4 }, sw := a.sw })
      -- every expected lane has passed or is held: the join breaks, and the held lanes go on
      ∧ ∀ g : Group, r.groups = [g] → g.arm = p.ai → g.base = p.sk.win.base → g.lanes ≠ 0 → g.lanes &&& live = g.lanes → r.w = p.off →
        p.act &&& r.a = 0 → r.e &&& live &&& ~~~g.lanes ≠ 0 → r.e &&& live &&& ~~~g.lanes &&& ~~~(r.pd ||| (p.act &&& r.e)) = 0 →
        Runs s (.jwait j) fun t => OthersKept s t p ∧ ∃ k a, t.sk? p.bid p.ix = some k
          ∧ k = { p.sk.dropLatches with
              r := { p.sk.dropLatches.r with joins := k.r.joins, status := p.sk.r.status ||| stJLOST }, arms := k.arms }
          ∧ ArmIs p.switched k a ∧ k.join j = JoinReg.idle ∧ (∀ i, i ≠ j → k.join i = p.sk.join i)
          ∧ a = { p.arm with issue := none, path := some { x with off := p.off + 4 }, sw := a.sw
                             stack := .path { off := p.off + 4, lanes := g.lanes, base := g.base, last := p.off } :: p.arm.stack })
    ∧ ∀ x : Path, p.sk.frame = none → p.act ≠ 0 → r.groups = [] → p.arm.path = some x → p.act &&& ~~~r.a = 0 →
      r.e &&& p.sk.live = p.act → x.lanes &&& p.sk.live = p.act → p.arm.stack = [] → p.sk.arms = [p.arm] →
      Runs s (.jwait j) fun t => ∃ k a, OnlySkein s t p.bid p.ix k ∧ k.join j = JoinReg.idle ∧ k.arms = [a]
        ∧ a.path = some { off := p.off + 4, lanes := p.act, base := p.sk.win.base, last := p.off } ∧ a.issue = none ∧ a.ks = p.arm.ks
        ∧ k.r.lanes = p.sk.r.lanes ∧ k.r.masks = p.sk.r.masks ∧ k.r.status = p.sk.r.status

/-- R42, R43, R221, R233, R300, R357, R375, R436: barriers, the end of lanes, and yields, with and without a counted wait. -/
def Obligations.BarriersExitsYields : Prop :=
  ∀ (s : State) (p : Pass), LanePass s p → NoParts s → p.sk.frame = none →
    (∀ n : Nat, p.sk.converged = true → s.isDet p = false → NoUpdates s →
      let m := mapGetD p.blk.bars n 0 ||| laneBit p.ix
      let all := ∀ k ∈ p.blk.skeins, k.life ≠ .draining → k.life ≠ .retired → m.getLsbD k.idx = true
      (¬all → Runs s (.bar n) fun t => (∃ b, t.blk? p.bid = some b ∧ b.bars = mapSet p.blk.bars n m)
        ∧ t.mem.bytes = s.mem.bytes ∧ ∃ a, t.arm? p.bid p.ix p.ai = some a ∧ a.wait = some (.bar n) ∧ a.path = p.arm.path)
      ∧ (all → m.getLsbD p.sk.idx = true → Runs s (.bar n) fun t =>
        t.mem.bytes = s.mem.bytes
        ∧ (∃ b, t.blk? p.bid = some b ∧ b.bars = mapErase (mapSet p.blk.bars n m) n)
        ∧ (∃ a, t.arm? p.bid p.ix p.ai = some a ∧ a.wait = none ∧ a.ks = p.arm.ks
          ∧ (p.last = true → a.issue = none ∧ a.path = p.arm.path.map fun x => { x with off := p.off + p.len }))
        ∧ ∀ i j k a, (i ≠ p.ix ∨ j ≠ p.ai) → s.sk? p.bid i = some k → k.arms[j]? = some a → m.getLsbD k.idx = true → a.wait = some (.bar n) →
          ∃ c, t.arm? p.bid i j = some c ∧ c.wait = none))
    ∧ (let x := if p.arm.issue.elim 0 (·.exec) = 0 then p.path else p.act
       Runs s .exit fun t => t.mem.bytes = s.mem.bytes ∧ ∃ k, t.sk? p.bid p.ix = some k ∧ k.r.exited = p.sk.r.exited ||| x
        ∧ k.mask 0 = p.sk.mask 0 &&& ~~~(p.sk.r.exited ||| x) ∧ (∀ i, i ≠ 0 → k.mask i = p.sk.mask i) ∧ k.r.lanes = p.sk.r.lanes
        ∧ k.win = p.sk.win
        ∧ k.life = if p.sk.r.exited ||| x = 0xFFFF ∧ p.sk.life = .live then .draining else p.sk.life)
    ∧ (∀ kct kth disp o : Nat, disp < 2 ^ 14 → (p.off : Int) + 2 * (BitVec.ofNat 14 disp).toInt = o → p.sk.converged = true →
      TargetOk s p o → Runs s (.yield kct kth false disp) fun t => ∃ k a, OnlySkeinC s t p k
        ∧ k = { p.sk.dropLatches with arms := k.arms } ∧ ArmIs p.switched k a
        ∧ a = { p.arm with issue := none, path := p.arm.path.map (fun x => { x with off := o }), sw := p.arm.sw || p.sk.pends p.ai })
    ∧ ∀ kct kth disp o v : Nat, disp < 2 ^ 14 → (p.off : Int) + 2 * (BitVec.ofNat 14 disp).toInt = o → p.sk.converged = true →
      TargetOk (s.switchPoint p) p o → s.isDet p = false → NoUpdates s → p.sk.x.defer = none →
      let u := afterTarget (s.switchPoint p) p o
      let c := p.k kct
      PlaceValue u p c 4 .read v →
      let met := (v + 2 ^ 31 - (p.k kth).toNat % 2 ^ 31) % 2 ^ 31 < 2 ^ 30
      (v < 2 ^ 31 → met → Runs s (.yield kct kth true disp) fun t => t.mem.bytes = s.mem.bytes ∧ ∃ k a, t.sk? p.bid p.ix = some k
        ∧ k.r = p.sk.dropLatches.r ∧ k.win = p.sk.win ∧ k.x = p.sk.x ∧ ArmIs p.switched k a ∧ a.issue = none ∧ a.ks = p.arm.ks
        ∧ a.path = p.arm.path.map fun x => { x with off := o })
      ∧ (v < 2 ^ 31 → ¬met → Runs s (.yield kct kth true disp) fun t => ParkedOn s t p .yield)
      ∧ (2 ^ 31 ≤ v → exec (.yield kct kth true disp) s = .next ((u.placeRead p c 4 .read).1.raise { p with plane := 0 }
          { p.trapAt .copyFault .none p.em c with off := some o }))

/-- R171, R172, R204, R209, R210, R213, R430: the fences. What they leave of caches and buffers, and that they complete. -/
def Obligations.Fences : Prop :=
  ∀ (s : State) (p : Pass), LanePass s p → s.isDet p = false → NoUpdates s → p.repeated = false → p.sk.x.defer = none →
    let fence (i : Instr) (sc : Scope) : Prop :=
      (sc ≠ .core → Runs s i fun t => (t.core p.core).l1 = []
        ∧ ((∀ l ∈ (s.core p.core).l1, l.dirty = 0) → SwitchedOn s t p p.arm.ks)
        ∧ (sc = .rack → ∀ l ∈ (t.die (State.dieOf p.core)).rdc, s.homeTray (l.tag.getD p.ctx) l.va = State.trayOf p.core))
    (Runs s (.fence .core) fun t => SwitchedOn s t p p.arm.ks ∧ t.cores = s.cores ∧ t.dies = s.dies)
    ∧ (Runs s (.tfence .core) fun t => (∀ l ∈ (t.core p.core).l1, l.dirty = 0)
        ∧ ((∀ l ∈ (s.core p.core).l1, l.dirty = 0) → SwitchedOn s t p p.arm.ks))
    ∧ (∀ sc : Scope, fence (.fence sc) sc ∧ fence (.tfence sc) sc)
    ∧ (∀ sc : Scope, Runs s (.icinv sc) fun t =>
        (∀ g, State.sameInst sc.level p.core g = true → ∀ l ∈ (t.core g).icache, l.tag ≠ none ∧ l.tag ≠ some p.ctx)
        ∧ (∀ l ∈ (t.core p.core).l1, l.dirty = 0)
        ∧ ∀ b k, t.sk? p.bid b = some k → ∀ a ∈ k.arms ++ k.frame.elim [] (·.arms), ∀ x, a.lb = some x → x.stale = true)
    ∧ (Runs s .ofence fun t => (∀ e ∈ (t.core p.core).scales, e.ctx ≠ p.ctx)
        ∧ ((∀ l ∈ (s.core p.core).l1, l.dirty = 0) → SwitchedOn s t p p.arm.ks
          ∧ ∃ a, t.arm? p.bid p.ix p.ai = some a ∧ a.marks.fence = p.arm.marks.acq ∧ a.marks.acq = p.arm.marks.acq
            ∧ ∀ l, l < 16 → mapGetD a.marks.mine l 0 = if p.whole.getLsbD l then s.storesOf p.ctx else mapGetD p.arm.marks.mine l 0))
    ∧ Runs s .isync fun t => ∃ u k, CodeFetched s u ∧ t = (u.modSk p.bid p.ix fun _ => k)
        ∧ k = { p.sk.dropLatches with arms := k.arms, r := k.r, frame := k.frame } ∧ k.r = { p.sk.dropLatches.r with planes := k.r.planes }
        ∧ (∀ (i : Nat) (a : Arm), p.sk.arms[i]? = some a → ∃ c : Arm, k.arms[i]? = some c ∧ Reloaded a c)
        ∧ (p.sk.frame = none → k.frame = none)
        ∧ ∀ f : Frame, p.sk.frame = some f → ∃ g : Frame, k.frame = some g ∧ g = { f with arms := g.arms }
          ∧ ∀ (i : Nat) (a : Arm), f.arms[i]? = some a → ∃ c : Arm, g.arms[i]? = some c ∧ c = { a with lb := c.lb } ∧ Reloaded a c

/-- R289, R290: taking a trap. While the skein's other arm is inside an instruction that has issued the trap is held (R289 step 1); in trap
mode, and with no handler, the context becomes fatal instead. That the other arm's wait is abandoned in the frame is the model's choice
(log 109). -/
def Obligations.TrapEntry : Prop :=
  ∀ (s : State) (p : Pass) (tr : Trap), LanePass s p →
    (p.sk.frame = none → s.handler p.blk ≠ none → p.sk.defers p.ai = true → OthersKept s (s.raise p tr) p
      ∧ (s.raise p tr).sk? p.bid p.ix = some { p.sk with x := { p.sk.x with
          pend := p.sk.x.pend ++ [{ trap := tr, cls := 0, coach := false, arm := p.ai, plane := p.plane, off := p.off }] } })
    ∧ (∀ te : Nat, p.sk.frame = none → p.sk.defers p.ai = false → s.handler p.blk = some te → TrapEntered s (s.raise p tr) p tr 0 te
      ∧ (∀ n : Nat, Runs s (.trap n) fun t => TrapEntered s t p.atSwitch
          { code := .software, cause := .none, mask := p.em, masked := false, next := true, addr := 0, aux := BitVec.ofNat 32 n, off := none,
            race := none } 0 te)
      ∧ Runs s .bkpt fun t => TrapEntered s t p.atSwitch
          { code := .breakpoint, cause := .none, mask := p.em, masked := false, next := true, addr := 0, aux := 0, off := none,
            race := none } 0 te)
    ∧ (∀ x : Ctx, s.ctx? p.ctx = some x → x.fatal = none → (p.sk.frame ≠ none ∨ s.handler p.blk = none) →
      ∃ y, (s.raise p tr).ctx? p.ctx = some y ∧ y.fatal = some (if p.sk.frame ≠ none then .nested else .unhandled, 0))

/-- R292: leaving trap mode; with RES = NEXT the path goes on past the instruction, with REPLAY it issues again. -/
def Obligations.TrapReturn : Prop :=
  ∀ (s : State) (p : Pass) (f : Frame), LanePass s p → NoParts s → p.sk.frame = some f → p.arm.stack = [] →
    let k1 := p.k 1
    let o := (k1.extractLsb' 32 32).toNat
    let c := s.codeOf p.blk.id.lid
    let ti := (k1.extractLsb' 20 1).toNat
    TargetOk s p o → k1.getLsbD 21 = false → (k1.extractLsb' 22 2).toNat ≤ 1 →
    ∀ short : Bool, ((o + 2 = c.len ∧ short = true)
        ∨ (o + 2 ≠ c.len ∧ ((afterTarget s p o).mapBit c p.core p.ctx none (o + 2)).2 = .ok short)) →
    (∀ x, f.arms[ti]? = some x → Runs s .tret fun t => ∃ k a, OnlySkeinC s t p k ∧ k.frame = none ∧ k.rejoin = f.rejoin
      ∧ k.r.latch = f.latch ∧ k.mask 0 = f.m0 &&& p.sk.live ∧ (∀ i, i ≠ 0 → k.mask i = p.sk.mask i) ∧ k.r.lanes = p.sk.r.lanes
      ∧ k.r.exited = p.sk.r.exited ∧ k.r.status = p.sk.r.status ∧ k.r.joins = p.sk.r.joins ∧ k.win = p.sk.win ∧ k.x = { p.sk.x with ranArm := f.ranArm }
      ∧ k.arms[ti]? = some a ∧ a.stack = x.stack ∧ a.issue = none ∧ a.wait = x.wait
      ∧ (∀ i, i < 32 → mapGetD a.ks i 0 = if ti = f.arm ∧ 8 ≤ i then mapGetD (p.sk.arm 0).ks i 0 else mapGetD x.ks i 0)
      ∧ (if (k1.extractLsb' 22 2).toNat = 1 then
          a.path = x.path.map (fun q => { q with off := o + if short then 2 else 4 }) ∧ a.again = none
         else a.path = x.path.map (fun q => { q with off := o })
          ∧ (a.again.map fun g => (g.plane, g.lanes)) = some ((k1.extractLsb' 16 2).toNat,
              if k1.getLsbD 24 then some ((p.k 2).setWidth 16) else none))
      ∧ ∀ i y, i ≠ ti → f.arms[i]? = some y → (k.arms[i]?.map fun z => (z.path, z.stack, z.issue, z.wait))
          = some (y.path, y.stack, y.issue, y.wait))

/-! ### Special registers -/

/-- R88, R89: what a special register reads as. -/
def Obligations.SpecialReads : Prop :=
  ∀ (s : State) (p : Pass) (l : Launch) (num : Nat), LanePass s p ∨ CoachPass s p → s.launch? p.blk.id.lid = some l → l.rec_ = none →
    s.isDet p = false → num < 0x18 →
    let x := natAt l.packet 32 4
    let y := natAt l.packet 36 2
    let own (v : Nat) : Nat := if p.coach then 0 else v
    let v : Nat := match num with
      | 0x02 => if p.coach then 16 else p.sk.idx
      | 0x03 => p.blk.id.idx % x
      | 0x04 => p.blk.id.idx / x % y
      | 0x05 => p.blk.id.idx / x / y
      | 0x06 => x
      | 0x07 => y
      | 0x08 => natAt l.packet 38 2
      | 0x0A => p.blk.id.seq
      | 0x0B => p.ctx
      | 0x0C => p.core % Config.coresPerDie + 64 * (p.core / Config.coresPerDie % 4) + 256 * (p.core / (4 * Config.coresPerDie))
      | 0x0D => s.time.ns
      | 0x0E => s.time.clk
      | 0x0F => Config.feat s.variant
      | 0x10 => 7
      | 0x11 => own p.sk.r.status.toNat
      | 0x12 => own p.sk.win.base
      | 0x13 => own p.sk.win.spill
      | 0x14 => own p.sk.win.allot
      | 0x15 => own p.sk.win.reach
      | 0x16 => p.blk.ntiles
      | _ => if p.coach then 3 else p.sk.role
    let perLane := num = 0 ∨ num = 1 ∨ num = 9
    (¬perLane → ∀ kd : Nat, Runs s (.sread kd true num) fun t => ∃ o,
        if p.coach then t = s.modCoach p.bid fun c => { c with ks := mapSet c.ks kd (BitVec.ofNat 64 v), off := p.off + p.len, ord := o }
        else UniformResult s t (p.withOrd o) kd (BitVec.ofNat 64 v) 0)
    ∧ (perLane → ∀ kd : Nat, Traps s p (.sread kd true num) .illegal .operand)
    ∧ (p.coach = true → ∀ d : Nat, Traps s p (.sread d false num) .illegal .role)
    ∧ (p.coach = false → ∀ d : Nat, RegOk p d 1 → Runs s (.sread d false num) fun t => ∃ o,
        SilentResult s t (p.withOrd o) d fun i => BitVec.ofNat 32 (match num with
          | 0 => i
          | 1 => i / 4
          | 9 => p.sk.plane i
          | _ => v))

/-- R89, R90, R77: writing a special register: the sticky bits cleared, the spill depth in trap mode, all else ILLEGAL. -/
def Obligations.SpecialWrites : Prop :=
  ∀ (s : State) (p : Pass) (ka : Nat),
    (LanePass s p → Runs s (.swrite ka true 0x11) fun t => ∃ k, OnlySkein s t p.bid p.ix k ∧ RestKept p k ∧ WentOn p k p.arm.ks
      ∧ k.r.lanes = p.sk.r.lanes ∧ k.r.masks = p.sk.r.masks ∧ k.r.latch = p.sk.r.latch
      ∧ ∀ i, i < 7 → k.r.status.getLsbD i = (p.sk.r.status.getLsbD i && !(p.k ka).getLsbD i))
    ∧ (CoachPass s p → Runs s (.swrite ka true 0x11) fun t => t = s.modCoach p.bid fun c => { c with off := p.off + p.len })
    ∧ (LanePass s p ∨ CoachPass s p → ∀ num : Nat, num ≠ 0x11 → (num ≠ 0x13 ∨ p.trapMode = false) →
        Traps s p (.swrite ka true num) .illegal .operand)
    ∧ (LanePass s p → p.sk.frame ≠ none → let w := (p.k ka).toNat
        ((w % 8 ≠ 0 ∨ p.sk.win.base < w) → Traps s p (.swrite ka true 0x13) .illegal .operand)
        ∧ (w % 8 = 0 → w ≤ p.sk.win.base → Runs s (.swrite ka true 0x13) fun t => ∃ k, OnlySkein s t p.bid p.ix k
          ∧ k.win = { p.sk.win with spill := w } ∧ WentOn p k p.arm.ks ∧ k.r.masks = p.sk.r.masks ∧ k.r.latch = p.sk.r.latch
          ∧ k.r.status = p.sk.r.status
          ∧ ∀ x l, l < 16 → (∀ i, w ≤ i → i < p.sk.win.spill → x % p.sk.win.allot ≠ i % p.sk.win.allot) → k.logical x l = p.sk.logical x l))

/-! ### Memory -/

/-- R173, R202, R399: loads that the core's L1 serves; an acquire first drops the clean bytes (R171). -/
def Obligations.LoadsFromL1 : Prop :=
  ∀ (s : State) (p : Pass) (d : Nat) (sz : Size) (addr : Nat → Nat) (x : Nat → CLine), PlainPass s p → NoOwnUpdates s p →
    let n := sz.bytes
    let gives (u : State) (i : Instr) : Prop :=
      (∀ l ∈ p.lanes, InL1 u p (addr l) n (x l)) → Runs s i fun t => LoadResult s t p d n fun l => lineValue (x l).data (addr l) n
    (p.em = 0 ∨ (DataOk p d n ∧ AddrsOk s p n addr)) →
    (∀ (bk : Bool) (base pol off8 : Nat), off8 < 2 ^ 8 → (bk = true ∨ p.em = 0 ∨ (RegOk p base 2 ∧ base % 2 = 0)) →
      (∀ l ∈ p.lanes, addr l = ((if bk then p.k base else p.sk.vpair base l) + BitVec.ofInt 64 ((BitVec.ofNat 8 off8).toInt * n)).toNat) →
      gives s (.ld d bk base sz pol off8))
    ∧ ∀ (kb vx : Nat) (nol1 : Bool),
      (p.em = 0 ∨ (if kb = 0 then RegOk p vx 2 ∧ vx % 2 = 0 else RegOk p vx 1)) →
      (∀ l ∈ p.lanes, addr l = (if kb = 0 then p.sk.vpair vx l else p.k kb + BitVec.ofNat 64 (p.sk.v vx l).toNat).toNat) →
      gives s (.ldMs d kb vx sz .relaxed nol1)
      ∧ ∀ sc : Scope, gives (s.acquireAt p.core p.ctx sc.level) (.ldMs d kb vx sz (.acq sc) nol1)

/-- R171, R196, R399, R428: stores to lines of the core's L1 that may be written stay there, dirty; no byte at a home differs. -/
def Obligations.StoresToL1 : Prop :=
  ∀ (s : State) (p : Pass) (d : Nat) (sz : Size) (addr : Nat → Nat) (x : Nat → CLine), PlainPass s p → NoUpdates s →
    let n := sz.bytes
    let val (l : Nat) : Nat := if n = 8 then (p.sk.vpair d l).toNat else (p.sk.v d l).toNat
    let gives (i : Instr) : Prop := Runs s i fun t => SwitchedOn s t p p.arm.ks
      ∧ BytesStored p.lanes addr n val (fun a => (l1Byte s p a).getD 0) (fun a => (l1Byte t p a).getD 0)
      ∧ (∀ l ∈ p.lanes, ∃ y, State.lineIn (t.core p.core).l1 p.ctx (addr l) = some y ∧ byteRange (addr l % 128) n &&& ~~~y.dirty = 0)
      ∧ ∀ g, g ≠ p.core → t.core g = s.core g
    (p.em = 0 ∨ (DataOk p d n ∧ AddrsOk s p n addr)) →
    (∀ l ∈ p.lanes, State.lineIn (s.core p.core).l1 p.ctx (addr l) = some (x l) ∧ (x l).w = true) →
    (∀ (bk : Bool) (base pol off8 : Nat), off8 < 2 ^ 8 → pol ≠ 3 → (bk = true ∨ p.em = 0 ∨ (RegOk p base 2 ∧ base % 2 = 0)) →
      (∀ l ∈ p.lanes, addr l = ((if bk then p.k base else p.sk.vpair base l) + BitVec.ofInt 64 ((BitVec.ofNat 8 off8).toInt * n)).toNat) →
      gives (.st d bk base sz pol off8))
    ∧ ∀ (kb vx : Nat) (nol1 : Bool),
      (p.em = 0 ∨ (if kb = 0 then RegOk p vx 2 ∧ vx % 2 = 0 else RegOk p vx 1)) →
      (∀ l ∈ p.lanes, addr l = (if kb = 0 then p.sk.vpair vx l else p.k kb + BitVec.ofNat 64 (p.sk.v vx l).toNat).toNat) →
      gives (.stMs d kb vx sz (.relaxed nol1)) ∧ gives (.stMs d kb vx sz (.rel .core nol1))

/-- R171, R174, R204, R428: a store that goes to its home: uniform with the policy that allocates nowhere, and a lane's release of
`.die` or wider or reader-count store. Exactly the stored bytes of HBM differ. -/
def Obligations.StoresToHomes : Prop :=
  ∀ (s : State) (p : Pass) (sz : Size) (a : Nat) (h : Home), MemoryOk s → NoUpdates s → CleanL1 s p → s.isDet p = false →
    noncanon a = false → a % sz.bytes = 0 → s.mapOk p.ctx a = true → HomeOk s p (a / 128 * 128) .write h →
    let n := sz.bytes
    let stored (t : State) (v : Nat) : Prop := BytesStored [0] (fun _ => h.addr + a % 128) n (fun _ => v) (byteGet s.mem.bytes) (byteGet t.mem.bytes)
    (LanePass s p ∨ CoachPass s p → ∀ ks kb off8 : Nat, off8 < 2 ^ 8 →
      a = (p.k kb + BitVec.ofInt 64 ((BitVec.ofNat 8 off8).toInt * n)).toNat →
      Runs s (.kst ks kb sz 3 off8) fun t => stored t (p.k ks).toNat ∧ OnK { s with mem := { s.mem with bytes := t.mem.bytes } } t p p.kregs)
    ∧ (PlainPass s p → ∀ d kb vx l : Nat, p.lanes = [l] → DataOk p d n → (if kb = 0 then RegOk p vx 2 ∧ vx % 2 = 0 else RegOk p vx 1) →
      a = (if kb = 0 then p.sk.vpair vx l else p.k kb + BitVec.ofNat 64 (p.sk.v vx l).toNat).toNat →
      let v := if n = 8 then (p.sk.vpair d l).toNat else (p.sk.v d l).toNat
      (∀ (sc : Scope) (nol1 : Bool), sc ≠ .core → Runs s (.stMs d kb vx sz (.rel sc nol1)) fun t => stored t v
        ∧ SwitchedOn { s with mem := { s.mem with bytes := t.mem.bytes } } t p p.arm.ks)
      ∧ ∀ rc : Nat, 0 < rc → Runs s (.stMs d kb vx sz (.rc rc)) fun t => stored t v
        ∧ SwitchedOn { s with mem := { s.mem with bytes := t.mem.bytes } } t p p.arm.ks)

/-- R397: uniform loads, from the core's L1 or from the home; uniform stores into the core's L1. -/
def Obligations.UniformMemory : Prop :=
  ∀ (s : State) (p : Pass) (sz : Size) (a kb off8 : Nat), LanePass s p ∨ CoachPass s p → s.isDet p = false → NoOwnUpdates s p →
    off8 < 2 ^ 8 →
    let n := sz.bytes
    a = (p.k kb + BitVec.ofInt 64 ((BitVec.ofNat 8 off8).toInt * n)).toNat → noncanon a = false → a % n = 0 → s.mapOk p.ctx a = true →
    (∀ (kd pol : Nat) (x : CLine), InL1 s p a n x → Runs s (.kld kd kb sz pol off8) fun t =>
      OnK s t p (mapSet p.kregs kd (BitVec.ofNat 64 (lineValue x.data a n))))
    ∧ (∀ (kd pol : Nat) (h : Home), NoUpdates s → State.lineIn (s.core p.core).l1 p.ctx a = none →
      State.lineIn (s.die (State.dieOf p.core)).rdc p.ctx a = none →
      State.lineIn (s.tray (s.homeTray p.ctx a)).slices p.ctx a = none → HomeOk s p (a / 128 * 128) .read h →
      mapGet s.mem.readers (h.addr / 128) = none → (s.core p.core).l1.length < 2048 →
      Runs s (.kld kd kb sz pol off8) fun t =>
        OnK s t p (mapSet p.kregs kd (BitVec.ofNat 64 (leNat (byteGets s.mem.bytes (h.addr + a % 128) n)))))
    ∧ ∀ (ks pol : Nat) (x : CLine), pol ≠ 3 → State.lineIn (s.core p.core).l1 p.ctx a = some x → x.w = true →
      Runs s (.kst ks kb sz pol off8) fun t => OnK s t p p.kregs
        ∧ BytesStored [0] (fun _ => a) n (fun _ => (p.k ks).toNat) (fun a => (l1Byte s p a).getD 0) (fun a => (l1Byte t p a).getD 0)

/-- R159, R401: scratchpad loads and stores in the block's own window or its span partner's. -/
def Obligations.Scratchpad : Prop :=
  ∀ (s : State) (p : Pass) (d base off8 : Nat) (sz : Size) (partner : Bool) (w : Block), PlainPass s p → off8 < 2 ^ 8 →
    let n := sz.bytes
    let bid := if partner then p.blk.id.partner.getD p.bid else p.bid
    let addr (l : Nat) : Nat := (BitVec.ofNat 64 (p.sk.v base l).toNat + BitVec.ofInt 64 ((BitVec.ofNat 8 off8).toInt * n)).toNat % 2 ^ 20
    s.blk? bid = some w → (partner = true → p.blk.id.partner ≠ none) → (p.em = 0 ∨ (DataOk p d n ∧ RegOk p base 1)) →
    (∀ l ∈ p.lanes, addr l % n = 0 ∧ addr l + n ≤ w.ps.size ∧ ∀ i, i < n → w.ps.poison.contains ((addr l + i) / 8) = false) →
    (Runs s (.ldsp d partner base sz off8) fun t => LoadResult s t p d n fun l => windowValue w (addr l) n)
    ∧ (Memory.wf w.ps.bytes = true → Runs s (.stsp d partner base sz off8) fun t =>
        t.mem.bytes = s.mem.bytes ∧ (∀ b, b ≠ p.bid → b ≠ bid → t.blk? b = s.blk? b)
        ∧ (∃ k, t.sk? p.bid p.ix = some k ∧ RestKept p.switched k ∧ WentOn p k p.arm.ks ∧ k.r = { p.sk.dropLatches.r with planes := k.r.planes })
        ∧ ∃ w', t.blk? bid = some w' ∧ w'.ps.size = w.ps.size ∧ w'.ps.poison = w.ps.poison ∧
          BytesStored p.lanes addr n (fun l => if n = 8 then (p.sk.vpair d l).toNat else (p.sk.v d l).toNat)
            (byteGet w.ps.bytes) (byteGet w'.ps.bytes))

/-- R205, R206, R356, R365, R419: atomics of all active lanes on one word: one after the other, lanes ascending, each giving the value
before it; `CAS` with the lanes that failed; `RED` without a result. -/
def Obligations.Atomics : Prop :=
  ∀ (s : State) (p : Pass) (d addr data a : Nat) (op : AtomOp) (sc : Scope) (h : Home), PlainPass s p → MemoryOk s → NoUpdates s → CleanL1 s p →
    p.act ≠ 0 → (∀ l ∈ p.lanes, (p.sk.vpair addr l).toNat = a) → noncanon a = false → s.mapOk p.ctx a = true → HomeOk s p a .atomic h →
    RegOk p addr 2 → addr % 2 = 0 → MapsApart s p h →
    let wide := op = .add64 ∨ op = .exch64
    let n := if wide then 8 else 4
    let arg (n r l : Nat) : Nat := if n = 8 then (p.sk.vpair r l).toNat else (p.sk.v r l).toNat
    let new (x y : Nat) : Nat := match op with
      | .add => (x + y) % 2 ^ 32
      | .and => x &&& y
      | .or => x ||| y
      | .xor => x ^^^ y
      | .min => if (BitVec.ofNat 32 y).toInt < (BitVec.ofNat 32 x).toInt then y else x
      | .max => if (BitVec.ofNat 32 x).toInt < (BitVec.ofNat 32 y).toInt then y else x
      | .minz => min x y
      | .maxz => max x y
      | .exch => y
      | .fadd => (fmt32.add .rne x y).1
      | .add64 => (x + y) % 2 ^ 64
      | .exch64 => y
    let old (n : Nat) : Nat := leNat (byteGets s.mem.bytes h.addr n)
    -- the word before lane `l`, or at the end, where the earlier lanes each do `f`
    let before (n : Nat) (f : Nat → Nat → Nat) (l : Nat) : Nat := (p.lanes.filter fun m => decide (m < l)).foldl (fun x m => f x m) (old n)
    let stored (t : State) (n v : Nat) : Prop := BytesStored [0] (fun _ => h.addr) n (fun _ => v) (byteGet s.mem.bytes) (byteGet t.mem.bytes)
    let done (t : State) : State := { s with mem := { s.mem with bytes := t.mem.bytes } }
    (a % n = 0 → DataOk p d n → DataOk p data n → Runs s (.atom d addr data sc op) fun t =>
      stored t n (before n (fun x m => new x (arg n data m)) 16) ∧ LoadResult (done t) t p d n fun l => before n (fun x m => new x (arg n data m)) l)
    ∧ (a % n = 0 → DataOk p data n → s.homePkg p.ctx a = State.pkgOf p.core ∨ s.inWindow (State.trayOf p.core) p.ctx a = false →
      ∀ det : Bool, Runs s (.red det addr data sc op) fun t =>
        stored t n (before n (fun x m => new x (arg n data m)) 16) ∧ SwitchedOn (done t) t p p.arm.ks)
    ∧ ∀ (f : Nat) (w64 : Bool), let n := if w64 then 8 else 4
      let g (x m : Nat) : Nat := if x = arg n d m then arg n data m else x
      a % n = 0 → DataOk p d n → DataOk p data n → Runs s (.cas d addr data sc f w64) fun t =>
        stored t n (before n g 16)
        ∧ ∃ k, t.sk? p.bid p.ix = some k ∧ WentOn p k p.arm.ks ∧ k.r.status = p.sk.r.status
          ∧ (∀ l ∈ p.lanes, (k.mask f).getLsbD l = decide (before n g l ≠ arg n d l))
          ∧ (∀ l, l < 16 → l ∉ p.lanes → (k.mask f).getLsbD l = ((p.sk.mask f).getLsbD l && (f != 0 || !p.sk.r.exited.getLsbD l))) ∧ (∀ i, i ≠ f → k.mask i = p.sk.mask i)
          ∧ LanesLoaded p k d n (fun l => before n g l)

/-- R235, R416: a prefetch without a barrier object changes nothing that a program reads; one bound to an object that holds a barrier
notes its arrival for when the lines are there. -/
def Obligations.Prefetch : Prop :=
  ∀ (s : State) (p : Pass) (cnt kb vx tier bo : Nat), PlainPass s p → NoUpdates s → CleanL1 s p →
    (if kb = 0 then RegOk p vx 2 ∧ vx % 2 = 0 else RegOk p vx 1) →
    (∀ bound : Bool, bound = false ∨ p.act = 0 → Runs s (.pref cnt kb vx tier bo bound) fun t => SwitchedOn s t p p.arm.ks)
    ∧ ∀ v : Nat, p.act ≠ 0 → HomeValue s p (p.k bo).toNat 32 .atomic v → v / 2 ^ 99 = 0 → v / 2 ^ 96 % 2 ^ 3 ≤ 4 → v % 2 ^ 32 ≠ 0 →
      Runs s (.pref cnt kb vx tier bo true) fun t => SwitchedOn s t p p.arm.ks
        ∧ (t.core p.core).prefs = (s.core p.core).prefs ++ if p.gathered ≠ 0 ∧ p.gatherEnds = true
            then [{ bid := p.bid, sk := p.ix, arm := p.ai, obj := (p.k bo).toNat }] else []

/-! ### Swatches -/

/-- R183, R185, R186, R188, R435: naming, reading, counting, swapping and copying swatch lines. -/
def Obligations.Swatches : Prop :=
  ∀ (s : State) (p : Pass), PlainPass s p → NoOwnUpdates s p → SwatchOk s p →
    (∀ (d a b : Nat) (y : Nat → SwLine), RegOk p d 1 → QuadOk p a → RegOk p b 1 →
      (∀ l ∈ p.lanes, LineNamed s p (p.sk.vquad a l) false (y l) ∧ (y l).bad = false ∧ (p.sk.v b l).toNat % 4 = 0 ∧ (p.sk.v b l).toNat ≤ 124) →
      Runs s (.wget d a b) fun t => LoadResult s t p d 4 fun l => lineValue (y l).data (p.sk.v b l).toNat 4)
    ∧ ∀ l : Nat, p.lanes = [l] →
      (∀ (d a sm : Nat) (x : CLine) (h : Home), QuadOk p d → PairOk p a → let e := (p.sk.vpair a l).toNat
        noncanon e = false → e % 128 = 0 → s.mapOk p.ctx e = true → InL1 s p e 128 x →
        let dg := leNat (shake256 (lineBytes x.data) 15)
        dg ≠ 0 →
        (∀ y ∈ s.chainOf h dg, ((s.chainOf h dg).find? fun z => z.data == x.data && !z.bad) = some y →
          (PoolOk s p dg true h → Runs s (.wput d a sm) fun t => QuadResult s t p d sm (fun _ => y.chain * 2 ^ 120 + dg) (fun _ => false)
            ∧ t.mem.lines = s.mem.lines.map fun z =>
                if State.sameLine y z = true ∧ y.count ≠ 0xFFFFFFFF then { z with count := y.count + 1 } else z)
          ∧ (PoolOk s p dg false h → Runs s (.wname d a sm) fun t =>
              QuadResult s t p d sm (fun _ => y.chain * 2 ^ 120 + dg) (fun _ => false) ∧ t.mem.lines = s.mem.lines))
        ∧ (((s.chainOf h dg).find? fun z => z.data == x.data && !z.bad) = none →
          (PoolOk s p dg true h → (s.chainOf h dg).length < 256 →
            (s.mem.lines.filter fun y => y.gran == State.granOf h).length < 384 → Runs s (.wput d a sm) fun t => ∃ n,
              (∀ y ∈ s.chainOf h dg, y.chain ≠ n) ∧ (∀ m, m < n → ∃ y ∈ s.chainOf h dg, y.chain = m)
              ∧ QuadResult s t p d sm (fun _ => n * 2 ^ 120 + dg) (fun _ => false)
              ∧ t.mem.lines = s.mem.lines ++
                  [{ gran := State.granOf h, digest := dg, chain := n, data := x.data, count := 1, key := h.key, bad := false, ctx := p.ctx }])
          ∧ (PoolOk s p dg false h → Runs s (.wname d a sm) fun t => QuadResult s t p d sm (fun _ => 0) (fun _ => true) ∧ t.mem.lines = s.mem.lines)))
      ∧ (∀ (a : Nat) (y : SwLine), QuadOk p a → LineNamed s p (p.sk.vquad a l) true y →
        (Runs s (.wrefInc a) fun t => SwitchedOn s t p p.arm.ks
          ∧ t.mem.lines = s.mem.lines.map fun z =>
              if State.sameLine y z = true ∧ y.count ≠ 0xFFFFFFFF then { z with count := y.count + 1 } else z)
        ∧ (1 < y.count → Runs s (.wrefDec a) fun t => SwitchedOn s t p p.arm.ks
          ∧ t.mem.lines = s.mem.lines.map fun z =>
              if State.sameLine y z = true ∧ y.count ≠ 0xFFFFFFFF then { z with count := y.count - 1 } else z)
        ∧ (y.count = 1 → Runs s (.wrefDec a) fun t => SwitchedOn s t p p.arm.ks
          ∧ t.mem.lines = s.mem.lines.filter fun z => !State.sameLine y z))
      ∧ (∀ (d a b sm : Nat) (h : Home), QuadOk p d → PairOk p a → QuadOk p b → MemoryOk s → NoUpdates s → CleanL1 s p →
        let e := (p.sk.vpair a l).toNat
        noncanon e = false → e % 16 = 0 → s.mapOk p.ctx e = true → HomeOk s p e .atomic h →
        let old := leNat (byteGets s.mem.bytes h.addr 16)
        Runs s (.wswap d a b sm) fun t =>
          Stored s t h.addr 16 (if old = p.sk.vquad d l then p.sk.vquad b l else old)
          ∧ QuadResult (s.withBytes t) t p d sm (fun _ => old) fun _ => decide (old ≠ p.sk.vquad d l))
      ∧ ∀ (a b : Nat) (y : SwLine) (x : CLine), PairOk p a → QuadOk p b → LineNamed s p (p.sk.vquad b l) false y → y.bad = false →
        let e := (p.sk.vpair a l).toNat
        noncanon e = false → e % 128 = 0 → s.mapOk p.ctx e = true → State.lineIn (s.core p.core).l1 p.ctx e = some x → x.w = true →
        Runs s (.wcopy a b) fun t => SwitchedOn s t p p.arm.ks
          ∧ BytesStored [0] (fun _ => e) 128 (fun _ => leNat (lineBytes y.data)) (fun a => (l1Byte s p a).getD 0) (fun a => (l1Byte t p a).getD 0)

/-! ### Waits and queues -/

/-- R221, R234, R237, R261, R300, R348, R360, R367, R427, R434: waits whose condition is met go on; others park; `CWAIT` on a counter whose FAULT
bit is set raises COPY_FAULT. -/
def Obligations.Waits : Prop :=
  ∀ (s : State) (p : Pass), PlainK s p → NoUpdates s →
    (∀ (kc kt v : Nat), PlaceValue s p (p.k kc) 4 .read v →
      let met := (v + 2 ^ 31 - (p.k kt).toNat % 2 ^ 31) % 2 ^ 31 < 2 ^ 30
      (v < 2 ^ 31 ∧ met ∨ p.repeated = true → Runs s (.cwait kc kt) fun t => OnK s t p p.kregs)
      ∧ (v < 2 ^ 31 → ¬met → p.repeated = false → Runs s (.cwait kc kt) fun t => ParkedK s t p .cwait)
      ∧ (2 ^ 31 ≤ v → p.repeated = false → exec (.cwait kc kt) s =
          .next (((s.switchPoint p).placeRead p (p.k kc) 4 .read).1.raise p (p.trapAt .copyFault .none p.em (p.k kc)))))
    ∧ (∀ (c : ICond) (sc : Scope) (ka kb v : Nat), HomeValue s p (p.k ka).toNat 8 .read v →
      (condHolds c (BitVec.ofNat 64 v) (p.k kb) = true → Runs s (.waitcmp c sc ka kb) fun t => OnK s t p p.kregs)
      ∧ (condHolds c (BitVec.ofNat 64 v) (p.k kb) = false → Runs s (.waitcmp c sc ka kb) fun t => ParkedK s t p .waitcmp))
    ∧ (∀ kr ks v : Nat, PlaceValue s p (p.k kr) 32 .read v → (p.k ks).toNat < 2 ^ 33 →
      let n := v / 2 ^ 136 % 2 ^ 7
      let i := (p.k ks).toNat % 2 ^ 32
      let side := (p.k ks).toNat / 2 ^ 32
      1 ≤ n → n ≤ 64 → v / 2 ^ 128 % 4 ≠ 3 →
      let now := v / 2 ^ (64 * side + i % n) % 2
      let met := v / 2 ^ 128 % 4 = 0 ∧ now = (if side = 0 then (i / n + 1) % 2 else i / n % 2)
      (met ∨ p.repeated = true → Runs s (.srwait kr ks) fun t => OnK s t p p.kregs)
      ∧ (¬met → p.repeated = false → Runs s (.srwait kr ks) fun t => ParkedK s t p .srwait))
    ∧ (LanePass s p → ∀ kb v q : Nat, HomeValue s p (p.k kb).toNat 32 .read v → v / 2 ^ 99 = 0 → v / 2 ^ 96 % 2 ^ 3 ≤ 4 → v % 2 ^ 32 ≠ 0 →
      p.sk.x.bo = some ((p.k kb).toNat, q) →
      (v / 2 ^ 64 % 2 ^ 32 ≠ q ∨ p.repeated = true → Runs s (.bowait kb) fun t => SwitchedOn s t p p.arm.ks)
      ∧ (v / 2 ^ 64 % 2 ^ 32 = q → p.repeated = false → Runs s (.bowait kb) fun t => ParkedOn s t p .bowait))

/-- R236, R237, R360, R427: what a ring's or a barrier object's arrival writes. -/
def Obligations.Arrivals : Prop :=
  ∀ (s : State) (p : Pass), PlainPass s p → NoUpdates s → CleanL1 s p →
    (∀ (kr ks v : Nat) (sc : Scope), (p.k kr).getLsbD 63 = true → Memory.wf p.blk.ps.bytes = true → PlaceValue s p (p.k kr) 32 .read v →
      (p.k ks).toNat < 2 ^ 33 →
      let n := v / 2 ^ 136 % 2 ^ 7
      let i := (p.k ks).toNat % 2 ^ 32
      let side := (p.k ks).toNat / 2 ^ 32
      1 ≤ n → n ≤ 64 → v / 2 ^ 128 % 4 ≠ 3 →
      Runs s (.srput kr ks sc) fun t => SwitchedOn s t p p.arm.ks ∧ ∃ b, t.blk? p.bid = some b ∧
        ∀ a j, j < 8 → (byteGet b.ps.bytes a).getLsbD j =
          if a = (p.k kr).toNat % 2 ^ 20 + 8 * side + i % n / 8 ∧ j = i % n % 8 then decide (i / n % 2 = 0) else (byteGet p.blk.ps.bytes a).getLsbD j)
    ∧ ∀ (kb v : Nat) (h : Home), MemoryOk s → s.mem.held = [] → HomeValue s p (p.k kb).toNat 32 .atomic v → HomeOk s p ((p.k kb).toNat + 4) .atomic h →
      v / 2 ^ 99 = 0 → v / 2 ^ 96 % 2 ^ 3 ≤ 4 → v % 2 ^ 32 ≠ 0 →
      let expect := v % 2 ^ 32
      let arrived := v / 2 ^ 32 % 2 ^ 32
      let phase := v / 2 ^ 64 % 2 ^ 32
      Runs s (.boarr kb) fun t =>
        Stored s t h.addr 8 (if expect ≤ arrived + 1 then 2 ^ 32 * ((phase + 1) % 2 ^ 32) else arrived + 1 + 2 ^ 32 * phase)
        ∧ ∃ k, t.sk? p.bid p.ix = some k ∧ WentOn p k p.arm.ks ∧ k.x = { p.sk.x with bo := some ((p.k kb).toNat, phase), arrs := mapSet p.sk.x.arrs (p.k kb).toNat phase }
          ∧ k.r = { p.sk.dropLatches.r with planes := k.r.planes }

/-- R40, R372: decision queues. -/
def Obligations.DecisionQueues : Prop :=
  ∀ (s : State) (p : Pass) (kd kv km : Nat), PlainK s p → NoUpdates s →
    (p.coach = true → let m : Lanes := laneSet fun i => (p.k km).getLsbD i &&
          p.blk.skeins.any fun k => k.idx == i && k.life != .draining && k.life != .retired
      (p.blk.dq.length < 16 → Runs s (.dqpush kv km) fun t => OnK s t p p.kregs
        ∧ ∃ b, t.blk? p.bid = some b
          ∧ b.dq = p.blk.dq ++ if m = 0 then [] else [{ value := p.k kv, mask := m, popped := 0, carry := none }])
      ∧ (16 ≤ p.blk.dq.length → Runs s (.dqpush kv km) fun t => ParkedK s t p .dqpush ∧ ∃ b, t.blk? p.bid = some b ∧ b.dq = p.blk.dq))
    ∧ (p.coach = false → p.sk.frame = none →
      (∀ (e : DqEnt) (l r : List DqEnt), p.blk.dq = l ++ e :: r → (∀ x ∈ l, x.mask.getLsbD p.ix = false ∨ x.popped.getLsbD p.ix = true) →
        e.mask.getLsbD p.ix = true → e.popped.getLsbD p.ix = false →
        Runs s (.dqpop kd) fun t => SwitchedOn s t p (mapSet p.arm.ks kd e.value) ∧ ∃ b, t.blk? p.bid = some b
          ∧ b.dq = l ++ (if e.mask &&& ~~~(e.popped ||| laneBit p.ix) = 0 then [] else [{ e with popped := e.popped ||| laneBit p.ix }]) ++ r)
      ∧ ((∀ x ∈ p.blk.dq, x.mask.getLsbD p.ix = false ∨ x.popped.getLsbD p.ix = true) →
        Runs s (.dqpop kd) fun t => ParkedOn s t p .dqpop))

/-- R239, R240, R241, R242, R431: a task entry is committed at TAIL, and taken at HEAD; on a full queue `TQPUSH` parks, on an empty one `TQPOP`.
That the low five bits of ENTRIES are read as 0 is the model's reading (log 26). -/
def Obligations.TaskQueues : Prop :=
  ∀ (s : State) (p : Pass) (kq r v : Nat), PlainPass s p → NoUpdates s → CleanL1 s p → MemoryOk s → p.sk.frame = none → r % 4 = 0 →
    HomeValue s p (p.k kq).toNat 64 .atomic v → v < 2 ^ 160 →
    let q := (p.k kq).toNat
    let cap := v / 2 ^ 64 % 2 ^ 32
    let head := v / 2 ^ 96 % 2 ^ 32
    let tail := v / 2 ^ 128 % 2 ^ 32
    let slot (i : Nat) : Nat := v % 2 ^ 64 / 32 * 32 + 32 * (i % cap)
    (∃ i, i ≤ 16 ∧ cap = 2 ^ i) → s.replayOf p = none → (∀ e ∈ s.mem.tqwait, e.1 ≠ State.syncKey p.ctx q) →
    ((tail + 2 ^ 32 - head) % 2 ^ 32 = cap → (p.k r).toNat % 2 ^ 16 = 0 → (p.k r).toNat / 2 ^ 17 % 2 ^ 7 = 0 → Runs s (.tqpush kq r) fun t => ParkedOn s t p (.tqpush q))
    ∧ (∀ (h g : Home), HomeOk s p (slot tail) .atomic h → HomeOk s p (q + 16) .atomic g → noncanon (slot tail) = false →
      s.mapOk p.ctx (slot tail) = true → g.addr / 128 ≠ h.addr / 128 → (tail + 2 ^ 32 - head) % 2 ^ 32 ≠ cap →
      let w (i : Nat) : Nat := (p.k (r + i)).toNat
      w 0 % 2 ^ 16 = 0 → w 0 / 2 ^ 17 % 2 ^ 7 = 0 →
      Runs s (.tqpush kq r) fun t => SwitchedOn (s.withBytes t) t p p.arm.ks
        ∧ leNat (byteGets t.mem.bytes h.addr 32) =
            (w 0 % 2 ^ 32 ||| 2 ^ 16) + 2 ^ 32 * tail + 2 ^ 64 * (s.time.ns % 2 ^ 64) + 2 ^ 128 * w 2 + 2 ^ 192 * w 3
        ∧ leNat (byteGets t.mem.bytes g.addr 4) = (tail + 1) % 2 ^ 32
        ∧ ∀ a, ¬(h.addr ≤ a ∧ a < h.addr + 32) → ¬(g.addr ≤ a ∧ a < g.addr + 4) → byteGet t.mem.bytes a = byteGet s.mem.bytes a)
    ∧ (∀ (x : Nat) (g : Home), head ≠ tail → HomeValue s p (slot head) 32 .read x → HomeOk s p (q + 12) .atomic g →
      Runs s (.tqpop r kq) fun t => Stored s t g.addr 4 ((head + 1) % 2 ^ 32) ∧ ∃ ks, SwitchedOn (s.withBytes t) t p ks
        ∧ (∀ i, i < 4 → mapGetD ks (r + i) 0 = BitVec.ofNat 64 (x / 2 ^ (64 * i))) ∧ ∀ i, ¬(r ≤ i ∧ i < r + 4) → mapGetD ks i 0 = p.k i)
    ∧ (head = tail → Runs s (.tqpop r kq) fun t => ParkedOn s t p (.tqpop q)
      ∧ t.mem.tqwait = (s.mem.tqwait.filter fun e => e.2.2 != p.who) ++ [(State.syncKey p.ctx q, r, p.who)])

/-! ### Engines and resources -/

/-- R210, R223, R229, R348, R350, R352, R370, R404: an engine command joins its queue with the block's next number, or its issuer
parks where the queue is full; `ACCSWAP` is held by its entry. -/
def Obligations.EngineCommands : Prop :=
  ∀ (s : State) (p : Pass), PlainK s p →
    let c := s.core p.core
    let full := 64 ≤ c.mq.length ∨ c.reset ≠ none
    (p.coach = true ∨ p.sk.role = 2 → ∀ (kab tile slot fl kc : Nat) (span : Bool), kab % 2 = 0 → tile < p.blk.ntiles →
      (span = true → p.blk.id.span = 2) → (p.k kab).toNat < 2 ^ 57 → (p.k (kab + 1)).toNat < 2 ^ 57 → CounterOk s p (p.k kc) →
      bit1 s.feat 1 = true →
      (¬full → Runs s (.mma kab span tile slot fl kc) fun t => OnK s t p p.kregs
        ∧ Queued s t p (p.command 0 tile slot fl span (p.k kab) (p.k (kab + 1)) (p.k kc) (c.slot slot)))
      ∧ (full → Runs s (.mma kab span tile slot fl kc) fun t => ParkedK s t p .mqueue ∧ (t.core p.core).mq = c.mq))
    ∧ (p.coach = true ∨ p.sk.role = 2 → ∀ tile kc : Nat, tile < p.blk.ntiles → CounterOk s p (p.k kc) →
      (¬full → Runs s (.accz tile kc) fun t => OnK s t p p.kregs ∧ Queued s t p (p.command 1 tile 0 0 false 0 0 (p.k kc) []))
      ∧ (full → Runs s (.accz tile kc) fun t => ParkedK s t p .mqueue ∧ (t.core p.core).mq = c.mq))
    ∧ (∀ tile : Nat, tile < p.blk.ntiles →
      (c.mq.length < 64 → Runs s (.accswap tile) fun t => Queued s t p (p.command 2 tile p.plane 0 false 0 0 0 [])
        ∧ (p.coach = false → ∃ k a, t.sk? p.bid p.ix = some k ∧ k.r = { p.sk.dropLatches.r with planes := k.r.planes }
          ∧ k.arms[p.ai]? = some a ∧ a.hold = some (p.blk.ncmd % 2 ^ 16) ∧ a.ks = p.arm.ks
          ∧ (p.last = true → a.path = p.arm.path.map fun x => { x with off := p.off + p.len }))
        ∧ (p.coach = true → ∃ b x, t.blk? p.bid = some b ∧ b.coach = some x ∧ x.hold = some (p.blk.ncmd % 2 ^ 16)
          ∧ x.off = p.off + p.len ∧ x.ks = p.co.ks))
      ∧ (64 ≤ c.mq.length → Runs s (.accswap tile) fun t => ParkedK s t p .mqueue ∧ (t.core p.core).mq = c.mq))
    ∧ (p.coach = true ∨ p.sk.role = 1 → NoUpdates s → CleanL1 s p → ∀ (kc ks kx : Nat) (x y : CLine),
      (p.k ks).toNat < 2 ^ 57 → (p.k kx).getLsbD 63 = false → CounterOk s p (p.k kc) →
      let a := (p.k ks).toNat / 128 * 128
      s.mapOk p.ctx a = true → s.mapOk p.ctx (a + 128) = true → InL1 s p a 8 x → InL1 s p (a + 128) 8 y →
      lineValue x.data a 8 / 2 ^ 62 % 2 = 0 ∨ bit1 s.feat 2 = true →
      (c.copies.length < 96 → Runs s (.dcopy kc ks kx) fun t => OnK s t p p.kregs
        ∧ (t.core p.core).copies = c.copies ++ [p.copy (p.k ks) (p.k kx) (p.k kc) ((s.ctx? p.ctx).elim 0 (·.stores))]
        ∧ ∃ b, t.blk? p.bid = some b ∧ b.ncopy = p.blk.ncopy + 1)
      ∧ (96 ≤ c.copies.length → Runs s (.dcopy kc ks kx) fun t => ParkedK s t p .copyLimit ∧ (t.core p.core).copies = c.copies))

/-- R86, R87, R153, R349, R351, R355: lanes read the visible plane of a tile and write it; an algebra slot loads a legal table, or the
preloaded one. -/
def Obligations.TilesAndTables : Prop :=
  ∀ (s : State) (p : Pass),
    (LanePass s p → ∀ (d tile : Nat) (k : Bool) (w : Src), Fields p k d 1 [(w, 1)] → tile < p.blk.ntiles →
      let x := mapGetD p.blk.tiles tile Tile.zero
      (∀ l ∈ p.lanes, (p.val32 w l).toNat < 16384 ∧ x.pVis.contains (p.val32 w l).toNat = false) →
      Runs s (.accrd d k tile w) fun t => LaneResult s t p d k (fun l => mapGetD x.vis (p.val32 w l).toNat 0) 0)
    ∧ (LanePass s p → ∀ (tile : Nat) (w a : Src), Fields p true 0 0 [(w, 1), (a, 1)] → tile < p.blk.ntiles →
      (∀ l ∈ p.lanes, (p.val32 w l).toNat < 16384) →
      let x := mapGetD p.blk.tiles tile Tile.zero
      Runs s (.accwr tile w a) fun t => t.mem = s.mem ∧ t.cores = s.cores ∧ (∀ b, b ≠ p.bid → t.blk? b = s.blk? b)
        ∧ (∃ k, t.sk? p.bid p.ix = some k ∧ RestKept p k ∧ WentOn p k p.arm.ks ∧ k.r = { p.sk.r with planes := k.r.planes })
        ∧ ∃ b y, t.blk? p.bid = some b ∧ (∀ i, i ≠ tile → mapGet b.tiles i = mapGet p.blk.tiles i) ∧ mapGet b.tiles tile = some y
          ∧ y.work = x.work ∧ y.pWork = x.pWork
          ∧ (∀ l ∈ p.lanes, (∀ m ∈ p.lanes, l < m → p.val32 w m ≠ p.val32 w l) →
              mapGetD y.vis (p.val32 w l).toNat 0 = p.val32 a l ∧ y.pVis.contains (p.val32 w l).toNat = false)
          ∧ ∀ n, (∀ l ∈ p.lanes, (p.val32 w l).toNat ≠ n) →
              mapGetD y.vis n 0 = mapGetD x.vis n 0 ∧ y.pVis.contains n = x.pVis.contains n)
    ∧ (PlainK s p → NoOwnUpdates s p → ∀ (slot ka : Nat) (x : CLine), let a := (p.k ka).toNat
      noncanon a = false → a % 128 = 0 → s.mapOk p.ctx a = true → bit1 s.feat 3 = true → InL1 s p a 128 x →
      let t := (lineBytes x.data).map (·.toNat)
      (tableOk t = true → Runs s (.atab slot ka) fun u => OnK s u p p.kregs ∧ (u.core p.core).slot slot = t
        ∧ ∀ i, i ≠ slot → (u.core p.core).slot i = (s.core p.core).slot i)
      ∧ (tableOk t = false →
        exec (.atab slot ka) s = .next ((s.countCore p.core 0x07 p.ctx).raise p (p.trap .algebraTable .none))))
    ∧ (LanePass s p ∨ CoachPass s p → ∀ slot : Nat, (s.core p.core).slots.Pairwise (fun a b => a.1 < b.1) →
      Runs s (.atabDefault slot) fun u => (u.core p.core).slot slot = Config.preloaded slot
        ∧ ∀ i, i ≠ slot → (u.core p.core).slot i = (s.core p.core).slot i)

/-- R44, R45, R78, R238, R384, R385, R422: lane registers and tiles asked for and given back, and the change of role, where no other
request of the core waits and nothing is evicted. -/
def Obligations.Resources : Prop :=
  ∀ (s : State) (p : Pass) (n : Nat), p.trapMode = false → (s.core p.core).grants = [] → 1 ≤ n →
    let q (tiles : Bool) (m : Nat) : Grant := { who := p.who, bid := p.bid, sk := p.ix, tiles := tiles, amount := m, parked := true }
    (LanePass s p → p.arm.wait = none → p.sk.arms.length ≠ 2 → n ≤ 30 →
      (p.sk.win.allot + 8 * n ≤ 256 → (∀ k ∈ p.blk.skeins, k.x.evict = none) →
        (8 * n ≤ s.freeRegs p.core → Runs s (.growRegs n) fun t => OthersKept s t p ∧ ∃ k, t.sk? p.bid p.ix = some k
          ∧ WentOn p k p.arm.ks ∧ Relaid p k (p.sk.win.allot + 8 * n))
        ∧ (s.freeRegs p.core < 8 * n → Runs s (.growRegs n) fun t => ParkedOn s t p (.grow false (8 * n))
          ∧ (t.core p.core).grants = [q false (8 * n)]))
      ∧ (16 + 8 * n ≤ p.sk.win.allot → p.sk.win.base + p.sk.win.reach ≤ p.sk.win.spill + (p.sk.win.allot - 8 * n) →
        Runs s (.shrinkRegs n) fun t => OthersKept s t p ∧ ∃ k, t.sk? p.bid p.ix = some k ∧ WentOn p k p.arm.ks
          ∧ Relaid p k (p.sk.win.allot - 8 * n))
      ∧ (256 < p.sk.win.allot + 8 * n → SwitchTraps s p (.growRegs n) .illegal .operand)
      ∧ (16 + 8 * n ≤ p.sk.win.allot → p.sk.win.spill + (p.sk.win.allot - 8 * n) < p.sk.win.base + p.sk.win.reach →
        SwitchTraps s p (.shrinkRegs n) .windowOverflow .none))
    ∧ (LanePass s p ∧ p.arm.wait = none ∨ CoachPass s p ∧ p.co.wait = none →
      (p.blk.ntiles + n ≤ 16 → p.blk.evicted = 0 →
        (n ≤ s.freeTiles p.core → Runs s (.growTiles n) fun t => OnK s t p p.kregs ∧ ∃ b, t.blk? p.bid = some b
          ∧ b.ntiles = p.blk.ntiles + n
          ∧ ∀ i, mapGetD b.tiles i Tile.zero = if i < p.blk.ntiles then mapGetD p.blk.tiles i Tile.zero else Tile.zero)
        ∧ (s.freeTiles p.core < n → Runs s (.growTiles n) fun t => ParkedK s t p (.grow true n)
          ∧ (t.core p.core).grants = [q true n]))
      ∧ (n ≤ p.blk.ntiles → p.blk.id.partner = none →
        (∀ m ∈ (s.core p.core).mq, m.bid = p.bid → m.tile < p.blk.ntiles - n) → Runs s (.shrinkTiles n) fun t => OnK s t p p.kregs
          ∧ ∃ b, t.blk? p.bid = some b ∧ b.ntiles = p.blk.ntiles - n
          ∧ ∀ i, mapGetD b.tiles i Tile.zero = if i < p.blk.ntiles - n then mapGetD p.blk.tiles i Tile.zero else Tile.zero)
      ∧ (16 < p.blk.ntiles + n → SwitchTraps s p (.growTiles n) .illegal .operand)
      ∧ (p.blk.ntiles < n → SwitchTraps s p (.shrinkTiles n) .illegal .operand))
    ∧ (LanePass s p → NoParts s → ∀ role o : Nat, p.sk.converged = true →
      (∀ x ∈ (s.core p.core).copies, x.bid = p.bid → x.who ≠ p.ix) →
      (∀ m ∈ (s.core p.core).mq, m.bid = p.bid → m.who = p.ix → m.kind = 2) →
      (∀ i ∈ (s.core p.core).incs, i.bid = p.bid → i.who = p.ix → i.isCopy = false) →
      (p.sk.win.allot < p.sk.win.reach → SwitchTraps s p (.rswitch role) .windowOverflow .none)
      ∧ (p.sk.win.reach ≤ p.sk.win.allot → o = (s.launch? p.blk.id.lid).elim 0 (fun l => natAt l.packet (52 + 4 * role) 4) →
        TargetOk s p o → Runs s (.rswitch role) fun t => ∃ k a, OnlySkeinC s t p k
          ∧ k = { p.sk.dropLatches with role := role, win := { p.sk.win with base := 64 * role, spill := 64 * role },
                                        r := { p.sk.dropLatches.r with planes := [] }, arms := k.arms }
          ∧ ArmIs p.switched k a
          ∧ a = { p.arm with issue := none, path := p.arm.path.map (fun (x : Path) => { x with off := o, base := 64 * role }), sw := p.arm.sw || p.sk.pends p.ai }))

/-! ### Events: the host die -/

/-- R169, R192, R303, R313-R315, R317, R320, R324: the commands of a package relay, and writes of its registers. Rules of the model's own in
them: which values of a command's fields are bad (log 59), the width of writes to CMD (log 86), and which swatch lines go with the granules of a
pool (log 51). -/
def Obligations.RelayCommands : Prop :=
  ∀ (s : State) (pkg : Nat) (c : List Byte),
    let x := natAt c 2 2 % 4096
    let a := natAt c 8 8
    let n := natAt c 16 8
    let row : Nat → Instr
      | 1 => .shootdown pkg | 2 => .faultReply pkg | 3 => .pin pkg | 4 => .unpin pkg | 5 => .ingressBind pkg | 6 => .ingressUnbind pkg
      | 7 => .rwinReg pkg | 8 => .rwinDereg pkg | _ => .aperture pkg
    (HostActs s pkg → (s.host pkg).go = some c → natAt c 0 1 = 0 ∨ 9 < natAt c 0 1 →
        exec (.reservedRelayCommand pkg) s = .next (s.ended pkg 1))
    ∧ (¬HostActs s pkg → exec (.reservedRelayCommand pkg) s = .next s ∧ ∀ op : Nat, exec (row op) s = .next s)
    ∧ (∀ op : Nat, 1 ≤ op → op ≤ 9 → HostActs s pkg → (s.host pkg).go = some c → natAt c 0 1 = op →
        (cmdBad c = true → exec (row op) s = .next (s.ended pkg 1))
        ∧ (cmdBad c = false → (op = 5 ∨ op = 6 → bit1 s.feat 0 = true) → s.ctx? x = none → exec (row op) s = .next (s.ended pkg 2)))
    ∧ (CommandOk s pkg c 1 → exec (.shootdown pkg) s =
        .next (({ s with shoots := s.shoots ++ [{ pkg := pkg, ctx := x, va := a, len := n }] } : State).modHost pkg fun h => { h with go := none }))
    ∧ (∀ (q : Shoot) (r : List Shoot), s.shoots = q :: r → q.pkg = pkg →
        let hit (l : CLine) : Prop := (l.tag = none ∨ l.tag = some q.ctx) ∧ Meets q.va q.len l.va 128
        let old (l : Leaf) : Prop := l.ctx = q.ctx ∧ Meets q.va q.len l.va l.size
        (∀ e ∈ s.cores, ∀ l ∈ e.2.l1, hit l → l.dirty = 0) → (∀ e ∈ s.chans, ∀ l ∈ e.2.leaves, old l → l.pinned = false) →
        Runs s (.shootdownDone pkg) fun t => t.shoots = r ∧ t.mem = { s.mem with lines := t.mem.lines, readers := t.mem.readers }
          ∧ t.host pkg = { s.host pkg with go := none, done := true, status := 0 }
          ∧ (∀ ch l, (l ∈ (t.chan ch).leaves ↔ l ∈ (s.chan ch).leaves ∧ ¬old l) ∧ (l ∈ (t.chan ch).past ↔ l ∈ (s.chan ch).past ∧ ¬old l))
          ∧ (∀ g l, l ∈ (t.core g).l1 ↔ l ∈ (s.core g).l1 ∧ ¬hit l) ∧ (∀ d l, l ∈ (t.die d).rdc ↔ l ∈ (s.die d).rdc ∧ ¬hit l)
          ∧ (∀ y l, l ∈ (t.tray y).slices ↔ l ∈ (s.tray y).slices ∧ ¬hit l)
          ∧ (∀ e, e ∈ t.mem.readers → e ∈ s.mem.readers)
          ∧ let pools := ∃ e ∈ s.chans, ∃ l ∈ e.2.leaves ++ e.2.past, old l ∧ leafClass l.entry = 1
            (¬pools → t.mem.lines = s.mem.lines)
            ∧ (pools → t.mem.lines = s.mem.lines.filterMap fun (y : SwLine) => (s.poolOwner y).map fun c => { y with ctx := c }))
    ∧ (CommandOk s pkg c 2 → ∀ (b : Block) (k : Skein) (m : Arm) (w : Lanes) (va : Nat) (f : Bool),
        (mapVals s.blocks).find? (fun y => y.id.ctx == x && y.id.seq == natAt c 8 6 && y.id.idx == natAt c 16 8) = some b →
        s.blk? b.id.bid = some b → natAt c 24 1 < 16 → natAt c 25 1 = 0 → b.skeins[natAt c 24 1]? = some k → k.arms = [m] →
        m.wait = some (.fault w va f) → ∀ z, s.ctx? x = some z →
        (natAt c 26 1 ≠ 1 → z.saved = 0 → exec (.faultReply pkg) s =
          .next (State.ended { s.modArm b.id.bid (natAt c 24 1) 0 (fun y => { y with wait := none }) with
            mem := { s.mem with writes := s.mem.writes + 1 } } pkg 0))
        ∧ (natAt c 26 1 ≠ 1 → z.saved = 1 → exec (.faultReply pkg) s =
          .next (State.ended (s.modSk b.id.bid (natAt c 24 1) fun y => { y with arms := [{ m with wait := some (.fault w va true) }] }) pkg 0))
        ∧ (z.saved = 2 → exec (.faultReply pkg) s =
          .next (State.ended (s.modCtx x fun y => { y with replies := y.replies ++ [c] }) pkg 0))
        ∧ (natAt c 26 1 = 1 → z.saved = 0 → k.frame = none → ∀ te, s.handler b = some te → Runs s (.faultReply pkg) fun t =>
          t.host pkg = { s.host pkg with go := none, done := true, status := 0 }
          ∧ ∃ k' y, t.sk? b.id.bid (natAt c 24 1) = some k' ∧ k'.frame ≠ none ∧ k'.arms = [y]
            ∧ y.path = some { off := te, lanes := k.live, base := k.win.base } ∧ (mapGetD y.ks 1 0).toNat % 2 ^ 16 = 0x1B08
            ∧ mapGetD y.ks 2 0 = BitVec.ofNat 64 w.toNat ∧ mapGetD y.ks 3 0 = BitVec.ofNat 64 va))
    ∧ (CommandOk s pkg c 2 → (∀ b ∈ mapVals s.blocks, b.id.ctx ≠ x ∨ b.id.seq ≠ natAt c 8 6 ∨ b.id.idx ≠ natAt c 16 8) →
        exec (.faultReply pkg) s = .next (s.ended pkg 5))
    ∧ (CommandOk s pkg c 3 → ∀ (size : Nat) (e : W64), s.walk x a = .ok (size, e) → leafPin e = true →
        let base := a / size * size
        let l : Leaf := { ctx := x, va := base, size := size, entry := e, pinned := true }
        (s.pinRoom x base size = true → Runs s (.pin pkg) fun t => t.mem = s.mem
          ∧ t.host pkg = { s.host pkg with go := none, done := true, status := 0 }
          ∧ (∀ ch ∈ s.pageChans x base size, l ∈ (t.chan ch).leaves ∧ ∀ y, y = ch ∨ y = State.pairOf ch →
            (t.chan y).lend ≠ 1 ∧ (t.chan y).lend ≠ 2)
          ∧ ∀ ch y, (y.ctx ≠ x ∨ y.va ≠ base ∨ y.size ≠ size) → (y ∈ (t.chan ch).leaves ↔ y ∈ (s.chan ch).leaves))
        ∧ (s.pinRoom x base size = false → exec (.pin pkg) s = .next (s.ended pkg 4)))
    ∧ (CommandOk s pkg c 4 → Runs s (.unpin pkg) fun t => t.mem = s.mem
        ∧ t.host pkg = { s.host pkg with go := none, done := true, status := 0 }
        ∧ let out (y : Leaf) : Prop := y.pinned = true ∧ y.ctx = x ∧ y.va ≤ a ∧ a < y.va + y.size
          ∀ ch y, (y ∈ (t.chan ch).leaves ↔ y ∈ (s.chan ch).leaves ∧ ¬out y)
            ∧ (y ∈ (t.chan ch).past ↔ y ∈ (s.chan ch).past ∨ ∃ z ∈ (s.chan ch).leaves, out z ∧ y = { z with pinned := false }))
    ∧ (CommandOk s pkg c 5 → ∀ l : Launch,
        (mapVals s.launches).find? (fun y => y.ctx == x && y.seq == natAt c 24 6 && !y.done && y.resident) = some l →
        natAt c 32 8 < l.total → natAt c 40 4 + 32 ≤ l.scratch → natAt c 44 4 + natAt c 48 2 ≤ l.scratch →
        ((∀ y ∈ (s.host pkg).binds, y.port ≠ natAt c 8 1 ∨ y.index ≠ natAt c 9 1) → exec (.ingressBind pkg) s =
          .next ((s.modHost pkg fun h => { h with binds := h.binds ++ [bindingOf c l.lid] }).ended pkg 0))
        ∧ ((∃ y ∈ (s.host pkg).binds, y.port = natAt c 8 1 ∧ y.index = natAt c 9 1) → exec (.ingressBind pkg) s = .next (s.ended pkg 6)))
    ∧ (CommandOk s pkg c 6 → Runs s (.ingressUnbind pkg) fun t => ∃ l, (∀ y, y ∈ l ↔ y ∈ (s.host pkg).binds ∧
          ¬(y.port = natAt c 8 1 ∧ y.index = natAt c 9 1))
        ∧ t = (s.modHost pkg fun h => { h with binds := l }).ended pkg 0)
    ∧ (CommandOk s pkg c 7 → let i := natAt c 8 1
        ((∀ t, t < 32 → mapGet (s.tray t).wins i = none) → Runs s (.rwinReg pkg) fun t =>
          t.host pkg = { s.host pkg with go := none, done := true, status := 0 }
          ∧ ∀ q, q < 32 → mapGet (t.tray q).wins i = some (x, n, natAt c 24 8))
        ∧ ((∃ t, t < 32 ∧ mapGet (s.tray t).wins i ≠ none) → exec (.rwinReg pkg) s = .next (s.ended pkg 6)))
    ∧ (CommandOk s pkg c 8 → (∀ t, t < 32 → (s.tray t).parts = []) → (∀ t, t < 32 → (s.tray t).wins.Pairwise fun y z => y.1 < z.1) →
        Runs s (.rwinDereg pkg) fun t => t.host pkg = { s.host pkg with go := none, done := true, status := 0 } ∧ t.mem = s.mem
          ∧ ∀ q, q < 32 → mapGet (t.tray q).wins (natAt c 8 1) = none
            ∧ ∀ i, i ≠ natAt c 8 1 → mapGet (t.tray q).wins i = mapGet (s.tray q).wins i)
    ∧ (CommandOk s pkg c 9 → let i := natAt c 8 1
        (natAt c 24 1 % 2 = 1 → exec (.aperture pkg) s =
          .next ((s.modHost pkg fun h => { h with apert := mapSet h.apert i (x, n) }).ended pkg 0))
        ∧ (natAt c 24 1 % 2 = 0 → exec (.aperture pkg) s =
          .next ((s.modHost pkg fun h => { h with apert := mapErase h.apert i }).ended pkg 0)))
    ∧ RegisterWrites s pkg

/-! ### Events: memory -/

/-- R167, R171, R196, R206, R310, R311, R318: requests at their homes, their responses, and write-backs. -/
def Obligations.MemoryTraffic : Prop :=
  ∀ s : State, MemoryOk s →
    (∀ (q : Req) (h : Home), ReqPending s q → q.kind = 1 → HomeAt s q.ctx q.va .write h → NoPartsOf s q.ctx q.va → q.va % 128 + q.n ≤ 128 →
      (∀ x ∈ s.mem.reqs, x.kind = 1 → x.pkg = q.pkg → x.state = 0 → q.rid ≤ x.rid) →
      (s.switchCut q.pkg q.ctx q.va = false → Runs s (.homeRequest q.rid) fun t =>
        Stored s t h.addr q.n q.data.toNat ∧ t.mem.reqs = performed s.mem.reqs q.rid ∧ BlocksKept s t)
      ∧ (s.switchCut q.pkg q.ctx q.va = true → exec (.homeRequest q.rid) s =
        .next { s with mem := { s.mem with reqs := s.mem.reqs.filter fun x => x.rid != q.rid } }))
    ∧ (∀ (q : Req) (h : Home), ReqPending s q → q.kind = 3 ∨ (q.kind = 2 ∧ s.inWindow (q.pkg / 4) q.ctx q.va = false) →
      HomeAt s q.ctx q.va .atomic h → IssuersClean s q.froms q.ctx q.va →
      let n := atomBytes (atomFrom q.op)
      q.va % n = 0 → Runs s (.homeRequest q.rid) fun t =>
        Stored s t h.addr n (atomOf (atomFrom q.op) (leNat (byteGets s.mem.bytes h.addr n)) q.data.toNat)
          ∧ t.mem.reqs = performed s.mem.reqs q.rid ∧ BlocksKept s t
          ∧ ∀ f ∈ q.froms, ∀ b, s.blk? f.bid = some b → State.lineIn (t.core b.id.core).l1 q.ctx q.va = none)
    ∧ (∀ q : Req, ReqPending s q → q.kind = 2 → s.inWindow (q.pkg / 4) q.ctx q.va = true → exec (.homeRequest q.rid) s = .next s)
    ∧ (∀ q : Req, s.mem.reqs.find? (fun x => x.rid == q.rid) = some q → q.state = 1 →
      exec (.memoryResponse q.rid false) s =
        .next { s with mem := { s.mem with reqs := s.mem.reqs.filter fun x => x.rid != q.rid, writes := s.mem.writes + 1 } }
      ∧ Runs s (.memoryResponse q.rid true) fun t => t.mem.reqs = s.mem.reqs.filter (fun x => x.rid != q.rid) ∧ t.mem.bytes = s.mem.bytes
        ∧ (∀ g l, State.lineIn (t.core g).l1 q.ctx q.va = some l → l.bad = State.allBytes)
        ∧ (∀ d l, State.lineIn (t.die d).rdc q.ctx q.va = some l → l.bad = State.allBytes)
        ∧ ∀ x, s.ctx? q.ctx = some x → t.ctx? q.ctx = some { x with fatal := some (x.fatal.getD (.integrity, q.va / 128 * 128)) })
    ∧ ∀ (g line c : Nat) (x : CLine) (h : Home), (s.core g).ctx = some c → State.lineIn (s.core g).l1 c line = some x →
      (x.dirty = 0 → Runs s (.l1Writeback g line) fun t => t.mem = s.mem ∧ State.lineIn (t.core g).l1 c line = none)
      ∧ (x.dirty ≠ 0 → HomeAt s c x.va .write h → NoPartsOf s c x.va → Runs s (.l1Writeback g line) fun t =>
        (∀ i, i < 128 → byteGet t.mem.bytes (h.addr + i) = if x.dirty.getLsbD i then lineByte x.data i else byteGet s.mem.bytes (h.addr + i))
        ∧ (∀ a, (a < h.addr ∨ h.addr + 128 ≤ a) → byteGet t.mem.bytes a = byteGet s.mem.bytes a)
        ∧ State.lineIn (t.core g).l1 c line = none)

/-- R2, R175-R177, R261-R263, R279, R313: updates combined in tray switches and spills of holding buffers, scrubbing, refresh, lane lending,
condition monitors, gating and the report of a hang. Rules of the model's own: lending without a look at the partner's queue and a handshake of
1,200 clocks (log 70), and how a polled waiter looks again (log 73). -/
def Obligations.Controllers : Prop :=
  ∀ s : State,
    (∀ q : Req, ReqPending s q → q.kind = 2 → let tr := q.pkg / 4
      s.inWindow tr q.ctx q.va = true →
      ((∀ y ∈ (s.tray tr).parts, y.ctx ≠ q.ctx ∨ y.va ≠ q.va ∨ y.op ≠ q.op) → Runs s (.redCombine q.rid) fun t =>
        t.mem = { s.mem with reqs := s.mem.reqs.filter fun x => x.rid != q.rid }
        ∧ (t.tray tr).parts = (s.tray tr).parts ++ [{ ctx := q.ctx, va := q.va, op := q.op, value := q.data, count := 1, first := s.time.ns, froms := q.froms }])
      ∧ ∀ (l r : List Partial) (y : Partial), (s.tray tr).parts = l ++ y :: r → y.ctx = q.ctx → y.va = q.va → y.op = q.op →
        (∀ z ∈ l ++ r, z.ctx ≠ q.ctx ∨ z.va ≠ q.va ∨ z.op ≠ q.op) → Runs s (.redCombine q.rid) fun t =>
          t.mem = { s.mem with reqs := s.mem.reqs.filter fun x => x.rid != q.rid }
          ∧ (t.tray tr).parts = l ++ { y with value := BitVec.ofNat 64 (atomOf (atomFrom q.op) y.value.toNat q.data.toNat),
                                              count := y.count + 1, froms := y.froms ++ q.froms } :: r)
    ∧ (∀ (idx tr : Nat) (y : Partial), s.partials[idx]? = some (tr, y) →
      (∀ i, (i = .combineCount idx ∧ 64 ≤ y.count) ∨ (i = .combineTimer idx ∧ y.first + 1000 ≤ s.time.ns) → Runs s i fun t =>
        (t.tray tr).parts = (s.tray tr).parts.erase y ∧ t.mem = { s.mem with reqs := s.mem.reqs ++ [partialReq s tr y] })
      ∧ (y.count < 64 → exec (.combineCount idx) s = .next s) ∧ (s.time.ns < y.first + 1000 → exec (.combineTimer idx) s = .next s))
    ∧ (∀ line : Nat, let b := s.mem.held.filter fun x => x.line == line && !x.spilled
      let die := chanDie (line / 2 ^ 24)
      (b.length < 17 → exec (.holdingBufferSpill line) s = .next s)
      ∧ (17 ≤ b.length → Runs s (.holdingBufferSpill line) fun t =>
        t.mem = { s.mem with held := s.mem.held.map fun x => if x.line = line then { x with spilled := true } else x }
        ∧ (t.die die).spills = (s.die die).spills + b.length))
    ∧ (∀ ch x : Nat, s.chanThere ch = false → x < 2 ^ 26 → exec (.laneLending ch) s = .next s
      ∧ ∀ y : Nat, exec (.scrub (2 ^ 26 * ch + x) y) s = .next s ∧ exec (.refresh ch y) s = .next s)
    ∧ (∀ gran err : Nat, let ch := gran / 2 ^ 26
      s.chanThere ch = true →
      (err = 0 → exec (.scrub gran err) s = .next (s.modChan ch fun c => { c with scrub := gran % 2 ^ 26 }))
      ∧ (err = 1 → Runs s (.scrub gran err) fun t => t.mem = s.mem ∧ t.chan ch = { s.chan ch with scrub := gran % 2 ^ 26 })
      ∧ (2 ≤ err → Runs s (.scrub gran err) fun t => t.chan ch = { s.chan ch with scrub := gran % 2 ^ 26 }
        ∧ t.mem.bytes = s.mem.bytes ∧ ∀ g, g ∈ t.mem.poison ↔ g = gran ∨ g ∈ s.mem.poison))
    ∧ (∀ ch : Nat, s.chanThere ch = true → exec (.refresh ch 0) s = .next (s.modChan ch fun c => { c with inited := true, selfRef := false })
      ∧ exec (.refresh ch 1) s = .next (s.modChan ch fun c => { c with selfRef := false })
      ∧ exec (.refresh ch 2) s = .next (s.modChan ch fun c => { c with selfRef := false })
      ∧ exec (.refresh ch 3) s = .next (s.modChan ch fun c => { c with selfRef := true }))
    ∧ (∀ ch far : Nat, far / 2 = ch / 2 → far ≠ ch →
      let free := s.chanThere ch = true ∧ (s.chan ch).lend = 0 ∧ (s.chan far).lend = 0 ∧ (s.chan ch).last + 6000 ≤ s.time.clk
        ∧ (∀ l ∈ (s.chan ch).leaves, l.pinned = false) ∧ ∀ l ∈ (s.chan far).leaves, l.pinned = false
      (free → Runs s (.laneLending ch) fun t => t.mem = s.mem ∧ t.chans = (s.modChan ch fun c => { c with lend := 1, until_ := s.time.clk + 1200 }).chans)
      ∧ (¬free → exec (.laneLending ch) s = .next s))
    ∧ (∀ ch : Nat, let c := s.chan ch
      (c.lend = 1 → c.last + 1200 < c.until_ → exec (.lendingHandshakeEnd ch) s = .next (s.modChan ch fun c => { c with lend := 2 }))
      ∧ (c.lend = 1 → c.until_ ≤ c.last + 1200 → Runs s (.lendingHandshakeEnd ch) fun t => t.mem = s.mem
        ∧ t.chan ch = { c with lend := 3 } ∧ ∀ y, y ≠ ch → t.chan y = s.chan y)
      ∧ (c.lend = 3 → exec (.lendingHandshakeEnd ch) s = .next (s.modChan ch fun c => { c with lend := 0 }))
      ∧ (c.lend ≠ 1 → c.lend ≠ 3 → exec (.lendingHandshakeEnd ch) s = .next s))
    ∧ (∀ g : Nat, let c := s.core g
      (∀ (b i a n : Nat), c.mons = [(.skein b i a, n)] → exec (.monitorPoll g) s = .next (s.modArm b i a fun x => { x with seen := s.mem.writes + 1 }))
      ∧ (c.mons = [] → exec (.monitorPoll g) s = .next s)
      ∧ (s.coreIdle g = true → c.gate = 0 → max c.idle c.woke + 64 ≤ s.time.clk → exec (.clockGate g) s = .next (s.modCore g fun c => { c with gate := 1 }))
      ∧ (s.coreIdle g = true → c.gate = 1 → s.coreCtl g 17 = false → max c.idle c.woke + 64 + 120000 ≤ s.time.clk →
        exec (.powerGate g) s = .next (s.modCore g fun c => { c with gate := 2 }))
      ∧ (s.coreIdle g = false → exec (.clockGate g) s = .next s ∧ exec (.powerGate g) s = .next s)
      ∧ (s.coreCtl g 17 = true → exec (.powerGate g) s = .next s)
      ∧ ∀ (x : Ctx) (b : Block) (k : Skein) (te : Nat), c.ctx.bind s.ctx? = some x → x.d.hangms ≠ 0 → s.coreIdle g = true →
        s.blocksOn g = [b] → s.blk? b.id.bid = some b → b.skeins = [k] → k.idx = 0 → k.parked = true → k.waitKind ≠ 6 → k.frame = none →
        (∀ a, k.defers a = false) → s.handler b = some te → max c.idle c.hangAt + x.d.hangms * 600000 ≤ s.time.clk → Runs s (.hang g) fun t =>
          (t.core g).hangAt = s.time.clk
          ∧ (∃ k' y, t.sk? b.id.bid 0 = some k' ∧ k'.frame ≠ none ∧ k'.arms = [y] ∧ (mapGetD y.ks 1 0).toNat % 2 ^ 8 = 0x17
            ∧ y.path = some { off := te, lanes := k.live, base := k.win.base })
          ∧ ∃ r, r ∈ t.mem.recs ∧ r.ctx = some b.id.ctx ∧ r.fault = false ∧ natAt r.bytes 0 1 = 0x17)

/-! ### Events: the host's accesses, records and links -/

/-- R193, R196, R314, R319: loads, stores and atomics through apertures, fences, flushes and Ultra Ethernet packets, where one line
holds the bytes. Rules of the model's own: a fence of a host core finds nothing to wait for (log 8), and accesses act at the homes in their
event, a read after the posted writes before it (log 64). -/
def Obligations.HostAccesses : Prop :=
  ∀ (s : State) (pkg i c base off va : Nat), MemoryOk s → i < 16 → off < 2 ^ 40 → mapGet (s.host pkg).apert i = some (c, base) → va = base + off →
    (∀ x ∈ s.mem.reqs, x.rid < s.fresh.rid) → s.hostCut pkg c va = false → NoPartsOf s c va →
    let pa := 0xF1000000000000 + 2 ^ 40 * i + off
    let none_ := ∀ x ∈ s.mem.reqs, x.kind ≠ 1 ∨ x.pkg ≠ pkg
    (∀ (sz : Size) (val : Nat) (h : Home), let n := sz.bytes
      va % 128 + n ≤ 128 →
      (HomeAt s c va .write h → Runs s (.apertureAccess pkg false pa sz true val) fun t =>
        Stored s t h.addr n val ∧ t.mem.reqs = s.mem.reqs ∧ BlocksKept s t)
      ∧ (Runs s (.apertureAccess pkg true pa sz true val) fun t => t.mem = { s.mem with reqs := t.mem.reqs } ∧ BlocksKept s t
          ∧ t.mem.reqs = s.mem.reqs ++ [postedReq s c pkg va n val])
      ∧ (HomeAt s c va .read h → mapGet s.mem.readers (h.addr / 128) = none →
        s.homeTray c va = pkg / 4 ∨ State.lineIn (s.tray (s.homeTray c va)).slices c va = none → ∀ ext : Bool, ext = false ∨ none_ →
        Runs s (.apertureAccess pkg ext pa sz false val) fun t => t.mem.bytes = s.mem.bytes ∧ t.blocks = s.blocks
          ∧ t.host pkg = { s.host pkg with rd := BitVec.ofNat 64 (leNat (byteGets s.mem.bytes h.addr n)) }))
    ∧ (∀ (op : AtomOp) (val : Nat) (h : Home), let n := atomBytes op
      exec (.apertureAmo pkg pa op val true) s = .next s
      ∧ (HomeAt s c va .atomic h → va % n = 0 → Runs s (.apertureAmo pkg pa op val false) fun t =>
        Stored s t h.addr n (atomOf op (leNat (byteGets s.mem.bytes h.addr n)) val) ∧ t.blocks = s.blocks
          ∧ t.host pkg = { s.host pkg with rd := BitVec.ofNat 64 (leNat (byteGets s.mem.bytes h.addr n)) }))
    ∧ (none_ → exec (.hostFence pkg true) s = .next s ∧ exec (.flush pkg) s = .next (s.modHost pkg fun h => { h with rd := 0 }))
    ∧ exec (.hostFence pkg false) s = .next s
    ∧ (∀ (q : Req) (h : Home), s.mem.reqs = [q] → q.kind = 1 → q.pkg = pkg → q.state = 0 → HomeAt s q.ctx q.va .write h → NoPartsOf s q.ctx q.va →
      q.va % 128 + q.n ≤ 128 → s.switchCut q.pkg q.ctx q.va = false → Runs s (.flush pkg) fun t => Stored s t h.addr q.n q.data.toNat ∧ t.mem.reqs = [] ∧ (t.host pkg).rd = 0)
    ∧ ∀ (x : Ctx) (a : Nat) (data : List Byte) (h : Home), s.ctx? c = some x → x.dead = false → x.fatal = none → a % 128 + data.length ≤ 128 →
      data ≠ [] → s.hostCut pkg c a = false → NoPartsOf s c a →
      (HomeAt s c a .write h → Runs s (.uetPacket pkg c a data true) fun t => Stored s t h.addr data.length (leNat data) ∧ BlocksKept s t)
      ∧ (HomeAt s c a .read h → Runs s (.uetPacket pkg c a data false) fun t => t.mem = s.mem ∧ t.blocks = s.blocks
        ∧ t.host pkg = { s.host pkg with rd := BitVec.ofNat 64 (leNat (byteGets s.mem.bytes h.addr (min 8 data.length))),
                                         uet := byteGets s.mem.bytes h.addr data.length })

/-- R244, R303, R316: the tail of the rack command queue, and records leaving for their queues. -/
def Obligations.TailAndRecords : Prop :=
  ∀ s : State,
    (∀ val : Nat, let q := s.relay
      let v := val % 2 ^ 32
      let u := (q.primary.toList ++ q.standby.toList).foldl (fun s p => s.drainPosted p) s
      let room := (v + 2 ^ 32 - q.tail) % 2 ^ 32 ≤ 1024 - (q.tail + 2 ^ 32 - q.head) % 2 ^ 32
      ((∀ x ∈ s.mem.reqs, x.kind = 1 → q.primary ≠ some x.pkg ∧ q.standby ≠ some x.pkg) → u = s)
      ∧ (q.primary ≠ none → room → exec (.rcqTail val) s = .next { u with relay := { q with tail := v } })
      ∧ (q.primary ≠ none → ¬room → Runs s (.rcqTail val) fun t => ∃ r, t = { u with mem := { u.mem with recs := u.mem.recs ++ [r] } }
        ∧ r.ctx = none ∧ r.fault = false ∧ natAt r.bytes 0 1 = 0x44 ∧ natAt r.bytes 1 1 = 0x15 ∧ natAt r.bytes 36 4 = v
        ∧ natAt r.bytes 8 8 = s.time.ns % 2 ^ 64))
    ∧ ∀ (r : RecWait) (l : List RecWait), s.mem.recs = r :: l →
      (r.ctx = none → s.relay.rerrq = 0 → exec .faultRecord s = .next { s with
        relay := { s.relay with rerrlost := min (s.relay.rerrlost + 1) 0xFFFFFFFF }, mem := { s.mem with recs := l } })
      ∧ ∀ (c : Nat) (x : Ctx) (hh : Home), MemoryOk s → r.ctx = some c → s.ctx? c = some x → r.bytes.length = 64 →
        let va := if r.fault then x.d.faultq else x.d.errq
        va ≠ 0 → va % 64 = 0 → HomeAt s c va .write hh → NoPartsOf s c va →
        let cap := leNat (byteGets s.mem.bytes hh.addr 4)
        let tail := leNat (byteGets s.mem.bytes (hh.addr + 8) 4)
        let used := (tail + 2 ^ 32 - leNat (byteGets s.mem.bytes (hh.addr + 4) 4)) % 2 ^ 32
        (∃ i, i ≤ 16 ∧ cap = 2 ^ i) →
        (used = cap → r.fault = true → l = [] → exec .faultRecord s = .next s)
        ∧ ∀ hs : Home, used ≠ cap → HomeAt s c (va + 64 + 64 * (tail % cap)) .write hs → NoPartsOf s c (va + 64 + 64 * (tail % cap)) →
          hs.addr + 64 ≤ hh.addr ∨ hh.addr + 64 ≤ hs.addr → Runs s .faultRecord fun t =>
            t.mem.recs = l ∧ byteGets t.mem.bytes hs.addr 64 = r.bytes
            ∧ leNat (byteGets t.mem.bytes (hh.addr + 8) 4) = (tail + 1) % 2 ^ 32
            ∧ ∀ a, ¬(hs.addr ≤ a ∧ a < hs.addr + 64) → ¬(hh.addr + 8 ≤ a ∧ a < hh.addr + 12) → byteGet t.mem.bytes a = byteGet s.mem.bytes a

/-- R307, R308, R310, R318, R322, R323: flits, the link protocol, the refusal of a burst, device time and the host pair. Rules of the model's
own: a packet's identifier in its first eight payload bytes (log 29), the tag of a burst in its last eight (log 62), and TSTATUS by an offset of
at most 20 ns (log 30). -/
def Obligations.LinksAndTime : Prop :=
  ∀ s : State,
    (∀ link : Nat, let p := s.port link
      let sent (t : State) (q : Port) : Prop := t.port link = q ∧ t.mem = s.mem ∧ ∀ n, n ≠ link → t.port n = s.port n
      let had (n : Nat) : Prop := ∃ e ∈ s.ports, e.1 / 32 = link / 32 ∧ n ∈ e.2.ids
      let there := s.linkThere link = true
      (¬there → exec (.stomp link) s = .next s ∧ exec (.retryTimeout link) s = .next s ∧ exec (.retrain link) s = .next s
        ∧ exec (.portDown link) s = .next s ∧ (∀ b, exec (.flitReceive link b) s = .next s) ∧ (∀ ok, exec (.retrainingEnd link ok) s = .next s)
        ∧ ∀ ack, exec (.idleFlit link ack) s = .next s ∧ exec (.nakFlit link ack) s = .next s)
      ∧ (p.state = 0 → there → p.rxSeq < 4096 → p.retry = [] →
        (∀ (typ : Nat) (b : List Byte), b.length = 72 → flitGood b = true → flitType b = typ → flitSeq b = p.rxSeq →
          let x := b.take 64
          let q := { p with rxSeq := (p.rxSeq + 1) % 4096, nakSent := false }
          (typ = 1 → Runs s (.flitReceive link b) fun t => sent t { q with inPkt := x })
          ∧ (typ = 2 → Runs s (.flitReceive link b) fun t => sent t { q with inPkt := p.inPkt ++ x })
          ∧ (typ = 4 → State.tagsGood x = true → ¬had (natAt x 0 8) → Runs s (.flitReceive link b) fun t =>
              sent t { q with inPkt := [], accepted := p.accepted ++ [x], ids := p.ids ++ [natAt x 0 8] })
          ∧ (typ = 4 → State.tagsGood x = false ∨ had (natAt x 0 8) → Runs s (.flitReceive link b) fun t => sent t { q with inPkt := [] })
          ∧ (typ = 3 → let y := p.inPkt ++ x
              (State.tagsGood y = true → ¬had (natAt y 0 8) → Runs s (.flitReceive link b) fun t =>
                sent t { q with inPkt := [], accepted := p.accepted ++ [y], ids := p.ids ++ [natAt y 0 8] })
              ∧ (State.tagsGood y = false ∨ had (natAt y 0 8) → Runs s (.flitReceive link b) fun t => sent t { q with inPkt := [] })))
        ∧ (∀ b : List Byte, flitGood b = false → (p.nakSent = true → exec (.flitReceive link b) s = .next s)
          ∧ (p.nakSent = false → Runs s (.flitReceive link b) fun t =>
              sent t { p with nakSent := true, sent := p.sent ++ [flit 9 0 ((p.rxSeq + 4095) % 4096) []] }))
        ∧ (Runs s (.stomp link) fun t => sent t { p with rxSeq := (p.rxSeq + 1) % 4096, nakSent := false, inPkt := [] })
        ∧ ∀ ack : Nat, exec (.idleFlit link ack) s = .next s)
      ∧ (p.state = 0 → there → p.waiting = [] → ∀ (l r : List (List Byte)) (f : List Byte), p.retry = l ++ f :: r → l.length < 512 →
        (∀ j, j < p.retry.length → (p.retry[j]?).map flitSeq = some ((flitSeq (p.retry.headD []) + j) % 4096)) → p.retry.length ≤ 512 →
        let kept := State.openPacket p.begun (l ++ [f])
        Runs s (.idleFlit link (flitSeq f)) (fun t => sent t { p with retry := r, resends := 0, since := s.time.ns, begun := kept })
        ∧ Runs s (.nakFlit link (flitSeq f)) fun t =>
            sent t { p with retry := r, resends := if r = [] then 0 else 1, sent := p.sent ++ r, since := s.time.ns, begun := kept })
      ∧ (p.state = 0 → there → p.retry ≠ [] → p.resends < 16 → p.since + 1000 ≤ s.time.ns → Runs s (.retryTimeout link) fun t =>
          sent t { p with resends := p.resends + 1, sent := p.sent ++ p.retry, since := s.time.ns })
      ∧ (s.time.ns < p.since + 1000 → exec (.retryTimeout link) s = .next s)
      ∧ (p.state = 0 → 16 ≤ p.resends → exec (.retryTimeout link) s = .next s
          ∧ (there → exec (.retrain link) s = .next (s.modPort link fun p => { p with state := 1 })))
      ∧ (p.resends < 16 → exec (.retrain link) s = .next s)
      ∧ (p.state = 1 → there → exec (.retrainingEnd link false) s = .next (s.modPort link fun p => { p with fails := p.fails + 1 })
          ∧ (p.waiting = [] → Runs s (.retrainingEnd link true) fun t =>
              sent t { p with state := 0, fails := 0, resends := if p.retry = [] then 0 else 1, sent := p.sent ++ p.retry,
                              since := if p.retry = [] then p.since else s.time.ns }))
      ∧ (p.state = 1 → there → 3 ≤ p.fails → p.retry = [] → p.waiting = [] → Runs s (.portDown link) fun t => t.mem = s.mem ∧ (t.port link).state = 2)
      ∧ (p.fails < 3 → exec (.portDown link) s = .next s))
    ∧ (∀ q : Req, ReqPending s q → s.homePkg q.ctx q.va ≠ q.pkg →
        let l := s.mem.reqs.map fun x => if x.rid = q.rid then { x with naks := x.naks + 1 } else x
        (q.naks < 2 → Runs s (.endToEndNak q.rid) fun t => t.mem = { s.mem with reqs := l } ∧ t.ctxs = s.ctxs)
        ∧ (2 ≤ q.naks → ∀ x, s.ctx? q.ctx = some x → Runs s (.endToEndNak q.rid) fun t =>
          t.mem = { s.mem with reqs := s.mem.reqs.filter fun x => x.rid != q.rid } ∧ t.ctx? q.ctx = some { x with fatal := some (x.fatal.getD (.integrity, q.va)) }))
    ∧ (∀ (pkg : Nat) (d : Int), s.relay.primary = some pkg →
        let r := { s.relay with tstatus := if d.natAbs ≤ 20 then 2 else 1, toffset := d }
        (1000000 ≤ d → exec (.ptpMessage pkg d) s = .next { s with relay := r, time := { s.time with ns := s.time.ns + d.toNat, slew := 0 } })
        ∧ (d < 1000000 → exec (.ptpMessage pkg d) s = .next { s with relay := r, time := { s.time with slew := d } }))
    ∧ (∀ (pkg : Nat) (d : Int), s.relay.primary ≠ some pkg → exec (.ptpMessage pkg d) s = .next s)
    ∧ (∀ pkg : Nat, (s.host pkg).flitAt ≠ 0 → s.time.ns < (s.host pkg).flitAt + 1000000 → exec (.timeFlit pkg) s = .next s)
    ∧ (∀ pkg : Nat, pkgThere pkg = false → exec (.timeFlit pkg) s = .next s)
    ∧ (∀ pkg : Nat, pkgThere pkg = true → (s.host pkg).flitAt = 0 ∨ (s.host pkg).flitAt + 1000000 ≤ s.time.ns → Runs s (.timeFlit pkg) fun t =>
        t.mem = s.mem ∧ t.time = s.time ∧ t.host pkg = { s.host pkg with flitAt := s.time.ns } ∧ ∀ n, t.port n =
        if n / 32 = pkg ∧ (s.port n).state = 0 ∧ s.linkThere n = true then
          { s.port n with sent := (s.port n).sent ++ [flit 10 0 (((s.port n).rxSeq + 4095) % 4096) []] } else s.port n)
    ∧ (s.relay.tstatus ≠ 0 → exec .grandmasterLoss s =
        .next { s with relay := { s.relay with tstatus := 3 }, time := { s.time with slew := 0 } })
    ∧ (s.relay.tstatus = 0 → exec .grandmasterLoss s = .next s)
    ∧ ∀ a b : Nat, s.relay.primary = some a → s.relay.standby = some b →
        (s.relay.beat + 100000 ≤ s.time.ns → a ∉ s.relay.failed →
          exec .heartbeat s = .next { s with relay := { s.relay with beat := s.time.ns } })
        ∧ (a ∈ s.relay.failed → exec .heartbeat s = .next s)
        ∧ (s.time.ns < s.relay.beat + 100000 → exec .heartbeat s = .next s)
        ∧ (s.time.ns < s.relay.beat + 1000000 → exec .failover s = .next s)
        ∧ (s.relay.beat + 1000000 ≤ s.time.ns → Runs s .failover fun t => t.relay = { s.relay with
            primary := some b, standby := none, head := s.relay.mhead, cutOff := s.relay.cutOff ++ [a], mirror := [] }
          ∧ t.mem = s.mem ∧ t.blocks = s.blocks ∧ ∀ l, t.launch? l = (s.launch? l).map fun x => { x with reports := [] })

/-- R4, R180, R318, R326-R328: firmware, the forming of the rack device, key slots and attestation. Rules of the model's own: packages 0 and 4
as primary and standby (log 31), mismatches reported against package 0 (log 90), and where an image holds the key of the next (log 63). -/
def Obligations.FirmwareAndKeys : Prop :=
  ∀ (s : State) (pkg : Nat), let h := s.host pkg
    (∀ a b c d : Image, let l := [a, b, c, d]
      let u : State := { s with relay := { s.relay with failed := s.relay.failed.filter (· != pkg) } }
      let ok (key : List Byte) (i : Image) : Prop := Config.falconVerify (shake256 i.content 32) key i.sig = true ∧ h.rollback ≤ i.version
      let good := shake256 a.pubKey 32 = Config.fusedKeyDigest pkg ∧ ok a.pubKey a ∧ ok (Config.nextKey a.content) b
        ∧ ok (Config.nextKey b.content) c ∧ ok (Config.nextKey c.content) d
      (pkgThere pkg = false → exec (.firmwareBoot pkg l) s = .next s)
      ∧ (pkgThere pkg = true → good → exec (.firmwareBoot pkg l) s =
        .next (u.modHost pkg fun h => { h with booted := true, recovery := false, digests := l.map fun i => shake256 i.content 32,
                                               versions := l.map (·.version) }))
      ∧ (pkgThere pkg = true → ¬good → exec (.firmwareBoot pkg l) s =
        .next (u.modHost pkg fun h => { h with booted := false, recovery := true })))
    ∧ (s.relay.formed = false → (∀ p, p < 128 → (s.host p).booted = true ∧ (s.host p).recovery = false) →
      ((∀ p, p < 128 → p ∉ s.relay.failed ∧ s.featOf p = s.featOf 0 ∧ (s.host p).digests = (s.host 0).digests) → exec .rackAssembly s =
        .next { s with relay := { s.relay with formed := true, mismatch := none, primary := some 0, standby := some 4,
                                               cutOff := [], mhead := s.relay.head, beat := s.time.ns } })
      ∧ ∀ p, p < 128 → s.featOf p ≠ s.featOf 0 → (∀ q, q < p → s.featOf q = s.featOf 0) → exec .rackAssembly s =
        .next { s with relay := { s.relay with mismatch := some p } })
    ∧ ((∃ p, p < 128 ∧ (s.host p).booted = false) → exec .rackAssembly s = .next s)
    ∧ (∀ (slot key : Nat) (ctxs : List Nat), h.booted = true → slot < 2048 →
      (∀ p, p < 128 → ∀ k, mapGet (s.host p).keys slot = some k → k.key = key) →
      exec (.keyLoad pkg slot key ctxs) s = .next (s.modHost pkg fun h => { h with keys := mapSet h.keys slot { key := key, ctxs := ctxs } })
      ∧ exec (.keySlotClear pkg slot) s = .next (s.modHost pkg fun h => { h with keys := mapErase h.keys slot }))
    ∧ (h.booted = false → ∀ (slot key : Nat) (ctxs : List Nat) (n : List Byte) (c : Option Nat),
      exec (.keyLoad pkg slot key ctxs) s = .next s ∧ exec (.keySlotClear pkg slot) s = .next s
        ∧ exec (.attestationReport pkg n c) s = .next s)
    ∧ ∀ (nonce : List Byte), h.booted = true → nonce.length = 32 → h.digests.length = 4 → (∀ d ∈ h.digests, d.length = 32) →
      h.versions.length = 4 → Runs s (.attestationReport pkg nonce none) fun t => ∃ r,
        t = (s.modHost pkg fun h => { h with report := r }) ∧ r.take 32 = nonce ∧ natAt r 32 8 = h.serial % 2 ^ 64
          ∧ slice r 64 32 = h.digests.headD [] ∧ natAt r 192 4 = h.versions.headD 0 % 2 ^ 32
          ∧ r.drop (r.length - (Config.falconSign h.serial (r.take 256)).length) = Config.falconSign h.serial (r.take 256)

/-! ### Events: engines, drays and ingress -/

/-- R177, R224-R226, R229-R232, R235, R298-R300, R348, R350: what the matrix engine, the drays and bound prefetches do, for commands
without `.span` and launches without determinism checks, with counters in the block's window. The address in the record of a refused copy is
log 54's; what a record that a resumed command reads again gives is left to its reads. -/
def Obligations.EngineEvents : Prop :=
  ∀ (s : State) (g idx : Nat), NoParts s →
    (∀ (m : MCmd) (p : Pass) (l r : List MCmd), s.cmdAt g idx = some (m, p) → p.blk.id.core = g → (s.core g).mq = l ++ m :: r →
      idx = l.length → (∀ x ∈ l ++ r, x.bid ≠ m.bid ∨ x.num ≠ m.num) → m.span = false → s.isDet p = false →
      let turn := s.cmdFree g idx m p = true
      let old := mapGetD p.blk.tiles m.tile Tile.zero
      let now (t : State) (x : MCmd) : Prop := (t.core g).mq = l ++ x :: r
      let gone (t : State) (y : Tile) : Prop := (t.core g).mq = l ++ r ∧ ∃ b, t.blk? m.bid = some b ∧ mapGetD b.tiles m.tile Tile.zero = y
      let counted (t : State) (v : Nat) : Prop := ∃ b, t.blk? m.bid = some b ∧ Counted b m.kc v false
      let fresh := s.reachStart p m
      let served := s.reach p m
      let here := s.tilesHere m p = true
      let put (q : Product) (b : NMap W32 × NMap W32) (k : Nat) : Tile :=
        let w := if k = m.prog then [] else cellWords q (cells q)
        { old with work := if w.isEmpty then old.work else b.1, pWork := old.pWork.filter fun x => !w.contains (x, false) }
      (m.kind = 1 → m.state = 0 → turn → Runs s (.commandStart g idx) fun t =>
        now t { m with state := 1, since := s.time.ns } ∧ t.mem = s.mem ∧ t.blocks = s.blocks)
      ∧ (∀ x : List Nat, m.kind = 0 → m.state = 0 → turn → fresh.startRead p m = .ok x →
        ((State.productFrom m x).startOk false = true → Runs s (.commandStart g idx) fun t =>
          now t { m with state := 1, recs := some x, reread := false, since := s.time.ns }
          ∧ t.mem = { s.mem with readers := t.mem.readers } ∧ t.blocks = s.blocks)
        ∧ ((State.productFrom m x).startOk false = false → ∀ v, WindowCounter p.blk m.kc v → Runs s (.commandStart g idx) fun t =>
          gone t { old with failed := old.failed.or (some (m.num, .check)) } ∧ counted t v))
      ∧ (∀ (f : EngineFail) (v : Nat), m.kind = 0 → m.state = 0 → turn → fresh.startRead p m = .error f → f.1.1 ≠ .pageFault →
        WindowCounter p.blk m.kc v → Runs s (.commandStart g idx) fun t =>
          gone t { old with failed := old.failed.or (some (m.num, State.failCause f.1)) } ∧ counted t v)
      ∧ (m.state = 1 → s.tilesHere m p = false → exec (.commandRetire g idx) s = .next s)
      ∧ (∀ v : Nat, m.state = 1 → here → WindowCounter p.blk m.kc v →
        (m.kind = 1 → Runs s (.commandRetire g idx) fun t => gone t { old with work := [], pWork := [] } ∧ counted t v)
        ∧ (m.kind = 0 → ∀ (q : Product) (b : NMap W32 × NMap W32) (k : Nat), served.runCmd p m = some (q, b, k, none) →
          served.lateCells p m q = [] → Runs s (.commandRetire g idx) fun t => gone t (put q b k) ∧ counted t v)
        ∧ (m.kind = 0 → ∀ (q : Product) (b : NMap W32 × NMap W32) (k : Nat) (f : EngineFail), served.runCmd p m = some (q, b, k, some f) →
          f.1.1 ≠ .pageFault → Runs s (.commandFailed g idx) fun t => (∃ w, gone t { put q b k with
            work := w, failed := old.failed.or (some (m.num, State.failCause f.1)) }) ∧ counted t v))
      ∧ (m.kind = 0 → ∀ f : EngineFail, f.1.1 = .pageFault →
        (m.state = 0 → turn → fresh.startRead p m = .error f → Runs s (.commandFault g idx) fun t =>
          now t { m with state := 2 } ∧ Recorded s t p.ctx true 0x0C m.num f.2)
        ∧ (m.state = 1 → here → ∀ (q : Product) (b : NMap W32 × NMap W32) (k : Nat), served.runCmd p m = some (q, b, k, some f) →
          Runs s (.commandFault g idx) fun t => now t { m with state := 2, prog := k } ∧ Recorded s t p.ctx true 0x0C m.num f.2
            ∧ ∃ x, t.blk? m.bid = some x ∧ mapGetD x.tiles m.tile Tile.zero = put q b k))
      ∧ (m.kind = 2 → turn →
        (old.lost = none → old.failed = none → Runs s (.accswapExchange g idx) fun t =>
          gone t { old with work := old.vis, vis := old.work, pWork := old.pVis, pVis := old.pWork }
          ∧ (m.who = 16 → ∀ x, p.blk.coach = some x → x.hold = some m.num → (t.blk? m.bid).bind (·.coach) = some { x with hold := none })
          ∧ (m.who ≠ 16 → ∀ x, s.arm? m.bid m.who m.arm = some x → x.hold = some m.num →
            t.arm? m.bid m.who m.arm = some { x with hold := none }))
        ∧ (m.who ≠ 16 → ∀ (k : Skein) (te n : Nat), s.sk? m.bid m.who = some k → k.frame = none → s.handler p.blk = some te →
          (old.lost = some n → Runs s (.accswapExchange g idx) fun t => gone t { old with lost := none, failed := none }
            ∧ ∃ x, t.sk? m.bid m.who = some x ∧ InTrap x te 0x0D 0x2A n)
          ∧ (∀ u : Cause, old.lost = none → old.failed = some (n, u) → Runs s (.accswapExchange g idx) fun t => gone t { old with failed := none }
            ∧ ∃ x, t.sk? m.bid m.who = some x ∧ InTrap x te 0x0C u.code n))))
    ∧ (∀ (cs : List MCmd) (m : MCmd) (b : Block) (kc : W64) (v : Nat), (s.core g).mq = cs → s.hung g = true → (s.core g).reset = none →
      leastBy (·.num) cs = some m → (∀ x ∈ cs, x.bid = b.id.bid ∧ x.span = false ∧ x.kc = kc) →
      (∀ x ∈ (s.core (if g % 2 = 0 then g + 1 else g - 1)).mq, x.span = false) → s.blocksOn g = [b] → s.blk? b.id.bid = some b →
      WindowCounter b kc v → Runs s (.engineHang g) fun t =>
        (t.core g).mq = cs.filter (fun x => x.kind == 2) ∧ (t.core g).reset = some (s.time.clk + 12000)
        ∧ (∃ x, t.blk? b.id.bid = some x ∧ (∀ i, i < b.ntiles → (mapGetD x.tiles i Tile.zero).lost =
              (mapGetD b.tiles i Tile.zero).lost.or ((leastBy (·.num) (cs.filter fun c => c.tile == i)).map (·.num)))
          ∧ windowValue x (kc.toNat % 2 ^ 20) 4 = v / 2 ^ 31 * 2 ^ 31 + (v + (cs.filter fun c => c.kind != 2).length) % 2 ^ 31)
        ∧ ∃ r, r ∈ t.mem.recs ∧ natAt r.bytes 0 1 = 0x40 ∧ natAt r.bytes 36 4 = m.num % 2 ^ 32
          ∧ natAt r.bytes 48 8 = cs.length % 2 ^ 64)
    ∧ (∀ n : Nat, (s.core g).reset = some n → exec (.engineResetEnd g) s =
        .next { s.modCore g (fun c => { c with reset := none }) with mem := { s.mem with writes := s.mem.writes + 1 } })
    ∧ (∀ (y : Copy) (p : Pass) (l r : List Copy), s.copyAt g idx = some (y, p) → p.blk.id.core = g → (s.core g).copies = l ++ y :: r →
      idx = l.length → (∀ x ∈ l ++ r, x.bid ≠ y.bid ∨ x.num ≠ y.num) → s.isDet p = false →
      let now (t : State) (x : Copy) : Prop := (t.core g).copies = l ++ x :: r
      (∀ w : Nat, y.state = 0 → s.drayFree g idx = true → (s.recsOf p y).2 = .ok w →
        ((State.jobFrom y w).ok = true → Runs s (.copyStart g idx) fun t => now t { y with state := 1, recs := some w, reread := false }
          ∧ (s.mem.readers = [] → t.mem = s.mem) ∧ t.blocks = s.blocks)
        ∧ ((State.jobFrom y w).ok = false → ∀ v, WindowCounter p.blk y.kc v → Runs s (.copyStart g idx) fun t => (t.core g).copies = l ++ r
          ∧ Recorded s t p.ctx false 0x41 y.num (y.ks.toNat / 128 * 128) ∧ ∃ b, t.blk? y.bid = some b ∧ Counted b y.kc v true))
      ∧ (∀ recs : Nat, y.state = 1 → (s.recsOf p y).2 = .ok recs →
        let q := State.jobFrom y recs
        let n := q.dst.rowBytes
        let from_ (i : Nat) : Nat := q.src.start q.is + q.srcRow i * q.src.stride + q.bit0 / 8
        let dest (i : Nat) : Nat := q.dst.start q.id + i * q.dst.stride
        let w := p.blk.ps
        let old (x : Nat) : Prop := (mapGetD w.stored x (0, 0, 0)).1 ≤ y.seq
        q.ok = true → q.src.nl = false → q.src.sp = true → q.dst.sp = true → q.bit0 % 8 = 0 →
        Memory.wf w.bytes = true → w.poison = [] → from_ y.prog + n ≤ w.size → dest y.prog + n ≤ w.size →
        (∀ x, x < n → old (from_ y.prog + x) ∧ old (dest y.prog + x)) →
        (y.prog + 1 < q.rows → Runs s (.copyRow g idx) fun t => now t { y with prog := y.prog + 1, recs := some recs, reread := false }
          ∧ ∃ b, t.blk? y.bid = some b ∧ BytesStored [0] (fun _ => dest y.prog) n (fun _ => leNat (byteGets w.bytes (from_ y.prog) n))
              (byteGet w.bytes) (byteGet b.ps.bytes))
        ∧ (q.rows ≤ y.prog + 1 → (∀ i x, i < q.rows → x < n → old (from_ i + x) ∧ old (dest i + x)) →
          ∀ v, WindowCounter p.blk y.kc v → dest y.prog + n ≤ y.kc.toNat % 2 ^ 20 ∨ y.kc.toNat % 2 ^ 20 + 4 ≤ dest y.prog →
          Runs s (.copyRow g idx) fun t => (t.core g).copies = l ++ r ∧ ∃ b, t.blk? y.bid = some b ∧ Counted b y.kc v false
            ∧ byteGets b.ps.bytes (dest y.prog) n = byteGets w.bytes (from_ y.prog) n))
      ∧ (∀ f : EngineFail, y.state < 2 → (y.state = 0 → s.drayFree g idx = true) → (s.recsOf p y).2 = .error f → f.1.1 = .pageFault →
        Runs s (.copyPageFault g idx) fun t => now t { y with state := 2, va := f.2 } ∧ Recorded s t p.ctx true 0x10 y.num f.2))
    ∧ ∀ (q : PrefArr) (p : Pass) (v : Nat) (h : Home), s.prefsOf[idx]? = some (g, q) → s.agent q.bid q.sk q.arm 0 = some p → p.coach = false →
      p.blk.id.core = g → s.isDet p = false → MemoryOk s → NoUpdates s → CleanL1 s p → s.mem.held = [] →
      HomeValue s p q.obj 32 .atomic v → HomeOk s p (q.obj + 4) .atomic h → v / 2 ^ 99 = 0 → v / 2 ^ 96 % 2 ^ 3 ≤ 4 → v % 2 ^ 32 ≠ 0 →
      let arrived := v / 2 ^ 32 % 2 ^ 32
      let phase := v / 2 ^ 64 % 2 ^ 32
      Runs s (.prefetchArrival idx) fun t => (t.core g).prefs = (s.core g).prefs.erase q
        ∧ Stored s t h.addr 8 (if v % 2 ^ 32 ≤ arrived + 1 then 2 ^ 32 * ((phase + 1) % 2 ^ 32) else arrived + 1 + 2 ^ 32 * phase)

/-- R236, R283, R284, R319-R321: a frame taken by a binding, frames that are dropped (NOTRUN, LONG, FULL, QFULL, QERR), and the frames and
host stores of a recording replayed. Which binding a recorded frame goes to, of several of one ring and port, and that its queue entry is not
written again are the model's choice (log 67). -/
def Obligations.IngressAndReplay : Prop :=
  ∀ (s : State) (pkg port : Nat) (f : List Byte), MemoryOk s →
    (bit1 s.feat 0 = false ∨ pkgThere pkg = false ∨ pkg ∈ s.relay.failed → ∀ ok : Bool, exec (.frameIngress pkg port f ok) s = .next s)
    ∧ (Runs s (.frameIngress pkg port f false) fun t => t = { s with events := t.events })
    ∧ ((∀ y ∈ (s.host pkg).binds, y.port ≠ port ∨ y.takes f = false) → exec (.frameIngress pkg port f true) s = .next s)
    ∧ (∀ y : Binding, bit1 s.feat 0 = true → pkgThere pkg = true → pkg ∉ s.relay.failed → s.ingressCut pkg y = false →
      (s.host pkg).binds = [y] → y.port = port → y.takes f = true →
      let here (b : Block) : Bool := b.id.lid == y.lid && b.id.idx == y.blk && State.placedBlk b
      let drop (why : Nat) : Prop := exec (.frameIngress pkg port f true) s = .next (s.countPkg pkg why y.ctx)
      (∀ (l : Launch) (c : Rec), s.launch? y.lid = some l → l.rec_ = some c → c.replay = true → drop 0x12)
      ∧ ((s.launch? y.lid).bind (·.rec_) = none → (∀ b ∈ mapVals s.blocks, here b = false) → drop 0x0D)
      ∧ ∀ (b : Block) (r : RingView), (s.launch? y.lid).bind (·.rec_) = none → (mapVals s.blocks).find? here = some b →
      State.ringView b y.rcb = some r → s.blk? b.id.bid = some b →
      (r.state ≠ 0 ∨ r.n = 0 ∨ 64 < r.n → drop 0x0D)
      ∧ (r.state = 0 → 0 < r.n → r.n ≤ 64 →
      (y.slotb < f.length + 16 → drop 0x0E)
      ∧ (f.length + 16 ≤ y.slotb → b.ps.size < y.slots + (r.widx % r.n + 1) * y.slotb → drop 0x0D)
      ∧ (f.length + 16 ≤ y.slotb → y.slots + (r.widx % r.n + 1) * y.slotb ≤ b.ps.size → bit1 r.free r.slot ≠ decide (r.lam = 1) → drop 0x0F)
      ∧ (RingOk b y r r.slot r.lam f.length → NoPartsOf s y.ctx y.tq →
        (∀ (q : Home) (k : TaskQ), y.tq % 64 = 0 → HomeAt s y.ctx y.tq .atomic q → taskQ (leNat (byteGets s.mem.bytes q.addr 64)) = some k →
          (k.tail + 2 ^ 32 - k.head) % 2 ^ 32 = k.cap → Runs s (.frameIngress pkg port f true) fun t =>
            t.mem.bytes = s.mem.bytes ∧ t.mem.recs = s.mem.recs ∧ t.blocks = s.blocks ∧ (t.host pkg).binds = [y])
        ∧ ((y.tq % 64 ≠ 0 ∨ ∃ q : Home, HomeAt s y.ctx y.tq .atomic q ∧ taskQ (leNat (byteGets s.mem.bytes q.addr 64)) = none) →
          Runs s (.frameIngress pkg port f true) fun t => Recorded s t y.ctx false 0x45 (16 * y.port + y.index) y.tq
            ∧ t.mem.bytes = s.mem.bytes ∧ t.blocks = s.blocks ∧ (t.host pkg).binds = [y]))
      ∧ ∀ (q e : Home) (k : TaskQ), RingOk b y r r.slot r.lam f.length → y.port ≤ 3 → y.rcb < 2 ^ 20 → y.tq % 64 = 0 →
        HomeAt s y.ctx y.tq .atomic q → taskQ (leNat (byteGets s.mem.bytes q.addr 64)) = some k →
        (k.tail + 2 ^ 32 - k.head) % 2 ^ 32 ≠ k.cap → HomeAt s y.ctx (k.slot k.tail) .write e →
        NoPartsOf s y.ctx y.tq → NoPartsOf s y.ctx (k.slot k.tail) → e.addr + 32 ≤ q.addr ∨ q.addr + 64 ≤ e.addr → (∀ w ∈ s.mem.tqwait, w.1 ≠ State.syncKey y.ctx y.tq) →
        Runs s (.frameIngress pkg port f true) fun t => (∃ x, t.blk? b.id.bid = some x ∧ Deposited x y r.slot r.lam r.widx s.time.ns f)
          ∧ (t.host pkg).binds = [{ y with count := (y.count + 1) % 2 ^ 32 }]
          ∧ leNat (byteGets t.mem.bytes (q.addr + 16) 4) = (k.tail + 1) % 2 ^ 32
          ∧ leNat (byteGets t.mem.bytes e.addr 32) = (1 + 2 ^ 16 + 2 ^ 24 * y.port + 2 ^ 32 * k.tail + 2 ^ 64 * (s.time.ns % 2 ^ 64)
              + 2 ^ 128 * (2 ^ 63 + y.rcb) + 2 ^ 192 * (r.widx + 2 ^ 32 * f.length)) % 2 ^ 256))
    ∧ ∀ (lid idx : Nat) (l : Launch) (c : Rec), s.launch? lid = some l → l.rec_ = some c → c.replay = true → l.done = false →
      (∀ (x : List Byte) (y : Binding) (pre post : List (Nat × Binding)) (b : Block) (r : RingView), c.frames[idx]? = some x →
        s.hosts.flatMap (fun e => e.2.binds.map fun y => (e.1, y)) = pre ++ (pkg, y) :: post →
        let same (z : Binding) : Prop := z.lid = lid ∧ z.rcb = natAt x 16 8 % 2 ^ 20 ∧ z.port = natAt x 3 1
        let frame := slice x 32 (natAt x 28 2)
        same y → (y.takes frame = true ∧ (∀ e ∈ pre, same e.2 → e.2.takes frame = false)) ∨ (∀ e ∈ pre ++ post, ¬same e.2) →
        s.ringReady y = some (b, r) → s.blk? b.id.bid = some b →
        let w := natAt x 24 4
        l.start + natAt x 8 8 - natAt c.header 24 8 ≤ s.time.ns → RingOk b y r (w % r.n) (w / r.n % 2) (slice x 32 (natAt x 28 2)).length →
        Runs s (.replayFrame lid idx) fun t => t.mem.bytes = s.mem.bytes
          ∧ (∃ z, t.blk? b.id.bid = some z ∧ Deposited z y (w % r.n) (w / r.n % 2) w (natAt x 8 8) (slice x 32 (natAt x 28 2)))
          ∧ t.launch? lid = some { l with rec_ := some { c with frames := c.frames.take idx ++ c.frames.drop (idx + 1) } })
      ∧ ∀ (va tm : Nat) (d : List Byte) (h : Home), c.stores[idx]? = some (va, tm, d) → l.start + tm - natAt c.header 24 8 ≤ s.time.ns →
        d ≠ [] → va % 128 + d.length ≤ 128 → HomeAt s l.ctx va .write h → NoPartsOf s l.ctx va → Runs s (.replayHostStore lid idx) fun t =>
          Stored s t h.addr d.length (leNat d)
          ∧ t.launch? lid = some { l with rec_ := some { c with stores := c.stores.take idx ++ c.stores.drop (idx + 1) } }

/-! ### Events: launches and contexts -/

/-- R20, R30-R36, R41, R42, R244-R258, R302: the packets of the rack command queue, blocks placed, the ranges of relays, and how
skeins, grids and contexts end. That a release drops the context's L1 lines and leaves is log 51, and that END is 0 in the record of a refused
launch packet is log 113: the model's choices. -/
def Obligations.Launches : Prop :=
  ∀ (s : State) (lid : Nat),
    let row : Nat → Instr
      | 1 => .gridLaunch | 2 => .residentLaunch | 3 => .contextBind | 4 => .contextRelease | _ => .reservedPacketType
    (∀ typ : Nat, s.nextPacket = none → exec (row typ) s = .next s)
    ∧ (∀ p : List Byte, s.nextPacket = some p → NoParts s →
      let c := natAt p 4 2 % 4096
      let typ := natAt p 0 1
      let u := s.refreshMaps c
      (typ = 0 ∨ 4 < typ → Runs s .reservedPacketType fun t => Refused s t p 0x01 0)
      ∧ (∀ d, 1 ≤ typ → typ ≤ 4 → formatFault p (s.maxpri c) = some d → Runs s (row typ) fun t => Refused s t p 0x01 d)
      ∧ (formatFault p (s.maxpri c) = none →
        (∀ d, typ = 1 ∨ typ = 2 → dimsFault p = some d → Runs s (row typ) fun t => Refused u t p 0x02 d)
        ∧ (typ = 1 ∨ typ = 2 → dimsFault p = none → s.ctx? c = none → Runs s (row typ) fun t => Refused u t p 0x05 4)
        ∧ (∀ e, typ = 1 ∨ typ = 2 → (s.checkLaunch c p).2 = .error e → Runs s (row typ) fun t =>
          Advanced s t ∧ t.launches = s.launches ∧ CtxsKept u t ∧ t.blocks = s.blocks)
        ∧ (∀ l : Launch, typ = 1 ∨ typ = 2 → (s.checkLaunch c p).2 = .ok l → Runs s (row typ) fun t => Advanced s t ∧ t.blocks = s.blocks
          ∧ (∃ x, u.ctx? c = some x ∧ l.seq = x.nextSeq ∧ t.ctx? c = some { x with nextSeq := x.nextSeq + 1 })
          ∧ l.lid = s.fresh.lid ∧ t.fresh.lid = s.fresh.lid + 1 ∧ l.ctx = c ∧ l.packet = p ∧ l.accept = s.time.ns ∧ l.retired = 0 ∧ l.done = false
          ∧ l.total = natAt p 32 4 * natAt p 36 2 * natAt p 38 2 ∧ l.start = max (natAt p 72 8) s.time.ns
          ∧ ∃ sh, t.launch? l.lid = some { l with shares := sh }
            ∧ ∀ n, Unplaced { l with shares := sh } n ↔ n < l.total)
        ∧ (typ = 3 → s.ctx? c ≠ none → Runs s .contextBind fun t => Refused s t p 0x05 4)
        ∧ (typ = 3 → let a := natAt p 64 8
            (∀ g, a / 32 ≤ g → g < a / 32 + 16512 → mapGetD s.mem.keyOf g 0 = 0) → s.ctx? c = none → a % 4096 = 0 →
            s.descriptorOk a = true → leNat (byteGets s.mem.bytes a 2) % 4096 = c → Runs s .contextBind fun t =>
              Advanced s t ∧ t.launches = s.launches ∧ t.blocks = s.blocks ∧ t.fresh.bind = s.fresh.bind + 1
              ∧ (∀ n, n ≠ c → t.ctx? n = s.ctx? n) ∧ ∃ x, t.ctx? c = some x ∧ x.dead = false ∧ x.fatal = none ∧ x.saved = 0 ∧ x.nextSeq = 0
                ∧ x.regions = [] ∧ x.order = s.fresh.bind ∧ x.d.root = BitVec.ofNat 64 (leNat (byteGets s.mem.bytes (a + 8) 8))
                ∧ x.d.maxpri = leNat (byteGets s.mem.bytes (a + 2) 1) % 8 ∧ x.d.save = leNat (byteGets s.mem.bytes (a + 16) 8)
                ∧ x.d.faultq = leNat (byteGets s.mem.bytes (a + 40) 8) ∧ x.d.errq = leNat (byteGets s.mem.bytes (a + 48) 8))
        ∧ (typ = 4 → s.ctx? c = none → Runs s .contextRelease fun t => Refused s t p 0x05 4)
        ∧ (typ = 4 → s.ctx? c ≠ none → Sorted s.ctxs → (∀ b ∈ mapVals s.blocks, b.id.ctx ≠ c) →
            (∀ l ∈ mapVals s.launches, l.ctx = c → l.done = true) → Runs s .contextRelease fun t => Advanced s t ∧ t.blocks = s.blocks
              ∧ t.ctx? c = none ∧ (∀ n, n ≠ c → t.ctx? n = s.ctx? n) ∧ (∀ l, l ∈ mapVals t.launches ↔ l ∈ mapVals s.launches ∧ l.ctx ≠ c)
              ∧ (∀ g y, y ∈ (t.core g).l1 → y.tag ≠ some c) ∧ (∀ ch y, y ∈ (t.chan ch).leaves → y.ctx ≠ c)
              ∧ Completed s t c (natAt p 80 8) (completionValue 0 0 (2 ^ 48 - 1) s.time.ns 0 s.time.ns 0))))
    ∧ (∀ d : Nat, (s.placeable d = none ∨ s.dieThere d = false → exec (.blockPlacement d) s = .next s)
      ∧ ∀ (l : Launch) (x : Ctx) (b g : Nat), s.placeable d = some (l, b, g) → s.dieThere d = true → s.ctx? l.ctx = some x →
        BlocksBelow s →
        let n := s.fresh.bid
        let shed (t : State) (m : Nat) : Prop := ∀ y, t.launch? l.lid = some y → ¬Unplaced y m
        (l.span ≠ 2 → Runs s (.blockPlacement d) fun t => Placed s t l x n b g l.span none ∧ t.fresh.bid = n + 1 ∧ shed t b
          ∧ (t.core g).ctx = some l.ctx ∧ (∀ m, m ≠ n → t.blk? m = s.blk? m)
          ∧ ∀ i y, t.sk? n i = some y → y.x.part = (firstPart (s.room g).slots + i) % 4)
        ∧ (l.span = 2 → Runs s (.blockPlacement d) fun t => let e := b / 2 * 2
          Placed s t l x n e g 2 (some (n + 1)) ∧ Placed s t l x (n + 1) (e + 1) (g + 1) 3 (some n) ∧ t.fresh.bid = n + 2
          ∧ shed t e ∧ shed t (e + 1) ∧ (∀ m, m ≠ n → m ≠ n + 1 → t.blk? m = s.blk? m)))
    ∧ (∀ l : Launch, s.launch? lid = some l →
      (l.resident = true → s.mayPlace l = true → l.shares ≠ [] → s.earlierWaits l = false → (s.plan l = none → exec (.residentPlacement lid) s = .next s)
        ∧ ∀ (bs : List (Nat × Nat)) (x : Ctx), s.plan l = some bs → l.span ≠ 2 → s.ctx? l.ctx = some x → BlocksBelow s →
          Runs s (.residentPlacement lid) fun t => t.fresh.bid = s.fresh.bid + bs.length
            ∧ ∀ i q, bs[i]? = some q → Placed s t l x (s.fresh.bid + i) q.1 q.2 l.span none)
      ∧ (l.resident = false ∨ s.mayPlace l = false ∨ s.earlierWaits l = true → exec (.residentPlacement lid) s = .next s))
    ∧ (∀ (n : Nat) (b : Block), s.blk? n = some b →
      let start := (s.launch? b.id.lid).elim 0 (·.start)
      (start ≤ s.time.ns → b.held = true → exec (.startTime n) s = .next (s.modBlk n fun b => { b with held := false }))
      ∧ (s.time.ns < start ∨ b.held = false → exec (.startTime n) s = .next s))
    ∧ (∀ (l : Launch) (level node : Nat), s.launch? lid = some l →
      (l.done = true ∨ 2 < level ∨ s.relayThere level node = false ∨ s.reportDue l level node = false → exec (.residencyReport level node lid) s = .next s)
      ∧ (l.done = false → level ≤ 2 → s.relayThere level node = true → s.reportDue l level node = true → Runs s (.residencyReport level node lid) fun t =>
        ∃ y sh, t.launch? lid = some { l with reports := y, shares := sh, waiting := (t.launch? lid).elim 0 (·.waiting) }
          ∧ (let known (r : Report) : Prop := r = s.reportOf l level node ∨ r ∈ l.reports ∧ ¬(r.level = level ∧ r.node = node)
            (∀ r ∈ y, r.idle = true → known r) ∧ (∀ r ∈ y, ∃ q, known q ∧ { q with idle := r.idle } = r)
            ∧ (∀ q, known q → ∃ r ∈ y, { q with idle := r.idle } = r)
            ∧ (l.routed = true ∨ l.resident = true ∨ (∀ x, s.ctx? l.ctx = some x → x.saved ≠ 0) → sh = l.shares ∧ ∀ r, r ∈ y ↔ known r))
          ∧ ∀ n, Unplaced { l with shares := sh } n ↔ Unplaced l n)
      ∧ Runs s (.steal level node lid) fun t => ∃ y, t.launch? lid = some y ∧ (∀ n, Unplaced y n ↔ Unplaced l n)
        ∧ ∀ b ∈ s.stealFrom l level node, { level := level, node := node, lo := b, count := 1, keyed := l.routed } ∈ y.shares)
    ∧ (∀ l : Launch, s.launch? lid = some l → l.lid = lid →
      (l.done = true ∨ State.reportedRetired l ≠ l.total → exec (.gridCompletion lid) s = .next s)
      ∧ (l.done = false → State.reportedRetired l = l.total → s.updatesOut l.ctx = false → s.isFatal l.ctx = false → s.mem.held = [] → l.rec_ = none →
        Runs s (.gridCompletion lid) fun t => t.launch? lid = some { l with done := true, shares := [], reports := [] }
          ∧ Completed s t l.ctx (natAt l.packet 80 8)
              (completionValue (if l.poison then 0x0E else 0) 0 l.seq l.accept l.first s.time.ns l.retired)
          ∧ ∀ pkg y, y ∈ (t.host pkg).binds ↔ y ∈ (s.host pkg).binds ∧ ¬(y.ctx = l.ctx ∧ y.seq = l.seq)))
    ∧ (∀ (n i : Nat) (b : Block) (k : Skein), s.blk? n = some b → b.id.bid = n → State.placedBlk b = true → b.skeins[i]? = some k →
      (s.core b.id.core).grants = [] → (b.id.span = 1 → (s.core (b.id.core + 1)).grants = []) →
      ((∃ j ∈ b.skeins, j.life ≠ .retired) → k.life ≠ .draining ∨ s.busySkein b i = true → exec (.skeinRetire n i) s = .next s)
      ∧ (k.life = .draining → s.busySkein b i = false → (∃ j y, j ≠ i ∧ b.skeins[j]? = some y ∧ y.life ≠ .retired) →
        Runs s (.skeinRetire n i) fun t => t.sk? n i = some { k with life := .retired } ∧ (∀ j, j ≠ i → t.sk? n j = s.sk? n j)
          ∧ t.ctx? b.id.ctx = (s.ctx? b.id.ctx).map fun x => { x with regions := x.regions.filter (· != regionOf x k.x.region) })
      ∧ (k.life = .draining → b.skeins = [k] → b.coach = none → s.busyBlock b = false → k.x.defer = none → CleanCore s b.id.core →
        Sorted s.blocks → (∀ e ∈ s.blocks, e.2.id.bid = e.1) → Runs s (.skeinRetire n i) fun t => t.blk? n = none ∧ (∀ m, m ≠ n → t.blk? m = s.blk? m)
          ∧ (t.launch? b.id.lid).map (·.retired) = (s.launch? b.id.lid).map (·.retired + 1)
          ∧ ((∀ y ∈ s.blocksOn b.id.core, y.id.bid = n) → (t.core b.id.core).ctx = none)))
    ∧ ∀ (c va : Nat) (x : Ctx) (u : Cause), s.ctx? c = some x → x.fatal = some (u, va) →
      (x.dead = true → exec (.contextFatal c) s = .next s)
      ∧ (x.dead = false → s.mem.reqs = [] → s.trays = [] → (∀ g, (s.core g).grants = []) → (∀ g, CleanCore s g) → Sorted s.blocks →
        (∀ e ∈ s.blocks, e.2.id.bid = e.1) → Runs s (.contextFatal c) fun t =>
        (∃ y, t.ctx? c = some y ∧ y.dead = true ∧ y.saved = 0) ∧ (∀ b, b ∈ mapVals t.blocks ↔ b ∈ mapVals s.blocks ∧ b.id.ctx ≠ c)
        ∧ (∃ r ∈ t.mem.recs, r.ctx = some c ∧ r.fault = false ∧ natAt r.bytes 0 1 = 0x18 ∧ natAt r.bytes 1 1 = u.code
            ∧ natAt r.bytes 40 8 = va % 2 ^ 64)
        ∧ ∀ l : Launch, s.launches = [(l.lid, l)] → l.ctx = c → l.done = false → l.rec_ = none →
          t.launch? l.lid = some { l with done := true, shares := [], reports := [] }
          ∧ Completed s t c (natAt l.packet 80 8) (completionValue 0x18 0 l.seq l.accept l.first s.time.ns l.retired))

/-! ### Events: preemption -/

/-- R45, R91-R95, R256, R257, R259, R291, R295: a coach instance's trap relayed, a context chosen for saving, saved and restored,
the layout of a skein's record, a block that moves from a hot core, and an eviction for a request. -/
def Obligations.Preemption : Prop :=
  ∀ (s : State) (n : Nat),
    (∀ b : Block, s.blk? n = some b → b.id.bid = n →
      ((b.coach.bind fun c => c.held) = none ∨ State.placedBlk b = false → exec (.relayedTrap n) s = .next s)
      ∧ ∀ (c : Coach) (t : Trap), b.coach = some c → c.held = some t → State.placedBlk b = true →
        let alive := b.skeins.filter fun k => k.life == .live || k.life == .saved
        (alive = [] → exec (.relayedTrap n) s = .next (s.fatal b.id.ctx .unhandled 0))
        ∧ ∀ (l r : List Skein) (k : Skein), alive = l ++ k :: r → (∀ y ∈ l, y.onFault = true) → k.onFault = false → s.sk? n k.idx = some k →
          (k.frame ≠ none → exec (.relayedTrap n) s = .next
            ((s.modCoach n fun c => { c with held := none, hold := some relayedHold }).modSk n k.idx fun k =>
              { k with x := { k.x with pend := k.x.pend ++ [{ trap := { t with next := false, off := none }, cls := 2, coach := true,
                                                              arm := 0, plane := 0, off := c.off }] } }))
          ∧ (k.frame = none → k.atBoundary = false → exec (.relayedTrap n) s = .next s)
          ∧ (k.frame = none → k.atBoundary = true → k.defers 0 = false → ∀ te, s.handler b = some te → Runs s (.relayedTrap n) fun u =>
            (∃ y, u.sk? n k.idx = some y ∧ InTrap y te t.code.code t.cause.code t.aux.toNat)
            ∧ (u.blk? n).bind (·.coach) = some { c with held := none, hold := some relayedHold }))
    ∧ (∀ l : Launch, s.launch? n = some l →
      (s.victimFor l = none → exec (.priorityPreemption n) s = .next s)
      ∧ ∀ c, s.victimFor l = some c →
        exec (.priorityPreemption n) s = .next (s.modCtx c fun x => { x with saved := 1, since := s.time.ns })
        ∧ s.priorityOf c < l.priority ∧ (∀ q ∈ mapVals s.launches, q.ctx = c → q.done = false → q.exempt = false))
    ∧ (∀ x : Ctx, s.ctx? n = some x →
      (x.saved ≠ 1 ∨ x.dead = true ∨ x.fatal ≠ none → exec (.contextSave n) s = .next s)
      ∧ (∀ b ∈ mapVals s.blocks, b.id.ctx = n → (∃ k ∈ b.skeins, k.quiet = false) → exec (.contextSave n) s = .next s)
      ∧ (x.saved = 1 → x.dead = false → x.fatal = none → (∀ b ∈ mapVals s.blocks, b.id.ctx ≠ n) →
        exec (.contextSave n) s = .next (s.modCtx n fun x => { x with saved := 2, since := s.time.ns, cores := [] }))
      ∧ ∀ b : Block, x.saved = 1 → x.dead = false → x.fatal = none → s.blocks = [(b.id.bid, b)] → b.id.ctx = n → State.placedBlk b = true →
        (∀ k ∈ b.skeins, k.quiet = true) → s.mem.reqs = [] → s.trays = [] →
        let g := b.id.core
        (s.core g).prefs = [] → (∀ h, (s.core h).grants = []) → CleanCore s g → Runs s (.contextSave n) fun t =>
          (∃ y, t.ctx? n = some y ∧ y.saved = 2 ∧ y.since = s.time.ns ∧ y.cores = [g])
          ∧ t.blk? b.id.bid = some { b with id := { b.id with core := State.away n g } } ∧ (t.core g).ctx = none
          ∧ t.mem.bytes = (s.hwWrite (unitOrigin n (State.pkgOf g)) (x.d.save + 2 ^ 23 * g) (s.regionOfBlocks n g [b])).1.mem.bytes)
    ∧ (∀ (b : Block) (k : Skein) (a : Arm) (pos grown extra : Nat), k.frame = none → k.arms = [a] → a.stack.length ≤ 32 →
      b.id.seq < 2 ^ 48 → k.idx < 16 → k.role < 4 →
      let r := skeinRecord b k pos grown extra
      natAt r 0 6 = b.id.seq ∧ natAt r 6 1 % 16 = k.idx ∧ natAt r 6 1 / 16 % 4 = k.role ∧ natAt r 0x10 4 = k.win.base % 2 ^ 32
        ∧ natAt r 0x14 4 = k.win.spill % 2 ^ 32 ∧ natAt r 0x18 2 = k.win.allot % 2 ^ 16 ∧ natAt r 0x1A 2 = k.win.reach % 2 ^ 16
        ∧ natAt r 0x1C 2 = k.r.status.toNat ∧ natAt r 0x1E 2 = k.r.exited.toNat ∧ (∀ i, i < 8 → natAt r (0x30 + 2 * i) 2 = (k.mask i).toNat)
        ∧ natAt r 0x140 4 = a.recordOff % 2 ^ 32 ∧ natAt r 0x144 2 = a.path.elim 0 (·.lanes.toNat)
        ∧ (∀ i, i < 32 → natAt r (0x380 + 8 * i) 8 = (mapGetD a.ks i 0).toNat) ∧ natAt r 0x5C8 8 = k.x.region % 2 ^ 64
        ∧ natAt r 0x5D0 8 = b.id.idx % 2 ^ 64
        ∧ ∀ i l, i < k.win.allot → l < 16 → natAt r (0x1000 + 64 * i + 4 * l) 4 = (k.logical (k.win.spill + i) l).toNat)
    ∧ (∀ x : Ctx, s.ctx? n = some x →
      (x.saved ≠ 2 ∨ x.dead = true ∨ x.fatal ≠ none ∨ s.outranked n = true → exec (.contextRestore n) s = .next s)
      ∧ (x.saved = 2 → x.dead = false → x.fatal = none → s.outranked n = false →
        (s.targets n x.cores x.cores [] = none → exec (.contextRestore n) s = .next s)
        ∧ ∀ (g0 g : Nat) (h : List Byte), s.targets n x.cores x.cores [] = some [(g0, g)] →
          let o := unitOrigin n (State.pkgOf g)
          let base := x.d.save + 2 ^ 23 * g0
          let r := s.refreshMaps n
          (r.hwRead o base 0x1000).2 = .ok h →
          (natAt h 0 4 ≠ 1 ∨ natAt h 4 1 ≠ 7 → Runs s (.contextRestore n) fun t => ∃ y, t.ctx? n = some y ∧ y.fatal = some (.restore, base))
          ∧ ∀ (b : Block) (k : Skein) (rb rk : List Byte), natAt h 0 4 = 1 → natAt h 4 1 = 7 → natAt h 5 1 = 1 → s.blk? b.id.bid = some b →
            s.blocksOn (State.away n g0) = [b] → b.skeins = [k] → x.replies = [] → 0 < natAt rk 0x18 2 → natAt rb 0xB 1 = 1 →
            let u := (r.hwRead o base 0x1000).1
            let v := (u.readBlocks o base [b] [natAt h 0x100 8]).1
            (u.readBlocks o base [b] [natAt h 0x100 8]).2 = .ok [(b, rb)] →
            (v.readSkeins o base [(b, rb)] ((List.range (natAt h 6 1)).map fun i => natAt h (0x400 + 4 * i) 4)).2 = .ok [(b.id.bid, k.idx, rk)] →
            (s.core (State.away n g0)).grants = [] → (s.core g).grants = [] → Runs s (.contextRestore n) fun t =>
              (∃ y, t.ctx? n = some y ∧ y.saved = 0 ∧ y.cores = []) ∧ (t.core g).ctx = some n
              ∧ ∃ y z, t.blk? b.id.bid = some y ∧ y.id = { b.id with core := g, key := natAt rb 8 2, span := natAt rb 0xC 1 }
                ∧ y.ntiles = natAt rb 0xA 1 ∧ y.ps.size = natAt rb 0x10 4 ∧ y.ncmd = natAt rb 0x402 2 ∧ y.ncopy = natAt rb 0x404 4
                ∧ (∀ i, i < natAt rb 0x10 4 → byteGet y.ps.bytes i = (rb[0x1000 + i]?).getD 0)
                ∧ y.skeins = [z] ∧ z.win.allot = natAt rk 0x18 2 ∧ z.win.spill = natAt rk 0x14 4 ∧ z.win.reach = natAt rk 0x1A 2
                ∧ ∀ i l, i < natAt rk 0x18 2 → l < 16 → (z.logical (z.win.spill + i) l).toNat = natAt rk (0x1000 + 64 * i + 4 * l) 4))
    ∧ (∀ temp : Nat, let hot := s.modCore n fun c => { c with temp := temp }
      (temp < Config.shedAt (State.pkgOf n) → exec (.thermalMigration n temp) s = .next hot)
      ∧ ((∃ b ∈ s.blocksOn n, ∃ l, s.launch? b.id.lid = some l ∧ l.exempt = true) → exec (.thermalMigration n temp) s = .next hot)
      ∧ ((∀ b ∈ s.blocksOn n, b.placed + 2000000 > s.time.ns) → exec (.thermalMigration n temp) s = .next hot)
      ∧ ∀ (b : Block) (to_ : Nat), s.blocksOn n = [b] → s.blk? b.id.bid = some b → b.id.core = n → b.id.partner = none →
        (∀ l, s.launch? b.id.lid = some l → l.exempt = false) → hot.canShed b = true → Config.shedAt (State.pkgOf n) ≤ temp →
        ((∃ k ∈ b.skeins, k.quiet = false) → exec (.thermalMigration n temp) s = .next hot)
        ∧ ((∀ k ∈ b.skeins, k.quiet = true) → s.mem.reqs = [] → s.trays = [] → n < State.nowhere →
        (s.core n).prefs = [] → (s.core n).grants = [] → (s.core to_).grants = [] → CleanCore s n → s.blocksOn (State.away b.id.ctx n) = [] →
        hot.coolest [b] (s.allCores.filter fun g => State.pkgOf g == State.pkgOf n) = some to_ → Runs s (.thermalMigration n temp) fun t =>
          (t.core n).temp = temp ∧ ∃ y, t.blk? b.id.bid = some y ∧ (y.id.core = to_ ∨ t.isFatal b.id.ctx = true)))
    ∧ ∀ tiles : Bool, (s.evictee n tiles = none → exec (.resourceEviction n tiles) s = .next (s.settleGrants n))
      ∧ ∀ h : Block, s.evictee n tiles = some h → s.blk? h.id.bid = some h →
        let runs (b : Block) (f : MCmd → Prop) : Prop := ∃ m ∈ (s.core b.id.core).mq, m.bid = b.id.bid ∧ m.state = 1 ∧ f m
        let waits : Prop := if tiles then runs h (fun _ => True) ∨ ∃ x b, h.id.partner = some x ∧ s.blk? x = some b ∧ runs b fun m => m.span = true
          else ∃ k ∈ h.skeins, k.quiet = false
        (waits → exec (.resourceEviction n tiles) s = .next s)
        ∧ (¬waits → s.mem.reqs = [] → s.trays = [] → (s.core n).prefs = [] → CleanCore s n → ∃ u : State,
          exec (.resourceEviction n tiles) s = .next (if u.isFatal h.id.ctx then u else u.settleGrants n)
          ∧ (∃ q ∈ (u.core n).grants, q.bid = h.id.bid ∧ q.tiles = tiles ∧ State.holds h tiles ≤ q.amount)
          ∧ ∃ y : Block, u.blk? h.id.bid = some y ∧ (tiles = true → y = { h with evicted := h.ntiles })
            ∧ (tiles = false → y.ntiles = h.ntiles ∧ ∀ (i : Nat) (k : Skein), h.skeins[i]? = some k → ∃ z : Skein, y.skeins[i]? = some z ∧ z.r = k.r ∧ z.arms = k.arms
                ∧ (heldRegs k ≠ 0 → z.x.evict = some k.win.allot) ∧ (heldRegs k = 0 → z = k)))

/-! ### Encodings and steps -/

/-- R96-R122: every well-formed instruction is read back from its halfwords, whatever follows them; every word that decodes is the
word of a well-formed instruction. -/
def Obligations.EncodingRoundTrip : Prop :=
  (∀ (i : Instr) (r : List (BitVec 16)), i.wf = true → encodeForm i ≠ none → decodeHalves (encode i ++ r) = (.ok i, r))
  ∧ ∀ (w : Nat) (i : Instr), w < 2 ^ 32 → decodeWord w = .ok i →
    i.wf = true ∧ ∃ f, encodeForm i = some f ∧ f.word = if w % 2 = 0 then w % 65536 else w

/-- R96-R103, R111, R123: words written out from the format tables, the length bit, and words that are no instruction. -/
def Obligations.SpecWords : Prop :=
  decodeTableWord 32 0b0000_0010111_1000101_1_001100_000001_1 = some (.iadd 12 true (.b 5) (.v 23))
  ∧ decodeTableWord 32 0b0010_0010111_0000111_0_111111_000011_1 = some (.fadd 63 false (.v 7) (.v 23) .rup)
  ∧ decodeTableWord 32 0b1010101111001101_01_1_000101_010101_1 = some (.movh 5 true 0xABCD)
  ∧ decodeTableWord 32 0b001_110_000100_000110_0_000010_011000_1 = some (.amad 2 6 4 6)
  ∧ decodeTableWord 32 0b11111111_01_11_000100_0_001000_100000_1 = some (.ld 8 false 4 .b64 1 255)
  ∧ decodeTableWord 32 0b1_010_011_001010_001000_000110_101001_1 = some (.cas 6 8 10 .tray 2 true)
  ∧ decodeTableWord 32 0b1111111111_00000000101_1_010_110100_1 = some (.braRj 2 true 5 1023)
  ∧ decodeTableWord 16 0b01001_000111_0000_0 = some (.iadd16 7 (.v 9))
  ∧ decodeTableWord 16 0xF80E = some .nop16
  ∧ decodeWord 0x0000 = .illegal .encoding .any ∧ decodeWord 0b011101_1 = .illegal .encoding .any
  ∧ decodeTableWord 32 0b1011_00000000000000_1_00_1111_110001_1 = none
  ∧ (∀ (lo hi : BitVec 16) (r : List (BitVec 16)),
      (lo.toNat % 2 = 0 → lengthOf lo.toNat = 2 ∧ (decodeHalves (lo :: r)).2 = r)
      ∧ (lo.toNat % 2 = 1 → lengthOf lo.toNat = 4 ∧ (decodeHalves (lo :: hi :: r)).2 = r))
  ∧ (∀ w : Nat, w < 2 ^ 16 → w % 2 = 0 → w / 2 ^ 14 = 3 → w / 2 % 16 ≠ 8 → w ≠ 0xF80E → decodeWord w = .illegal .encoding .any)
  ∧ ∀ (s : State) (p : Pass), (LanePass s p → Runs s .nop16 fun t => NoResult s t p)
    ∧ (CoachPass s p → exec .nop16 s = .next (s.modCoach p.bid fun c => { c with off := p.off + p.len }))
    ∧ (s.pass? = some p → Traps s p (.unassignedEncoding .encoding .any) .illegal .encoding)

/-- R22, R46, R51-R54, R61, R62, R100, R123, log 1: a step takes the agenda's first turn; an event happens, an issuer's turn runs the decoded
instruction of the word at its offset once the paths at their rejoin have arrived, and an unassigned word raises ILLEGAL. -/
def Obligations.StepRunsDecoded : Prop :=
  (∀ (s : State) (t : Turn) (r : List Turn), s.agenda = t :: r →
    let u := ({ s with agenda := r, cur := none } : State).pass t.clocks
    (∀ i, t.move = .event i → step s = exec i u) ∧ (∀ y, t.move = .world y → step s = .next (u.worldly y))
    ∧ ∀ w, t.move = .issue w →
      (u.ready w = false → step s = .next u)
      ∧ (u.ready w = true → ∀ v, (u.prepare w = (v, none) → step s = .next v)
        ∧ (∀ i, u.prepare w = (v, some (.ok i)) → step s = if isAtom i then v.atomPasses 4 w i else exec i v)
        ∧ ∀ c n, u.prepare w = (v, some (.illegal c n)) → step s = exec (.unassignedEncoding c n) v)
      ∧ (∀ (n j a : Nat) (b : Block) (k z : Skein) (x : Arm), w = .skein n j a → u.ready w = true → u.blk? n = some b → b.id.bid = n →
          b.skeins[j]? = some k → k.arms[a]? = some x → x.issue = none → x.wait = none → x.hold = none → x.sw = false →
          k.arrive a = some z → z.arms.length ≠ k.arms.length →
          ∃ v, step s = .next v ∧ v.sk? n j = some z ∧ v.mem = u.mem ∧ ∀ c, c ≠ n → v.blk? c = u.blk? c)
      ∧ (∀ (n j : Nat) (b : Block) (k0 k : Skein) (x0 x : Arm) (q : Path) (l : Nat) (word : Nat) (i : Instr), w = .skein n j 0 →
          u.blk? n = some b → b.id.bid = n → b.skeins[j]? = some k0 → k0.arms = [x0] → IdleArm x0 → x0.path.isSome = true → k0.life = .live →
          State.arriveAll 70 k0 0 = k → AtIssue b k x q → u.blockRuns b false = true →
          let m := q.lanes &&& k.live
          State.occupied k m = [(l, m)] → WordAt u b.id.core b.id.ctx (u.codeOf b.id.lid) l q.off word → decodeWord word = .ok i → isAtom i = false →
          ∃ v p, step s = exec i v ∧ v.mem = u.mem ∧ v.pass? = some p ∧ p.bid = n ∧ p.ix = j ∧ p.ai = 0 ∧ p.coach = false ∧ p.off = q.off
            ∧ p.len = (if word % 2 = 0 then 2 else 4) ∧ p.plane = l ∧ p.act = m &&& k.mask 0 ∧ p.path = m ∧ p.last = true
            ∧ p.sk.r = k.r ∧ p.sk.win = k.win ∧ p.sk.frame = none ∧ p.arm.ks = x.ks ∧ p.arm.path = some { q with last := q.off })
      ∧ ∀ (n : Nat) (b : Block) (c : Coach) (word : Nat) (i : Instr), w = .coach n → u.blk? n = some b → b.id.bid = n → b.coach = some c →
          c.ended = false → c.held = none → c.wait = none → c.hold = none → u.blockRuns b false = true →
          WordAt u b.id.core b.id.ctx (u.codeOf b.id.lid) 0 c.off word → decodeWord word = .ok i →
          ∃ v p, step s = exec i v ∧ v.mem = u.mem ∧ v.pass? = some p ∧ p.bid = n ∧ p.coach = true ∧ p.off = c.off
            ∧ p.len = (if word % 2 = 0 then 2 else 4) ∧ p.co.ks = c.ks)
  ∧ ∀ (s : State) (p : Pass) (c : IllCause), s.pass? = some p →
    Traps s p (.unassignedEncoding c .any) .illegal (illCause c)
    ∧ Traps s p (.unassignedEncoding c .handler) .illegal (if p.coach = true ∨ p.sk.frame = none then .encoding else illCause c)
    ∧ (∀ (slot : Nat) (rs : List Nat), let d := tableDim (p.table s slot)
      Traps s p (.unassignedEncoding c (.aligned slot rs)) .illegal (if p.coach then .role else if p.em = 0 then illCause c
        else if ∃ r ∈ rs, r % d ≠ 0 ∨ 64 < r + d then .operand else illCause c))
    ∧ (p.coach = true → Traps s p (.unassignedEncoding c .skein) .illegal .role ∧ Traps s p (.unassignedEncoding c .converged) .illegal .role
      ∧ Traps s p (.unassignedEncoding c .single) .illegal .role
      ∧ Traps s p (.unassignedEncoding c .copy) .illegal (illCause c) ∧ Traps s p (.unassignedEncoding c .matrix) .illegal (illCause c)
      ∧ Traps s p (.unassignedEncoding c .coach) .illegal (illCause c))
    ∧ (p.coach = false → Traps s p (.unassignedEncoding c .coach) .illegal .role
      ∧ Traps s p (.unassignedEncoding c .skein) .illegal (illCause c)
      ∧ Traps s p (.unassignedEncoding c .converged) .illegal (if p.sk.converged then illCause c else .diverged)
      ∧ Traps s p (.unassignedEncoding c .single) .illegal (if p.sk.arms.length = 2 then .diverged else illCause c)
      ∧ Traps s p (.unassignedEncoding c .copy) .illegal (if p.sk.role = 1 then illCause c else .role)
      ∧ Traps s p (.unassignedEncoding c .matrix) .illegal (if p.sk.role = 2 then illCause c else .role))

/-! ### The machine as a whole -/

/-- R88, R153, R244, R315, R324: what the spec says of reset. -/
def Obligations.ResetState : Prop :=
  let s := State.reset
  s.relay.base = 0 ∧ s.relay.tail = 0 ∧ s.relay.head = 0 ∧ s.relay.en = false ∧ s.relay.rerrq = 0 ∧ s.relay.rerrlost = 0
    ∧ s.relay.primary = none ∧ s.relay.standby = none ∧ s.relay.tstatus = 0 ∧ s.relay.toffset = 0 ∧ s.time.clk = 0
    ∧ (∀ pkg, (s.host pkg).cmd = List.replicate 64 0 ∧ (s.host pkg).done = true ∧ (s.host pkg).status = 0)
    ∧ (∀ a, mapGetD s.events a 0 = 0) ∧ (∀ g i, (s.core g).slot i = Config.preloaded i)
    ∧ (∀ b, s.blk? b = none) ∧ (∀ c, s.ctx? c = none) ∧ (∀ l, s.launch? l = none) ∧ MemoryOk s

/-- Every step keeps HBM's bytes in their canonical form. -/
def Obligations.StepKeepsMemoryOk : Prop :=
  ∀ s t : State, MemoryOk s → step s = .next t → MemoryOk t
end

