-- ==== Sys2Proof/Laws/Encode.lean ====
section
/-! SUPPORT. Encoding and cutting a word are inverse on forms whose fields fit; the codes of the enumerations are read back. -/

namespace Sys2Proof

/-- Every field of a form lies in its bits, and the major opcode is one of its format. -/
def Form.fits : Form → Prop
  | .fr maj d k a b mn =>
    ((1 ≤ maj ∧ maj ≤ 15) ∨ (18 ≤ maj ∧ maj ≤ 20) ∨ maj = 22 ∨ maj = 23 ∨ maj = 26 ∨ maj = 27 ∨ (45 ≤ maj ∧ maj ≤ 47) ∨ maj = 49)
      ∧ d < 64 ∧ k < 2 ∧ a < 128 ∧ b < 128 ∧ mn < 16
  | .fw maj d k h imm => (maj = 21 ∨ maj = 28) ∧ d < 64 ∧ k < 2 ∧ h < 4 ∧ imm < 65536
  | .fcv maj d k a dt st rm => (maj = 16 ∨ maj = 17) ∧ d < 64 ∧ k < 2 ∧ a < 128 ∧ dt < 16 ∧ st < 16 ∧ rm < 8
  | .fal d a b slot mn => d < 64 ∧ a < 64 ∧ b < 64 ∧ slot < 8 ∧ mn < 8
  | .fs reg kind num mn => reg < 64 ∧ kind < 2 ∧ num < 256 ∧ mn < 16
  | .fmi maj data bk base sz pol off8 =>
    (maj = 32 ∨ maj = 34 ∨ (36 ≤ maj ∧ maj ≤ 39)) ∧ data < 64 ∧ bk < 2 ∧ base < 64 ∧ sz < 4 ∧ pol < 4 ∧ off8 < 256
  | .fms maj data kb vx sz scope ord pol =>
    (maj = 33 ∨ maj = 35) ∧ data < 64 ∧ kb < 32 ∧ vx < 64 ∧ sz < 4 ∧ scope < 8 ∧ ord < 4 ∧ pol < 2
  | .fpf cnt kb vx tier bo bound => cnt < 64 ∧ kb < 32 ∧ vx < 64 ∧ tier < 4 ∧ bo < 32 ∧ bound < 2
  | .fat maj d addr data sc op => (40 ≤ maj ∧ maj ≤ 42) ∧ d < 64 ∧ addr < 64 ∧ data < 64 ∧ sc < 8 ∧ op < 16
  | .fsw d a b sm mn => d < 64 ∧ a < 64 ∧ b < 64 ∧ sm < 8 ∧ mn < 16
  | .fmx kab span tile slot fl kc => kab < 32 ∧ span < 2 ∧ tile < 16 ∧ slot < 8 ∧ fl < 16 ∧ kc < 32
  | .fj jn sub imm => jn < 8 ∧ sub < 4 ∧ imm < 65536
  | .fbr cm neg disp => cm < 8 ∧ neg < 2 ∧ disp < 2097152
  | .fbs cm neg tdisp rdist => cm < 8 ∧ neg < 2 ∧ tdisp < 2048 ∧ rdist < 1024
  | .fbu kc mode disp => kc < 32 ∧ mode < 4 ∧ disp < 262144
  | .fcl n8 disp => n8 < 8 ∧ disp < 524288
  | .fyl kct kth cnt disp => kct < 32 ∧ kth < 32 ∧ cnt < 2 ∧ disp < 16384
  | .fh op d s => op < 16 ∧ d < 64 ∧ s < 32
  | .bad => False

/-- A word with the low bit set is cut by its major opcode. -/
theorem formOf_odd (w : Nat) (h : w % 2 = 1) (g : w < 4294967296) : formOf w = form32 w := by
  unfold formOf; rw [if_neg (by omega), Nat.mod_eq_of_lt g]
theorem form32_R (w : Nat) (m : Nat) (h : fieldOf w 2 64 = m)
    (g : (1 ≤ m ∧ m ≤ 15) ∨ (18 ≤ m ∧ m ≤ 20) ∨ m = 22 ∨ m = 23 ∨ m = 26 ∨ m = 27 ∨ (45 ≤ m ∧ m ≤ 47) ∨ m = 49) :
    form32 w = formR w := by
  have : m < 50 := by omega
  unfold form32
  rw [h]
  interval_cases m <;> first | rfl | (exfalso; revert g; decide)

/-- Cutting the word of a form that fits gives the form back. -/
theorem formOf_word (f : Form) (h : f.fits) : formOf f.word = f := by
  cases f with
  | fr maj d k a b mn =>
    obtain ⟨g, h⟩ := h
    have l : maj < 64 := by omega
    rw [formOf_odd _ (by simp only [Form.word]; omega) (by simp only [Form.word]; omega),
      form32_R _ maj (by simp only [Form.word, fieldOf]; omega) g]
    simp only [formR, Form.word, fieldOf, Form.fr.injEq]; omega
  | fw maj d k hh imm =>
    obtain ⟨g, h⟩ := h
    rw [formOf_odd _ (by simp only [Form.word]; omega) (by simp only [Form.word]; omega)]
    have e : form32 (Form.word (.fw maj d k hh imm)) = formW (Form.word (.fw maj d k hh imm)) := by
      have : fieldOf (Form.word (.fw maj d k hh imm)) 2 64 = maj := by simp only [Form.word, fieldOf]; omega
      unfold form32; rcases g with rfl | rfl <;> (rw [this]; rfl)
    rw [e]; simp only [formW, Form.word, fieldOf, Form.fw.injEq]; omega
  | fcv maj d k a dt st rm =>
    obtain ⟨g, h⟩ := h
    rw [formOf_odd _ (by simp only [Form.word]; omega) (by simp only [Form.word]; omega)]
    have e : form32 (Form.word (.fcv maj d k a dt st rm)) = formCV (Form.word (.fcv maj d k a dt st rm)) := by
      have : fieldOf (Form.word (.fcv maj d k a dt st rm)) 2 64 = maj := by simp only [Form.word, fieldOf]; omega
      unfold form32; rcases g with rfl | rfl <;> (rw [this]; rfl)
    rw [e]; simp only [formCV, Form.word, fieldOf, Form.fcv.injEq]; omega
  | fal d a b slot mn =>
    simp only [Form.fits] at h
    rw [formOf_odd _ (by simp only [Form.word]; omega) (by simp only [Form.word]; omega)]
    have m : fieldOf (Form.word (.fal d a b slot mn)) 2 64 = 0x18 := by simp only [Form.word, fieldOf]; omega
    have z : fieldOf (Form.word (.fal d a b slot mn)) 0x2000 2 = 0 := by simp only [Form.word, fieldOf]; omega
    unfold form32; rw [m]; simp only [formAL]; rw [if_pos z]
    simp only [Form.word, fieldOf, Form.fal.injEq]; omega
  | fs reg kind num mn =>
    simp only [Form.fits] at h
    rw [formOf_odd _ (by simp only [Form.word]; omega) (by simp only [Form.word]; omega)]
    have m : fieldOf (Form.word (.fs reg kind num mn)) 2 64 = 0x19 := by simp only [Form.word, fieldOf]; omega
    have z : fieldOf (Form.word (.fs reg kind num mn)) 0x400000 64 = 0 := by simp only [Form.word, fieldOf]; omega
    unfold form32; rw [m]; simp only [formS]; rw [if_pos z]
    simp only [Form.word, fieldOf, Form.fs.injEq]; omega
  | fmi maj data bk base sz pol off8 =>
    obtain ⟨g, h⟩ := h
    rw [formOf_odd _ (by simp only [Form.word]; omega) (by simp only [Form.word]; omega)]
    have e : form32 (Form.word (.fmi maj data bk base sz pol off8)) = formMI (Form.word (.fmi maj data bk base sz pol off8)) := by
      have q : fieldOf (Form.word (.fmi maj data bk base sz pol off8)) 2 64 = maj := by simp only [Form.word, fieldOf]; omega
      have : maj = 32 ∨ maj = 34 ∨ maj = 36 ∨ maj = 37 ∨ maj = 38 ∨ maj = 39 := by omega
      unfold form32; rcases this with rfl | rfl | rfl | rfl | rfl | rfl <;> (rw [q]; rfl)
    rw [e]; simp only [formMI, Form.word, fieldOf, Form.fmi.injEq]; omega
  | fms maj data kb vx sz scope ord pol =>
    obtain ⟨g, h⟩ := h
    rw [formOf_odd _ (by simp only [Form.word]; omega) (by simp only [Form.word]; omega)]
    have e : form32 (Form.word (.fms maj data kb vx sz scope ord pol)) = formMS (Form.word (.fms maj data kb vx sz scope ord pol)) := by
      have q : fieldOf (Form.word (.fms maj data kb vx sz scope ord pol)) 2 64 = maj := by simp only [Form.word, fieldOf]; omega
      unfold form32; rcases g with rfl | rfl <;> (rw [q]; rfl)
    rw [e]; simp only [formMS, Form.word, fieldOf, Form.fms.injEq]; omega
  | fpf cnt kb vx tier bo bound =>
    simp only [Form.fits] at h
    rw [formOf_odd _ (by simp only [Form.word]; omega) (by simp only [Form.word]; omega)]
    have m : fieldOf (Form.word (.fpf cnt kb vx tier bo bound)) 2 64 = 0x2B := by simp only [Form.word, fieldOf]; omega
    unfold form32; rw [m]
    simp only [formPF, Form.word, fieldOf, Form.fpf.injEq]; omega
  | fat maj d addr data sc op =>
    obtain ⟨g, h⟩ := h
    rw [formOf_odd _ (by simp only [Form.word]; omega) (by simp only [Form.word]; omega)]
    have e : form32 (Form.word (.fat maj d addr data sc op)) = formAT (Form.word (.fat maj d addr data sc op)) := by
      have q : fieldOf (Form.word (.fat maj d addr data sc op)) 2 64 = maj := by simp only [Form.word, fieldOf]; omega
      have : maj = 40 ∨ maj = 41 ∨ maj = 42 := by omega
      unfold form32; rcases this with rfl | rfl | rfl <;> (rw [q]; rfl)
    rw [e]; simp only [formAT, Form.word, fieldOf, Form.fat.injEq]; omega
  | fsw d a b sm mn =>
    simp only [Form.fits] at h
    rw [formOf_odd _ (by simp only [Form.word]; omega) (by simp only [Form.word]; omega)]
    have m : fieldOf (Form.word (.fsw d a b sm mn)) 2 64 = 0x2C := by simp only [Form.word, fieldOf]; omega
    unfold form32; rw [m]
    simp only [formSW, Form.word, fieldOf, Form.fsw.injEq]; omega
  | fmx kab span tile slot fl kc =>
    simp only [Form.fits] at h
    rw [formOf_odd _ (by simp only [Form.word]; omega) (by simp only [Form.word]; omega)]
    have m : fieldOf (Form.word (.fmx kab span tile slot fl kc)) 2 64 = 0x30 := by simp only [Form.word, fieldOf]; omega
    have z : fieldOf (Form.word (.fmx kab span tile slot fl kc)) 0x2000 2 = 0 ∧ fieldOf (Form.word (.fmx kab span tile slot fl kc)) 0x40000000 4 = 0 := by
      simp only [Form.word, fieldOf]; omega
    unfold form32; rw [m]; simp only [formMX]; rw [if_pos z]
    simp only [Form.word, fieldOf, Form.fmx.injEq]; omega
  | fj jn sub imm =>
    simp only [Form.fits] at h
    rw [formOf_odd _ (by simp only [Form.word]; omega) (by simp only [Form.word]; omega)]
    have m : fieldOf (Form.word (.fj jn sub imm)) 2 64 = 0x32 := by simp only [Form.word, fieldOf]; omega
    have z : fieldOf (Form.word (.fj jn sub imm)) 0x400 16 = 0 := by simp only [Form.word, fieldOf]; omega
    unfold form32; rw [m]; simp only [formJ]; rw [if_pos z]
    simp only [Form.word, fieldOf, Form.fj.injEq]; omega
  | fbr cm neg disp =>
    simp only [Form.fits] at h
    rw [formOf_odd _ (by simp only [Form.word]; omega) (by simp only [Form.word]; omega)]
    have m : fieldOf (Form.word (.fbr cm neg disp)) 2 64 = 0x33 := by simp only [Form.word, fieldOf]; omega
    unfold form32; rw [m]
    simp only [formBR, Form.word, fieldOf, Form.fbr.injEq]; omega
  | fbs cm neg tdisp rdist =>
    simp only [Form.fits] at h
    rw [formOf_odd _ (by simp only [Form.word]; omega) (by simp only [Form.word]; omega)]
    have m : fieldOf (Form.word (.fbs cm neg tdisp rdist)) 2 64 = 0x34 := by simp only [Form.word, fieldOf]; omega
    unfold form32; rw [m]
    simp only [formBS, Form.word, fieldOf, Form.fbs.injEq]; omega
  | fbu kc mode disp =>
    simp only [Form.fits] at h
    rw [formOf_odd _ (by simp only [Form.word]; omega) (by simp only [Form.word]; omega)]
    have m : fieldOf (Form.word (.fbu kc mode disp)) 2 64 = 0x35 := by simp only [Form.word, fieldOf]; omega
    unfold form32; rw [m]
    simp only [formBU, Form.word, fieldOf, Form.fbu.injEq]; omega
  | fcl n8 disp =>
    simp only [Form.fits] at h
    rw [formOf_odd _ (by simp only [Form.word]; omega) (by simp only [Form.word]; omega)]
    have m : fieldOf (Form.word (.fcl n8 disp)) 2 64 = 0x36 := by simp only [Form.word, fieldOf]; omega
    have z : fieldOf (Form.word (.fcl n8 disp)) 0x400 8 = 0 := by simp only [Form.word, fieldOf]; omega
    unfold form32; rw [m]; simp only [formCL]; rw [if_pos z]
    simp only [Form.word, fieldOf, Form.fcl.injEq]; omega
  | fyl kct kth cnt disp =>
    simp only [Form.fits] at h
    rw [formOf_odd _ (by simp only [Form.word]; omega) (by simp only [Form.word]; omega)]
    have m : fieldOf (Form.word (.fyl kct kth cnt disp)) 2 64 = 0x37 := by simp only [Form.word, fieldOf]; omega
    unfold form32; rw [m]
    simp only [formYL, Form.word, fieldOf, Form.fyl.injEq]; omega
  | fh op d s =>
    simp only [Form.fits] at h
    unfold formOf; rw [if_pos (by simp only [Form.word]; omega)]
    simp only [formH, Form.word, fieldOf, Form.fh.injEq]; omega
  | bad => exact h.elim

/-- An instruction whose form fits and is read back as the instruction: its halfwords decode to it, with none left. -/
theorem decode_encode (i : Instr) (f : Form) (he : encodeForm i = some f) (hf : f.fits) (hd : decForm f = .ok i) :
    decodeHalves (encode i) = (.ok i, []) := by
  have hw := formOf_word f hf
  have dw : decodeWord f.word = .ok i := by rw [decodeWord, hw, hd]
  unfold encode
  rw [he]
  by_cases hb : f.bits = 16
  · have lt : f.word < 65536 ∧ f.word % 2 = 0 := by
      cases f <;> simp [Form.bits] at hb <;> simp only [Form.fits] at hf <;> simp only [Form.word] <;> omega
    simp only [hb, if_true, decodeHalves, BitVec.toNat_ofNat]
    rw [show 2 ^ 16 = 65536 from rfl, Nat.mod_eq_of_lt lt.1, if_pos lt.2, dw]
  · have lt : f.word < 4294967296 ∧ f.word % 2 = 1 := by
      cases f <;> simp [Form.bits] at hb <;> simp only [Form.fits] at hf <;> simp only [Form.word] <;> omega
    simp only [hb, if_false, decodeHalves, BitVec.toNat_ofNat]
    rw [if_neg (by omega), show f.word % 2 ^ 16 + 65536 * (f.word / 65536 % 2 ^ 16) = f.word by omega, dw]

/-! ### Codes read back -/

@[simp] theorem kb_toNat (k : Bool) : kb k.toNat = k := by cases k <;> rfl
theorem Src.code_lt (a : Src) (h : a.wf = true) : a.code < 128 := by
  cases a <;> simp [Src.wf] at h <;> simp [Src.code] <;> omega
theorem Src.ofCode_code (a : Src) (h : a.wf = true) : Src.ofCode a.code = some a := by
  cases a with
  | v n => simp [Src.wf] at h; simp [Src.code, Src.ofCode, h]
  | b n => simp [Src.wf] at h; simp [Src.code, Src.ofCode]; omega
theorem Decoded.src_code (a : Src) (f : Src → Decoded) (h : a.wf = true) : Decoded.src a.code f = f a := by
  simp [Decoded.src, Src.ofCode_code a h]
theorem Src.code16_lt (a : Src) (h : a.wf16 = true) : a.code16 < 32 := by
  cases a <;> simp [Src.wf16] at h <;> simp [Src.code16] <;> omega
theorem Src.code16_ne (a : Src) (h : a.wf16 = true) : a.code16 ≠ 31 := by
  cases a <;> simp [Src.wf16] at h <;> simp [Src.code16] <;> omega
theorem Src.ofCode16_code (a : Src) (h : a.wf16 = true) : Src.ofCode16 a.code16 = some a := by
  cases a with
  | v n => simp [Src.wf16] at h; simp [Src.code16, Src.ofCode16, h]
  | b n => simp [Src.wf16] at h; simp [Src.code16, Src.ofCode16]; omega
theorem Decoded.val_code16 (a : Src) (f : Src → Decoded) (h : a.wf16 = true) : Decoded.val (Src.ofCode16 a.code16) f = f a := by
  simp [Decoded.val, Src.ofCode16_code a h]
@[simp] theorem Rm.ofCode_code (x : Rm) : Rm.ofCode x.code = some x := by cases x <;> rfl
@[simp] theorem ICond.ofCode_code (x : ICond) : ICond.ofCode x.code = some x := by cases x <;> rfl
@[simp] theorem FCond.ofCode_code (x : FCond) : FCond.ofCode x.code = some x := by cases x <;> rfl
@[simp] theorem Scope.ofCode_code (x : Scope) : Scope.ofCode x.code = some x := by cases x <;> rfl
@[simp] theorem Size.ofCode_code (x : Size) : Size.ofCode x.code = some x := by cases x <;> rfl
@[simp] theorem CvtTy.ofCode_code (x : CvtTy) : CvtTy.ofCode x.code = some x := by cases x <;> rfl
@[simp] theorem AtomOp.ofCode_code (x : AtomOp) : AtomOp.ofCode x.code = some x := by cases x <;> rfl
@[simp] theorem UMode.ofCode_code (x : UMode) : UMode.ofCode x.code = some x := by cases x <;> rfl
theorem Rm.code_lt (x : Rm) : x.code < 8 := by cases x <;> decide
theorem ICond.code_lt (x : ICond) : x.code < 16 := by cases x <;> decide
theorem FCond.code_lt (x : FCond) : x.code < 16 := by cases x <;> decide
theorem Scope.code_lt (x : Scope) : x.code < 8 := by cases x <;> decide
theorem Size.code_lt (x : Size) : x.code < 4 := by cases x <;> decide
theorem CvtTy.code_lt (x : CvtTy) : x.code < 16 := by cases x <;> decide
theorem AtomOp.code_lt (x : AtomOp) : x.code < 16 := by cases x <;> decide
theorem UMode.code_lt (x : UMode) : x.code < 4 := by cases x <;> decide
theorem toNat_lt (k : Bool) : k.toNat < 2 := by cases k <;> decide
@[simp] theorem LdOrd.ofBits_code (x : LdOrd) : LdOrd.ofBits x.ordBits x.scopeBits = some x := by
  cases x <;> simp [LdOrd.ofBits, LdOrd.ordBits, LdOrd.scopeBits]
theorem StOrd.ofBits_code (x : StOrd) (h : x.wf = true) : StOrd.ofBits x.ordBits x.scopeBits x.polBit = some x := by
  cases x with
  | relaxed n => cases n <;> rfl
  | rel sc n => cases n <;> simp [StOrd.ofBits, StOrd.ordBits, StOrd.scopeBits, StOrd.polBit]
  | rc n =>
    simp [StOrd.wf] at h
    simp only [StOrd.ofBits, StOrd.ordBits, StOrd.scopeBits, StOrd.polBit, Option.some.injEq, StOrd.rc.injEq]
    omega
theorem LdOrd.bits_lt (x : LdOrd) : x.scopeBits < 8 ∧ x.ordBits < 4 := by
  cases x <;> simp [LdOrd.scopeBits, LdOrd.ordBits]
  exact Scope.code_lt _
theorem StOrd.bits_lt (x : StOrd) (h : x.wf = true) : x.scopeBits < 8 ∧ x.ordBits < 4 ∧ x.polBit < 2 := by
  cases x with
  | relaxed n => cases n <;> decide
  | rel sc n => exact ⟨Scope.code_lt sc, by simp [StOrd.ordBits], toNat_lt n⟩
  | rc n => simp [StOrd.wf] at h; simp only [StOrd.scopeBits, StOrd.ordBits, StOrd.polBit]; omega

end Sys2Proof
end

