-- ==== Sys2Proof/Laws/Sparse.lean ====
section
/-! SUPPORT. The laws of sparse tables, lists and byte memory: reading after a write, and the canonical form. -/

namespace Sys2Proof.Machine

/-! ### Tables -/

@[simp] theorem mapGet_set_same {α : Type} (m : NMap α) (i : Nat) (x : α) : mapGet (mapSet m i x) i = some x := by
  induction m with
  | nil => simp [mapSet, mapGet]
  | cons e m ih =>
    obtain ⟨k, v⟩ := e
    simp only [mapSet]
    split
    · simp [mapGet]
    · split
      · simp [mapGet]
      · simp [mapGet, *]
theorem mapGet_set_other {α : Type} (m : NMap α) (i j : Nat) (x : α) (h : j ≠ i) : mapGet (mapSet m i x) j = mapGet m j := by
  induction m with
  | nil => simp [mapSet, mapGet, Ne.symm h]
  | cons e m ih =>
    obtain ⟨k, v⟩ := e
    simp only [mapSet]
    split
    · subst k; simp [mapGet, Ne.symm h]
    · split
      · simp [mapGet, Ne.symm h]
      · simp [mapGet, ih]
theorem mapGet_set {α : Type} (m : NMap α) (i j : Nat) (x : α) :
    mapGet (mapSet m i x) j = if j = i then some x else mapGet m j := by
  split
  · subst j; simp
  · exact mapGet_set_other m i j x ‹_›
theorem mapGetD_set {α : Type} (m : NMap α) (i j : Nat) (x d : α) :
    mapGetD (mapSet m i x) j d = if j = i then x else mapGetD m j d := by
  simp only [mapGetD, mapGet_set]; split <;> rfl
@[simp] theorem mapGetD_set_same {α : Type} (m : NMap α) (i : Nat) (x d : α) : mapGetD (mapSet m i x) i d = x := by
  simp [mapGetD]
theorem mapGetD_set_other {α : Type} (m : NMap α) (i j : Nat) (x d : α) (h : j ≠ i) :
    mapGetD (mapSet m i x) j d = mapGetD m j d := by simp [mapGetD_set, h]
theorem mapGet_mod {α : Type} (m : NMap α) (i j : Nat) (f : α → α) :
    mapGet (mapMod m i f) j = if j = i then (mapGet m j).map f else mapGet m j := by
  induction m with
  | nil => simp [mapMod, mapGet]
  | cons e m ih =>
    obtain ⟨k, v⟩ := e
    by_cases h : k = i <;> by_cases g : k = j <;> simp_all [mapMod, mapGet]
    grind
@[simp] theorem mapGet_mod_same {α : Type} (m : NMap α) (i : Nat) (f : α → α) :
    mapGet (mapMod m i f) i = (mapGet m i).map f := by simp [mapGet_mod]
theorem mapGet_mod_other {α : Type} (m : NMap α) (i j : Nat) (f : α → α) (h : j ≠ i) :
    mapGet (mapMod m i f) j = mapGet m j := by simp [mapGet_mod, h]
theorem mapMod_mod {α : Type} (m : NMap α) (i : Nat) (f g : α → α) :
    mapMod (mapMod m i f) i g = mapMod m i fun x => g (f x) := by
  induction m with
  | nil => rfl
  | cons e m ih => by_cases h : e.1 = i <;> simp_all [mapMod]
/-- What a table is changed to at `i` depends on the entry there alone. -/
theorem mapMod_const {α : Type} (m : NMap α) (i : Nat) (f : α → α) (x : α) (h : mapGet m i = some x) :
    mapMod m i f = mapMod m i fun _ => f x := by
  induction m with
  | nil => simp [mapGet] at h
  | cons e m ih =>
    obtain ⟨k, v⟩ := e
    by_cases g : k = i <;> simp_all [mapMod, mapGet]
theorem mapGet_setAll {α : Type} (is : List Nat) (f : Nat → α) (m : NMap α) (j : Nat) :
    mapGet (mapSetAll m is f) j = if j ∈ is then some (f j) else mapGet m j := by
  unfold mapSetAll
  induction is generalizing m with
  | nil => simp
  | cons i is ih =>
    rw [List.foldl_cons, ih]
    by_cases h : j ∈ is
    · simp [h]
    · by_cases g : j = i
      · subst g; simp
      · simp [h, g, mapGet_set_other _ _ _ _ g]
theorem mapGetD_setAll {α : Type} (is : List Nat) (f : Nat → α) (m : NMap α) (j : Nat) (d : α) :
    mapGetD (mapSetAll m is f) j d = if j ∈ is then f j else mapGetD m j d := by
  induction is generalizing m with
  | nil => simp [mapSetAll]
  | cons i is ih =>
    rw [show mapSetAll m (i :: is) f = mapSetAll (mapSet m i (f i)) is f from rfl, ih]
    by_cases h : j ∈ is <;> simp [h, mapGetD_set]
    grind

/-! ### Lists -/

theorem listMod_get {α : Type} (l : List α) (i j : Nat) (f : α → α) :
    (listMod l i f)[j]? = if j = i then l[j]?.map f else l[j]? := by
  induction l generalizing i j with
  | nil => simp [listMod]
  | cons x l ih =>
    cases i <;> cases j <;> simp [listMod, ih]
@[simp] theorem listMod_length {α : Type} (l : List α) (i : Nat) (f : α → α) : (listMod l i f).length = l.length := by
  induction l generalizing i with
  | nil => rfl
  | cons x l ih => cases i <;> simp [listMod, ih]
theorem listMod_mod {α : Type} (l : List α) (i : Nat) (f g : α → α) :
    listMod (listMod l i f) i g = listMod l i fun x => g (f x) := by
  induction l generalizing i with
  | nil => rfl
  | cons x l ih => cases i <;> simp [listMod, ih]
theorem listMod_const {α : Type} (l : List α) (i : Nat) (f : α → α) (x : α) (h : l[i]? = some x) :
    listMod l i f = listMod l i fun _ => f x := by
  induction l generalizing i with
  | nil => simp at h
  | cons y l ih => cases i <;> simp_all [listMod]
theorem firstSome_none {α : Type} (l : List (Option α)) (h : ∀ x ∈ l, x = none) : firstSome l = none := by
  induction l with
  | nil => rfl
  | cons x l ih => cases x <;> simp_all [firstSome]

/-! ### Lanes -/

theorem mem_lanesOf (m : Lanes) (l : Nat) : l ∈ lanesOf m ↔ m.getLsbD l = true := by
  simp only [lanesOf, List.mem_filter, List.mem_range]
  constructor
  · exact And.right
  · intro h; exact ⟨BitVec.lt_of_getLsbD h, h⟩
theorem lanesOf_nodup (m : Lanes) : (lanesOf m).Nodup := List.Nodup.filter _ List.nodup_range
theorem foldl_laneSet (f : Nat → Bool) (n : Nat) (m : Lanes) (l : Nat) (h : l < 16) :
    ((List.range n).foldl (fun m l => if f l then m ||| (1#16 <<< l) else m) m).getLsbD l
      = (m.getLsbD l || (decide (l < n) && f l)) := by
  induction n with
  | zero => simp
  | succ n ih =>
    rw [List.range_succ, List.foldl_append]
    simp only [List.foldl_cons, List.foldl_nil]
    by_cases e : l = n
    · subst e
      by_cases g : f l = true
      · simp [g, h]
      · simp [g, ih]
    · by_cases g : f n = true
      · have : (decide (l < n + 1)) = decide (l < n) := by simp; omega
        simp only [g, if_true, BitVec.getLsbD_or, ih, this]
        have : (1#16 <<< n).getLsbD l = false := by
          simp [BitVec.getLsbD_shiftLeft, BitVec.getLsbD_one]; omega
        simp [this]
      · have : (decide (l < n + 1)) = decide (l < n) := by simp; omega
        simp only [g, ih, this, Bool.false_eq_true, if_false]
theorem laneSet_get (f : Nat → Bool) (l : Nat) (h : l < 16) : (laneSet f).getLsbD l = f l := by
  rw [laneSet, foldl_laneSet f 16 0#16 l h]; simp [h]

/-! ### Byte memory -/

theorem byteGet_below (lo : Nat) (m : List Host.Cell) (a : Nat) (h : cellsFrom lo m = true) (g : a < lo) :
    byteGet m a = emptyByte := by
  induction m generalizing lo with
  | nil => rfl
  | cons e m ih =>
    obtain ⟨k, v⟩ := e
    simp only [cellsFrom, Bool.and_eq_true, decide_eq_true_eq] at h
    have : k ≠ a := by omega
    simp only [byteGet, this, if_false]
    exact ih (k + 1) h.2 (by omega)
theorem byteGet_set_from (lo : Nat) (m : List Host.Cell) (a b : Nat) (x : Byte) (h : cellsFrom lo m = true) :
    byteGet (byteSet m a x) b = if b = a then x else byteGet m b := by
  induction m generalizing lo with
  | nil =>
    by_cases g : x = emptyByte <;> simp [byteSet, byteGet, g]
    grind
  | cons e m ih =>
    obtain ⟨k, v⟩ := e
    have w := h
    simp only [cellsFrom, Bool.and_eq_true, decide_eq_true_eq] at w
    have low : ∀ c, c ≤ k → byteGet m c = emptyByte := fun c hc => byteGet_below (k + 1) m c w.2 (by omega)
    have := ih (k + 1) w.2
    simp only [byteSet]
    split
    · split <;> simp only [byteGet] <;> grind
    · split
      · split <;> simp only [byteGet] <;> grind
      · simp only [byteGet]; grind
/-- A read after a write: the byte written, and every other byte as before. -/
theorem byteGet_set (m : List Host.Cell) (a b : Nat) (x : Byte) (h : Memory.wf m = true) :
    byteGet (byteSet m a x) b = if b = a then x else byteGet m b := byteGet_set_from 0 m a b x h
theorem cellsFrom_mono (lo hi : Nat) (m : List Host.Cell) (h : cellsFrom hi m = true) (g : lo ≤ hi) : cellsFrom lo m = true := by
  cases m with
  | nil => rfl
  | cons e m =>
    simp only [cellsFrom, Bool.and_eq_true, decide_eq_true_eq] at h ⊢
    exact ⟨⟨by omega, h.1.2⟩, h.2⟩
theorem cellsFrom_set (lo : Nat) (m : List Host.Cell) (a : Nat) (x : Byte) (h : cellsFrom lo m = true) :
    cellsFrom (min lo a) (byteSet m a x) = true := by
  induction m generalizing lo with
  | nil => by_cases g : x = emptyByte <;> simp [byteSet, cellsFrom, g]
  | cons e m ih =>
    obtain ⟨k, v⟩ := e
    have w := h
    simp only [cellsFrom, Bool.and_eq_true, decide_eq_true_eq] at w
    have i := ih (k + 1) w.2
    simp only [byteSet]
    split
    · split
      · exact cellsFrom_mono _ _ _ w.2 (by omega)
      · subst k
        simp only [cellsFrom, Bool.and_eq_true, decide_eq_true_eq]
        exact ⟨⟨by omega, ‹_›⟩, w.2⟩
    · split
      · split
        · exact cellsFrom_mono _ _ _ h (by omega)
        · simp only [cellsFrom, Bool.and_eq_true, decide_eq_true_eq]
          exact ⟨⟨by omega, ‹_›⟩, ⟨by omega, w.1.2⟩, w.2⟩
      · simp only [cellsFrom, Bool.and_eq_true, decide_eq_true_eq]
        exact ⟨⟨by omega, w.1.2⟩, cellsFrom_mono _ _ _ i (by omega)⟩
/-- A write of a byte keeps the canonical form. -/
theorem wf_byteSet (m : List Host.Cell) (a : Nat) (x : Byte) (h : Memory.wf m = true) : Memory.wf (byteSet m a x) = true := by
  have := cellsFrom_set 0 m a x h
  simpa [Memory.wf] using this
/-- A write of a byte string keeps the canonical form. -/
theorem wf_byteSets (l : List Byte) (m : List Host.Cell) (a : Nat) (h : Memory.wf m = true) : Memory.wf (byteSets m a l) = true := by
  induction l generalizing m a with
  | nil => exact h
  | cons b l ih => exact ih _ _ (wf_byteSet m a b h)
theorem byteGet_sets (l : List Byte) (m : List Host.Cell) (a b : Nat) (h : Memory.wf m = true) :
    byteGet (byteSets m a l) b = if a ≤ b ∧ b < a + l.length then l.getD (b - a) 0 else byteGet m b := by
  induction l generalizing m a with
  | nil => simp [byteSets]
  | cons x l ih =>
    rw [byteSets, ih _ _ (wf_byteSet m a x h), byteGet_set m a b x h]
    by_cases e : b = a
    · subst e; simp
    · by_cases g : a + 1 ≤ b
      · have : b - a = (b - (a + 1)) + 1 := by omega
        simp only [List.length_cons, e, if_false, this, List.getD_cons_succ]
        congr 1
        simp only [eq_iff_iff]; omega
      · simp only [List.length_cons, e, if_false]
        rw [if_neg (by omega), if_neg (by omega)]
/-- Equal memories are equal data: in the canonical form the bytes that are read determine the list. -/
theorem cells_ext (lo : Nat) (m n : List Host.Cell) (hm : cellsFrom lo m = true) (hn : cellsFrom lo n = true)
    (h : ∀ a, byteGet m a = byteGet n a) : m = n := by
  induction m generalizing lo n with
  | nil =>
    cases n with
    | nil => rfl
    | cons e n =>
      obtain ⟨k, v⟩ := e
      simp only [cellsFrom, Bool.and_eq_true, decide_eq_true_eq] at hn
      have := h k; simp [byteGet] at this; exact absurd this.symm hn.1.2
  | cons e m ih =>
    obtain ⟨k, v⟩ := e
    simp only [cellsFrom, Bool.and_eq_true, decide_eq_true_eq] at hm
    cases n with
    | nil => have := h k; simp [byteGet] at this; exact absurd this hm.1.2
    | cons g n =>
      obtain ⟨j, w⟩ := g
      simp only [cellsFrom, Bool.and_eq_true, decide_eq_true_eq] at hn
      have hk : k = j := by
        rcases Nat.lt_trichotomy k j with q | q | q
        · have a := h k
          simp only [byteGet, if_true] at a
          rw [if_neg (by omega), byteGet_below (j + 1) n k hn.2 (by omega)] at a
          exact absurd a hm.1.2
        · exact q
        · have a := h j
          simp only [byteGet, if_true] at a
          rw [if_neg (by omega), byteGet_below (k + 1) m j hm.2 (by omega)] at a
          exact absurd a.symm hn.1.2
      subst hk
      have hv : v = w := by have a := h k; simpa [byteGet] using a
      subst hv
      refine congrArg _ (ih (k + 1) n hm.2 hn.2 fun a => ?_)
      by_cases q : k = a
      · subst q; rw [byteGet_below (k + 1) m k hm.2 (by omega), byteGet_below (k + 1) n k hn.2 (by omega)]
      · have b := h a; simpa [byteGet, q] using b

end Sys2Proof.Machine
end

