-- ==== Sys2Proof/Laws/State.lean ====
section
/-! SUPPORT. Reading the parts of a state after they have been changed: one lemma per part and update. -/

namespace Sys2Proof.Machine
namespace State

/-! ### Free values -/

@[simp] theorem takeFree_mem (s : State) (n : Nat) : (s.takeFree n).mem = s.mem := rfl
@[simp] theorem takeFree_blocks (s : State) (n : Nat) : (s.takeFree n).blocks = s.blocks := rfl
@[simp] theorem takeFree_cores (s : State) (n : Nat) : (s.takeFree n).cores = s.cores := rfl
@[simp] theorem takeFree_time (s : State) (n : Nat) : (s.takeFree n).time = s.time := rfl
@[simp] theorem takeFree_cur (s : State) (n : Nat) : (s.takeFree n).cur = s.cur := rfl
@[simp] theorem takeFree_agenda (s : State) (n : Nat) : (s.takeFree n).agenda = s.agenda := rfl
@[simp] theorem takeFree_blk (s : State) (n b : Nat) : (s.takeFree n).blk? b = s.blk? b := rfl
@[simp] theorem takeFree_sk (s : State) (n b i : Nat) : (s.takeFree n).sk? b i = s.sk? b i := rfl
@[simp] theorem takeFree_core (s : State) (n g : Nat) : (s.takeFree n).core g = s.core g := rfl
theorem takeFree_modSk (s : State) (n b i : Nat) (f : Skein → Skein) : (s.takeFree n).modSk b i f = (s.modSk b i f).takeFree n := rfl
theorem takeFree_modBlk (s : State) (n b : Nat) (f : Block → Block) : (s.takeFree n).modBlk b f = (s.modBlk b f).takeFree n := rfl
@[simp] theorem takeFree_zero (s : State) : s.takeFree 0 = s := rfl
theorem takeFree_takeFree (s : State) (n m : Nat) : (s.takeFree n).takeFree m = s.takeFree (n + m) := by
  simp [takeFree, Nat.add_assoc]

/-! ### Blocks -/

@[simp] theorem modBlk_mem (s : State) (b : Nat) (f : Block → Block) : (s.modBlk b f).mem = s.mem := rfl
@[simp] theorem modBlk_cores (s : State) (b : Nat) (f : Block → Block) : (s.modBlk b f).cores = s.cores := rfl
@[simp] theorem modBlk_time (s : State) (b : Nat) (f : Block → Block) : (s.modBlk b f).time = s.time := rfl
@[simp] theorem modBlk_cur (s : State) (b : Nat) (f : Block → Block) : (s.modBlk b f).cur = s.cur := rfl
@[simp] theorem modBlk_core (s : State) (b g : Nat) (f : Block → Block) : (s.modBlk b f).core g = s.core g := rfl
@[simp] theorem modBlk_launch (s : State) (b l : Nat) (f : Block → Block) : (s.modBlk b f).launch? l = s.launch? l := rfl
@[simp] theorem modBlk_ctx (s : State) (b c : Nat) (f : Block → Block) : (s.modBlk b f).ctx? c = s.ctx? c := rfl
@[simp] theorem modBlk_blk (s : State) (b : Nat) (f : Block → Block) : (s.modBlk b f).blk? b = (s.blk? b).map f := by
  simp [modBlk, blk?]
theorem modBlk_blk_other (s : State) (b c : Nat) (f : Block → Block) (h : c ≠ b) : (s.modBlk b f).blk? c = s.blk? c := by
  simp [modBlk, blk?, mapGet_mod_other _ _ _ _ h]
theorem modBlk_modBlk (s : State) (b : Nat) (f g : Block → Block) :
    (s.modBlk b f).modBlk b g = s.modBlk b fun x => g (f x) := by simp [modBlk, mapMod_mod]
theorem modBlk_const (s : State) (b : Nat) (f : Block → Block) (x : Block) (h : s.blk? b = some x) :
    s.modBlk b f = s.modBlk b fun _ => f x := by simp only [modBlk, mapMod_const _ _ _ _ h]

/-! ### Skeins -/

@[simp] theorem modSk_mem (s : State) (b i : Nat) (f : Skein → Skein) : (s.modSk b i f).mem = s.mem := rfl
@[simp] theorem modSk_cores (s : State) (b i : Nat) (f : Skein → Skein) : (s.modSk b i f).cores = s.cores := rfl
@[simp] theorem modSk_time (s : State) (b i : Nat) (f : Skein → Skein) : (s.modSk b i f).time = s.time := rfl
@[simp] theorem modSk_cur (s : State) (b i : Nat) (f : Skein → Skein) : (s.modSk b i f).cur = s.cur := rfl
@[simp] theorem modSk_fresh (s : State) (b i : Nat) (f : Skein → Skein) : (s.modSk b i f).fresh = s.fresh := rfl
@[simp] theorem modSk_core (s : State) (b i g : Nat) (f : Skein → Skein) : (s.modSk b i f).core g = s.core g := rfl
@[simp] theorem modSk_launch (s : State) (b i l : Nat) (f : Skein → Skein) : (s.modSk b i f).launch? l = s.launch? l := rfl
@[simp] theorem modSk_ctx (s : State) (b i c : Nat) (f : Skein → Skein) : (s.modSk b i f).ctx? c = s.ctx? c := rfl
@[simp] theorem modSk_sk (s : State) (b i : Nat) (f : Skein → Skein) : (s.modSk b i f).sk? b i = (s.sk? b i).map f := by
  simp only [modSk, sk?, modBlk_blk]
  cases s.blk? b with
  | none => rfl
  | some x => simp [listMod_get]
theorem modSk_sk_other (s : State) (b i c j : Nat) (f : Skein → Skein) (h : c ≠ b ∨ j ≠ i) :
    (s.modSk b i f).sk? c j = s.sk? c j := by
  by_cases g : c = b
  · subst g
    have h : j ≠ i := by tauto
    simp only [modSk, sk?, modBlk_blk]
    cases s.blk? c with
    | none => rfl
    | some x => simp [listMod_get, h]
  · simp [modSk, sk?, modBlk_blk_other _ _ _ _ g]
theorem modSk_modSk (s : State) (b i : Nat) (f g : Skein → Skein) :
    (s.modSk b i f).modSk b i g = s.modSk b i fun x => g (f x) := by
  simp [modSk, modBlk_modBlk, listMod_mod]
/-- What a skein is changed to depends on that skein alone. -/
theorem modSk_const (s : State) (b i : Nat) (f : Skein → Skein) (k : Skein) (h : s.sk? b i = some k) :
    s.modSk b i f = s.modSk b i fun _ => f k := by
  cases e : s.blk? b with
  | none => simp [sk?, e] at h
  | some x =>
    have g : x.skeins[i]? = some k := by simpa [sk?, e] using h
    simp only [modSk]
    rw [modBlk_const s b _ x e, modBlk_const s b (fun x => { x with skeins := listMod x.skeins i fun _ => f k }) x e,
      listMod_const x.skeins i f k g]
theorem modArm_eq (s : State) (b i a : Nat) (f : Arm → Arm) : s.modArm b i a f = s.modSk b i fun k => k.modArm a f := rfl

/-! ### Cores, dies, channels, host dies, ports and trays -/

@[simp] theorem modCore_mem (s : State) (i : Nat) (f : Core → Core) : (s.modCore i f).mem = s.mem := rfl
@[simp] theorem modCore_blk (s : State) (i b : Nat) (f : Core → Core) : (s.modCore i f).blk? b = s.blk? b := rfl
@[simp] theorem modCore_time (s : State) (i : Nat) (f : Core → Core) : (s.modCore i f).time = s.time := rfl
@[simp] theorem modCore_host (s : State) (i g : Nat) (f : Core → Core) : (s.modCore i f).host g = s.host g := rfl
@[simp] theorem modCore_core (s : State) (i : Nat) (f : Core → Core) : (s.modCore i f).core i = f (s.core i) := by simp [modCore, core]
theorem modCore_core_other (s : State) (i g : Nat) (f : Core → Core) (h : g ≠ i) : (s.modCore i f).core g = s.core g := by
  simp [modCore, core, mapGetD_set_other _ _ _ _ _ h]
@[simp] theorem modDie_mem (s : State) (i : Nat) (f : Die → Die) : (s.modDie i f).mem = s.mem := rfl
@[simp] theorem modDie_blk (s : State) (i b : Nat) (f : Die → Die) : (s.modDie i f).blk? b = s.blk? b := rfl
@[simp] theorem modDie_time (s : State) (i : Nat) (f : Die → Die) : (s.modDie i f).time = s.time := rfl
@[simp] theorem modDie_core (s : State) (i g : Nat) (f : Die → Die) : (s.modDie i f).core g = s.core g := rfl
@[simp] theorem modDie_host (s : State) (i g : Nat) (f : Die → Die) : (s.modDie i f).host g = s.host g := rfl
@[simp] theorem modDie_die (s : State) (i : Nat) (f : Die → Die) : (s.modDie i f).die i = f (s.die i) := by simp [modDie, die]
theorem modDie_die_other (s : State) (i g : Nat) (f : Die → Die) (h : g ≠ i) : (s.modDie i f).die g = s.die g := by
  simp [modDie, die, mapGetD_set_other _ _ _ _ _ h]
@[simp] theorem modChan_mem (s : State) (i : Nat) (f : Chan → Chan) : (s.modChan i f).mem = s.mem := rfl
@[simp] theorem modChan_blk (s : State) (i b : Nat) (f : Chan → Chan) : (s.modChan i f).blk? b = s.blk? b := rfl
@[simp] theorem modChan_time (s : State) (i : Nat) (f : Chan → Chan) : (s.modChan i f).time = s.time := rfl
@[simp] theorem modChan_core (s : State) (i g : Nat) (f : Chan → Chan) : (s.modChan i f).core g = s.core g := rfl
@[simp] theorem modChan_host (s : State) (i g : Nat) (f : Chan → Chan) : (s.modChan i f).host g = s.host g := rfl
@[simp] theorem modChan_chan (s : State) (i : Nat) (f : Chan → Chan) : (s.modChan i f).chan i = f (s.chan i) := by simp [modChan, chan]
theorem modChan_chan_other (s : State) (i g : Nat) (f : Chan → Chan) (h : g ≠ i) : (s.modChan i f).chan g = s.chan g := by
  simp [modChan, chan, mapGetD_set_other _ _ _ _ _ h]
@[simp] theorem modHost_mem (s : State) (i : Nat) (f : HostDie → HostDie) : (s.modHost i f).mem = s.mem := rfl
@[simp] theorem modHost_blk (s : State) (i b : Nat) (f : HostDie → HostDie) : (s.modHost i f).blk? b = s.blk? b := rfl
@[simp] theorem modHost_time (s : State) (i : Nat) (f : HostDie → HostDie) : (s.modHost i f).time = s.time := rfl
@[simp] theorem modHost_core (s : State) (i g : Nat) (f : HostDie → HostDie) : (s.modHost i f).core g = s.core g := rfl
@[simp] theorem modHost_host (s : State) (i : Nat) (f : HostDie → HostDie) : (s.modHost i f).host i = f (s.host i) := by simp [modHost, host]
theorem modHost_host_other (s : State) (i g : Nat) (f : HostDie → HostDie) (h : g ≠ i) : (s.modHost i f).host g = s.host g := by
  simp [modHost, host, mapGetD_set_other _ _ _ _ _ h]
@[simp] theorem modPort_mem (s : State) (i : Nat) (f : Port → Port) : (s.modPort i f).mem = s.mem := rfl
@[simp] theorem modPort_blk (s : State) (i b : Nat) (f : Port → Port) : (s.modPort i f).blk? b = s.blk? b := rfl
@[simp] theorem modPort_time (s : State) (i : Nat) (f : Port → Port) : (s.modPort i f).time = s.time := rfl
@[simp] theorem modPort_core (s : State) (i g : Nat) (f : Port → Port) : (s.modPort i f).core g = s.core g := rfl
@[simp] theorem modPort_host (s : State) (i g : Nat) (f : Port → Port) : (s.modPort i f).host g = s.host g := rfl
@[simp] theorem modPort_port (s : State) (i : Nat) (f : Port → Port) : (s.modPort i f).port i = f (s.port i) := by simp [modPort, port]
theorem modPort_port_other (s : State) (i g : Nat) (f : Port → Port) (h : g ≠ i) : (s.modPort i f).port g = s.port g := by
  simp [modPort, port, mapGetD_set_other _ _ _ _ _ h]
@[simp] theorem modTray_mem (s : State) (i : Nat) (f : Tray → Tray) : (s.modTray i f).mem = s.mem := rfl
@[simp] theorem modTray_blk (s : State) (i b : Nat) (f : Tray → Tray) : (s.modTray i f).blk? b = s.blk? b := rfl
@[simp] theorem modTray_time (s : State) (i : Nat) (f : Tray → Tray) : (s.modTray i f).time = s.time := rfl
@[simp] theorem modTray_core (s : State) (i g : Nat) (f : Tray → Tray) : (s.modTray i f).core g = s.core g := rfl
@[simp] theorem modTray_host (s : State) (i g : Nat) (f : Tray → Tray) : (s.modTray i f).host g = s.host g := rfl
@[simp] theorem modTray_tray (s : State) (i : Nat) (f : Tray → Tray) : (s.modTray i f).tray i = f (s.tray i) := by simp [modTray, tray]
theorem modTray_tray_other (s : State) (i g : Nat) (f : Tray → Tray) (h : g ≠ i) : (s.modTray i f).tray g = s.tray g := by
  simp [modTray, tray, mapGetD_set_other _ _ _ _ _ h]

/-! ### Marks of stores (R210) -/

@[simp] theorem modMarks_mem (s : State) (p : Pass) (f : Marks → Marks) : (s.modMarks p f).mem = s.mem := by unfold modMarks; split <;> rfl
@[simp] theorem modMarks_cores (s : State) (p : Pass) (f : Marks → Marks) : (s.modMarks p f).cores = s.cores := by unfold modMarks; split <;> rfl
@[simp] theorem modMarks_dies (s : State) (p : Pass) (f : Marks → Marks) : (s.modMarks p f).dies = s.dies := by unfold modMarks; split <;> rfl
@[simp] theorem modMarks_chans (s : State) (p : Pass) (f : Marks → Marks) : (s.modMarks p f).chans = s.chans := by unfold modMarks; split <;> rfl
@[simp] theorem modMarks_ctxs (s : State) (p : Pass) (f : Marks → Marks) : (s.modMarks p f).ctxs = s.ctxs := by unfold modMarks; split <;> rfl
@[simp] theorem modMarks_launches (s : State) (p : Pass) (f : Marks → Marks) : (s.modMarks p f).launches = s.launches := by unfold modMarks; split <;> rfl
@[simp] theorem modMarks_time (s : State) (p : Pass) (f : Marks → Marks) : (s.modMarks p f).time = s.time := by unfold modMarks; split <;> rfl
@[simp] theorem modMarks_cur (s : State) (p : Pass) (f : Marks → Marks) : (s.modMarks p f).cur = s.cur := by unfold modMarks; split <;> rfl
@[simp] theorem modMarks_agenda (s : State) (p : Pass) (f : Marks → Marks) : (s.modMarks p f).agenda = s.agenda := by unfold modMarks; split <;> rfl
@[simp] theorem modMarks_hosts (s : State) (p : Pass) (f : Marks → Marks) : (s.modMarks p f).hosts = s.hosts := by unfold modMarks; split <;> rfl
@[simp] theorem modMarks_ctx (s : State) (p : Pass) (f : Marks → Marks) (c : Nat) : (s.modMarks p f).ctx? c = s.ctx? c := by unfold modMarks; split <;> rfl
@[simp] theorem modMarks_stores (s : State) (p : Pass) (f : Marks → Marks) (c : Nat) : (s.modMarks p f).storesOf c = s.storesOf c := by simp [storesOf]
@[simp] theorem noteAcquire_mem (s : State) (p : Pass) : (s.noteAcquire p).mem = s.mem := modMarks_mem s p _
@[simp] theorem noteAcquire_cores (s : State) (p : Pass) : (s.noteAcquire p).cores = s.cores := modMarks_cores s p _
@[simp] theorem noteAcquire_time (s : State) (p : Pass) : (s.noteAcquire p).time = s.time := modMarks_time s p _
@[simp] theorem noteAcquire_cur (s : State) (p : Pass) : (s.noteAcquire p).cur = s.cur := modMarks_cur s p _
@[simp] theorem noteFence_mem (s : State) (p : Pass) : (s.noteFence p).mem = s.mem := modMarks_mem s p _
@[simp] theorem noteFence_cores (s : State) (p : Pass) : (s.noteFence p).cores = s.cores := modMarks_cores s p _
@[simp] theorem noteFence_time (s : State) (p : Pass) : (s.noteFence p).time = s.time := modMarks_time s p _
@[simp] theorem noteFence_cur (s : State) (p : Pass) : (s.noteFence p).cur = s.cur := modMarks_cur s p _
/-- An acquire moves its issuer's mark to the stores so far, and nothing else of the issuer. -/
theorem noteAcquire_arm (s : State) (p : Pass) (h : p.coach = false) :
    s.noteAcquire p = s.modArm p.bid p.ix p.ai fun a => { a with marks := { a.marks with acq := s.storesOf p.ctx } } := by
  simp [noteAcquire, modMarks, h]
/-- A switch point changes the issuer's skein alone. -/
@[simp] theorem switchPoint_mem (s : State) (p : Pass) : (s.switchPoint p).mem = s.mem := by unfold switchPoint; split <;> rfl
@[simp] theorem switchPoint_cores (s : State) (p : Pass) : (s.switchPoint p).cores = s.cores := by unfold switchPoint; split <;> rfl
@[simp] theorem switchPoint_time (s : State) (p : Pass) : (s.switchPoint p).time = s.time := by unfold switchPoint; split <;> rfl
@[simp] theorem switchPoint_cur (s : State) (p : Pass) : (s.switchPoint p).cur = s.cur := by unfold switchPoint; split <;> rfl
@[simp] theorem switchPoint_ctxs (s : State) (p : Pass) : (s.switchPoint p).ctxs = s.ctxs := by unfold switchPoint; split <;> rfl

end State

/-! ### A skein's parts -/

namespace Skein

@[simp] theorem setV_idx (k : Skein) (i l : Nat) (w : W32) : (k.setV i l w).idx = k.idx := rfl
@[simp] theorem setV_win (k : Skein) (i l : Nat) (w : W32) : (k.setV i l w).win = k.win := rfl
@[simp] theorem setV_frame (k : Skein) (i l : Nat) (w : W32) : (k.setV i l w).frame = k.frame := rfl
@[simp] theorem setV_arms (k : Skein) (i l : Nat) (w : W32) : (k.setV i l w).arms = k.arms := rfl
@[simp] theorem setV_vbase (k : Skein) (i l : Nat) (w : W32) : (k.setV i l w).vbase = k.vbase := rfl
/-- A register write changes the lane registers alone. -/
theorem setV_eq (k : Skein) (i l : Nat) (w : W32) :
    k.setV i l w = { k with r := { k.r with lanes := mapSet k.r.lanes ((k.vbase + i) % k.win.allot * 16 + l) w } } := rfl
/-- Lane registers replaced, all else kept. -/
def withLanes (k : Skein) (m : NMap W32) : Skein := { k with r := { k.r with lanes := m } }
theorem setVs_eq (k : Skein) (i : Nat) (ls : List Nat) (f : Nat → W32) :
    k.setVs i ls f = k.withLanes (ls.foldl (fun m l => mapSet m ((k.vbase + i) % k.win.allot * 16 + l) (f l)) k.r.lanes) := by
  unfold setVs
  induction ls generalizing k with
  | nil => rfl
  | cons l ls ih => rw [List.foldl_cons, ih]; rfl
theorem setPairs_eq (k : Skein) (i : Nat) (ls : List Nat) (f : Nat → W64) :
    k.setPairs i ls f = k.withLanes (ls.foldl (fun m l =>
      mapSet (mapSet m ((k.vbase + i) % k.win.allot * 16 + l) ((f l).setWidth 32))
        ((k.vbase + (i + 1)) % k.win.allot * 16 + l) ((f l).extractLsb' 32 32)) k.r.lanes) := by
  unfold setPairs
  induction ls generalizing k with
  | nil => rfl
  | cons l ls ih => rw [List.foldl_cons, ih]; rfl
theorem arm_of (k : Skein) (a : Nat) (x : Arm) (h : k.arms[a]? = some x) : k.arm a = x := by simp [arm, h]
theorem modArm_get (k : Skein) (a b : Nat) (f : Arm → Arm) :
    (k.modArm a f).arms[b]? = if b = a then k.arms[b]?.map f else k.arms[b]? := listMod_get _ _ _ _

end Skein
end Sys2Proof.Machine
end

