-- ==== Sys2Proof/Laws/Pass.lean ====
section
/-! SUPPORT. What the shared operations of a pass do, once for all instructions that use them: the end of a pass, a lane result, a
pair, a mask, a uniform register. -/

namespace Sys2Proof.Machine

/-! ### The pass in progress -/

/-- The parts of a skein's pass: its skein, its arm, the issue being served. -/
theorem LanePass.parts {s : State} {p : Pass} (h : LanePass s p) :
    s.sk? p.bid p.ix = some p.sk ∧ p.sk.arms[p.ai]? = some p.arm ∧
      ∃ u, p.arm.issue = some u ∧ u.fails = [] ∧ p.off = u.off ∧ p.len = u.len ∧ p.last = decide (u.rest.length ≤ 1) ∧ u.rest ≠ [] := by
  obtain ⟨hp, hc, hf⟩ := h
  unfold State.pass? at hp
  cases e : s.cur with
  | none => simp [e] at hp
  | some w =>
    cases w with
    | coach b =>
      simp only [e, Option.bind_eq_bind, Option.bind_eq_some_iff] at hp
      obtain ⟨x, -, c, -, hp⟩ := hp
      cases hp
      simp at hc
    | skein b i a =>
      simp only [e, Option.bind_eq_bind, Option.bind_eq_some_iff] at hp
      obtain ⟨x, hx, k, hk, r, hr, u, hu, q, hq, hp⟩ := hp
      cases hp
      refine ⟨by simp [State.sk?, hx, hk], hr, u, hu, by simpa [hu] using hf, rfl, rfl, rfl, ?_⟩
      intro g; simp [g] at hq

/-- The arm that a pass leaves, given the issue it served. -/
theorem Arm.endPass_last (a : Arm) (u : Issue) (h : a.issue = some u) (g : u.rest.length ≤ 1) :
    a.endPass = { a with issue := none, path := a.path.map fun x => { x with off := u.off + u.len } } := by
  unfold Arm.endPass
  rw [h]
  rcases e : u.rest with _ | ⟨x, _ | ⟨y, r⟩⟩ <;> simp_all
theorem Arm.endPass_more (a : Arm) (u : Issue) (h : a.issue = some u) (g : ¬ u.rest.length ≤ 1) :
    a.endPass = { a with issue := some { u with rest := u.rest.drop 1 } } := by
  unfold Arm.endPass
  rw [h]
  rcases e : u.rest with _ | ⟨x, _ | ⟨y, r⟩⟩ <;> simp_all

/-- The end of a pass in which no lane failed: the skein alone changes. -/
theorem State.endPass_skein (s : State) (p : Pass) (k : Skein) (u : Issue) (hc : p.coach = false) (hs : s.sk? p.bid p.ix = some k)
    (hu : (k.arm p.ai).issue = some u) (hf : u.fails = []) :
    s.endPass p = s.modSk p.bid p.ix fun _ => k.endPass p.ai s.mem.writes := by
  rw [← State.modSk_const s p.bid p.ix (fun k => k.endPass p.ai s.mem.writes) k hs]
  unfold State.endPass
  simp only [hc, Bool.false_eq_true, if_false, hs, Option.getD_some, hu]
  split
  · rfl
  · simp [hf, lowestFail, leastBy]

theorem planes_fold (q : NMap Nat) (ls : List Nat) (m : NMap Nat) (l : Nat) :
    mapGetD (ls.foldl (fun m l => match mapGet q l with | some n => mapSet m l n | none => m) m) l 0
      = if l ∈ ls then (mapGet q l).getD (mapGetD m l 0) else mapGetD m l 0 := by
  induction ls generalizing m with
  | nil => simp
  | cons i ls ih =>
    rw [List.foldl_cons, ih]
    cases e : mapGet q i with
    | none => by_cases g : l = i <;> simp_all
    | some n =>
      by_cases g : l = i
      · subst g; simp [e]
      · simp [mapGetD_set_other _ _ _ _ _ g, g]
/-- The planes after those of an offset's `PSET`s took effect. -/
theorem applyPlanes_plane (k : Skein) (q : NMap Nat) (l : Nat) (h : l < 16) :
    (k.applyPlanes q).plane l = (mapGet q l).getD (k.plane l) := by
  have := planes_fold q (List.range 16) k.r.planes l
  rw [if_pos (by simpa using h)] at this
  exact this
/-- A skein that differs from the pass's in lane registers, masks, latches, planes, status and its arm alone keeps the rest. -/
theorem RestKept.of_regs (p : Pass) (k : Skein) (ho : ∀ b, b ≠ p.ai → k.arms[b]? = p.sk.arms[b]?)
    (hk : k = { p.sk with r := { k.r with joins := p.sk.r.joins, exited := p.sk.r.exited }, arms := k.arms }) : RestKept p k := by
  constructor
  case arms => exact ho
  all_goals rw [hk]
/-- A pass ends on a skein that its meaning has changed in lane registers, masks, latches, status and uniform registers only. -/
theorem endPass_rest (p : Pass) (k : Skein) (u u' : Issue) (ks : NMap W64) (n : Nat) (a : Arm)
    (hu : p.arm.issue = some u) (hoff : p.off = u.off) (hlen : p.len = u.len) (hlast : p.last = decide (u.rest.length ≤ 1))
    (ha : k.arms[p.ai]? = some a) (ha' : a = { p.arm with ks := ks, issue := some u' })
    (hu' : u'.off = u.off ∧ u'.len = u.len ∧ u'.rest = u.rest ∧ u'.fails = [] ∧ u'.pset = u.pset)
    (hk : k = { p.sk with r := { p.sk.r with lanes := k.r.lanes, masks := k.r.masks, latch := k.r.latch, status := k.r.status }, arms := k.arms })
    (ho : ∀ b, b ≠ p.ai → k.arms[b]? = p.sk.arms[b]?) :
    RestKept p (k.endPass p.ai n) ∧ WentOn p (k.endPass p.ai n) ks ∧ (k.endPass p.ai n).r.lanes = k.r.lanes
      ∧ (k.endPass p.ai n).r.masks = k.r.masks ∧ (k.endPass p.ai n).r.latch = k.r.latch ∧ (k.endPass p.ai n).r.status = k.r.status
      ∧ (k.endPass p.ai n).win = k.win ∧ (k.endPass p.ai n).frame = k.frame := by
  obtain ⟨e1, e2, e3, e4, e5⟩ := hu'
  have harm : (k.arm p.ai).issue = some u' := by rw [Skein.arm_of k p.ai a ha, ha']
  have hset := fun b => Skein.modArm_get k p.ai b Arm.endPass
  by_cases h : u.rest.length ≤ 1
  · have hE : k.endPass p.ai n = (k.modArm p.ai Arm.endPass).applyPlanes u'.pset := by
      unfold Skein.endPass; rw [harm]; simp [e3, h, e4]
    have hA : a.endPass = { a with issue := none, path := a.path.map fun x => { x with off := u'.off + u'.len } } :=
      Arm.endPass_last a u' (by rw [ha']) (by rw [e3]; exact h)
    rw [hE]
    refine ⟨RestKept.of_regs p _ (fun b hb => ?_) (by rw [hk]; rfl), ⟨?_, ?_⟩, rfl, rfl, rfl, rfl, rfl, rfl⟩
    · show (k.modArm p.ai Arm.endPass).arms[b]? = _
      rw [hset, if_neg hb, ho b hb]
    · refine ⟨a.endPass, ?_, ?_⟩
      · show (k.modArm p.ai Arm.endPass).arms[p.ai]? = _
        rw [hset, if_pos rfl, ha]; rfl
      · rw [hA, ha']
        simp [hlast, h, hoff, hlen, e1, e2]
    · intro l hl
      rw [applyPlanes_plane _ _ _ hl, hlast, hu, e5]
      have : (k.modArm p.ai Arm.endPass).plane l = p.sk.plane l := by rw [hk]; rfl
      simp [h, this]
  · have hE : k.endPass p.ai n = k.modArm p.ai Arm.endPass := by
      unfold Skein.endPass; rw [harm]; simp [e3, h]
    have hA : a.endPass = { a with issue := some { u' with rest := u'.rest.drop 1 } } :=
      Arm.endPass_more a u' (by rw [ha']) (by rw [e3]; exact h)
    rw [hE]
    refine ⟨RestKept.of_regs p _ (fun b hb => ?_) (by rw [hk]; rfl), ⟨?_, ?_⟩, rfl, rfl, rfl, rfl, rfl, rfl⟩
    · rw [hset, if_neg hb, ho b hb]
    · refine ⟨a.endPass, ?_, ?_⟩
      · rw [hset, if_pos rfl, ha]; rfl
      · rw [hA, ha']
        simp [hlast, h, hu, e3]
    · intro l hl
      have : (k.modArm p.ai Arm.endPass).plane l = p.sk.plane l := by rw [hk]; rfl
      rw [this, hlast]; simp [h]

/-- A meaning that makes of the pass's skein the skein `K` and ends the pass: what is left of `K`. -/
theorem pass_ended (s : State) (p : Pass) (F : Skein → Skein) (n : Nat) (u u' : Issue) (ks : NMap W64) (a : Arm) (h : LanePass s p)
    (hu : p.arm.issue = some u) (ha : (F p.sk).arms[p.ai]? = some a) (ha' : a = { p.arm with ks := ks, issue := some u' })
    (hu' : u'.off = u.off ∧ u'.len = u.len ∧ u'.rest = u.rest ∧ u'.fails = [] ∧ u'.pset = u.pset)
    (hk : F p.sk = { p.sk with r := { p.sk.r with lanes := (F p.sk).r.lanes, masks := (F p.sk).r.masks, latch := (F p.sk).r.latch, status := (F p.sk).r.status }, arms := (F p.sk).arms })
    (ho : ∀ b, b ≠ p.ai → (F p.sk).arms[b]? = p.sk.arms[b]?) :
    ∃ k, OnlySkein s (((s.modSk p.bid p.ix F).takeFree n).endPass p) p.bid p.ix k ∧ RestKept p k ∧ WentOn p k ks
      ∧ k.r.lanes = (F p.sk).r.lanes ∧ k.r.masks = (F p.sk).r.masks ∧ k.r.latch = (F p.sk).r.latch
      ∧ k.r.status = (F p.sk).r.status ∧ k.win = p.sk.win ∧ k.frame = p.sk.frame := by
  obtain ⟨hs, -, v, hv, -, hoff, hlen, hlast, -⟩ := h.parts
  obtain rfl : v = u := by simpa [hv] using hu
  have e := endPass_rest p (F p.sk) v u' ks s.mem.writes a hv hoff hlen hlast ha ha' hu' hk ho
  refine ⟨(F p.sk).endPass p.ai s.mem.writes, ⟨n, ?_⟩, e.1, e.2.1, e.2.2.1, e.2.2.2.1, e.2.2.2.2.1, e.2.2.2.2.2.1, ?_, ?_⟩
  · rw [State.modSk_const s p.bid p.ix F p.sk hs,
      State.endPass_skein _ p (F p.sk) u' h.2.1 (by simp [hs]) (by rw [Skein.arm_of _ _ _ ha, ha']) hu'.2.2.2.1]
    simp only [State.takeFree_mem, State.modSk_mem, State.takeFree_modSk, State.modSk_modSk]
  · rw [e.2.2.2.2.2.2.1, hk]
  · rw [e.2.2.2.2.2.2.2, hk]

/-! ### The latch chain -/

theorem pushLatch_eq (k : Skein) (ai free : Nat) (ls : List Nat) (f : Nat → W64) (a : Arm) (u : Issue)
    (ha : k.arms[ai]? = some a) (hu : a.issue = some u) :
    k.pushLatch ai free ls f =
      { k with
        r := { k.r with latch :=
          { (if u.pushed.isSome then k.r.latch else k.r.latch.push fun l => Config.freeDouble (free + l)) with
            ent := mapSetAll (if u.pushed.isSome then k.r.latch else k.r.latch.push fun l => Config.freeDouble (free + l)).ent ls f } }
        arms := listMod k.arms ai fun _ => { a with issue := some { u with pushed := some (u.pushed.getD k.r.latch) } } } := by
  unfold Skein.pushLatch
  rw [Skein.arm_of k ai a ha, hu]
  simp only [Skein.setLatch, Skein.modArm]
  rw [listMod_const k.arms ai _ a ha]
theorem mapGetD_range (g : Nat → W64) (n m : Nat) (b : NMap W64) (i : Nat) (d : W64) :
    mapGetD (((List.range' m n).map fun l => (l, g l)) ++ b) i d = if m ≤ i ∧ i < m + n then g i else mapGetD b i d := by
  induction n generalizing m with
  | zero => rw [if_neg (by omega)]; rfl
  | succ n ih =>
    have := ih (m + 1)
    by_cases e : m = i
    · subst e; simp [mapGetD, mapGet, List.range'_succ]
    · simp only [List.range'_succ, List.map_cons, List.cons_append, mapGetD, mapGet, e, if_false]
      simp only [mapGetD] at this
      rw [this]; congr 1; simp only [eq_iff_iff]; omega
theorem mapGetD_shift (m : NMap W64) (i : Nat) (d : W64) (h : i < 112) :
    mapGetD ((m.filter fun e => e.1 < 112).map fun e => (e.1 + 16, e.2)) (i + 16) d = mapGetD m i d := by
  induction m with
  | nil => rfl
  | cons e m ih =>
    obtain ⟨k, v⟩ := e
    by_cases g : k < 112 <;> by_cases q : k = i <;> simp_all [mapGetD, mapGet]
theorem push_older (x : Latches) (fill : Nat → W64) (i l : Nat) (hi : i < 7) (hl : l < 16) :
    mapGetD (x.push fill).ent (16 * (i + 1) + l) 0 = mapGetD x.ent (16 * i + l) 0 := by
  unfold Latches.push
  rw [List.range_eq_range', mapGetD_range, if_neg (by omega), show 16 * (i + 1) + l = (16 * i + l) + 16 by omega]
  exact mapGetD_shift _ _ _ (by omega)
theorem lanes_lt (p : Pass) (l : Nat) (h : l ∈ p.lanes) : l < 16 := by
  simp [Pass.lanes, lanesOf] at h; exact h.1
/-- The chain after a push, in the terms of `Pushed`. -/
theorem pushed_of (p : Pass) (k : Skein) (u : Issue) (free : Nat) (f : Nat → W64) (hu : p.arm.issue = some u)
    (hk : k.r.latch = { (if u.pushed.isSome then p.sk.r.latch else p.sk.r.latch.push fun l => Config.freeDouble (free + l)) with
      ent := mapSetAll (if u.pushed.isSome then p.sk.r.latch else p.sk.r.latch.push fun l => Config.freeDouble (free + l)).ent p.lanes f }) :
    Pushed p k f := by
  refine ⟨fun l h => ?_, fun h => ?_, fun h => ?_⟩
  · rw [hk, mapGetD_setAll, if_pos h]
  · have g : u.pushed = none := by simpa [hu] using h
    rw [hk]
    simp only [g, Option.isSome_none, Bool.false_eq_true, if_false]
    refine ⟨rfl, fun i l hi hl => ?_⟩
    rw [mapGetD_setAll, if_neg, push_older _ _ _ _ hi hl]
    intro g; have := lanes_lt p _ g; omega
  · have g : u.pushed.isSome = true := by
      rw [hu] at h; cases e : u.pushed <;> simp_all
    rw [hk]
    simp only [g, if_true]
    refine ⟨trivial, fun i l hi hl => ?_⟩
    rw [mapGetD_setAll, if_neg]
    intro g; have := lanes_lt p _ g; omega

/-! ### Lane registers -/

theorem lanes_fold (a : Nat) (f : Nat → W32) (ls : List Nat) (m : NMap W32) (j : Nat) :
    mapGetD (ls.foldl (fun m l => mapSet m (a * 16 + l) (f l)) m) j 0
      = if a * 16 ≤ j ∧ j - a * 16 ∈ ls then f (j - a * 16) else mapGetD m j 0 := by
  induction ls generalizing m with
  | nil => simp
  | cons l ls ih =>
    rw [List.foldl_cons, ih]
    by_cases h : a * 16 ≤ j ∧ j - a * 16 ∈ ls
    · simp [h]
    · rw [if_neg h]
      by_cases g : j = a * 16 + l
      · subst g; simp
      · rw [mapGetD_set_other _ _ _ _ _ g, if_neg]
        simp only [List.mem_cons]; intro q; rcases q with ⟨q1, q2 | q2⟩ <;> [omega; exact h ⟨q1, q2⟩]
theorem logical_lanes (k : Skein) (m : NMap W32) (x l : Nat) :
    (k.withLanes m).logical x l = mapGetD m (x % k.win.allot * 16 + l) 0 := rfl
theorem setVs_logical (k : Skein) (d : Nat) (ls : List Nat) (f : Nat → W32) (x l : Nat) (hl : l < 16) (hs : ∀ l ∈ ls, l < 16) :
    (k.setVs d ls f).logical x l
      = if l ∈ ls ∧ x % k.win.allot = (k.vbase + d) % k.win.allot then f l else k.logical x l := by
  rw [Skein.setVs_eq, logical_lanes, lanes_fold]
  by_cases h : l ∈ ls ∧ x % k.win.allot = (k.vbase + d) % k.win.allot
  · rw [if_pos h, if_pos ⟨by rw [h.2]; omega, by rw [h.2]; simpa using h.1⟩, h.2]
    congr 1; omega
  · rw [if_neg h, if_neg]
    · rfl
    · rintro ⟨h1, h2⟩
      have h3 := hs _ h2
      have : x % k.win.allot = (k.vbase + d) % k.win.allot := by omega
      refine h ⟨?_, this⟩
      rw [this] at h2; simpa using h2
theorem setPairs_fold (a b : Nat) (f : Nat → W64) (ls : List Nat) (m : NMap W32) (x l : Nat) (hl : l < 16) (hs : ∀ l ∈ ls, l < 16) :
    mapGetD (ls.foldl (fun m l => mapSet (mapSet m (a * 16 + l) ((f l).setWidth 32)) (b * 16 + l) ((f l).extractLsb' 32 32)) m) (x * 16 + l) 0
      = if l ∈ ls ∧ x = b then (f l).extractLsb' 32 32 else if l ∈ ls ∧ x = a then (f l).setWidth 32 else mapGetD m (x * 16 + l) 0 := by
  induction ls generalizing m with
  | nil => simp
  | cons i ls ih =>
    rw [List.foldl_cons, ih _ fun l h => hs l (List.mem_cons_of_mem _ h)]
    have hi := hs i (List.mem_cons_self)
    simp only [mapGetD_set, List.mem_cons]
    by_cases q : l = i
    · subst q
      by_cases e : x = b
      · subst e; simp; intro h1 h2; exact absurd h2 h1
      · by_cases g : x = a
        · subst g
          have : ¬ (x * 16 + l = b * 16 + l) := by omega
          simp [e]
        · have h1 : ¬ (x * 16 + l = b * 16 + l) := by omega
          have h2 : ¬ (x * 16 + l = a * 16 + l) := by omega
          simp [e, g]
    · have h1 : ¬ (x * 16 + l = b * 16 + i) := by omega
      have h2 : ¬ (x * 16 + l = a * 16 + i) := by omega
      simp only [h1, h2, if_false, q, false_or]
theorem setPairs_logical (k : Skein) (d : Nat) (ls : List Nat) (f : Nat → W64) (x l : Nat) (hl : l < 16) (hs : ∀ l ∈ ls, l < 16) :
    (k.setPairs d ls f).logical x l
      = if l ∈ ls ∧ x % k.win.allot = (k.vbase + (d + 1)) % k.win.allot then (f l).extractLsb' 32 32
        else if l ∈ ls ∧ x % k.win.allot = (k.vbase + d) % k.win.allot then (f l).setWidth 32 else k.logical x l := by
  rw [Skein.setPairs_eq, logical_lanes, setPairs_fold _ _ _ _ _ _ _ hl hs]; rfl

/-! ### Results -/

/-- The shape shared by lane results: lane registers `m`, masks `mk`, the chain pushed with `f`, sticky bits. -/
theorem State.chain_result (s : State) (p : Pass) (m : NMap W32) (mk : NMap Lanes) (f : Nat → W64) (fl : BitVec 7) (F : Skein → Skein)
    (h : LanePass s p)
    (hF : F p.sk = (({ p.sk with r := { p.sk.r with lanes := m, masks := mk } } : Skein).pushLatch p.ai s.fresh.free p.lanes f).orStatus fl) :
    ∃ k, OnlySkein s (((s.modSk p.bid p.ix F).takeFree 16).endPass p) p.bid p.ix k ∧ RestKept p k ∧ WentOn p k p.arm.ks ∧ Pushed p k f
      ∧ k.r.lanes = m ∧ k.r.masks = mk ∧ k.r.status = p.sk.r.status ||| fl ∧ k.win = p.sk.win ∧ k.vbase = p.sk.vbase := by
  obtain ⟨hs, ha, u, hu, hf, -⟩ := h.parts
  have hget := listMod_get p.sk.arms p.ai
  have push := pushLatch_eq { p.sk with r := { p.sk.r with lanes := m, masks := mk } } p.ai s.fresh.free p.lanes f p.arm u ha hu
  rw [push] at hF
  obtain ⟨k, h1, h2, h3, h4, h5, h6, h7, h8, h9⟩ := pass_ended s p F 16 u { u with pushed := some (u.pushed.getD p.sk.r.latch) } p.arm.ks
    { p.arm with issue := some { u with pushed := some (u.pushed.getD p.sk.r.latch) } } h hu
    (by rw [hF]; show (listMod p.sk.arms p.ai _)[p.ai]? = _; rw [hget, if_pos rfl, ha]; rfl) rfl ⟨rfl, rfl, rfl, hf, rfl⟩
    (by rw [hF]; rfl) (by intro b hb; rw [hF]; show (listMod p.sk.arms p.ai _)[b]? = _; rw [hget, if_neg hb])
  rw [hF] at h4 h5 h6 h7
  exact ⟨k, h1, h2, h3, pushed_of p k u s.fresh.free f hu h6, h4, h5, h7, h8, by unfold Skein.vbase Skein.trapMode; rw [h8, h9]⟩
/-- Reading lanes after a 32-bit result. -/
theorem lane32_read (p : Pass) (k : Skein) (d : Nat) (kb : Bool) (f : Nat → W32)
    (hm : k.r.lanes = if kb then p.sk.r.lanes else (p.sk.setVs d p.lanes f).r.lanes) (hw : k.win = p.sk.win) (hb : k.vbase = p.sk.vbase) :
    (kb = false → ∀ l ∈ p.lanes, k.v d l = f l) ∧ LanesKept p k d (if kb then 0 else 1) := by
  have hlt : ∀ l ∈ p.lanes, l < 16 := fun l hl => lanes_lt p l hl
  have hl : ∀ x l, k.logical x l = (p.sk.withLanes (if kb then p.sk.r.lanes else (p.sk.setVs d p.lanes f).r.lanes)).logical x l := by
    intro x l; simp only [Skein.logical, hm, hw]; rfl
  have hv : ∀ x l, (p.sk.withLanes (p.sk.setVs d p.lanes f).r.lanes).logical x l = (p.sk.setVs d p.lanes f).logical x l := by
    intro x l; rw [Skein.setVs_eq]; rfl
  cases kb
  · refine ⟨fun _ l h => ?_, fun x l hl16 hx => ?_⟩
    · show k.logical (k.vbase + d) l = f l
      rw [hl, hb]
      simpa [h, hv] using setVs_logical p.sk d p.lanes f (p.sk.vbase + d) l (hlt l h) hlt
    · rw [hl]
      simp only [Bool.false_eq_true, if_false, hv]
      rw [setVs_logical p.sk d p.lanes f x l hl16 hlt, if_neg]
      rintro ⟨q1, q2⟩
      rcases hx with hx | hx
      · exact hx q1
      · exact hx 0 (by simp) (by simpa using q2)
  · exact ⟨fun e => by simp at e, fun x l _ _ => by rw [hl]; rfl⟩
/-- A 32-bit result: what `lane32` does (R54, R82, R83). -/
theorem State.lane32_result (s : State) (p : Pass) (d : Nat) (kb : Bool) (f : Nat → W32) (fl : BitVec 7) (h : LanePass s p) :
    LaneResult s (s.lane32 p d kb f fl) p d kb f fl := by
  obtain ⟨k, h1, h2, h3, h4, h5, h6, h7, h8, h9⟩ := s.chain_result p (if kb then p.sk.r.lanes else (p.sk.setVs d p.lanes f).r.lanes)
    p.sk.r.masks (fun l => (f l).setWidth 64) fl
    (fun x => ((if kb then x else x.setVs d p.lanes f).pushLatch p.ai s.fresh.free p.lanes fun l => (f l).setWidth 64).orStatus fl) h
    (by cases kb <;> simp [Skein.setVs_eq, Skein.withLanes])
  have := lane32_read p k d kb f h5 h8 h9
  exact ⟨k, h1, h2, h3, h4, this.1, this.2, h6, h7⟩
/-- A 64-bit result: what `lane64` does. -/
theorem State.lane64_result (s : State) (p : Pass) (d : Nat) (kb : Bool) (f : Nat → W64) (fl : BitVec 7) (h : LanePass s p) :
    PairResult s (s.lane64 p d kb f fl) p d kb f fl := by
  obtain ⟨k, h1, h2, h3, h4, h5, h6, h7, h8, h9⟩ := s.chain_result p (if kb then p.sk.r.lanes else (p.sk.setPairs d p.lanes f).r.lanes)
    p.sk.r.masks f fl
    (fun x => ((if kb then x else x.setPairs d p.lanes f).pushLatch p.ai s.fresh.free p.lanes f).orStatus fl) h
    (by cases kb <;> simp [Skein.setPairs_eq, Skein.withLanes])
  have hlt : ∀ l ∈ p.lanes, l < 16 := fun l hl => lanes_lt p l hl
  have hl : ∀ x l, k.logical x l = (p.sk.withLanes (if kb then p.sk.r.lanes else (p.sk.setPairs d p.lanes f).r.lanes)).logical x l := by
    intro x l; simp only [Skein.logical, h5, h8]; rfl
  have hv : ∀ x l, (p.sk.withLanes (p.sk.setPairs d p.lanes f).r.lanes).logical x l = (p.sk.setPairs d p.lanes f).logical x l := by
    intro x l; rw [Skein.setPairs_eq]; rfl
  refine ⟨k, h1, h2, h3, h4, ?_, ?_, h6, h7⟩
  · intro e l hm
    subst e
    refine ⟨?_, fun ne => ?_⟩
    · show k.logical (k.vbase + (d + 1)) l = _
      rw [hl, h9]
      simpa [hm, hv] using setPairs_logical p.sk d p.lanes f (p.sk.vbase + (d + 1)) l (hlt l hm) hlt
    · show k.logical (k.vbase + d) l = _
      rw [hl, h9]
      simpa [hm, hv, ne] using setPairs_logical p.sk d p.lanes f (p.sk.vbase + d) l (hlt l hm) hlt
  · intro x l hl16 hx
    rw [hl]
    cases kb
    · have no : ∀ i, i < 2 → ¬ (l ∈ p.lanes ∧ x % p.sk.win.allot = (p.sk.vbase + (d + i)) % p.sk.win.allot) := by
        rintro i hi ⟨q1, q2⟩
        rcases hx with hx | hx
        · exact hx q1
        · exact hx i hi (by rw [q2]; congr 1; omega)
      simp only [Bool.false_eq_true, if_false, hv]
      rw [setPairs_logical p.sk d p.lanes f x l hl16 hlt, if_neg (no 1 (by omega)), if_neg (by simpa using no 0 (by omega))]
    · rfl
theorem setMask_bit (k : Skein) (m : Nat) (ls v : Lanes) (l : Nat) (hl : l < 16) :
    ((k.setMask m ls v).mask m).getLsbD l
      = ((if ls.getLsbD l then v.getLsbD l else (k.mask m).getLsbD l) && (m != 0 || !k.r.exited.getLsbD l)) := by
  unfold Skein.setMask Skein.mask
  simp only [mapGetD_set_same]
  by_cases e : m = 0 <;> cases g : ls.getLsbD l <;> simp_all [Skein.live]
theorem setMask_other (k : Skein) (m x : Nat) (ls v : Lanes) (h : x ≠ m) : (k.setMask m ls v).mask x = k.mask x := by
  simp [Skein.setMask, Skein.mask, mapGetD_set_other _ _ _ _ _ h]
/-- The shape shared by mask, uniform and empty results: masks, status and uniform registers alone. -/
theorem State.plain_result (s : State) (p : Pass) (mk : NMap Lanes) (st : BitVec 7) (ks : NMap W64) (F : Skein → Skein) (h : LanePass s p)
    (hF : F p.sk = { p.sk with r := { p.sk.r with masks := mk, status := st }, arms := listMod p.sk.arms p.ai fun a => { a with ks := ks } }) :
    ∃ k, OnlySkein s ((s.modSk p.bid p.ix F).endPass p) p.bid p.ix k ∧ RestKept p k ∧ WentOn p k ks ∧ k.r.lanes = p.sk.r.lanes
      ∧ k.r.masks = mk ∧ k.r.latch = p.sk.r.latch ∧ k.r.status = st := by
  obtain ⟨hs, ha, u, hu, hf, -⟩ := h.parts
  have hget := listMod_get p.sk.arms p.ai
  obtain ⟨k, h1, h2, h3, h4, h5, h6, h7, -, -⟩ := pass_ended s p F 0 u u ks { p.arm with ks := ks } h hu
    (by rw [hF]; simp [hget, ha]) (by rw [← hu]) ⟨rfl, rfl, rfl, hf, rfl⟩ (by rw [hF])
    (by intro b hb; rw [hF]; simp [hget, hb])
  rw [hF] at h4 h5 h6 h7
  exact ⟨k, h1, h2, h3, h4, h5, h6, h7⟩
theorem listMod_same (l : List Arm) (i : Nat) (a : Arm) (h : l[i]? = some a) : (listMod l i fun x => { x with ks := a.ks }) = l := by
  induction l generalizing i with
  | nil => rfl
  | cons x l ih => cases i <;> simp_all [listMod]
theorem State.laneMask_result (s : State) (p : Pass) (m : Nat) (ls v : Lanes) (fl : BitVec 7) (h : LanePass s p) :
    MaskResult s ((s.modSk p.bid p.ix fun x => (x.setMask m ls v).orStatus fl).endPass p) p m ls v fl := by
  obtain ⟨hs, ha, -⟩ := h.parts
  obtain ⟨k, h1, h2, h3, h4, h5, h6, h7⟩ := s.plain_result p (p.sk.setMask m ls v).r.masks (p.sk.r.status ||| fl) p.arm.ks
    (fun x => (x.setMask m ls v).orStatus fl) h (by rw [listMod_same _ _ _ ha]; rfl)
  have e : ∀ x, k.mask x = (p.sk.setMask m ls v).mask x := fun x => by simp only [Skein.mask, h5]
  exact ⟨k, h1, h2, h3, fun l hl => by rw [e, setMask_bit _ _ _ _ _ hl], fun x hx => by rw [e, setMask_other _ _ _ _ _ hx],
    h4, h6, h7⟩
/-- A uniform register of a skein written. -/
theorem State.setK_skein (s : State) (p : Pass) (i : Nat) (v : W64) (hc : p.coach = false) :
    s.setK p i v = s.modSk p.bid p.ix fun k => k.modArm p.ai fun a => { a with ks := mapSet a.ks i v } := by
  simp [State.setK, hc, State.modArm_eq]
theorem State.uniform_result (s : State) (p : Pass) (kd : Nat) (v : W64) (fl : BitVec 7) (h : LanePass s p) :
    UniformResult s (((s.setK p kd v).modSk p.bid p.ix fun x => x.orStatus fl).endPass p) p kd v fl := by
  obtain ⟨hs, ha, -⟩ := h.parts
  rw [s.setK_skein p kd v h.2.1, State.modSk_modSk]
  have e : listMod p.sk.arms p.ai (fun a => { a with ks := mapSet a.ks kd v })
      = listMod p.sk.arms p.ai fun a => { a with ks := mapSet p.arm.ks kd v } := by
    rw [listMod_const _ _ _ _ ha, listMod_const _ _ (fun a => { a with ks := mapSet p.arm.ks kd v }) _ ha]
  obtain ⟨k, h1, h2, h3, h4, h5, h6, h7⟩ := s.plain_result p p.sk.r.masks (p.sk.r.status ||| fl) (mapSet p.arm.ks kd v)
    (fun x => (x.modArm p.ai fun a => { a with ks := mapSet a.ks kd v }).orStatus fl) h
    (by simp only [Skein.modArm, Skein.orStatus, e])
  exact ⟨k, h1, h2, h3, h4, h5, h6, h7⟩
theorem State.endPass_result (s : State) (p : Pass) (h : LanePass s p) : NoResult s (s.endPass p) p := by
  obtain ⟨hs, ha, -⟩ := h.parts
  have e : s = s.modSk p.bid p.ix fun x => x := by
    rw [State.modSk]
    have : (fun x : Block => ({ x with skeins := listMod x.skeins p.ix fun x => x } : Block)) = id := by
      funext x
      have : ∀ (l : List Skein) i, (listMod l i fun x => x) = l := by
        intro l; induction l with
        | nil => intro i; rfl
        | cons y l ih => intro i; cases i <;> simp [listMod, ih]
      simp [this]
    rw [this, State.modBlk]
    have : ∀ (m : NMap Block) i, mapMod m i id = m := by
      intro m i; induction m with
      | nil => rfl
      | cons y m ih => simp only [mapMod, ih]; split <;> (try subst i) <;> rfl
    rw [this]
  obtain ⟨k, h1, h2, h3, h4, h5, h6, h7⟩ := s.plain_result p p.sk.r.masks p.sk.r.status p.arm.ks (fun x => x) h
    (by rw [listMod_same _ _ _ ha])
  rw [← e] at h1
  exact ⟨k, h1, h2, h3, h4, h5, h6, h7⟩
theorem State.uniform_plain (s : State) (p : Pass) (kd : Nat) (v : W64) (h : LanePass s p) :
    UniformResult s (s.uniform p kd v) p kd v 0 := by
  obtain ⟨hs, ha, -⟩ := h.parts
  have e : listMod p.sk.arms p.ai (fun a => { a with ks := mapSet a.ks kd v })
      = listMod p.sk.arms p.ai fun a => { a with ks := mapSet p.arm.ks kd v } := by
    rw [listMod_const _ _ _ _ ha, listMod_const _ _ (fun a => { a with ks := mapSet p.arm.ks kd v }) _ ha]
  unfold State.uniform
  rw [s.setK_skein p kd v h.2.1]
  obtain ⟨k, h1, h2, h3, h4, h5, h6, h7⟩ := s.plain_result p p.sk.r.masks p.sk.r.status (mapSet p.arm.ks kd v)
    (fun x => x.modArm p.ai fun a => { a with ks := mapSet a.ks kd v }) h (by simp only [Skein.modArm, e])
  exact ⟨k, h1, h2, h3, h4, h5, h6, by simp [h7]⟩

/-! ### Checks -/

theorem State.withPass_some (s : State) (p : Pass) (f : Pass → State) (h : s.pass? = some p) : s.withPass f = .next (f p) := by
  simp [State.withPass, h]
theorem State.guarded_ok (s : State) (p : Pass) (l : List (Option Trap)) (e : State) (h : ∀ x ∈ l, x = none) : s.guarded p l e = e := by
  simp [State.guarded, firstSome_none l h]
theorem State.laneGuarded_ok (s : State) (p : Pass) (l : List (Option Trap)) (e : State) (h : ∀ x ∈ l, x = none) :
    s.laneGuarded p l e = e := by simp [State.laneGuarded, State.guarded_ok s p l e h]
theorem laneRole_ok (p : Pass) (h : p.coach = false) : p.laneRole = none := by simp [Pass.laneRole, whenBad, h]
theorem reg_ok (p : Pass) (i n : Nat) (h : RegOk p i n) : p.reg i n = none := by
  have : i + n ≤ p.sk.vlimit := h
  simp [Pass.reg, whenBad, Skein.hasRegs, this]
theorem dest_ok (p : Pass) (k : Bool) (i n : Nat) (h : DestOk p k i n) : p.dest k i n = none := by
  cases k <;> simp_all [Pass.dest, DestOk, reg_ok]
theorem srcReg_ok (p : Pass) (a : Src) (n : Nat) (h : SrcOk p a n) : p.srcReg a n = none := by
  cases a <;> simp_all [Pass.srcReg, SrcOk, reg_ok]
theorem fresh_ok (p : Pass) (a : Src) (n : Nat) (h : SrcOk p a n) : p.fresh a = none := by
  cases a <;> simp_all [Pass.fresh, SrcOk, whenBad]
theorem even_ok (p : Pass) (i : Nat) (h : i % 2 = 0) : p.even i = none := by simp [Pass.even, whenBad, h]
theorem srcEven_ok (p : Pass) (a : Src) (h : SrcEven a) : p.srcEven a = none := by
  cases a <;> simp_all [Pass.srcEven, SrcEven, even_ok]
theorem destEven_ok (p : Pass) (k : Bool) (i : Nat) (h : k = true ∨ i % 2 = 0) : p.destEven k i = none := by
  cases k <;> simp_all [Pass.destEven, even_ok]

end Sys2Proof.Machine
end

