-- ==== Sys2Proof/Laws/Operands.lean ====
section
/-! SUPPORT. What the moulds of lane instructions do, once for all instructions cast in them. -/

namespace Sys2Proof.Machine

theorem laneGuarded_if (s : State) (p : Pass) (l : List (Option Trap)) (e : State) (h : p.em = 0 ∨ ∀ x ∈ l, x = none)
    (hc : p.coach = false) : s.laneGuarded p l e = e := by
  rcases h with h | h
  · simp [State.laneGuarded, hc, h]
  · exact s.laneGuarded_ok p l e h
theorem lane1_runs (s : State) (p : Pass) (d : Nat) (k : Bool) (a : Src) (f : W32 → W32) (h : LanePass s p)
    (g : Fields p k d 1 [(a, 1)]) :
    ∃ t, lane1 s d k a f = .next t ∧ LaneResult s t p d k (fun l => f (p.val32 a l)) 0 := by
  refine ⟨_, s.withPass_some p _ h.1, ?_⟩
  rw [laneGuarded_if s p _ _ (g.imp id fun g => ?_) h.2.1]
  · exact s.lane32_result p d k _ 0 h
  · simp [laneRole_ok p h.2.1, dest_ok p k d 1 g.1, srcReg_ok p a 1 (g.2 (a, 1) (by simp)), fresh_ok p a 1 (g.2 (a, 1) (by simp))]
theorem lane2_runs (s : State) (p : Pass) (d : Nat) (k : Bool) (a b : Src) (f : W32 → W32 → W32) (h : LanePass s p)
    (g : Fields p k d 1 [(a, 1), (b, 1)]) :
    ∃ t, lane2 s d k a b f = .next t ∧ LaneResult s t p d k (fun l => f (p.val32 a l) (p.val32 b l)) 0 := by
  refine ⟨_, s.withPass_some p _ h.1, ?_⟩
  rw [laneGuarded_if s p _ _ (g.imp id fun g => ?_) h.2.1]
  · exact s.lane32_result p d k _ 0 h
  · simp [laneRole_ok p h.2.1, dest_ok p k d 1 g.1, srcReg_ok p a 1 (g.2 (a, 1) (by simp)), fresh_ok p a 1 (g.2 (a, 1) (by simp)),
      srcReg_ok p b 1 (g.2 (b, 1) (by simp)), fresh_ok p b 1 (g.2 (b, 1) (by simp))]
theorem lane3_runs (s : State) (p : Pass) (d : Nat) (k : Bool) (a b c : Src) (f : W32 → W32 → W32 → W32) (h : LanePass s p)
    (g : Fields p k d 1 [(a, 1), (b, 1), (c, 1)]) :
    ∃ t, lane3 s d k a b c f = .next t ∧ LaneResult s t p d k (fun l => f (p.val32 a l) (p.val32 b l) (p.val32 c l)) 0 := by
  refine ⟨_, s.withPass_some p _ h.1, ?_⟩
  rw [laneGuarded_if s p _ _ (g.imp id fun g => ?_) h.2.1]
  · exact s.lane32_result p d k _ 0 h
  · simp [laneRole_ok p h.2.1, dest_ok p k d 1 g.1, srcReg_ok p a 1 (g.2 (a, 1) (by simp)), fresh_ok p a 1 (g.2 (a, 1) (by simp)),
      srcReg_ok p b 1 (g.2 (b, 1) (by simp)), fresh_ok p b 1 (g.2 (b, 1) (by simp)),
      srcReg_ok p c 1 (g.2 (c, 1) (by simp)), fresh_ok p c 1 (g.2 (c, 1) (by simp))]
theorem laneF1_runs (s : State) (p : Pass) (d : Nat) (k : Bool) (a : Src) (f : W32 → W32 × BitVec 7) (h : LanePass s p)
    (g : Fields p k d 1 [(a, 1)]) :
    ∃ t, laneF1 s d k a f = .next t ∧
      LaneResult s t p d k (fun l => (f (p.val32 a l)).1) (flagsOf p.lanes fun l => (f (p.val32 a l)).2) := by
  refine ⟨_, s.withPass_some p _ h.1, ?_⟩
  rw [laneGuarded_if s p _ _ (g.imp id fun g => ?_) h.2.1]
  · exact s.lane32_result p d k _ _ h
  · simp [laneRole_ok p h.2.1, dest_ok p k d 1 g.1, srcReg_ok p a 1 (g.2 (a, 1) (by simp)), fresh_ok p a 1 (g.2 (a, 1) (by simp))]
theorem laneF2_runs (s : State) (p : Pass) (d : Nat) (k : Bool) (a b : Src) (f : W32 → W32 → W32 × BitVec 7) (h : LanePass s p)
    (g : Fields p k d 1 [(a, 1), (b, 1)]) :
    ∃ t, laneF2 s d k a b f = .next t ∧
      LaneResult s t p d k (fun l => (f (p.val32 a l) (p.val32 b l)).1) (flagsOf p.lanes fun l => (f (p.val32 a l) (p.val32 b l)).2) := by
  refine ⟨_, s.withPass_some p _ h.1, ?_⟩
  rw [laneGuarded_if s p _ _ (g.imp id fun g => ?_) h.2.1]
  · exact s.lane32_result p d k _ _ h
  · simp [laneRole_ok p h.2.1, dest_ok p k d 1 g.1, srcReg_ok p a 1 (g.2 (a, 1) (by simp)), fresh_ok p a 1 (g.2 (a, 1) (by simp)),
      srcReg_ok p b 1 (g.2 (b, 1) (by simp)), fresh_ok p b 1 (g.2 (b, 1) (by simp))]
theorem laneF3_runs (s : State) (p : Pass) (d : Nat) (k : Bool) (a b c : Src) (f : W32 → W32 → W32 → W32 × BitVec 7) (h : LanePass s p)
    (g : Fields p k d 1 [(a, 1), (b, 1), (c, 1)]) :
    ∃ t, laneF3 s d k a b c f = .next t ∧
      LaneResult s t p d k (fun l => (f (p.val32 a l) (p.val32 b l) (p.val32 c l)).1)
        (flagsOf p.lanes fun l => (f (p.val32 a l) (p.val32 b l) (p.val32 c l)).2) := by
  refine ⟨_, s.withPass_some p _ h.1, ?_⟩
  rw [laneGuarded_if s p _ _ (g.imp id fun g => ?_) h.2.1]
  · exact s.lane32_result p d k _ _ h
  · simp [laneRole_ok p h.2.1, dest_ok p k d 1 g.1, srcReg_ok p a 1 (g.2 (a, 1) (by simp)), fresh_ok p a 1 (g.2 (a, 1) (by simp)),
      srcReg_ok p b 1 (g.2 (b, 1) (by simp)), fresh_ok p b 1 (g.2 (b, 1) (by simp)),
      srcReg_ok p c 1 (g.2 (c, 1) (by simp)), fresh_ok p c 1 (g.2 (c, 1) (by simp))]
theorem const_runs (s : State) (p : Pass) (d : Nat) (k : Bool) (w : W32) (h : LanePass s p) (g : Fields p k d 1 []) :
    ∃ t, constOf s d k w = .next t ∧ LaneResult s t p d k (fun _ => w) 0 := by
  refine ⟨_, s.withPass_some p _ h.1, ?_⟩
  rw [laneGuarded_if s p _ _ (g.imp id fun g => ?_) h.2.1]
  · exact s.lane32_result p d k _ 0 h
  · simp [laneRole_ok p h.2.1, dest_ok p k d 1 g.1]
theorem sel_runs (s : State) (p : Pass) (d : Nat) (k : Bool) (a b : Src) (c : Nat) (h : LanePass s p)
    (g : Fields p k d 1 [(a, 1), (b, 1)]) :
    ∃ t, selOf s d k a b c = .next t ∧
      LaneResult s t p d k (fun l => if (p.sk.mask c).getLsbD l then p.val32 a l else p.val32 b l) 0 := by
  refine ⟨_, s.withPass_some p _ h.1, ?_⟩
  rw [laneGuarded_if s p _ _ (g.imp id fun g => ?_) h.2.1]
  · exact s.lane32_result p d k _ 0 h
  · simp [laneRole_ok p h.2.1, dest_ok p k d 1 g.1, srcReg_ok p a 1 (g.2 (a, 1) (by simp)), fresh_ok p a 1 (g.2 (a, 1) (by simp)),
      srcReg_ok p b 1 (g.2 (b, 1) (by simp)), fresh_ok p b 1 (g.2 (b, 1) (by simp))]
theorem lea_runs (s : State) (p : Pass) (d : Nat) (k : Bool) (a b : Src) (sh : Nat) (h : LanePass s p)
    (g : PairFields p k d [(a, 2), (b, 1)]) :
    ∃ t, leaOf s d k a b sh = .next t ∧ PairResult s t p d k (fun l => p.val64 a l + ((p.val32 b l).setWidth 64 <<< sh)) 0 := by
  refine ⟨_, s.withPass_some p _ h.1, ?_⟩
  rw [laneGuarded_if s p _ _ (g.imp id fun g => ?_) h.2.1]
  · exact s.lane64_result p d k _ 0 h
  · have ga := g.2.2 (a, 2) (by simp)
    have gb := g.2.2 (b, 1) (by simp)
    simp [laneRole_ok p h.2.1, dest_ok p k d 2 g.2.1, destEven_ok p k d g.1, srcReg_ok p a 2 ga.1, fresh_ok p a 2 ga.1,
      srcEven_ok p a (ga.2 rfl), srcReg_ok p b 1 gb.1, fresh_ok p b 1 gb.1]
theorem laneD2_runs (s : State) (p : Pass) (d : Nat) (k : Bool) (a b : Src) (f : W64 → W64 → W64 × BitVec 7) (h : LanePass s p)
    (g : PairFields p k d [(a, 2), (b, 2)]) :
    ∃ t, laneD2 s d k a b f = .next t ∧
      PairResult s t p d k (fun l => (f (p.val64 a l) (p.val64 b l)).1) (flagsOf p.lanes fun l => (f (p.val64 a l) (p.val64 b l)).2) := by
  refine ⟨_, s.withPass_some p _ h.1, ?_⟩
  rw [laneGuarded_if s p _ _ (g.imp id fun g => ?_) h.2.1]
  · exact s.lane64_result p d k _ _ h
  · have ga := g.2.2 (a, 2) (by simp)
    have gb := g.2.2 (b, 2) (by simp)
    simp [laneRole_ok p h.2.1, dest_ok p k d 2 g.2.1, destEven_ok p k d g.1, srcReg_ok p a 2 ga.1, fresh_ok p a 2 ga.1,
      srcEven_ok p a (ga.2 rfl), srcReg_ok p b 2 gb.1, fresh_ok p b 2 gb.1, srcEven_ok p b (gb.2 rfl)]

end Sys2Proof.Machine
end

