-- ==== Sys2Proof/Laws/PerInstr.lean ====
section
/-! SUPPORT. Statements made of every instruction, one lemma per constructor: the halfwords of a well-formed instruction decode to it
(R96-R122). -/

set_option Elab.async false
set_option linter.unusedSimpArgs false

namespace Sys2Proof.Laws.RoundTrip

/-- A well-formed instruction that has a word is read back from its halfwords, and none is left. -/
def Statement (i : Instr) : Prop := i.wf = true → encodeForm i ≠ none → decodeHalves (encode i) = (.ok i, [])

theorem event (i : Instr) (h : encodeForm i = none) : Statement i := fun _ g => absurd h g
theorem word (i : Instr) (f : Form) (he : encodeForm i = some f) (hf : i.wf = true → f.fits) (hd : i.wf = true → decForm f = .ok i) :
    Statement i := fun w _ => decode_encode i f he (hf w) (hd w)

theorem iadd (d : Nat) (k : Bool) (a : Src) (b : Src) : Statement (.iadd d k a b) := by
  refine word _ _ rfl (fun h => ?_) (fun h => ?_)
  · have := toNat_lt k; have := a.code_lt; have := b.code_lt; simp only [Form.fits]; simp [Instr.wf] at h; grind
  · simp [Instr.wf] at h; simp [decForm, decR, decR01, Decoded.enc, Decoded.opd, Decoded.sp, Decoded.val, Decoded.src_code, h]
theorem isub (d : Nat) (k : Bool) (a : Src) (b : Src) : Statement (.isub d k a b) := by
  refine word _ _ rfl (fun h => ?_) (fun h => ?_)
  · have := toNat_lt k; have := a.code_lt; have := b.code_lt; simp only [Form.fits]; simp [Instr.wf] at h; grind
  · simp [Instr.wf] at h; simp [decForm, decR, decR01, Decoded.enc, Decoded.opd, Decoded.sp, Decoded.val, Decoded.src_code, h]
theorem imul (d : Nat) (k : Bool) (a : Src) (b : Src) : Statement (.imul d k a b) := by
  refine word _ _ rfl (fun h => ?_) (fun h => ?_)
  · have := toNat_lt k; have := a.code_lt; have := b.code_lt; simp only [Form.fits]; simp [Instr.wf] at h; grind
  · simp [Instr.wf] at h; simp [decForm, decR, decR01, Decoded.enc, Decoded.opd, Decoded.sp, Decoded.val, Decoded.src_code, h]
theorem imulh (d : Nat) (k : Bool) (a : Src) (b : Src) : Statement (.imulh d k a b) := by
  refine word _ _ rfl (fun h => ?_) (fun h => ?_)
  · have := toNat_lt k; have := a.code_lt; have := b.code_lt; simp only [Form.fits]; simp [Instr.wf] at h; grind
  · simp [Instr.wf] at h; simp [decForm, decR, decR01, Decoded.enc, Decoded.opd, Decoded.sp, Decoded.val, Decoded.src_code, h]
theorem imulhZ (d : Nat) (k : Bool) (a : Src) (b : Src) : Statement (.imulhZ d k a b) := by
  refine word _ _ rfl (fun h => ?_) (fun h => ?_)
  · have := toNat_lt k; have := a.code_lt; have := b.code_lt; simp only [Form.fits]; simp [Instr.wf] at h; grind
  · simp [Instr.wf] at h; simp [decForm, decR, decR01, Decoded.enc, Decoded.opd, Decoded.sp, Decoded.val, Decoded.src_code, h]
theorem imin (d : Nat) (k : Bool) (a : Src) (b : Src) : Statement (.imin d k a b) := by
  refine word _ _ rfl (fun h => ?_) (fun h => ?_)
  · have := toNat_lt k; have := a.code_lt; have := b.code_lt; simp only [Form.fits]; simp [Instr.wf] at h; grind
  · simp [Instr.wf] at h; simp [decForm, decR, decR01, Decoded.enc, Decoded.opd, Decoded.sp, Decoded.val, Decoded.src_code, h]
theorem iminZ (d : Nat) (k : Bool) (a : Src) (b : Src) : Statement (.iminZ d k a b) := by
  refine word _ _ rfl (fun h => ?_) (fun h => ?_)
  · have := toNat_lt k; have := a.code_lt; have := b.code_lt; simp only [Form.fits]; simp [Instr.wf] at h; grind
  · simp [Instr.wf] at h; simp [decForm, decR, decR01, Decoded.enc, Decoded.opd, Decoded.sp, Decoded.val, Decoded.src_code, h]
theorem imax (d : Nat) (k : Bool) (a : Src) (b : Src) : Statement (.imax d k a b) := by
  refine word _ _ rfl (fun h => ?_) (fun h => ?_)
  · have := toNat_lt k; have := a.code_lt; have := b.code_lt; simp only [Form.fits]; simp [Instr.wf] at h; grind
  · simp [Instr.wf] at h; simp [decForm, decR, decR01, Decoded.enc, Decoded.opd, Decoded.sp, Decoded.val, Decoded.src_code, h]
theorem imaxZ (d : Nat) (k : Bool) (a : Src) (b : Src) : Statement (.imaxZ d k a b) := by
  refine word _ _ rfl (fun h => ?_) (fun h => ?_)
  · have := toNat_lt k; have := a.code_lt; have := b.code_lt; simp only [Form.fits]; simp [Instr.wf] at h; grind
  · simp [Instr.wf] at h; simp [decForm, decR, decR01, Decoded.enc, Decoded.opd, Decoded.sp, Decoded.val, Decoded.src_code, h]
theorem land (d : Nat) (k : Bool) (a : Src) (b : Src) : Statement (.land d k a b) := by
  refine word _ _ rfl (fun h => ?_) (fun h => ?_)
  · have := toNat_lt k; have := a.code_lt; have := b.code_lt; simp only [Form.fits]; simp [Instr.wf] at h; grind
  · simp [Instr.wf] at h; simp [decForm, decR, decR01, Decoded.enc, Decoded.opd, Decoded.sp, Decoded.val, Decoded.src_code, h]
theorem lor (d : Nat) (k : Bool) (a : Src) (b : Src) : Statement (.lor d k a b) := by
  refine word _ _ rfl (fun h => ?_) (fun h => ?_)
  · have := toNat_lt k; have := a.code_lt; have := b.code_lt; simp only [Form.fits]; simp [Instr.wf] at h; grind
  · simp [Instr.wf] at h; simp [decForm, decR, decR01, Decoded.enc, Decoded.opd, Decoded.sp, Decoded.val, Decoded.src_code, h]
theorem lxor (d : Nat) (k : Bool) (a : Src) (b : Src) : Statement (.lxor d k a b) := by
  refine word _ _ rfl (fun h => ?_) (fun h => ?_)
  · have := toNat_lt k; have := a.code_lt; have := b.code_lt; simp only [Form.fits]; simp [Instr.wf] at h; grind
  · simp [Instr.wf] at h; simp [decForm, decR, decR01, Decoded.enc, Decoded.opd, Decoded.sp, Decoded.val, Decoded.src_code, h]
theorem shl (d : Nat) (k : Bool) (a : Src) (b : Src) : Statement (.shl d k a b) := by
  refine word _ _ rfl (fun h => ?_) (fun h => ?_)
  · have := toNat_lt k; have := a.code_lt; have := b.code_lt; simp only [Form.fits]; simp [Instr.wf] at h; grind
  · simp [Instr.wf] at h; simp [decForm, decR, decR01, Decoded.enc, Decoded.opd, Decoded.sp, Decoded.val, Decoded.src_code, h]
theorem shr (d : Nat) (k : Bool) (a : Src) (b : Src) : Statement (.shr d k a b) := by
  refine word _ _ rfl (fun h => ?_) (fun h => ?_)
  · have := toNat_lt k; have := a.code_lt; have := b.code_lt; simp only [Form.fits]; simp [Instr.wf] at h; grind
  · simp [Instr.wf] at h; simp [decForm, decR, decR01, Decoded.enc, Decoded.opd, Decoded.sp, Decoded.val, Decoded.src_code, h]
theorem sar (d : Nat) (k : Bool) (a : Src) (b : Src) : Statement (.sar d k a b) := by
  refine word _ _ rfl (fun h => ?_) (fun h => ?_)
  · have := toNat_lt k; have := a.code_lt; have := b.code_lt; simp only [Form.fits]; simp [Instr.wf] at h; grind
  · simp [Instr.wf] at h; simp [decForm, decR, decR01, Decoded.enc, Decoded.opd, Decoded.sp, Decoded.val, Decoded.src_code, h]
theorem iaddc (d : Nat) (k : Bool) (a : Src) (b : Src) : Statement (.iaddc d k a b) := by
  refine word _ _ rfl (fun h => ?_) (fun h => ?_)
  · have := toNat_lt k; have := a.code_lt; have := b.code_lt; simp only [Form.fits]; simp [Instr.wf] at h; grind
  · simp [Instr.wf] at h; simp [decForm, decR, decR01, Decoded.enc, Decoded.opd, Decoded.sp, Decoded.val, Decoded.src_code, h]
theorem mov (d : Nat) (k : Bool) (a : Src) : Statement (.mov d k a) := by
  refine word _ _ rfl (fun h => ?_) (fun h => ?_)
  · have := toNat_lt k; have := a.code_lt; simp only [Form.fits]; simp [Instr.wf] at h; grind
  · simp [Instr.wf] at h; simp [decForm, decR, decR02, Decoded.enc, Decoded.opd, Decoded.sp, Decoded.val, Decoded.src_code, h]
theorem lnot (d : Nat) (k : Bool) (a : Src) : Statement (.lnot d k a) := by
  refine word _ _ rfl (fun h => ?_) (fun h => ?_)
  · have := toNat_lt k; have := a.code_lt; simp only [Form.fits]; simp [Instr.wf] at h; grind
  · simp [Instr.wf] at h; simp [decForm, decR, decR02, Decoded.enc, Decoded.opd, Decoded.sp, Decoded.val, Decoded.src_code, h]
theorem ineg (d : Nat) (k : Bool) (a : Src) : Statement (.ineg d k a) := by
  refine word _ _ rfl (fun h => ?_) (fun h => ?_)
  · have := toNat_lt k; have := a.code_lt; simp only [Form.fits]; simp [Instr.wf] at h; grind
  · simp [Instr.wf] at h; simp [decForm, decR, decR02, Decoded.enc, Decoded.opd, Decoded.sp, Decoded.val, Decoded.src_code, h]
theorem iabs (d : Nat) (k : Bool) (a : Src) : Statement (.iabs d k a) := by
  refine word _ _ rfl (fun h => ?_) (fun h => ?_)
  · have := toNat_lt k; have := a.code_lt; simp only [Form.fits]; simp [Instr.wf] at h; grind
  · simp [Instr.wf] at h; simp [decForm, decR, decR02, Decoded.enc, Decoded.opd, Decoded.sp, Decoded.val, Decoded.src_code, h]
theorem clz (d : Nat) (k : Bool) (a : Src) : Statement (.clz d k a) := by
  refine word _ _ rfl (fun h => ?_) (fun h => ?_)
  · have := toNat_lt k; have := a.code_lt; simp only [Form.fits]; simp [Instr.wf] at h; grind
  · simp [Instr.wf] at h; simp [decForm, decR, decR02, Decoded.enc, Decoded.opd, Decoded.sp, Decoded.val, Decoded.src_code, h]
theorem popc (d : Nat) (k : Bool) (a : Src) : Statement (.popc d k a) := by
  refine word _ _ rfl (fun h => ?_) (fun h => ?_)
  · have := toNat_lt k; have := a.code_lt; simp only [Form.fits]; simp [Instr.wf] at h; grind
  · simp [Instr.wf] at h; simp [decForm, decR, decR02, Decoded.enc, Decoded.opd, Decoded.sp, Decoded.val, Decoded.src_code, h]
theorem brev (d : Nat) (k : Bool) (a : Src) : Statement (.brev d k a) := by
  refine word _ _ rfl (fun h => ?_) (fun h => ?_)
  · have := toNat_lt k; have := a.code_lt; simp only [Form.fits]; simp [Instr.wf] at h; grind
  · simp [Instr.wf] at h; simp [decForm, decR, decR02, Decoded.enc, Decoded.opd, Decoded.sp, Decoded.val, Decoded.src_code, h]
theorem fabs (d : Nat) (k : Bool) (a : Src) : Statement (.fabs d k a) := by
  refine word _ _ rfl (fun h => ?_) (fun h => ?_)
  · have := toNat_lt k; have := a.code_lt; simp only [Form.fits]; simp [Instr.wf] at h; grind
  · simp [Instr.wf] at h; simp [decForm, decR, decR02, Decoded.enc, Decoded.opd, Decoded.sp, Decoded.val, Decoded.src_code, h]
theorem fneg (d : Nat) (k : Bool) (a : Src) : Statement (.fneg d k a) := by
  refine word _ _ rfl (fun h => ?_) (fun h => ?_)
  · have := toNat_lt k; have := a.code_lt; simp only [Form.fits]; simp [Instr.wf] at h; grind
  · simp [Instr.wf] at h; simp [decForm, decR, decR02, Decoded.enc, Decoded.opd, Decoded.sp, Decoded.val, Decoded.src_code, h]
theorem frcp (d : Nat) (k : Bool) (a : Src) : Statement (.frcp d k a) := by
  refine word _ _ rfl (fun h => ?_) (fun h => ?_)
  · have := toNat_lt k; have := a.code_lt; simp only [Form.fits]; simp [Instr.wf] at h; grind
  · simp [Instr.wf] at h; simp [decForm, decR, decR02, Decoded.enc, Decoded.opd, Decoded.sp, Decoded.val, Decoded.src_code, h]
theorem frsq (d : Nat) (k : Bool) (a : Src) : Statement (.frsq d k a) := by
  refine word _ _ rfl (fun h => ?_) (fun h => ?_)
  · have := toNat_lt k; have := a.code_lt; simp only [Form.fits]; simp [Instr.wf] at h; grind
  · simp [Instr.wf] at h; simp [decForm, decR, decR02, Decoded.enc, Decoded.opd, Decoded.sp, Decoded.val, Decoded.src_code, h]
theorem fsqrt (d : Nat) (k : Bool) (a : Src) : Statement (.fsqrt d k a) := by
  refine word _ _ rfl (fun h => ?_) (fun h => ?_)
  · have := toNat_lt k; have := a.code_lt; simp only [Form.fits]; simp [Instr.wf] at h; grind
  · simp [Instr.wf] at h; simp [decForm, decR, decR02, Decoded.enc, Decoded.opd, Decoded.sp, Decoded.val, Decoded.src_code, h]
theorem fexp2 (d : Nat) (k : Bool) (a : Src) : Statement (.fexp2 d k a) := by
  refine word _ _ rfl (fun h => ?_) (fun h => ?_)
  · have := toNat_lt k; have := a.code_lt; simp only [Form.fits]; simp [Instr.wf] at h; grind
  · simp [Instr.wf] at h; simp [decForm, decR, decR02, Decoded.enc, Decoded.opd, Decoded.sp, Decoded.val, Decoded.src_code, h]
theorem flog2 (d : Nat) (k : Bool) (a : Src) : Statement (.flog2 d k a) := by
  refine word _ _ rfl (fun h => ?_) (fun h => ?_)
  · have := toNat_lt k; have := a.code_lt; simp only [Form.fits]; simp [Instr.wf] at h; grind
  · simp [Instr.wf] at h; simp [decForm, decR, decR02, Decoded.enc, Decoded.opd, Decoded.sp, Decoded.val, Decoded.src_code, h]
theorem fsin (d : Nat) (k : Bool) (a : Src) : Statement (.fsin d k a) := by
  refine word _ _ rfl (fun h => ?_) (fun h => ?_)
  · have := toNat_lt k; have := a.code_lt; simp only [Form.fits]; simp [Instr.wf] at h; grind
  · simp [Instr.wf] at h; simp [decForm, decR, decR02, Decoded.enc, Decoded.opd, Decoded.sp, Decoded.val, Decoded.src_code, h]
theorem fcos (d : Nat) (k : Bool) (a : Src) : Statement (.fcos d k a) := by
  refine word _ _ rfl (fun h => ?_) (fun h => ?_)
  · have := toNat_lt k; have := a.code_lt; simp only [Form.fits]; simp [Instr.wf] at h; grind
  · simp [Instr.wf] at h; simp [decForm, decR, decR02, Decoded.enc, Decoded.opd, Decoded.sp, Decoded.val, Decoded.src_code, h]
theorem fadd (d : Nat) (k : Bool) (a : Src) (b : Src) (rm : Rm) : Statement (.fadd d k a b rm) := by
  refine word _ _ rfl (fun h => ?_) (fun h => ?_)
  · have := toNat_lt k; have := a.code_lt; have := b.code_lt; have := rm.code_lt; simp only [Form.fits]; simp [Instr.wf] at h; grind
  · simp [Instr.wf] at h; simp [decForm, decR, decRnd, Decoded.enc, Decoded.opd, Decoded.sp, Decoded.val, Decoded.src_code, h]
theorem fsub (d : Nat) (k : Bool) (a : Src) (b : Src) (rm : Rm) : Statement (.fsub d k a b rm) := by
  refine word _ _ rfl (fun h => ?_) (fun h => ?_)
  · have := toNat_lt k; have := a.code_lt; have := b.code_lt; have := rm.code_lt; simp only [Form.fits]; simp [Instr.wf] at h; grind
  · simp [Instr.wf] at h; simp [decForm, decR, decRnd, Decoded.enc, Decoded.opd, Decoded.sp, Decoded.val, Decoded.src_code, h]
theorem fmul (d : Nat) (k : Bool) (a : Src) (b : Src) (rm : Rm) : Statement (.fmul d k a b rm) := by
  refine word _ _ rfl (fun h => ?_) (fun h => ?_)
  · have := toNat_lt k; have := a.code_lt; have := b.code_lt; have := rm.code_lt; simp only [Form.fits]; simp [Instr.wf] at h; grind
  · simp [Instr.wf] at h; simp [decForm, decR, decRnd, Decoded.enc, Decoded.opd, Decoded.sp, Decoded.val, Decoded.src_code, h]
theorem dadd (d : Nat) (k : Bool) (a : Src) (b : Src) (rm : Rm) : Statement (.dadd d k a b rm) := by
  refine word _ _ rfl (fun h => ?_) (fun h => ?_)
  · have := toNat_lt k; have := a.code_lt; have := b.code_lt; have := rm.code_lt; simp only [Form.fits]; simp [Instr.wf] at h; grind
  · simp [Instr.wf] at h; simp [decForm, decR, decRnd, Decoded.enc, Decoded.opd, Decoded.sp, Decoded.val, Decoded.src_code, h]
theorem dmul (d : Nat) (k : Bool) (a : Src) (b : Src) (rm : Rm) : Statement (.dmul d k a b rm) := by
  refine word _ _ rfl (fun h => ?_) (fun h => ?_)
  · have := toNat_lt k; have := a.code_lt; have := b.code_lt; have := rm.code_lt; simp only [Form.fits]; simp [Instr.wf] at h; grind
  · simp [Instr.wf] at h; simp [decForm, decR, decRnd, Decoded.enc, Decoded.opd, Decoded.sp, Decoded.val, Decoded.src_code, h]
theorem ffma (d : Nat) (k : Bool) (a : Src) (b : Src) (c : Nat) : Statement (.ffma d k a b c) := by
  refine word _ _ rfl (fun h => ?_) (fun h => ?_)
  · have := toNat_lt k; have := a.code_lt; have := b.code_lt; simp only [Form.fits]; simp [Instr.wf] at h; grind
  · simp [Instr.wf] at h; simp [decForm, decR, decF, Decoded.enc, Decoded.opd, Decoded.sp, Decoded.val, Decoded.src_code, h]
theorem dfma (d : Nat) (k : Bool) (a : Src) (b : Src) (c : Nat) : Statement (.dfma d k a b c) := by
  refine word _ _ rfl (fun h => ?_) (fun h => ?_)
  · have := toNat_lt k; have := a.code_lt; have := b.code_lt; simp only [Form.fits]; simp [Instr.wf] at h; grind
  · simp [Instr.wf] at h; simp [decForm, decR, decF, Decoded.enc, Decoded.opd, Decoded.sp, Decoded.val, Decoded.src_code, h]
theorem hfma2 (d : Nat) (k : Bool) (a : Src) (b : Src) (c : Nat) : Statement (.hfma2 d k a b c) := by
  refine word _ _ rfl (fun h => ?_) (fun h => ?_)
  · have := toNat_lt k; have := a.code_lt; have := b.code_lt; simp only [Form.fits]; simp [Instr.wf] at h; grind
  · simp [Instr.wf] at h; simp [decForm, decR, decF, Decoded.enc, Decoded.opd, Decoded.sp, Decoded.val, Decoded.src_code, h]
theorem imad (d : Nat) (k : Bool) (a : Src) (b : Src) (c : Nat) : Statement (.imad d k a b c) := by
  refine word _ _ rfl (fun h => ?_) (fun h => ?_)
  · have := toNat_lt k; have := a.code_lt; have := b.code_lt; simp only [Form.fits]; simp [Instr.wf] at h; grind
  · simp [Instr.wf] at h; simp [decForm, decR, decF, Decoded.enc, Decoded.opd, Decoded.sp, Decoded.val, Decoded.src_code, h]
theorem bfi (d : Nat) (k : Bool) (a : Src) (b : Src) (c : Nat) : Statement (.bfi d k a b c) := by
  refine word _ _ rfl (fun h => ?_) (fun h => ?_)
  · have := toNat_lt k; have := a.code_lt; have := b.code_lt; simp only [Form.fits]; simp [Instr.wf] at h; grind
  · simp [Instr.wf] at h; simp [decForm, decR, decF, Decoded.enc, Decoded.opd, Decoded.sp, Decoded.val, Decoded.src_code, h]
theorem fmin (d : Nat) (k : Bool) (a : Src) (b : Src) : Statement (.fmin d k a b) := by
  refine word _ _ rfl (fun h => ?_) (fun h => ?_)
  · have := toNat_lt k; have := a.code_lt; have := b.code_lt; simp only [Form.fits]; simp [Instr.wf] at h; grind
  · simp [Instr.wf] at h; simp [decForm, decR, decR0D, Decoded.enc, Decoded.opd, Decoded.sp, Decoded.val, Decoded.src_code, h]
theorem fmax (d : Nat) (k : Bool) (a : Src) (b : Src) : Statement (.fmax d k a b) := by
  refine word _ _ rfl (fun h => ?_) (fun h => ?_)
  · have := toNat_lt k; have := a.code_lt; have := b.code_lt; simp only [Form.fits]; simp [Instr.wf] at h; grind
  · simp [Instr.wf] at h; simp [decForm, decR, decR0D, Decoded.enc, Decoded.opd, Decoded.sp, Decoded.val, Decoded.src_code, h]
theorem fclass (d : Nat) (k : Bool) (a : Src) : Statement (.fclass d k a) := by
  refine word _ _ rfl (fun h => ?_) (fun h => ?_)
  · have := toNat_lt k; have := a.code_lt; simp only [Form.fits]; simp [Instr.wf] at h; grind
  · simp [Instr.wf] at h; simp [decForm, decR, decR0D, Decoded.enc, Decoded.opd, Decoded.sp, Decoded.val, Decoded.src_code, h]
theorem hadd2 (d : Nat) (k : Bool) (a : Src) (b : Src) : Statement (.hadd2 d k a b) := by
  refine word _ _ rfl (fun h => ?_) (fun h => ?_)
  · have := toNat_lt k; have := a.code_lt; have := b.code_lt; simp only [Form.fits]; simp [Instr.wf] at h; grind
  · simp [Instr.wf] at h; simp [decForm, decR, decR0D, Decoded.enc, Decoded.opd, Decoded.sp, Decoded.val, Decoded.src_code, h]
theorem fcmp (d : Nat) (a : Src) (b : Src) (cond : FCond) : Statement (.fcmp d a b cond) := by
  refine word _ _ rfl (fun h => ?_) (fun h => ?_)
  · have := a.code_lt; have := b.code_lt; have := cond.code_lt; simp only [Form.fits]; simp [Instr.wf] at h; grind
  · simp [Instr.wf] at h; simp [decForm, decR, decCmp, Decoded.enc, Decoded.opd, Decoded.sp, Decoded.val, Decoded.src_code, h]
theorem icmp (d : Nat) (a : Src) (b : Src) (cond : ICond) : Statement (.icmp d a b cond) := by
  refine word _ _ rfl (fun h => ?_) (fun h => ?_)
  · have := a.code_lt; have := b.code_lt; have := cond.code_lt; simp only [Form.fits]; simp [Instr.wf] at h; grind
  · simp [Instr.wf] at h; simp [decForm, decR, decCmp, Decoded.enc, Decoded.opd, Decoded.sp, Decoded.val, Decoded.src_code, h]
theorem cvt (d : Nat) (k : Bool) (a : Src) (dt : CvtTy) (st : CvtTy) (rm : Rm) : Statement (.cvt d k a dt st rm) := by
  refine word _ _ rfl (fun h => ?_) (fun h => ?_)
  · have := toNat_lt k; have := a.code_lt; have := dt.code_lt; have := st.code_lt; have := rm.code_lt; simp only [Form.fits]; simp [Instr.wf] at h; grind
  · simp [Instr.wf] at h; simp [decForm, decCV, Decoded.enc, Decoded.val, Decoded.src_code, Src.ofCode_code, h]
theorem cvtSat (d : Nat) (k : Bool) (a : Src) (dt : CvtTy) (st : CvtTy) (rm : Rm) : Statement (.cvtSat d k a dt st rm) := by
  refine word _ _ rfl (fun h => ?_) (fun h => ?_)
  · have := toNat_lt k; have := a.code_lt; have := dt.code_lt; have := st.code_lt; have := rm.code_lt; simp only [Form.fits]; simp [Instr.wf] at h; grind
  · simp [Instr.wf] at h; simp [decForm, decCV, Decoded.enc, Decoded.val, Decoded.src_code, Src.ofCode_code, h]
theorem sel (d : Nat) (k : Bool) (a : Src) (b : Src) (c : Nat) : Statement (.sel d k a b c) := by
  refine word _ _ rfl (fun h => ?_) (fun h => ?_)
  · have := toNat_lt k; have := a.code_lt; have := b.code_lt; simp only [Form.fits]; simp [Instr.wf] at h; grind
  · simp [Instr.wf] at h; simp [decForm, decR, decSelLeaBfx, Decoded.enc, Decoded.opd, Decoded.sp, Decoded.val, Decoded.src_code, h]
theorem lea (d : Nat) (k : Bool) (a : Src) (b : Src) (sh : Nat) : Statement (.lea d k a b sh) := by
  refine word _ _ rfl (fun h => ?_) (fun h => ?_)
  · have := toNat_lt k; have := a.code_lt; have := b.code_lt; simp only [Form.fits]; simp [Instr.wf] at h; grind
  · simp [Instr.wf] at h; simp [decForm, decR, decSelLeaBfx, Decoded.enc, Decoded.opd, Decoded.sp, Decoded.val, Decoded.src_code, h]
theorem bfx (d : Nat) (k : Bool) (a : Src) (b : Src) (sx : Bool) : Statement (.bfx d k a b sx) := by
  refine word _ _ rfl (fun h => ?_) (fun h => ?_)
  · have := toNat_lt k; have := a.code_lt; have := b.code_lt; have := toNat_lt sx; simp only [Form.fits]; simp [Instr.wf] at h; grind
  · simp [Instr.wf] at h; simp [decForm, decR, decSelLeaBfx, Decoded.enc, Decoded.opd, Decoded.sp, Decoded.val, Decoded.src_code, h]; have := toNat_lt sx; omega
theorem movi (d : Nat) (k : Bool) (imm : Nat) : Statement (.movi d k imm) := by
  refine word _ _ rfl (fun h => ?_) (fun h => ?_)
  · have := toNat_lt k; simp only [Form.fits]; simp [Instr.wf] at h; grind
  · simp [Instr.wf] at h; simp [decForm, decW, Decoded.enc, Decoded.opd, Decoded.sp, Decoded.val, h]
theorem movh (d : Nat) (k : Bool) (imm : Nat) : Statement (.movh d k imm) := by
  refine word _ _ rfl (fun h => ?_) (fun h => ?_)
  · have := toNat_lt k; simp only [Form.fits]; simp [Instr.wf] at h; grind
  · simp [Instr.wf] at h; simp [decForm, decW, Decoded.enc, Decoded.opd, Decoded.sp, Decoded.val, h]
theorem k2v (d : Nat) (k : Bool) (ka : Nat) : Statement (.k2v d k ka) := by
  refine word _ _ rfl (fun h => ?_) (fun h => ?_)
  · have := toNat_lt k; simp only [Form.fits]; simp [Instr.wf] at h; grind
  · simp [Instr.wf] at h; simp [decForm, decR, decR16, Decoded.enc, Decoded.opd, Decoded.sp, Decoded.val, h]
theorem v2k (kd : Nat) (a : Src) : Statement (.v2k kd a) := by
  refine word _ _ rfl (fun h => ?_) (fun h => ?_)
  · have := a.code_lt; simp only [Form.fits]; simp [Instr.wf] at h; grind
  · simp [Instr.wf] at h; simp [decForm, decR, decR16, Decoded.enc, Decoded.opd, Decoded.sp, Decoded.val, Decoded.src_code, h]
theorem pget (d : Nat) (k : Bool) : Statement (.pget d k) := by
  refine word _ _ rfl (fun h => ?_) (fun h => ?_)
  · have := toNat_lt k; simp only [Form.fits]; simp [Instr.wf] at h; grind
  · simp [Instr.wf] at h; simp [decForm, decR, decR16, Decoded.enc, Decoded.opd, Decoded.sp, Decoded.val, h]
theorem pset (a : Src) : Statement (.pset a) := by
  refine word _ _ rfl (fun h => ?_) (fun h => ?_)
  · have := a.code_lt; simp only [Form.fits]; simp [Instr.wf] at h; grind
  · simp [Instr.wf] at h; simp [decForm, decR, decR16, Decoded.enc, Decoded.opd, Decoded.sp, Decoded.val, Decoded.src_code, h]
theorem psetImm (n : Nat) : Statement (.psetImm n) := by
  refine word _ _ rfl (fun h => ?_) (fun h => ?_)
  · simp only [Form.fits]; simp [Instr.wf] at h; grind
  · simp [Instr.wf] at h; simp [decForm, decR, decR16, Decoded.enc, Decoded.opd, Decoded.sp, Decoded.val, h]
theorem mmovMM (md : Nat) (ma : Nat) : Statement (.mmovMM md ma) := by
  refine word _ _ rfl (fun h => ?_) (fun h => ?_)
  · simp only [Form.fits]; simp [Instr.wf] at h; grind
  · simp [Instr.wf] at h; simp [decForm, decR, decR16, Decoded.enc, Decoded.opd, Decoded.sp, Decoded.val, h]
theorem mmovMV (md : Nat) (a : Src) : Statement (.mmovMV md a) := by
  refine word _ _ rfl (fun h => ?_) (fun h => ?_)
  · have := a.code_lt; simp only [Form.fits]; simp [Instr.wf] at h; grind
  · simp [Instr.wf] at h; simp [decForm, decR, decR16, Decoded.enc, Decoded.opd, Decoded.sp, Decoded.val, Decoded.src_code, h]
theorem mmovVM (d : Nat) (k : Bool) (ma : Nat) : Statement (.mmovVM d k ma) := by
  refine word _ _ rfl (fun h => ?_) (fun h => ?_)
  · have := toNat_lt k; simp only [Form.fits]; simp [Instr.wf] at h; grind
  · simp [Instr.wf] at h; simp [decForm, decR, decR16, Decoded.enc, Decoded.opd, Decoded.sp, Decoded.val, h]
theorem mmovMK (md : Nat) (ka : Nat) : Statement (.mmovMK md ka) := by
  refine word _ _ rfl (fun h => ?_) (fun h => ?_)
  · simp only [Form.fits]; simp [Instr.wf] at h; grind
  · simp [Instr.wf] at h; simp [decForm, decR, decR16, Decoded.enc, Decoded.opd, Decoded.sp, Decoded.val, h]
theorem mmovKM (kd : Nat) (ma : Nat) : Statement (.mmovKM kd ma) := by
  refine word _ _ rfl (fun h => ?_) (fun h => ?_)
  · simp only [Form.fits]; simp [Instr.wf] at h; grind
  · simp [Instr.wf] at h; simp [decForm, decR, decR16, Decoded.enc, Decoded.opd, Decoded.sp, Decoded.val, h]
theorem mlogAnd (md : Nat) (ma : Nat) (mb : Nat) : Statement (.mlogAnd md ma mb) := by
  refine word _ _ rfl (fun h => ?_) (fun h => ?_)
  · simp only [Form.fits]; simp [Instr.wf] at h; grind
  · simp [Instr.wf] at h; simp [decForm, decR, decR16, Decoded.enc, Decoded.opd, Decoded.sp, Decoded.val, h]
theorem mlogOr (md : Nat) (ma : Nat) (mb : Nat) : Statement (.mlogOr md ma mb) := by
  refine word _ _ rfl (fun h => ?_) (fun h => ?_)
  · simp only [Form.fits]; simp [Instr.wf] at h; grind
  · simp [Instr.wf] at h; simp [decForm, decR, decR16, Decoded.enc, Decoded.opd, Decoded.sp, Decoded.val, h]
theorem mlogXor (md : Nat) (ma : Nat) (mb : Nat) : Statement (.mlogXor md ma mb) := by
  refine word _ _ rfl (fun h => ?_) (fun h => ?_)
  · simp only [Form.fits]; simp [Instr.wf] at h; grind
  · simp [Instr.wf] at h; simp [decForm, decR, decR16, Decoded.enc, Decoded.opd, Decoded.sp, Decoded.val, h]
theorem mlogAndn (md : Nat) (ma : Nat) (mb : Nat) : Statement (.mlogAndn md ma mb) := by
  refine word _ _ rfl (fun h => ?_) (fun h => ?_)
  · simp only [Form.fits]; simp [Instr.wf] at h; grind
  · simp [Instr.wf] at h; simp [decForm, decR, decR16, Decoded.enc, Decoded.opd, Decoded.sp, Decoded.val, h]
theorem shfl (d : Nat) (k : Bool) (a : Src) (b : Src) (mode : Nat) : Statement (.shfl d k a b mode) := by
  refine word _ _ rfl (fun h => ?_) (fun h => ?_)
  · have := toNat_lt k; have := a.code_lt; have := b.code_lt; simp only [Form.fits]; simp [Instr.wf] at h; grind
  · simp [Instr.wf] at h; have : mode = 0 ∨ mode = 1 ∨ mode = 2 ∨ mode = 3 := by omega
    rcases this with rfl | rfl | rfl | rfl <;> simp [decForm, decR, decR17, Decoded.src_code, h]
theorem voteAny (md : Nat) (ma : Nat) : Statement (.voteAny md ma) := by
  refine word _ _ rfl (fun h => ?_) (fun h => ?_)
  · simp only [Form.fits]; simp [Instr.wf] at h; grind
  · simp [Instr.wf] at h; simp [decForm, decR, decR17, Decoded.enc, Decoded.opd, Decoded.sp, Decoded.val, h]
theorem voteAll (md : Nat) (ma : Nat) : Statement (.voteAll md ma) := by
  refine word _ _ rfl (fun h => ?_) (fun h => ?_)
  · simp only [Form.fits]; simp [Instr.wf] at h; grind
  · simp [Instr.wf] at h; simp [decForm, decR, decR17, Decoded.enc, Decoded.opd, Decoded.sp, Decoded.val, h]
theorem voteBallot (kd : Nat) (ma : Nat) : Statement (.voteBallot kd ma) := by
  refine word _ _ rfl (fun h => ?_) (fun h => ?_)
  · simp only [Form.fits]; simp [Instr.wf] at h; grind
  · simp [Instr.wf] at h; simp [decForm, decR, decR17, Decoded.enc, Decoded.opd, Decoded.sp, Decoded.val, h]
theorem rdxAdd (kd : Nat) (a : Src) : Statement (.rdxAdd kd a) := by
  refine word _ _ rfl (fun h => ?_) (fun h => ?_)
  · have := a.code_lt; simp only [Form.fits]; simp [Instr.wf] at h; grind
  · simp [Instr.wf] at h; simp [decForm, decR, decR17, Decoded.enc, Decoded.opd, Decoded.sp, Decoded.val, Decoded.src_code, h]
theorem rdxMin (kd : Nat) (a : Src) : Statement (.rdxMin kd a) := by
  refine word _ _ rfl (fun h => ?_) (fun h => ?_)
  · have := a.code_lt; simp only [Form.fits]; simp [Instr.wf] at h; grind
  · simp [Instr.wf] at h; simp [decForm, decR, decR17, Decoded.enc, Decoded.opd, Decoded.sp, Decoded.val, Decoded.src_code, h]
theorem rdxMax (kd : Nat) (a : Src) : Statement (.rdxMax kd a) := by
  refine word _ _ rfl (fun h => ?_) (fun h => ?_)
  · have := a.code_lt; simp only [Form.fits]; simp [Instr.wf] at h; grind
  · simp [Instr.wf] at h; simp [decForm, decR, decR17, Decoded.enc, Decoded.opd, Decoded.sp, Decoded.val, Decoded.src_code, h]
theorem rdxFadd (kd : Nat) (a : Src) : Statement (.rdxFadd kd a) := by
  refine word _ _ rfl (fun h => ?_) (fun h => ?_)
  · have := a.code_lt; simp only [Form.fits]; simp [Instr.wf] at h; grind
  · simp [Instr.wf] at h; simp [decForm, decR, decR17, Decoded.enc, Decoded.opd, Decoded.sp, Decoded.val, Decoded.src_code, h]
theorem qbcast (d : Nat) (k : Bool) (a : Src) (n : Nat) : Statement (.qbcast d k a n) := by
  refine word _ _ rfl (fun h => ?_) (fun h => ?_)
  · have := toNat_lt k; have := a.code_lt; simp only [Form.fits]; simp [Instr.wf] at h; grind
  · simp [Instr.wf] at h; simp [decForm, decR, decR17, Decoded.enc, Decoded.opd, Decoded.sp, Decoded.val, Decoded.src_code, h]
theorem qswap (d : Nat) (k : Bool) (a : Src) (n : Nat) : Statement (.qswap d k a n) := by
  refine word _ _ rfl (fun h => ?_) (fun h => ?_)
  · have := toNat_lt k; have := a.code_lt; simp only [Form.fits]; simp [Instr.wf] at h; grind
  · simp [Instr.wf] at h; simp [decForm, decR, decR17, Decoded.enc, Decoded.opd, Decoded.sp, Decoded.val, Decoded.src_code, h]
theorem qfill (d : Nat) (k : Bool) (a : Src) : Statement (.qfill d k a) := by
  refine word _ _ rfl (fun h => ?_) (fun h => ?_)
  · have := toNat_lt k; have := a.code_lt; simp only [Form.fits]; simp [Instr.wf] at h; grind
  · simp [Instr.wf] at h; simp [decForm, decR, decR17, Decoded.enc, Decoded.opd, Decoded.sp, Decoded.val, Decoded.src_code, h]
theorem amul (d : Nat) (a : Nat) (b : Nat) (slot : Nat) : Statement (.amul d a b slot) := by
  refine word _ _ rfl (fun h => ?_) (fun h => ?_)
  · simp only [Form.fits]; simp [Instr.wf] at h; grind
  · simp [Instr.wf] at h; simp [decForm, decAL, Decoded.enc, Decoded.opd, Decoded.sp, Decoded.val, h]
theorem amad (d : Nat) (a : Nat) (b : Nat) (slot : Nat) : Statement (.amad d a b slot) := by
  refine word _ _ rfl (fun h => ?_) (fun h => ?_)
  · simp only [Form.fits]; simp [Instr.wf] at h; grind
  · simp [Instr.wf] at h; simp [decForm, decAL, Decoded.enc, Decoded.opd, Decoded.sp, Decoded.val, h]
theorem aconj (d : Nat) (a : Nat) (slot : Nat) : Statement (.aconj d a slot) := by
  refine word _ _ rfl (fun h => ?_) (fun h => ?_)
  · simp only [Form.fits]; simp [Instr.wf] at h; grind
  · simp [Instr.wf] at h; simp [decForm, decAL, Decoded.enc, Decoded.opd, Decoded.sp, Decoded.val, h]
theorem anorm (d : Nat) (a : Nat) (slot : Nat) : Statement (.anorm d a slot) := by
  refine word _ _ rfl (fun h => ?_) (fun h => ?_)
  · simp only [Form.fits]; simp [Instr.wf] at h; grind
  · simp [Instr.wf] at h; simp [decForm, decAL, Decoded.enc, Decoded.opd, Decoded.sp, Decoded.val, h]
theorem sread (reg : Nat) (toK : Bool) (num : Nat) : Statement (.sread reg toK num) := by
  refine word _ _ rfl (fun h => ?_) (fun h => ?_)
  · have := toNat_lt toK; simp only [Form.fits]; simp [Instr.wf] at h; grind
  · simp [Instr.wf] at h; simp [decForm, decS, Decoded.enc, Decoded.opd, Decoded.sp, Decoded.val, h]
theorem swrite (reg : Nat) (fromK : Bool) (num : Nat) : Statement (.swrite reg fromK num) := by
  refine word _ _ rfl (fun h => ?_) (fun h => ?_)
  · have := toNat_lt fromK; simp only [Form.fits]; simp [Instr.wf] at h; grind
  · simp [Instr.wf] at h; simp [decForm, decS, Decoded.enc, Decoded.opd, Decoded.sp, Decoded.val, h]
theorem kadd (kd : Nat) (ka : Nat) (kb : Nat) : Statement (.kadd kd ka kb) := by
  refine word _ _ rfl (fun h => ?_) (fun h => ?_)
  · simp only [Form.fits]; simp [Instr.wf] at h; grind
  · simp [Instr.wf] at h; simp [decForm, decR, decUniform, Decoded.enc, Decoded.opd, Decoded.sp, Decoded.val, h]
theorem ksub (kd : Nat) (ka : Nat) (kb : Nat) : Statement (.ksub kd ka kb) := by
  refine word _ _ rfl (fun h => ?_) (fun h => ?_)
  · simp only [Form.fits]; simp [Instr.wf] at h; grind
  · simp [Instr.wf] at h; simp [decForm, decR, decUniform, Decoded.enc, Decoded.opd, Decoded.sp, Decoded.val, h]
theorem kmul (kd : Nat) (ka : Nat) (kb : Nat) : Statement (.kmul kd ka kb) := by
  refine word _ _ rfl (fun h => ?_) (fun h => ?_)
  · simp only [Form.fits]; simp [Instr.wf] at h; grind
  · simp [Instr.wf] at h; simp [decForm, decR, decUniform, Decoded.enc, Decoded.opd, Decoded.sp, Decoded.val, h]
theorem kshf (kd : Nat) (ka : Nat) (kb : Nat) : Statement (.kshf kd ka kb) := by
  refine word _ _ rfl (fun h => ?_) (fun h => ?_)
  · simp only [Form.fits]; simp [Instr.wf] at h; grind
  · simp [Instr.wf] at h; simp [decForm, decR, decUniform, Decoded.enc, Decoded.opd, Decoded.sp, Decoded.val, h]
theorem kmov (kd : Nat) (ka : Nat) : Statement (.kmov kd ka) := by
  refine word _ _ rfl (fun h => ?_) (fun h => ?_)
  · simp only [Form.fits]; simp [Instr.wf] at h; grind
  · simp [Instr.wf] at h; simp [decForm, decR, decUniform, Decoded.enc, Decoded.opd, Decoded.sp, Decoded.val, h]
theorem klogAnd (kd : Nat) (ka : Nat) (kb : Nat) : Statement (.klogAnd kd ka kb) := by
  refine word _ _ rfl (fun h => ?_) (fun h => ?_)
  · simp only [Form.fits]; simp [Instr.wf] at h; grind
  · simp [Instr.wf] at h; simp [decForm, decR, decUniform, Decoded.enc, Decoded.opd, Decoded.sp, Decoded.val, h]
theorem klogOr (kd : Nat) (ka : Nat) (kb : Nat) : Statement (.klogOr kd ka kb) := by
  refine word _ _ rfl (fun h => ?_) (fun h => ?_)
  · simp only [Form.fits]; simp [Instr.wf] at h; grind
  · simp [Instr.wf] at h; simp [decForm, decR, decUniform, Decoded.enc, Decoded.opd, Decoded.sp, Decoded.val, h]
theorem klogXor (kd : Nat) (ka : Nat) (kb : Nat) : Statement (.klogXor kd ka kb) := by
  refine word _ _ rfl (fun h => ?_) (fun h => ?_)
  · simp only [Form.fits]; simp [Instr.wf] at h; grind
  · simp [Instr.wf] at h; simp [decForm, decR, decUniform, Decoded.enc, Decoded.opd, Decoded.sp, Decoded.val, h]
theorem klogAndn (kd : Nat) (ka : Nat) (kb : Nat) : Statement (.klogAndn kd ka kb) := by
  refine word _ _ rfl (fun h => ?_) (fun h => ?_)
  · simp only [Form.fits]; simp [Instr.wf] at h; grind
  · simp [Instr.wf] at h; simp [decForm, decR, decUniform, Decoded.enc, Decoded.opd, Decoded.sp, Decoded.val, h]
theorem kcmp (kd : Nat) (ka : Nat) (kb : Nat) (cond : ICond) : Statement (.kcmp kd ka kb cond) := by
  refine word _ _ rfl (fun h => ?_) (fun h => ?_)
  · have := cond.code_lt; simp only [Form.fits]; simp [Instr.wf] at h; grind
  · simp [Instr.wf] at h; simp [decForm, decR, decUniform, Decoded.enc, Decoded.opd, Decoded.sp, Decoded.val, h]
theorem kmovi (kd : Nat) (h : Nat) (imm : Nat) : Statement (.kmovi kd h imm) := by
  refine word _ _ rfl (fun h => ?_) (fun h => ?_)
  · simp only [Form.fits]; simp [Instr.wf] at h; grind
  · simp [Instr.wf] at h; simp [decForm, decW, Decoded.enc, Decoded.opd, Decoded.sp, Decoded.val, h]
theorem ld (data : Nat) (bk : Bool) (base : Nat) (sz : Size) (pol : Nat) (off8 : Nat) : Statement (.ld data bk base sz pol off8) := by
  refine word _ _ rfl (fun h => ?_) (fun h => ?_)
  · have := toNat_lt bk; have := sz.code_lt; simp only [Form.fits]; simp [Instr.wf] at h; grind
  · simp [Instr.wf] at h; simp [decForm, decMI, Decoded.enc, Decoded.opd, Decoded.sp, Decoded.val, h]
theorem ldMs (data : Nat) (kb : Nat) (vx : Nat) (sz : Size) (acq : LdOrd) (nol1 : Bool) : Statement (.ldMs data kb vx sz acq nol1) := by
  refine word _ _ rfl (fun h => ?_) (fun h => ?_)
  · have := sz.code_lt; have := acq.bits_lt; have := toNat_lt nol1; simp only [Form.fits]; simp [Instr.wf] at h; grind
  · simp [Instr.wf] at h; simp [decForm, decMS, Decoded.enc, Decoded.opd, Decoded.sp, Decoded.val, h]
theorem st (data : Nat) (bk : Bool) (base : Nat) (sz : Size) (pol : Nat) (off8 : Nat) : Statement (.st data bk base sz pol off8) := by
  refine word _ _ rfl (fun h => ?_) (fun h => ?_)
  · have := toNat_lt bk; have := sz.code_lt; simp only [Form.fits]; simp [Instr.wf] at h; grind
  · simp [Instr.wf] at h; simp [decForm, decMI, Decoded.enc, Decoded.opd, Decoded.sp, Decoded.val, h]
theorem stMs (data : Nat) (kb : Nat) (vx : Nat) (sz : Size) (ord : StOrd) : Statement (.stMs data kb vx sz ord) := by
  refine word _ _ rfl (fun h => ?_) (fun h => ?_)
  · have := sz.code_lt; have := ord.bits_lt; simp only [Form.fits]; simp [Instr.wf] at h; grind
  · simp [Instr.wf] at h; simp [decForm, decMS, Decoded.enc, Decoded.opd, Decoded.sp, Decoded.val, StOrd.ofBits_code, h]
theorem ldsp (data : Nat) (partner : Bool) (base : Nat) (sz : Size) (off8 : Nat) : Statement (.ldsp data partner base sz off8) := by
  refine word _ _ rfl (fun h => ?_) (fun h => ?_)
  · have := toNat_lt partner; have := sz.code_lt; simp only [Form.fits]; simp [Instr.wf] at h; grind
  · simp [Instr.wf] at h; simp [decForm, decMI, Decoded.enc, Decoded.opd, Decoded.sp, Decoded.val, h]
theorem stsp (data : Nat) (partner : Bool) (base : Nat) (sz : Size) (off8 : Nat) : Statement (.stsp data partner base sz off8) := by
  refine word _ _ rfl (fun h => ?_) (fun h => ?_)
  · have := toNat_lt partner; have := sz.code_lt; simp only [Form.fits]; simp [Instr.wf] at h; grind
  · simp [Instr.wf] at h; simp [decForm, decMI, Decoded.enc, Decoded.opd, Decoded.sp, Decoded.val, h]
theorem kld (kd : Nat) (kb : Nat) (sz : Size) (pol : Nat) (off8 : Nat) : Statement (.kld kd kb sz pol off8) := by
  refine word _ _ rfl (fun h => ?_) (fun h => ?_)
  · have := sz.code_lt; simp only [Form.fits]; simp [Instr.wf] at h; grind
  · simp [Instr.wf] at h; simp [decForm, decMI, Decoded.enc, Decoded.opd, Decoded.sp, Decoded.val, h]
theorem kst (ks : Nat) (kb : Nat) (sz : Size) (pol : Nat) (off8 : Nat) : Statement (.kst ks kb sz pol off8) := by
  refine word _ _ rfl (fun h => ?_) (fun h => ?_)
  · have := sz.code_lt; simp only [Form.fits]; simp [Instr.wf] at h; grind
  · simp [Instr.wf] at h; simp [decForm, decMI, Decoded.enc, Decoded.opd, Decoded.sp, Decoded.val, h]
theorem atom (d : Nat) (addr : Nat) (data : Nat) (sc : Scope) (op : AtomOp) : Statement (.atom d addr data sc op) := by
  refine word _ _ rfl (fun h => ?_) (fun h => ?_)
  · have := sc.code_lt; have := op.code_lt; simp only [Form.fits]; simp [Instr.wf] at h; grind
  · simp [Instr.wf] at h; simp [decForm, decAT, Decoded.enc, Decoded.opd, Decoded.sp, Decoded.val, h]
theorem cas (d : Nat) (addr : Nat) (data : Nat) (sc : Scope) (f : Nat) (w64 : Bool) : Statement (.cas d addr data sc f w64) := by
  refine word _ _ rfl (fun h => ?_) (fun h => ?_)
  · have := sc.code_lt; have := toNat_lt w64; simp only [Form.fits]; simp [Instr.wf] at h; grind
  · simp [Instr.wf] at h; simp [decForm, decAT, Decoded.enc, Decoded.opd, Decoded.sp, Decoded.val, h]; cases w64 <;> simp [kb] <;> omega
theorem red (det : Bool) (addr : Nat) (data : Nat) (sc : Scope) (op : AtomOp) : Statement (.red det addr data sc op) := by
  refine word _ _ rfl (fun h => ?_) (fun h => ?_)
  · have := toNat_lt det; have := sc.code_lt; have := op.code_lt; simp only [Form.fits]; simp [Instr.wf] at h; grind
  · simp [Instr.wf] at h; simp [decForm, decAT, Decoded.enc, Decoded.opd, Decoded.sp, Decoded.val, h]; have := toNat_lt det; omega
theorem pref (cnt : Nat) (kb : Nat) (vx : Nat) (tier : Nat) (bo : Nat) (bound : Bool) : Statement (.pref cnt kb vx tier bo bound) := by
  refine word _ _ rfl (fun h => ?_) (fun h => ?_)
  · have := toNat_lt bound; simp only [Form.fits]; simp [Instr.wf] at h; grind
  · simp [Instr.wf] at h; simp [decForm, decPF, Decoded.enc, Decoded.opd, Decoded.sp, Decoded.val, h]
theorem wput (d : Nat) (a : Nat) (sm : Nat) : Statement (.wput d a sm) := by
  refine word _ _ rfl (fun h => ?_) (fun h => ?_)
  · simp only [Form.fits]; simp [Instr.wf] at h; grind
  · simp [Instr.wf] at h; simp [decForm, decSW, Decoded.enc, Decoded.opd, Decoded.sp, Decoded.val, h]
theorem wget (d : Nat) (a : Nat) (b : Nat) : Statement (.wget d a b) := by
  refine word _ _ rfl (fun h => ?_) (fun h => ?_)
  · simp only [Form.fits]; simp [Instr.wf] at h; grind
  · simp [Instr.wf] at h; simp [decForm, decSW, Decoded.enc, Decoded.opd, Decoded.sp, Decoded.val, h]
theorem wname (d : Nat) (a : Nat) (sm : Nat) : Statement (.wname d a sm) := by
  refine word _ _ rfl (fun h => ?_) (fun h => ?_)
  · simp only [Form.fits]; simp [Instr.wf] at h; grind
  · simp [Instr.wf] at h; simp [decForm, decSW, Decoded.enc, Decoded.opd, Decoded.sp, Decoded.val, h]
theorem wrefInc (a : Nat) : Statement (.wrefInc a) := by
  refine word _ _ rfl (fun h => ?_) (fun h => ?_)
  · simp only [Form.fits]; simp [Instr.wf] at h; grind
  · simp [Instr.wf] at h; simp [decForm, decSW, Decoded.enc, Decoded.opd, Decoded.sp, Decoded.val, h]
theorem wrefDec (a : Nat) : Statement (.wrefDec a) := by
  refine word _ _ rfl (fun h => ?_) (fun h => ?_)
  · simp only [Form.fits]; simp [Instr.wf] at h; grind
  · simp [Instr.wf] at h; simp [decForm, decSW, Decoded.enc, Decoded.opd, Decoded.sp, Decoded.val, h]
theorem wswap (d : Nat) (a : Nat) (b : Nat) (sm : Nat) : Statement (.wswap d a b sm) := by
  refine word _ _ rfl (fun h => ?_) (fun h => ?_)
  · simp only [Form.fits]; simp [Instr.wf] at h; grind
  · simp [Instr.wf] at h; simp [decForm, decSW, Decoded.enc, Decoded.opd, Decoded.sp, Decoded.val, h]
theorem wcopy (a : Nat) (b : Nat) : Statement (.wcopy a b) := by
  refine word _ _ rfl (fun h => ?_) (fun h => ?_)
  · simp only [Form.fits]; simp [Instr.wf] at h; grind
  · simp [Instr.wf] at h; simp [decForm, decSW, Decoded.enc, Decoded.opd, Decoded.sp, Decoded.val, h]
theorem waitcmp (cond : ICond) (sc : Scope) (ka : Nat) (kb : Nat) : Statement (.waitcmp cond sc ka kb) := by
  refine word _ _ rfl (fun h => ?_) (fun h => ?_)
  · have := cond.code_lt; have := sc.code_lt; simp only [Form.fits]; simp [Instr.wf] at h; grind
  · simp [Instr.wf] at h; simp [decForm, decR, decWaitcmp, Decoded.enc, Decoded.opd, Decoded.sp, Decoded.val, h]
theorem dqpush (kv : Nat) (km : Nat) : Statement (.dqpush kv km) := by
  refine word _ _ rfl (fun h => ?_) (fun h => ?_)
  · simp only [Form.fits]; simp [Instr.wf] at h; grind
  · simp [Instr.wf] at h; simp [decForm, decR, decR2E, Decoded.enc, Decoded.opd, Decoded.sp, Decoded.val, h]
theorem dqpop (kd : Nat) : Statement (.dqpop kd) := by
  refine word _ _ rfl (fun h => ?_) (fun h => ?_)
  · simp only [Form.fits]; simp [Instr.wf] at h; grind
  · simp [Instr.wf] at h; simp [decForm, decR, decR2E, Decoded.enc, Decoded.opd, Decoded.sp, Decoded.val, h]
theorem tqpush (kq : Nat) (ke : Nat) : Statement (.tqpush kq ke) := by
  refine word _ _ rfl (fun h => ?_) (fun h => ?_)
  · simp only [Form.fits]; simp [Instr.wf] at h; grind
  · simp [Instr.wf] at h; simp [decForm, decR, decR2E, Decoded.enc, Decoded.opd, Decoded.sp, Decoded.val, h]
theorem tqpop (kd : Nat) (kq : Nat) : Statement (.tqpop kd kq) := by
  refine word _ _ rfl (fun h => ?_) (fun h => ?_)
  · simp only [Form.fits]; simp [Instr.wf] at h; grind
  · simp [Instr.wf] at h; simp [decForm, decR, decR2E, Decoded.enc, Decoded.opd, Decoded.sp, Decoded.val, h]
theorem srput (kr : Nat) (ks : Nat) (sc : Scope) : Statement (.srput kr ks sc) := by
  refine word _ _ rfl (fun h => ?_) (fun h => ?_)
  · have := sc.code_lt; simp only [Form.fits]; simp [Instr.wf] at h; grind
  · simp [Instr.wf] at h; simp [decForm, decR, decR2E, Decoded.enc, Decoded.opd, Decoded.sp, Decoded.val, h]
theorem srwait (kr : Nat) (ks : Nat) : Statement (.srwait kr ks) := by
  refine word _ _ rfl (fun h => ?_) (fun h => ?_)
  · simp only [Form.fits]; simp [Instr.wf] at h; grind
  · simp [Instr.wf] at h; simp [decForm, decR, decR2E, Decoded.enc, Decoded.opd, Decoded.sp, Decoded.val, h]
theorem cwait (kc : Nat) (kt : Nat) : Statement (.cwait kc kt) := by
  refine word _ _ rfl (fun h => ?_) (fun h => ?_)
  · simp only [Form.fits]; simp [Instr.wf] at h; grind
  · simp [Instr.wf] at h; simp [decForm, decR, decR2E, Decoded.enc, Decoded.opd, Decoded.sp, Decoded.val, h]
theorem boarr (kb : Nat) : Statement (.boarr kb) := by
  refine word _ _ rfl (fun h => ?_) (fun h => ?_)
  · simp only [Form.fits]; simp [Instr.wf] at h; grind
  · simp [Instr.wf] at h; simp [decForm, decR, decR2E, Decoded.enc, Decoded.opd, Decoded.sp, Decoded.val, h]
theorem bowait (kb : Nat) : Statement (.bowait kb) := by
  refine word _ _ rfl (fun h => ?_) (fun h => ?_)
  · simp only [Form.fits]; simp [Instr.wf] at h; grind
  · simp [Instr.wf] at h; simp [decForm, decR, decR2E, Decoded.enc, Decoded.opd, Decoded.sp, Decoded.val, h]
theorem dcopy (kc : Nat) (ks : Nat) (kx : Nat) : Statement (.dcopy kc ks kx) := by
  refine word _ _ rfl (fun h => ?_) (fun h => ?_)
  · simp only [Form.fits]; simp [Instr.wf] at h; grind
  · simp [Instr.wf] at h; simp [decForm, decR, decR2F, Decoded.enc, Decoded.opd, Decoded.sp, Decoded.val, h]
theorem accz (t : Nat) (kc : Nat) : Statement (.accz t kc) := by
  refine word _ _ rfl (fun h => ?_) (fun h => ?_)
  · simp only [Form.fits]; simp [Instr.wf] at h; grind
  · simp [Instr.wf] at h; simp [decForm, decR, decR2F, Decoded.enc, Decoded.opd, Decoded.sp, Decoded.val, h]
theorem accswap (t : Nat) : Statement (.accswap t) := by
  refine word _ _ rfl (fun h => ?_) (fun h => ?_)
  · simp only [Form.fits]; simp [Instr.wf] at h; grind
  · simp [Instr.wf] at h; simp [decForm, decR, decR2F, Decoded.enc, Decoded.opd, Decoded.sp, Decoded.val, h]
theorem accrd (d : Nat) (k : Bool) (t : Nat) (w : Src) : Statement (.accrd d k t w) := by
  refine word _ _ rfl (fun h => ?_) (fun h => ?_)
  · have := toNat_lt k; have := w.code_lt; simp only [Form.fits]; simp [Instr.wf] at h; grind
  · simp [Instr.wf] at h; simp [decForm, decR, decR2F, Decoded.enc, Decoded.opd, Decoded.sp, Decoded.val, Decoded.src_code, h]
theorem accwr (t : Nat) (w : Src) (a : Src) : Statement (.accwr t w a) := by
  refine word _ _ rfl (fun h => ?_) (fun h => ?_)
  · have := w.code_lt; have := a.code_lt; simp only [Form.fits]; simp [Instr.wf] at h; grind
  · simp [Instr.wf] at h; simp [decForm, decR, decR2F, Decoded.enc, Decoded.opd, Decoded.sp, Decoded.val, Decoded.src_code, h]
theorem atab (slot : Nat) (ka : Nat) : Statement (.atab slot ka) := by
  refine word _ _ rfl (fun h => ?_) (fun h => ?_)
  · simp only [Form.fits]; simp [Instr.wf] at h; grind
  · simp [Instr.wf] at h; simp [decForm, decR, decR2F, Decoded.enc, Decoded.opd, Decoded.sp, Decoded.val, h]
theorem atabDefault (slot : Nat) : Statement (.atabDefault slot) := by
  refine word _ _ rfl (fun h => ?_) (fun h => ?_)
  · simp only [Form.fits]; simp [Instr.wf] at h; grind
  · simp [Instr.wf] at h; simp [decForm, decR, decR2F, Decoded.enc, Decoded.opd, Decoded.sp, Decoded.val, h]
theorem growRegs (n : Nat) : Statement (.growRegs n) := by
  refine word _ _ rfl (fun h => ?_) (fun h => ?_)
  · simp only [Form.fits]; simp [Instr.wf] at h; grind
  · simp [Instr.wf] at h; simp [decForm, decR, decR2F, Decoded.enc, Decoded.opd, Decoded.sp, Decoded.val, h]
theorem growTiles (n : Nat) : Statement (.growTiles n) := by
  refine word _ _ rfl (fun h => ?_) (fun h => ?_)
  · simp only [Form.fits]; simp [Instr.wf] at h; grind
  · simp [Instr.wf] at h; simp [decForm, decR, decR2F, Decoded.enc, Decoded.opd, Decoded.sp, Decoded.val, h]
theorem shrinkRegs (n : Nat) : Statement (.shrinkRegs n) := by
  refine word _ _ rfl (fun h => ?_) (fun h => ?_)
  · simp only [Form.fits]; simp [Instr.wf] at h; grind
  · simp [Instr.wf] at h; simp [decForm, decR, decR2F, Decoded.enc, Decoded.opd, Decoded.sp, Decoded.val, h]
theorem shrinkTiles (n : Nat) : Statement (.shrinkTiles n) := by
  refine word _ _ rfl (fun h => ?_) (fun h => ?_)
  · simp only [Form.fits]; simp [Instr.wf] at h; grind
  · simp [Instr.wf] at h; simp [decForm, decR, decR2F, Decoded.enc, Decoded.opd, Decoded.sp, Decoded.val, h]
theorem rswitch (role : Nat) : Statement (.rswitch role) := by
  refine word _ _ rfl (fun h => ?_) (fun h => ?_)
  · simp only [Form.fits]; simp [Instr.wf] at h; grind
  · simp [Instr.wf] at h; simp [decForm, decR, decR2F, Decoded.enc, Decoded.opd, Decoded.sp, Decoded.val, h]
theorem mma (kab : Nat) (span : Bool) (tile : Nat) (slot : Nat) (fl : Nat) (kc : Nat) : Statement (.mma kab span tile slot fl kc) := by
  refine word _ _ rfl (fun h => ?_) (fun h => ?_)
  · have := toNat_lt span; simp only [Form.fits]; simp [Instr.wf] at h; grind
  · simp [Instr.wf] at h; simp [decForm, Decoded.enc, Decoded.opd, Decoded.sp, Decoded.val, h]
theorem nop : Statement (.nop) := by
  refine word _ _ rfl (fun h => ?_) (fun h => ?_)
  · simp only [Form.fits]; grind
  · simp [decForm, decR, decR31, Decoded.enc, Decoded.opd, Decoded.sp, Decoded.val, h]
theorem ret : Statement (.ret) := by
  refine word _ _ rfl (fun h => ?_) (fun h => ?_)
  · simp only [Form.fits]; grind
  · simp [decForm, decR, decR31, Decoded.enc, Decoded.opd, Decoded.sp, Decoded.val, h]
theorem exit : Statement (.exit) := by
  refine word _ _ rfl (fun h => ?_) (fun h => ?_)
  · simp only [Form.fits]; grind
  · simp [decForm, decR, decR31, Decoded.enc, Decoded.opd, Decoded.sp, Decoded.val, h]
theorem isync : Statement (.isync) := by
  refine word _ _ rfl (fun h => ?_) (fun h => ?_)
  · simp only [Form.fits]; grind
  · simp [decForm, decR, decR31, Decoded.enc, Decoded.opd, Decoded.sp, Decoded.val, h]
theorem fence (sc : Scope) : Statement (.fence sc) := by
  refine word _ _ rfl (fun h => ?_) (fun h => ?_)
  · have := sc.code_lt; simp only [Form.fits]; simp [Instr.wf] at h; grind
  · simp [Instr.wf] at h; simp [decForm, decR, decR31, Decoded.enc, Decoded.opd, Decoded.sp, Decoded.val, h]
theorem ofence : Statement (.ofence) := by
  refine word _ _ rfl (fun h => ?_) (fun h => ?_)
  · simp only [Form.fits]; grind
  · simp [decForm, decR, decR31, Decoded.enc, Decoded.opd, Decoded.sp, Decoded.val, h]
theorem tfence (sc : Scope) : Statement (.tfence sc) := by
  refine word _ _ rfl (fun h => ?_) (fun h => ?_)
  · have := sc.code_lt; simp only [Form.fits]; simp [Instr.wf] at h; grind
  · simp [Instr.wf] at h; simp [decForm, decR, decR31, Decoded.enc, Decoded.opd, Decoded.sp, Decoded.val, h]
theorem icinv (sc : Scope) : Statement (.icinv sc) := by
  refine word _ _ rfl (fun h => ?_) (fun h => ?_)
  · have := sc.code_lt; simp only [Form.fits]; simp [Instr.wf] at h; grind
  · simp [Instr.wf] at h; simp [decForm, decR, decR31, Decoded.enc, Decoded.opd, Decoded.sp, Decoded.val, h]
theorem bkpt : Statement (.bkpt) := by
  refine word _ _ rfl (fun h => ?_) (fun h => ?_)
  · simp only [Form.fits]; grind
  · simp [decForm, decR, decR31, Decoded.enc, Decoded.opd, Decoded.sp, Decoded.val, h]
theorem tret : Statement (.tret) := by
  refine word _ _ rfl (fun h => ?_) (fun h => ?_)
  · simp only [Form.fits]; grind
  · simp [decForm, decR, decR31, Decoded.enc, Decoded.opd, Decoded.sp, Decoded.val, h]
theorem trap (n : Nat) : Statement (.trap n) := by
  refine word _ _ rfl (fun h => ?_) (fun h => ?_)
  · simp only [Form.fits]; simp [Instr.wf] at h; grind
  · simp [Instr.wf] at h; simp [decForm, decR, decR31, Decoded.enc, Decoded.opd, Decoded.sp, Decoded.val, h]; omega
theorem bar (n : Nat) : Statement (.bar n) := by
  refine word _ _ rfl (fun h => ?_) (fun h => ?_)
  · simp only [Form.fits]; simp [Instr.wf] at h; grind
  · simp [Instr.wf] at h; simp [decForm, decR, decR31, Decoded.enc, Decoded.opd, Decoded.sp, Decoded.val, h]
theorem jmpi (ka : Nat) : Statement (.jmpi ka) := by
  refine word _ _ rfl (fun h => ?_) (fun h => ?_)
  · simp only [Form.fits]; simp [Instr.wf] at h; grind
  · simp [Instr.wf] at h; simp [decForm, decR, decR31, Decoded.enc, Decoded.opd, Decoded.sp, Decoded.val, h]
theorem jinit (jn : Nat) (imm : Nat) : Statement (.jinit jn imm) := by
  refine word _ _ rfl (fun h => ?_) (fun h => ?_)
  · simp only [Form.fits]; simp [Instr.wf] at h; grind
  · simp [Instr.wf] at h; simp [decForm, decJ, Decoded.enc, Decoded.opd, Decoded.sp, Decoded.val, h]
theorem jinitMask (jn : Nat) (c : Nat) : Statement (.jinitMask jn c) := by
  refine word _ _ rfl (fun h => ?_) (fun h => ?_)
  · simp only [Form.fits]; simp [Instr.wf] at h; grind
  · simp [Instr.wf] at h; simp [decForm, decJ, Decoded.enc, Decoded.opd, Decoded.sp, Decoded.val, h]
theorem jarr (jn : Nat) : Statement (.jarr jn) := by
  refine word _ _ rfl (fun h => ?_) (fun h => ?_)
  · simp only [Form.fits]; simp [Instr.wf] at h; grind
  · simp [Instr.wf] at h; simp [decForm, decJ, Decoded.enc, Decoded.opd, Decoded.sp, Decoded.val, h]
theorem jwait (jn : Nat) : Statement (.jwait jn) := by
  refine word _ _ rfl (fun h => ?_) (fun h => ?_)
  · simp only [Form.fits]; simp [Instr.wf] at h; grind
  · simp [Instr.wf] at h; simp [decForm, decJ, Decoded.enc, Decoded.opd, Decoded.sp, Decoded.val, h]
theorem bra (cm : Nat) (neg : Bool) (disp : Nat) : Statement (.bra cm neg disp) := by
  refine word _ _ rfl (fun h => ?_) (fun h => ?_)
  · have := toNat_lt neg; simp only [Form.fits]; simp [Instr.wf] at h; grind
  · simp [Instr.wf] at h; simp [decForm, Decoded.enc, Decoded.opd, Decoded.sp, Decoded.val, h]
theorem braRj (cm : Nat) (neg : Bool) (disp : Nat) (rdist : Nat) : Statement (.braRj cm neg disp rdist) := by
  refine word _ _ rfl (fun h => ?_) (fun h => ?_)
  · have := toNat_lt neg; simp only [Form.fits]; simp [Instr.wf] at h; grind
  · simp [Instr.wf] at h; simp [decForm, Decoded.enc, Decoded.opd, Decoded.sp, Decoded.val, h]
theorem brau (kc : Nat) (mode : UMode) (disp : Nat) : Statement (.brau kc mode disp) := by
  refine word _ _ rfl (fun h => ?_) (fun h => ?_)
  · have := mode.code_lt; simp only [Form.fits]; simp [Instr.wf] at h; grind
  · simp [Instr.wf] at h; simp [decForm, Decoded.enc, Decoded.opd, Decoded.sp, Decoded.val, h]
theorem call (n8 : Nat) (disp : Nat) : Statement (.call n8 disp) := by
  refine word _ _ rfl (fun h => ?_) (fun h => ?_)
  · simp only [Form.fits]; simp [Instr.wf] at h; grind
  · simp [Instr.wf] at h; simp [decForm, Decoded.enc, Decoded.opd, Decoded.sp, Decoded.val, h]
theorem yield (kct : Nat) (kth : Nat) (cnt : Bool) (disp : Nat) : Statement (.yield kct kth cnt disp) := by
  refine word _ _ rfl (fun h => ?_) (fun h => ?_)
  · have := toNat_lt cnt; simp only [Form.fits]; simp [Instr.wf] at h; grind
  · simp [Instr.wf] at h; simp [decForm, Decoded.enc, Decoded.opd, Decoded.sp, Decoded.val, h]
theorem iadd16 (d : Nat) (s : Src) : Statement (.iadd16 d s) := by
  refine word _ _ rfl (fun h => ?_) (fun h => ?_)
  · have := s.code16_lt; simp only [Form.fits]; simp [Instr.wf] at h; grind
  · simp [Instr.wf] at h; simp [decForm, decH, Decoded.enc, Decoded.opd, Decoded.sp, Decoded.val_code16, h]; rintro rfl; cases s <;> simp_all [Src.code16]
theorem isub16 (d : Nat) (s : Src) : Statement (.isub16 d s) := by
  refine word _ _ rfl (fun h => ?_) (fun h => ?_)
  · have := s.code16_lt; simp only [Form.fits]; simp [Instr.wf] at h; grind
  · simp [Instr.wf] at h; simp [decForm, decH, Decoded.enc, Decoded.opd, Decoded.sp, Decoded.val_code16, h]
theorem and16 (d : Nat) (s : Src) : Statement (.and16 d s) := by
  refine word _ _ rfl (fun h => ?_) (fun h => ?_)
  · have := s.code16_lt; simp only [Form.fits]; simp [Instr.wf] at h; grind
  · simp [Instr.wf] at h; simp [decForm, decH, Decoded.enc, Decoded.opd, Decoded.sp, Decoded.val_code16, h]
theorem or16 (d : Nat) (s : Src) : Statement (.or16 d s) := by
  refine word _ _ rfl (fun h => ?_) (fun h => ?_)
  · have := s.code16_lt; simp only [Form.fits]; simp [Instr.wf] at h; grind
  · simp [Instr.wf] at h; simp [decForm, decH, Decoded.enc, Decoded.opd, Decoded.sp, Decoded.val_code16, h]
theorem xor16 (d : Nat) (s : Src) : Statement (.xor16 d s) := by
  refine word _ _ rfl (fun h => ?_) (fun h => ?_)
  · have := s.code16_lt; simp only [Form.fits]; simp [Instr.wf] at h; grind
  · simp [Instr.wf] at h; simp [decForm, decH, Decoded.enc, Decoded.opd, Decoded.sp, Decoded.val_code16, h]
theorem shl16 (d : Nat) (s : Src) : Statement (.shl16 d s) := by
  refine word _ _ rfl (fun h => ?_) (fun h => ?_)
  · have := s.code16_lt; simp only [Form.fits]; simp [Instr.wf] at h; grind
  · simp [Instr.wf] at h; simp [decForm, decH, Decoded.enc, Decoded.opd, Decoded.sp, Decoded.val_code16, h]
theorem shr16 (d : Nat) (s : Src) : Statement (.shr16 d s) := by
  refine word _ _ rfl (fun h => ?_) (fun h => ?_)
  · have := s.code16_lt; simp only [Form.fits]; simp [Instr.wf] at h; grind
  · simp [Instr.wf] at h; simp [decForm, decH, Decoded.enc, Decoded.opd, Decoded.sp, Decoded.val_code16, h]
theorem mov16 (d : Nat) (s : Src) : Statement (.mov16 d s) := by
  refine word _ _ rfl (fun h => ?_) (fun h => ?_)
  · have := s.code16_lt; simp only [Form.fits]; simp [Instr.wf] at h; grind
  · simp [Instr.wf] at h; simp [decForm, decH, Decoded.enc, Decoded.opd, Decoded.sp, Decoded.val_code16, h]; intro _; exact s.code16_ne h.2
theorem movi16 (d : Nat) (imm : Nat) : Statement (.movi16 d imm) := by
  refine word _ _ rfl (fun h => ?_) (fun h => ?_)
  · simp only [Form.fits]; simp [Instr.wf] at h; grind
  · simp [Instr.wf] at h; simp [decForm, decH, Decoded.enc, Decoded.opd, Decoded.sp, h]
theorem fadd16 (d : Nat) (s : Src) : Statement (.fadd16 d s) := by
  refine word _ _ rfl (fun h => ?_) (fun h => ?_)
  · have := s.code16_lt; simp only [Form.fits]; simp [Instr.wf] at h; grind
  · simp [Instr.wf] at h; simp [decForm, decH, Decoded.enc, Decoded.opd, Decoded.sp, Decoded.val_code16, h]
theorem fsub16 (d : Nat) (s : Src) : Statement (.fsub16 d s) := by
  refine word _ _ rfl (fun h => ?_) (fun h => ?_)
  · have := s.code16_lt; simp only [Form.fits]; simp [Instr.wf] at h; grind
  · simp [Instr.wf] at h; simp [decForm, decH, Decoded.enc, Decoded.opd, Decoded.sp, Decoded.val_code16, h]
theorem fmul16 (d : Nat) (s : Src) : Statement (.fmul16 d s) := by
  refine word _ _ rfl (fun h => ?_) (fun h => ?_)
  · have := s.code16_lt; simp only [Form.fits]; simp [Instr.wf] at h; grind
  · simp [Instr.wf] at h; simp [decForm, decH, Decoded.enc, Decoded.opd, Decoded.sp, Decoded.val_code16, h]
theorem ffma16 (d : Nat) (s : Src) : Statement (.ffma16 d s) := by
  refine word _ _ rfl (fun h => ?_) (fun h => ?_)
  · have := s.code16_lt; simp only [Form.fits]; simp [Instr.wf] at h; grind
  · simp [Instr.wf] at h; simp [decForm, decH, Decoded.enc, Decoded.opd, Decoded.sp, Decoded.val_code16, h]
theorem imad16 (d : Nat) (s : Src) : Statement (.imad16 d s) := by
  refine word _ _ rfl (fun h => ?_) (fun h => ?_)
  · have := s.code16_lt; simp only [Form.fits]; simp [Instr.wf] at h; grind
  · simp [Instr.wf] at h; simp [decForm, decH, Decoded.enc, Decoded.opd, Decoded.sp, Decoded.val_code16, h]
theorem sel16 (d : Nat) (s : Src) : Statement (.sel16 d s) := by
  refine word _ _ rfl (fun h => ?_) (fun h => ?_)
  · have := s.code16_lt; simp only [Form.fits]; simp [Instr.wf] at h; grind
  · simp [Instr.wf] at h; simp [decForm, decH, Decoded.enc, Decoded.opd, Decoded.sp, Decoded.val_code16, h]
theorem lea16 (d : Nat) (s : Src) : Statement (.lea16 d s) := by
  refine word _ _ rfl (fun h => ?_) (fun h => ?_)
  · have := s.code16_lt; simp only [Form.fits]; simp [Instr.wf] at h; grind
  · simp [Instr.wf] at h; simp [decForm, decH, Decoded.enc, Decoded.opd, Decoded.sp, Decoded.val_code16, h]
theorem nop16 : Statement (.nop16) := by
  refine word _ _ rfl (fun h => ?_) (fun h => ?_)
  · simp only [Form.fits]; grind
  · simp [decForm, decH, Decoded.enc, Decoded.opd, Decoded.sp, h]
theorem relayedTrap (bid : Nat) : Statement (.relayedTrap bid) := event _ rfl
theorem resourceEviction (core : Nat) (tiles : Bool) : Statement (.resourceEviction core tiles) := event _ rfl
theorem rcqTail (val : Nat) : Statement (.rcqTail val) := event _ rfl
theorem gridLaunch : Statement (.gridLaunch) := event _ rfl
theorem residentLaunch : Statement (.residentLaunch) := event _ rfl
theorem contextBind : Statement (.contextBind) := event _ rfl
theorem contextRelease : Statement (.contextRelease) := event _ rfl
theorem blockPlacement (die : Nat) : Statement (.blockPlacement die) := event _ rfl
theorem residentPlacement (lid : Nat) : Statement (.residentPlacement lid) := event _ rfl
theorem startTime (bid : Nat) : Statement (.startTime bid) := event _ rfl
theorem residencyReport (level : Nat) (node : Nat) (lid : Nat) : Statement (.residencyReport level node lid) := event _ rfl
theorem steal (level : Nat) (node : Nat) (lid : Nat) : Statement (.steal level node lid) := event _ rfl
theorem priorityPreemption (lid : Nat) : Statement (.priorityPreemption lid) := event _ rfl
theorem contextSave (ctx : Nat) : Statement (.contextSave ctx) := event _ rfl
theorem contextRestore (ctx : Nat) : Statement (.contextRestore ctx) := event _ rfl
theorem thermalMigration (core : Nat) (temp : Nat) : Statement (.thermalMigration core temp) := event _ rfl
theorem skeinRetire (bid : Nat) (sk : Nat) : Statement (.skeinRetire bid sk) := event _ rfl
theorem gridCompletion (lid : Nat) : Statement (.gridCompletion lid) := event _ rfl
theorem contextFatal (ctx : Nat) : Statement (.contextFatal ctx) := event _ rfl
theorem heartbeat : Statement (.heartbeat) := event _ rfl
theorem failover : Statement (.failover) := event _ rfl
theorem shootdown (pkg : Nat) : Statement (.shootdown pkg) := event _ rfl
theorem shootdownDone (pkg : Nat) : Statement (.shootdownDone pkg) := event _ rfl
theorem faultReply (pkg : Nat) : Statement (.faultReply pkg) := event _ rfl
theorem pin (pkg : Nat) : Statement (.pin pkg) := event _ rfl
theorem unpin (pkg : Nat) : Statement (.unpin pkg) := event _ rfl
theorem ingressBind (pkg : Nat) : Statement (.ingressBind pkg) := event _ rfl
theorem ingressUnbind (pkg : Nat) : Statement (.ingressUnbind pkg) := event _ rfl
theorem rwinReg (pkg : Nat) : Statement (.rwinReg pkg) := event _ rfl
theorem rwinDereg (pkg : Nat) : Statement (.rwinDereg pkg) := event _ rfl
theorem aperture (pkg : Nat) : Statement (.aperture pkg) := event _ rfl
theorem flush (pkg : Nat) : Statement (.flush pkg) := event _ rfl
theorem apertureAccess (pkg : Nat) (ext : Bool) (pa : Nat) (sz : Size) (wr : Bool) (val : Nat) : Statement (.apertureAccess pkg ext pa sz wr val) := event _ rfl
theorem apertureAmo (pkg : Nat) (pa : Nat) (op : AtomOp) (val : Nat) (lrsc : Bool) : Statement (.apertureAmo pkg pa op val lrsc) := event _ rfl
theorem hostFence (pkg : Nat) (rw : Bool) : Statement (.hostFence pkg rw) := event _ rfl
theorem registerWrite (pkg : Nat) (off : Nat) (val : Nat) : Statement (.registerWrite pkg off val) := event _ rfl
theorem homeRequest (rid : Nat) : Statement (.homeRequest rid) := event _ rfl
theorem memoryResponse (rid : Nat) (bad : Bool) : Statement (.memoryResponse rid bad) := event _ rfl
theorem faultRecord : Statement (.faultRecord) := event _ rfl
theorem l1Writeback (core : Nat) (line : Nat) : Statement (.l1Writeback core line) := event _ rfl
theorem scrub (gran : Nat) (err : Nat) : Statement (.scrub gran err) := event _ rfl
theorem refresh (chan : Nat) (kind : Nat) : Statement (.refresh chan kind) := event _ rfl
theorem laneLending (chan : Nat) : Statement (.laneLending chan) := event _ rfl
theorem redCombine (rid : Nat) : Statement (.redCombine rid) := event _ rfl
theorem combineCount (idx : Nat) : Statement (.combineCount idx) := event _ rfl
theorem combineTimer (idx : Nat) : Statement (.combineTimer idx) := event _ rfl
theorem holdingBufferSpill (line : Nat) : Statement (.holdingBufferSpill line) := event _ rfl
theorem flitReceive (link : Nat) (bytes : List (BitVec 8)) : Statement (.flitReceive link bytes) := event _ rfl
theorem stomp (link : Nat) : Statement (.stomp link) := event _ rfl
theorem idleFlit (link : Nat) (ack : Nat) : Statement (.idleFlit link ack) := event _ rfl
theorem nakFlit (link : Nat) (ack : Nat) : Statement (.nakFlit link ack) := event _ rfl
theorem retryTimeout (link : Nat) : Statement (.retryTimeout link) := event _ rfl
theorem retrain (link : Nat) : Statement (.retrain link) := event _ rfl
theorem portDown (link : Nat) : Statement (.portDown link) := event _ rfl
theorem endToEndNak (rid : Nat) : Statement (.endToEndNak rid) := event _ rfl
theorem frameIngress (pkg : Nat) (port : Nat) (frame : List (BitVec 8)) (fcs : Bool) : Statement (.frameIngress pkg port frame fcs) := event _ rfl
theorem uetPacket (pkg : Nat) (ctx : Nat) (va : Nat) (data : List (BitVec 8)) (wr : Bool) : Statement (.uetPacket pkg ctx va data wr) := event _ rfl
theorem ptpMessage (pkg : Nat) (offset : Int) : Statement (.ptpMessage pkg offset) := event _ rfl
theorem timeFlit (pkg : Nat) : Statement (.timeFlit pkg) := event _ rfl
theorem grandmasterLoss : Statement (.grandmasterLoss) := event _ rfl
theorem clockGate (core : Nat) : Statement (.clockGate core) := event _ rfl
theorem powerGate (core : Nat) : Statement (.powerGate core) := event _ rfl
theorem hang (core : Nat) : Statement (.hang core) := event _ rfl
theorem monitorPoll (core : Nat) : Statement (.monitorPoll core) := event _ rfl
theorem engineHang (core : Nat) : Statement (.engineHang core) := event _ rfl
theorem engineResetEnd (core : Nat) : Statement (.engineResetEnd core) := event _ rfl
theorem commandStart (core : Nat) (idx : Nat) : Statement (.commandStart core idx) := event _ rfl
theorem commandRetire (core : Nat) (idx : Nat) : Statement (.commandRetire core idx) := event _ rfl
theorem commandFault (core : Nat) (idx : Nat) : Statement (.commandFault core idx) := event _ rfl
theorem accswapExchange (core : Nat) (idx : Nat) : Statement (.accswapExchange core idx) := event _ rfl
theorem copyStart (core : Nat) (idx : Nat) : Statement (.copyStart core idx) := event _ rfl
theorem copyRow (core : Nat) (idx : Nat) : Statement (.copyRow core idx) := event _ rfl
theorem copyPageFault (core : Nat) (idx : Nat) : Statement (.copyPageFault core idx) := event _ rfl
theorem prefetchArrival (idx : Nat) : Statement (.prefetchArrival idx) := event _ rfl
theorem replayFrame (lid : Nat) (idx : Nat) : Statement (.replayFrame lid idx) := event _ rfl
theorem replayHostStore (lid : Nat) (idx : Nat) : Statement (.replayHostStore lid idx) := event _ rfl
theorem rackAssembly : Statement (.rackAssembly) := event _ rfl
theorem firmwareBoot (pkg : Nat) (images : List Image) : Statement (.firmwareBoot pkg images) := event _ rfl
theorem keyLoad (pkg : Nat) (slot : Nat) (key : Nat) (ctxs : List Nat) : Statement (.keyLoad pkg slot key ctxs) := event _ rfl
theorem attestationReport (pkg : Nat) (nonce : List (BitVec 8)) (ctx : Option Nat) : Statement (.attestationReport pkg nonce ctx) := event _ rfl
theorem unassignedEncoding (cause : IllCause) (need : Need) : Statement (.unassignedEncoding cause need) := event _ rfl
theorem reservedPacketType : Statement (.reservedPacketType) := event _ rfl
theorem reservedRelayCommand (pkg : Nat) : Statement (.reservedRelayCommand pkg) := event _ rfl
theorem commandFailed (core : Nat) (idx : Nat) : Statement (.commandFailed core idx) := event _ rfl
theorem retrainingEnd (link : Nat) (ok : Bool) : Statement (.retrainingEnd link ok) := event _ rfl
theorem lendingHandshakeEnd (chan : Nat) : Statement (.lendingHandshakeEnd chan) := event _ rfl
theorem keySlotClear (pkg : Nat) (slot : Nat) : Statement (.keySlotClear pkg slot) := event _ rfl

end Sys2Proof.Laws.RoundTrip
end

