-- ==== Sys2Proof/Laws/Values.lean ====
section
/-! SUPPORT. The values that the integer instructions compute, in arithmetic of integers and bits. -/

set_option Elab.async false

namespace Sys2Proof.Machine

theorem laneWord_get (f : Nat → Bool) (n : Nat) (h : n < 32) : (laneWord f).getLsbD n = f n := by
  have key : ∀ m, m ≤ 32 → ∀ w : W32, ((List.range m).foldl (fun w n => if f n then w ||| (1#32 <<< n) else w) w).getLsbD n = (w.getLsbD n || (decide (n < m) && f n)) := by
    intro m hm w
    induction m with
    | zero => simp
    | succ m ih =>
      rw [List.range_succ, List.foldl_append]
      simp only [List.foldl_cons, List.foldl_nil]
      have ih := ih (by omega)
      by_cases e : n = m
      · subst e
        by_cases g : f n = true
        · simp [g, h]
        · simp [g, ih]
      · by_cases g : f m = true
        · have : (decide (n < m + 1)) = decide (n < m) := by simp; omega
          simp only [g, if_true, BitVec.getLsbD_or, ih, this]
          have : (1#32 <<< m).getLsbD n = false := by
            simp [BitVec.getLsbD_shiftLeft, BitVec.getLsbD_one]; omega
          simp [this]
        · have : (decide (n < m + 1)) = decide (n < m) := by simp; omega
          rw [this]; simp only [g, ih, Bool.false_eq_true, if_false]
  rw [laneWord, key 32 (by omega)]; simp [h]

theorem laneWord_eq (w : W32) (f : Nat → Bool) (h : ∀ n, n < 32 → w.getLsbD n = f n) : w = laneWord f := by
  apply BitVec.eq_of_getLsbD_eq
  intro n hn
  rw [h n hn, laneWord_get f n hn]
theorem mulHigh_eq (x y : W32) : mulHigh x y = BitVec.ofInt 32 (x.toInt * y.toInt / 2 ^ 32) := by
  unfold mulHigh
  apply BitVec.eq_of_toInt_eq
  have h : (x.signExtend 64 * y.signExtend 64) = BitVec.ofInt 64 (x.toInt * y.toInt) := by
    rw [BitVec.ofInt_mul]
    congr 1
  rw [h]
  rw [← BitVec.toInt_inj.mpr rfl]
  congr 1
  apply BitVec.eq_of_toNat_eq
  rw [BitVec.extractLsb'_toNat, BitVec.toNat_ofInt, BitVec.toNat_ofInt]
  generalize x.toInt * y.toInt = z
  rw [Nat.shiftRight_eq_div_pow]
  omega

theorem add_eq (x y : W32) : x + y = BitVec.ofNat 32 (x.toNat + y.toNat) := by
  apply BitVec.eq_of_toNat_eq; simp
theorem sub_eq (x y : W32) : x - y = BitVec.ofInt 32 ((x.toNat : Int) - y.toNat) := by
  apply BitVec.eq_of_toNat_eq; simp [BitVec.toNat_sub, BitVec.toNat_ofInt]; omega
theorem mul_eq (x y : W32) : x * y = BitVec.ofNat 32 (x.toNat * y.toNat) := by
  apply BitVec.eq_of_toNat_eq; simp
theorem mulHighU_eq (x y : W32) : mulHighU x y = BitVec.ofNat 32 (x.toNat * y.toNat / 2 ^ 32) := by
  unfold mulHighU
  apply BitVec.eq_of_toNat_eq
  have : x.toNat * y.toNat < 2^64 := by
    have := x.isLt; have := y.isLt
    calc x.toNat * y.toNat < 2^32 * 2^32 := by nlinarith
      _ = 2^64 := by norm_num
  simp [BitVec.extractLsb'_toNat, Nat.shiftRight_eq_div_pow]
  norm_num at this; rw [Nat.mod_eq_of_lt this]
theorem imin_eq (x y : W32) : iminOf x y = BitVec.ofInt 32 (min x.toInt y.toInt) := by
  unfold iminOf
  have e : (y.slt x) = true ↔ y.toInt < x.toInt := BitVec.slt_iff_toInt_lt
  by_cases c : (y.slt x) = true
  · have := e.mp c
    rw [if_pos c, min_eq_right (by omega)]; simp
  · have : ¬ (y.toInt < x.toInt) := fun q => c (e.mpr q)
    rw [if_neg c, min_eq_left (by omega)]; simp
theorem umin_eq (x y : W32) : uminOf x y = BitVec.ofNat 32 (min x.toNat y.toNat) := by
  unfold uminOf
  have e : (y.ult x) = true ↔ y.toNat < x.toNat := BitVec.ult_iff_lt
  by_cases c : (y.ult x) = true
  · have := e.mp c
    rw [if_pos c, min_eq_right (by omega)]; simp
  · have : ¬ (y.toNat < x.toNat) := fun q => c (e.mpr q)
    rw [if_neg c, min_eq_left (by omega)]; simp
theorem imax_eq (x y : W32) : imaxOf x y = BitVec.ofInt 32 (max x.toInt y.toInt) := by
  unfold imaxOf
  have e : (x.slt y) = true ↔ x.toInt < y.toInt := BitVec.slt_iff_toInt_lt
  by_cases c : (x.slt y) = true
  · have := e.mp c
    rw [if_pos c, max_eq_right (by omega)]; simp
  · have : ¬ (x.toInt < y.toInt) := fun q => c (e.mpr q)
    rw [if_neg c, max_eq_left (by omega)]; simp
theorem umax_eq (x y : W32) : umaxOf x y = BitVec.ofNat 32 (max x.toNat y.toNat) := by
  unfold umaxOf
  have e : (x.ult y) = true ↔ x.toNat < y.toNat := BitVec.ult_iff_lt
  by_cases c : (x.ult y) = true
  · have := e.mp c
    rw [if_pos c, max_eq_right (by omega)]; simp
  · have : ¬ (x.toNat < y.toNat) := fun q => c (e.mpr q)
    rw [if_neg c, max_eq_left (by omega)]; simp
theorem shl_eq (x y : W32) : x <<< shAmount y = BitVec.ofNat 32 (x.toNat * 2 ^ (y.toNat % 32)) := by
  unfold shAmount
  apply BitVec.eq_of_toNat_eq; simp [Nat.shiftLeft_eq]
theorem shr_eq (x y : W32) : x >>> shAmount y = BitVec.ofNat 32 (x.toNat / 2 ^ (y.toNat % 32)) := by
  unfold shAmount
  apply BitVec.eq_of_toNat_eq; simp [Nat.shiftRight_eq_div_pow]
  have := x.isLt
  rw [Nat.mod_eq_of_lt (lt_of_le_of_lt (Nat.div_le_self _ _) this)]
theorem sar_eq (x y : W32) : x.sshiftRight (shAmount y) = BitVec.ofInt 32 (x.toInt / 2 ^ (y.toNat % 32)) := by
  unfold shAmount
  apply BitVec.eq_of_toInt_eq
  rw [BitVec.toInt_sshiftRight, BitVec.toInt_ofInt, Int.shiftRight_eq_div_pow]
  have h1 := x.toInt_lt; have h2 := x.le_toInt
  have hp : (0:Int) < 2 ^ (y.toNat % 32) := by positivity
  have : (-(2:Int)^31 ≤ x.toInt / (2:Int) ^ (y.toNat % 32)) ∧ (x.toInt / (2:Int) ^ (y.toNat % 32) < 2^31) := by
    constructor
    · rw [Int.le_ediv_iff_mul_le hp]; norm_num at h2 ⊢; nlinarith
    · rw [Int.ediv_lt_iff_lt_mul hp]; norm_num at h1 ⊢; nlinarith
  rw [Int.bmod_eq_of_le] <;> norm_num at this ⊢ <;> omega
theorem clz_eq (x : W32) : clzOf x = BitVec.ofNat 32 (if x.toNat = 0 then 32 else 31 - Nat.log2 x.toNat) := by
  unfold clzOf
  split
  · rename_i n hn
    congr 1
    have h1 := List.find?_some hn
    have h2 := List.mem_of_find?_eq_some hn
    simp only [List.mem_range] at h2
    have h3 := List.find?_range_eq_some.mp hn
    have hx : x.toNat ≠ 0 := by
      intro q
      simp [BitVec.getLsbD, q] at h1
    rw [if_neg hx]
    have : Nat.log2 x.toNat = 31 - n := by
      rw [Nat.log2_eq_iff hx]
      constructor
      · exact Nat.ge_two_pow_of_testBit h1
      · apply Nat.lt_pow_two_of_testBit
        intro i hi
        by_cases c : i < 32
        · have := h3.2.2 (31 - i) (by omega)
          simp only [Bool.not_eq_true'] at this
          rw [show 31 - (31 - i) = i by omega] at this
          exact this
        · exact BitVec.getLsbD_of_ge x i (by omega)
    omega
  · rename_i hn
    rw [List.find?_eq_none] at hn
    have : x = 0 := by
      apply BitVec.eq_of_getLsbD_eq
      intro i hi
      have := hn (31 - i) (by simp; omega)
      rw [show 31 - (31 - i) = i by omega] at this
      simpa using this
    subst this; rfl
theorem popc_eq (x : W32) : popcOf x = BitVec.ofNat 32 ((List.range 32).countP fun n => x.getLsbD n) := by
  unfold popcOf popCount
  congr 1
  have : ∀ (l : List Nat) c, l.foldl (fun c i => if bit1 x.toNat i then c + 1 else c) c = c + l.countP fun n => x.getLsbD n := by
    intro l
    induction l with
    | nil => simp
    | cons i l ih =>
      intro c
      have hb : bit1 x.toNat i = x.getLsbD i := by
        simp only [bit1, BitVec.getLsbD, Nat.testBit_eq_decide_div_mod_eq]; rw [beq_eq_decide]
      rw [List.foldl_cons, ih, List.countP_cons, hb]
      split <;> omega
  rw [this]; simp
theorem lnot_eq (x : W32) : ~~~x = BitVec.ofNat 32 (0xFFFFFFFF - x.toNat) := by
  apply BitVec.eq_of_toNat_eq; have := x.isLt; simp; omega
theorem ineg_eq (x : W32) : 0 - x = BitVec.ofInt 32 (0 - x.toInt) := by
  apply BitVec.eq_of_toInt_eq; simp [BitVec.toInt_neg]
theorem iabs_eq (x : W32) : iabsOf x = BitVec.ofNat 32 x.toInt.natAbs := by
  unfold iabsOf
  have hm : x.getLsbD 31 = x.msb := rfl
  rw [hm, BitVec.msb_eq_toInt]
  simp only [decide_eq_true_eq]
  have h1 := x.toInt_lt; have h2 := x.le_toInt
  split
  · apply BitVec.eq_of_toNat_eq
    have : x.toInt = x.toNat - 2^32 := by
      rw [BitVec.toInt_eq_toNat_cond] at *; split at * <;> omega
    have := x.isLt
    simp [BitVec.toNat_neg]; omega
  · apply BitVec.eq_of_toNat_eq
    have : x.toInt = x.toNat := by
      rw [BitVec.toInt_eq_toNat_cond] at *; split at * <;> omega
    have := x.isLt
    simp; omega
theorem brev_eq (x : W32) : brevOf x = laneWord fun n => x.getLsbD (31 - n) := by
  apply laneWord_eq; intro n hn
  show x.reverse.getLsbD n = _
  rw [BitVec.getLsbD_reverse]; simp [BitVec.getMsbD_eq_getLsbD, hn]
theorem fabs_eq (x : W32) : x &&& 0x7FFFFFFF = laneWord fun n => decide (n < 31) && x.getLsbD n := by
  apply laneWord_eq; intro n hn
  show (x &&& 0x7FFFFFFF#32).getLsbD n = _
  rw [BitVec.getLsbD_and, Bool.and_comm]
  congr 1
  have : ∀ n, n < 32 → (0x7FFFFFFF#32).getLsbD n = decide (n < 31) := by decide
  exact this n hn
theorem fneg_eq (x : W32) : x ^^^ 0x80000000 = laneWord fun n => x.getLsbD n != decide (n = 31) := by
  apply laneWord_eq; intro n hn
  show (x ^^^ 0x80000000#32).getLsbD n = _
  rw [BitVec.getLsbD_xor]
  have : ∀ n, n < 32 → (0x80000000#32).getLsbD n = decide (n = 31) := by decide
  rw [this n hn, Bool.bne_eq_xor]
theorem carry_result (s : State) (p : Pass) (d : Nat) (kb : Bool) (f : Nat → W32) (c : Nat → Bool) (h : LanePass s p) :
    CarryResult s ((s.modSk p.bid p.ix fun x => x.setMask 7 p.act (laneSet c)).lane32 p d kb f 0) p d kb f c := by
  obtain ⟨k, h1, h2, h3, h4, h5, h6, h7, h8, h9⟩ := s.chain_result p (if kb then p.sk.r.lanes else (p.sk.setVs d p.lanes f).r.lanes)
    (p.sk.setMask 7 p.act (laneSet c)).r.masks (fun l => (f l).setWidth 64) 0
    (fun x => ((if kb then x.setMask 7 p.act (laneSet c) else (x.setMask 7 p.act (laneSet c)).setVs d p.lanes f).pushLatch p.ai s.fresh.free p.lanes
      fun l => (f l).setWidth 64).orStatus 0) h
    (by cases kb <;> simp [Skein.setVs_eq, Skein.withLanes, Skein.setMask] <;> rfl)
  have := lane32_read p k d kb f h5 h8 h9
  have e : ∀ x, k.mask x = (p.sk.setMask 7 p.act (laneSet c)).mask x := fun x => by simp only [Skein.mask, h6]
  refine ⟨k, ?_, h2, h3, h4, this.1, this.2, fun l hl => ?_, fun m hm => by rw [e, setMask_other _ _ _ _ _ hm], by simpa using h7⟩
  · obtain ⟨n, hn⟩ := h1
    refine ⟨n, ?_⟩
    rw [← hn]
    unfold State.lane32
    rw [State.modSk_modSk]
    rfl
  · rw [e, setMask_bit _ _ _ _ _ hl, laneSet_get _ _ hl]
    simp [Pass.lanes, mem_lanesOf]
theorem carrySum_eq (x y : W32) (c : Bool) : carrySum x y c = BitVec.ofNat 33 (x.toNat + y.toNat + c.toNat) := by
  apply BitVec.eq_of_toNat_eq
  have := x.isLt; have := y.isLt
  cases c <;> simp [carrySum]
theorem carrySum_low (x y : W32) (c : Bool) : (carrySum x y c).setWidth 32 = BitVec.ofNat 32 (x.toNat + y.toNat + c.toNat) := by
  rw [carrySum_eq]; apply BitVec.eq_of_toNat_eq; simp
theorem carryOut_eq (x y : W32) (c : Bool) : carryOut x y c = decide (2 ^ 32 ≤ x.toNat + y.toNat + c.toNat) := by
  unfold carryOut; rw [carrySum_eq]
  have := x.isLt; have := y.isLt; have := Bool.toNat_le c
  rw [BitVec.getLsbD_ofNat, Nat.testBit_eq_decide_div_mod_eq]
  simp; omega
theorem imad_eq (x y z : W32) : x * y + z = BitVec.ofInt 32 (x.toInt * y.toInt + z.toInt) := by
  apply BitVec.eq_of_toInt_eq; simp [BitVec.toInt_mul, BitVec.toInt_add]
theorem bfi_eq (x y z : W32) : bfiOf x y z =
        (let q := y.toNat % 32
        let w := y.toNat / 256 % 32
        laneWord fun n => if q ≤ n ∧ n < q + w then x.getLsbD (n - q) else z.getLsbD n) := by
  apply laneWord_eq
  intro n hn
  unfold bfiOf
  have hT : fieldTop y = min (fieldPos y + y.toNat / 256 % 32 - 1) 31 := rfl
  have hq : fieldPos y = y.toNat % 32 := rfl
  have hf : fieldWidth y = y.toNat / 256 % 32 := rfl
  split
  · rename_i hw; rw [hf] at hw
    rw [if_neg (by omega)]
  · rename_i hw; rw [hf] at hw
    simp only [BitVec.getLsbD_or, BitVec.getLsbD_and, BitVec.getLsbD_not, BitVec.getLsbD_shiftLeft, BitVec.getLsbD_ofNat, hn]
    have : ((2 ^ (fieldTop y - fieldPos y + 1) - 1) * 2 ^ fieldPos y).testBit n = decide (fieldPos y ≤ n ∧ n < fieldPos y + y.toNat / 256 % 32) := by
      rw [Nat.testBit_mul_two_pow, Nat.testBit_two_pow_sub_one]
      rw [← Bool.decide_and]
      congr 1; simp only [eq_iff_iff]; omega
    rw [this, hq]
    by_cases c : y.toNat % 32 ≤ n ∧ n < y.toNat % 32 + y.toNat / 256 % 32
    · simp [c]
    · simp [c]
theorem signed_bit (m f n : Nat) (hm : 0 < m) (hm2 : m ≤ 32) (hf : f < 2 ^ m) (hn : n < 32) :
    (BitVec.ofInt 32 (signed m f)).getLsbD n = if n < m then f.testBit n else f.testBit (m - 1) := by
  have : BitVec.ofInt 32 (signed m f) = (BitVec.ofNat m f).signExtend 32 := by
    apply BitVec.eq_of_toInt_eq
    rw [BitVec.toInt_ofInt, BitVec.toInt_signExtend]
    have h1 : (BitVec.ofNat m f).toInt = signed m f := by
      rw [BitVec.toInt_eq_toNat_cond]
      simp only [BitVec.toNat_ofNat, Nat.mod_eq_of_lt hf]
      unfold signed
      have : 2 ^ m = 2 * 2 ^ (m - 1) := by rw [← pow_succ']; congr 1; omega
      split <;> split <;> first | rfl | omega
    rw [← h1, min_eq_right hm2]
    have h2 := (BitVec.ofNat m f).toInt_lt
    have h3 := (BitVec.ofNat m f).le_toInt
    have e1 : (2:Int)^(m-1) ≤ 2^31 := by exact_mod_cast Nat.pow_le_pow_right (by norm_num) (by omega)
    have := @BitVec.toInt_bmod_cancel m (BitVec.ofNat m f)
    rw [this]
    rw [Int.bmod_eq_of_le] <;> norm_num <;> omega
  rw [this, BitVec.getLsbD_signExtend]
  simp only [hn, decide_true, Bool.true_and, BitVec.getLsbD_ofNat, BitVec.msb_eq_getLsbD_last]
  have : m - 1 < m := by omega
  split <;> simp [*]
theorem bfx_eq (sx : Bool) (x y : W32) : bfxOf sx x y =
        (let q := y.toNat % 32
        let w := y.toNat / 256 % 32
        let h := min (q + w - 1) 31
        laneWord fun n => decide (w ≠ 0) && if q + n ≤ h then x.getLsbD (q + n) else sx && x.getLsbD h) := by
  apply laneWord_eq
  intro n hn
  unfold bfxOf
  have hT : fieldTop y = min (fieldPos y + y.toNat / 256 % 32 - 1) 31 := rfl
  have hq : fieldPos y = y.toNat % 32 := rfl
  have hf : fieldWidth y = y.toNat / 256 % 32 := rfl
  split
  · rename_i hw; rw [hf] at hw
    simp [hw]
  · rename_i hw; rw [hf] at hw
    simp only [hT, hq]
    have hq32 : y.toNat % 32 ≤ 31 := by omega
    generalize y.toNat % 32 = q at *
    generalize y.toNat / 256 % 32 = w at *
    generalize hh : min (q + w - 1) 31 = h at *
    have hlt : x.toNat / 2 ^ q % 2 ^ (h - q + 1) < 2 ^ (h - q + 1) := Nat.mod_lt _ (by positivity)
    have tb : ∀ j, (x.toNat / 2 ^ q % 2 ^ (h - q + 1)).testBit j = (decide (j < h - q + 1) && x.getLsbD (q + j)) := by
      intro j
      rw [Nat.testBit_mod_two_pow, Nat.testBit_div_two_pow, BitVec.getLsbD, Nat.add_comm j q]
    cases sx
    · simp only [Bool.false_eq_true, if_false, BitVec.getLsbD_ofNat, hn, tb]
      by_cases c : q + n ≤ h
      · have : n < h - q + 1 := by omega
        simp [c, this, hw]
      · have : ¬ n < h - q + 1 := by omega
        simp [c, this]
    · simp only [if_true]
      rw [signed_bit _ _ _ (by omega) (by omega) hlt hn]
      simp only [tb]
      by_cases c : q + n ≤ h
      · have : n < h - q + 1 := by omega
        simp [c, this, hw]
      · have : ¬ n < h - q + 1 := by omega
        have e : q + (h - q + 1 - 1) = h := by omega
        rw [e]
        simp [c, this, hw]
theorem lea_eq (x : W64) (y : W32) (sh : Nat) : x + (y.setWidth 64 <<< sh) = BitVec.ofNat 64 (x.toNat + y.toNat * 2 ^ sh) := by
  apply BitVec.eq_of_toNat_eq
  simp [Nat.shiftLeft_eq]
theorem movi_eq (imm : Nat) (hi : imm < 2 ^ 16) :
    (BitVec.ofNat 16 imm).signExtend 32 = BitVec.ofInt 32 (if imm < 2 ^ 15 then imm else (imm : Int) - 2 ^ 16) := by
  apply BitVec.eq_of_toInt_eq
  rw [BitVec.toInt_signExtend, BitVec.toInt_ofInt]
  have : (BitVec.ofNat 16 imm).toInt = if imm < 2^15 then (imm:Int) else (imm:Int) - 2^16 := by
    rw [BitVec.toInt_eq_toNat_cond]; simp; split <;> split <;> omega
  rw [this, show min 32 16 = 16 from rfl]; norm_num; simp only [Int.bmod_def]; split <;> omega
theorem movh_eq (imm : Nat) (hi : imm < 2 ^ 16) (v : W32) :
    BitVec.ofNat 16 imm ++ v.setWidth 16 = BitVec.ofNat 32 (imm * 2 ^ 16 + v.toNat % 2 ^ 16) := by
  apply BitVec.eq_of_toNat_eq
  rw [BitVec.toNat_append]; simp
  have := Nat.two_pow_add_eq_or_of_lt (Nat.mod_lt v.toNat (by norm_num : 0 < 2^16)) imm
  norm_num at this
  rw [Nat.shiftLeft_eq]; norm_num
  rw [Nat.mod_eq_of_lt (by omega : imm < 65536), Nat.mul_comm imm 65536, ← this]
  have := v.isLt
  omega
theorem movi5_eq (imm : Nat) (hi : imm < 32) :
    (BitVec.ofNat 5 imm).signExtend 32 = BitVec.ofInt 32 (if imm < 16 then imm else (imm : Int) - 32) := by
  interval_cases imm <;> decide
theorem icond_eq {w : Nat} (c : ICond) (x y : BitVec w) : icond c x y = condHolds c x y := by
  cases c <;> simp [icond, condHolds, BitVec.slt, BitVec.sle, BitVec.ult, BitVec.ule, BitVec.toNat_inj]
  · rw [Bool.eq_iff_iff]; simp
  · rw [Bool.eq_iff_iff]; simp

/-! ### From the moulds to the statements' terms -/

theorem gives1_of {s : State} {p : Pass} {d : Nat} {k : Bool} {a : Src} {f g : W32 → W32} {i : Instr} (h : LanePass s p)
    (w : Fields p k d 1 [(a, 1)]) (e : exec i s = lane1 s d k a f) (q : ∀ x, f x = g x) : Gives1 s p d k a i g := by
  obtain rfl : f = g := funext q
  obtain ⟨t, h1, h2⟩ := lane1_runs s p d k a f h w
  exact ⟨t, by rw [e, h1], h2⟩
theorem gives2_of {s : State} {p : Pass} {d : Nat} {k : Bool} {a b : Src} {f g : W32 → W32 → W32} {i : Instr} (h : LanePass s p)
    (w : Fields p k d 1 [(a, 1), (b, 1)]) (e : exec i s = lane2 s d k a b f) (q : ∀ x y, f x y = g x y) : Gives2 s p d k a b i g := by
  obtain rfl : f = g := by funext x y; exact q x y
  obtain ⟨t, h1, h2⟩ := lane2_runs s p d k a b f h w
  exact ⟨t, by rw [e, h1], h2⟩
theorem gives3_of {s : State} {p : Pass} {d : Nat} {k : Bool} {a b c : Src} {f g : W32 → W32 → W32 → W32} {i : Instr}
    (h : LanePass s p) (w : Fields p k d 1 [(a, 1), (b, 1), (c, 1)]) (e : exec i s = lane3 s d k a b c f)
    (q : ∀ x y z, f x y z = g x y z) : Gives3 s p d k a b c i g := by
  obtain rfl : f = g := by funext x y z; exact q x y z
  obtain ⟨t, h1, h2⟩ := lane3_runs s p d k a b c f h w
  exact ⟨t, by rw [e, h1], h2⟩
theorem givesF1_of {s : State} {p : Pass} {d : Nat} {k : Bool} {a : Src} {f : W32 → W32 × BitVec 7} {i : Instr} (h : LanePass s p)
    (w : Fields p k d 1 [(a, 1)]) (e : exec i s = laneF1 s d k a f) : GivesF1 s p d k a i f := by
  obtain ⟨t, h1, h2⟩ := laneF1_runs s p d k a f h w
  exact ⟨t, by rw [e, h1], h2⟩
theorem givesF2_of {s : State} {p : Pass} {d : Nat} {k : Bool} {a b : Src} {f : W32 → W32 → W32 × BitVec 7} {i : Instr}
    (h : LanePass s p) (w : Fields p k d 1 [(a, 1), (b, 1)]) (e : exec i s = laneF2 s d k a b f) : GivesF2 s p d k a b i f := by
  obtain ⟨t, h1, h2⟩ := laneF2_runs s p d k a b f h w
  exact ⟨t, by rw [e, h1], h2⟩
theorem givesF3_of {s : State} {p : Pass} {d : Nat} {k : Bool} {a b c : Src} {f : W32 → W32 → W32 → W32 × BitVec 7} {i : Instr}
    (h : LanePass s p) (w : Fields p k d 1 [(a, 1), (b, 1), (c, 1)]) (e : exec i s = laneF3 s d k a b c f) :
    GivesF3 s p d k a b c i f := by
  obtain ⟨t, h1, h2⟩ := laneF3_runs s p d k a b c f h w
  exact ⟨t, by rw [e, h1], h2⟩

end Sys2Proof.Machine
end

