-- ==== Sys2Proof/Laws/Results.lean ====
section
/-! SUPPORT. The other results of a pass: masks over a set of lanes, lane registers alone, elements of algebras, planes, and the
uniform registers of coach instances. -/

set_option Elab.async false

namespace Sys2Proof.Machine

theorem orStatus_zero (k : Skein) : k.orStatus 0 = k := by
  cases k; simp [Skein.orStatus]
theorem State.maskOnly_result (s : State) (p : Pass) (m : Nat) (ls v : Lanes) (h : LanePass s p) :
    MaskResult s ((s.modSk p.bid p.ix fun x => x.setMask m ls v).endPass p) p m ls v 0 := by
  have := s.laneMask_result p m ls v 0 h
  simpa only [orStatus_zero] using this
/-- Lane registers alone change. -/
theorem State.lanes_result (s : State) (p : Pass) (m : NMap W32) (lt : Latches) (st : BitVec 7) (n : Nat) (F : Skein → Skein) (h : LanePass s p)
    (hF : F p.sk = { p.sk with r := { p.sk.r with lanes := m, latch := lt, status := st } }) :
    ∃ k, OnlySkein s (((s.modSk p.bid p.ix F).takeFree n).endPass p) p.bid p.ix k ∧ RestKept p k ∧ WentOn p k p.arm.ks ∧ k.r.lanes = m
      ∧ k.r.masks = p.sk.r.masks ∧ k.r.latch = lt ∧ k.r.status = st ∧ k.win = p.sk.win ∧ k.vbase = p.sk.vbase := by
  obtain ⟨hs, ha, u, hu, hf, -⟩ := h.parts
  obtain ⟨k, h1, h2, h3, h4, h5, h6, h7, h8, h9⟩ := pass_ended s p F n u u p.arm.ks p.arm h hu (by rw [hF]; exact ha) (by rw [← hu])
    ⟨rfl, rfl, rfl, hf, rfl⟩ (by rw [hF]) (by intro b hb; rw [hF])
  rw [hF] at h4 h5 h6 h7
  exact ⟨k, h1, h2, h3, h4, h5, h6, h7, h8, by unfold Skein.vbase Skein.trapMode; rw [h8, h9]⟩
theorem State.silent_result (s : State) (p : Pass) (d : Nat) (f : Nat → W32) (h : LanePass s p) :
    SilentResult s ((s.modSk p.bid p.ix fun k => k.setVs d p.lanes f).endPass p) p d f := by
  obtain ⟨k, h1, h2, h3, h4, h5, h6, h7, h8, h9⟩ := s.lanes_result p (p.sk.setVs d p.lanes f).r.lanes p.sk.r.latch p.sk.r.status 0
    (fun k => k.setVs d p.lanes f) h (by rw [Skein.setVs_eq]; rfl)
  have := lane32_read p k d false f h4 h8 h9
  exact ⟨k, h1, h2, h3, this.1 rfl, this.2, h5, h6, h7⟩
/-- Component by component, the registers of an element. -/
theorem setElement_eq (k : Skein) (d : Nat) (ls : List Nat) (f : Nat → Nat → W32) (is : List Nat) :
    ∃ m, is.foldl (fun (k : Skein) i => k.setVs (d + i) ls fun l => f l i) k = k.withLanes m := by
  induction is generalizing k with
  | nil => exact ⟨k.r.lanes, rfl⟩
  | cons i is ih =>
    obtain ⟨m, hm⟩ := ih (k.setVs (d + i) ls fun l => f l i)
    refine ⟨m, ?_⟩
    rw [List.foldl_cons, hm, Skein.setVs_eq]; rfl
theorem setElement_logical (k : Skein) (d n : Nat) (ls : List Nat) (f : Nat → Nat → W32) (x l : Nat) (hl : l < 16)
    (hs : ∀ l ∈ ls, l < 16) :
    ((List.range n).foldl (fun (k : Skein) i => k.setVs (d + i) ls fun l => f l i) k).win = k.win ∧
    ((List.range n).foldl (fun (k : Skein) i => k.setVs (d + i) ls fun l => f l i) k).vbase = k.vbase ∧
    ((l ∉ ls ∨ ∀ i, i < n → x % k.win.allot ≠ (k.vbase + d + i) % k.win.allot) →
      ((List.range n).foldl (fun (k : Skein) i => k.setVs (d + i) ls fun l => f l i) k).logical x l = k.logical x l) ∧
    (∀ i, i < n → (∀ j, i < j → j < n → x % k.win.allot ≠ (k.vbase + d + j) % k.win.allot) → l ∈ ls →
      x % k.win.allot = (k.vbase + d + i) % k.win.allot →
      ((List.range n).foldl (fun (k : Skein) i => k.setVs (d + i) ls fun l => f l i) k).logical x l = f l i) := by
  induction n with
  | zero => simp
  | succ n ih =>
    obtain ⟨i1, i2, i3, i4⟩ := ih
    rw [List.range_succ, List.foldl_append]
    simp only [List.foldl_cons, List.foldl_nil]
    generalize hk : (List.range n).foldl (fun (k : Skein) i => k.setVs (d + i) ls fun l => f l i) k = q at *
    have hw : ∀ (r : Skein) e g, (r.setVs e ls g).win = r.win := by intro r e g; rw [Skein.setVs_eq]; rfl
    have hb : ∀ (r : Skein) e g, (r.setVs e ls g).vbase = r.vbase := by intro r e g; rw [Skein.setVs_eq]; rfl
    refine ⟨by rw [hw, i1], by rw [hb, i2], ?_, ?_⟩
    · intro hx
      rw [setVs_logical q _ ls _ x l hl hs, if_neg]
      · exact i3 (hx.imp id fun h i hi => h i (by omega))
      · rintro ⟨q1, q2⟩
        rcases hx with hx | hx
        · exact hx q1
        · apply hx n (by omega); rw [i1, i2] at q2; rw [q2]; congr 1; omega
    · intro i hi hj hm he
      rw [setVs_logical q _ ls _ x l hl hs]
      by_cases e : i = n
      · subst e; rw [if_pos]; refine ⟨hm, ?_⟩; rw [i1, i2, he]; congr 1; omega
      · rw [if_neg]
        · exact i4 i (by omega) (fun j h1 h2 => hj j h1 (by omega)) hm he
        · rintro ⟨q1, q2⟩
          apply hj n (by omega) (by omega); rw [i1, i2] at q2; rw [q2]; congr 1; omega
/-- Fewer registers than the allotment lie in slots of their own. -/
theorem slots_apart (a x n : Nat) (h : 0 < n) (g : n < a) : x % a ≠ (x + n) % a := by
  rw [Nat.add_mod, Nat.mod_eq_of_lt g]
  have := Nat.mod_lt x (by omega : 0 < a)
  generalize x % a = r at *
  by_cases c : r + n < a
  · rw [Nat.mod_eq_of_lt c]; omega
  · rw [Nat.mod_eq_sub_mod (by omega), Nat.mod_eq_of_lt (by omega)]; omega
theorem State.element_result (s : State) (p : Pass) (d n : Nat) (f : Nat → Nat → W32) (fl : BitVec 7) (h : LanePass s p)
    (hn : n ≤ p.sk.win.allot) :
    ElementResult s (((s.modSk p.bid p.ix fun k =>
        (((List.range n).foldl (fun (k : Skein) i => k.setVs (d + i) p.lanes fun l => f l i) k).smearLatch s.fresh.free
          p.lanes).orStatus fl).takeFree 16).endPass p) p d n f fl := by
  obtain ⟨m, hm⟩ := setElement_eq p.sk d p.lanes f (List.range n)
  obtain ⟨k, h1, h2, h3, h4, h5, h6, h7, h8, h9⟩ := s.lanes_result p m
    { p.sk.r.latch with ent := mapSetAll p.sk.r.latch.ent p.lanes fun l => Config.freeDouble (s.fresh.free + l) } (p.sk.r.status ||| fl) 16
    (fun k => (((List.range n).foldl (fun (k : Skein) i => k.setVs (d + i) p.lanes fun l => f l i) k).smearLatch s.fresh.free
          p.lanes).orStatus fl) h (by rw [hm]; rfl)
  have hlt : ∀ l ∈ p.lanes, l < 16 := fun l hl => lanes_lt p l hl
  have hl : ∀ x l, k.logical x l = ((List.range n).foldl (fun (k : Skein) i => k.setVs (d + i) p.lanes fun l => f l i) p.sk).logical x l := by
    intro x l; rw [hm]; simp only [Skein.logical, h4, h8]; rfl
  refine ⟨k, h1, h2, h3, ?_, ?_, h5, by rw [h6], ?_, h7⟩
  · intro l hm i hi
    show k.logical (k.vbase + (d + i)) l = _
    rw [hl, h9]
    have := (setElement_logical p.sk d n p.lanes f (p.sk.vbase + (d + i)) l (hlt l hm) hlt).2.2.2 i hi ?_ hm (by congr 1; omega)
    · exact this
    · intro j h1 h2 e
      have : (p.sk.vbase + (d + i)) % p.sk.win.allot = (p.sk.vbase + d + j) % p.sk.win.allot := e
      exact slots_apart p.sk.win.allot (p.sk.vbase + (d + i)) (j - i) (by omega) (by omega) (by rw [this]; congr 1; omega)
  · intro x l hl16 hx
    rw [hl]
    exact (setElement_logical p.sk d n p.lanes f x l hl16 hlt).2.2.1 hx
  · intro x hx
    rw [h6]; simp only [mapGetD_setAll, if_neg hx]

/-! ### Planes and gathered sets -/

/-- `PSET`: the planes noted, the pass ended (R56). -/
theorem planes_result (s : State) (p : Pass) (q : Nat → Nat) (h : LanePass s p) :
    PlaneResult s ((s.modArm p.bid p.ix p.ai fun a => { a with issue := a.issue.map fun u => { u with pset := mapSetAll u.pset p.lanes q } }).endPass p) p q := by
  obtain ⟨hs, ha, u, hu, hf, hoff, hlen, hlast, -⟩ := h.parts
  let F : Skein → Skein := fun k => k.modArm p.ai fun a => { a with issue := a.issue.map fun u => { u with pset := mapSetAll u.pset p.lanes q } }
  let u' : Issue := { u with pset := mapSetAll u.pset p.lanes q }
  let a' : Arm := { p.arm with issue := some u' }
  have hF : (F p.sk).arms[p.ai]? = some a' := by
    show (listMod _ _ _)[_]? = _
    rw [listMod_get, if_pos rfl, ha]; simp [hu, a', u']
  have hF' : ∀ b, b ≠ p.ai → (F p.sk).arms[b]? = p.sk.arms[b]? := by
    intro b hb
    show (listMod _ _ _)[_]? = _
    rw [listMod_get, if_neg hb]
  have e1 : ((s.modArm p.bid p.ix p.ai fun a => { a with issue := a.issue.map fun u => { u with pset := mapSetAll u.pset p.lanes q } }).endPass p)
      = s.modSk p.bid p.ix fun _ => (F p.sk).endPass p.ai s.mem.writes := by
    rw [State.modArm_eq, State.modSk_const s p.bid p.ix F p.sk hs,
      State.endPass_skein _ p (F p.sk) u' h.2.1 (by simp [hs]) (by rw [Skein.arm_of _ _ _ hF]) hf]
    simp only [State.modSk_mem, State.modSk_modSk]
  rw [e1]
  have harm : ((F p.sk).arm p.ai).issue = some u' := by rw [Skein.arm_of _ p.ai a' hF]
  have hset := fun b => Skein.modArm_get (F p.sk) p.ai b Arm.endPass
  refine ⟨_, ⟨0, rfl⟩, ?_⟩
  by_cases g : u.rest.length ≤ 1
  · have hE : (F p.sk).endPass p.ai s.mem.writes = ((F p.sk).modArm p.ai Arm.endPass).applyPlanes u'.pset := by
      unfold Skein.endPass; rw [harm]; simp [u', g, hf]
    have hA : a'.endPass = { a' with issue := none, path := a'.path.map fun x => { x with off := u'.off + u'.len } } :=
      Arm.endPass_last a' u' rfl g
    rw [hE]
    refine ⟨⟨rfl, rfl, rfl, rfl, rfl, rfl, rfl, rfl, rfl, ?_⟩, rfl, rfl, rfl, rfl, a'.endPass, ?_, ?_, ?_, ?_⟩
    · intro b hb
      show ((F p.sk).modArm p.ai Arm.endPass).arms[b]? = _
      rw [hset, if_neg hb, hF' b hb]
    · show ((F p.sk).modArm p.ai Arm.endPass).arms[p.ai]? = _
      rw [hset, if_pos rfl, hF]; rfl
    · rw [hA]
    · rw [hA]
    · simp only [hlast, g, decide_true, if_true]
      refine ⟨by rw [hA], by rw [hA]; simp [a', u', hoff, hlen], ?_⟩
      intro l hl
      rw [applyPlanes_plane _ _ _ hl]
      simp only [u', mapGet_setAll, hu, Option.elim]
      by_cases c : l ∈ p.lanes
      · simp [c]
      · simp only [c, if_false]; rfl
  · have hE : (F p.sk).endPass p.ai s.mem.writes = (F p.sk).modArm p.ai Arm.endPass := by
      unfold Skein.endPass; rw [harm]; simp [u', g]
    have hA : a'.endPass = { a' with issue := some { u' with rest := u'.rest.drop 1 } } :=
      Arm.endPass_more a' u' rfl g
    rw [hE]
    refine ⟨⟨rfl, rfl, rfl, rfl, rfl, rfl, rfl, rfl, rfl, ?_⟩, rfl, rfl, rfl, rfl, a'.endPass, ?_, ?_, ?_, ?_⟩
    · intro b hb; rw [hset, if_neg hb, hF' b hb]
    · rw [hset, if_pos rfl, hF]; rfl
    · rw [hA]
    · rw [hA]
    · simp only [hlast, g, decide_false, Bool.false_eq_true, if_false]
      refine ⟨by rw [hA], fun l hl => rfl, ?_⟩
      intro l hl
      rw [hA]
      simp only [u', mapGet_setAll, hu, Option.elim]
theorem pset_runs (s : State) (p : Pass) (ch : List (Option Trap)) (q : Nat → Nat) (h : LanePass s p)
   (hc : p.em = 0 ∨ ∀ x ∈ ch, x = none) (hq : ∀ l ∈ p.lanes, q l < planesOf s p) : PlaneResult s (psetWith s p ch q) p q := by
  unfold psetWith
  rw [laneGuarded_if s p _ _ hc h.2.1]
  have : laneSet (fun l => p.act.getLsbD l && decide (planesOf s p ≤ q l)) = 0 := by
    apply BitVec.eq_of_getLsbD_eq
    intro l hl
    rw [laneSet_get _ _ hl]
    by_cases g : p.act.getLsbD l = true
    · have := hq l ((mem_lanesOf _ _).2 g)
      simp [g]; omega
    · simp [g]
  simp only [this, if_true]
  exact planes_result s p q h
/-- What the instructions over the gathered set do. -/
theorem gather_runs (s : State) (p : Pass) (kd : Nat) (i : Instr) (ch : Pass → List (Option Trap)) (f : Pass → List Nat → W64 × BitVec 7) (h : LanePass s p)
   (hi : exec i s = gatherK s kd ch f) (hc : p.em = 0 ∨ ∀ x ∈ ch p, x = none) :
   Runs s i fun t => if p.gatherEnds && p.gathered != 0 then UniformResult s t p kd (f p (lanesOf p.gathered)).1 (f p (lanesOf p.gathered)).2 else NoResult s t p := by
  refine ⟨_, hi.trans (s.withPass_some p _ h.1), ?_⟩
  rw [laneGuarded_if s p _ _ (hc.imp id fun g => ?_) h.2.1]
  · cases e : p.gatherEnds && p.gathered != 0
    · simpa using s.endPass_result p h
    · simp only [if_true]
      exact s.uniform_result p kd _ _ h
  · simpa [laneRole_ok p h.2.1] using g

/-! ### Uniform registers -/

theorem State.coach_result (s : State) (p : Pass) (kd : Nat) (v : W64) (h : CoachPass s p) :
    CoachResult s (s.uniform p kd v) p kd v := by
  unfold CoachResult State.uniform State.setK State.endPass
  simp only [h.2, if_true]
  unfold State.modCoach State.modBlk
  rw [mapMod_mod]
  congr 2
  funext x
  cases x.coach <;> rfl
theorem kOp_runs (s : State) (p : Pass) (kd : Nat) (f : Pass → W64) (h : LanePass s p ∨ CoachPass s p) :
    ∃ t, kOp s kd f = .next t ∧ if p.coach then CoachResult s t p kd (f p) else UniformResult s t p kd (f p) 0 := by
  rcases h with h | h
  · refine ⟨_, s.withPass_some p _ h.1, ?_⟩
    rw [if_neg (by simp [h.2.1])]
    exact s.uniform_plain p kd (f p) h
  · refine ⟨_, s.withPass_some p _ h.1, ?_⟩
    rw [if_pos h.2]
    exact s.coach_result p kd (f p) h
theorem givesK_of {s : State} {p : Pass} {kd : Nat} {f : Pass → W64} {v : W64} {i : Instr} (h : LanePass s p ∨ CoachPass s p)
    (e : exec i s = kOp s kd f) (q : f p = v) : GivesK s p kd i v := by
  subst q
  obtain ⟨t, h1, h2⟩ := kOp_runs s p kd f h
  exact ⟨t, by rw [e, h1], h2⟩

end Sys2Proof.Machine
end

