-- ==== Sys2Proof/Tests/Slice0.lean ====
section
/-! SUPPORT. Tests. Words are written out from the encoding tables of spec 04 and the reference pages 16-18; expected results are the
spec's worked examples. -/

set_option Elab.async false
open Sys2Proof Sys2Proof.Machine

namespace Sys2Proof.Tests

/-! ### Well-formedness: one ill-formed term for each check -/

/-- Every check of `Instr.wf` refuses a term one past its bound. -/
theorem test_ill_formed_1 : (([.iadd 64 false (.v 1) (.v 1), .iadd 0 false (.v 64) (.v 1), .iadd 0 false (.v 1) (.v 64), .isub 64 false (.v 1) (.v 1),
   .isub 0 false (.v 64) (.v 1), .isub 0 false (.v 1) (.v 64), .imul 64 false (.v 1) (.v 1), .imul 0 false (.v 64) (.v 1),
   .imul 0 false (.v 1) (.v 64), .imulh 64 false (.v 1) (.v 1), .imulh 0 false (.v 64) (.v 1), .imulh 0 false (.v 1) (.v 64),
   .imulhZ 64 false (.v 1) (.v 1), .imulhZ 0 false (.v 64) (.v 1), .imulhZ 0 false (.v 1) (.v 64), .imin 64 false (.v 1) (.v 1),
   .imin 0 false (.v 64) (.v 1), .imin 0 false (.v 1) (.v 64), .iminZ 64 false (.v 1) (.v 1), .iminZ 0 false (.v 64) (.v 1),
   .iminZ 0 false (.v 1) (.v 64), .imax 64 false (.v 1) (.v 1), .imax 0 false (.v 64) (.v 1), .imax 0 false (.v 1) (.v 64),
   .imaxZ 64 false (.v 1) (.v 1), .imaxZ 0 false (.v 64) (.v 1), .imaxZ 0 false (.v 1) (.v 64), .land 64 false (.v 1) (.v 1),
   .land 0 false (.v 64) (.v 1), .land 0 false (.v 1) (.v 64), .lor 64 false (.v 1) (.v 1), .lor 0 false (.v 64) (.v 1),
   .lor 0 false (.v 1) (.v 64), .lxor 64 false (.v 1) (.v 1), .lxor 0 false (.v 64) (.v 1), .lxor 0 false (.v 1) (.v 64),
   .shl 64 false (.v 1) (.v 1), .shl 0 false (.v 64) (.v 1), .shl 0 false (.v 1) (.v 64), .shr 64 false (.v 1) (.v 1),
   .shr 0 false (.v 64) (.v 1), .shr 0 false (.v 1) (.v 64), .sar 64 false (.v 1) (.v 1), .sar 0 false (.v 64) (.v 1),
   .sar 0 false (.v 1) (.v 64), .iaddc 64 false (.v 1) (.v 1), .iaddc 0 false (.v 64) (.v 1), .iaddc 0 false (.v 1) (.v 64),
   .mov 64 false (.v 1), .mov 0 false (.v 64), .lnot 64 false (.v 1), .lnot 0 false (.v 64),
   .ineg 64 false (.v 1), .ineg 0 false (.v 64), .iabs 64 false (.v 1), .iabs 0 false (.v 64),
   .clz 64 false (.v 1), .clz 0 false (.v 64), .popc 64 false (.v 1), .popc 0 false (.v 64)] : List Instr).all fun i => !i.wf) = true := by decide +kernel
theorem test_ill_formed_2 : (([.brev 64 false (.v 1), .brev 0 false (.v 64), .fabs 64 false (.v 1), .fabs 0 false (.v 64),
   .fneg 64 false (.v 1), .fneg 0 false (.v 64), .frcp 64 false (.v 1), .frcp 0 false (.v 64),
   .frsq 64 false (.v 1), .frsq 0 false (.v 64), .fsqrt 64 false (.v 1), .fsqrt 0 false (.v 64),
   .fexp2 64 false (.v 1), .fexp2 0 false (.v 64), .flog2 64 false (.v 1), .flog2 0 false (.v 64),
   .fsin 64 false (.v 1), .fsin 0 false (.v 64), .fcos 64 false (.v 1), .fcos 0 false (.v 64),
   .fadd 64 false (.v 1) (.v 1) .rne, .fadd 0 false (.v 64) (.v 1) .rne, .fadd 0 false (.v 1) (.v 64) .rne, .fsub 64 false (.v 1) (.v 1) .rne,
   .fsub 0 false (.v 64) (.v 1) .rne, .fsub 0 false (.v 1) (.v 64) .rne, .fmul 64 false (.v 1) (.v 1) .rne, .fmul 0 false (.v 64) (.v 1) .rne,
   .fmul 0 false (.v 1) (.v 64) .rne, .dadd 64 false (.v 1) (.v 1) .rne, .dadd 0 false (.v 64) (.v 1) .rne, .dadd 0 false (.v 1) (.v 64) .rne,
   .dmul 64 false (.v 1) (.v 1) .rne, .dmul 0 false (.v 64) (.v 1) .rne, .dmul 0 false (.v 1) (.v 64) .rne, .ffma 64 false (.v 1) (.v 1) 0,
   .ffma 0 false (.v 1) (.v 1) 16, .ffma 0 false (.v 64) (.v 1) 0, .ffma 0 false (.v 1) (.v 64) 0, .dfma 64 false (.v 1) (.v 1) 0,
   .dfma 0 false (.v 1) (.v 1) 16, .dfma 0 false (.v 64) (.v 1) 0, .dfma 0 false (.v 1) (.v 64) 0, .hfma2 64 false (.v 1) (.v 1) 0,
   .hfma2 0 false (.v 1) (.v 1) 16, .hfma2 0 false (.v 64) (.v 1) 0, .hfma2 0 false (.v 1) (.v 64) 0, .imad 64 false (.v 1) (.v 1) 0,
   .imad 0 false (.v 1) (.v 1) 16, .imad 0 false (.v 64) (.v 1) 0, .imad 0 false (.v 1) (.v 64) 0, .bfi 64 false (.v 1) (.v 1) 0,
   .bfi 0 false (.v 1) (.v 1) 16, .bfi 0 false (.v 64) (.v 1) 0, .bfi 0 false (.v 1) (.v 64) 0, .fmin 64 false (.v 1) (.v 1),
   .fmin 0 false (.v 64) (.v 1), .fmin 0 false (.v 1) (.v 64), .fmax 64 false (.v 1) (.v 1), .fmax 0 false (.v 64) (.v 1)] : List Instr).all fun i => !i.wf) = true := by decide +kernel
theorem test_ill_formed_3 : (([.fmax 0 false (.v 1) (.v 64), .fclass 64 false (.v 1), .fclass 0 false (.v 64), .hadd2 64 false (.v 1) (.v 1),
   .hadd2 0 false (.v 64) (.v 1), .hadd2 0 false (.v 1) (.v 64), .fcmp 8 (.v 1) (.v 1) .eq, .fcmp 0 (.v 64) (.v 1) .eq,
   .fcmp 0 (.v 1) (.v 64) .eq, .icmp 8 (.v 1) (.v 1) .eq, .icmp 0 (.v 64) (.v 1) .eq, .icmp 0 (.v 1) (.v 64) .eq,
   .cvt 64 false (.v 1) .f32 .f32 .rne, .cvt 0 false (.v 64) .f32 .f32 .rne, .cvtSat 64 false (.v 1) .f32 .f32 .rne, .cvtSat 0 false (.v 64) .f32 .f32 .rne,
   .sel 64 false (.v 1) (.v 1) 0, .sel 0 false (.v 1) (.v 1) 8, .sel 0 false (.v 64) (.v 1) 0, .sel 0 false (.v 1) (.v 64) 0,
   .lea 64 false (.v 1) (.v 1) 0, .lea 0 false (.v 1) (.v 1) 16, .lea 0 false (.v 64) (.v 1) 0, .lea 0 false (.v 1) (.v 64) 0,
   .bfx 64 false (.v 1) (.v 1) false, .bfx 0 false (.v 64) (.v 1) false, .bfx 0 false (.v 1) (.v 64) false, .movi 64 false 0,
   .movi 0 false 65536, .movh 64 false 0, .movh 0 false 65536, .k2v 64 false 0,
   .k2v 0 false 32, .v2k 32 (.v 1), .v2k 0 (.v 64), .pget 64 false,
   .pset (.v 64), .psetImm 4, .mmovMM 8 0, .mmovMM 0 8,
   .mmovMV 8 (.v 1), .mmovMV 0 (.v 64), .mmovVM 64 false 0, .mmovVM 0 false 8,
   .mmovMK 8 0, .mmovMK 0 32, .mmovKM 32 0, .mmovKM 0 8,
   .mlogAnd 8 0 0, .mlogAnd 0 8 0, .mlogAnd 0 0 8, .mlogOr 8 0 0,
   .mlogOr 0 8 0, .mlogOr 0 0 8, .mlogXor 8 0 0, .mlogXor 0 8 0,
   .mlogXor 0 0 8, .mlogAndn 8 0 0, .mlogAndn 0 8 0, .mlogAndn 0 0 8] : List Instr).all fun i => !i.wf) = true := by decide +kernel
theorem test_ill_formed_4 : (([.shfl 64 false (.v 1) (.v 1) 0, .shfl 0 false (.v 1) (.v 1) 4, .shfl 0 false (.v 64) (.v 1) 0, .shfl 0 false (.v 1) (.v 64) 0,
   .voteAny 8 0, .voteAny 0 8, .voteAll 8 0, .voteAll 0 8,
   .voteBallot 32 0, .voteBallot 0 8, .rdxAdd 32 (.v 1), .rdxAdd 0 (.v 64),
   .rdxMin 32 (.v 1), .rdxMin 0 (.v 64), .rdxMax 32 (.v 1), .rdxMax 0 (.v 64),
   .rdxFadd 32 (.v 1), .rdxFadd 0 (.v 64), .qbcast 64 false (.v 1) 0, .qbcast 0 false (.v 1) 4,
   .qbcast 0 false (.v 64) 0, .qswap 64 false (.v 1) 0, .qswap 0 false (.v 1) 4, .qswap 0 false (.v 64) 0,
   .qfill 64 false (.v 1), .qfill 0 false (.v 64), .amul 64 0 0 0, .amul 0 64 0 0,
   .amul 0 0 64 0, .amul 0 0 0 8, .amad 64 0 0 0, .amad 0 64 0 0,
   .amad 0 0 64 0, .amad 0 0 0 8, .aconj 64 0 0, .aconj 0 64 0,
   .aconj 0 0 8, .anorm 64 0 0, .anorm 0 64 0, .anorm 0 0 8,
   .sread 64 false 0, .sread 0 false 24, .swrite 64 false 0, .swrite 0 false 24,
   .kadd 32 0 0, .kadd 0 32 0, .kadd 0 0 32, .ksub 32 0 0,
   .ksub 0 32 0, .ksub 0 0 32, .kmul 32 0 0, .kmul 0 32 0,
   .kmul 0 0 32, .kshf 32 0 0, .kshf 0 32 0, .kshf 0 0 32,
   .kmov 32 0, .kmov 0 32, .klogAnd 32 0 0, .klogAnd 0 32 0] : List Instr).all fun i => !i.wf) = true := by decide +kernel
theorem test_ill_formed_5 : (([.klogAnd 0 0 32, .klogOr 32 0 0, .klogOr 0 32 0, .klogOr 0 0 32,
   .klogXor 32 0 0, .klogXor 0 32 0, .klogXor 0 0 32, .klogAndn 32 0 0,
   .klogAndn 0 32 0, .klogAndn 0 0 32, .kcmp 32 0 0 .eq, .kcmp 0 32 0 .eq,
   .kcmp 0 0 32 .eq, .kmovi 32 0 0, .kmovi 0 4 0, .kmovi 0 0 65536,
   .ld 64 false 0 .b32 0 0, .ld 0 false 64 .b32 0 0, .ld 0 false 0 .b32 4 0, .ld 0 false 0 .b32 0 256,
   .ldMs 64 0 0 .b32 .relaxed false, .ldMs 0 32 0 .b32 .relaxed false, .ldMs 0 0 64 .b32 .relaxed false, .st 64 false 0 .b32 0 0,
   .st 0 false 64 .b32 0 0, .st 0 false 0 .b32 4 0, .st 0 false 0 .b32 0 256, .stMs 64 0 0 .b32 (.relaxed false),
   .stMs 0 32 0 .b32 (.relaxed false), .stMs 0 0 64 .b32 (.relaxed false), .stMs 0 0 0 .b32 (.rc 0), .stMs 0 0 0 .b32 (.rc 17),
   .ldsp 64 false 0 .b32 0, .ldsp 0 false 64 .b32 0, .ldsp 0 false 0 .b32 256, .stsp 64 false 0 .b32 0,
   .stsp 0 false 64 .b32 0, .stsp 0 false 0 .b32 256, .kld 32 0 .b32 0 0, .kld 0 32 .b32 0 0,
   .kld 0 0 .b32 4 0, .kld 0 0 .b32 0 256, .kst 32 0 .b32 0 0, .kst 0 32 .b32 0 0,
   .kst 0 0 .b32 4 0, .kst 0 0 .b32 0 256, .atom 64 0 0 .die .add, .atom 0 64 0 .die .add,
   .atom 0 0 64 .die .add, .cas 64 0 0 .die 0 false, .cas 0 64 0 .die 0 false, .cas 0 0 64 .die 0 false,
   .cas 0 0 0 .die 8 false, .red false 64 0 .die .add, .red false 0 64 .die .add, .pref 64 0 0 0 0 true,
   .pref 0 32 0 0 0 true, .pref 0 0 64 0 0 true, .pref 0 0 0 2 0 true, .pref 0 0 0 0 32 true] : List Instr).all fun i => !i.wf) = true := by decide +kernel
theorem test_ill_formed_6 : (([.wput 64 0 0, .wput 0 64 0, .wput 0 0 8, .wget 64 0 0,
   .wget 0 64 0, .wget 0 0 64, .wname 64 0 0, .wname 0 64 0,
   .wname 0 0 8, .wrefInc 64, .wrefDec 64, .wswap 64 0 0 0,
   .wswap 0 64 0 0, .wswap 0 0 64 0, .wswap 0 0 0 8, .wcopy 64 0,
   .wcopy 0 64, .waitcmp .eq .die 32 0, .waitcmp .eq .die 0 32, .dqpush 32 0,
   .dqpush 0 32, .dqpop 32, .tqpush 32 0, .tqpush 0 32,
   .tqpop 32 0, .tqpop 0 32, .srput 32 0 .die, .srput 0 32 .die,
   .srwait 32 0, .srwait 0 32, .cwait 32 0, .cwait 0 32,
   .boarr 32, .bowait 32, .dcopy 32 0 0, .dcopy 0 32 0,
   .dcopy 0 0 32, .accz 16 0, .accz 0 32, .accswap 16,
   .accrd 64 false 0 (.v 1), .accrd 0 false 16 (.v 1), .accrd 0 false 0 (.v 64), .accwr 16 (.v 1) (.v 1),
   .accwr 0 (.v 64) (.v 1), .accwr 0 (.v 1) (.v 64), .atab 8 0, .atab 0 32,
   .atabDefault 8, .growRegs 64, .growTiles 64, .shrinkRegs 64,
   .shrinkTiles 64, .rswitch 3, .mma 32 false 0 0 0 0, .mma 0 false 16 0 0 0,
   .mma 0 false 0 8 0 0, .mma 0 false 0 0 16 0, .mma 0 false 0 0 0 32, .trap 16384] : List Instr).all fun i => !i.wf) = true := by decide +kernel
theorem test_ill_formed_7 : (([.bar 16, .jmpi 32, .jinit 8 0, .jinit 0 65536,
   .jinitMask 8 0, .jinitMask 0 8, .jarr 8, .jwait 8,
   .bra 8 false 0, .bra 0 false 2097152, .braRj 8 false 0 0, .braRj 0 false 2048 0,
   .braRj 0 false 0 1024, .brau 32 .nz 0, .brau 0 .nz 262144, .call 8 0,
   .call 0 524288, .yield 32 0 false 0, .yield 0 32 false 0, .yield 0 0 false 16384,
   .iadd16 64 (.v 1), .iadd16 0 (.v 16), .isub16 64 (.v 1), .isub16 0 (.v 16),
   .and16 64 (.v 1), .and16 0 (.v 16), .or16 64 (.v 1), .or16 0 (.v 16),
   .xor16 64 (.v 1), .xor16 0 (.v 16), .shl16 64 (.v 1), .shl16 0 (.v 16),
   .shr16 64 (.v 1), .shr16 0 (.v 16), .mov16 64 (.v 1), .mov16 0 (.v 16),
   .movi16 64 0, .movi16 0 32, .fadd16 64 (.v 1), .fadd16 0 (.v 16),
   .fsub16 64 (.v 1), .fsub16 0 (.v 16), .fmul16 64 (.v 1), .fmul16 0 (.v 16),
   .ffma16 64 (.v 1), .ffma16 0 (.v 16), .imad16 64 (.v 1), .imad16 0 (.v 16),
   .sel16 64 (.v 1), .sel16 0 (.v 16), .lea16 64 (.v 1), .lea16 0 (.v 16),
   .mov 0 false (.b 8), .mov16 0 (.b 8), .sread 32 true 0, .swrite 32 true 0,
   .ld 0 true 32 .b32 0 0, .st 0 true 32 .b32 0 0, .red false 0 0 .die .exch, .red true 0 0 .die .exch64] : List Instr).all fun i => !i.wf) = true := by decide +kernel
theorem test_ill_formed_8 : (([.pref 0 0 0 0 1 false, .pref 0 0 1 0 0 true, .brau 1 .always 0, .yield 1 0 false 0,
   .yield 0 1 false 0, .iadd16 0 (.v 0)] : List Instr).all fun i => !i.wf) = true := by decide +kernel

/-! ### Words of each family -/

theorem test_words_integer :
    decodeTableWord 32 0x02F16603 = some (.iadd 12 true (.b 5) (.v 23))
    ∧ decodeTableWord 32 0x12F16603 = some (.isub 12 true (.b 5) (.v 23))
    ∧ decodeTableWord 32 0x22F16603 = some (.imul 12 true (.b 5) (.v 23))
    ∧ decodeTableWord 32 0x32F16603 = some (.imulh 12 true (.b 5) (.v 23))
    ∧ decodeTableWord 32 0x42F16603 = some (.imulhZ 12 true (.b 5) (.v 23))
    ∧ decodeTableWord 32 0x52F16603 = some (.imin 12 true (.b 5) (.v 23))
    ∧ decodeTableWord 32 0x62F16603 = some (.iminZ 12 true (.b 5) (.v 23))
    ∧ decodeTableWord 32 0x72F16603 = some (.imax 12 true (.b 5) (.v 23))
    ∧ decodeTableWord 32 0x82F16603 = some (.imaxZ 12 true (.b 5) (.v 23))
    ∧ decodeTableWord 32 0x92F16603 = some (.land 12 true (.b 5) (.v 23))
    ∧ decodeTableWord 32 0xA2F16603 = some (.lor 12 true (.b 5) (.v 23))
    ∧ decodeTableWord 32 0xB2F16603 = some (.lxor 12 true (.b 5) (.v 23))
    ∧ decodeTableWord 32 0xC2F16603 = some (.shl 12 true (.b 5) (.v 23))
    ∧ decodeTableWord 32 0xD2F16603 = some (.shr 12 true (.b 5) (.v 23))
    ∧ decodeTableWord 32 0xE2F16603 = some (.sar 12 true (.b 5) (.v 23))
    ∧ decodeTableWord 32 0xF2F16603 = some (.iaddc 12 true (.b 5) (.v 23)) := by
  decide +kernel
theorem test_words_unary :
    decodeTableWord 32 0x00116605 = some (.mov 12 true (.b 5))
    ∧ decodeTableWord 32 0x10116605 = some (.lnot 12 true (.b 5))
    ∧ decodeTableWord 32 0x20116605 = some (.ineg 12 true (.b 5))
    ∧ decodeTableWord 32 0x30116605 = some (.iabs 12 true (.b 5))
    ∧ decodeTableWord 32 0x40116605 = some (.clz 12 true (.b 5))
    ∧ decodeTableWord 32 0x50116605 = some (.popc 12 true (.b 5))
    ∧ decodeTableWord 32 0x60116605 = some (.brev 12 true (.b 5))
    ∧ decodeTableWord 32 0x70116605 = some (.fabs 12 true (.b 5))
    ∧ decodeTableWord 32 0x80116605 = some (.fneg 12 true (.b 5))
    ∧ decodeTableWord 32 0x90116605 = some (.frcp 12 true (.b 5))
    ∧ decodeTableWord 32 0xA0116605 = some (.frsq 12 true (.b 5))
    ∧ decodeTableWord 32 0xB0116605 = some (.fsqrt 12 true (.b 5))
    ∧ decodeTableWord 32 0xC0116605 = some (.fexp2 12 true (.b 5))
    ∧ decodeTableWord 32 0xD0116605 = some (.flog2 12 true (.b 5))
    ∧ decodeTableWord 32 0xE0116605 = some (.fsin 12 true (.b 5))
    ∧ decodeTableWord 32 0xF0116605 = some (.fcos 12 true (.b 5)) := by
  decide +kernel
theorem test_words_float :
    decodeTableWord 32 0x22F16607 = some (.fadd 12 true (.b 5) (.v 23) .rup)
    ∧ decodeTableWord 32 0x22F16609 = some (.fsub 12 true (.b 5) (.v 23) .rup)
    ∧ decodeTableWord 32 0x22F1660B = some (.fmul 12 true (.b 5) (.v 23) .rup)
    ∧ decodeTableWord 32 0x22F1660D = some (.dadd 12 true (.b 5) (.v 23) .rup)
    ∧ decodeTableWord 32 0x22F1660F = some (.dmul 12 true (.b 5) (.v 23) .rup)
    ∧ decodeTableWord 32 0xB2F16611 = some (.ffma 12 true (.b 5) (.v 23) 11)
    ∧ decodeTableWord 32 0xB2F16613 = some (.dfma 12 true (.b 5) (.v 23) 11)
    ∧ decodeTableWord 32 0xB2F16615 = some (.hfma2 12 true (.b 5) (.v 23) 11)
    ∧ decodeTableWord 32 0xB2F16617 = some (.imad 12 true (.b 5) (.v 23) 11)
    ∧ decodeTableWord 32 0xB2F16619 = some (.bfi 12 true (.b 5) (.v 23) 11)
    ∧ decodeTableWord 32 0x02F1661B = some (.fmin 12 true (.b 5) (.v 23))
    ∧ decodeTableWord 32 0x12F1661B = some (.fmax 12 true (.b 5) (.v 23))
    ∧ decodeTableWord 32 0x2011661B = some (.fclass 12 true (.b 5))
    ∧ decodeTableWord 32 0x32F1661B = some (.hadd2 12 true (.b 5) (.v 23)) := by
  decide +kernel
theorem test_words_compare_convert :
    decodeTableWord 32 0x58A5C19D = some (.fcmp 3 (.v 23) (.b 5) .ge)
    ∧ decodeTableWord 32 0x88A5C19F = some (.icmp 3 (.v 23) (.b 5) .hi)
    ∧ decodeTableWord 32 0x43316621 = some (.cvt 12 true (.b 5) .s16 .f32 .rup)
    ∧ decodeTableWord 32 0x43316623 = some (.cvtSat 12 true (.b 5) .s16 .f32 .rup)
    ∧ decodeTableWord 32 0x32F16625 = some (.sel 12 true (.b 5) (.v 23) 3)
    ∧ decodeTableWord 32 0xB2F16627 = some (.lea 12 true (.b 5) (.v 23) 11)
    ∧ decodeTableWord 32 0x12F16629 = some (.bfx 12 true (.b 5) (.v 23) true)
    ∧ decodeTableWord 32 0xB5D9262B = some (.movi 12 true 46553)
    ∧ decodeTableWord 32 0xB5D9662B = some (.movh 12 true 46553) := by
  decide +kernel
theorem test_words_moves_masks :
    decodeTableWord 32 0x0005262D = some (.k2v 12 true 20)
    ∧ decodeTableWord 32 0x1005C42D = some (.v2k 8 (.v 23))
    ∧ decodeTableWord 32 0x2000262D = some (.pget 12 true)
    ∧ decodeTableWord 32 0x3011402D = some (.pset (.b 5))
    ∧ decodeTableWord 32 0x4000802D = some (.psetImm 2)
    ∧ decodeTableWord 32 0x500141AD = some (.mmovMM 3 5)
    ∧ decodeTableWord 32 0x6005C1AD = some (.mmovMV 3 (.v 23))
    ∧ decodeTableWord 32 0x7001A62D = some (.mmovVM 12 true 6)
    ∧ decodeTableWord 32 0x800301AD = some (.mmovMK 3 12)
    ∧ decodeTableWord 32 0x9001442D = some (.mmovKM 8 5)
    ∧ decodeTableWord 32 0xA0C141AD = some (.mlogAnd 3 5 6)
    ∧ decodeTableWord 32 0xB0C141AD = some (.mlogOr 3 5 6)
    ∧ decodeTableWord 32 0xC0C141AD = some (.mlogXor 3 5 6)
    ∧ decodeTableWord 32 0xD0C141AD = some (.mlogAndn 3 5 6) := by
  decide +kernel
theorem test_words_cross_lane :
    decodeTableWord 32 0x22F1662F = some (.shfl 12 true (.b 5) (.v 23) 2)
    ∧ decodeTableWord 32 0x400141AF = some (.voteAny 3 5)
    ∧ decodeTableWord 32 0x500141AF = some (.voteAll 3 5)
    ∧ decodeTableWord 32 0x6001442F = some (.voteBallot 8 5)
    ∧ decodeTableWord 32 0x7005C42F = some (.rdxAdd 8 (.v 23))
    ∧ decodeTableWord 32 0x8005C42F = some (.rdxMin 8 (.v 23))
    ∧ decodeTableWord 32 0x9005C42F = some (.rdxMax 8 (.v 23))
    ∧ decodeTableWord 32 0xA005C42F = some (.rdxFadd 8 (.v 23))
    ∧ decodeTableWord 32 0xB051662F = some (.qbcast 12 true (.b 5) 2)
    ∧ decodeTableWord 32 0xC051662F = some (.qswap 12 true (.b 5) 2)
    ∧ decodeTableWord 32 0xD011662F = some (.qfill 12 true (.b 5)) := by
  decide +kernel
theorem test_words_algebra_special :
    decodeTableWord 32 0x1A460631 = some (.amul 12 24 36 6)
    ∧ decodeTableWord 32 0x3A460631 = some (.amad 12 24 36 6)
    ∧ decodeTableWord 32 0x58060631 = some (.aconj 12 24 6)
    ∧ decodeTableWord 32 0x78060631 = some (.anorm 12 24 6)
    ∧ decodeTableWord 32 0x00016633 = some (.sread 12 true 5)
    ∧ decodeTableWord 32 0x10016633 = some (.swrite 12 true 5) := by
  decide +kernel
theorem test_words_uniform :
    decodeTableWord 32 0x02830435 = some (.kadd 8 12 20)
    ∧ decodeTableWord 32 0x12830435 = some (.ksub 8 12 20)
    ∧ decodeTableWord 32 0x22830435 = some (.kmul 8 12 20)
    ∧ decodeTableWord 32 0x32830435 = some (.kshf 8 12 20)
    ∧ decodeTableWord 32 0x40030435 = some (.kmov 8 12)
    ∧ decodeTableWord 32 0x52830435 = some (.klogAnd 8 12 20)
    ∧ decodeTableWord 32 0x62830435 = some (.klogOr 8 12 20)
    ∧ decodeTableWord 32 0x72830435 = some (.klogXor 8 12 20)
    ∧ decodeTableWord 32 0x82830435 = some (.klogAndn 8 12 20)
    ∧ decodeTableWord 32 0x82830437 = some (.kcmp 8 12 20 .hi)
    ∧ decodeTableWord 32 0xB5D98439 = some (.kmovi 8 2 46553) := by
  decide +kernel
theorem test_words_memory :
    decodeTableWord 32 0xA3A52641 = some (.ld 12 true 20 .b32 2 163)
    ∧ decodeTableWord 32 0xAE918643 = some (.ldMs 12 12 36 .b32 (.acq .tray) true)
    ∧ decodeTableWord 32 0xA3A52645 = some (.st 12 true 20 .b32 2 163)
    ∧ decodeTableWord 32 0xCA918647 = some (.stMs 12 12 36 .b32 (.rel .pkg true))
    ∧ decodeTableWord 32 0xA3252649 = some (.ldsp 12 true 20 .b32 163)
    ∧ decodeTableWord 32 0xA325264B = some (.stsp 12 true 20 .b32 163)
    ∧ decodeTableWord 32 0xA3A3244D = some (.kld 8 12 .b32 2 163)
    ∧ decodeTableWord 32 0xA3A3244F = some (.kst 8 12 .b32 2 163) := by
  decide +kernel
theorem test_words_atomics_prefetch :
    decodeTableWord 32 0x97230651 = some (.atom 12 24 36 .tray .fadd)
    ∧ decodeTableWord 32 0xB7230653 = some (.cas 12 24 36 .tray 3 true)
    ∧ decodeTableWord 32 0x972300D5 = some (.red true 24 36 .tray .fadd)
    ∧ decodeTableWord 32 0xA1918657 = some (.pref 12 12 36 1 8 true) := by
  decide +kernel
theorem test_words_swatches :
    decodeTableWord 32 0x0C030659 = some (.wput 12 24 6)
    ∧ decodeTableWord 32 0x11230659 = some (.wget 12 24 36)
    ∧ decodeTableWord 32 0x2C030659 = some (.wname 12 24 6)
    ∧ decodeTableWord 32 0x30018059 = some (.wrefInc 12)
    ∧ decodeTableWord 32 0x40018059 = some (.wrefDec 12)
    ∧ decodeTableWord 32 0x55230659 = some (.wswap 12 24 36 2)
    ∧ decodeTableWord 32 0x60C18059 = some (.wcopy 12 24) := by
  decide +kernel
theorem test_words_queues :
    decodeTableWord 32 0x818201DB = some (.waitcmp .hi .tray 8 12)
    ∧ decodeTableWord 32 0x0003045D = some (.dqpush 8 12)
    ∧ decodeTableWord 32 0x1000045D = some (.dqpop 8)
    ∧ decodeTableWord 32 0x2003045D = some (.tqpush 8 12)
    ∧ decodeTableWord 32 0x3003045D = some (.tqpop 8 12)
    ∧ decodeTableWord 32 0x4063045D = some (.srput 8 12 .tray)
    ∧ decodeTableWord 32 0x5003045D = some (.srwait 8 12)
    ∧ decodeTableWord 32 0x6003045D = some (.cwait 8 12)
    ∧ decodeTableWord 32 0x7000045D = some (.boarr 8)
    ∧ decodeTableWord 32 0x8000045D = some (.bowait 8) := by
  decide +kernel
theorem test_words_engines :
    decodeTableWord 32 0x0283045F = some (.dcopy 8 12 20)
    ∧ decodeTableWord 32 0x100306DF = some (.accz 13 12)
    ∧ decodeTableWord 32 0x200006DF = some (.accswap 13)
    ∧ decodeTableWord 32 0x32E3665F = some (.accrd 12 true 13 (.v 23))
    ∧ decodeTableWord 32 0x48A5C6DF = some (.accwr 13 (.v 23) (.b 5))
    ∧ decodeTableWord 32 0x5003035F = some (.atab 6 12)
    ∧ decodeTableWord 32 0x6000035F = some (.atabDefault 6)
    ∧ decodeTableWord 32 0x70000DDF = some (.growRegs 27)
    ∧ decodeTableWord 32 0x80000DDF = some (.growTiles 27)
    ∧ decodeTableWord 32 0x90000DDF = some (.shrinkRegs 27)
    ∧ decodeTableWord 32 0xA0000DDF = some (.shrinkTiles 27)
    ∧ decodeTableWord 32 0xB000015F = some (.rswitch 2)
    ∧ decodeTableWord 32 0x197B5461 = some (.mma 8 true 13 6 11 12) := by
  decide +kernel
theorem test_words_control :
    decodeTableWord 32 0x00000063 = some (.nop)
    ∧ decodeTableWord 32 0x10000063 = some (.ret)
    ∧ decodeTableWord 32 0x20000063 = some (.exit)
    ∧ decodeTableWord 32 0x30000063 = some (.isync)
    ∧ decodeTableWord 32 0x400001E3 = some (.fence .tray)
    ∧ decodeTableWord 32 0x50000063 = some (.ofence)
    ∧ decodeTableWord 32 0x600001E3 = some (.tfence .tray)
    ∧ decodeTableWord 32 0x700001E3 = some (.icinv .tray)
    ∧ decodeTableWord 32 0x80000063 = some (.bkpt)
    ∧ decodeTableWord 32 0x90000063 = some (.tret)
    ∧ decodeTableWord 32 0xAD764063 = some (.trap 13785)
    ∧ decodeTableWord 32 0xB00005E3 = some (.bar 11)
    ∧ decodeTableWord 32 0xC0020063 = some (.jmpi 8) := by
  decide +kernel
theorem test_words_joins_branches :
    decodeTableWord 32 0xB5D901E5 = some (.jinit 3 46553)
    ∧ decodeTableWord 32 0x000541E5 = some (.jinitMask 3 5)
    ∧ decodeTableWord 32 0x000081E5 = some (.jarr 3)
    ∧ decodeTableWord 32 0x0000C1E5 = some (.jwait 3)
    ∧ decodeTableWord 32 0x15AECDE7 = some (.bra 3 true 177625)
    ∧ decodeTableWord 32 0x766ECDE9 = some (.braRj 3 true 1497 473)
    ∧ decodeTableWord 32 0xAD76646B = some (.brau 8 .z 177625)
    ∧ decodeTableWord 32 0x56BB236D = some (.call 6 177625)
    ∧ decodeTableWord 32 0xD766C46F = some (.yield 8 12 true 13785) := by
  decide +kernel
theorem test_words_short :
    decodeTableWord 16 0x9980 = some (.iadd16 12 (.b 3))
    ∧ decodeTableWord 16 0x4982 = some (.isub16 12 (.v 9))
    ∧ decodeTableWord 16 0x4984 = some (.and16 12 (.v 9))
    ∧ decodeTableWord 16 0x4986 = some (.or16 12 (.v 9))
    ∧ decodeTableWord 16 0x4988 = some (.xor16 12 (.v 9))
    ∧ decodeTableWord 16 0x498A = some (.shl16 12 (.v 9))
    ∧ decodeTableWord 16 0x498C = some (.shr16 12 (.v 9))
    ∧ decodeTableWord 16 0x998E = some (.mov16 12 (.b 3))
    ∧ decodeTableWord 16 0xA990 = some (.movi16 12 21)
    ∧ decodeTableWord 16 0x4992 = some (.fadd16 12 (.v 9))
    ∧ decodeTableWord 16 0x4994 = some (.fsub16 12 (.v 9))
    ∧ decodeTableWord 16 0x4996 = some (.fmul16 12 (.v 9))
    ∧ decodeTableWord 16 0x4998 = some (.ffma16 12 (.v 9))
    ∧ decodeTableWord 16 0x499A = some (.imad16 12 (.v 9))
    ∧ decodeTableWord 16 0x499C = some (.sel16 12 (.v 9))
    ∧ decodeTableWord 16 0x499E = some (.lea16 12 (.v 9))
    ∧ decodeTableWord 16 0xF80E = some (.nop16) := by
  decide +kernel

/-! ### Worked examples of the spec, word and result -/

/-- One issue of the word at offset 0 in lanes `m`; `regs` lists the lane registers as (16 · register + lane, value), `ks` the uniform ones. -/
def example_ (m : Lanes) (regs : NMap W32) (ks : NMap W64) (masks : NMap Lanes) : State :=
  let s := (State.reset.placeWord 1).modSk 0 0 fun k =>
    { k with r := { k.r with lanes := regs, masks := mapSet masks 0 m, latch := { valid := 0xFF, ent := [] } } }
  { s.modArm 0 0 0 (fun a => { a with ks := ks, issue := some { off := 0, len := 4, exec := m, sets := [(0, m)], words := [(0, 1)], rest := [(0, m)], pushed := none, fails := [], pset := [], replay := none } }) with cur := some (.skein 0 0 0), agenda := [] }
/-- The word runs at `s`, and the skein it leaves meets `f`. -/
def gives (w : Nat) (s : State) (f : Skein → Bool) : Bool :=
  match decodeTableWord 32 w with
  | none => false
  | some i => match exec i s with
    | .next t => (t.sk? 0 0).elim false f
    | _ => false
def reg (k : Skein) (i l : Nat) : Nat := (k.logical i l).toNat
def kreg (k : Skein) (i : Nat) : Nat := ((k.arms.head?).elim 0 fun a => (mapGetD a.ks i 0).toNat)
def oneLane (regs : List (Nat × Nat)) : State := example_ 1 (regs.map fun e => (16 * e.1, BitVec.ofNat 32 e.2)) [] []
def writes (w : Nat) (regs : List (Nat × Nat)) (d v : Nat) : Bool := gives w (oneLane regs) fun k => reg k d 0 == v
/-- R412. -/
theorem test_not_popc : writes 0x10004185 [(1, 0xF0F0)] 3 0xFFFF0F0F = true ∧ writes 0x50004185 [(1, 0xF0F0)] 3 8 = true := by decide +kernel
/-- R387. -/
theorem test_iabs : writes 0x30004185 [(1, 0xFFFFFFF9)] 3 7 = true ∧ writes 0x30004185 [(1, 0x80000000)] 3 0x80000000 = true := by decide +kernel
/-- R363. -/
theorem test_brev_clz : writes 0x60004185 [(1, 1)] 3 0x80000000 = true ∧ writes 0x40004185 [(1, 1)] 3 31 = true := by decide +kernel
/-- R376. -/
theorem test_fneg_nan : writes 0x80004185 [(1, 0x7FA00001)] 3 0xFFA00001 = true := by decide +kernel
/-- R388. -/
theorem test_imulh : writes 0x30404183 [(1, 0xFFFFFFFF), (2, 2)] 3 0xFFFFFFFF = true ∧ writes 0x40404183 [(1, 0xFFFFFFFF), (2, 2)] 3 1 = true := by decide +kernel
/-- R389. -/
theorem test_iaddc : gives 0xF0400203 (oneLane [(0, 0xFFFFFFFF), (2, 1)]) (fun k => reg k 4 0 == 0 && (k.mask 7).getLsbD 0) = true
    ∧ gives 0xF0604283 (example_ 1 [(0, 0xFFFFFFFF), (32, 1)] [] [(7, 1)]) (fun k => reg k 5 0 == 1 && !(k.mask 7).getLsbD 0) = true := by decide +kernel
/-- R423. -/
theorem test_shifts : writes 0xE0404183 [(1, 0x80000010), (2, 0x24)] 3 0xF8000001 = true ∧ writes 0xD0404183 [(1, 0x80000010), (2, 0x24)] 3 0x08000001 = true := by decide +kernel
/-- R358. -/
theorem test_fields : writes 0x00608219 [(2, 0xAB), (3, 0x804), (4, 0xFFFFFFFF)] 4 0xFFFFFABF = true ∧ writes 0x106102A9 [(3, 0x804), (4, 0xFFFFFABF)] 5 0xFFFFFFAB = true := by decide +kernel
/-- R408. -/
theorem test_movi_movh : writes 0xDEAD45AB [(11, 0xFFFFBEEF)] 11 0xDEADBEEF = true ∧ gives 0x100005AB (oneLane []) (fun k => reg k 11 0 == 0x1000) = true := by decide +kernel
/-- R377. -/
theorem test_fadd_rounding : writes 0x20C14387 [(5, 0x3F800000), (6, 0x33800000)] 7 0x3F800001 = true ∧ writes 0x00C14387 [(5, 0x3F800000), (6, 0x33800000)] 7 0x3F800000 = true := by decide +kernel
/-- R378. -/
theorem test_fclass : writes 0x2000421B [(1, 0x80000000)] 4 8 = true := by decide +kernel
/-- R380, R381. -/
theorem test_fexp2_fsqrt : writes 0xC0008185 [(2, 0x40400000)] 3 0x41000000 = true ∧ writes 0xB0008185 [(2, 0x40000000)] 3 0x3FB504F3 = true := by decide +kernel
/-- R382. -/
theorem test_ffma_exact : writes 0x30404211 [(1, 0x3F800001), (2, 0x3F800001), (3, 0xBF800002)] 4 0x28800000 = true
    ∧ gives 0x30404211 (oneLane [(1, 0x3F800001), (2, 0x3F800001), (3, 0xBF800002)]) (fun k => k.r.status == 0) = true := by decide +kernel
/-- R383. -/
theorem test_fmin : writes 0x0040419B [(1, 0x80000000), (2, 0)] 3 0x80000000 = true ∧ writes 0x0040419B [(1, 0x7FC00000), (2, 0x3F800000)] 3 0x3F800000 = true := by decide +kernel
/-- R386. -/
theorem test_hadd2 : writes 0x3040429B [(1, 0x3C004000), (2, 0x3C00BC00)] 5 0x40003C00 = true := by decide +kernel
/-- R369. -/
theorem test_cvt : writes 0x22E14321 [(5, 0xC0300000)] 6 0xFFFFFFFE = true := by decide +kernel
/-- R370. -/
theorem test_dadd : gives 0x2040020D (oneLane [(1, 0x3FF00000), (3, 0x3C300000)]) (fun k => reg k 4 0 == 1 && reg k 5 0 == 0x3FF00000) = true := by decide +kernel
/-- R418. -/
theorem test_rdx_fadd : gives 0xA000822F (example_ 7 [(32, 0x4B800000), (33, 0x3F800000), (34, 0x3F800000)] [] []) (fun k => kreg k 4 == 0x4B800000) = true := by decide +kernel
/-- R417. -/
theorem test_qswap_one_plane : gives 0xC061022F (example_ 15 [(64, 10), (65, 11), (66, 12), (67, 13)] [] []) (fun k => (List.range 4).map (reg k 4) == [13, 12, 11, 10]) = true := by decide +kernel
/-- R425. -/
theorem test_shfl : gives 0x302102AF (example_ 15 [(16, 1), (17, 1), (18, 1), (19, 1), (64, 10), (65, 11), (66, 12), (67, 13)] [] [])
      (fun k => (List.range 4).map (reg k 5) == [11, 10, 13, 12]) = true := by decide +kernel
/-- R399. -/
theorem test_kmovi : gives 0xFFFF0DB9 (oneLane []) (fun k => kreg k 27 == 0xFFFFFFFFFFFFFFFF) = true
    ∧ gives 0x8000CC39 (oneLane []) (fun k => kreg k 24 == 0x8000000000000000) = true := by decide +kernel
/-- R158. -/
theorem test_amul_i_j : gives 0x10400431 (oneLane [(1, 0x3F800000), (6, 0x3F800000)]) (fun k => (List.range 4).map (fun i => reg k (8 + i) 0) == [0, 0, 0, 0x3F800000]) = true := by decide +kernel
/-- R292 (the launch names the handler at offset 8). -/
theorem test_trap_entry : gives 0xA0014063 (oneLane []) (fun k => k.frame.isSome && k.arms.map (fun a => a.path.map (·.off)) == [some 8]) = true := by decide +kernel
/-- R353. -/
theorem test_anorm : writes 0x70000631 [(0, 0x3F800000), (1, 0x40000000), (2, 0x40400000), (3, 0x40800000)] 12 0x41F00000 = true := by decide +kernel

end Sys2Proof.Tests
end

