-- ==== Sys2Proof/Tests/Witnesses.lean ====
section
/-! SUPPORT. One witness for each statement of Certificates/Slice0/Obligations.lean that has hypotheses: concrete states and
operands that meet them together, clause by clause, at the ends of the operands' ranges. -/

set_option Elab.async false
open Sys2Proof Sys2Proof.Machine

namespace Sys2Proof.Tests

/-! ### States -/

/-- An issue open at offset 0 for one pass of the lanes `m` in plane 0. -/
def issueOf (m : Lanes) : Issue :=
  { off := 0, len := 4, exec := m, sets := [(0, m)], words := [(0, 1)], rest := [(0, m)], pushed := none, fails := [], pset := [],
    replay := none }
/-- The machine with a skein of one block inside a pass of the lanes `m`; `f` changes the skein, `g` its arm. -/
def laneSt (m : Lanes) (f : Skein → Skein) (g : Arm → Arm) : State :=
  let s := (State.reset.placeWord 1).modSk 0 0 fun k => f { k with r := { k.r with latch := { valid := 0xFF, ent := [] } } }
  { s.modArm 0 0 0 (fun a => g { a with issue := some (issueOf m) }) with cur := some (.skein 0 0 0), agenda := [] }
/-- The same with a coach instance whose turn it is. -/
def coachSt (g : Coach → Coach) : State :=
  { (laneSt 0xFFFF id id).modBlk 0 (fun b => { b with coach := some (g Coach.blank) }) with cur := some (.coach 0) }
def noPass : Pass :=
  { bid := 0, ix := 0, ai := 0, coach := false, blk := State.slotBlock, sk := Skein.blank, arm := Arm.idle, co := Coach.blank, off := 0, len := 0,
    plane := 0, act := 0, path := 0, em := 0, last := false }
/-- The current pass. -/
def passOf (s : State) : Pass := s.pass?.getD noPass
def s0 : State := laneSt 0xFFFF id id
def p0 : Pass := passOf s0
def sc : State := coachSt id
def pc : Pass := passOf sc

theorem lane_pass (s : State)
    (h : (s.pass?.isSome && !(passOf s).coach && ((passOf s).arm.issue.elim [] (·.fails)).isEmpty) = true) : LanePass s (passOf s) := by
  revert h
  unfold LanePass passOf
  cases hp : s.pass? with
  | none => simp
  | some p =>
    simp only [Option.getD_some, Bool.and_eq_true, Bool.not_eq_true', List.isEmpty_iff]
    exact fun h => ⟨by simp, h.1.2, h.2⟩
/-- A lane pass, and no update combined in a tray switch. -/
theorem lane_calm (s : State) (h : ((s.pass?.isSome && !(passOf s).coach && ((passOf s).arm.issue.elim [] (·.fails)).isEmpty)
    && s.trays.all fun e => e.2.parts.isEmpty) = true) : LanePass s (passOf s) ∧ NoParts s := by
  rw [Bool.and_eq_true] at h
  refine ⟨lane_pass s h.1, fun e he => ?_⟩
  simpa using List.all_eq_true.mp h.2 e he
theorem coach_pass (s : State) (h : (s.pass?.isSome && (passOf s).coach) = true) : CoachPass s (passOf s) := by
  revert h
  unfold CoachPass passOf
  cases hp : s.pass? with
  | none => simp
  | some p => exact fun h => ⟨by simp, by simpa using h⟩
theorem no_parts {s : State} (h : (s.trays.all fun e => e.2.parts.isEmpty) = true) : NoParts s := by
  intro e he
  simpa using List.all_eq_true.mp h e he
theorem no_updates {s : State} (h : (s.mem.reqs.isEmpty && s.trays.all fun e => e.2.parts.isEmpty) = true) : NoUpdates s := by
  simp only [Bool.and_eq_true, List.isEmpty_iff] at h
  exact ⟨h.1, no_parts h.2⟩
theorem no_own {s : State} {p : Pass} (h : NoUpdates s) : NoOwnUpdates s p := by
  refine ⟨fun q hq => ?_, fun e he q hq => ?_⟩
  · rw [h.1] at hq; cases hq
  · rw [h.2 e he] at hq; cases hq
theorem parts_of {s : State} {c a : Nat} (h : NoParts s) : NoPartsOf s c a := by
  intro e he q hq
  rw [h e he] at hq
  cases hq
theorem lane0 : LanePass s0 p0 := lane_pass s0 (by decide +kernel)
theorem coach0 : CoachPass sc pc := coach_pass sc (by decide +kernel)

/-- R346's checks as a computation. -/
def srcTest (p : Pass) (even : Bool) (x : Src × Nat) : Bool :=
  match x.1 with
  | .v i => decide (i + x.2 ≤ p.sk.vlimit) && (!even || x.2 != 2 || i % 2 == 0)
  | .b i => p.bank.valid.getLsbD i
theorem src_ok {p : Pass} {x : Src × Nat} (h : srcTest p false x = true) : SrcOk p x.1 x.2 := by
  obtain ⟨a, n⟩ := x
  cases a <;> simpa [srcTest, SrcOk, RegOk] using h
theorem fields_ok {p : Pass} {k : Bool} {d n : Nat} {srcs : List (Src × Nat)}
    (h : ((k || decide (d + n ≤ p.sk.vlimit)) && srcs.all (srcTest p false)) = true) : Fields p k d n srcs := by
  simp only [Bool.and_eq_true, Bool.or_eq_true, decide_eq_true_eq, List.all_eq_true] at h
  exact .inr ⟨h.1, fun x hx => src_ok (h.2 x hx)⟩
theorem pair_ok {p : Pass} {k : Bool} {d : Nat} {srcs : List (Src × Nat)}
    (h : ((k || d % 2 == 0 && decide (d + 2 ≤ p.sk.vlimit)) && srcs.all (srcTest p true)) = true) : PairFields p k d srcs := by
  simp only [Bool.and_eq_true, Bool.or_eq_true, decide_eq_true_eq, List.all_eq_true, beq_iff_eq] at h
  refine .inr ⟨h.1.imp id And.left, h.1.imp id And.right, fun x hx => ?_⟩
  have := h.2 x hx
  obtain ⟨a, n⟩ := x
  cases a <;> simp [srcTest, SrcOk, SrcEven, RegOk] at this ⊢
  · omega
  · exact this

/-! ### Lane arithmetic -/

theorem witness_IntegerTwoSource : LanePass s0 p0 ∧ p0.act ≠ 0 ∧ Fields p0 false 63 1 [(.v 62, 1), (.b 7, 1)] :=
  ⟨lane0, by decide +kernel, fields_ok (by decide +kernel)⟩
theorem witness_OneSource : LanePass s0 p0 ∧ Fields p0 true 63 1 [(.v 63, 1)] := ⟨lane0, fields_ok (by decide +kernel)⟩
theorem witness_AddWithCarry : LanePass s0 p0 ∧ Fields p0 false 63 1 [(.v 63, 1), (.v 63, 1)] := ⟨lane0, fields_ok (by decide +kernel)⟩
theorem witness_IntegerThreeSource : LanePass s0 p0 ∧ Fields p0 false 55 1 [(.v 0, 1), (.b 0, 1), (thirdSrc 55 7, 1)]
    ∧ Fields p0 false 55 1 [(.v 0, 1), (.b 0, 1), (thirdSrc 55 15, 1)] :=
  ⟨lane0, fields_ok (by decide +kernel), fields_ok (by decide +kernel)⟩
theorem witness_FieldsAddressesImmediates : LanePass s0 p0 ∧ Fields p0 false 63 1 [(.v 62, 1), (.v 63, 1)]
    ∧ PairFields p0 false 62 [(.v 60, 2), (.v 63, 1)] ∧ Fields p0 false 63 1 [] ∧ RegOk p0 63 1 ∧ 65535 < 2 ^ 16 :=
  ⟨lane0, fields_ok (by decide +kernel), pair_ok (by decide +kernel), fields_ok (by decide +kernel), by unfold RegOk; decide +kernel, by decide⟩
theorem witness_Comparisons : LanePass s0 p0 ∧ Fields p0 false 0 0 [(.v 63, 1), (.b 1, 1)] := ⟨lane0, fields_ok (by decide +kernel)⟩
theorem witness_FloatOperations : LanePass s0 p0 ∧ Fields p0 false 63 1 [(.v 63, 1)] ∧ Fields p0 false 63 1 [(.v 62, 1), (.v 63, 1)]
    ∧ Fields p0 false 63 1 [(.v 62, 1), (.b 0, 1), (thirdSrc 63 0, 1)] :=
  ⟨lane0, fields_ok (by decide +kernel), fields_ok (by decide +kernel), fields_ok (by decide +kernel)⟩
/-- Below the unit, exact, inexact, and a tie. -/
theorem witness_RoundingModes : (0 : Int) < 1 ∧ 2 % 2 ^ ((1 : Int) - 0).toNat = 0 ∧ 3 % 2 ^ ((1 : Int) - 0).toNat ≠ 0
    ∧ 2 * 3 + 2 ^ ((1 : Int) - 0).toNat = 2 * ((roundTo .rne false 3 0 1).1 * 2 ^ ((1 : Int) - 0).toNat) := by decide +kernel
theorem witness_FloatSpecialValues : isNan (fmt32.val (0x7F800001#32).toNat) = true ∧ isNan (fmt32.val (0x7F7FFFFF#32).toNat) = false
    ∧ fmt32.val (0x7F7FFFFF#32).toNat ≠ .inf true ∧ fmt32.val (0x7F7FFFFF#32).toNat ≠ .inf false := by decide +kernel
theorem witness_Transcendental : LanePass s0 p0 ∧ Fields p0 false 63 1 [(.v 63, 1)]
    ∧ fcos32 ∈ [frcp32, frsq32, fexp232, flog232, fsin32, fcos32] ∧ fmt32.val (0x7F800001#32).toNat = .nan true :=
  ⟨lane0, fields_ok (by decide +kernel), by simp, by decide +kernel⟩
theorem witness_FloatDouble : LanePass s0 p0 ∧ PairFields p0 false 62 [(.v 60, 2), (.v 62, 2)]
    ∧ PairFields p0 false 62 [(.v 60, 2), (.b 3, 2), (thirdSrc 62 0, 2)] :=
  ⟨lane0, pair_ok (by decide +kernel), pair_ok (by decide +kernel)⟩
/-- A wide destination and a narrow one; a NaN; a pair of integer types. -/
theorem witness_Conversion : LanePass s0 p0 ∧ CvtTy.f64 ≠ CvtTy.s8
    ∧ DestOk p0 false 62 2 ∧ SrcOk p0 (.v 63) 1 ∧ wideTy .f64 = true ∧ wideTy .s8 = false ∧ DestOk p0 false 63 1 ∧ SrcOk p0 (.v 62) 2
    ∧ (∃ f w sg, cvtKind .f16 = .flt f ∧ cvtKind .s8 = .int w sg ∧ f.val ((0x7C01#64).toNat % 2 ^ f.width) = .nan true)
    ∧ ∃ w sg w' sg', cvtKind .s8 = .int w sg ∧ cvtKind .z64 = .int w' sg' :=
  ⟨lane0, by decide, by unfold DestOk RegOk; decide +kernel, src_ok (x := (.v 63, 1)) (by decide +kernel), rfl, rfl,
    by unfold DestOk RegOk; decide +kernel, src_ok (x := (.v 62, 2)) (by decide +kernel), ⟨_, _, _, rfl, rfl, by decide +kernel⟩, ⟨_, _, _, _, rfl, rfl⟩⟩
theorem witness_ShortForms : LanePass s0 p0 ∧ Fields p0 false 62 1 [(.v 62, 1)] ∧ Fields p0 false 62 1 [(.v 62, 1), (.v 27, 1)]
    ∧ Fields p0 false 62 1 [(.b 0, 1), (.b 3, 1), (.v 62, 1)] ∧ PairFields p0 false 62 [(.v 62, 2), (.v 27, 1)] ∧ Fields p0 false 62 1 [] ∧ 31 < 32 :=
  ⟨lane0, fields_ok (by decide +kernel), fields_ok (by decide +kernel), fields_ok (by decide +kernel), pair_ok (by decide +kernel),
    fields_ok (by decide +kernel), by decide⟩

/-! ### Moves, masks, planes and lanes of one another -/

/-- The launch has one plane. -/
theorem witness_Moves : LanePass s0 p0 ∧ Fields p0 false 63 1 [] ∧ Fields p0 false 0 0 [(.v 63, 1)] ∧ p0.gatherEnds = true ∧ p0.gathered ≠ 0
    ∧ 0 < planesOf s0 p0 ∧ ∀ l ∈ p0.lanes, (p0.val32 (.v 63) l).toNat % 4 < planesOf s0 p0 :=
  ⟨lane0, fields_ok (by decide +kernel), fields_ok (by decide +kernel), by decide +kernel, by decide +kernel, by decide +kernel, by decide +kernel⟩
theorem witness_Masks : LanePass s0 p0 ∧ Fields p0 false 0 0 [(.b 7, 1)] := ⟨lane0, fields_ok (by decide +kernel)⟩
theorem witness_Shuffles : LanePass s0 p0 ∧ Fields p0 false 63 1 [(.v 63, 1), (.v 0, 1)] ∧ Fields p0 false 63 1 [(.v 63, 1)] ∧ 3 < 4 :=
  ⟨lane0, fields_ok (by decide +kernel), fields_ok (by decide +kernel), by decide⟩
theorem witness_VotesAndReductions : LanePass s0 p0 ∧ Fields p0 false 0 0 [(.v 63, 1)] ∧ (p0.gatherEnds && p0.gathered != 0) = true :=
  ⟨lane0, fields_ok (by decide +kernel), by decide +kernel⟩
/-- Slot 5 holds the table of dimension 8. -/
theorem witness_Algebra : LanePass s0 p0 ∧ tableDim (p0.table s0 5) = 8 ∧ 8 ≤ p0.sk.win.allot ∧ (56 % 8 = 0 ∧ 56 + 8 ≤ 64 ∧ RegOk p0 56 8) ∧ RegOk p0 63 1 :=
  ⟨lane0, by decide +kernel, by decide +kernel, by unfold RegOk; decide +kernel, by unfold RegOk; decide +kernel⟩

/-! ### Uniform registers and control flow -/

theorem witness_UniformArithmetic : LanePass s0 p0 ∧ CoachPass sc pc ∧ 3 < 4 ∧ 65535 < 2 ^ 16 := ⟨lane0, coach0, by decide, by decide⟩

/-- Uniform registers with an even offset of the code, its last halfword, its end and an odd offset. -/
def jumps : NMap W64 := [(1, 4), (2, 14), (3, 16), (4, 3)]
def sj : State := laneSt 0xFFFF id fun a => { a with ks := jumps }
def scj : State := coachSt fun c => { c with ks := jumps }
theorem target_ok {s : State} {p : Pass} {o : Nat} (h : (match (s.targetOk (s.codeOf p.blk.id.lid) p.core p.ctx o).2 with | .ok b => b | .error _ => false) = true) :
    TargetOk s p o := by
  unfold TargetOk
  revert h
  cases (s.targetOk (s.codeOf p.blk.id.lid) p.core p.ctx o).2 with
  | error e => simp
  | ok b => simp
theorem witness_UniformTransfers :
    (LanePass sj (passOf sj) ∧ NoParts sj ∧ TargetOk sj (passOf sj) 14 ∧ ((passOf sj).k 2).toNat % 2 ^ 32 = 14 ∧ ((passOf sj).k 4).toNat % 2 ^ 32 % 2 = 1
      ∧ (sj.codeOf (passOf sj).blk.id.lid).len ≤ ((passOf sj).k 3).toNat % 2 ^ 32
      ∧ (passOf sj).off + 2 * (BitVec.ofNat 18 7).toInt = (14 : Nat) ∧ (passOf sj).off + 2 * (BitVec.ofNat 18 (2 ^ 18 - 1)).toInt < 0)
    ∧ CoachPass scj (passOf scj) ∧ NoParts scj ∧ TargetOk scj (passOf scj) 14 ∧ ((passOf scj).k 2).toNat % 2 ^ 32 = 14 ∧ ((passOf scj).k 4).toNat % 2 ^ 32 % 2 = 1
      ∧ (passOf scj).off + 2 * (BitVec.ofNat 18 7).toInt = (14 : Nat) ∧ (passOf scj).off + 2 * (BitVec.ofNat 18 (2 ^ 18 - 1)).toInt < 0 :=
  ⟨⟨lane_pass _ (by decide +kernel), no_parts (by decide +kernel), target_ok (by decide +kernel), by decide +kernel⟩, coach_pass _ (by decide +kernel),
    no_parts (by decide +kernel), target_ok (by decide +kernel), by decide +kernel⟩
def pending (n : Nat) : List Entry := List.replicate n (.path { off := 0, lanes := 0, base := 0 })
/-- `m1` selects half of the lanes, `m0` all of them, `m2` none; `n` paths pend. -/
def branchSt (n : Nat) : State :=
  laneSt 0xFFFF (fun k => { k with r := { k.r with masks := [(0, 0xFFFF), (1, 0xFF)] } }) fun a => { a with stack := pending n }
def pb (n : Nat) : Pass := passOf (branchSt n)
theorem witness_LaneBranches :
    LanePass (branchSt 0) (pb 0) ∧ LanePass (branchSt 31) (pb 31) ∧ LanePass (branchSt 32) (pb 32) ∧ LanePass (branchSt 30) (pb 30)
    ∧ NoParts (branchSt 0) ∧ NoParts (branchSt 30) ∧ NoParts (branchSt 31) ∧ NoParts (branchSt 32) ∧ (pb 0).arm.path = some { off := 0, lanes := 0xFFFF, base := 0 } ∧ (pb 32).arm.path = some { off := 0, lanes := 0xFFFF, base := 0 }
    ∧ laneSet (fun l => (pb 0).act.getLsbD l && (((pb 0).sk.mask 2).getLsbD l != false)) = 0
    ∧ laneSet (fun l => (pb 0).act.getLsbD l && (((pb 0).sk.mask 0).getLsbD l != false)) = (pb 0).act
    ∧ laneSet (fun l => (pb 31).act.getLsbD l && (((pb 31).sk.mask 1).getLsbD l != true)) = 0xFF00
    ∧ 7 < 2 ^ 21 ∧ ((pb 0).off : Int) + 2 * (BitVec.ofNat 21 7).toInt = (14 : Nat) ∧ TargetOk (branchSt 31) (pb 31) 14 ∧ TargetOk (branchSt 32) (pb 32) 14
    ∧ (pb 31).arm.stack.length < 32 ∧ 32 ≤ (pb 32).arm.stack.length
    ∧ 2 < 2 ^ 11 ∧ ((pb 0).off : Int) + 2 * (BitVec.ofNat 11 2).toInt = (4 : Nat) ∧ TargetOk (branchSt 0) (pb 0) 4
    ∧ TargetOk (afterTarget (branchSt 0) (pb 0) 4) (pb 0) (4 + 2 * 5)
    ∧ (pb 0).sk.arms.length = 1 ∧ (pb 0).arm.stack = [] ∧ (pb 0).sk.frame = none
    ∧ TargetOk (branchSt 30) (pb 30) 4 ∧ TargetOk (afterTarget (branchSt 30) (pb 30) 4) (pb 30) (4 + 2 * 5) ∧ (pb 30).arm.stack ≠ [] ∧ (pb 30).arm.stack.length < 31 :=
  ⟨lane_pass _ (by decide +kernel), lane_pass _ (by decide +kernel), lane_pass _ (by decide +kernel), lane_pass _ (by decide +kernel),
    no_parts (by decide +kernel), no_parts (by decide +kernel), no_parts (by decide +kernel), no_parts (by decide +kernel), by decide +kernel, by decide +kernel,
    by decide +kernel, by decide +kernel, by decide +kernel, by decide, by decide +kernel, target_ok (by decide +kernel),
    target_ok (by decide +kernel), by decide +kernel, by decide +kernel, by decide, by decide +kernel, target_ok (by decide +kernel),
    target_ok (by decide +kernel), by decide +kernel, by decide +kernel, by decide +kernel, target_ok (by decide +kernel), target_ok (by decide +kernel),
    by decide +kernel, by decide +kernel⟩
/-- A sole arm at offset 8 over a stack; two arms of which the first runs at the rejoin offset, the second is complete or runs too. -/
def onStack (st : List Entry) : Arm := { Arm.idle with path := some { off := 8, lanes := 0xFF, base := 0 }, stack := st, split := 0xFF }
def beside (done : Bool) : Arm := { Arm.idle with complete := done, split := 0xFF00, arrived := if done then 0xFF00 else 0, ks := [(1, 1)] }
def standing (l : List Arm) : Skein := { State.slotSkein with arms := l, rejoin := 8 }
theorem witness_LaneBranches_arrival :
    (∀ l : List Arm, l = [onStack [.marker 8 0xFF00 0]] ∨ l = [onStack [.path { off := 4, lanes := 0xF000, base := 0 }, .marker 8 0xF00 0]]
        ∨ l = [onStack [], beside false] ∨ l = [onStack [], beside true] →
      ∃ x q, (standing l).arms[0]? = some x ∧ x.path = some q ∧ q.base = (standing l).win.base ∧ q.mis = false ∧ q.off = (standing l).rejoin)
    ∧ ((0xFF00#16 ||| 0xFF#16) &&& (standing []).live ≠ 0 ∧ 0xF000#16 &&& (standing []).live ≠ 0)
    ∧ (∀ o, (standing [onStack [], beside false]).arms[1 - 0]? = some o → o.complete = false)
    ∧ (∀ o, (standing [onStack [], beside true]).arms[1 - 0]? = some o → o.complete = true)
    ∧ ((onStack []).arrived ||| (beside true).arrived ||| 0xFF) &&& (standing []).live ≠ 0
    ∧ ∀ e ∈ [Entry.path { off := 0, lanes := 0xF, base := 0 }, .marker 0 0xF0 0],
        (match e with | .path v => v.lanes | .marker _ m _ => m) &&& 0xFF00#16 = 0 := by
  refine ⟨fun l hl => ?_, by decide +kernel, ?_, ?_, by decide +kernel, by decide +kernel⟩
  · obtain rfl | rfl | rfl | rfl := hl <;> exact ⟨_, _, rfl, rfl, by decide +kernel, rfl, rfl⟩
  all_goals
    intro o ho
    cases ho
    rfl
/-- A window, and a link in `k31`. -/
def callSt (w : Win) (link : W64) : State := laneSt 0xFFFF (fun k => { k with win := w }) fun a => { a with ks := [(31, link)] }
def callP (w : Win) (link : W64) : Pass := passOf (callSt w link)
/-- Beyond 1,024 by one; at 1,024 but beyond the residents by one; exactly at them. Links: N = 0, N beyond the base, into the spilled registers, good. -/
theorem witness_CallsAndReturns :
    (let w : Win := { allot := 64, reach := 64, base := 897, spill := 896 }
     (LanePass (callSt w 0) (callP w 0) ∧ NoParts (callSt w 0)) ∧ (callP w 0).sk.frame = none ∧ (callP w 0).sk.arms.length ≠ 2
      ∧ 1024 < (callP w 0).sk.win.base + 64 + (callP w 0).sk.win.reach)
    ∧ (let w : Win := { allot := 71, reach := 64, base := 0, spill := 0 }
       (LanePass (callSt w 0) (callP w 0) ∧ NoParts (callSt w 0)) ∧ (callP w 0).sk.win.base + 8 + (callP w 0).sk.win.reach ≤ 1024
      ∧ (callP w 0).sk.win.allot + (callP w 0).sk.win.spill < (callP w 0).sk.win.base + 8 + (callP w 0).sk.win.reach)
    ∧ (let w : Win := { allot := 72, reach := 64, base := 952, spill := 952 }
       (LanePass (callSt w 0) (callP w 0) ∧ NoParts (callSt w 0)) ∧ (callP w 0).sk.win.base + 8 + (callP w 0).sk.win.reach ≤ 1024
      ∧ (callP w 0).sk.win.base + 8 + (callP w 0).sk.win.reach ≤ (callP w 0).sk.win.allot + (callP w 0).sk.win.spill
      ∧ ((callP w 0).off : Int) + 2 * (BitVec.ofNat 19 7).toInt = (14 : Nat) ∧ TargetOk (callSt w 0) (callP w 0) 14)
    ∧ (let w : Win := { allot := 256, reach := 64, base := 64, spill := 8 }
       (LanePass (callSt w 0) (callP w 0) ∧ NoParts (callSt w 0)) ∧ (((callP w 0).k 31).extractLsb' 32 16).toNat = 0
      ∧ (LanePass (callSt w 0x0000004000000004) (callP w 0x0000004000000004) ∧ NoParts (callSt w 0x0000004000000004))
      ∧ (let n := (((callP w 0x0000004000000004).k 31).extractLsb' 32 16).toNat
         n = 64 ∧ (callP w 0).sk.win.base - n < (callP w 0).sk.win.spill)
      ∧ (LanePass (callSt w 0x000000380000000E) (callP w 0x000000380000000E) ∧ NoParts (callSt w 0x000000380000000E))
      ∧ (let n := (((callP w 0x000000380000000E).k 31).extractLsb' 32 16).toNat
         n = 56 ∧ (callP w 0).sk.win.spill ≤ (callP w 0).sk.win.base - n)
      ∧ TargetOk (callSt w 0x000000380000000E) (callP w 0x000000380000000E) 14) :=
  ⟨⟨lane_calm _ (by decide +kernel), by decide +kernel⟩, ⟨lane_calm _ (by decide +kernel), by decide +kernel⟩,
    ⟨lane_calm _ (by decide +kernel), by decide +kernel, by decide +kernel, by decide +kernel, target_ok (by decide +kernel)⟩,
    lane_calm _ (by decide +kernel), by decide +kernel, lane_calm _ (by decide +kernel), by decide +kernel, lane_calm _ (by decide +kernel),
    by decide +kernel, target_ok (by decide +kernel)⟩
/-- Join register 7 in a state. -/
def joinSt (j : JoinReg) (x : Lanes) : State :=
  laneSt 0xFFFF (fun k => { k with r := { k.r with joins := [(7, j)] } }) fun a => { a with issue := some { issueOf 0xFFFF with exec := x } }
def joinP (j : JoinReg) (x : Lanes) : Pass := passOf (joinSt j x)
def waiting7 : JoinReg := { e := 0xFFFF, a := 1, pd := 0, groups := [{ lanes := 1, arm := 0, base := 0 }], w := 4 }
def arrived7 : JoinReg := { e := 0xFFFF, a := 0xFFFF, pd := 0, groups := [], w := 0 }
theorem witness_Joins :
    (LanePass (joinSt .idle 0xFFFF) (joinP .idle 0xFFFF)
      ∧ Skein.groupLanes ((joinP .idle 0xFFFF).sk.join 7).groups &&& (joinP .idle 0xFFFF).sk.armLanes (joinP .idle 0xFFFF).ai = 0)
    ∧ (LanePass (joinSt waiting7 0xFFFF) (joinP waiting7 0xFFFF) ∧ (joinP waiting7 0xFFFF).sk.frame = none ∧ (joinP waiting7 0xFFFF).act ≠ 0
      ∧ Skein.groupLanes ((joinP waiting7 0xFFFF).sk.join 7).groups &&& (joinP waiting7 0xFFFF).sk.armLanes (joinP waiting7 0xFFFF).ai ≠ 0
      ∧ Skein.groupLanes ((joinP waiting7 0xFFFF).sk.join 7).groups ≠ 0 ∧ ((joinP waiting7 0xFFFF).sk.join 7).w ≠ (joinP waiting7 0xFFFF).off)
    ∧ (LanePass (joinSt arrived7 0) (joinP arrived7 0) ∧ (joinP arrived7 0).sk.frame = none ∧ (joinP arrived7 0).act = 0)
    ∧ let p := joinP arrived7 0xFFFF
      LanePass (joinSt arrived7 0xFFFF) p ∧ p.sk.frame = none ∧ p.act ≠ 0 ∧ (p.sk.join 7).groups = []
      ∧ p.arm.path = some { off := 0, lanes := 0xFFFF, base := 0 } ∧ p.act &&& ~~~(p.sk.join 7).a = 0 ∧ (p.sk.join 7).e &&& p.sk.live = p.act
      ∧ (0xFFFF#16 &&& p.sk.live = p.act) ∧ p.arm.stack = [] ∧ p.sk.arms = [p.arm] :=
  ⟨⟨lane_pass _ (by decide +kernel), by decide +kernel⟩, ⟨lane_pass _ (by decide +kernel), by decide +kernel⟩, ⟨lane_pass _ (by decide +kernel), by decide +kernel⟩,
    lane_pass _ (by decide +kernel), by decide +kernel⟩
/-- Half of the lanes at join 7: all arrived, none arrived, none arrived while the other half is held. -/
def joinPart (j : JoinReg) : State :=
  laneSt 0xFF (fun k => { k with r := { k.r with joins := [(7, j)] } }) fun a => { a with path := some { off := 0, lanes := 0xFF, base := 0 } }
def hold7 : JoinReg := { e := 0xFFFF, a := 0xFF, pd := 0, groups := [], w := 0 }
def pass7 : JoinReg := { hold7 with a := 0 }
def break7 : JoinReg := { pass7 with groups := [{ lanes := 0xFF00, arm := 0, base := 0 }] }
theorem witness_Joins_groups :
    let x : Path := { off := 0, lanes := 0xFF, base := 0 }
    (∀ j, j = hold7 ∨ j = pass7 ∨ j = break7 → let p := passOf (joinPart j)
      LanePass (joinPart j) p ∧ p.sk.join 7 = j ∧ p.sk.frame = none ∧ p.act ≠ 0 ∧ p.arm.path = some x ∧ p.arm.complete = false ∧ x.lanes ≠ 0)
    ∧ (let p := passOf (joinPart hold7)
       p.act &&& ~~~hold7.a = 0 ∧ x.lanes &&& p.sk.live ≠ 0 ∧ x.lanes &&& p.sk.live ≠ hold7.e &&& p.sk.live ∧ hold7.pd &&& p.sk.live = 0
        ∧ p.arm.stack = [] ∧ p.sk.arms = [p.arm])
    ∧ (passOf (joinPart pass7)).act &&& pass7.a = 0
    ∧ let p := passOf (joinPart break7)
      let g : Group := { lanes := 0xFF00, arm := 0, base := 0 }
      g.arm = p.ai ∧ g.base = p.sk.win.base ∧ g.lanes &&& p.sk.live = g.lanes ∧ break7.w = p.off ∧ p.act &&& break7.a = 0
        ∧ break7.e &&& p.sk.live &&& ~~~g.lanes ≠ 0 ∧ break7.e &&& p.sk.live &&& ~~~g.lanes &&& ~~~(break7.pd ||| (p.act &&& break7.e)) = 0 := by
  refine ⟨fun j hj => ?_, by decide +kernel, by decide +kernel, by decide +kernel⟩
  obtain rfl | rfl | rfl := hj <;> exact ⟨lane_pass _ (by decide +kernel), by decide +kernel⟩
/-- A second skein beside the issuing one, waiting on barrier 7 or not. -/
def barSt (w : Option Wait) (bars : NMap Lanes) : State :=
  s0.modBlk 0 fun b => { b with bars := bars, skeins := b.skeins ++ [{ State.slotSkein with idx := 1, arms := [{ Arm.idle with wait := w }] }] }
def barP (w : Option Wait) (bars : NMap Lanes) : Pass := passOf (barSt w bars)
theorem witness_BarriersExitsYields :
    (let s := barSt none []
     let p := barP none []
     (LanePass s p ∧ NoParts s) ∧ p.sk.frame = none ∧ p.sk.converged = true ∧ s.isDet p = false ∧ NoUpdates s
      ∧ ¬∀ k ∈ p.blk.skeins, k.life ≠ .draining → k.life ≠ .retired → (mapGetD p.blk.bars 7 0 ||| laneBit p.ix).getLsbD k.idx = true)
    ∧ (let s := barSt (some (.bar 7)) [(7, 2)]
       let p := barP (some (.bar 7)) [(7, 2)]
       (LanePass s p ∧ NoParts s) ∧ p.sk.frame = none ∧ p.sk.converged = true ∧ s.isDet p = false ∧ NoUpdates s ∧ p.last = true
      ∧ (∀ k ∈ p.blk.skeins, k.life ≠ .draining → k.life ≠ .retired → (mapGetD p.blk.bars 7 0 ||| laneBit p.ix).getLsbD k.idx = true)
      ∧ (mapGetD p.blk.bars 7 0 ||| laneBit p.ix).getLsbD p.sk.idx = true
      ∧ ∃ k a, s.sk? p.bid 1 = some k ∧ k.arms[0]? = some a ∧ (mapGetD p.blk.bars 7 0 ||| laneBit p.ix).getLsbD k.idx = true ∧ a.wait = some (.bar 7))
    ∧ NoParts s0 ∧ (p0.off : Int) + 2 * (BitVec.ofNat 14 7).toInt = (14 : Nat) ∧ TargetOk s0 p0 14 :=
  ⟨⟨lane_calm _ (by decide +kernel), by decide +kernel, by decide +kernel, by decide +kernel, no_updates (by decide +kernel), by decide +kernel⟩,
    ⟨lane_calm _ (by decide +kernel), by decide +kernel, by decide +kernel, by decide +kernel, no_updates (by decide +kernel), by decide +kernel,
      by decide +kernel, by decide +kernel, ⟨_, _, rfl, rfl, by decide +kernel, by decide +kernel⟩⟩,
    no_parts (by decide +kernel), by decide +kernel, target_ok (by decide +kernel)⟩
/-- The counter that `k7` names, at byte 0 of the window; its threshold in `k8`. -/
def yieldSt (v : List Host.Cell) (th : Nat) : State :=
  (laneSt 0xFFFF id fun a => { a with ks := [(7, 0x8000000000000000#64), (8, BitVec.ofNat 64 th)] }).modBlk 0 fun b =>
    { b with ps := { State.emptyScratch 4096 with bytes := v } }
def yielded (s : State) : State := afterTarget (s.switchPoint (passOf s)) (passOf s) 14
/-- A counter at its threshold, one below it, and one with FAULT set. -/
theorem witness_BarriersExitsYields_counted :
    (∀ x : List Host.Cell × Nat × Nat, x = ([], 0, 0) ∨ x = ([], 1, 0) ∨ x = ([(3, 128)], 0, 2 ^ 31) →
      let s := yieldSt x.1 x.2.1
      let p := passOf s
      LanePass s p ∧ NoParts s ∧ p.sk.frame = none ∧ 7 < 2 ^ 14 ∧ (p.off : Int) + 2 * (BitVec.ofNat 14 7).toInt = (14 : Nat) ∧ p.sk.converged = true
        ∧ TargetOk (s.switchPoint p) p 14 ∧ s.isDet p = false ∧ NoUpdates s ∧ p.sk.x.defer = none ∧ PlaceValue (yielded s) p (p.k 7) 4 .read x.2.2
        ∧ (p.k 8).toNat = x.2.1)
    ∧ (0 + 2 ^ 31 - 0 % 2 ^ 31) % 2 ^ 31 < 2 ^ 30 ∧ ¬(0 + 2 ^ 31 - 1 % 2 ^ 31) % 2 ^ 31 < 2 ^ 30 := by
  refine ⟨fun x hx => ?_, by decide, by decide⟩
  obtain rfl | rfl | rfl := hx <;> exact ⟨lane_pass _ (by decide +kernel), no_parts (by decide +kernel), by decide +kernel, by decide, by decide +kernel,
    by decide +kernel, target_ok (by decide +kernel), by decide +kernel, no_updates (by decide +kernel), by decide +kernel,
    by unfold PlaceValue; rw [if_pos (by decide +kernel)]; decide +kernel, by decide +kernel⟩
def frame0 : Frame :=
  { arms := [{ Arm.idle with path := some { off := 0, lanes := 0xFFFF, base := 0 } }], rejoin := 0, planes := [], latch := Latches.none, m0 := 0xFFFF, arm := 0, ranArm := 0 }
/-- In trap mode, with `k1` as given. -/
def trapSt (k1 : W64) (w : Win) : State := laneSt 0xFFFF (fun k => { k with frame := some frame0, win := w }) fun a => { a with ks := [(1, k1)] }
def trapP (k1 : W64) (w : Win) : Pass := passOf (trapSt k1 w)
def win0 : Win := { allot := 64, reach := 64, base := 0, spill := 0 }
/-- An L1 of clean lines and one of none dirty of another tray: both empty here; in trap mode for the arms set aside. -/
theorem witness_Fences : LanePass s0 p0 ∧ s0.isDet p0 = false ∧ NoUpdates s0 ∧ p0.repeated = false ∧ p0.sk.x.defer = none
    ∧ (∀ l ∈ (s0.core p0.core).l1, l.dirty = 0)
    ∧ (let s := trapSt 0 win0
       let p := trapP 0 win0
       LanePass s p ∧ s.isDet p = false ∧ NoUpdates s ∧ p.repeated = false ∧ p.sk.x.defer = none ∧ p.sk.frame = some frame0) :=
  ⟨lane0, by decide +kernel, no_updates (by decide +kernel), by decide +kernel, by decide +kernel, by decide +kernel,
    lane_pass _ (by decide +kernel), by decide +kernel, no_updates (by decide +kernel), by decide +kernel, by decide +kernel, rfl⟩

/-! ### Traps and special registers -/

/-- An operation answers `v`. -/
def answers {ε α : Type} [DecidableEq α] (x : Except ε α) (v : α) : Bool :=
  match x with
  | .ok b => decide (b = v)
  | .error _ => false
theorem ok_of {ε α : Type} [DecidableEq α] {x : Except ε α} {v : α} (h : answers x v = true) : x = .ok v := by
  cases x with
  | error e => simp [answers] at h
  | ok b => simpa [answers] using h
/-- No handler. -/
def unhandledSt : State := s0.modLaunch 0 fun l => { l with tentry := 0xFFFFFFFF }
/-- The other arm is inside an instruction that has issued. -/
def twoArms : State :=
  laneSt 0xFF (fun k => { k with arms := k.arms ++ [{ Arm.idle with path := some { off := 8, lanes := 0xFF00, base := 0 }, issue := some (issueOf 0xFF00) }] }) id
theorem witness_TrapEntry :
    (LanePass s0 p0 ∧ p0.sk.frame = none ∧ s0.handler p0.blk = some 8 ∧ p0.sk.defers p0.ai = false)
    ∧ (LanePass twoArms (passOf twoArms) ∧ (passOf twoArms).sk.frame = none ∧ twoArms.handler (passOf twoArms).blk ≠ none
      ∧ (passOf twoArms).sk.defers (passOf twoArms).ai = true)
    ∧ (LanePass (trapSt 0 win0) (trapP 0 win0) ∧ (∃ x, (trapSt 0 win0).ctx? (trapP 0 win0).ctx = some x ∧ x.fatal = none) ∧ (trapP 0 win0).sk.frame ≠ none)
    ∧ LanePass unhandledSt (passOf unhandledSt) ∧ (∃ x, unhandledSt.ctx? (passOf unhandledSt).ctx = some x ∧ x.fatal = none)
      ∧ unhandledSt.handler (passOf unhandledSt).blk = none :=
  ⟨⟨lane0, by decide +kernel⟩, ⟨lane_pass _ (by decide +kernel), by decide +kernel⟩,
    ⟨lane_pass _ (by decide +kernel), ⟨_, rfl, by decide +kernel⟩, by decide +kernel⟩, lane_pass _ (by decide +kernel),
    ⟨_, rfl, by decide +kernel⟩, by decide +kernel⟩
/-- A 16-bit instruction at the end of the code, RES = NEXT; one before it; a 32-bit one, RES = REPLAY for some lanes. -/
theorem witness_TrapReturn :
    (let s := trapSt 0x0000000E00400000 win0
     let p := trapP 0x0000000E00400000 win0
     (LanePass s p ∧ NoParts s) ∧ p.sk.frame = some frame0 ∧ p.arm.stack = [] ∧ ((p.k 1).extractLsb' 32 32).toNat = 14 ∧ TargetOk s p 14 ∧ (p.k 1).getLsbD 21 = false
      ∧ ((p.k 1).extractLsb' 22 2).toNat = 1 ∧ 14 + 2 = (s.codeOf p.blk.id.lid).len ∧ ∃ x, frame0.arms[((p.k 1).extractLsb' 20 1).toNat]? = some x)
    ∧ (let s := trapSt 0x0000000400400000 win0
       let p := trapP 0x0000000400400000 win0
       let c := s.codeOf p.blk.id.lid
       (LanePass s p ∧ NoParts s) ∧ p.arm.stack = [] ∧ ((p.k 1).extractLsb' 32 32).toNat = 4 ∧ TargetOk s p 4 ∧ 4 + 2 ≠ c.len
        ∧ ((afterTarget s p 4).mapBit c p.core p.ctx none (4 + 2)).2 = .ok true)
    ∧ (let s := trapSt 0x0000000001030000 win0
       let p := trapP 0x0000000001030000 win0
       let c := s.codeOf p.blk.id.lid
       (LanePass s p ∧ NoParts s) ∧ p.arm.stack = [] ∧ ((p.k 1).extractLsb' 32 32).toNat = 0 ∧ TargetOk s p 0 ∧ ((p.k 1).extractLsb' 22 2).toNat = 0
        ∧ (p.k 1).getLsbD 24 = true ∧ 0 + 2 ≠ c.len ∧ ((afterTarget s p 0).mapBit c p.core p.ctx none (0 + 2)).2 = .ok false) :=
  ⟨⟨lane_calm _ (by decide +kernel), by decide +kernel, by decide +kernel, by decide +kernel, target_ok (by decide +kernel), by decide +kernel, by decide +kernel,
      by decide +kernel, ⟨_, rfl⟩⟩,
    ⟨lane_calm _ (by decide +kernel), by decide +kernel, by decide +kernel, target_ok (by decide +kernel), by decide +kernel, ok_of (by decide +kernel)⟩,
    ⟨lane_calm _ (by decide +kernel), by decide +kernel, by decide +kernel, target_ok (by decide +kernel), by decide +kernel, by decide +kernel, by decide +kernel,
      ok_of (by decide +kernel)⟩⟩
theorem witness_SpecialReads :
    (LanePass s0 p0 ∧ p0.coach = false ∧ s0.launch? p0.blk.id.lid = some State.slotLaunch ∧ State.slotLaunch.rec_ = none ∧ s0.isDet p0 = false ∧ 0x17 < 0x18
      ∧ RegOk p0 63 1)
    ∧ CoachPass sc pc ∧ pc.coach = true ∧ sc.launch? pc.blk.id.lid = some State.slotLaunch ∧ sc.isDet pc = false :=
  ⟨⟨lane0, by decide +kernel, by decide +kernel, rfl, by decide +kernel, by decide, by unfold RegOk; decide +kernel⟩, coach0, by decide +kernel, by decide +kernel,
    by decide +kernel⟩
/-- In trap mode with base 8: the spill depths 8, 4 and 16. -/
theorem witness_SpecialWrites :
    let w : Win := { allot := 64, reach := 64, base := 8, spill := 0 }
    LanePass s0 p0 ∧ p0.trapMode = false ∧ CoachPass sc pc ∧ pc.trapMode = false
    ∧ (LanePass (trapSt 8 w) (trapP 8 w) ∧ (trapP 8 w).sk.frame ≠ none ∧ ((trapP 8 w).k 1).toNat % 8 = 0 ∧ ((trapP 8 w).k 1).toNat ≤ (trapP 8 w).sk.win.base)
    ∧ (LanePass (trapSt 4 w) (trapP 4 w) ∧ ((trapP 4 w).k 1).toNat % 8 ≠ 0) ∧ LanePass (trapSt 16 w) (trapP 16 w)
    ∧ (trapP 16 w).sk.win.base < ((trapP 16 w).k 1).toNat :=
  ⟨lane0, by decide +kernel, coach0, by decide +kernel, ⟨lane_pass _ (by decide +kernel), by decide +kernel⟩, ⟨lane_pass _ (by decide +kernel), by decide +kernel⟩,
    lane_pass _ (by decide +kernel), by decide +kernel⟩

/-! ### Memory -/

/-- Home granules 0 (data) and 1 (pool) of context 0 on channel 0, their leaves cached, and bytes of HBM. -/
def homed (s : State) (cells : List Host.Cell) : State :=
  let leaf (va : Nat) (e : W64) : Leaf := { ctx := 0, va := va, size := 65536, entry := e, pinned := false }
  { (s.modCtx 0 fun x => { x with home := [(0, 0x80000000#32), (1, 0x80000000#32)], d := { x.d with pool := 65536, gcount := 1 } }) with
    chans := [(0, { Chan.init with leaves := [leaf 0 0x43, leaf 65536 0x1000047] })], mem := { s.mem with bytes := cells } }
def homeAt (a : Nat) : Home := { chan := 0, loc := a, entry := 0x43, key := 0 }
def poolHome0 (a : Nat) : Home := { chan := 0, loc := 65536 + a, entry := 0x1000047, key := 0 }
/-- A dirty line at VA 0 that may be written. -/
def line0 : CLine := { tag := some 0, va := 0, data := 0, valid := State.allBytes, dirty := State.allBytes, w := true, first := false }
def addrs : NMap W64 := [(5, 8), (6, 120), (7, 0x8000000000000000#64)]
/-- Two lanes active, `line0` in the core's L1. -/
def s1 : State := (laneSt 0x8001 id fun a => { a with ks := addrs }).modCore 0 fun c => { c with l1 := [line0] }
def p1 : Pass := passOf s1
theorem lane1 : LanePass s1 p1 := lane_pass _ (by decide +kernel)
theorem witness_LoadsFromL1 : PlainPass s1 p1 ∧ NoOwnUpdates s1 p1 ∧ DataOk p1 62 8 ∧ AddrsOk s1 p1 8 (fun _ => 0) ∧ AddrsOk s1 p1 8 (fun _ => 120)
    ∧ (∀ l ∈ p1.lanes, InL1 s1 p1 0 8 line0) ∧ (∀ l ∈ p1.lanes, InL1 s1 p1 120 8 line0)
    ∧ (∀ l ∈ p1.lanes, InL1 (s1.acquireAt p1.core p1.ctx Scope.rack.level) p1 120 8 line0)
    ∧ 255 < 2 ^ 8 ∧ (p1.k 5 + BitVec.ofInt 64 ((BitVec.ofNat 8 255).toInt * 8)).toNat = 0
    ∧ (∀ l ∈ p1.lanes, (p1.sk.vpair 62 l + BitVec.ofInt 64 ((BitVec.ofNat 8 0).toInt * 8)).toNat = 0) ∧ RegOk p1 62 2 ∧ 62 % 2 = 0
    ∧ (∀ l ∈ p1.lanes, (p1.sk.vpair 62 l).toNat = 0) ∧ (∀ l ∈ p1.lanes, (p1.k 6 + BitVec.ofNat 64 (p1.sk.v 63 l).toNat).toNat = 120) ∧ RegOk p1 63 1 :=
  ⟨⟨lane1, by decide +kernel⟩, no_own (no_updates (by decide +kernel)), by unfold DataOk RegOk; decide +kernel, by unfold AddrsOk; decide +kernel, by unfold AddrsOk; decide +kernel,
    by unfold InL1; decide +kernel, by unfold InL1; decide +kernel, by unfold InL1; decide +kernel, by decide, by decide +kernel, by decide +kernel,
    by unfold RegOk; decide +kernel, by decide, by decide +kernel, by decide +kernel, by unfold RegOk; decide +kernel⟩
theorem witness_StoresToL1 : PlainPass s1 p1 ∧ NoUpdates s1 ∧ DataOk p1 62 8 ∧ AddrsOk s1 p1 8 (fun _ => 120) ∧ 2 ≠ 3
    ∧ (∀ l ∈ p1.lanes, State.lineIn (s1.core p1.core).l1 p1.ctx 120 = some line0 ∧ line0.w = true)
    ∧ (p1.k 6 + BitVec.ofInt 64 ((BitVec.ofNat 8 0).toInt * 8)).toNat = 120
    ∧ (∀ l ∈ p1.lanes, (p1.k 6 + BitVec.ofNat 64 (p1.sk.v 63 l).toNat).toNat = 120) ∧ RegOk p1 63 1 :=
  ⟨⟨lane1, by decide +kernel⟩, no_updates (by decide +kernel), by unfold DataOk RegOk; decide +kernel, by unfold AddrsOk; decide +kernel, by decide,
    by decide +kernel, by decide +kernel, by decide +kernel, by unfold RegOk; decide +kernel⟩
/-- One lane active and the home of VA 0 cached. -/
def s2 : State := homed (laneSt 0x8000 id fun a => { a with ks := addrs }) []
def p2 : Pass := passOf s2
theorem lane2 : LanePass s2 p2 := lane_pass _ (by decide +kernel)
def sc2 : State := homed (coachSt fun c => { c with ks := addrs }) []
theorem coach2 : CoachPass sc2 (passOf sc2) := coach_pass _ (by decide +kernel)
theorem home_ok {s : State} {p : Pass} {a : Nat} {k : Kind} {h : Home}
    (ht : ((s.ctuFind p.ctx a).isSome && answers (s.request p.ctx a k).2 h && !h.moved && !h.wild
      && (List.range 4).all fun i => !s.poisoned (h.addr / 128 * 4 + i) && mapGetD s.mem.keyOf (h.addr / 128 * 4 + i) 0 == h.key) = true) :
    HomeOk s p a k h := by
  simp only [Bool.and_eq_true, List.all_eq_true, List.mem_range, Bool.not_eq_true', beq_iff_eq] at ht
  exact ⟨ht.1.1.1.1, ok_of ht.1.1.1.2, ht.1.1.2, ht.1.2, fun i hi => ht.2 i hi⟩
theorem witness_StoresToHomes :
    (MemoryOk s2 ∧ NoUpdates s2 ∧ CleanL1 s2 p2 ∧ s2.isDet p2 = false ∧ noncanon 120 = false ∧ 120 % 8 = 0 ∧ s2.mapOk p2.ctx 120 = true
      ∧ HomeOk s2 p2 (120 / 128 * 128) .write (homeAt 0) ∧ LanePass s2 p2 ∧ PlainPass s2 p2
      ∧ 120 = (p2.k 6 + BitVec.ofInt 64 ((BitVec.ofNat 8 0).toInt * 8)).toNat
      ∧ p2.lanes = [15] ∧ DataOk p2 62 8 ∧ RegOk p2 63 1 ∧ 120 = (p2.k 6 + BitVec.ofNat 64 (p2.sk.v 63 15).toNat).toNat
      ∧ Scope.die ≠ Scope.core ∧ 0 < 1)
    ∧ CoachPass sc2 (passOf sc2) ∧ HomeOk sc2 (passOf sc2) (120 / 128 * 128) .write (homeAt 0)
      ∧ 120 = ((passOf sc2).k 6 + BitVec.ofInt 64 ((BitVec.ofNat 8 0).toInt * 8)).toNat :=
  ⟨⟨by unfold MemoryOk; decide +kernel, no_updates (by decide +kernel), by unfold CleanL1; decide +kernel, by decide +kernel, by decide +kernel, by decide,
      by decide +kernel, home_ok (by decide +kernel), lane2, ⟨lane2, by decide +kernel⟩, by decide +kernel, by decide +kernel,
      by unfold DataOk RegOk; decide +kernel, by unfold RegOk; decide +kernel, by decide +kernel, by decide, by decide⟩,
    coach2, home_ok (by decide +kernel), by decide +kernel⟩
def sc1 : State := (coachSt fun c => { c with ks := addrs }).modCore 0 fun c => { c with l1 := [line0] }
theorem witness_UniformMemory :
    (LanePass s1 p1 ∧ NoOwnUpdates s1 p1 ∧ s1.isDet p1 = false ∧ 0 < 2 ^ 8 ∧ 120 = (p1.k 6 + BitVec.ofInt 64 ((BitVec.ofNat 8 0).toInt * 8)).toNat ∧ s1.mapOk p1.ctx 120 = true
      ∧ InL1 s1 p1 120 8 line0 ∧ line0.w = true)
    ∧ (CoachPass sc1 (passOf sc1) ∧ NoOwnUpdates sc1 (passOf sc1) ∧ InL1 sc1 (passOf sc1) 120 8 line0 ∧ 120 = ((passOf sc1).k 6 + BitVec.ofInt 64 ((BitVec.ofNat 8 0).toInt * 8)).toNat)
    ∧ (CoachPass sc2 (passOf sc2) ∧ NoUpdates sc2 ∧ HomeOk sc2 (passOf sc2) (120 / 128 * 128) .read (homeAt 0))
    ∧ LanePass s2 p2 ∧ NoUpdates s2 ∧ State.lineIn (s2.tray (s2.homeTray p2.ctx 120)).slices p2.ctx 120 = none ∧ State.lineIn (s2.core p2.core).l1 p2.ctx 120 = none ∧ State.lineIn (s2.die (State.dieOf p2.core)).rdc p2.ctx 120 = none
      ∧ HomeOk s2 p2 (120 / 128 * 128) .read (homeAt 0) ∧ mapGet s2.mem.readers ((homeAt 0).addr / 128) = none ∧ (s2.core p2.core).l1.length < 2048 :=
  ⟨⟨lane1, no_own (no_updates (by decide +kernel)), by decide +kernel, by decide, by decide +kernel, by decide +kernel, by unfold InL1; decide +kernel, rfl⟩,
    ⟨coach_pass _ (by decide +kernel), no_own (no_updates (by decide +kernel)), by unfold InL1; decide +kernel, by decide +kernel⟩, ⟨coach2, no_updates (by decide +kernel), home_ok (by decide +kernel)⟩, lane2,
    no_updates (by decide +kernel), by decide +kernel, by decide +kernel,
    by decide +kernel, home_ok (by decide +kernel), by decide +kernel, by decide +kernel⟩
/-- A span pair; `v0` of every lane holds the last word's offset of a window of 4,096 bytes. -/
def spanSt : State :=
  let s := (laneSt 0x8001 (fun k => k.setVs 0 (List.range 16) fun _ => 4088) id).modBlk 0 fun b => { b with id := { b.id with span := 2, partner := some 1 } }
  { s with blocks := mapSet s.blocks 1 { State.slotBlock with id := { State.slotBlock.id with bid := 1, span := 3, partner := some 0 } } }
theorem witness_Scratchpad :
    let p := passOf spanSt
    PlainPass spanSt p ∧ 255 < 2 ^ 8 ∧ p.blk.id.partner = some 1 ∧ (∃ w, spanSt.blk? 1 = some w ∧ w.ps.size = 4096 ∧ Memory.wf w.ps.bytes = true ∧ w.ps.poison = [])
    ∧ (∃ w, spanSt.blk? p.bid = some w ∧ w.ps.size = 4096) ∧ DataOk p 62 8 ∧ RegOk p 0 1
    ∧ ∀ l ∈ p.lanes, (BitVec.ofNat 64 (p.sk.v 0 l).toNat + BitVec.ofInt 64 ((BitVec.ofNat 8 0).toInt * 8)).toNat % 2 ^ 20 = 4088 :=
  ⟨⟨lane_pass _ (by decide +kernel), by decide +kernel⟩, by decide, by decide +kernel, ⟨_, rfl, rfl, rfl, rfl⟩, ⟨_, rfl, rfl⟩, by unfold DataOk RegOk; decide +kernel,
    by unfold RegOk; decide +kernel, by decide +kernel⟩
theorem maps_apart {s : State} {p : Pass} {h : Home} (ht : ((s.ctx? p.ctx).all fun x =>
    decide (h.addr / 128 * 128 + 128 ≤ x.d.desc ∨ x.d.desc + 0x81000 ≤ h.addr / 128 * 128)) = true) : MapsApart s p h := by
  intro x hx
  rw [hx, Option.all_some] at ht
  exact of_decide_eq_true ht
/-- Two lanes name the word at VA 120. -/
def atomSt : State := homed (laneSt 0x8001 (fun k => k.setVs 0 (List.range 16) fun _ => 120) id) [(120, 1)]
theorem witness_Atomics :
    let p := passOf atomSt
    PlainPass atomSt p ∧ MemoryOk atomSt ∧ NoUpdates atomSt ∧ CleanL1 atomSt p ∧ p.act ≠ 0 ∧ (∀ l ∈ p.lanes, (p.sk.vpair 0 l).toNat = 120)
    ∧ noncanon 120 = false ∧ atomSt.mapOk p.ctx 120 = true ∧ HomeOk atomSt p 120 .atomic (homeAt 120) ∧ RegOk p 0 2 ∧ 0 % 2 = 0 ∧ MapsApart atomSt p (homeAt 120)
    ∧ 120 % 8 = 0
    ∧ DataOk p 62 8 ∧ DataOk p 60 8 ∧ DataOk p 63 4 ∧ atomSt.homePkg p.ctx 120 = State.pkgOf p.core ∧ atomSt.inWindow (State.trayOf p.core) p.ctx 120 = false :=
  ⟨⟨lane_pass _ (by decide +kernel), by decide +kernel⟩, by unfold MemoryOk; decide +kernel, no_updates (by decide +kernel), by unfold CleanL1; decide +kernel,
    by decide +kernel, by decide +kernel, by decide +kernel, by decide +kernel, home_ok (by decide +kernel), by unfold RegOk; decide +kernel, rfl, maps_apart (by decide +kernel), rfl,
    by unfold DataOk RegOk; decide +kernel, by unfold DataOk RegOk; decide +kernel, by unfold DataOk RegOk; decide +kernel, by decide +kernel, by decide +kernel⟩

/-! ### Swatches, waits and queues -/

theorem home_value {s : State} {p : Pass} {a n : Nat} {k : Kind} {v : Nat} (h : Home)
    (ht : (!noncanon a && s.mapOk p.ctx a && a % n == 0 && (State.lineIn (s.core p.core).l1 p.ctx a).isNone && answers (s.request p.ctx a k).2 h && !h.moved && !h.wild
      && ((List.range n).all fun i => !s.poisoned (h.addr / 32 + i / 32) && mapGetD s.mem.keyOf ((h.addr + i) / 32) 0 == h.key)
      && v == leNat (byteGets s.mem.bytes h.addr n)) = true) : HomeValue s p a n k v := by
  simp only [Bool.and_eq_true, List.all_eq_true, List.mem_range, Bool.not_eq_true', beq_iff_eq, Option.isNone_iff_eq_none] at ht
  obtain ⟨⟨⟨⟨⟨⟨⟨⟨h1, h2⟩, h3⟩, h4⟩, h5⟩, h8⟩, h9⟩, h6⟩, h7⟩ := ht
  exact ⟨h1, h2, h3, h4, h, ok_of h5, h8, h9, fun i hi => (h6 i hi).1, fun i hi => (h6 i hi).2, h7⟩
theorem place_home {s : State} {p : Pass} {c : W64} {n : Nat} {k : Kind} {v : Nat} (hc : c.getLsbD 63 = false) (h : HomeValue s p c.toNat n k v) :
    PlaceValue s p c n k v := by
  unfold PlaceValue
  rw [if_neg (by rw [hc]; decide)]
  exact h
/-- A barrier object at VA 0: one arrival expected, scope `.rack`. -/
def objSt : State := homed (laneSt 0x8001 (fun k => { k with x := { k.x with bo := some (0, 0) } }) id) [(0, 1), (12, 4)]
def objP : Pass := passOf objSt
def objV : Nat := 1 + 4 * 2 ^ 96
theorem objLane : LanePass objSt objP := lane_pass _ (by decide +kernel)
theorem objValue (k : Kind) (hk : k = .read ∨ k = .atomic) : HomeValue objSt objP (objP.k 0).toNat 32 k objV := by
  obtain rfl | rfl := hk <;> exact home_value (homeAt 0) (by decide +kernel)
theorem witness_Prefetch : PlainPass objSt objP ∧ NoUpdates objSt ∧ CleanL1 objSt objP ∧ RegOk objP 62 2 ∧ 62 % 2 = 0 ∧ RegOk objP 63 1 ∧ objP.act ≠ 0
    ∧ HomeValue objSt objP (objP.k 0).toNat 32 .atomic objV ∧ objV / 2 ^ 99 = 0 ∧ objV / 2 ^ 96 % 2 ^ 3 ≤ 4 ∧ objV % 2 ^ 32 ≠ 0 :=
  ⟨⟨objLane, by decide +kernel⟩, no_updates (by decide +kernel), by unfold CleanL1; decide +kernel, by unfold RegOk; decide +kernel, rfl, by unfold RegOk; decide +kernel, by decide +kernel,
    objValue _ (.inr rfl), by decide +kernel⟩
/-- DIGEST of 128 zero bytes. -/
def digest0 : Nat := 378499257588192766440134007675651618
theorem digest0_ok : leNat (shake256 (lineBytes 0) 15) = digest0 := by decide +kernel
/-- A clean line of zeros at VA 0, names 1 and 2^120 + 1 in `v56` to `v59` and `v52` to `v55`, offset 124 in `v63`, VA 0 in the pair `v60`. -/
def swSt (lines : List SwLine) : State :=
  let s := homed (laneSt 0x8000 (fun k => ((((k.setVs 56 (List.range 16) fun _ => 1).setVs 52 (List.range 16) fun _ => 1).setVs 55 (List.range 16) fun _ => 0x01000000).setVs
    63 (List.range 16) fun _ => 124)) id) []
  { s.modCore 0 (fun c => { c with l1 := [{ line0 with dirty := 0 }] }) with mem := { s.mem with lines := lines } }
def swLine (digest chain count : Nat) : SwLine := { gran := 1, digest := digest, chain := chain, data := 0, count := count, key := 0, bad := false }
def sw1 : State := swSt [swLine 1 0 2, swLine 1 1 1, swLine digest0 5 1]
def sw2 : State := swSt []
theorem pool_ok {s : State} {p : Pass} {dg : Nat} {w : Bool} {h : Home}
    (ht : ((s.trays.all fun e => e.2.parts.isEmpty) && s.mapOk p.ctx (s.poolVa p.ctx dg) && (s.ctuFind p.ctx (s.poolVa p.ctx dg)).isSome
      && answers (s.request p.ctx (s.poolVa p.ctx dg) (if w then .swWrite else .swRead)).2 h) = true) : PoolOk s p dg w h := by
  simp only [Bool.and_eq_true] at ht
  exact ⟨parts_of (no_parts ht.1.1.1), ht.1.1.2, ht.1.2, ok_of ht.2⟩
theorem named {n : Nat} {w : Bool} {y : SwLine} (hn : n % 2 ^ 120 = 1) (hy : (sw1.chainOf (poolHome0 0) 1).find? (fun z => z.chain == n / 2 ^ 120 % 256) = some y) :
    LineNamed sw1 (passOf sw1) n w y := by
  refine ⟨by omega, poolHome0 0, ?_, by rw [hn]; exact hy⟩
  rw [hn]
  cases w <;> exact pool_ok (by decide +kernel)
theorem witness_Swatches :
    let p := passOf sw1
    let p' := passOf sw2
    PlainPass sw1 p ∧ NoOwnUpdates sw1 p ∧ SwatchOk sw1 p ∧ p.lanes = [15] ∧ RegOk p 51 1 ∧ QuadOk p 56 ∧ QuadOk p 52 ∧ PairOk p 60 ∧ RegOk p 63 1
    ∧ LineNamed sw1 p (p.sk.vquad 56 15) false (swLine 1 0 2) ∧ (p.sk.v 63 15).toNat = 124
    ∧ LineNamed sw1 p (p.sk.vquad 56 15) true (swLine 1 0 2) ∧ LineNamed sw1 p (p.sk.vquad 52 15) true (swLine 1 1 1)
    ∧ (p.sk.vpair 60 15).toNat = 0 ∧ sw1.mapOk p.ctx 0 = true ∧ InL1 sw1 p 0 128 { line0 with dirty := 0 }
    ∧ leNat (shake256 (lineBytes line0.data) 15) = digest0 ∧ digest0 ≠ 0
    ∧ ((sw1.chainOf (poolHome0 0) digest0).find? fun z => z.data == line0.data && !z.bad) = some (swLine digest0 5 1)
    ∧ PoolOk sw1 p digest0 true (poolHome0 0) ∧ PoolOk sw1 p digest0 false (poolHome0 0)
    ∧ (PlainPass sw2 p' ∧ NoOwnUpdates sw2 p' ∧ SwatchOk sw2 p' ∧ p'.lanes = [15] ∧ QuadOk p' 56 ∧ PairOk p' 60 ∧ InL1 sw2 p' 0 128 { line0 with dirty := 0 }
      ∧ ((sw2.chainOf (poolHome0 0) digest0).find? fun z => z.data == line0.data && !z.bad) = none ∧ PoolOk sw2 p' digest0 true (poolHome0 0)
      ∧ (sw2.chainOf (poolHome0 0) digest0).length < 256 ∧ (sw2.mem.lines.filter fun y => y.gran == State.granOf (poolHome0 0)).length < 384)
    ∧ MemoryOk sw1 ∧ NoUpdates sw1 ∧ CleanL1 sw1 p ∧ HomeOk sw1 p 0 .atomic (homeAt 0)
    ∧ State.lineIn (sw1.core p.core).l1 p.ctx 0 = some { line0 with dirty := 0 } ∧ line0.w = true :=
  ⟨⟨lane_pass _ (by decide +kernel), by decide +kernel⟩, no_own (no_updates (by decide +kernel)), by unfold SwatchOk; decide +kernel, by decide +kernel,
    by unfold RegOk; decide +kernel, by unfold QuadOk RegOk; decide +kernel, by unfold QuadOk RegOk; decide +kernel, by unfold PairOk RegOk; decide +kernel, by unfold RegOk; decide +kernel,
    named (by decide +kernel) (by decide +kernel), by decide +kernel, named (by decide +kernel) (by decide +kernel), named (by decide +kernel) (by decide +kernel),
    by decide +kernel, by decide +kernel, by unfold InL1; decide +kernel, digest0_ok, by decide, by decide +kernel, pool_ok (by decide +kernel), pool_ok (by decide +kernel),
    ⟨⟨lane_pass _ (by decide +kernel), by decide +kernel⟩, no_own (no_updates (by decide +kernel)), by unfold SwatchOk; decide +kernel, by decide +kernel, by unfold QuadOk RegOk; decide +kernel,
      by unfold PairOk RegOk; decide +kernel, by unfold InL1; decide +kernel, by decide +kernel, pool_ok (by decide +kernel), by decide +kernel, by decide +kernel⟩,
    by unfold MemoryOk; decide +kernel, no_updates (by decide +kernel), by unfold CleanL1; decide +kernel, home_ok (by decide +kernel), by decide +kernel, rfl⟩
/-- The window holds a ring of 64 slots at offset 0; `k7` names it; other values in `k10` and on. -/
def ringKs : NMap W64 := [(7, 0x8000000000000000#64), (10, 1), (11, 127), (12, 0x100000000#64), (13, 0x8000000000000020#64)]
def ringPs : Scratch := { State.emptyScratch 4096 with bytes := [(17, 64)] }
def ringSt : State :=
  homed ((laneSt 0x8001 (fun k => { k with x := { k.x with bo := some (0, 1) } }) fun a => { a with ks := ringKs }).modBlk 0 fun b => { b with ps := ringPs }) [(0, 1), (12, 4)]
def ringP : Pass := passOf ringSt
def ringCo : State := homed ((coachSt fun c => { c with ks := ringKs }).modBlk 0 fun b => { b with ps := ringPs }) []
def ringV : Nat := 64 * 2 ^ 136
theorem ringPlace : PlaceValue ringSt ringP (ringP.k 7) 32 .read ringV := by unfold PlaceValue; rw [if_pos (by decide +kernel)]; decide +kernel
theorem witness_Waits :
    (PlainK ringSt ringP ∧ NoUpdates ringSt ∧ ringP.repeated = false) ∧ (PlainK ringCo (passOf ringCo) ∧ NoUpdates ringCo ∧ (passOf ringCo).repeated = false)
    ∧ (PlaceValue ringSt ringP (ringP.k 13) 4 .read 0 ∧ (0 + 2 ^ 31 - (ringP.k 0).toNat % 2 ^ 31) % 2 ^ 31 < 2 ^ 30
      ∧ ¬(0 + 2 ^ 31 - (ringP.k 10).toNat % 2 ^ 31) % 2 ^ 31 < 2 ^ 30)
    ∧ PlaceValue ringCo (passOf ringCo) ((passOf ringCo).k 0) 4 .read 0
    ∧ (HomeValue ringCo (passOf ringCo) ((passOf ringCo).k 0).toNat 8 .read 0 ∧ condHolds .eq (BitVec.ofNat 64 0) ((passOf ringCo).k 0) = true
      ∧ condHolds .ne (BitVec.ofNat 64 0) ((passOf ringCo).k 0) = false)
    ∧ (PlaceValue ringSt ringP (ringP.k 7) 32 .read ringV ∧ ringV / 2 ^ 136 % 2 ^ 7 = 64 ∧ ringV / 2 ^ 128 % 4 = 0
      ∧ (ringP.k 11).toNat < 2 ^ 33 ∧ ringV / 2 ^ (64 * 0 + 127 % 64) % 2 = (127 / 64 + 1) % 2
      ∧ ¬ringV / 2 ^ (64 * 0 + 0 % 64) % 2 = (0 / 64 + 1) % 2 ∧ (ringP.k 12).toNat < 2 ^ 33 ∧ ringV / 2 ^ (64 * 1 + 0 % 64) % 2 = 0 / 64 % 2)
    ∧ (LanePass objSt objP ∧ PlainK objSt objP ∧ NoUpdates objSt ∧ objP.repeated = false ∧ HomeValue objSt objP (objP.k 0).toNat 32 .read objV ∧ objP.sk.x.bo = some ((objP.k 0).toNat, 0)
      ∧ objV / 2 ^ 64 % 2 ^ 32 = 0)
    ∧ (let s := yieldSt [(3, 128)] 0
       let p := passOf s
       PlainK s p ∧ NoUpdates s ∧ p.repeated = false ∧ PlaceValue s p (p.k 7) 4 .read (2 ^ 31))
    ∧ LanePass ringSt ringP ∧ HomeValue ringSt ringP (ringP.k 0).toNat 32 .read objV ∧ ringP.sk.x.bo = some ((ringP.k 0).toNat, 1)
      ∧ objV / 2 ^ 64 % 2 ^ 32 ≠ 1 :=
  ⟨⟨⟨.inl (lane_pass _ (by decide +kernel)), by decide +kernel⟩, no_updates (by decide +kernel), by decide +kernel⟩,
    ⟨⟨.inr (coach_pass _ (by decide +kernel)), by decide +kernel⟩, no_updates (by decide +kernel), by decide +kernel⟩,
    ⟨by unfold PlaceValue; rw [if_pos (by decide +kernel)]; decide +kernel, by decide +kernel⟩,
    place_home (by decide +kernel) (home_value (homeAt 0) (by decide +kernel)), ⟨home_value (homeAt 0) (by decide +kernel), by decide +kernel⟩,
    ⟨ringPlace, by decide +kernel⟩, ⟨objLane, ⟨.inl objLane, by decide +kernel⟩, no_updates (by decide +kernel), by decide +kernel, objValue _ (.inl rfl), by decide +kernel⟩,
    ⟨⟨.inl (lane_pass _ (by decide +kernel)), by decide +kernel⟩, no_updates (by decide +kernel), by decide +kernel,
      by unfold PlaceValue; rw [if_pos (by decide +kernel)]; decide +kernel⟩,
    lane_pass _ (by decide +kernel), home_value (homeAt 0) (by decide +kernel), by decide +kernel⟩
theorem witness_Arrivals :
    (PlainPass ringSt ringP ∧ NoUpdates ringSt ∧ CleanL1 ringSt ringP ∧ (ringP.k 7).getLsbD 63 = true ∧ Memory.wf ringP.blk.ps.bytes = true
      ∧ PlaceValue ringSt ringP (ringP.k 7) 32 .read ringV ∧ (ringP.k 11).toNat < 2 ^ 33 ∧ ringV / 2 ^ 136 % 2 ^ 7 = 64 ∧ ringV / 2 ^ 128 % 4 ≠ 3)
    ∧ PlainPass objSt objP ∧ NoUpdates objSt ∧ CleanL1 objSt objP ∧ MemoryOk objSt ∧ objSt.mem.held = []
      ∧ HomeValue objSt objP (objP.k 0).toNat 32 .atomic objV ∧ HomeOk objSt objP ((objP.k 0).toNat + 4) .atomic (homeAt 4)
      ∧ objV / 2 ^ 99 = 0 ∧ objV / 2 ^ 96 % 2 ^ 3 ≤ 4 ∧ objV % 2 ^ 32 ≠ 0 :=
  ⟨⟨⟨lane_pass _ (by decide +kernel), by decide +kernel⟩, no_updates (by decide +kernel), by unfold CleanL1; decide +kernel, by decide +kernel,
      by decide +kernel, ringPlace, by decide +kernel⟩,
    ⟨objLane, by decide +kernel⟩, no_updates (by decide +kernel), by unfold CleanL1; decide +kernel, by unfold MemoryOk; decide +kernel, by decide +kernel,
    objValue _ (.inr rfl), home_ok (by decide +kernel), by decide +kernel⟩
def dqEnt (m p : Lanes) : DqEnt := { value := 9, mask := m, popped := p, carry := none }
def dqCo (n : Nat) : State := (coachSt fun c => { c with ks := [(1, 1)] }).modBlk 0 fun b => { b with dq := List.replicate n (dqEnt 2 0) }
def dqSk (q : List DqEnt) : State := s0.modBlk 0 fun b => { b with dq := q }
/-- 15 and 16 entries; an entry that this skein has not taken behind one that it has; none. -/
theorem witness_DecisionQueues :
    (PlainK (dqCo 15) (passOf (dqCo 15)) ∧ NoUpdates (dqCo 15) ∧ (passOf (dqCo 15)).coach = true ∧ (passOf (dqCo 15)).blk.dq.length < 16)
    ∧ (PlainK (dqCo 16) (passOf (dqCo 16)) ∧ NoUpdates (dqCo 16) ∧ 16 ≤ (passOf (dqCo 16)).blk.dq.length)
    ∧ (PlainK (dqSk [dqEnt 3 1, dqEnt 3 0]) (passOf (dqSk [dqEnt 3 1, dqEnt 3 0])) ∧ NoUpdates (dqSk [dqEnt 3 1, dqEnt 3 0]) ∧ (passOf (dqSk [dqEnt 3 1, dqEnt 3 0])).coach = false
      ∧ (passOf (dqSk [dqEnt 3 1, dqEnt 3 0])).sk.frame = none ∧ (passOf (dqSk [dqEnt 3 1, dqEnt 3 0])).blk.dq = [dqEnt 3 1] ++ dqEnt 3 0 :: []
      ∧ (dqEnt 3 1).popped.getLsbD (passOf (dqSk [dqEnt 3 1, dqEnt 3 0])).ix = true ∧ (dqEnt 3 0).mask.getLsbD (passOf (dqSk [dqEnt 3 1, dqEnt 3 0])).ix = true
      ∧ (dqEnt 3 0).popped.getLsbD (passOf (dqSk [dqEnt 3 1, dqEnt 3 0])).ix = false)
    ∧ PlainK s0 p0 ∧ NoUpdates s0 ∧ ∀ x ∈ p0.blk.dq, x.mask.getLsbD p0.ix = false ∨ x.popped.getLsbD p0.ix = true :=
  ⟨⟨⟨.inr (coach_pass _ (by decide +kernel)), by decide +kernel⟩, no_updates (by decide +kernel), by decide +kernel⟩,
    ⟨⟨.inr (coach_pass _ (by decide +kernel)), by decide +kernel⟩, no_updates (by decide +kernel), by decide +kernel⟩,
    ⟨⟨.inl (lane_pass _ (by decide +kernel)), by decide +kernel⟩, no_updates (by decide +kernel), by decide +kernel⟩, ⟨.inl lane0, by decide +kernel⟩,
    no_updates (by decide +kernel), by decide +kernel⟩
/-- A queue of one entry at VA 0, its array at VA 128; empty, or full. -/
def tqSt (tail : Byte) : State := homed (laneSt 0x8001 id id) ([(0, 128), (8, 1)] ++ if tail = 0 then [] else [(16, tail)])
def tqP (tail : Byte) : Pass := passOf (tqSt tail)
theorem tqBase (t : Byte) (ht : t = 0 ∨ t = 1) : PlainPass (tqSt t) (tqP t) ∧ NoUpdates (tqSt t) ∧ CleanL1 (tqSt t) (tqP t) ∧ MemoryOk (tqSt t)
    ∧ (tqP t).sk.frame = none ∧ (tqSt t).replayOf (tqP t) = none ∧ (∀ e ∈ (tqSt t).mem.tqwait, e.1 ≠ State.syncKey (tqP t).ctx 0) := by
  obtain rfl | rfl := ht <;>
  exact ⟨⟨lane_pass _ (by decide +kernel), by decide +kernel⟩, no_updates (by decide +kernel), by unfold CleanL1; decide +kernel,
    by unfold MemoryOk; decide +kernel, by decide +kernel, by decide +kernel, by decide +kernel⟩
theorem witness_TaskQueues :
    (let p := tqP 0
     let v := 128 + 2 ^ 64
     HomeValue (tqSt 0) p (p.k 0).toNat 64 .atomic v ∧ v < 2 ^ 160 ∧ 28 % 4 = 0 ∧ v / 2 ^ 64 % 2 ^ 32 = 2 ^ 0 ∧ v % 2 ^ 64 / 32 * 32 + 32 * (0 % 1) = 128
      ∧ HomeOk (tqSt 0) p 128 .atomic (homeAt 128) ∧ HomeOk (tqSt 0) p (0 + 16) .atomic (homeAt 16) ∧ noncanon 128 = false ∧ (tqSt 0).mapOk p.ctx 128 = true
      ∧ (homeAt 16).addr / 128 ≠ (homeAt 128).addr / 128 ∧ (v / 2 ^ 128 % 2 ^ 32 + 2 ^ 32 - v / 2 ^ 96 % 2 ^ 32) % 2 ^ 32 ≠ 1
      ∧ (p.k 28).toNat % 2 ^ 16 = 0 ∧ (p.k 28).toNat / 2 ^ 17 % 2 ^ 7 = 0)
    ∧ let p := tqP 1
      let v := 128 + 2 ^ 64 + 2 ^ 128
      HomeValue (tqSt 1) p (p.k 0).toNat 64 .atomic v ∧ v / 2 ^ 96 % 2 ^ 32 ≠ v / 2 ^ 128 % 2 ^ 32 ∧ HomeValue (tqSt 1) p 128 32 .read 0
      ∧ HomeOk (tqSt 1) p (0 + 12) .atomic (homeAt 12)
      ∧ (v / 2 ^ 128 % 2 ^ 32 + 2 ^ 32 - v / 2 ^ 96 % 2 ^ 32) % 2 ^ 32 = v / 2 ^ 64 % 2 ^ 32
      ∧ (p.k 28).toNat % 2 ^ 16 = 0 ∧ (p.k 28).toNat / 2 ^ 17 % 2 ^ 7 = 0 :=
  ⟨⟨home_value (homeAt 0) (by decide +kernel), by decide +kernel, rfl, by decide +kernel, by decide +kernel, home_ok (by decide +kernel), home_ok (by decide +kernel),
      by decide +kernel⟩,
    home_value (homeAt 0) (by decide +kernel), by decide +kernel, home_value (homeAt 128) (by decide +kernel), home_ok (by decide +kernel),
    by decide +kernel⟩

/-! ### Engines and resources -/

def cmd0 : MCmd :=
  { bid := 0, num := 0, kind := 1, tile := 0, slot := 0, fl := 0, span := false, who := 0, arm := 0, off := 0, ka := 0, kb := 0, kc := 0x8000000000000000#64, state := 0,
    prog := 0, table := [], seq := 0, det := none }
def copy0 : Copy :=
  { bid := 0, num := 0, ks := 0, kx := 0, kc := 0x8000000000000000#64, who := 0, off := 0, state := 0, prog := 0, seq := 0, abort := false, det := none }
/-- A skein of role `r`, `n` commands and `m` copies queued, clean lines of zeros at VA 0 and 128. -/
def engSt (r n m : Nat) : State :=
  (laneSt 0x8001 (fun k => { k with role := r }) fun a => { a with ks := ringKs }).modCore 0 fun c =>
    { c with mq := List.replicate n cmd0, copies := List.replicate m copy0, l1 := [{ line0 with dirty := 0 }, { line0 with va := 128, dirty := 0 }] }
def engP (r n m : Nat) : Pass := passOf (engSt r n m)
theorem engLane (r n m : Nat) (h : (r, n, m) = (2, 63, 0) ∨ (r, n, m) = (2, 64, 0) ∨ (r, n, m) = (1, 0, 95) ∨ (r, n, m) = (1, 0, 96)) :
    PlainK (engSt r n m) (engP r n m) := by
  obtain h | h | h | h := h <;> cases h <;> exact ⟨.inl (lane_pass _ (by decide +kernel)), by decide +kernel⟩
theorem witness_EngineCommands :
    (PlainK (engSt 2 63 0) (engP 2 63 0) ∧ (engP 2 63 0).sk.role = 2 ∧ 30 % 2 = 0 ∧ 0 < (engP 2 63 0).blk.ntiles ∧ ((engP 2 63 0).k 30).toNat < 2 ^ 57
      ∧ ((engP 2 63 0).k 31).toNat < 2 ^ 57 ∧ CounterOk (engSt 2 63 0) (engP 2 63 0) ((engP 2 63 0).k 7) ∧ bit1 (engSt 2 63 0).feat 1 = true
      ∧ ¬(64 ≤ ((engSt 2 63 0).core 0).mq.length ∨ ((engSt 2 63 0).core 0).reset ≠ none))
    ∧ (PlainK (engSt 2 64 0) (engP 2 64 0) ∧ 64 ≤ ((engSt 2 64 0).core 0).mq.length)
    ∧ (PlainK (engSt 1 0 95) (engP 1 0 95) ∧ (engP 1 0 95).sk.role = 1 ∧ NoUpdates (engSt 1 0 95) ∧ CleanL1 (engSt 1 0 95) (engP 1 0 95)
      ∧ ((engP 1 0 95).k 0).toNat < 2 ^ 57 ∧ ((engP 1 0 95).k 0).getLsbD 63 = false ∧ CounterOk (engSt 1 0 95) (engP 1 0 95) ((engP 1 0 95).k 7)
      ∧ (engSt 1 0 95).mapOk (engP 1 0 95).ctx 0 = true ∧ (engSt 1 0 95).mapOk (engP 1 0 95).ctx 128 = true
      ∧ InL1 (engSt 1 0 95) (engP 1 0 95) 0 8 { line0 with dirty := 0 } ∧ InL1 (engSt 1 0 95) (engP 1 0 95) 128 8 { line0 with va := 128, dirty := 0 }
      ∧ lineValue line0.data 0 8 / 2 ^ 62 % 2 = 0 ∧ ((engSt 1 0 95).core 0).copies.length < 96)
    ∧ (PlainK (engSt 1 0 96) (engP 1 0 96) ∧ NoUpdates (engSt 1 0 96) ∧ 96 ≤ ((engSt 1 0 96).core 0).copies.length)
    ∧ PlainK ringCo (passOf ringCo) ∧ (passOf ringCo).coach = true ∧ CounterOk ringCo (passOf ringCo) ((passOf ringCo).k 7) :=
  ⟨⟨engLane _ _ _ (.inl rfl), by decide +kernel, rfl, by decide +kernel, by decide +kernel, by decide +kernel, by unfold CounterOk; decide +kernel, by decide +kernel,
      by decide +kernel⟩,
    ⟨engLane _ _ _ (.inr (.inl rfl)), by decide +kernel⟩,
    ⟨engLane _ _ _ (.inr (.inr (.inl rfl))), by decide +kernel, no_updates (by decide +kernel), by unfold CleanL1; decide +kernel, by decide +kernel,
      by decide +kernel, by unfold CounterOk; decide +kernel, by decide +kernel, by decide +kernel, by unfold InL1; decide +kernel, by unfold InL1; decide +kernel,
      by decide +kernel, by decide +kernel⟩,
    ⟨engLane _ _ _ (.inr (.inr (.inr rfl))), no_updates (by decide +kernel), by decide +kernel⟩,
    ⟨.inr (coach_pass _ (by decide +kernel)), by decide +kernel⟩, by decide +kernel, by unfold CounterOk; decide +kernel⟩
def realLine : CLine := { line0 with dirty := 0, data := lineOf (Config.real.map fun n => BitVec.ofNat 8 n) }
def tabSt (x : CLine) : State := (laneSt 0x8001 (fun k => k.setVs 63 (List.range 16) fun _ => 16383) id).modCore 0 fun c => { c with l1 := [x] }
def tabP (x : CLine) : Pass := passOf (tabSt x)
theorem witness_TilesAndTables :
    (LanePass (tabSt realLine) (tabP realLine) ∧ Fields (tabP realLine) false 62 1 [(.v 63, 1)] ∧ Fields (tabP realLine) true 0 0 [(.v 63, 1), (.v 63, 1)]
      ∧ 0 < (tabP realLine).blk.ntiles ∧ (∀ l ∈ (tabP realLine).lanes, ((tabP realLine).val32 (.v 63) l).toNat < 16384
        ∧ (mapGetD (tabP realLine).blk.tiles 0 Tile.zero).pVis.contains ((tabP realLine).val32 (.v 63) l).toNat = false)
      ∧ PlainK (tabSt realLine) (tabP realLine) ∧ NoOwnUpdates (tabSt realLine) (tabP realLine) ∧ noncanon 0 = false ∧ ((tabP realLine).k 0).toNat = 0 ∧ (tabSt realLine).mapOk (tabP realLine).ctx 0 = true
      ∧ bit1 (tabSt realLine).feat 3 = true ∧ InL1 (tabSt realLine) (tabP realLine) 0 128 realLine
      ∧ Sys2Proof.Machine.tableOk ((lineBytes realLine.data).map (·.toNat)) = true)
    ∧ (PlainK (tabSt line0) (tabP line0) ∧ NoOwnUpdates (tabSt line0) (tabP line0) ∧ InL1 (tabSt line0) (tabP line0) 0 128 line0
      ∧ Sys2Proof.Machine.tableOk ((lineBytes line0.data).map (·.toNat)) = false)
    ∧ LanePass s0 p0 ∧ CoachPass sc pc ∧ (s0.core p0.core).slots.Pairwise (fun a b => a.1 < b.1) :=
  ⟨⟨lane_pass _ (by decide +kernel), fields_ok (by decide +kernel), fields_ok (by decide +kernel), by decide +kernel, by decide +kernel,
      ⟨.inl (lane_pass _ (by decide +kernel)), by decide +kernel⟩, no_own (no_updates (by decide +kernel)), by decide +kernel, by decide +kernel, by decide +kernel,
      by decide +kernel, by unfold InL1; decide +kernel, by decide +kernel⟩,
    ⟨⟨.inl (lane_pass _ (by decide +kernel)), by decide +kernel⟩, no_own (no_updates (by decide +kernel)), by unfold InL1; decide +kernel, by decide +kernel⟩, lane0, coach0, by decide +kernel⟩
/-- An allotment `a`, and another block that holds `r` registers per lane and `t` tiles. -/
def resSt (a r t : Nat) : State :=
  let s := laneSt 0xFFFF (fun k => { k with win := { win0 with allot := a } }) id
  { s with blocks := mapSet s.blocks 1 { State.slotBlock with id := { State.slotBlock.id with bid := 1 }, ntiles := t,
                                                               skeins := [{ State.slotSkein with win := { win0 with allot := r } }] } }
def resP (a r t : Nat) : Pass := passOf (resSt a r t)
/-- Grants up to 256 registers and 16 tiles, requests that wait, returns down to 16 registers, and one too many of each. -/
theorem witness_Resources :
    (LanePass (resSt 16 64 0) (resP 16 64 0) ∧ (resP 16 64 0).trapMode = false ∧ ((resSt 16 64 0).core 0).grants = [] ∧ (resP 16 64 0).arm.wait = none
      ∧ (resP 16 64 0).sk.arms.length ≠ 2 ∧ (resP 16 64 0).sk.win.allot + 8 * 30 ≤ 256 ∧ (∀ k ∈ (resP 16 64 0).blk.skeins, k.x.evict = none)
      ∧ 8 * 30 ≤ (resSt 16 64 0).freeRegs 0)
    ∧ (LanePass (resSt 16 12200 0) (resP 16 12200 0) ∧ (resP 16 12200 0).sk.win.allot + 8 * 30 ≤ 256 ∧ (resSt 16 12200 0).freeRegs 0 < 8 * 30)
    ∧ (LanePass (resSt 72 64 0) (resP 72 64 0) ∧ 16 + 8 * 1 ≤ (resP 72 64 0).sk.win.allot
      ∧ (resP 72 64 0).sk.win.base + (resP 72 64 0).sk.win.reach ≤ (resP 72 64 0).sk.win.spill + ((resP 72 64 0).sk.win.allot - 8 * 1))
    ∧ (LanePass (resSt 64 64 0) (resP 64 64 0) ∧ 256 < (resP 64 64 0).sk.win.allot + 8 * 25 ∧ 16 + 8 * 6 ≤ (resP 64 64 0).sk.win.allot
      ∧ (resP 64 64 0).sk.win.spill + ((resP 64 64 0).sk.win.allot - 8 * 6) < (resP 64 64 0).sk.win.base + (resP 64 64 0).sk.win.reach
      ∧ (resP 64 64 0).blk.ntiles + 15 ≤ 16 ∧ (resP 64 64 0).blk.evicted = 0 ∧ 15 ≤ (resSt 64 64 0).freeTiles 0 ∧ 16 < (resP 64 64 0).blk.ntiles + 16
      ∧ (resP 64 64 0).blk.ntiles < 2 ∧ 1 ≤ (resP 64 64 0).blk.ntiles ∧ (resP 64 64 0).blk.id.partner = none
      ∧ (∀ m ∈ ((resSt 64 64 0).core 0).mq, m.bid = (resP 64 64 0).bid → m.tile < (resP 64 64 0).blk.ntiles - 1))
    ∧ (LanePass (resSt 64 64 15) (resP 64 64 15) ∧ (resSt 64 64 15).freeTiles 0 < 1)
    ∧ (CoachPass sc pc ∧ pc.co.wait = none ∧ pc.trapMode = false ∧ (sc.core pc.core).grants = [])
    ∧ (LanePass s0 p0 ∧ NoParts s0 ∧ p0.sk.converged = true ∧ (∀ x ∈ (s0.core p0.core).copies, x.bid = p0.bid → x.who ≠ p0.ix)
      ∧ (∀ i ∈ (s0.core p0.core).incs, i.bid = p0.bid → i.who = p0.ix → i.isCopy = false)
      ∧ (∀ m ∈ (s0.core p0.core).mq, m.bid = p0.bid → m.who = p0.ix → m.kind = 2) ∧ p0.sk.win.reach ≤ p0.sk.win.allot
      ∧ 0 = (s0.launch? p0.blk.id.lid).elim 0 (fun l => natAt l.packet (52 + 4 * 2) 4) ∧ TargetOk s0 p0 0)
    ∧ LanePass (resSt 16 64 0) (resP 16 64 0) ∧ (resP 16 64 0).sk.win.allot < (resP 16 64 0).sk.win.reach :=
  ⟨⟨lane_pass _ (by decide +kernel), by decide +kernel⟩, ⟨lane_pass _ (by decide +kernel), by decide +kernel⟩, ⟨lane_pass _ (by decide +kernel), by decide +kernel⟩,
    ⟨lane_pass _ (by decide +kernel), by decide +kernel⟩, ⟨lane_pass _ (by decide +kernel), by decide +kernel⟩, ⟨coach0, by decide +kernel⟩,
    ⟨lane0, no_parts (by decide +kernel), by decide +kernel, by decide +kernel, by decide +kernel, by decide +kernel, by decide +kernel, by decide +kernel, target_ok (by decide +kernel)⟩,
    lane_pass _ (by decide +kernel), by decide +kernel⟩

/-! ### Events of the host die and of memory -/

theorem home_at {s : State} {c a : Nat} {k : Kind} {h : Home}
    (ht : (!noncanon a && s.mapOk c a && (s.ctuFind c a).isSome && answers (s.request c a k).2 h && !h.moved && !h.wild
      && (List.range 4).all fun i => !s.poisoned (h.addr / 128 * 4 + i) && mapGetD s.mem.keyOf (h.addr / 128 * 4 + i) 0 == h.key) = true) :
    HomeAt s c a k h := by
  simp only [Bool.and_eq_true, List.all_eq_true, List.mem_range, Bool.not_eq_true', beq_iff_eq] at ht
  obtain ⟨⟨⟨⟨⟨⟨h1, h2⟩, h3⟩, h4⟩, h6⟩, h7⟩, h5⟩ := ht
  exact ⟨h1, h2, h3, ok_of h4, h6, h7, fun i hi => h5 i hi⟩
/-- Package 0 executes the command of these parts, each at its place, for context `c`. -/
def cmdOf (op c : Nat) (l : List (Nat × Nat × Nat)) : List Byte :=
  l.foldl (fun b e => b.take e.1 ++ leBytes e.2.1 e.2.2 ++ b.drop (e.1 + e.2.1)) (leBytes 2 op ++ leBytes 2 c ++ List.replicate 60 0)
def goSt (s : State) (c : List Byte) : State := s.modHost 0 fun h => { h with go := some c }
def base0 : State := homed s0 []
theorem command_ok {s : State} {pkg op : Nat} {c : List Byte}
    (ht : (!s.relay.failed.contains pkg && !s.relay.cutOff.contains pkg && decide ((s.host pkg).go = some c) && natAt c 0 1 == op && !cmdBad c && bit1 s.feat 0
      && (s.ctx? (natAt c 2 2 % 4096)).elim false fun x => !x.dead && x.fatal.isNone) = true) : CommandOk s pkg c op := by
  simp only [Bool.and_eq_true, decide_eq_true_eq, Bool.not_eq_true', beq_iff_eq] at ht
  obtain ⟨⟨⟨⟨⟨⟨h6, h7⟩, h1⟩, h2⟩, h3⟩, h4⟩, h5⟩ := ht
  refine ⟨⟨by simpa using h6, by simpa using h7⟩, h1, h2, h3, fun _ => h4, ?_⟩
  cases hx : s.ctx? (natAt c 2 2 % 4096) with
  | none => simp [hx] at h5
  | some x => exact ⟨x, rfl, by simpa [hx] using h5⟩
/-- Page tables for VA 0 at 0x1000 to 0x5000 of channel 0, the leaf with PIN; `n` other pages pinned. -/
def walkSt (n : Nat) (c : List Byte) : State :=
  let s := goSt (homed s0 [(0x1000, 1), (0x1001, 0x20), (0x2000, 1), (0x2001, 0x30), (0x3000, 1), (0x3001, 0x40), (0x4000, 1), (0x4001, 0x50), (0x5000, 0x43), (0x5001, 2)]) c
  (s.modCtx 0 fun x => { x with d := { x.d with root := 0x1001 } }).modChan 0 fun h =>
    { h with leaves := List.replicate n { ctx := 0, va := 65536, size := 65536, entry := 0x243, pinned := true } }
def pinCmd : List Byte := cmdOf 3 0 []
def faultCmd (seq mode : Nat) : List Byte := cmdOf 2 0 [(8, 6, seq), (26, 1, mode)]
/-- The skein is parked on a translation fault. -/
def faultSt (c : List Byte) : State := goSt (base0.modArm 0 0 0 fun a => { a with wait := some (.fault 1 4096 false), issue := none }) c
/-- The same while its context is being saved, or is. -/
def savedFault (n : Nat) : State := (faultSt (faultCmd 0 0)).modCtx 0 fun x => { x with saved := n }
def bindCmd : List Byte := cmdOf 5 0 [(8, 1, 3), (9, 1, 15), (44, 4, 32), (48, 2, 4064)]
def bindSt (l : List Binding) : State :=
  goSt ((base0.modLaunch 0 fun x => { x with packet := 2 :: x.packet.drop 1 }).modHost 0 fun h => { h with binds := l }) bindCmd
def shootCmd : List Byte := cmdOf 1 0 [(16, 8, 65536)]
/-- Two faults of a command each, every operation, the ends of entries and status of windows. -/
theorem witness_RelayCommands :
    (HostActs (goSt base0 (cmdOf 0 0 [])) 0 ∧ ¬HostActs ({ base0 with relay := { base0.relay with failed := [0] } } : State) 0
      ∧ ¬HostActs ({ base0 with relay := { base0.relay with cutOff := [0] } } : State) 0)
    ∧ ((goSt base0 (cmdOf 0 0 [])).host 0).go = some (cmdOf 0 0 []) ∧ natAt (cmdOf 0 0 []) 0 1 = 0 ∧ 9 < natAt (cmdOf 10 0 []) 0 1
    ∧ natAt (cmdOf 9 0 [(4, 1, 1)]) 0 1 = 9 ∧ cmdBad (cmdOf 9 0 [(4, 1, 1)]) = true
    ∧ (natAt (cmdOf 1 4095 []) 0 1 = 1 ∧ cmdBad (cmdOf 1 4095 []) = false ∧ base0.ctx? 4095 = none)
    ∧ CommandOk (goSt base0 shootCmd) 0 shootCmd 1
    ∧ (let s := { goSt base0 shootCmd with shoots := [{ pkg := 0, ctx := 0, va := 0, len := 65536 }] }
       s.shoots = { pkg := 0, ctx := 0, va := 0, len := 65536 } :: [] ∧ (∀ e ∈ s.cores, ∀ l ∈ e.2.l1, l.dirty = 0)
        ∧ (∀ e ∈ s.chans, ∀ l ∈ e.2.leaves, l.pinned = false)
        ∧ ∀ e ∈ s.chans, ∀ l ∈ e.2.leaves ++ e.2.past, l.va < 65536 → leafClass l.entry ≠ 1)
    ∧ (let s := { goSt base0 shootCmd with shoots := [{ pkg := 0, ctx := 0, va := 65536, len := 65536 }] }
       ∃ e ∈ s.chans, ∃ l ∈ e.2.leaves ++ e.2.past, (l.ctx = 0 ∧ l.va = 65536) ∧ leafClass l.entry = 1
        ∧ decide ((match s.walk 0 l.va with | .error _ => true | .ok _ => false) = true) = true)
    ∧ (((faultSt (faultCmd 0 0)).ctx? 0).map (·.saved) = some 0
      ∧ ∀ n, n = 1 ∨ n = 2 → CommandOk (savedFault n) 0 (faultCmd 0 0) 2 ∧ ((savedFault n).ctx? 0).map (·.saved) = some n)
    ∧ (let s := faultSt (faultCmd 0 1)
       CommandOk s 0 (faultCmd 0 1) 2 ∧ natAt (faultCmd 0 1) 24 1 < 16 ∧ natAt (faultCmd 0 1) 25 1 = 0 ∧ natAt (faultCmd 0 1) 26 1 = 1
        ∧ ∃ b k m, (mapVals s.blocks).find? (fun y => y.id.ctx == natAt (faultCmd 0 1) 2 2 % 4096 && y.id.seq == natAt (faultCmd 0 1) 8 6
            && y.id.idx == natAt (faultCmd 0 1) 16 8) = some b ∧ s.blk? b.id.bid = some b ∧ b.skeins[natAt (faultCmd 0 1) 24 1]? = some k ∧ k.arms = [m]
            ∧ m.wait = some (.fault 1 4096 false) ∧ k.frame = none ∧ s.handler b = some 8)
    ∧ (CommandOk (faultSt (faultCmd 0 0)) 0 (faultCmd 0 0) 2 ∧ natAt (faultCmd 0 0) 26 1 ≠ 1)
    ∧ (CommandOk (faultSt (faultCmd 1 0)) 0 (faultCmd 1 0) 2
      ∧ ∀ b ∈ mapVals (faultSt (faultCmd 1 0)).blocks, b.id.ctx ≠ 0 ∨ b.id.seq ≠ natAt (faultCmd 1 0) 8 6 ∨ b.id.idx ≠ natAt (faultCmd 1 0) 16 8)
    ∧ (CommandOk (walkSt 255 pinCmd) 0 pinCmd 3 ∧ (walkSt 255 pinCmd).walk 0 0 = .ok (65536, 0x243) ∧ leafPin 0x243 = true
      ∧ (walkSt 255 pinCmd).pinRoom 0 (0 / 65536 * 65536) 65536 = true)
    ∧ ((walkSt 256 pinCmd).walk 0 0 = .ok (65536, 0x243) ∧ (walkSt 256 pinCmd).pinRoom 0 (0 / 65536 * 65536) 65536 = false)
    ∧ CommandOk (goSt base0 (cmdOf 4 0 [])) 0 (cmdOf 4 0 []) 4
    ∧ (CommandOk (bindSt []) 0 bindCmd 5 ∧ (∃ l, (mapVals (bindSt []).launches).find? (fun y => y.ctx == natAt bindCmd 2 2 % 4096 && y.seq == natAt bindCmd 24 6 && !y.done
        && y.resident) = some l ∧ natAt bindCmd 32 8 < l.total ∧ natAt bindCmd 40 4 + 32 ≤ l.scratch ∧ natAt bindCmd 44 4 + natAt bindCmd 48 2 ≤ l.scratch)
      ∧ ∀ y ∈ ((bindSt []).host 0).binds, y.port ≠ natAt bindCmd 8 1 ∨ y.index ≠ natAt bindCmd 9 1)
    ∧ (CommandOk (bindSt [bindingOf bindCmd 0]) 0 bindCmd 5
      ∧ ∃ y ∈ ((bindSt [bindingOf bindCmd 0]).host 0).binds, y.port = natAt bindCmd 8 1 ∧ y.index = natAt bindCmd 9 1)
    ∧ CommandOk (goSt base0 (cmdOf 6 0 [(8, 1, 3), (9, 1, 15)])) 0 (cmdOf 6 0 [(8, 1, 3), (9, 1, 15)]) 6
    ∧ (CommandOk (goSt base0 (cmdOf 7 0 [(8, 1, 63)])) 0 (cmdOf 7 0 [(8, 1, 63)]) 7
      ∧ (∀ t, t < 32 → mapGet ((goSt base0 (cmdOf 7 0 [(8, 1, 63)])).tray t).wins 63 = none)
      ∧ ∃ t, t < 32 ∧ mapGet (((goSt base0 (cmdOf 7 0 [(8, 1, 63)])).modTray 31 fun y => { y with wins := [(63, 0, 0, 65536)] }).tray t).wins 63 ≠ none)
    ∧ (CommandOk (goSt base0 (cmdOf 8 0 [(8, 1, 63)])) 0 (cmdOf 8 0 [(8, 1, 63)]) 8
      ∧ (∀ t, t < 32 → ((goSt base0 (cmdOf 8 0 [(8, 1, 63)])).tray t).parts = [])
      ∧ ∀ t, t < 32 → ((goSt base0 (cmdOf 8 0 [(8, 1, 63)])).tray t).wins.Pairwise fun y z => y.1 < z.1)
    ∧ (CommandOk (goSt base0 (cmdOf 9 0 [(8, 1, 15), (24, 1, 1)])) 0 (cmdOf 9 0 [(8, 1, 15), (24, 1, 1)]) 9 ∧ natAt (cmdOf 9 0 [(8, 1, 15), (24, 1, 1)]) 24 1 % 2 = 1)
    ∧ (CommandOk (goSt base0 (cmdOf 9 0 [(8, 1, 15)])) 0 (cmdOf 9 0 [(8, 1, 15)]) 9 ∧ natAt (cmdOf 9 0 [(8, 1, 15)]) 24 1 % 2 = 0)
    ∧ ((base0.host 0).cmd.length = 64 ∧ (base0.host 0).done = true ∧ ¬(base0.relay.primary = some 0 ∨ base0.relay.standby = some 0)
      ∧ 191 < 48 * Config.dies base0.variant ∧ ({ base0 with relay := { base0.relay with standby := some 0 } } : State).relay.standby = some 0
      ∧ ((base0.modHost 0 fun h => { h with done := false }).host 0).done = false) := by
  refine ⟨by unfold HostActs; decide +kernel, by decide +kernel, by decide +kernel, by decide +kernel, by decide +kernel, by decide +kernel, by decide +kernel,
    command_ok (by decide +kernel), ⟨rfl, by decide +kernel, by decide +kernel, by decide +kernel⟩, by decide +kernel,
    ⟨by decide +kernel, fun n hn => by obtain rfl | rfl := hn <;> exact ⟨command_ok (by decide +kernel), by decide +kernel⟩⟩, ⟨command_ok (by decide +kernel), by decide +kernel, by decide +kernel, by decide +kernel, _, _, _, rfl, rfl, rfl, rfl, rfl, rfl, by decide +kernel⟩,
    ⟨command_ok (by decide +kernel), by decide +kernel⟩, ⟨command_ok (by decide +kernel), by decide +kernel⟩,
    ⟨command_ok (by decide +kernel), ok_of (by decide +kernel), by decide, by decide +kernel⟩, ⟨ok_of (by decide +kernel), by decide +kernel⟩, command_ok (by decide +kernel),
    ⟨command_ok (by decide +kernel), ⟨_, rfl, by decide +kernel, by decide +kernel, by decide +kernel⟩, by decide +kernel⟩,
    ⟨command_ok (by decide +kernel), by decide +kernel⟩, command_ok (by decide +kernel), ⟨command_ok (by decide +kernel), by decide +kernel, 31, by decide, by decide +kernel⟩,
    ⟨command_ok (by decide +kernel), by decide +kernel, by decide +kernel⟩, ⟨command_ok (by decide +kernel), by decide +kernel⟩, ⟨command_ok (by decide +kernel), by decide +kernel⟩,
    by decide +kernel⟩
def req (kind op state : Nat) : Req :=
  { rid := 0, ctx := 0, kind := kind, va := 120, n := 8, data := 5, op := op, pkg := 0, froms := [], naks := 0, state := state }
def reqSt (q : Req) (parts : List Partial) : State :=
  let s := base0.modTray 0 fun t => { t with wins := [(0, 0, 0, 65536)], parts := parts }
  { s with mem := { s.mem with reqs := [q] }, time := { s.time with ns := 1000 } }
/-- An update of the skein's. -/
def fromOne : Req := { req 3 10 0 with froms := [{ bid := 0, ix := 0, off := 0 }] }
theorem issuers_clean {s : State} {froms : List Issuer} {c a : Nat} (h : (froms.all fun f => (s.blk? f.bid).all fun b =>
    (State.lineIn (s.core b.id.core).l1 c a).all fun l => decide (l.dirty = 0)) = true) : IssuersClean s froms c a := by
  intro f hf b l hb hl
  have g := List.all_eq_true.mp h f hf
  rw [hb, Option.all_some, hl, Option.all_some] at g
  exact of_decide_eq_true g
def part (count first : Nat) : Partial := { ctx := 0, va := 120, op := 10, value := 1, count := count, first := first, froms := [] }
def wbSt (x : CLine) : State := base0.modCore 0 fun c => { c with l1 := [x], ctx := some 0 }
def heldOne : Held :=
  { lid := 0, line := 5, ctx := 0, va := 0, blk := 0, sk := 0, lane := 0, ordinal := 0, window := 0, value := 0, off := 0, spilled := false }
def heldSt : State := { base0 with mem := { base0.mem with held := List.replicate 17 heldOne } }
theorem witness_MemoryTraffic :
    (MemoryOk (reqSt (req 1 0 0) []) ∧ ReqPending (reqSt (req 1 0 0) []) (req 1 0 0) ∧ HomeAt (reqSt (req 1 0 0) []) 0 120 .write (homeAt 120) ∧ 120 % 128 + 8 ≤ 128
      ∧ NoPartsOf (reqSt (req 1 0 0) []) 0 120 ∧ (∀ x ∈ (reqSt (req 1 0 0) []).mem.reqs, x.kind = 1 → x.pkg = 0 → x.state = 0 → 0 ≤ x.rid)
      ∧ (reqSt (req 1 0 0) []).switchCut 0 0 120 = false)
    ∧ (let q : Req := { req 1 0 0 with pkg := 1 }
       let s : State := { reqSt q [] with relay := { base0.relay with cutOff := [1] } }
       MemoryOk s ∧ ReqPending s q ∧ HomeAt s 0 120 .write (homeAt 120) ∧ NoPartsOf s 0 120 ∧ s.switchCut 1 0 120 = true)
    ∧ (ReqPending (reqSt fromOne []) fromOne ∧ HomeAt (reqSt fromOne []) 0 120 .atomic (homeAt 120) ∧ IssuersClean (reqSt fromOne []) fromOne.froms 0 120
      ∧ 120 % atomBytes (atomFrom 10) = 0)
    ∧ (let s := (reqSt (req 2 10 0) []).modTray 0 fun t => { t with wins := [] }
       ReqPending s (req 2 10 0) ∧ s.inWindow 0 0 120 = false ∧ HomeAt s 0 120 .atomic (homeAt 120) ∧ IssuersClean s (req 2 10 0).froms 0 120)
    ∧ (ReqPending (reqSt (req 2 10 0) []) (req 2 10 0) ∧ (reqSt (req 2 10 0) []).inWindow 0 0 120 = true)
    ∧ ((reqSt (req 3 10 1) []).mem.reqs.find? (fun x => x.rid == 0) = some (req 3 10 1) ∧ (req 3 10 1).state = 1)
    ∧ (((wbSt line0).core 0).ctx = some 0 ∧ State.lineIn ((wbSt line0).core 0).l1 0 0 = some line0 ∧ line0.dirty ≠ 0 ∧ HomeAt (wbSt line0) 0 0 .write (homeAt 0)
      ∧ NoPartsOf (wbSt line0) 0 0)
    ∧ State.lineIn ((wbSt { line0 with dirty := 0 }).core 0).l1 0 0 = some { line0 with dirty := 0 } :=
  ⟨⟨by unfold MemoryOk; decide +kernel, by unfold ReqPending; decide +kernel, home_at (by decide +kernel), by decide, parts_of (no_parts (by decide +kernel)),
      by decide +kernel, by decide +kernel⟩,
    ⟨by unfold MemoryOk; decide +kernel, by unfold ReqPending; decide +kernel, home_at (by decide +kernel), parts_of (no_parts (by decide +kernel)), by decide +kernel⟩,
    ⟨by unfold ReqPending; decide +kernel, home_at (by decide +kernel), issuers_clean (by decide +kernel), by decide⟩,
    ⟨by unfold ReqPending; decide +kernel, by decide +kernel, home_at (by decide +kernel), issuers_clean (by decide +kernel)⟩,
    ⟨by unfold ReqPending; decide +kernel, by decide +kernel⟩, by decide +kernel,
    ⟨by decide +kernel, by decide +kernel, by decide +kernel, home_at (by decide +kernel), parts_of (no_parts (by decide +kernel))⟩, by decide +kernel⟩
/-- Core 0 with one parked skein, nothing running, at a time. -/
def idleSt (w : Option Wait) (clk gate hangms : Nat) : State :=
  let s := (base0.modArm 0 0 0 fun a => { a with wait := w, issue := none }).modCtx 0 fun x => { x with d := { x.d with hangms := hangms } }
  { s.modCore 0 (fun c => { c with gate := gate, ctx := some 0, mons := [(.skein 0 0 0, 0)] }) with time := { s.time with clk := clk } }
theorem witness_Controllers :
    ((ReqPending (reqSt (req 2 10 0) []) (req 2 10 0) ∧ (reqSt (req 2 10 0) []).inWindow 0 0 120 = true
        ∧ ∀ y ∈ ((reqSt (req 2 10 0) []).tray 0).parts, y.ctx ≠ 0 ∨ y.va ≠ 120 ∨ y.op ≠ 10)
      ∧ ReqPending (reqSt (req 2 10 0) [part 1 0]) (req 2 10 0) ∧ ((reqSt (req 2 10 0) [part 1 0]).tray 0).parts = [] ++ part 1 0 :: [])
    ∧ ((reqSt (req 2 10 0) [part 64 0]).partials[0]? = some (0, part 64 0) ∧ (part 64 0).first + 1000 ≤ (reqSt (req 2 10 0) [part 64 0]).time.ns
      ∧ (part 63 1).count < 64 ∧ (reqSt (req 2 10 0) [part 63 1]).time.ns < (part 63 1).first + 1000)
    ∧ (17 ≤ (heldSt.mem.held.filter fun x => x.line == 5 && !x.spilled).length ∧ (base0.mem.held.filter fun x => x.line == 5 && !x.spilled).length < 17)
    ∧ (base0.chanThere 3 = true ∧ ({ base0 with variant := 1 } : State).chanThere 500 = false)
    ∧ (((base0.chan 3).lend = 0 ∧ (base0.chan 2).lend = 0 ∧ 2 / 2 = 3 / 2 ∧ 2 ≠ 3 ∧ ({ base0 with time := { base0.time with clk := 6000 } } : State).time.clk = 6000 ∧ (base0.chan 3).last + 6000 ≤ 6000)
      ∧ (∀ l ∈ (base0.chan 3).leaves ++ (base0.chan 2).leaves, l.pinned = false) ∧ ¬((base0.chan 3).last + 6000 ≤ base0.time.clk))
    ∧ (let c := (base0.modChan 3 fun c => { c with lend := 1, until_ := 1201 }).chan 3
       c.lend = 1 ∧ c.last + 1200 < c.until_)
    ∧ (let c := (base0.modChan 3 fun c => { c with lend := 1, until_ := 1200 }).chan 3
       c.lend = 1 ∧ c.until_ ≤ c.last + 1200)
    ∧ ((base0.modChan 3 fun c => { c with lend := 3 }).chan 3).lend = 3 ∧ (base0.chan 3).lend ≠ 1 ∧ (base0.chan 3).lend ≠ 3
    ∧ ((idleSt (some .cwait) 64 0 1).core 0).mons = [(.skein 0 0 0, 0)] ∧ (base0.core 0).mons = []
    ∧ ((idleSt (some .cwait) 64 0 1).coreIdle 0 = true ∧ ((idleSt (some .cwait) 64 0 1).core 0).gate = 0
      ∧ max ((idleSt (some .cwait) 64 0 1).core 0).idle ((idleSt (some .cwait) 64 0 1).core 0).woke + 64 ≤ (idleSt (some .cwait) 64 0 1).time.clk)
    ∧ ((idleSt (some .cwait) 120064 1 1).coreIdle 0 = true ∧ ((idleSt (some .cwait) 120064 1 1).core 0).gate = 1 ∧ (idleSt (some .cwait) 120064 1 1).coreCtl 0 17 = false
      ∧ max ((idleSt (some .cwait) 120064 1 1).core 0).idle ((idleSt (some .cwait) 120064 1 1).core 0).woke + 64 + 120000
          ≤ (idleSt (some .cwait) 120064 1 1).time.clk)
    ∧ (idleSt none 64 0 1).coreIdle 0 = false
    ∧ ((idleSt (some .cwait) 64 0 1).modLaunch 0 fun l => { l with packet := [0, 0, 2] ++ l.packet.drop 3 }).coreCtl 0 17 = true
    ∧ (let s := idleSt (some .cwait) 600000 0 1
       ∃ x b k, (s.core 0).ctx.bind s.ctx? = some x ∧ x.d.hangms = 1 ∧ s.coreIdle 0 = true ∧ s.blocksOn 0 = [b] ∧ s.blk? b.id.bid = some b ∧ b.skeins = [k] ∧ k.idx = 0
        ∧ k.parked = true ∧ k.waitKind ≠ 6 ∧ k.frame = none ∧ k.arms.length ≠ 2 ∧ s.handler b = some 8 ∧ max (s.core 0).idle (s.core 0).hangAt + 1 * 600000 ≤ s.time.clk) := by
  refine ⟨⟨⟨by unfold ReqPending; decide +kernel, by decide +kernel⟩, by unfold ReqPending; decide +kernel, by decide +kernel⟩, by decide +kernel, by decide +kernel,
    ?_, ?_, ?_, ?_, ?_, ?_, ?_, ?_, ?_, ?_, ?_, ?_, ?_, ⟨_, _, _, rfl, rfl, by decide +kernel, rfl, rfl, rfl, rfl, by decide +kernel, by decide +kernel, rfl,
      by decide, by decide +kernel, by decide +kernel⟩⟩ <;> decide +kernel
def apSt : State := base0.modHost 0 fun h => { h with apert := [(15, 0, 0)] }
def postSt : State := { apSt with mem := { apSt.mem with reqs := [req 1 0 0] } }
theorem witness_HostAccesses :
    MemoryOk apSt ∧ apSt.hostCut 0 0 120 = false ∧ NoPartsOf apSt 0 120 ∧ NoPartsOf postSt 0 120 ∧ (apSt.homeTray 0 120 = 0 / 4) ∧ 15 < 16 ∧ 120 < 2 ^ 40 ∧ mapGet (apSt.host 0).apert 15 = some (0, 0) ∧ (∀ x ∈ apSt.mem.reqs, x.rid < apSt.fresh.rid)
    ∧ HomeAt apSt 0 120 .write (homeAt 120) ∧ 120 % 128 + 8 ≤ 128 ∧ HomeAt apSt 0 120 .read (homeAt 120) ∧ mapGet apSt.mem.readers ((homeAt 120).addr / 128) = none
    ∧ (∀ x ∈ apSt.mem.reqs, x.kind ≠ 1 ∨ x.pkg ≠ 0) ∧ HomeAt apSt 0 120 .atomic (homeAt 120) ∧ 120 % atomBytes .add64 = 0
    ∧ (postSt.mem.reqs = [req 1 0 0] ∧ HomeAt postSt 0 120 .write (homeAt 120) ∧ postSt.switchCut 0 0 120 = false)
    ∧ ∃ x, apSt.ctx? 0 = some x ∧ x.dead = false ∧ x.fatal = none ∧ 120 % 128 + [1#8].length ≤ 128 :=
  ⟨by unfold MemoryOk; decide +kernel, by decide +kernel, parts_of (no_parts (by decide +kernel)), parts_of (no_parts (by decide +kernel)), by decide +kernel,
    by decide, by decide, by decide +kernel, by decide +kernel, home_at (by decide +kernel), by decide, home_at (by decide +kernel),
    by decide +kernel, by decide +kernel, home_at (by decide +kernel), by decide, ⟨by decide +kernel, home_at (by decide +kernel), by decide +kernel⟩, _, rfl, by decide +kernel⟩
/-- A fault queue of two entries at VA 64, full or not; a record that waits. -/
def recSt (tail : Byte) : State :=
  let s := homed s0 ([(64, 2)] ++ if tail = 0 then [] else [(72, tail)])
  { s.modCtx 0 (fun x => { x with d := { x.d with faultq := 64 } }) with
    mem := { s.mem with recs := [{ ctx := some 0, fault := true, bytes := List.replicate 64 0 }] } }
theorem witness_TailAndRecords :
    (let q : Relay := { base0.relay with primary := some 0, tail := 5, head := 5 }
     (∀ x ∈ base0.mem.reqs, x.kind = 1 → q.primary ≠ some x.pkg ∧ q.standby ≠ some x.pkg) ∧ q.primary ≠ none ∧ (1029 % 2 ^ 32 + 2 ^ 32 - q.tail) % 2 ^ 32 ≤ 1024 - (q.tail + 2 ^ 32 - q.head) % 2 ^ 32
      ∧ ¬(1030 % 2 ^ 32 + 2 ^ 32 - q.tail) % 2 ^ 32 ≤ 1024 - (q.tail + 2 ^ 32 - q.head) % 2 ^ 32 ∧ q.rerrq = 0)
    ∧ (∃ r x, (recSt 1).mem.recs = r :: [] ∧ r.ctx = some 0 ∧ (recSt 1).ctx? 0 = some x ∧ r.bytes.length = 64 ∧ r.fault = true ∧ x.d.faultq = 64)
    ∧ (MemoryOk (recSt 1) ∧ NoParts (recSt 1) ∧ HomeAt (recSt 1) 0 64 .write (homeAt 64) ∧ leNat (byteGets (recSt 1).mem.bytes (homeAt 64).addr 4) = 2 ^ 1
      ∧ (leNat (byteGets (recSt 1).mem.bytes ((homeAt 64).addr + 8) 4) + 2 ^ 32 - leNat (byteGets (recSt 1).mem.bytes ((homeAt 64).addr + 4) 4)) % 2 ^ 32 ≠ 2
      ∧ HomeAt (recSt 1) 0 (64 + 64 + 64 * (1 % 2)) .write (homeAt 192) ∧ (homeAt 64).addr + 64 ≤ (homeAt 192).addr)
    ∧ MemoryOk (recSt 2) ∧ NoPartsOf (recSt 2) 0 64 ∧ HomeAt (recSt 2) 0 64 .write (homeAt 64)
      ∧ (leNat (byteGets (recSt 2).mem.bytes ((homeAt 64).addr + 8) 4) + 2 ^ 32 - leNat (byteGets (recSt 2).mem.bytes ((homeAt 64).addr + 4) 4)) % 2 ^ 32 = 2 :=
  ⟨by decide +kernel, ⟨_, _, rfl, rfl, rfl, rfl, rfl, rfl⟩, ⟨by unfold MemoryOk; decide +kernel, no_parts (by decide +kernel), home_at (by decide +kernel),
    by decide +kernel, by decide +kernel, home_at (by decide +kernel), by decide +kernel⟩, by unfold MemoryOk; decide +kernel,
    parts_of (no_parts (by decide +kernel)), home_at (by decide +kernel), by decide +kernel⟩
def portSt (p : Port) : State := base0.modPort 0 fun _ => p
def flitAt (typ seq : Nat) (l : List Byte) : List Byte := flit typ seq 0 l
/-- A flit of each type at the last sequence number, a bad one, a window that wraps, and the counts at which links fail. -/
theorem witness_LinksAndTime :
    (let p : Port := { Port.init with rxSeq := 4095 }
     (portSt p).port 0 = p ∧ p.state = 0 ∧ (portSt p).linkThere 0 = true ∧ p.rxSeq < 4096 ∧ p.retry = []
      ∧ (∀ typ ∈ [1, 2, 3, 4], let b := flitAt typ 4095 [9]
          b.length = 72 ∧ flitGood b = true ∧ flitType b = typ ∧ flitSeq b = p.rxSeq ∧ natAt (b.take 64) 0 8 = 9)
      ∧ (¬∃ e ∈ (portSt p).ports, e.1 / 32 = 0 / 32 ∧ 9 ∈ e.2.ids) ∧ (∃ e ∈ (portSt { p with ids := [9] }).ports, e.1 / 32 = 0 / 32 ∧ 9 ∈ e.2.ids)
      ∧ (∀ typ ∈ [3, 4], let b := flit typ 4095 0 (State.withTag (leBytes 56 9))
          b.length = 72 ∧ flitGood b = true ∧ flitType b = typ ∧ flitSeq b = p.rxSeq ∧ natAt (b.take 64) 0 8 = 9 ∧ State.tagsGood (p.inPkt ++ b.take 64) = true)
      ∧ State.tagsGood ((flitAt 4 4095 [9]).take 64) = false ∧ (portSt p).linkThere 4096 = false
      ∧ ((portSt { p with state := 1, fails := 3 }).port 0).state = 1 ∧ (portSt { p with state := 1, fails := 3 }).linkThere 0 = true
      ∧ flitGood [] = false ∧ p.nakSent = false ∧ ({ p with nakSent := true } : Port).nakSent = true)
    ∧ (let l := [flitAt 1 4094 []]
       let r := [flitAt 1 0 []]
       let f := flitAt 1 4095 []
       let p : Port := { Port.init with retry := l ++ f :: r }
       p.waiting = [] ∧ p.retry = l ++ f :: r ∧ l.length < 512
        ∧ (∀ j, j < p.retry.length → (p.retry[j]?).map flitSeq = some ((flitSeq (p.retry.headD []) + j) % 4096)) ∧ p.retry.length ≤ 512 ∧ p.retry ≠ [] ∧ 15 < 16
        ∧ p.since + 1000 ≤ 1000 ∧ 999 < p.since + 1000)
    ∧ (∃ q, reqSt { req 3 10 0 with pkg := 1, naks := 1 } [] = q ∧ ReqPending q { req 3 10 0 with pkg := 1, naks := 1 } ∧ q.homePkg 0 120 ≠ 1 ∧ 1 < 2)
    ∧ (∃ q, reqSt { req 3 10 0 with pkg := 1, naks := 2 } [] = q ∧ ReqPending q { req 3 10 0 with pkg := 1, naks := 2 } ∧ (∃ x, q.ctx? 0 = some x) ∧ 2 ≤ 2)
    ∧ (let q : Relay := { base0.relay with primary := some 0, standby := some 4, tstatus := 2 }
       q.primary = some 0 ∧ q.primary ≠ some 1 ∧ q.standby = some 4 ∧ q.tstatus ≠ 0 ∧ (1000000 : Int) ≤ 1000000 ∧ (999999 : Int) < 1000000 ∧ q.beat + 100000 ≤ 100000
        ∧ 0 ∉ q.failed ∧ (0 ∈ ({ q with failed := [0] } : Relay).failed) ∧ 99999 < q.beat + 100000 ∧ 999999 < q.beat + 1000000 ∧ q.beat + 1000000 ≤ 1000000) ∧ base0.relay.tstatus = 0
    ∧ pkgThere 0 = true ∧ pkgThere 128 = false ∧ (base0.host 0).flitAt = 0 ∧ (let h := { base0.host 0 with flitAt := 1 }
       h.flitAt ≠ 0 ∧ 1000000 < h.flitAt + 1000000 ∧ h.flitAt + 1000000 ≤ 1000001) :=
  ⟨by decide +kernel, by decide +kernel, ⟨_, rfl, by unfold ReqPending; decide +kernel, by decide +kernel, by decide⟩,
    ⟨_, rfl, by unfold ReqPending; decide +kernel, ⟨_, rfl⟩, by decide⟩, by decide +kernel, by decide +kernel, by decide, by decide, by decide +kernel, by decide +kernel⟩
/-- Packages 0 to 127 booted with the same firmware, but for the variant of package 127. -/
def rackSt (v : Option Nat) : State :=
  { base0 with hosts := (List.range 128).map fun p =>
      (p, { HostDie.init with booted := true, digests := List.replicate 4 (List.replicate 32 1), versions := [1, 2, 3, 4], variant := if p = 127 then v else none }) }
/-- Whether a signature verifies is a free value of the model: for any four images one of the two clauses applies. -/
theorem witness_FirmwareAndKeys :
    (pkgThere 0 = true ∧ pkgThere 128 = false ∧ ∀ good : Prop, good ∨ ¬good)
    ∧ (base0.relay.formed = false ∧ (∀ p, p < 128 → ((rackSt none).host p).booted = true ∧ ((rackSt none).host p).recovery = false)
      ∧ ∀ p, p < 128 → p ∉ (rackSt none).relay.failed ∧ (rackSt none).featOf p = (rackSt none).featOf 0 ∧ ((rackSt none).host p).digests = ((rackSt none).host 0).digests)
    ∧ ((∀ p, p < 128 → ((rackSt (some 1)).host p).booted = true ∧ ((rackSt (some 1)).host p).recovery = false)
      ∧ (rackSt (some 1)).featOf 127 ≠ (rackSt (some 1)).featOf 0 ∧ ∀ q, q < 127 → (rackSt (some 1)).featOf q = (rackSt (some 1)).featOf 0)
    ∧ (base0.host 5).booted = false
    ∧ 2047 < 2048 ∧ (∀ p, p < 128 → mapGet ((rackSt none).host p).keys 2047 = none)
    ∧ (List.replicate 32 7#8).length = 32 ∧ ((rackSt none).host 0).digests.length = 4 ∧ (∀ d ∈ ((rackSt none).host 0).digests, d.length = 32)
    ∧ ((rackSt none).host 0).versions.length = 4 := by
  exact ⟨⟨by decide, by decide, fun good => Classical.em good⟩, by decide +kernel, by decide +kernel, by decide +kernel, by decide, by decide +kernel, by decide, by decide +kernel, by decide +kernel,
    by decide +kernel⟩

/-! ### Engines, drays and ingress -/

/-- A shape record at VA 0: one element of binary32 in the window at byte `b`, or with `b` in the global space. -/
def shape (at_ : Nat) (sp : Bool) (b rows : Nat) : List Host.Cell :=
  (if b % 256 = 0 then [] else [(at_, BitVec.ofNat 8 b)]) ++ (if b / 256 % 256 = 0 then [] else [(at_ + 1, BitVec.ofNat 8 (b / 256))])
    ++ (if b / 65536 = 0 then [] else [(at_ + 2, BitVec.ofNat 8 (b / 65536))]) ++ (if sp then [(at_ + 7, 0x80)] else [])
    ++ [(at_ + 8, BitVec.ofNat 8 rows), (at_ + 12, 1), (at_ + 16, 4), (at_ + 24, 1)]
/-- One command, or one copy, at core 0, with HBM's bytes and the tile's state; pages of other granules are not mapped. -/
def cmdSt (m : MCmd) (cells : List Host.Cell) (t : Tile) (co : Option Coach) : State :=
  let s := homed (s0.modBlk 0 fun b => { b with tiles := [(0, t)], coach := co }) cells
  { s.modCore 0 (fun c => { c with mq := [m] }) with chans := (s.modChan 0 fun c => { c with leaves := c.leaves.take 1 }).chans }
def copySt (y : Copy) (cells : List Host.Cell) : State :=
  let s := homed s0 cells
  { s.modCore 0 (fun c => { c with copies := [y] }) with chans := (s.modChan 0 fun c => { c with leaves := c.leaves.take 1 }).chans }
def agentOf (s : State) : Pass := ((s.cmdAt 0 0).map (·.2)).getD noPass
def drayOf (s : State) : Pass := ((s.copyAt 0 0).map (·.2)).getD noPass
theorem cmd_at {s : State} {m : MCmd} (h : decide ((s.cmdAt 0 0).map (·.1) = some m) = true) : s.cmdAt 0 0 = some (m, agentOf s) := by
  unfold agentOf
  cases hc : s.cmdAt 0 0 with
  | none => simp [hc] at h
  | some x =>
    simp only [hc, Option.map_some, decide_eq_true_eq, Option.some.injEq] at h
    subst h
    simp
theorem copy_at {s : State} {y : Copy} (h : decide ((s.copyAt 0 0).map (·.1) = some y) = true) : s.copyAt 0 0 = some (y, drayOf s) := by
  unfold drayOf
  cases hc : s.copyAt 0 0 with
  | none => simp [hc] at h
  | some x =>
    simp only [hc, Option.map_some, decide_eq_true_eq, Option.some.injEq] at h
    subst h
    simp
def mma (state : Nat) (kb : W64) : MCmd := { cmd0 with kind := 0, state := state, kb := kb, table := Config.real }
def swapCmd (who : Nat) : MCmd := { cmd0 with kind := 2, who := who }
/-- What every clause on a command of state `s` asks for. -/
def CmdReady (s : State) (m : MCmd) (turn : Bool) : Prop :=
  NoParts s ∧ s.cmdAt 0 0 = some (m, agentOf s) ∧ (agentOf s).blk.id.core = 0 ∧ (s.core 0).mq = [] ++ m :: [] ∧ m.span = false
    ∧ s.isDet (agentOf s) = false ∧ (turn = true → s.cmdFree 0 0 m (agentOf s) = true) ∧ s.tilesHere m (agentOf s) = true
theorem cmd_ready {s : State} {m : MCmd} {turn : Bool} (h : (decide ((s.cmdAt 0 0).map (·.1) = some m) && (agentOf s).blk.id.core == 0 && decide ((s.core 0).mq = [m])
    && !m.span && !s.isDet (agentOf s) && (!turn || s.cmdFree 0 0 m (agentOf s)) && s.tilesHere m (agentOf s)
    && s.trays.all fun e => e.2.parts.isEmpty) = true) : CmdReady s m turn := by
  simp only [Bool.and_eq_true, Bool.or_eq_true, Bool.not_eq_true', beq_iff_eq] at h
  obtain ⟨⟨⟨⟨⟨⟨⟨h1, h2⟩, h3⟩, h4⟩, h5⟩, h6⟩, h7⟩, h8⟩ := h
  exact ⟨no_parts h8, cmd_at h1, h2, by simpa using h3, h4, h5, fun t => by simpa [t] using h6, h7⟩
theorem window_counter {b : Block} {kc : W64} {v : Nat} (h : (kc.getLsbD 63 && decide (kc.toNat % 2 ^ 20 + 4 ≤ b.ps.size) && Memory.wf b.ps.bytes && b.ps.poison.isEmpty
    && v == windowValue b (kc.toNat % 2 ^ 20) 4) = true) : WindowCounter b kc v := by
  simp only [Bool.and_eq_true, decide_eq_true_eq, List.isEmpty_iff, beq_iff_eq] at h
  exact ⟨h.1.1.1.1, h.1.1.1.2, h.1.1.2, h.1.2, h.2⟩
def cellsOk : List Host.Cell := shape 0 true 0 1
def cellsOut : List Host.Cell := shape 0 true 4096 1
def cellsFar : List Host.Cell := shape 0 false 65536 1
theorem runs_ok {s : State} {p : Pass} {m : MCmd} (h : ((s.runCmd p m).elim false fun x => x.2.2.2.isNone && (s.lateCells p m x.1).isEmpty) = true) :
    ∃ q b k, s.runCmd p m = some (q, b, k, none) ∧ s.lateCells p m q = [] := by
  generalize s.runCmd p m = x at h
  obtain _ | ⟨q, b, k, _ | f⟩ := x <;> simp_all
theorem runs_bad {s : State} {p : Pass} {m : MCmd} {c : TrapCode}
    (h : ((s.runCmd p m).elim false fun x => x.2.2.2.elim false fun f => decide (f.1.1 = c)) = true) :
    ∃ q b k f, s.runCmd p m = some (q, b, k, some f) ∧ f.1.1 = c := by
  generalize s.runCmd p m = x at h
  obtain _ | ⟨q, b, k, _ | f⟩ := x
  · simp at h
  · simp at h
  · exact ⟨q, b, k, f, rfl, by simpa using h⟩
theorem answered {ε α : Type} {x : Except ε α} (f : α → Bool) (h : (match x with | .ok b => f b | .error _ => false) = true) : ∃ b, x = .ok b ∧ f b = true := by
  cases x with
  | error e => simp at h
  | ok b => exact ⟨b, rfl, h⟩
theorem denied {ε α : Type} {x : Except ε α} (f : ε → Bool) (h : (match x with | .ok _ => false | .error b => f b) = true) : ∃ b, x = .error b ∧ f b = true := by
  cases x with
  | error e => exact ⟨e, rfl, h⟩
  | ok b => simp at h
def engCounter : W64 := 0x8000000000000000#64
/-- A running product that has read its records, both at VA 0, among these bytes. -/
def mmaRun (cells : List Host.Cell) : MCmd :=
  let r := leNat (byteGets cells 0 128)
  { mma 1 0 with recs := some [r, r, 0, 0] }
/-- A skein held by its exchange, and a coach instance. -/
def heldSk (t : Tile) : State := (cmdSt (swapCmd 0) [] t none).modArm 0 0 0 fun a => { a with hold := some 0 }
def coachHeld : Coach := { Coach.blank with hold := some 0 }
/-- What a product's start reads passes the check, or fails it. -/
def startIs (m : MCmd) (good : Bool) (x : List Nat) : Bool := (State.productFrom m x).startOk false == good
theorem witness_EngineEvents :
    -- a command that clears a tile, queued and running
    (CmdReady (cmdSt cmd0 [] Tile.zero none) cmd0 true ∧ cmd0.kind = 1 ∧ cmd0.state = 0
      ∧ CmdReady (cmdSt { cmd0 with state := 1 } [] Tile.zero none) { cmd0 with state := 1 } false
      ∧ WindowCounter (agentOf (cmdSt { cmd0 with state := 1 } [] Tile.zero none)).blk engCounter 0)
    -- products that pass the start check and run, that fail it, whose operand lies outside the window, and whose pages are not there
    ∧ (let s := cmdSt (mma 0 0) cellsOk Tile.zero none
       CmdReady s (mma 0 0) true ∧ ∃ x, (s.reachStart (agentOf s) (mma 0 0)).startRead (agentOf s) (mma 0 0) = .ok x ∧ startIs (mma 0 0) true x = true)
    ∧ (let s := cmdSt (mma 0 0) [] Tile.zero none
       CmdReady s (mma 0 0) true ∧ WindowCounter (agentOf s).blk engCounter 0
        ∧ ∃ x, (s.reachStart (agentOf s) (mma 0 0)).startRead (agentOf s) (mma 0 0) = .ok x ∧ startIs (mma 0 0) false x = true)
    ∧ (let m := mma 0 (2 ^ 56)
       let s := cmdSt m cellsOk Tile.zero none
       CmdReady s m true ∧ WindowCounter (agentOf s).blk engCounter 0
        ∧ ∃ f, (s.reachStart (agentOf s) m).startRead (agentOf s) m = .error f ∧ decide (f.1.1 ≠ .pageFault) = true)
    ∧ (let m : MCmd := { cmd0 with state := 1 }
       let s := (cmdSt m [] Tile.zero none).modBlk 0 fun b => { b with evicted := 1 }
       s.cmdAt 0 0 = some (m, agentOf s) ∧ s.tilesHere m (agentOf s) = false)
    ∧ (let s := cmdSt (mmaRun cellsOk) cellsOk Tile.zero none
       CmdReady s (mmaRun cellsOk) false ∧ WindowCounter (agentOf s).blk engCounter 0
        ∧ ∃ q b k, (s.reach (agentOf s) (mmaRun cellsOk)).runCmd (agentOf s) (mmaRun cellsOk) = some (q, b, k, none)
          ∧ (s.reach (agentOf s) (mmaRun cellsOk)).lateCells (agentOf s) (mmaRun cellsOk) q = [])
    ∧ (let s := cmdSt (mmaRun cellsOut) cellsOut Tile.zero none
       CmdReady s (mmaRun cellsOut) false ∧ WindowCounter (agentOf s).blk engCounter 0
        ∧ ∃ q b k f, (s.reach (agentOf s) (mmaRun cellsOut)).runCmd (agentOf s) (mmaRun cellsOut) = some (q, b, k, some f) ∧ f.1.1 = .protection)
    ∧ (let s := cmdSt (mma 0 65536) cellsOk Tile.zero none
       CmdReady s (mma 0 65536) true ∧ ∃ f, (s.reachStart (agentOf s) (mma 0 65536)).startRead (agentOf s) (mma 0 65536) = .error f ∧ decide (f.1.1 = .pageFault) = true)
    ∧ (let s := cmdSt (mmaRun cellsFar) cellsFar Tile.zero none
       CmdReady s (mmaRun cellsFar) false ∧ ∃ q b k f, (s.reach (agentOf s) (mmaRun cellsFar)).runCmd (agentOf s) (mmaRun cellsFar) = some (q, b, k, some f) ∧ f.1.1 = .pageFault)
    -- exchanges of a sound, a lost and a failed tile, of a skein and of a coach instance
    ∧ (CmdReady (heldSk Tile.zero) (swapCmd 0) true ∧ Tile.zero.lost = none ∧ Tile.zero.failed = none
      ∧ ((heldSk Tile.zero).arm? 0 0 0).map (·.hold) = some (some (swapCmd 0).num)
      ∧ CmdReady (cmdSt (swapCmd 16) [] Tile.zero (some coachHeld)) (swapCmd 16) true
      ∧ (agentOf (cmdSt (swapCmd 16) [] Tile.zero (some coachHeld))).blk.coach = some coachHeld ∧ coachHeld.hold = some (swapCmd 16).num)
    ∧ (let t : Tile := { Tile.zero with lost := some 7, failed := some (5, .check) }
       CmdReady (heldSk t) (swapCmd 0) true ∧ mapGetD (agentOf (heldSk t)).blk.tiles 0 Tile.zero = t
        ∧ (∃ k, (heldSk t).sk? 0 0 = some k ∧ k.frame = none) ∧ (heldSk t).handler (agentOf (heldSk t)).blk = some 8)
    ∧ (let t : Tile := { Tile.zero with failed := some (5, .check) }
       CmdReady (heldSk t) (swapCmd 0) true ∧ mapGetD (agentOf (heldSk t)).blk.tiles 0 Tile.zero = t)
    -- an engine that hangs, and its reset
    ∧ (let m : MCmd := { cmd0 with state := 1 }
       let cs := [m, { mma 0 0 with num := 1, tile := 1 }, { swapCmd 0 with num := 2 }]
       let u := (cmdSt m [] Tile.zero none).modCore 0 fun c => { c with mq := cs }
       let s : State := { u with time := { u.time with ns := 2000000 } }
       NoParts s ∧ (s.core 0).mq = cs ∧ s.hung 0 = true ∧ (s.core 0).reset = none ∧ leastBy (·.num) cs = some m
        ∧ (s.core (if 0 % 2 = 0 then 0 + 1 else 0 - 1)).mq = []
        ∧ ∃ b, (∀ x ∈ cs, x.bid = b.id.bid ∧ x.span = false ∧ x.kc = engCounter) ∧ s.blocksOn 0 = [b] ∧ s.blk? b.id.bid = some b
          ∧ WindowCounter b engCounter 0)
    ∧ ((base0.modCore 0 fun c => { c with reset := some 3 }).core 0).reset = some 3 :=
  ⟨⟨cmd_ready (by decide +kernel), rfl, rfl, cmd_ready (by decide +kernel), window_counter (by decide +kernel)⟩,
    ⟨cmd_ready (by decide +kernel), answered (startIs _ true) (by decide +kernel)⟩,
    ⟨cmd_ready (by decide +kernel), window_counter (by decide +kernel), answered (startIs _ false) (by decide +kernel)⟩,
    ⟨cmd_ready (by decide +kernel), window_counter (by decide +kernel), denied (fun f : EngineFail => decide (f.1.1 ≠ TrapCode.pageFault)) (by decide +kernel)⟩,
    ⟨cmd_at (by decide +kernel), by decide +kernel⟩,
    ⟨cmd_ready (by decide +kernel), window_counter (by decide +kernel), runs_ok (by decide +kernel)⟩,
    ⟨cmd_ready (by decide +kernel), window_counter (by decide +kernel), runs_bad (by decide +kernel)⟩,
    ⟨cmd_ready (by decide +kernel), denied (fun f : EngineFail => decide (f.1.1 = TrapCode.pageFault)) (by decide +kernel)⟩,
    ⟨cmd_ready (by decide +kernel), runs_bad (by decide +kernel)⟩,
    ⟨cmd_ready (by decide +kernel), rfl, rfl, by decide +kernel, cmd_ready (by decide +kernel), by decide +kernel, rfl⟩,
    ⟨cmd_ready (by decide +kernel), by decide +kernel, ⟨_, rfl, by decide +kernel⟩, by decide +kernel⟩, ⟨cmd_ready (by decide +kernel), by decide +kernel⟩,
    ⟨no_parts (by decide +kernel), rfl, by decide +kernel, by decide +kernel, by decide +kernel, by decide +kernel, _, by decide +kernel, rfl, rfl,
      window_counter (by decide +kernel)⟩, rfl⟩
/-- Records of a copy of `r` rows from byte 16 to byte 64 of the window. -/
def copyCells (r : Nat) : List Host.Cell := shape 0 true 16 r ++ shape 128 true 64 r
/-- What every clause on a copy asks for. -/
def CopyReady (s : State) (y : Copy) : Prop :=
  NoParts s ∧ s.copyAt 0 0 = some (y, drayOf s) ∧ (drayOf s).blk.id.core = 0 ∧ (s.core 0).copies = [] ++ y :: [] ∧ s.isDet (drayOf s) = false
theorem copy_ready {s : State} {y : Copy} (h : (decide ((s.copyAt 0 0).map (·.1) = some y) && (drayOf s).blk.id.core == 0 && decide ((s.core 0).copies = [y])
    && !s.isDet (drayOf s) && s.trays.all fun e => e.2.parts.isEmpty) = true) : CopyReady s y := by
  simp only [Bool.and_eq_true, Bool.not_eq_true', beq_iff_eq] at h
  obtain ⟨⟨⟨⟨h1, h2⟩, h3⟩, h4⟩, h5⟩ := h
  exact ⟨no_parts h5, copy_at h1, h2, by simpa using h3, h4⟩
def rowOk (s : State) (y : Copy) (last : Bool) (recs : Nat) : Bool :=
  let q := State.jobFrom y recs
  let n := q.dst.rowBytes
  let from_ (i : Nat) := q.src.start q.is + q.srcRow i * q.src.stride + q.bit0 / 8
  let dest (i : Nat) := q.dst.start q.id + i * q.dst.stride
  let a := from_ y.prog
  let d := dest y.prog
  let w := (drayOf s).blk.ps
  let old (x : Nat) : Bool := decide ((mapGetD w.stored x (0, 0, 0)).1 ≤ y.seq)
  q.ok && !q.src.nl && q.src.sp && q.dst.sp && q.bit0 % 8 == 0 && Memory.wf w.bytes && w.poison.isEmpty && decide (a + n ≤ w.size) && decide (d + n ≤ w.size)
    && (List.range q.rows).all (fun i => (List.range n).all fun x => old (from_ i + x) && old (dest i + x))
    && if last then decide (q.rows ≤ y.prog + 1) && decide (y.kc.toNat % 2 ^ 20 + 4 ≤ d) else decide (y.prog + 1 < q.rows)
/-- Copies that start, that fail their check, a row before the last, the last, and records whose page is not there. -/
theorem witness_EngineEvents_copies :
    (CopyReady (copySt copy0 (copyCells 2)) copy0 ∧ (copySt copy0 (copyCells 2)).drayFree 0 0 = true
      ∧ (copySt copy0 (copyCells 2)).mem.readers = []
      ∧ ∃ w, ((copySt copy0 (copyCells 2)).recsOf (drayOf (copySt copy0 (copyCells 2))) copy0).2 = .ok w ∧ (State.jobFrom copy0 w).ok = true)
    ∧ (CopyReady (copySt copy0 []) copy0 ∧ WindowCounter (drayOf (copySt copy0 [])).blk engCounter 0
      ∧ ∃ w, ((copySt copy0 []).recsOf (drayOf (copySt copy0 [])) copy0).2 = .ok w ∧ (!(State.jobFrom copy0 w).ok) = true)
    ∧ (let y := { copy0 with state := 1 }
       let s := copySt y (copyCells 2)
       CopyReady s y ∧ ∃ w, (s.recsOf (drayOf s) y).2 = .ok w ∧ rowOk s y false w = true)
    ∧ (let y := { copy0 with state := 1, prog := 1, recs := some (leNat (byteGets (copyCells 2) 0 256)) }
       let s := copySt y []
       CopyReady s y ∧ WindowCounter (drayOf s).blk engCounter 0 ∧ ∃ w, (s.recsOf (drayOf s) y).2 = .ok w ∧ rowOk s y true w = true)
    ∧ (let y := { copy0 with ks := 65536 }
       let s := copySt y []
       CopyReady s y ∧ s.drayFree 0 0 = true ∧ ∃ f, (s.recsOf (drayOf s) y).2 = .error f ∧ decide (f.1.1 = .pageFault) = true)
    -- a bound prefetch that has arrived
    ∧ (let q : PrefArr := { bid := 0, sk := 0, arm := 0, obj := 0 }
       let s := objSt.modCore 0 fun c => { c with prefs := [q] }
       ∃ p, s.prefsOf[0]? = some (0, q) ∧ s.agent 0 0 0 0 = some p ∧ p.coach = false ∧ p.blk.id.core = 0 ∧ s.isDet p = false ∧ MemoryOk s ∧ NoUpdates s ∧ CleanL1 s p
        ∧ s.mem.held = [] ∧ HomeValue s p 0 32 .atomic objV ∧ HomeOk s p (0 + 4) .atomic (homeAt 4)) :=
  ⟨⟨copy_ready (by decide +kernel), by decide +kernel, by decide +kernel, answered (fun w => (State.jobFrom copy0 w).ok) (by decide +kernel)⟩,
    ⟨copy_ready (by decide +kernel), window_counter (by decide +kernel), answered (fun w => !(State.jobFrom copy0 w).ok) (by decide +kernel)⟩,
    ⟨copy_ready (by decide +kernel), answered (rowOk _ _ false) (by decide +kernel)⟩,
    ⟨copy_ready (by decide +kernel), window_counter (by decide +kernel), answered (rowOk _ _ true) (by decide +kernel)⟩,
    ⟨copy_ready (by decide +kernel), by decide +kernel, denied (fun f : EngineFail => decide (f.1.1 = TrapCode.pageFault)) (by decide +kernel)⟩,
    ⟨_, rfl, rfl, by decide +kernel, by decide +kernel, by decide +kernel, by unfold MemoryOk; decide +kernel, no_updates (by decide +kernel),
      by unfold CleanL1; decide +kernel, by decide +kernel, home_value (homeAt 0) (by decide +kernel), home_ok (by decide +kernel)⟩⟩
/-- A ring of one slot of 96 bytes at byte 32 of the window, its control block at byte 0, its task queue at VA 0; `free` is FREE. -/
def bind0 : Binding :=
  { port := 3, index := 0, etype := 0, vlan := 4096, dmac := [], flags := 3, lid := 0, seq := 0, ctx := 0, blk := 0, rcb := 0, slots := 32, slotb := 96, tq := 0, count := 0 }
def ingSt (free : Byte) (r : Option Rec) : State :=
  let s := homed (s0.modBlk 0 fun b => { b with ps := { State.emptyScratch 4096 with bytes := (if free = 0 then [] else [(8, free)]) ++ [(17, 1)] } }) [(0, 128), (8, 1)]
  (s.modLaunch 0 fun l => { l with rec_ := r }).modHost 0 fun h => { h with binds := [bind0] }
def frame80 : List Byte := List.replicate 80 7
def ring (free : Nat) : RingView := { state := 0, n := 1, widx := 0, full := 0, free := free }
/-- The ring of `s` at the binding is `ring 0`, and its block meets `f`. -/
theorem ring_at {s : State} {r : RingView} {f : Block → Bool} (h : decide ((s.ringReady bind0).map (·.2) = some r) = true)
    (g : ((s.ringReady bind0).elim false fun x => f x.1) = true) : ∃ b, s.ringReady bind0 = some (b, r) ∧ f b = true := by
  cases hr : s.ringReady bind0 with
  | none => simp [hr] at h
  | some x =>
    simp only [hr, Option.map_some, decide_eq_true_eq, Option.some.injEq, Option.elim_some] at h g
    exact ⟨x.1, by rw [← h], g⟩
def recFrame : List Byte := cmdOf 0 0 [(3, 1, 3), (28, 2, 32)]
def rec0 : Rec :=
  { replay := true, root := 0, times := [], frames := [recFrame ++ List.replicate 32 5], tasks := [], stores := [(120, 0, [1])], header := List.replicate 128 0 }
/-- The ring's slot can take `n` bytes. -/
theorem ring_ok {s : State} {f lam n : Nat} (h : decide ((s.ringReady bind0).map (·.2) = some (ring f)) = true)
    (g : ((s.ringReady bind0).elim false fun x => decide (s.blk? x.1.id.bid = some x.1 ∧ State.slotOut x.1 bind0 (ring f) = false
      ∧ Memory.wf x.1.ps.bytes = true ∧ n + 16 ≤ bind0.slotb ∧ bind0.slots + bind0.slotb ≤ x.1.ps.size ∧ bit1 f 0 = decide (lam = 1)
      ∧ bind0.slots + bind0.slotb ≤ bind0.rcb + 96 + 32)) = true) :
    ∃ b, s.ringReady bind0 = some (b, ring f) ∧ s.blk? b.id.bid = some b ∧ State.slotOut b bind0 (ring f) = false ∧ RingOk b bind0 (ring f) 0 lam n := by
  obtain ⟨b, h1, h2⟩ := ring_at (f := fun x => decide (s.blk? x.id.bid = some x ∧ State.slotOut x bind0 (ring f) = false
      ∧ Memory.wf x.ps.bytes = true ∧ n + 16 ≤ bind0.slotb ∧ bind0.slots + bind0.slotb ≤ x.ps.size ∧ bit1 f 0 = decide (lam = 1)
      ∧ bind0.slots + bind0.slotb ≤ bind0.rcb + 96 + 32)) h g
  obtain ⟨h3, h4, h5, h6, h7, h8, -⟩ := of_decide_eq_true h2
  exact ⟨b, h1, h3, h4, h5, h6, by simpa using h7, by decide, h8, by decide⟩
theorem replay_ring : ∃ b, (ingSt 0 (some rec0)).ringReady bind0 = some (b, ring 0) ∧ (ingSt 0 (some rec0)).blk? b.id.bid = some b
    ∧ RingOk b bind0 (ring 0) (natAt (recFrame ++ List.replicate 32 5) 24 4 % 1) 0 (slice (recFrame ++ List.replicate 32 5) 32 32).length := by
  obtain ⟨b, h1, h2, -, h3⟩ := ring_ok (s := ingSt 0 (some rec0)) (f := 0) (lam := 0)
    (n := (slice (recFrame ++ List.replicate 32 5) 32 32).length) (by decide +kernel) (by decide +kernel)
  have h4 : natAt (recFrame ++ List.replicate 32 5) 24 4 % 1 = 0 := Nat.mod_one _
  exact ⟨b, h1, h2, by rw [h4]; exact h3⟩
theorem opt_some {α : Type} {o : Option α} {f : α → Bool} (h : o.elim false f = true) : ∃ x, o = some x ∧ f x = true := by
  cases o with
  | none => simp at h
  | some x => exact ⟨x, rfl, h⟩
theorem replay_launch : ∃ l, (ingSt 0 (some rec0)).launch? 0 = some l ∧ l.rec_ = some rec0 ∧ rec0.replay = true ∧ l.done = false
    ∧ l.start + natAt (recFrame ++ List.replicate 32 5) 8 8 - natAt rec0.header 24 8 ≤ (ingSt 0 (some rec0)).time.ns := by
  have h : ((ingSt 0 (some rec0)).launch? 0).elim false (fun l => decide (l.rec_ = some rec0 ∧ rec0.replay = true ∧ l.done = false
    ∧ l.start + natAt (recFrame ++ List.replicate 32 5) 8 8 - natAt rec0.header 24 8 ≤ (ingSt 0 (some rec0)).time.ns)) = true := by decide +kernel
  obtain ⟨l, h1, h2⟩ := opt_some h
  exact ⟨l, h1, of_decide_eq_true h2⟩
theorem task_queue : ∃ k, taskQ (leNat (byteGets (ingSt 0 none).mem.bytes (homeAt 0).addr 64)) = some k
    ∧ (k.tail + 2 ^ 32 - k.head) % 2 ^ 32 ≠ k.cap ∧ k.slot k.tail = 128 := by
  have h : (taskQ (leNat (byteGets (ingSt 0 none).mem.bytes (homeAt 0).addr 64))).elim false (fun k => decide
    ((k.tail + 2 ^ 32 - k.head) % 2 ^ 32 ≠ k.cap ∧ k.slot k.tail = 128)) = true := by decide +kernel
  obtain ⟨k, h1, h2⟩ := opt_some h
  exact ⟨k, h1, of_decide_eq_true h2⟩
theorem ring_free : ∃ b, (ingSt 0 none).ringReady bind0 = some (b, ring 0) ∧ (ingSt 0 none).blk? b.id.bid = some b
    ∧ State.slotOut b bind0 (ring 0) = false ∧ RingOk b bind0 (ring 0) 0 0 80 :=
  ring_ok (s := ingSt 0 none) (f := 0) (lam := 0) (n := 80) (by decide +kernel) (by decide +kernel)
theorem witness_IngressAndReplay :
    MemoryOk (ingSt 0 none) ∧ bit1 ({ base0 with variant := 2 } : State).feat 0 = false ∧ (∀ y ∈ ((ingSt 0 none).host 0).binds, y.port ≠ 2 ∨ y.takes frame80 = false)
    ∧ (bit1 (ingSt 0 none).feat 0 = true ∧ ((ingSt 0 none).host 0).binds = [bind0] ∧ bind0.takes frame80 = true ∧ ((ingSt 0 none).launch? 0).bind (·.rec_) = none
      ∧ 96 < (7 :: frame80).length + 16 ∧ frame80.length + 16 ≤ 96 ∧ (∃ b, (ingSt 0 none).ringReady bind0 = some (b, ring 0) ∧ (ingSt 0 none).blk? b.id.bid = some b
        ∧ State.slotOut b bind0 (ring 0) = false ∧ RingOk b bind0 (ring 0) 0 0 80) ∧ bind0.port ≤ 3 ∧ bind0.rcb < 2 ^ 20)
    ∧ (∃ b, (ingSt 1 none).ringReady bind0 = some (b, ring 1) ∧ (bit1 (ring 1).free 0 != decide (0 = 1)) = true)
    ∧ (HomeAt (ingSt 0 none) 0 0 .atomic (homeAt 0)
      ∧ (∃ k, taskQ (leNat (byteGets (ingSt 0 none).mem.bytes (homeAt 0).addr 64)) = some k ∧ (k.tail + 2 ^ 32 - k.head) % 2 ^ 32 ≠ k.cap ∧ k.slot k.tail = 128)
      ∧ NoPartsOf (ingSt 0 none) 0 0 ∧ NoPartsOf (ingSt 0 none) 0 128 ∧ HomeAt (ingSt 0 none) 0 128 .write (homeAt 128) ∧ (homeAt 0).addr + 64 ≤ (homeAt 128).addr
      ∧ ∀ w ∈ (ingSt 0 none).mem.tqwait, w.1 ≠ State.syncKey 0 0)
    ∧ (∃ l, (ingSt 0 (some rec0)).launch? 0 = some l ∧ l.rec_ = some rec0 ∧ rec0.replay = true ∧ l.done = false
      ∧ l.start + natAt (recFrame ++ List.replicate 32 5) 8 8 - natAt rec0.header 24 8 ≤ (ingSt 0 (some rec0)).time.ns)
    ∧ rec0.frames[0]? = some (recFrame ++ List.replicate 32 5)
    ∧ (ingSt 0 (some rec0)).hosts.flatMap (fun e => e.2.binds.map fun y => (e.1, y)) = [(0, bind0)]
    ∧ bind0.rcb = natAt (recFrame ++ List.replicate 32 5) 16 8 % 2 ^ 20 ∧ bind0.port = natAt (recFrame ++ List.replicate 32 5) 3 1
    ∧ (∃ b, (ingSt 0 (some rec0)).ringReady bind0 = some (b, ring 0) ∧ (ingSt 0 (some rec0)).blk? b.id.bid = some b
      ∧ RingOk b bind0 (ring 0) (natAt (recFrame ++ List.replicate 32 5) 24 4 % 1) 0 (slice (recFrame ++ List.replicate 32 5) 32 32).length)
    ∧ rec0.stores[0]? = some (120, 0, [1]) ∧ 120 % 128 + [1#8].length ≤ 128 ∧ HomeAt (ingSt 0 (some rec0)) 0 120 .write (homeAt 120)
    ∧ NoPartsOf (ingSt 0 (some rec0)) 0 120 :=
  ⟨by unfold MemoryOk; decide +kernel, by decide +kernel, by decide +kernel,
    ⟨by decide +kernel, by decide +kernel, by decide +kernel, by decide +kernel, by decide +kernel, by decide +kernel,
      ring_free, by decide, by decide⟩,
    ring_at (f := fun _ => bit1 (ring 1).free 0 != decide (0 = 1)) (by decide +kernel) (by decide +kernel), ⟨home_at (by decide +kernel), task_queue,
      parts_of (no_parts (by decide +kernel)), parts_of (no_parts (by decide +kernel)), home_at (by decide +kernel), by decide +kernel, by decide +kernel⟩,
    replay_launch, by decide +kernel, by decide +kernel, by decide +kernel, by decide +kernel, replay_ring, by decide +kernel, by decide,
    home_at (by decide +kernel), parts_of (no_parts (by decide +kernel))⟩

/-- The block of the ring, and whether `s` has it at the binding `y` with the view `r`. -/
def ingBlk (s : State) : Block := (s.blk? 0).getD State.slotBlock
def viewed (s : State) (y : Binding) (r : RingView) : Bool :=
  decide ((mapVals s.blocks).find? (fun b => b.id.lid == y.lid && b.id.idx == y.blk && State.placedBlk b) = some (ingBlk s)
    ∧ State.ringView (ingBlk s) y.rcb = some r ∧ s.blk? (ingBlk s).id.bid = some (ingBlk s))
/-- The state of `ingSt` with the bytes `c` at home, the window's bytes `w` and the binding `y` alone. -/
def dropSt (c w : List Host.Cell) (y : Binding) : State :=
  (homed (s0.modBlk 0 fun b => { b with ps := { State.emptyScratch 4096 with bytes := w } }) c).modHost 0 fun h => { h with binds := [y] }
def ringCells : List Host.Cell := [(17, 1)]
/-- A frame that the binding `y` takes in `s`, whose launch is not recorded, no host die being cut off or failed. -/
def arrives (s : State) (y : Binding) : Bool :=
  decide (bit1 s.feat 0 = true ∧ pkgThere 0 = true ∧ 0 ∉ s.relay.failed ∧ s.ingressCut 0 y = false ∧ (s.host 0).binds = [y] ∧ y.port = 3 ∧ y.takes frame80 = true
    ∧ (s.launch? y.lid).bind (·.rec_) = none)
def bindFar : Binding := { bind0 with slots := 4050 }
def bindOdd : Binding := { bind0 with tq := 8 }
def bindOther : Binding := { bind0 with blk := 1 }
def bindOld : Binding := { bind0 with etype := 5, flags := 1, index := 1 }
theorem witness_IngressAndReplay_drops :
    (let s := ingSt 0 (some rec0)
     bit1 s.feat 0 = true ∧ pkgThere 0 = true ∧ 0 ∉ s.relay.failed ∧ s.ingressCut 0 bind0 = false ∧ (s.launch? bind0.lid).bind (·.rec_) = some rec0 ∧ rec0.replay = true)
    ∧ (arrives (dropSt [] [] bindOther) bindOther = true ∧ ∀ b ∈ mapVals (dropSt [] [] bindOther).blocks, (b.id.lid == 0 && b.id.idx == 1 && State.placedBlk b) = false)
    ∧ (arrives (dropSt [] [] bind0) bind0 = true ∧ viewed (dropSt [] [] bind0) bind0 { ring 0 with n := 0 } = true)
    ∧ (arrives (dropSt [] ((16, 1) :: ringCells) bind0) bind0 = true ∧ viewed (dropSt [] ((16, 1) :: ringCells) bind0) bind0 { ring 0 with state := 1 } = true)
    ∧ viewed (dropSt [] [(17, 65)] bind0) bind0 { ring 0 with n := 65 } = true
    ∧ (arrives (dropSt [] ringCells bindFar) bindFar = true ∧ viewed (dropSt [] ringCells bindFar) bindFar (ring 0) = true
      ∧ (ingBlk (dropSt [] ringCells bindFar)).ps.size < bindFar.slots + bindFar.slotb ∧ frame80.length + 16 ≤ bindFar.slotb)
    ∧ (let s := dropSt [(0, 128), (8, 1), (16, 1)] ringCells bind0
       arrives s bind0 = true ∧ viewed s bind0 (ring 0) = true ∧ bind0.tq % 64 = 0 ∧ HomeAt s 0 0 .atomic (homeAt 0) ∧ NoPartsOf s 0 0
        ∧ taskQ (leNat (byteGets s.mem.bytes (homeAt 0).addr 64)) = some { entries := 128, cap := 1, head := 0, tail := 1 } ∧ (1 + 2 ^ 32 - 0) % 2 ^ 32 = 1)
    ∧ (let s := dropSt [] ringCells bind0
       arrives s bind0 = true ∧ viewed s bind0 (ring 0) = true ∧ HomeAt s 0 0 .atomic (homeAt 0) ∧ NoPartsOf s 0 0 ∧ taskQ (leNat (byteGets s.mem.bytes (homeAt 0).addr 64)) = none
        ∧ RingOk (ingBlk s) bind0 (ring 0) 0 0 80)
    ∧ (arrives (dropSt [] ringCells bindOdd) bindOdd = true ∧ viewed (dropSt [] ringCells bindOdd) bindOdd (ring 0) = true ∧ bindOdd.tq % 64 ≠ 0)
    ∧ (bindOld.lid = bind0.lid ∧ bindOld.rcb = bind0.rcb ∧ bindOld.port = bind0.port ∧ bindOld.takes frame80 = false ∧ bind0.takes frame80 = true) :=
  ⟨by decide +kernel, ⟨by decide +kernel, by decide +kernel⟩, ⟨by decide +kernel, by decide +kernel⟩, ⟨by decide +kernel, by decide +kernel⟩, by decide +kernel,
    ⟨by decide +kernel, by decide +kernel, by decide +kernel, by decide +kernel⟩,
    ⟨by decide +kernel, by decide +kernel, by decide +kernel, home_at (by decide +kernel), parts_of (no_parts (by decide +kernel)), by decide +kernel, by decide⟩,
    ⟨by decide +kernel, by decide +kernel, home_at (by decide +kernel), parts_of (no_parts (by decide +kernel)), by decide +kernel, by unfold RingOk; decide +kernel⟩,
    ⟨by decide +kernel, by decide +kernel, by decide +kernel⟩, by decide +kernel⟩

/-! ### Launches and contexts -/

def patch (l : List (Nat × Nat × Nat)) : List Byte :=
  l.foldl (fun b e => b.take e.1 ++ leBytes e.2.1 e.2.2 ++ b.drop (e.1 + e.2.1)) (List.replicate 128 0)
/-- A launch of type `typ` of `n` blocks, SPAN `sp`. -/
def launchPacket (typ n sp : Nat) : List Byte :=
  patch [(0, 4, 256 + typ), (16, 4, 256), (20, 4, 16), (24, 1, 1), (25, 1, 1), (26, 1, 1), (27, 1, sp), (28, 4, 4096), (32, 4, n), (36, 2, 1), (38, 2, 1), (40, 2, 64),
         (42, 1, 64), (44, 4, 0xFFFFFFFF)]
def cellsAt (a : Nat) (l : List Byte) : List Host.Cell := byteSets [] a l
/-- The packet at HEAD, 4,096 of channel 0; a descriptor of context 1 at 8,192; context 0 with regions and key 0 on die 0. -/
def packetSt (p : List Byte) (place : NMap (BitVec 32)) : State :=
  let s := homed (s0.modCtx 0 fun x => { x with place := place, d := { x.d with spills := 16 } }) (byteSet (cellsAt 4096 p) 8192 1)
  { s with relay := { s.relay with primary := some 0, en := true, base := 4096, tail := 1 } }
def place0 : NMap (BitVec 32) := [(0, 0x80000080#32)]
def bindPacket (c : Nat) : List Byte := patch [(0, 4, 256 + 3), (4, 2, c), (64, 8, 8192)]
def releasePacket (c : Nat) : List Byte := patch [(0, 4, 256 + 4), (4, 2, c)]
def packetIs (s : State) (p : List Byte) : Bool := decide (s.nextPacket = some p) && (s.trays.all fun e => e.2.parts.isEmpty) && (formatFault p (s.maxpri (natAt p 4 2 % 4096))).isNone
theorem witness_Launches_packets :
    base0.nextPacket = none ∧ NoParts (packetSt (patch []) []) ∧ NoParts (packetSt (patch [(0, 1, 5)]) []) ∧ NoParts (packetSt (patch [(0, 1, 1)]) [])
    ∧ ((packetSt (patch []) []).nextPacket = some (patch []) ∧ natAt (patch []) 0 1 = 0)
    ∧ ((packetSt (patch [(0, 1, 5)]) []).nextPacket = some (patch [(0, 1, 5)]) ∧ 4 < natAt (patch [(0, 1, 5)]) 0 1)
    ∧ ((packetSt (patch [(0, 1, 1)]) []).nextPacket = some (patch [(0, 1, 1)]) ∧ formatFault (patch [(0, 1, 1)]) ((packetSt (patch [(0, 1, 1)]) []).maxpri 0) = some 0)
    ∧ (packetIs (packetSt (launchPacket 1 0 0) []) (launchPacket 1 0 0) = true ∧ dimsFault (launchPacket 1 0 0) = some 0x20)
    ∧ (packetIs { packetSt (launchPacket 2 1 0) [] with ctxs := [] } (launchPacket 2 1 0) = true ∧ dimsFault (launchPacket 2 1 0) = none
      ∧ ({ packetSt (launchPacket 2 1 0) [] with ctxs := [] } : State).ctx? 0 = none)
    ∧ (packetIs (packetSt (launchPacket 1 1 0) []) (launchPacket 1 1 0) = true
      ∧ ∃ e, ((packetSt (launchPacket 1 1 0) []).checkLaunch 0 (launchPacket 1 1 0)).2 = .error e ∧ decide (e.1 = 6) = true)
    ∧ (packetIs (packetSt (launchPacket 1 1 0) place0) (launchPacket 1 1 0) = true
      ∧ ∃ l, ((packetSt (launchPacket 1 1 0) place0).checkLaunch 0 (launchPacket 1 1 0)).2 = .ok l ∧ decide (l.total = 1) = true)
    ∧ (packetIs (packetSt (launchPacket 2 1 0) place0) (launchPacket 2 1 0) = true
      ∧ ∃ l, ((packetSt (launchPacket 2 1 0) place0).checkLaunch 0 (launchPacket 2 1 0)).2 = .ok l ∧ l.resident = true)
    ∧ (packetIs (packetSt (bindPacket 0) []) (bindPacket 0) = true ∧ natAt (bindPacket 0) 0 1 = 3 ∧ (packetSt (bindPacket 0) []).ctx? 0 ≠ none)
    ∧ (packetIs (packetSt (bindPacket 1) []) (bindPacket 1) = true ∧ natAt (bindPacket 1) 64 8 = 8192 ∧ (packetSt (bindPacket 1) []).mem.keyOf = []
      ∧ (packetSt (bindPacket 1) []).ctx? 1 = none ∧ (packetSt (bindPacket 1) []).descriptorOk 8192 = true
      ∧ leNat (byteGets (packetSt (bindPacket 1) []).mem.bytes 8192 2) % 4096 = 1)
    ∧ (packetIs (packetSt (releasePacket 1) []) (releasePacket 1) = true ∧ natAt (releasePacket 1) 0 1 = 4 ∧ (packetSt (releasePacket 1) []).ctx? 1 = none)
    ∧ (let s := { packetSt (releasePacket 0) [] with blocks := [], launches := [(0, { State.slotLaunch with done := true })] }
       packetIs s (releasePacket 0) = true ∧ s.ctx? 0 ≠ none ∧ Sorted s.ctxs ∧ (∀ b ∈ mapVals s.blocks, b.id.ctx ≠ 0) ∧ ∀ l ∈ mapVals s.launches, l.ctx = 0 → l.done = true) :=
  ⟨by decide +kernel, no_parts (by decide +kernel), no_parts (by decide +kernel), no_parts (by decide +kernel), by decide +kernel, by decide +kernel, by decide +kernel,
    by decide +kernel, by decide +kernel, ⟨by decide +kernel, denied (fun e : Nat × Nat => decide (e.1 = 6)) (by decide +kernel)⟩,
    ⟨by decide +kernel, answered (fun l : Launch => decide (l.total = 1)) (by decide +kernel)⟩, ⟨by decide +kernel, answered Launch.resident (by decide +kernel)⟩,
    by decide +kernel, by decide +kernel, by decide +kernel, by decide +kernel, by decide +kernel, by unfold Sorted; decide +kernel, by decide +kernel, by decide +kernel⟩
/-- A launch accepted and not placed: blocks `lo` on of `n` stand at die 0. -/
def shareSt (typ n sp : Nat) (sh : List Share) : State :=
  let s := packetSt [] place0
  { s with blocks := [], launches := [(0, { State.slotLaunch with packet := launchPacket typ n sp, total := n, shares := sh })] }
def share0 (n : Nat) : Share := { level := 0, node := 0, lo := 0, count := n, keyed := false }
theorem blocksBelow_nil {s : State} (h : s.blocks = []) : BlocksBelow s := by
  unfold BlocksBelow Sorted
  rw [h]
  simp
def fullSt : State := shareSt 2 1 0 [{ share0 1 with level := 3 }]
def oneSt : State := shareSt 1 1 0 [share0 1]
def pairSt : State := shareSt 1 2 2 [share0 2]
/-- The head of what may be placed: its context is there and its launch has this SPAN. -/
def headIs (s : State) (span : Nat) (x : Launch × Nat × Nat) : Bool := (s.ctx? x.1.ctx).isSome && x.1.span == span
theorem witness_Launches_placement :
    ((shareSt 1 1 0 []).placeable 0 = none ∧ base0.dieThere 0 = true ∧ ({ base0 with variant := 1 } : State).dieThere 3 = false ∧ base0.relayThere 3 32 = false)
    ∧ ((∃ x, oneSt.placeable 0 = some x ∧ headIs oneSt 0 x = true) ∧ oneSt.dieThere 0 = true ∧ BlocksBelow oneSt)
    ∧ ((∃ x, pairSt.placeable 0 = some x ∧ headIs pairSt 2 x = true) ∧ pairSt.dieThere 0 = true ∧ BlocksBelow pairSt) :=
  ⟨by decide +kernel, ⟨opt_some (f := headIs oneSt 0) (by decide +kernel), by decide +kernel, blocksBelow_nil rfl⟩,
    opt_some (f := headIs pairSt 2) (by decide +kernel), by decide +kernel, blocksBelow_nil rfl⟩
theorem witness_Launches_reports :
    (∃ b, (base0.modBlk 0 fun b => { b with held := true }).blk? 0 = some b ∧ b.held = true ∧ (base0.launch? b.id.lid).elim 0 (·.start) ≤ base0.time.ns)
    ∧ (∃ b, base0.blk? 0 = some b ∧ b.held = false)
    ∧ (∃ l, oneSt.launch? 0 = some l ∧ l.done = false ∧ oneSt.relayThere 2 31 = true ∧ oneSt.relayThere 0 0 = true ∧ oneSt.reportDue l 0 0 = true)
    ∧ (∃ l, (oneSt.modLaunch 0 fun l => { l with done := true }).launch? 0 = some l ∧ l.done = true) :=
  ⟨⟨_, rfl, rfl, by decide +kernel⟩, ⟨_, rfl, rfl⟩, ⟨_, rfl, rfl, by decide +kernel, by decide +kernel, by decide +kernel⟩, ⟨_, rfl, rfl⟩⟩
def fullLaunch : Launch := (fullSt.launch? 0).getD State.slotLaunch
theorem witness_Launches_resident :
    (fullSt.launch? 0 = some fullLaunch ∧ fullLaunch.resident = true ∧ fullSt.mayPlace fullLaunch = true ∧ fullLaunch.shares ≠ []
      ∧ fullSt.earlierWaits fullLaunch = false ∧ (fullSt.plan fullLaunch).isSome = true ∧ fullLaunch.span ≠ 2 ∧ fullSt.ctx? fullLaunch.ctx ≠ none)
    ∧ BlocksBelow fullSt
    ∧ (let s := fullSt.modCtx 0 fun x => { x with d := { x.d with spills := 0 } }
       s.launch? 0 = some fullLaunch ∧ s.mayPlace fullLaunch = true ∧ s.earlierWaits fullLaunch = false ∧ s.plan fullLaunch = none)
    ∧ ∃ l, (shareSt 1 1 0 []).launch? 0 = some l ∧ l.resident = false :=
  ⟨by decide +kernel, blocksBelow_nil rfl, by decide +kernel, _, rfl, by decide +kernel⟩
/-- The block's only skein, or two, with lives. -/
def lifeSt (a : Life) (b : Option Life) : State :=
  base0.modBlk 0 fun x => { x with skeins := { State.slotSkein with life := a } :: b.elim [] fun y => [{ State.slotSkein with idx := 1, life := y }] }
/-- Every block has retired, and a tray relay has reported it. -/
def reportedSt : State := base0.modLaunch 0 fun l =>
  { l with retired := 1, reports := [{ level := 2, node := 0, free := 0, unstarted := 0, lowest := 0, retired := 1, at_ := 0 }] }
def fatalSt (dead : Bool) : State := base0.modCtx 0 fun x => { x with fatal := some (.nested, 0), dead := dead }
theorem witness_Launches_ends :
    (∃ l, reportedSt.launch? 0 = some l ∧ l.lid = 0 ∧ l.done = false ∧ State.reportedRetired l = l.total ∧ l.rec_ = none
      ∧ base0.updatesOut l.ctx = false ∧ base0.isFatal l.ctx = false ∧ base0.mem.held = [])
    ∧ (∃ l, base0.launch? 0 = some l ∧ State.reportedRetired l ≠ l.total)
    ∧ (∃ b k, (lifeSt .live none).blk? 0 = some b ∧ b.id.bid = 0 ∧ State.placedBlk b = true ∧ b.skeins[0]? = some k ∧ ((lifeSt .live none).core b.id.core).grants = []
      ∧ (∃ j ∈ b.skeins, j.life ≠ .retired) ∧ k.life ≠ .draining)
    ∧ (∃ b k, (lifeSt .draining (some .live)).blk? 0 = some b ∧ b.skeins[0]? = some k ∧ k.life = .draining ∧ (lifeSt .draining (some .live)).busySkein b 0 = false
      ∧ ∃ j y, j ≠ 0 ∧ b.skeins[j]? = some y ∧ y.life ≠ .retired)
    ∧ (∃ b k, (lifeSt .draining none).blk? 0 = some b ∧ b.skeins = [k] ∧ k.life = .draining ∧ (lifeSt .draining none).busySkein b 0 = false ∧ b.coach = none
      ∧ (lifeSt .draining none).busyBlock b = false ∧ k.x.defer = none ∧ CleanCore (lifeSt .draining none) b.id.core ∧ Sorted (lifeSt .draining none).blocks
      ∧ ∀ e ∈ (lifeSt .draining none).blocks, e.2.id.bid = e.1)
    ∧ (∃ x, (fatalSt true).ctx? 0 = some x ∧ x.fatal = some (.nested, 0) ∧ x.dead = true)
    ∧ ((∃ x, (fatalSt false).ctx? 0 = some x ∧ x.fatal = some (.nested, 0) ∧ x.dead = false) ∧ (fatalSt false).mem.reqs = [] ∧ (fatalSt false).trays = []
      ∧ (∀ g, ((fatalSt false).core g).grants = []) ∧ (∀ g, CleanCore (fatalSt false) g) ∧ Sorted (fatalSt false).blocks
      ∧ (∀ e ∈ (fatalSt false).blocks, e.2.id.bid = e.1) ∧ ∃ l, (fatalSt false).launches = [(l.lid, l)] ∧ l.ctx = 0 ∧ l.done = false ∧ l.rec_ = none) := by
  have core0 (g : Nat) : ((fatalSt false).core g).grants = [] ∧ ((fatalSt false).core g).l1 = [] := by
    by_cases h : (0 : Nat) = g
    · subst h; exact ⟨rfl, rfl⟩
    · have : (fatalSt false).core g = Core.init := by
        show mapGetD (fatalSt false).cores g Core.init = _
        show (mapGet (fatalSt false).cores g).getD _ = _
        show (if 0 = g then _ else mapGet [] g).getD _ = _
        rw [if_neg h]; rfl
      rw [this]; exact ⟨rfl, rfl⟩
  have clean (g : Nat) : CleanCore (fatalSt false) g := by
    intro x hx
    rw [(core0 g).2] at hx
    cases hx
  exact ⟨⟨_, rfl, rfl, rfl, by decide +kernel, rfl, by decide +kernel, by decide +kernel, rfl⟩, ⟨_, rfl, by decide +kernel⟩,
    ⟨_, _, rfl, rfl, by decide +kernel, rfl, by decide +kernel, by decide +kernel, by decide +kernel⟩,
    ⟨_, _, rfl, rfl, rfl, by decide +kernel, 1, _, by decide, rfl, by decide +kernel⟩,
    ⟨_, _, rfl, rfl, rfl, by decide +kernel, rfl, by decide +kernel, by decide +kernel, by unfold CleanCore; decide +kernel, by unfold Sorted; decide +kernel, by decide +kernel⟩,
    ⟨_, rfl, rfl, rfl⟩, ⟨_, rfl, rfl, rfl⟩, rfl, rfl, fun g => (core0 g).1, fun g => clean g, by unfold Sorted; decide +kernel,
    by decide +kernel, ((fatalSt false).launch? 0).getD State.slotLaunch, rfl, rfl, rfl, rfl⟩

/-! ### Encodings and steps -/

/-- A word of each length, and one of the last opcode. -/
theorem witness_EncodingRoundTrip : (Instr.iadd 63 true (.b 7) (.v 63)).wf = true ∧ encodeForm (.iadd 63 true (.b 7) (.v 63)) ≠ none
    ∧ Instr.nop16.wf = true ∧ encodeForm .nop16 ≠ none
    ∧ (∃ i, 0xF80E < 2 ^ 32 ∧ decodeWord 0xF80E = .ok i) ∧ ∃ i, 0x05C51983 < 2 ^ 32 ∧ decodeWord 0x05C51983 = .ok i :=
  ⟨by decide, by decide, by decide, by decide, ⟨_, by decide, rfl⟩, ⟨_, by decide, rfl⟩⟩
theorem witness_SpecWords : (2#16).toNat % 2 = 0 ∧ (0xFFFF#16).toNat % 2 = 1
    ∧ (0xC000 < 2 ^ 16 ∧ 0xC000 % 2 = 0 ∧ 0xC000 / 2 ^ 14 = 3 ∧ 0xC000 / 2 % 16 ≠ 8 ∧ 0xC000 ≠ 0xF80E)
    ∧ LanePass s0 p0 ∧ CoachPass sc pc ∧ s0.pass? = some p0 :=
  ⟨by decide, by decide, by decide, lane0, coach0, by have := lane0.1; exact this⟩
/-- The machine with `w` placed, one turn taken from its agenda. -/
def turnSt (w : Nat) : State := ({ State.reset.placeWord w with agenda := [], cur := none } : State).pass 1
/-- The same with a coach instance at offset 0 in the skein's stead. -/
def coachTurn (w : Nat) : State := (turnSt w).modBlk 0 fun b => { b with coach := some Coach.blank }
def skein0 : Who := .skein 0 0 0
theorem prepared {s : State} {w : Who} {d : Option Decoded} (h : decide ((s.prepare w).2 = d) = true) : ∃ v, s.prepare w = (v, d) :=
  ⟨(s.prepare w).1, Prod.ext rfl (of_decide_eq_true h)⟩
theorem cached_code {s : State} {g c a n v : Nat} (h : (!noncanon a && s.mapOk c a && !s.unsure c a && (State.lineIn (s.core g).icache c a).elim false fun l =>
    l.data.toNat / 2 ^ (8 * (a % 128)) % 2 ^ (8 * n) == v) = true) : CachedCode s g c a n v := by
  simp only [Bool.and_eq_true, Bool.not_eq_true'] at h
  obtain ⟨l, h1, h2⟩ := opt_some h.2
  exact ⟨h.1.1.1, h.1.1.2, h.1.2, l, h1, by simpa using h2⟩
/-- The running path stands at offset 0 as its rejoin, a serial marker's; arm 1 does, whose sibling is complete. -/
def rejoinSt : State := (turnSt 0xF80E).modArm 0 0 0 fun a => { a with path := some { off := 0, lanes := 0xFF, base := 0 }, stack := [.marker 0 0xFF00 0] }
def lastArmSt : State := (turnSt 0xF80E).modSk 0 0 fun k =>
  { k with
    rejoin := 0
    arms := [{ Arm.idle with complete := true, split := 0xFF, arrived := 0xFF, ks := [(1, 1)] },
             { Arm.idle with path := some { off := 0, lanes := 0xFF00, base := 0 }, split := 0xFF00 }] }
def skeinOf (s : State) : Skein := (s.sk? 0 0).getD Skein.blank
def coach1 : Block := ((coachTurn 0x05C51983).blk? 0).getD State.slotBlock
theorem witness_StepRunsDecoded :
    (∃ t r, (State.reset.placeWord 0xF80E).agenda = t :: r ∧ t.move = .issue skein0)
    ∧ (∃ t r, ({ base0 with agenda := [⟨1, .event (.thermalMigration 0 0)⟩] } : State).agenda = t :: r ∧ t.move = .event (.thermalMigration 0 0))
    ∧ (∃ t r, ({ base0 with agenda := [⟨1, .world (.hostFails 0)⟩] } : State).agenda = t :: r ∧ t.move = .world (.hostFails 0))
    ∧ (base0.pass 1).ready (.coach 0) = false ∧ (turnSt 0xF80E).ready skein0 = true
    ∧ (∃ v, ((turnSt 0xF80E).modArm 0 0 0 fun a => { a with path := some { off := 16, lanes := 0xFFFF, base := 0 } }).prepare skein0 = (v, none))
    ∧ (∃ v, (turnSt 0xF80E).prepare skein0 = (v, some (.ok .nop16)))
    ∧ (∃ v, (turnSt 0).prepare skein0 = (v, some (.illegal .encoding .any)))
    ∧ (∃ b x z, lastArmSt.ready (.skein 0 0 1) = true ∧ lastArmSt.blk? 0 = some b ∧ b.id.bid = 0 ∧ b.skeins[0]? = some (skeinOf lastArmSt)
      ∧ (skeinOf lastArmSt).arms[1]? = some x ∧ x.issue = none ∧ x.wait = none ∧ x.hold = none ∧ x.sw = false
      ∧ (skeinOf lastArmSt).arrive 1 = some z ∧ z.arms.length ≠ (skeinOf lastArmSt).arms.length)
    ∧ (∀ s : State, s = turnSt 0xF80E ∨ s = rejoinSt → ∃ b k0 k x0 x q, s.blk? 0 = some b ∧ b.id.bid = 0 ∧ b.skeins[0]? = some k0 ∧ k0.arms = [x0]
      ∧ IdleArm x0 ∧ x0.path.isSome = true ∧ k0.life = .live ∧ State.arriveAll 70 k0 0 = k ∧ AtIssue b k x q ∧ s.blockRuns b false = true
      ∧ State.occupied k (q.lanes &&& k.live) = [(0, q.lanes &&& k.live)]
      ∧ WordAt s b.id.core b.id.ctx (s.codeOf b.id.lid) 0 q.off 0xF80E ∧ decodeWord 0xF80E = .ok .nop16 ∧ isAtom .nop16 = false)
    ∧ (∃ b c i, (coachTurn 0x05C51983).blk? 0 = some b ∧ b.id.bid = 0 ∧ b.coach = some c ∧ c.ended = false ∧ c.held = none ∧ c.wait = none ∧ c.hold = none
      ∧ (coachTurn 0x05C51983).blockRuns b false = true
      ∧ WordAt (coachTurn 0x05C51983) b.id.core b.id.ctx ((coachTurn 0x05C51983).codeOf b.id.lid) 0 c.off 0x05C51983 ∧ decodeWord 0x05C51983 = .ok i)
    ∧ sc.pass? = some pc ∧ pc.coach = true ∧ s0.pass? = some p0 ∧ p0.coach = false :=
  ⟨⟨_, _, rfl, rfl⟩, ⟨_, _, rfl, rfl⟩, ⟨_, _, rfl, rfl⟩, by decide +kernel, by decide +kernel, prepared (by decide +kernel), prepared (by decide +kernel),
    prepared (by decide +kernel),
    ⟨_, _, _, by decide +kernel, rfl, rfl, by decide +kernel, rfl, rfl, rfl, rfl, rfl, rfl, by decide +kernel⟩,
    fun s hs => by
      obtain rfl | rfl := hs <;> exact
        ⟨_, _, _, _, _, { off := 0, lanes := 0xFFFF, base := 0 }, rfl, by decide +kernel, rfl, rfl, by unfold IdleArm; decide +kernel, by decide +kernel,
          by decide +kernel, rfl, ⟨rfl, by decide +kernel, by decide +kernel, by decide +kernel, by unfold IdleArm; decide +kernel, by decide +kernel⟩,
          by decide +kernel, by decide +kernel,
          ⟨by decide +kernel, by decide +kernel, by decide +kernel, by decide, ⟨255, cached_code (by decide +kernel), by decide +kernel⟩,
            cached_code (by decide +kernel), fun _ => ⟨by decide, .inr ⟨255, cached_code (by decide +kernel), by decide +kernel⟩⟩,
            fun h => absurd h (by decide)⟩, by decide, rfl⟩,
    ⟨coach1, (coach1.coach).getD Coach.blank, .iadd 51 false (.v 20) (.v 46), by decide +kernel, by decide +kernel, by decide +kernel, by decide +kernel, by decide +kernel,
      by decide +kernel, by decide +kernel, by decide +kernel,
      ⟨by decide +kernel, by decide +kernel, by decide +kernel, by decide, ⟨253, cached_code (by decide +kernel), by decide +kernel⟩, cached_code (by decide +kernel),
        fun h => absurd h (by decide), fun _ => ⟨by decide +kernel, ⟨253, cached_code (by decide +kernel), by decide +kernel⟩, cached_code (by decide +kernel)⟩⟩, by decide⟩,
    coach0.1, coach0.2, lane0.1, lane0.2.1⟩
theorem next_of {x : Host.Outcome State Fault Refusal} (h : (match x with | .next _ => true | _ => false) = true) : ∃ t, x = .next t := by
  cases x with
  | next t => exact ⟨t, rfl⟩
  | fault f => simp at h
  | refused r => simp at h
theorem witness_StepKeepsMemoryOk : MemoryOk (State.reset.placeWord 0xF80E) ∧ ∃ t, step (State.reset.placeWord 0xF80E) = .next t :=
  ⟨by unfold MemoryOk; decide +kernel, next_of (by decide +kernel)⟩

/-! ### Preemption -/

def trap0 : Trap := { code := .illegal, cause := .encoding, mask := 0, masked := false, next := false, addr := 0, aux := 0, off := none, race := none }
def heldCoach : Coach := { Coach.blank with held := some trap0 }
/-- No issue open; the coach instance holds a trap, the block has these skeins. -/
def calm : State := homed { State.reset.placeWord 0xF80E with agenda := [] } []
def relaySt (l : List Skein) : State := calm.modBlk 0 fun b => { b with coach := some heldCoach, skeins := l }
def faulted : Skein := { State.slotSkein with arms := [{ Arm.idle with path := some { off := 0, lanes := 0xFFFF, base := 0 }, wait := some (.fault 0 0 0) }] }
def other : Skein := { State.slotSkein with idx := 1 }
theorem witness_Preemption_relayedTrap :
    (∃ b, calm.blk? 0 = some b ∧ b.id.bid = 0 ∧ (b.coach.bind fun c => c.held) = none)
    ∧ (∃ b, (relaySt [{ faulted with life := .retired }]).blk? 0 = some b ∧ b.coach = some heldCoach ∧ State.placedBlk b = true
      ∧ (b.skeins.filter fun k => k.life == .live || k.life == .saved) = [])
    ∧ (∃ b, (relaySt [faulted, other]).blk? 0 = some b ∧ (b.skeins.filter fun k => k.life == .live || k.life == .saved) = [faulted] ++ other :: [] ∧ faulted.onFault = true
      ∧ other.onFault = false ∧ (relaySt [faulted, other]).sk? 0 1 = some other ∧ other.frame = none ∧ other.atBoundary = true ∧ other.defers 0 = false
      ∧ (relaySt [faulted, other]).handler b = some 8)
    ∧ (let k : Skein := { State.slotSkein with frame := some frame0 }
       ∃ b, (relaySt [k]).blk? 0 = some b ∧ (b.skeins.filter fun k => k.life == .live || k.life == .saved) = [] ++ k :: [] ∧ k.onFault = false ∧ (relaySt [k]).sk? 0 0 = some k
        ∧ k.frame ≠ none) :=
  ⟨⟨_, rfl, by decide +kernel, by decide +kernel⟩, ⟨_, rfl, rfl, by decide +kernel, by decide +kernel⟩,
    ⟨_, rfl, rfl, by decide +kernel, by decide +kernel, rfl, rfl, by decide +kernel, by decide +kernel, by decide +kernel⟩, ⟨_, rfl, rfl, by decide +kernel, rfl, by decide⟩⟩
/-- Context 0 on every core of die 0; a launch of context 1 of priority 5 whose first block waits for die 0. -/
def crowd : State :=
  { calm with cores := (List.range 192).map fun g => (g, { Core.init with ctx := some 0 }), time := { calm.time with ns := 50000 },
              ctxs := calm.ctxs ++ calm.ctxs.map fun e => (1, e.2),
              launches := [(0, State.slotLaunch), (1, { State.slotLaunch with lid := 1, ctx := 1, packet := patch [(0, 4, 5 * 2 ^ 13)], shares := [share0 1] })] }
theorem witness_Preemption_priority :
    (∃ l, calm.launch? 0 = some l ∧ calm.victimFor l = none) ∧ ∃ l, crowd.launch? 1 = some l ∧ crowd.victimFor l = some 0 :=
  ⟨⟨_, rfl, by decide +kernel⟩, ⟨_, rfl, by decide +kernel⟩⟩
/-- Context 0 is to be saved, or saved. -/
def savingSt (s : State) (n : Nat) : State := s.modCtx 0 fun x => { x with saved := n }
theorem witness_Preemption_save :
    (∃ x, (savingSt calm 0).ctx? 0 = some x ∧ x.saved ≠ 1)
    ∧ (∃ x b, (savingSt base0 1).ctx? 0 = some x ∧ x.saved = 1 ∧ x.dead = false ∧ x.fatal = none ∧ b ∈ mapVals (savingSt base0 1).blocks ∧ b.id.ctx = 0
      ∧ ∃ k ∈ b.skeins, k.quiet = false)
    ∧ (∃ x, (savingSt { calm with blocks := [] } 1).ctx? 0 = some x ∧ x.saved = 1 ∧ x.dead = false ∧ x.fatal = none
      ∧ ∀ b ∈ mapVals (savingSt { calm with blocks := [] } 1).blocks, b.id.ctx ≠ 0)
    ∧ let s := savingSt calm 1
      ∃ x b, s.ctx? 0 = some x ∧ x.saved = 1 ∧ x.dead = false ∧ x.fatal = none ∧ s.blocks = [(b.id.bid, b)] ∧ b.id.ctx = 0 ∧ State.placedBlk b = true
        ∧ (∀ k ∈ b.skeins, k.quiet = true) ∧ s.mem.reqs = [] ∧ s.trays = [] ∧ (s.core b.id.core).prefs = [] ∧ (∀ e ∈ s.cores, e.2.grants = []) ∧ Core.init.grants = [] ∧ CleanCore s b.id.core :=
  ⟨⟨_, rfl, by decide +kernel⟩, ⟨_, ((savingSt base0 1).blk? 0).getD State.slotBlock, rfl, rfl, rfl, rfl, by decide +kernel, by decide +kernel, by decide +kernel⟩,
    ⟨_, rfl, rfl, rfl, rfl, by decide +kernel⟩,
    ⟨_, ((savingSt calm 1).blk? 0).getD State.slotBlock, rfl, rfl, rfl, rfl, by decide +kernel, by decide +kernel, by decide +kernel, by decide +kernel, by decide +kernel,
      by decide +kernel, by decide +kernel, by decide +kernel, by unfold CleanCore; decide +kernel⟩⟩
theorem witness_Preemption_record : State.slotSkein.frame = none ∧ (∃ a, State.slotSkein.arms = [a] ∧ a.stack.length ≤ 32) ∧ State.slotBlock.id.seq < 2 ^ 48
    ∧ State.slotSkein.idx < 16 ∧ State.slotSkein.role < 4 ∧ 63 < State.slotSkein.win.allot ∧ 31 < 32 ∧ 15 < 16 :=
  ⟨rfl, ⟨_, rfl, by decide⟩, by decide, by decide, by decide, by decide, by decide, by decide⟩
/-- Context 0 saved from core 0 with one block; a region of one block record and one skein record at VA 0. -/
def savedCells (version : Byte) : List Host.Cell :=
  [(0, version), (4, 7), (5, 1), (6, 1), (0x101, 0x10), (0x401, 0x20), (0x100B, 1), (0x2018, 1), (0x201A, 1), (0x3004, 9)]
def savedSt (version : Byte) : State :=
  let s := (homed calm (savedCells version)).modCtx 0 fun x => { x with saved := 2, cores := [0] }
  { s.modBlk 0 fun b => { b with id := { b.id with core := State.away 0 0 } } with cores := [] }
def savedBlk : Block := ((savedSt 1).blk? 0).getD State.slotBlock
def savedO : Origin := unitOrigin 0 0
def headOf : State × Except (Fail × Nat) (List Byte) := ((savedSt 1).refreshMaps 0).hwRead savedO 0 0x1000
def recsOf : State × Except (Cause × Nat) (List (Block × List Byte)) := headOf.1.readBlocks savedO 0 [savedBlk] [0x1000]
def oneRec {α ε : Type} (x : Except ε (List (α × List Byte))) : List Byte := match x with | .ok [(_, r)] => r | _ => []
def twoRec {ε : Type} (x : Except ε (List (Nat × Nat × List Byte))) : List Byte := match x with | .ok [(_, _, r)] => r | _ => []
def rec1 : List Byte := oneRec recsOf.2
def skeinsOf : State × Except (Cause × Nat) (List (Nat × Nat × List Byte)) := recsOf.1.readSkeins savedO 0 [(savedBlk, rec1)] [0x2000]
def rec2 : List Byte := twoRec skeinsOf.2
theorem one_rec {α ε : Type} [DecidableEq α] {x : Except ε (List (α × List Byte))} {a : α}
    (h : (match x with | .ok [(b, _)] => decide (b = a) | _ => false) = true) : x = .ok [(a, oneRec x)] := by
  match x with
  | .error _ => simp at h
  | .ok [] => simp at h
  | .ok [(b, r)] => simp only [decide_eq_true_eq] at h; subst h; rfl
  | .ok (_ :: _ :: _) => simp at h
theorem two_rec {ε : Type} {x : Except ε (List (Nat × Nat × List Byte))} {a c : Nat} (f : List Byte → Bool)
    (h : (match x with | .ok [(b, d, r)] => decide (b = a ∧ d = c) && f r | _ => false) = true) : x = .ok [(a, c, twoRec x)] ∧ f (twoRec x) = true := by
  match x with
  | .error _ => simp at h
  | .ok [] => simp at h
  | .ok [(b, d, r)] =>
    simp only [Bool.and_eq_true, decide_eq_true_eq] at h
    obtain ⟨⟨rfl, rfl⟩, h⟩ := h
    exact ⟨rfl, h⟩
  | .ok (_ :: _ :: _) => simp at h
/-- No core is free. -/
def fullRack : State := { savedSt 1 with cores := (savedSt 1).allCores.map fun g => (g, { Core.init with ctx := some 1 }) }
theorem map_const {α : Type} (l : List Nat) (c d : α) (t : Nat) (h : t ∈ l) : mapGetD (l.map fun g => (g, c)) t d = c := by
  induction l with
  | nil => cases h
  | cons g r ih =>
    simp only [mapGetD, List.map_cons, mapGet] at ih ⊢
    by_cases e : g = t
    · simp [e]
    · simp only [e, if_false]
      exact ih (by simpa [Ne.symm e] using h)
theorem none_free : fullRack.targets 0 [0] [0] [] = none := by
  have h : fullRack.allCores.find? (fun t => fullRack.coreFree t) = none := by
    rw [List.find?_eq_none]
    intro t ht
    have hc : fullRack.core t = { Core.init with ctx := some 1 } := map_const (savedSt 1).allCores _ Core.init t ht
    simp [State.coreFree, hc]
  have hp : (fullRack.blocksOn (State.away 0 (0 / 2 * 2))).any (fun b => b.id.span != 0) = false := by decide +kernel
  have hq : (fullRack.blocksOn (State.away 0 (0 / 2 * 2 + 1))).any (fun b => b.id.span != 0) = false := by decide +kernel
  unfold State.targets
  simp only [hp, hq]
  simp only [Bool.or_self, Bool.false_and, if_false, Bool.false_eq_true, List.contains_nil, Bool.not_false, Bool.and_true, h, Option.bind_none]
theorem witness_Preemption_restore :
    (∃ x, calm.ctx? 0 = some x ∧ x.saved ≠ 2)
    ∧ (∃ x, fullRack.ctx? 0 = some x ∧ x.saved = 2 ∧ x.dead = false ∧ x.fatal = none ∧ fullRack.outranked 0 = false ∧ x.cores = [0])
    ∧ fullRack.targets 0 [0] [0] [] = none
    ∧ (∃ x, (savedSt 2).ctx? 0 = some x ∧ x.saved = 2 ∧ x.dead = false ∧ x.fatal = none ∧ x.d.save = 0) ∧ (savedSt 2).outranked 0 = false
    ∧ (savedSt 2).targets 0 [0] [0] [] = some [(0, 0)] ∧ (∃ h, (((savedSt 2).refreshMaps 0).hwRead savedO 0 0x1000).2 = .ok h ∧ decide (natAt h 0 4 ≠ 1) = true)
    ∧ (∃ x, (savedSt 1).ctx? 0 = some x ∧ x.saved = 2 ∧ x.dead = false ∧ x.fatal = none ∧ x.d.save = 0 ∧ x.cores = [0] ∧ x.replies = [])
    ∧ (savedSt 1).outranked 0 = false ∧ (savedSt 1).targets 0 [0] [0] [] = some [(0, 0)] ∧ (savedSt 1).blk? savedBlk.id.bid = some savedBlk
    ∧ (savedSt 1).blocksOn (State.away 0 0) = [savedBlk] ∧ (∃ k, savedBlk.skeins = [k] ∧ k.frame = none ∧ k.idx = 0)
    ∧ ((savedSt 1).core (State.away 0 0)).grants = [] ∧ ((savedSt 1).core 0).grants = []
    ∧ (∃ h, headOf.2 = .ok h ∧ decide (natAt h 0 4 = 1 ∧ natAt h 4 1 = 7 ∧ natAt h 5 1 = 1 ∧ natAt h 0x100 8 = 0x1000
      ∧ ((List.range (natAt h 6 1)).map fun i => natAt h (0x400 + 4 * i) 4) = [0x2000]) = true)
    ∧ natAt rec1 0xB 1 = 1 ∧ recsOf.2 = .ok [(savedBlk, rec1)] ∧ skeinsOf.2 = .ok [(savedBlk.id.bid, 0, rec2)] ∧ decide (0 < natAt rec2 0x18 2 ∧ natAt rec2 0x1004 4 = 9) = true :=
  ⟨⟨_, rfl, by decide +kernel⟩, ⟨_, rfl, rfl, rfl, rfl, by decide +kernel, rfl⟩, none_free, ⟨_, rfl, rfl, rfl, rfl, rfl⟩, by decide +kernel, by decide +kernel,
    answered (fun h => decide (natAt h 0 4 ≠ 1)) (by decide +kernel), ⟨_, rfl, rfl, rfl, rfl, rfl, rfl, rfl⟩, by decide +kernel, by decide +kernel, by decide +kernel,
    by decide +kernel, ⟨_, rfl, rfl, rfl⟩, by decide +kernel, by decide +kernel,
    answered (fun h => decide (natAt h 0 4 = 1 ∧ natAt h 4 1 = 7 ∧ natAt h 5 1 = 1 ∧ natAt h 0x100 8 = 0x1000
      ∧ ((List.range (natAt h 6 1)).map fun i => natAt h (0x400 + 4 * i) 4) = [0x2000])) (by decide +kernel),
    by decide +kernel, one_rec (by decide +kernel), two_rec (fun r => decide (0 < natAt r 0x18 2 ∧ natAt r 0x1004 4 = 9)) (by decide +kernel)⟩
/-- The block has stood for 2 ms. -/
def warm : State := { calm with time := { calm.time with ns := 2000000 } }
def warmBlk : Block := (warm.blk? 0).getD State.slotBlock
/-- The same with an instruction of the block in progress. -/
def busy : State := warm.modArm 0 0 0 fun a => { a with issue := some (issueOf 0xFFFF) }
def busyBlk : Block := (busy.blk? 0).getD State.slotBlock
theorem witness_Preemption_thermal :
    (let s := { calm with launches := [(0, { State.slotLaunch with packet := patch [(0, 4, 2 ^ 17)] })] }
     ∃ b ∈ s.blocksOn 0, ∃ l, s.launch? b.id.lid = some l ∧ l.exempt = true)
    ∧ (∀ b ∈ calm.blocksOn 0, b.placed + 2000000 > calm.time.ns)
    ∧ (busy.blocksOn 0 = [busyBlk] ∧ busy.blk? busyBlk.id.bid = some busyBlk ∧ busyBlk.id.core = 0 ∧ busyBlk.id.partner = none
      ∧ (busy.launch? busyBlk.id.lid).all (fun l => !l.exempt) = true ∧ ∃ k ∈ busyBlk.skeins, k.quiet = false)
    ∧ (busy.modCore 0 fun c => { c with temp := Config.shedAt (State.pkgOf 0) }).canShed busyBlk = true
    ∧ let hot := warm.modCore 0 fun c => { c with temp := Config.shedAt (State.pkgOf 0) }
      (Config.shedAt (State.pkgOf 0) ≤ Config.shedAt (State.pkgOf 0) ∧ warm.blocksOn 0 = [warmBlk] ∧ warm.blk? warmBlk.id.bid = some warmBlk ∧ warmBlk.id.core = 0 ∧ warmBlk.id.partner = none
        ∧ (∃ l, warm.launch? warmBlk.id.lid = some l ∧ l.exempt = false) ∧ hot.canShed warmBlk = true ∧ (∀ k ∈ warmBlk.skeins, k.quiet = true)
        ∧ warm.mem.reqs = [] ∧ warm.trays = [] ∧ 0 < State.nowhere
        ∧ (warm.core 0).prefs = [] ∧ (warm.core 0).grants = [] ∧ (warm.core 1).grants = [] ∧ CleanCore warm 0 ∧ warm.blocksOn (State.away warmBlk.id.ctx 0) = []
        ∧ hot.coolest [warmBlk] (warm.allCores.filter fun g => State.pkgOf g == State.pkgOf 0) = some 1) :=
  ⟨⟨State.slotBlock, by decide +kernel, _, rfl, by decide +kernel⟩, by decide +kernel, by decide +kernel, by decide +kernel,
    ⟨le_refl _, by decide +kernel, by decide +kernel, by decide +kernel, by decide +kernel, ⟨_, rfl, by decide +kernel⟩,
    by decide +kernel, by decide +kernel, by decide +kernel, by decide +kernel, by decide, by decide +kernel, by decide +kernel, by decide +kernel,
    by unfold CleanCore; decide +kernel, by decide +kernel, by decide +kernel⟩⟩
/-- Block 0 asks for more than core 0 has; block 1, with the skein `k`, holds some and asks too. -/
def wantSt (tiles run : Bool) (k : Skein) : State :=
  let s := calm.modCore 0 fun c => { c with grants := [{ who := .skein 0 0 0, bid := 0, sk := 0, tiles := tiles, amount := 12289, parked := true },
    { who := .skein 1 0 0, bid := 1, sk := 0, tiles := tiles, amount := 1, parked := true }], mq := if run then [{ cmd0 with bid := 1, state := 1 }] else [] }
  { s with blocks := mapSet s.blocks 1 { State.slotBlock with id := { State.slotBlock.id with bid := 1, idx := 1 }, ntiles := 3, skeins := [k] } }
def issuing : Skein := { State.slotSkein with arms := [{ Arm.idle with path := some { off := 0, lanes := 0xFFFF, base := 0 }, issue := some (issueOf 0xFFFF) }] }
def Asked (s : State) (tiles : Bool) (h : Block) : Prop := s.evictee 0 tiles = some h ∧ s.blk? h.id.bid = some h
theorem asked_of {s : State} {tiles : Bool} (h : decide (s.evictee 0 tiles = s.blk? 1 ∧ ((s.blk? 1).map (·.id.bid) = some 1)) = true) :
    ∃ b, Asked s tiles b ∧ s.blk? 1 = some b := by
  obtain ⟨h1, h2⟩ := of_decide_eq_true h
  cases hb : s.blk? 1 with
  | none => simp [hb] at h2
  | some b =>
    simp only [hb, Option.map_some, Option.some.injEq] at h1 h2
    exact ⟨b, ⟨h1, by rw [h2]; exact hb⟩, rfl⟩
theorem witness_Preemption_eviction :
    calm.evictee 0 true = none
    ∧ (∃ b, Asked (wantSt true true issuing) true b ∧ (wantSt true true issuing).blk? 1 = some b) ∧ (∃ m ∈ ((wantSt true true issuing).core 0).mq, m.bid = 1 ∧ m.state = 1)
    ∧ (∃ b, Asked (wantSt true false issuing) true b ∧ (wantSt true false issuing).blk? 1 = some b) ∧ ((wantSt true false issuing).core 0).mq = []
    ∧ (∃ b, Asked (wantSt false false issuing) false b ∧ (wantSt false false issuing).blk? 1 = some b) ∧ issuing.quiet = false
    ∧ (∃ b, Asked (wantSt false false other) false b ∧ (wantSt false false other).blk? 1 = some b) ∧ other.quiet = true ∧ heldRegs other ≠ 0
    ∧ ∀ tiles, (wantSt tiles false other).mem.reqs = [] ∧ (wantSt tiles false other).trays = [] ∧ ((wantSt tiles false other).core 0).prefs = []
      ∧ CleanCore (wantSt tiles false other) 0 :=
  ⟨by decide +kernel, asked_of (by decide +kernel), by decide +kernel, asked_of (by decide +kernel), by decide +kernel, asked_of (by decide +kernel), by decide +kernel,
    asked_of (by decide +kernel), by decide +kernel, by decide +kernel, by unfold CleanCore; decide +kernel⟩

end Sys2Proof.Tests
end

section
/-! PROOFS. Counters of events and packets on links change no other part of the state (R305, R324). -/

namespace Sys2Proof.Machine.State

/-! ### Counters -/

theorem countAt_eq (s : State) (base n src ctx by_ : Nat) : ∃ e, s.countAt base n src ctx by_ = { s with events := e } := by
  unfold countAt
  induction n with
  | zero => exact ⟨s.events, rfl⟩
  | succ n ih =>
    obtain ⟨e, he⟩ := ih
    rw [List.range_succ, List.foldl_append, he]
    simp only [List.foldl_cons, List.foldl_nil]
    split
    · exact ⟨_, rfl⟩
    · exact ⟨e, rfl⟩
theorem countDie_eq (s : State) (d src ctx by_ : Nat) : ∃ e, s.countDie d src ctx by_ = { s with events := e } := by
  unfold countDie
  split
  · exact ⟨s.events, rfl⟩
  · exact countAt_eq s _ _ _ _ _
theorem countPkg_eq (s : State) (p src ctx by_ : Nat) : ∃ e, s.countPkg p src ctx by_ = { s with events := e } := by
  unfold countPkg
  split
  · exact ⟨s.events, rfl⟩
  · exact countAt_eq s _ _ _ _ _
@[simp] theorem countDie_mem (s : State) (d src ctx by_ : Nat) : (s.countDie d src ctx by_).mem = s.mem := by
  obtain ⟨e, h⟩ := countDie_eq s d src ctx by_; rw [h]
@[simp] theorem countDie_die (s : State) (d src ctx by_ g : Nat) : (s.countDie d src ctx by_).die g = s.die g := by
  obtain ⟨e, h⟩ := countDie_eq s d src ctx by_; rw [h]; rfl
@[simp] theorem countPkg_mem (s : State) (p src ctx by_ : Nat) : (s.countPkg p src ctx by_).mem = s.mem := by
  obtain ⟨e, h⟩ := countPkg_eq s p src ctx by_; rw [h]
@[simp] theorem countPkg_chans (s : State) (p src ctx by_ : Nat) : (s.countPkg p src ctx by_).chans = s.chans := by
  obtain ⟨e, h⟩ := countPkg_eq s p src ctx by_; rw [h]
@[simp] theorem countPkg_chan (s : State) (p src ctx by_ c : Nat) : (s.countPkg p src ctx by_).chan c = s.chan c := by simp [chan]

/-! ### Packets -/

theorem putOut_eq (s : State) (link : Nat) (fs : List (List Byte)) : ∃ p e, s.putOut link fs = { s with ports := p, events := e } := by
  obtain ⟨e, h⟩ := countPkg_eq (s.modPort link fun p => { p with sent := p.sent ++ fs }) (linkPkg link) 0x06 4096 fs.length
  exact ⟨_, e, h⟩
theorem sendFlit_eq (s : State) (link typ : Nat) (payload : List Byte) :
    ∃ p e, s.sendFlit link typ payload = { s with ports := p, events := e } := by
  unfold sendFlit
  dsimp only
  split
  · exact ⟨_, s.events, rfl⟩
  · obtain ⟨p, e, h⟩ := putOut_eq (s.modPort link _) link [_]
    exact ⟨p, e, h⟩
/-- A packet of one flit takes free values for its payload (log 29). -/
theorem sendSolo_eq (s : State) (link : Nat) :
    ∃ p e f, s.sendSolo link = { s with ports := p, events := e, fresh := { s.fresh with free := f } } := by
  obtain ⟨p, e, h⟩ := sendFlit_eq s link 4 (withTag ((List.range 56).map fun i => Config.freeByte (s.fresh.free + i)))
  exact ⟨p, e, s.fresh.free + 56, by rw [sendSolo, h]; rfl⟩

end Sys2Proof.Machine.State
end

section
/-! PROOFS. Updates combined in tray switches (R313), and holding buffers that spill (R279). -/

namespace Sys2Proof.Machine

namespace State

/-! ### A request joins a partial -/

@[simp] theorem combineReq_mem (s : State) (q : Req) :
    (s.combineReq q).mem = { s.mem with reqs := s.mem.reqs.filter fun x => x.rid != q.rid } := rfl
/-- The partials of a tray after an update of another context, word or operation than each of them. -/
theorem addPartial_opens (s : State) (t c va op v : Nat) (froms : List Issuer)
    (h : ∀ y ∈ (s.tray t).parts, y.ctx ≠ c ∨ y.va ≠ va ∨ y.op ≠ op) :
    ((s.addPartial t c va op v froms).tray t).parts = (s.tray t).parts
      ++ [{ ctx := c, va := va, op := op, value := BitVec.ofNat 64 v, count := 1, first := s.time.ns, froms := froms }] := by
  have apart : ((s.tray t).parts.any fun q => q.ctx == c && q.va == va && q.op == op) = false := by
    rw [List.any_eq_false]
    intro y hy
    have := h y hy
    simp only [Bool.and_eq_true, beq_iff_eq]
    tauto
  simp only [addPartial, modTray_tray, apart, Bool.false_eq_true, if_false]
/-- The partials of a tray after an update of the context, word and operation of one of them. -/
theorem addPartial_merges (s : State) (t c va op v : Nat) (froms : List Issuer) (l r : List Partial) (y : Partial)
    (h : (s.tray t).parts = l ++ y :: r) (hc : y.ctx = c) (hv : y.va = va) (ho : y.op = op)
    (hz : ∀ z ∈ l ++ r, z.ctx ≠ c ∨ z.va ≠ va ∨ z.op ≠ op) :
    ((s.addPartial t c va op v froms).tray t).parts = l
      ++ { y with value := BitVec.ofNat 64 (atomOf (atomFrom op) y.value.toNat v), count := y.count + 1, froms := y.froms ++ froms } :: r := by
  have other : ∀ z ∈ l ++ r, (z.ctx == c && z.va == va && z.op == op) = false := by
    intro z hm
    have := hz z hm
    simp only [Bool.eq_false_iff, ne_eq, Bool.and_eq_true, beq_iff_eq]
    tauto
  have kept (m : List Partial) (f : Partial → Partial) (hm : ∀ z ∈ m, z ∈ l ++ r) :
      (m.map fun z => if z.ctx == c && z.va == va && z.op == op then f z else z) = m := by
    rw [List.map_congr_left (g := id) fun z h => by rw [other z (hm z h)]; rfl, List.map_id]
  have here : (y.ctx == c && y.va == va && y.op == op) = true := by simp [hc, hv, ho]
  simp only [addPartial, modTray_tray, h, List.any_append, List.any_cons, here, Bool.true_or, Bool.or_true, if_true, List.map_append,
    List.map_cons]
  rw [kept l _ fun z h => List.mem_append_left r h, kept r _ fun z h => List.mem_append_right l h]
theorem redCombine_combines (s : State) (q : Req) (h : ReqPending s q) (hk : q.kind = 2) (hw : s.inWindow (q.pkg / 4) q.ctx q.va = true) :
    exec (.redCombine q.rid) s = .next (s.combineReq q) := by
  obtain ⟨hf, h0⟩ := h
  show execRedCombine q.rid s = _
  simp [execRedCombine, hf, hk, h0, show s.inWindow (q.pkg / Config.perTray) q.ctx q.va = true from hw]

/-! ### A partial leaves -/

/-- A partial that leaves is one request more, and one partial fewer in its tray. -/
theorem forward_eq (s : State) (t : Nat) (q : Partial) :
    (s.forward t q).mem = { s.mem with reqs := s.mem.reqs ++ [partialReq s t q] }
      ∧ ((s.forward t q).tray t).parts = (s.tray t).parts.erase q := by
  let u := s.modTray t fun x => { x with parts := x.parts.erase q }
  obtain ⟨p, e, f, h⟩ := sendSolo_eq u (u.switchPort t q.va (u.homePkg q.ctx q.va))
  have sent : s.forward t q = ({ u with ports := p, events := e, fresh := { u.fresh with free := f } } : State).pushReq (partialReq s t q) := by
    rw [← h]; rfl
  rw [sent]
  exact ⟨rfl, by show (u.tray t).parts = _; simp [u]⟩
theorem forwardIf_eq (s : State) (idx tr : Nat) (y : Partial) (f : Partial → Bool) (h : s.partials[idx]? = some (tr, y)) :
    s.forwardIf idx f = if f y = true then s.forward tr y else s := by simp only [forwardIf, h]
theorem combineCount_full (s : State) (idx tr : Nat) (y : Partial) (h : s.partials[idx]? = some (tr, y)) (hc : 64 ≤ y.count) :
    exec (.combineCount idx) s = .next (s.forward tr y) := by
  show execCombineCount idx s = _
  simp [execCombineCount, forwardIf_eq s idx tr y _ h, hc]
theorem combineCount_few (s : State) (idx tr : Nat) (y : Partial) (h : s.partials[idx]? = some (tr, y)) (hc : y.count < 64) :
    exec (.combineCount idx) s = .next s := by
  show execCombineCount idx s = _
  simp [execCombineCount, forwardIf_eq s idx tr y _ h, show ¬64 ≤ y.count by omega]
theorem combineTimer_late (s : State) (idx tr : Nat) (y : Partial) (h : s.partials[idx]? = some (tr, y)) (ht : y.first + 1000 ≤ s.time.ns) :
    exec (.combineTimer idx) s = .next (s.forward tr y) := by
  show execCombineTimer idx s = _
  simp [execCombineTimer, forwardIf_eq s idx tr y _ h, ht]
theorem combineTimer_early (s : State) (idx tr : Nat) (y : Partial) (h : s.partials[idx]? = some (tr, y)) (ht : s.time.ns < y.first + 1000) :
    exec (.combineTimer idx) s = .next s := by
  show execCombineTimer idx s = _
  simp [execCombineTimer, forwardIf_eq s idx tr y _ h, show ¬y.first + 1000 ≤ s.time.ns by omega]

/-! ### A holding buffer spills -/

theorem holdingBufferSpill_short (s : State) (line : Nat) (h : (s.bufferOf line).length < 17) : exec (.holdingBufferSpill line) s = .next s := by
  show execHoldingBufferSpill line s = _
  have absent : (s.mem.held.find? fun x => x.line == line && !x.spilled && decide (17 ≤ (s.bufferOf line).length)) = none := by
    simp [show ¬17 ≤ (s.bufferOf line).length by omega]
  simp only [execHoldingBufferSpill, absent]
theorem holdingBufferSpill_full (s : State) (line : Nat) (h : 17 ≤ (s.bufferOf line).length) :
    exec (.holdingBufferSpill line) s = .next (s.spillLine line) := by
  show execHoldingBufferSpill line s = _
  obtain ⟨x, hx⟩ := List.exists_mem_of_length_pos (show 0 < (s.bufferOf line).length by omega)
  have hm := List.mem_filter.mp hx
  have found : (s.mem.held.find? fun x => x.line == line && !x.spilled && decide (17 ≤ (s.bufferOf line).length)).isSome = true := by
    rw [List.find?_isSome]
    exact ⟨x, hm.1, by simpa [h] using hm.2⟩
  obtain ⟨z, hz⟩ := Option.isSome_iff_exists.mp found
  simp only [execHoldingBufferSpill, hz]
theorem spillLine_mem (s : State) (line : Nat) :
    (s.spillLine line).mem = { s.mem with held := s.mem.held.map fun x => if x.line = line then { x with spilled := true } else x } := by
  simp [spillLine]
theorem spillLine_spills (s : State) (line : Nat) :
    ((s.spillLine line).die (chanDie (line / 2 ^ 24))).spills = (s.die (chanDie (line / 2 ^ 24))).spills + (s.bufferOf line).length := by
  simp only [spillLine, countDie_die, modDie_die]; rfl

end State
end Sys2Proof.Machine
end

section
/-! PROOFS. Memory controllers (R175-R177): scrubbing, refresh and the lending of lanes. -/

namespace Sys2Proof.Machine

theorem mem_listInsertNat (l : List Nat) (n g : Nat) : g ∈ listInsertNat l n ↔ g = n ∨ g ∈ l := by
  induction l with
  | nil => simp [listInsertNat]
  | cons m l ih =>
    simp only [listInsertNat]
    split
    · subst m; simp
    · split
      · simp
      · simp only [List.mem_cons, ih]; tauto

namespace State

@[simp] theorem setPoison_chan (s : State) (gran : Nat) (on : Bool) (c : Nat) : (s.setPoison gran on).chan c = s.chan c := rfl

/-! ### A channel that the variant lacks -/

theorem scrub_absent (s : State) (gran err : Nat) (h : s.chanThere (gran / 2 ^ 26) = false) : exec (.scrub gran err) s = .next s := by
  show execScrub gran err s = _
  simp only [execScrub, h, Bool.not_false, if_true]
theorem refresh_absent (s : State) (ch kind : Nat) (h : s.chanThere ch = false) : exec (.refresh ch kind) s = .next s := by
  show execRefresh ch kind s = _
  simp [execRefresh, h]
theorem laneLending_absent (s : State) (ch : Nat) (h : s.chanThere ch = false) : exec (.laneLending ch) s = .next s := by
  show execLaneLending ch s = _
  simp [execLaneLending, h]

/-! ### Scrubbing (R177) -/

/-- The scrubber of a granule's channel stands at the granule. -/
def scrubbed (s : State) (gran : Nat) : State := s.modChan (gran / 2 ^ 26) fun c => { c with scrub := gran % 2 ^ 26 }
/-- What an uncorrectable error of a granule poisons: the granule, and the swatch line whose slot it lies in (log 28). -/
def scrubPoison (s : State) (gran : Nat) : State :=
  let t := s.setPoison gran true
  match (t.mem.lines.filter fun y => y.gran == gran / 2048)[gran % 2048 / 4]? with
  | none => t
  | some l => { t with mem := { t.mem with lines := t.mem.lines.map fun y => if y = l then { y with bad := true } else y } }

theorem scrub_clean (s : State) (gran : Nat) (h : s.chanThere (gran / 2 ^ 26) = true) : exec (.scrub gran 0) s = .next (s.scrubbed gran) := by
  show execScrub gran 0 s = _
  simp only [execScrub, h, Bool.not_true, Bool.false_eq_true, if_false, scrubbed]
theorem scrub_corrected (s : State) (gran : Nat) (h : s.chanThere (gran / 2 ^ 26) = true) :
    exec (.scrub gran 1) s = .next ((s.scrubbed gran).countPkg (chanPkg (gran / 2 ^ 26)) 0x03 4096) := by
  show execScrub gran 1 s = _
  simp only [execScrub, h, Bool.not_true, Bool.false_eq_true, if_false, scrubbed]
theorem scrub_uncorrectable (s : State) (gran err : Nat) (h : s.chanThere (gran / 2 ^ 26) = true) (he : 2 ≤ err) :
    exec (.scrub gran err) s = .next (((s.scrubbed gran).countPkg (chanPkg (gran / 2 ^ 26)) 0x04 4096).scrubPoison gran) := by
  obtain ⟨n, rfl⟩ : ∃ n, err = n + 2 := ⟨err - 2, by omega⟩
  show execScrub gran (n + 2) s = _
  simp only [execScrub, h, Bool.not_true, Bool.false_eq_true, if_false]
  rfl
@[simp] theorem scrubbed_mem (s : State) (gran : Nat) : (s.scrubbed gran).mem = s.mem := rfl
@[simp] theorem scrubbed_chan (s : State) (gran : Nat) :
    (s.scrubbed gran).chan (gran / 2 ^ 26) = { s.chan (gran / 2 ^ 26) with scrub := gran % 2 ^ 26 } := modChan_chan s _ _
@[simp] theorem scrubPoison_chan (s : State) (gran c : Nat) : (s.scrubPoison gran).chan c = s.chan c := by
  unfold scrubPoison; dsimp only; split <;> rfl
@[simp] theorem scrubPoison_bytes (s : State) (gran : Nat) : (s.scrubPoison gran).mem.bytes = s.mem.bytes := by
  unfold scrubPoison; dsimp only; split <;> rfl
theorem mem_scrubPoison (s : State) (gran g : Nat) : g ∈ (s.scrubPoison gran).mem.poison ↔ g = gran ∨ g ∈ s.mem.poison := by
  have : (s.scrubPoison gran).mem.poison = listInsertNat s.mem.poison gran := by
    unfold scrubPoison; dsimp only; split <;> rfl
  rw [this, mem_listInsertNat]

/-! ### Refresh (R175) -/

theorem refresh_initialises (s : State) (ch : Nat) (h : s.chanThere ch = true) :
    exec (.refresh ch 0) s = .next (s.modChan ch fun c => { c with inited := true, selfRef := false }) := by
  show execRefresh ch 0 s = _
  simp [execRefresh, h]
theorem refresh_sleeps (s : State) (ch : Nat) (h : s.chanThere ch = true) :
    exec (.refresh ch 3) s = .next (s.modChan ch fun c => { c with selfRef := true }) := by
  show execRefresh ch 3 s = _
  simp [execRefresh, h]
theorem refresh_wakes (s : State) (ch kind : Nat) (h : s.chanThere ch = true) (h0 : kind ≠ 0) (h3 : kind ≠ 3) :
    exec (.refresh ch kind) s = .next (s.modChan ch fun c => { c with selfRef := false }) := by
  show execRefresh ch kind s = _
  simp only [execRefresh, h, Bool.not_true, Bool.false_eq_true, if_false]

/-! ### Lane lending (R176; log 70) -/

theorem pairOf_eq (ch far : Nat) (h : far / 2 = ch / 2) (hn : far ≠ ch) : pairOf ch = far := by
  unfold pairOf; split <;> omega
theorem homesPinned_false (s : State) (ch : Nat) : s.homesPinned ch = false ↔ ∀ l ∈ (s.chan ch).leaves, l.pinned = false := by
  simp [homesPinned]
/-- When a channel lends its lanes to its partner. -/
def Lends (s : State) (ch far : Nat) : Prop :=
  s.chanThere ch = true ∧ (s.chan ch).lend = 0 ∧ (s.chan far).lend = 0 ∧ (s.chan ch).last + 6000 ≤ s.time.clk
    ∧ (∀ l ∈ (s.chan ch).leaves, l.pinned = false) ∧ ∀ l ∈ (s.chan far).leaves, l.pinned = false
theorem laneLending_lends (s : State) (ch far : Nat) (h : far / 2 = ch / 2) (hn : far ≠ ch) (hl : s.Lends ch far) :
    exec (.laneLending ch) s =
      .next ((s.modChan ch fun c => { c with lend := 1, until_ := s.time.clk + 1200 }).countPkg (chanPkg ch) 0x05 4096) := by
  show execLaneLending ch s = _
  simp only [execLaneLending, pairOf_eq ch far h hn, homesPinned_false]
  exact congrArg _ (if_pos hl)
theorem laneLending_stays (s : State) (ch far : Nat) (h : far / 2 = ch / 2) (hn : far ≠ ch) (hl : ¬s.Lends ch far) :
    exec (.laneLending ch) s = .next s := by
  show execLaneLending ch s = _
  simp only [execLaneLending, pairOf_eq ch far h hn, homesPinned_false]
  exact congrArg _ (if_neg hl)
theorem lendingHandshakeEnd_lent (s : State) (ch : Nat) (h : (s.chan ch).lend = 1) (hu : (s.chan ch).last + 1200 < (s.chan ch).until_) :
    exec (.lendingHandshakeEnd ch) s = .next (s.modChan ch fun c => { c with lend := 2 }) := by
  show execLendingHandshakeEnd ch s = _
  simp [execLendingHandshakeEnd, h, show ¬(s.chan ch).until_ ≤ (s.chan ch).last + 1200 by omega]
/-- A request that arrived within the handshake: the lanes that were lent are reclaimed at once. -/
theorem lendingHandshakeEnd_reclaims (s : State) (ch : Nat) (h : (s.chan ch).lend = 1) (hu : (s.chan ch).until_ ≤ (s.chan ch).last + 1200) :
    exec (.lendingHandshakeEnd ch) s =
      .next (((s.modChan ch fun c => { c with lend := 2 }).modChan ch fun c => { c with lend := 3 }).countPkg (chanPkg ch) 0x05 4096) := by
  show execLendingHandshakeEnd ch s = _
  simp [execLendingHandshakeEnd, h, hu, reclaim]
theorem lendingHandshakeEnd_returned (s : State) (ch : Nat) (h : (s.chan ch).lend = 3) :
    exec (.lendingHandshakeEnd ch) s = .next (s.modChan ch fun c => { c with lend := 0 }) := by
  show execLendingHandshakeEnd ch s = _
  simp [execLendingHandshakeEnd, h]
theorem lendingHandshakeEnd_none (s : State) (ch : Nat) (h1 : (s.chan ch).lend ≠ 1) (h3 : (s.chan ch).lend ≠ 3) :
    exec (.lendingHandshakeEnd ch) s = .next s := by
  show execLendingHandshakeEnd ch s = _
  simp only [execLendingHandshakeEnd]

end State
end Sys2Proof.Machine
end

section
/-! PROOFS. A core's monitors, gating and hang timer (R261-R263). -/

namespace Sys2Proof.Machine

/-! ### Waits that end -/

namespace State

/-- Launches, records and the hang timers of cores are as they were. -/
structure RecordsKept (s t : State) : Prop where
  launches : t.launches = s.launches
  recs : t.mem.recs = s.mem.recs
  hangAt : ∀ g, (t.core g).hangAt = (s.core g).hangAt
theorem RecordsKept.handler {s t : State} (h : s.RecordsKept t) (b : Block) : t.handler b = s.handler b := by
  simp [State.handler, launch?, h.launches]
/-- What ending an issuer's waits leaves. -/
structure WaitsEnded (s t : State) : Prop extends RecordsKept s t where
  blocks : t.blocks = s.blocks
theorem WaitsEnded.refl (s : State) : s.WaitsEnded s := ⟨⟨rfl, rfl, fun _ => rfl⟩, rfl⟩
theorem WaitsEnded.trans {s t u : State} (h : s.WaitsEnded t) (g : t.WaitsEnded u) : s.WaitsEnded u :=
  ⟨⟨g.launches.trans h.launches, g.recs.trans h.recs, fun i => (g.hangAt i).trans (h.hangAt i)⟩, g.blocks.trans h.blocks⟩
theorem WaitsEnded.sk {s t : State} (h : s.WaitsEnded t) (b i : Nat) : t.sk? b i = s.sk? b i := by simp [sk?, blk?, h.blocks]
theorem modCore_hangAt (s : State) (g i : Nat) (f : Core → Core) (h : ∀ c, (f c).hangAt = c.hangAt) :
    ((s.modCore g f).core i).hangAt = (s.core i).hangAt := by
  by_cases e : i = g
  · subst e; simp [h]
  · rw [modCore_core_other s g i f e]
theorem endWait_ended (s : State) (g : Nat) (w : Who) (wait : Wait) : s.WaitsEnded (s.endWait g w wait) := by
  have woken : s.WaitsEnded (if (s.core g).mons.length < 16 then s else s.wake) := by
    split
    · exact .refl s
    · exact ⟨⟨rfl, rfl, fun _ => rfl⟩, rfl⟩
  refine woken.trans ⟨⟨rfl, rfl, fun i => ?_⟩, rfl⟩
  unfold endWait
  exact modCore_hangAt _ g i _ fun c => rfl
theorem endWaits_ended (s : State) (b : Block) (i : Nat) (k : Skein) : s.WaitsEnded (s.endWaits b i k) := by
  unfold endWaits
  induction List.range k.arms.length generalizing s with
  | nil => exact .refl s
  | cons a l ih =>
    rw [List.foldl_cons]
    refine WaitsEnded.trans ?_ (ih _)
    cases (k.arm a).wait with
    | none => exact .refl s
    | some w => exact endWait_ended s b.id.core (.skein b.id.bid i a) w

end State

/-- A skein whose waits were abandoned (R42). -/
def Skein.freed (k : Skein) : Skein :=
  { k with arms := k.arms.map fun a => { a with wait := none, hold := if a.hold = some (2 ^ 32) then none else a.hold } }

namespace State

@[simp] theorem leaveBars_sk (s : State) (b i c j : Nat) : (s.leaveBars b i).sk? c j = s.sk? c j := by
  by_cases h : c = b
  · subst h; simp only [sk?, leaveBars, modBlk_blk]; cases s.blk? c <;> rfl
  · simp only [sk?, leaveBars, modBlk_blk_other s b c _ h]
theorem abandon_eq (s : State) (b : Block) (i : Nat) (k : Skein) (hs : s.sk? b.id.bid i = some k) (hb : s.blk? b.id.bid = some b) :
    s.abandon b.id.bid i = ((s.endWaits b i k).leaveBars b.id.bid i).modSk b.id.bid i Skein.freed := by
  simp only [abandon, hs, hb]; rfl
theorem abandon_kept (s : State) (b : Block) (i : Nat) (k : Skein) (hs : s.sk? b.id.bid i = some k) (hb : s.blk? b.id.bid = some b) :
    s.RecordsKept (s.abandon b.id.bid i) := by
  have ended := endWaits_ended s b i k
  rw [abandon_eq s b i k hs hb]
  exact ⟨ended.launches, ended.recs, ended.hangAt⟩
theorem abandon_sk (s : State) (b : Block) (i : Nat) (k : Skein) (hs : s.sk? b.id.bid i = some k) (hb : s.blk? b.id.bid = some b) :
    (s.abandon b.id.bid i).sk? b.id.bid i = some k.freed := by
  rw [abandon_eq s b i k hs hb, modSk_sk, leaveBars_sk, (endWaits_ended s b i k).sk, hs]; rfl

/-! ### A trap that is taken (R289) -/

theorem trapSkein_enters (s : State) (b : Block) (i : Nat) (k : Skein) (t : Trap) (plane cls ai off : Nat) (coach : Bool) (em pl : Lanes) (te : Nat)
    (hf : k.frame = none) (hd : k.defers ai = false) (hh : s.handler b = some te) :
    s.trapSkein b i k t plane cls ai off coach em pl =
      (s.endWaits b i k).modSk b.id.bid i fun k => k.enterTrap te t plane cls ai off s.time.ns coach em pl := by
  simp [trapSkein, Skein.trapMode, hf, hd, hh]
theorem record1_code (t : Trap) (plane cls arm off : Nat) (coach : Bool) : (record1 t plane cls arm off coach).toNat % 2 ^ 8 = t.code.code % 2 ^ 8 := by
  simp only [record1, BitVec.toNat_ofNat]; omega

end State

theorem trapRegs_record1 (ks : NMap W64) (region : Nat) (t : Trap) (plane cls arm off time : Nat) (coach : Bool) :
    mapGetD (trapRegs ks region t plane cls arm off time coach) 1 0 = State.record1 t plane cls arm off coach := by
  simp [trapRegs, mapGetD_set]
theorem natAt_recordBytes_kind (kind cause flags off time seq sk blk mask loc aux va aux2 ctx : Nat) :
    natAt (recordBytes kind cause flags off time seq sk blk mask loc aux va aux2 ctx) 0 1 = kind % 256 := by
  simp [natAt, slice, recordBytes, leBytes, leNat]

/-! ### Hangs (R263) -/

/-- HANG, as a parked skein takes it. -/
def hangTrap (em : Lanes) : Trap :=
  { code := .hang, cause := .none, mask := em, masked := false, next := false, addr := 0, aux := 0, off := none, race := none }
/-- A block's first skein stands in the handler that starts at `te`, its trap record of code HANG; its report waits. -/
structure HangTaken (s t : State) (b : Block) (k : Skein) (te : Nat) : Prop where
  hangAt : ∀ g, (t.core g).hangAt = (s.core g).hangAt
  entered : ∃ k' y, t.sk? b.id.bid 0 = some k' ∧ k'.frame ≠ none ∧ k'.arms = [y] ∧ (mapGetD y.ks 1 0).toNat % 2 ^ 8 = 0x17
    ∧ y.path = some { off := te, lanes := k.live, base := k.win.base }
  reported : ∃ r, r ∈ t.mem.recs ∧ r.ctx = some b.id.ctx ∧ r.fault = false ∧ natAt r.bytes 0 1 = 0x17

namespace State

theorem hangSkein_eq (s : State) (b : Block) (k : Skein) : ∃ rec plane ai off em path, natAt rec 0 1 = 0x17
    ∧ s.hangSkein b k = ((s.report (some b.id.ctx) false rec).abandon b.id.bid k.idx).trapSkein b k.idx k (hangTrap em) plane 0 ai off false em path :=
  ⟨_, _, _, _, _, _, natAt_recordBytes_kind 0x17 _ _ _ _ _ _ _ _ _ _ _ _ _, rfl⟩
theorem hangSkein_taken (s : State) (b : Block) (k : Skein) (te : Nat) (hb : s.blk? b.id.bid = some b) (hs : b.skeins = [k]) (hi : k.idx = 0)
    (hf : k.frame = none) (hd : ∀ a, k.defers a = false) (hh : s.handler b = some te) : HangTaken s (s.hangSkein b k) b k te := by
  obtain ⟨rec, plane, ai, off, em, path, hrec, heq⟩ := hangSkein_eq s b k
  let u := s.report (some b.id.ctx) false rec
  have hk : u.sk? b.id.bid 0 = some k := by
    show (s.blk? b.id.bid).bind _ = _
    simp [hb, hs]
  have freed : u.RecordsKept (u.abandon b.id.bid 0) := abandon_kept u b 0 k hk hb
  have ended := endWaits_ended (u.abandon b.id.bid 0) b 0 k
  rw [heq, hi, trapSkein_enters _ b 0 k _ _ _ _ _ _ _ _ te hf (hd ai) ((freed.handler b).trans hh)]
  refine ⟨fun g => (ended.hangAt g).trans (freed.hangAt g), ?_, ?_⟩
  · refine ⟨_, _, by rw [modSk_sk, ended.sk, abandon_sk u b 0 k hk hb]; rfl, by simp [Skein.enterTrap], rfl, ?_, rfl⟩
    rw [trapRegs_record1, record1_code]; rfl
  · have waits : { ctx := some b.id.ctx, fault := false, bytes := rec } ∈ u.mem.recs :=
      List.mem_append_right _ (List.mem_singleton.mpr rfl)
    exact ⟨_, by rw [modSk_mem, ended.recs, freed.recs]; exact waits, rfl, rfl, hrec⟩

/-! ### Events of a core -/

theorem hang_runs (s : State) (g : Nat) (x : Ctx) (b : Block) (k : Skein) (hx : (s.core g).ctx.bind s.ctx? = some x) (hm : x.d.hangms ≠ 0)
    (hi : s.coreIdle g = true) (hb : s.blocksOn g = [b]) (hs : b.skeins = [k]) (hp : k.parked = true) (hw : k.waitKind ≠ 6)
    (ht : max (s.core g).idle (s.core g).hangAt + x.d.hangms * 600000 ≤ s.time.clk) :
    exec (.hang g) s = .next ((s.modCore g fun c => { c with hangAt := s.time.clk }).hangSkein b k) := by
  have due : s.hangDue g = true := by
    simp [hangDue, hx, hm, hi, hb, hs, hp, hw, clocksMs, ht]
  show execHang g s = _
  simp only [execHang, due, if_true]
  rw [show (s.modCore g fun c => { c with hangAt := s.time.clk }).blocksOn g = [b] from hb]
  simp [hs, hp]
theorem clockGate_gates (s : State) (g : Nat) (hi : s.coreIdle g = true) (h0 : (s.core g).gate = 0)
    (ht : max (s.core g).idle (s.core g).woke + 64 ≤ s.time.clk) : exec (.clockGate g) s = .next (s.modCore g fun c => { c with gate := 1 }) := by
  show execClockGate g s = _
  simp [execClockGate, Core.rest, hi, h0, ht]
theorem powerGate_gates (s : State) (g : Nat) (hi : s.coreIdle g = true) (h1 : (s.core g).gate = 1) (hc : s.coreCtl g 17 = false)
    (ht : max (s.core g).idle (s.core g).woke + 64 + 120000 ≤ s.time.clk) :
    exec (.powerGate g) s = .next (s.modCore g fun c => { c with gate := 2 }) := by
  show execPowerGate g s = _
  simp [execPowerGate, Core.rest, clocks200us, hi, h1, hc, ht]
theorem clockGate_busy (s : State) (g : Nat) (h : s.coreIdle g = false) : exec (.clockGate g) s = .next s := by
  show execClockGate g s = _
  simp [execClockGate, h]
theorem powerGate_busy (s : State) (g : Nat) (h : s.coreIdle g = false) : exec (.powerGate g) s = .next s := by
  show execPowerGate g s = _
  simp [execPowerGate, h]
/-- A core that runs an EXEMPT launch is not power-gated. -/
theorem powerGate_exempt (s : State) (g : Nat) (h : s.coreCtl g 17 = true) : exec (.powerGate g) s = .next s := by
  show execPowerGate g s = _
  simp [execPowerGate, h]
theorem monitorPoll_one (s : State) (g b i a n : Nat) (h : (s.core g).mons = [(.skein b i a, n)]) :
    exec (.monitorPoll g) s = .next (s.modArm b i a fun x => { x with seen := s.mem.writes + 1 }) := by
  show execMonitorPoll g s = _
  simp only [execMonitorPoll, h]; rfl
theorem monitorPoll_none (s : State) (g : Nat) (h : (s.core g).mons = []) : exec (.monitorPoll g) s = .next s := by
  show execMonitorPoll g s = _
  simp only [execMonitorPoll, h]; rfl

end State
end Sys2Proof.Machine
end

section
/-! PROOFS. O47, from the rules of each event. -/

open Sys2Proof Sys2Proof.Machine Sys2Proof.Machine.State

/-- Settles O47, event by event. -/
theorem controllers : Obligations.Controllers := by
  unfold Obligations.Controllers
  intro s
  refine ⟨?combine, ?leave, ?spill, ?absent, ?scrub, ?refresh, ?lend, ?handshake, ?core⟩
  case combine =>
    intro q hq hk tr hw
    refine ⟨fun hn => ⟨_, redCombine_combines s q hq hk hw, rfl, ?_⟩, fun l r y hp hc hv ho hz => ⟨_, redCombine_combines s q hq hk hw, rfl, ?_⟩⟩
    · have := addPartial_opens _ tr q.ctx q.va q.op q.data.toNat q.froms hn
      rwa [BitVec.ofNat_toNat, BitVec.setWidth_eq] at this
    · exact addPartial_merges _ tr q.ctx q.va q.op q.data.toNat q.froms l r y hp hc hv ho hz
  case leave =>
    intro idx tr y hy
    obtain ⟨hm, hp⟩ := forward_eq s tr y
    refine ⟨?_, fun h => ?_, fun h => ?_⟩
    · rintro i (⟨rfl, h⟩ | ⟨rfl, h⟩)
      · exact ⟨_, combineCount_full s idx tr y hy h, hp, hm⟩
      · exact ⟨_, combineTimer_late s idx tr y hy h, hp, hm⟩
    · exact combineCount_few s idx tr y hy h
    · exact combineTimer_early s idx tr y hy h
  case spill =>
    intro line b die
    exact ⟨holdingBufferSpill_short s line, fun h => ⟨_, holdingBufferSpill_full s line h, spillLine_mem s line, spillLine_spills s line⟩⟩
  case absent =>
    intro ch x h hx
    refine ⟨laneLending_absent s ch h, fun y => ⟨scrub_absent s _ y ?_, refresh_absent s ch y h⟩⟩
    rw [show (2 ^ 26 * ch + x) / 2 ^ 26 = ch by omega]
    exact h
  case scrub =>
    intro gran err ch h
    refine ⟨?_, ?_, fun he => ⟨_, scrub_uncorrectable s gran err h he, ?_, ?_, fun g => ?_⟩⟩
    · rintro rfl
      exact scrub_clean s gran h
    · rintro rfl
      exact ⟨_, scrub_corrected s gran h, by simp, by rw [countPkg_chan]; exact scrubbed_chan s gran⟩
    · rw [scrubPoison_chan, countPkg_chan]
      exact scrubbed_chan s gran
    · simp
    · rw [mem_scrubPoison, countPkg_mem, scrubbed_mem]
  case refresh =>
    intro ch h
    exact ⟨refresh_initialises s ch h, refresh_wakes s ch 1 h (by decide) (by decide), refresh_wakes s ch 2 h (by decide) (by decide),
      refresh_sleeps s ch h⟩
  case lend =>
    intro ch far hp hn free
    exact ⟨fun h => ⟨_, laneLending_lends s ch far hp hn h, by simp, by simp⟩, laneLending_stays s ch far hp hn⟩
  case handshake =>
    intro ch c
    refine ⟨lendingHandshakeEnd_lent s ch, fun h hu => ⟨_, lendingHandshakeEnd_reclaims s ch h hu, by simp, by simp [c], fun y hy => ?_⟩,
      lendingHandshakeEnd_returned s ch, lendingHandshakeEnd_none s ch⟩
    rw [countPkg_chan, modChan_chan_other _ _ _ _ hy, modChan_chan_other _ _ _ _ hy]
  case core =>
    intro g c
    refine ⟨fun b i a n => monitorPoll_one s g b i a n, monitorPoll_none s g, clockGate_gates s g, powerGate_gates s g,
      fun h => ⟨clockGate_busy s g h, powerGate_busy s g h⟩, powerGate_exempt s g, ?_⟩
    intro x b k te hx hm hi hb hbid hs h0 hp hw hf hd hh ht
    let u := s.modCore g fun c => { c with hangAt := s.time.clk }
    obtain ⟨timer, entered, reported⟩ := hangSkein_taken u b k te hbid hs h0 hf hd hh
    exact ⟨_, hang_runs s g x b k hx hm hi hb hs hp hw ht, by rw [timer, modCore_core], entered, reported⟩
end

section
/-! PROOFS. Little-endian bytes and parts of byte strings (R15), and lists of four. -/

namespace Sys2Proof.Machine

@[simp] theorem leBytes_length (n v : Nat) : (leBytes n v).length = n := by
  induction n generalizing v with
  | zero => rfl
  | succ n ih => simp [leBytes, ih]
theorem leNat_leBytes (n v : Nat) : leNat (leBytes n v) = v % 256 ^ n := by
  induction n generalizing v with
  | zero => simp [leBytes, leNat, Nat.mod_one]
  | succ n ih => simp [leBytes, leNat, ih, Nat.pow_succ', Nat.mod_mul]
theorem four_of_length {α : Type} (l : List α) (h : l.length = 4) : ∃ a b c d, l = [a, b, c, d] := by
  match l, h with
  | [a, b, c, d], _ => exact ⟨a, b, c, d, rfl⟩
theorem padTo_full (n : Nat) (l : List Byte) (h : l.length = n) : padTo n l = l := by simp [padTo, h]
theorem slice_after (a b : List Byte) (i n : Nat) (h : a.length ≤ i) : slice (a ++ b) i n = slice b (i - a.length) n := by
  simp [slice, List.drop_append, List.drop_of_length_le h]
theorem slice_first (a b : List Byte) (n : Nat) (h : a.length = n) : slice (a ++ b) 0 n = a := by
  simp [slice, ← h]

end Sys2Proof.Machine
end

section
/-! PROOFS. Firmware (R326), the rack device (R318), key slots (R180, R327) and reports (R328). -/

namespace Sys2Proof.Machine

/-! ### Firmware -/

/-- An image verifies under a key and is not older than the fused counter. -/
def ImageOk (rollback : Nat) (key : List Byte) (i : Image) : Prop :=
  Config.falconVerify (shake256 i.content 32) key i.sig = true ∧ rollback ≤ i.version
theorem imageOk_iff (rollback : Nat) (key : List Byte) (i : Image) : imageOk rollback key i = true ↔ ImageOk rollback key i := by
  simp [imageOk, ImageOk]
theorem chainOk_iff (pkg rollback : Nat) (a b c d : Image) : chainOk pkg rollback [a, b, c, d] = true ↔
    shake256 a.pubKey 32 = Config.fusedKeyDigest pkg ∧ ImageOk rollback a.pubKey a ∧ ImageOk rollback (Config.nextKey a.content) b
      ∧ ImageOk rollback (Config.nextKey b.content) c ∧ ImageOk rollback (Config.nextKey c.content) d := by
  simp [chainOk, chainFrom, imageOk_iff]

namespace State

/-- A package counts as failed no more. -/
def unfail (s : State) (pkg : Nat) : State := { s with relay := { s.relay with failed := s.relay.failed.filter (· != pkg) } }
theorem firmwareBoot_absent (s : State) (pkg : Nat) (l : List Image) (h : pkgThere pkg = false) : exec (.firmwareBoot pkg l) s = .next s := by
  show execFirmwareBoot pkg l s = _
  simp only [execFirmwareBoot, h, Bool.not_false, if_true]
theorem firmwareBoot_there (s : State) (pkg : Nat) (l : List Image) (h : pkgThere pkg = true) : exec (.firmwareBoot pkg l) s =
    .next ((s.unfail pkg).modHost pkg fun h =>
      if chainOk pkg (s.host pkg).rollback l = true then
        { h with booted := true, recovery := false, digests := l.map fun i => shake256 i.content 32, versions := l.map (·.version) }
      else { h with booted := false, recovery := true }) := by
  show execFirmwareBoot pkg l s = _
  simp only [execFirmwareBoot, h, Bool.not_true, Bool.false_eq_true, if_false]
  rfl

/-! ### The rack device -/

theorem allInRack (s : State) (h : ∀ p, p < 128 → (s.host p).booted = true ∧ (s.host p).recovery = false) :
    (List.range Config.packages).all s.inRack = true := by
  simpa [inRack, Config.packages] using h
theorem rackAssembly_forms (s : State) (hf : s.relay.formed = false)
    (hb : ∀ p, p < 128 → (s.host p).booted = true ∧ (s.host p).recovery = false)
    (h : ∀ p, p < 128 → p ∉ s.relay.failed ∧ s.featOf p = s.featOf 0 ∧ (s.host p).digests = (s.host 0).digests) :
    exec .rackAssembly s = .next { s with relay := { s.relay with
      formed := true, mismatch := none, primary := some 0, standby := some 4, cutOff := [], mhead := s.relay.head, beat := s.time.ns } } := by
  have equal : ((List.range Config.packages).find? fun p => s.featOf p != s.featOf 0) = none := by
    rw [List.find?_eq_none]
    intro p hp
    simp [(h p (List.mem_range.mp hp)).2.1]
  have same : ((List.range Config.packages).any fun p => (s.host p).digests != (s.host 0).digests || s.relay.failed.contains p) = false := by
    rw [List.any_eq_false]
    intro p hp
    obtain ⟨hn, -, hd⟩ := h p (List.mem_range.mp hp)
    simp [hn, hd]
  show execRackAssembly s = _
  simp only [execRackAssembly, hf, allInRack s hb, equal, same]
  rfl
/-- The first package of another variant is reported (log 90). -/
theorem rackAssembly_mismatch (s : State) (p : Nat) (hf : s.relay.formed = false)
    (hb : ∀ p, p < 128 → (s.host p).booted = true ∧ (s.host p).recovery = false) (hp : p < 128) (hd : s.featOf p ≠ s.featOf 0)
    (hq : ∀ q, q < p → s.featOf q = s.featOf 0) : exec .rackAssembly s = .next { s with relay := { s.relay with mismatch := some p } } := by
  have first : ((List.range Config.packages).find? fun p => s.featOf p != s.featOf 0) = some p := by
    rw [List.find?_range_eq_some]
    exact ⟨by simpa using hd, List.mem_range.mpr hp, fun q h => by simp [hq q h]⟩
  show execRackAssembly s = _
  simp only [execRackAssembly, hf, allInRack s hb, first]
  rfl
theorem rackAssembly_unbooted (s : State) (h : ∃ p, p < 128 ∧ (s.host p).booted = false) : exec .rackAssembly s = .next s := by
  obtain ⟨p, hp, hb⟩ := h
  have out : (List.range Config.packages).all s.inRack = false := by
    rw [List.all_eq_false]
    exact ⟨p, List.mem_range.mpr hp, by simp [inRack, hb]⟩
  show execRackAssembly s = _
  simp only [execRackAssembly, out, Bool.not_false, Bool.or_true, if_true]

/-! ### Key slots -/

theorem keyLoad_loads (s : State) (pkg slot key : Nat) (ctxs : List Nat) (hb : (s.host pkg).booted = true) (hs : slot < 2048)
    (hk : ∀ p, p < 128 → ∀ k, mapGet (s.host p).keys slot = some k → k.key = key) : exec (.keyLoad pkg slot key ctxs) s =
      .next (s.modHost pkg fun h => { h with keys := mapSet h.keys slot { key := key, ctxs := ctxs } }) := by
  have other : ((List.range Config.packages).any fun p => (mapGet (s.host p).keys slot).elim false fun k => k.key != key) = false := by
    rw [List.any_eq_false]
    intro p hp
    cases e : mapGet (s.host p).keys slot with
    | none => simp
    | some k => simp [hk p (List.mem_range.mp hp) k e]
  show execKeyLoad pkg slot key ctxs s = _
  simp [execKeyLoad, hb, other, hs]
theorem keySlotClear_clears (s : State) (pkg slot : Nat) (hb : (s.host pkg).booted = true) :
    exec (.keySlotClear pkg slot) s = .next (s.modHost pkg fun h => { h with keys := mapErase h.keys slot }) := by
  show execKeySlotClear pkg slot s = _
  simp [execKeySlotClear, hb]
theorem keyLoad_unbooted (s : State) (pkg slot key : Nat) (ctxs : List Nat) (hb : (s.host pkg).booted = false) :
    exec (.keyLoad pkg slot key ctxs) s = .next s := by
  show execKeyLoad pkg slot key ctxs s = _
  simp [execKeyLoad, hb]
theorem keySlotClear_unbooted (s : State) (pkg slot : Nat) (hb : (s.host pkg).booted = false) :
    exec (.keySlotClear pkg slot) s = .next s := by
  show execKeySlotClear pkg slot s = _
  simp [execKeySlotClear, hb]

/-! ### Reports (R328) -/

theorem attestationReport_unbooted (s : State) (pkg : Nat) (n : List Byte) (c : Option Nat) (hb : (s.host pkg).booted = false) :
    exec (.attestationReport pkg n c) s = .next s := by
  show execAttestationReport pkg n c s = _
  simp [execAttestationReport, hb]
/-- What a report without a context signs: nonce, serial number, variant, digests and versions of the four images. -/
def reportBody (s : State) (pkg : Nat) (nonce : List Byte) : List Byte :=
  nonce ++ (leBytes 8 (s.host pkg).serial ++ (leBytes 8 (s.featOf pkg) ++ (leBytes 1 Config.gen ++ (leBytes 15 0
    ++ (((s.host pkg).digests.map (padTo 32)).flatten ++ (((s.host pkg).versions.map (leBytes 4)).flatten ++ (leBytes 32 0 ++ leBytes 16 0)))))))
theorem attestationReport_reports (s : State) (pkg : Nat) (nonce : List Byte) (hb : (s.host pkg).booted = true) (hn : nonce.length = 32) :
    exec (.attestationReport pkg nonce none) s = .next (s.modHost pkg fun h =>
      { h with report := s.reportBody pkg nonce ++ Config.falconSign (s.host pkg).serial (s.reportBody pkg nonce) }) := by
  have whole : padTo 32 (nonce.take 32) = nonce := by
    rw [List.take_of_length_le (by omega), padTo_full 32 nonce hn]
  show execAttestationReport pkg nonce none s = _
  simp only [execAttestationReport, hb, Bool.not_true, Bool.false_eq_true, if_false, whole, Option.bind_none, reportBody, List.append_assoc]
  rfl

/-- The layout of a report's body: each field that is checked, with the bytes between. -/
theorem reportBody_fields (s : State) (pkg : Nat) (nonce : List Byte) (hd : (s.host pkg).digests.length = 4)
    (hl : ∀ d ∈ (s.host pkg).digests, d.length = 32) (hv : (s.host pkg).versions.length = 4) :
    ∃ mid d rest v tail, mid.length = 24 ∧ d.length = 32 ∧ rest.length = 96 ∧ tail.length = 60
      ∧ (s.host pkg).digests.headD [] = d ∧ (s.host pkg).versions.headD 0 = v
      ∧ s.reportBody pkg nonce = nonce ++ (leBytes 8 (s.host pkg).serial ++ (mid ++ (d ++ (rest ++ (leBytes 4 v ++ tail))))) := by
  obtain ⟨d0, d1, d2, d3, hds⟩ := four_of_length _ hd
  obtain ⟨v0, v1, v2, v3, hvs⟩ := four_of_length _ hv
  rw [hds] at hl
  have full (d : List Byte) (h : d ∈ [d0, d1, d2, d3]) : padTo 32 d = d := padTo_full 32 d (hl d h)
  refine ⟨leBytes 8 (s.featOf pkg) ++ (leBytes 1 Config.gen ++ leBytes 15 0), d0, d1 ++ (d2 ++ d3), v0,
    leBytes 4 v1 ++ (leBytes 4 v2 ++ (leBytes 4 v3 ++ (leBytes 32 0 ++ leBytes 16 0))), by simp, hl d0 (by simp), ?_, by simp, by rw [hds]; rfl,
    by rw [hvs]; rfl, ?_⟩
  · simp [hl d1, hl d2, hl d3]
  · simp [reportBody, hds, hvs, full d0, full d1, full d2, full d3]

end State
end Sys2Proof.Machine
end

section
/-! PROOFS. O51, from the rules of each event. -/

open Sys2Proof Sys2Proof.Machine Sys2Proof.Machine.State

/-- Settles O51, event by event. -/
theorem firmwareAndKeys : Obligations.FirmwareAndKeys := by
  unfold Obligations.FirmwareAndKeys
  intro s pkg h
  refine ⟨?boot, ?rack, rackAssembly_unbooted s, ?keys, ?locked, ?report⟩
  case boot =>
    intro a b c d l u ok good
    have chain : chainOk pkg (s.host pkg).rollback l = true ↔ good := chainOk_iff pkg (s.host pkg).rollback a b c d
    refine ⟨firmwareBoot_absent s pkg l, fun hp hg => ?_, fun hp hg => ?_⟩
    · rw [firmwareBoot_there s pkg l hp]
      simp only [if_pos (chain.mpr hg)]; rfl
    · rw [firmwareBoot_there s pkg l hp]
      simp only [if_neg (mt chain.mp hg)]; rfl
  case rack =>
    intro hf hb
    exact ⟨rackAssembly_forms s hf hb, fun p hp hd hq => rackAssembly_mismatch s p hf hb hp hd hq⟩
  case keys =>
    intro slot key ctxs hb hs hk
    exact ⟨keyLoad_loads s pkg slot key ctxs hb hs hk, keySlotClear_clears s pkg slot hb⟩
  case locked =>
    intro hb slot key ctxs n c
    exact ⟨keyLoad_unbooted s pkg slot key ctxs hb, keySlotClear_unbooted s pkg slot hb, attestationReport_unbooted s pkg n c hb⟩
  case report =>
    intro nonce hb hn hd hl hv
    obtain ⟨mid, d, rest, v, tail, hm, hd0, hr, ht, hfirst, hversion, hbody⟩ := reportBody_fields s pkg nonce hd hl hv
    have size : (s.reportBody pkg nonce).length = 256 := by simp [hbody, hn, hm, hd0, hr, ht]
    have body : (s.reportBody pkg nonce ++ Config.falconSign h.serial (s.reportBody pkg nonce)).take 256 = s.reportBody pkg nonce := by
      rw [← size, List.take_left]
    refine ⟨_, attestationReport_reports s pkg nonce hb hn, _, rfl, ?_, ?_, ?_, ?_, ?_⟩
    · rw [hbody, List.append_assoc, ← hn, List.take_left]
    · simp [natAt, hbody, slice_after, slice_first, hn, leNat_leBytes, h]
    · rw [hfirst]
      simp [hbody, slice_after, slice_first, hn, hm, hd0]
    · rw [hversion]
      simp [natAt, hbody, slice_after, slice_first, hn, hm, hd0, hr, leNat_leBytes]
    · rw [body, List.length_append, Nat.add_sub_cancel, List.drop_left]
end

section
/-! PROOFS. Code that is fetched (R52, R73, R167): what reading the boundary map and loading a loop buffer leave unchanged. -/

namespace Sys2Proof.Machine

/-! ### Fetching composes -/

theorem CodeFetched.refl (s : State) : CodeFetched s s := ⟨rfl, fun _ => rfl, fun _ => rfl⟩
theorem CodeFetched.trans {s t u : State} (h : CodeFetched s t) (g : CodeFetched t u) : CodeFetched s u := by
  obtain ⟨h1, h2, h3⟩ := h
  obtain ⟨g1, g2, g3⟩ := g
  refine ⟨g1.trans (by rw [h1]), fun i => (g2 i).trans (by rw [h2]), fun d => (g3 d).trans (by rw [h3])⟩
theorem CodeFetched.trays {s t : State} (h : CodeFetched s t) : t.trays = s.trays := by rw [h.1]
theorem CodeFetched.blocks {s t : State} (h : CodeFetched s t) : t.blocks = s.blocks := by rw [h.1]
theorem CodeFetched.sk {s t : State} (h : CodeFetched s t) (b i : Nat) : t.sk? b i = s.sk? b i := by
  simp only [State.sk?, State.blk?, h.blocks]
theorem CodeFetched.noParts {s t : State} (h : CodeFetched s t) (hn : NoParts s) : NoParts t := by
  unfold NoParts; rw [h.trays]; exact hn
/-- Events, ports, channels and free values are among what a fetch may change. -/
theorem CodeFetched.side (s : State) (e : NMap W64) (p : NMap Port) (c : NMap Chan) (f : Nat) :
    CodeFetched s { s with events := e, ports := p, chans := c, fresh := { s.fresh with free := f } } :=
  ⟨rfl, fun _ => rfl, fun _ => rfl⟩
/-- Steps that each fetch code, one after another. -/
theorem CodeFetched.foldl {α β : Type} (st : α → State) (f : α → β → α) (hf : ∀ a b, NoParts (st a) → CodeFetched (st a) (st (f a b)))
    (l : List β) (a : α) (hn : NoParts (st a)) : CodeFetched (st a) (st (l.foldl f a)) :=
  List.foldlRecOn l f (motive := fun x => CodeFetched (st a) (st x)) (.refl _) fun x hx b _ => hx.trans (hf x b (hx.noParts hn))

namespace State

/-! ### Counters, links and channels -/

theorem takeFree_fetched (s : State) (n : Nat) : CodeFetched s (s.takeFree n) := .side s s.events s.ports s.chans _
theorem countDie_fetched (s : State) (d src ctx by_ : Nat) : CodeFetched s (s.countDie d src ctx by_) := by
  obtain ⟨e, h⟩ := countDie_eq s d src ctx by_
  rw [h]; exact .side s e s.ports s.chans s.fresh.free
theorem countPkg_fetched (s : State) (p src ctx by_ : Nat) : CodeFetched s (s.countPkg p src ctx by_) := by
  obtain ⟨e, h⟩ := countPkg_eq s p src ctx by_
  rw [h]; exact .side s e s.ports s.chans s.fresh.free
theorem modChan_fetched (s : State) (c : Nat) (f : Chan → Chan) : CodeFetched s (s.modChan c f) := .side s s.events s.ports _ s.fresh.free
theorem sendPacket_fetched (s : State) (pkg va : Nat) : CodeFetched s (s.sendPacket pkg va) := by
  obtain ⟨p, e, f, h⟩ := sendSolo_eq s (s.linkFor pkg va)
  unfold sendPacket
  rw [h]; exact .side s e p s.chans f
/-- With no partial in any switch there is nothing to forward. -/
theorem forwardLine_noParts (s : State) (c va : Nat) (f : Nat → Bool) (h : NoParts s) : s.forwardLine c va f = s := by
  unfold forwardLine
  have keep : ∀ l : List (Nat × Tray), (∀ e ∈ l, e.2.parts = []) → ∀ g : State → Nat × Tray → Partial → State,
      l.foldl (fun s e => if f e.1 then (e.2.parts.filter fun q => q.ctx == c && lineVa q.va == lineVa va).foldl (fun s q => g s e q) s else s) s
        = s := by
    intro l hl g
    induction l with
    | nil => rfl
    | cons e l ih =>
      have he : e.2.parts = [] := hl e List.mem_cons_self
      simpa [he] using ih fun e he => hl e (List.mem_cons_of_mem _ he)
  exact keep s.trays h _
theorem passSwitch_fetched (s : State) (o : Origin) (va : Nat) (h : NoParts s) : CodeFetched s (s.passSwitch o va) := by
  unfold passSwitch
  dsimp only
  split
  · exact .refl s
  · rw [forwardLine_noParts s _ _ _ h]
    exact (sendPacket_fetched s _ va).trans (sendPacket_fetched _ _ va)

/-! ### The caches of dies -/

/-- The lines of a die's L2 and the reader counts it gives up are among what a fetch may change. -/
theorem modDie_fetched (s : State) (d : Nat) (l2 early : List Nat) (r : NMap Nat) :
    CodeFetched s { (s.modDie d fun x => { x with l2 := l2, early := early }) with mem := { s.mem with readers := r } } := by
  refine ⟨rfl, fun _ => rfl, fun e => ?_⟩
  show (s.modDie d fun x => { x with l2 := l2, early := early }).die e = { s.die e with
    l2 := ((s.modDie d fun x => { x with l2 := l2, early := early }).die e).l2,
    early := ((s.modDie d fun x => { x with l2 := l2, early := early }).die e).early }
  by_cases h : e = d
  · subst h; rw [modDie_die]
  · rw [modDie_die_other _ _ _ _ h]
theorem dropL2_fetched (s : State) (d line : Nat) : CodeFetched s (s.dropL2 d line) := modDie_fetched s d _ _ _
theorem touchL2_fetched (s : State) (line pol : Nat) : CodeFetched s (s.touchL2 line pol) := by
  unfold touchL2
  dsimp only
  split
  · exact .refl s
  · split
    · exact modDie_fetched s _ _ _ s.mem.readers
    · exact (dropL2_fetched s _ _).trans (modDie_fetched _ _ _ _ _)
theorem countHome_fetched (s : State) (h : Home) (c n : Nat) : CodeFetched s (s.countHome h c n) := by
  unfold countHome
  split
  · exact countDie_fetched s _ _ _ _
  · exact (countDie_fetched s _ _ _ _).trans (countPkg_fetched _ _ _ _ _)

/-! ### A request (R167) -/

theorem lookAt_fetched (s : State) (c a : Nat) : CodeFetched s (s.lookAt c a) := (countHome_fetched s _ c 4).trans (touchL2_fetched _ _ _)
theorem lookWalk_fetched (s : State) (c va : Nat) (h : NoParts s) : CodeFetched s (s.lookWalk c va) := by
  unfold lookWalk
  split
  · exact .refl s
  · dsimp only
    split
    · exact .refl s
    · exact CodeFetched.foldl id _ (fun t a _ => lookAt_fetched t c a) _ s h
theorem reclaim_fetched (s : State) (ch : Nat) : CodeFetched s (s.reclaim ch) := by
  unfold reclaim
  split
  · exact (modChan_fetched s ch _).trans (countPkg_fetched _ _ _ _ _)
  · exact .refl s
theorem request_fetched (s : State) (c va : Nat) (kind : Kind) (h : NoParts s) : CodeFetched s (s.request c va kind).1 := by
  have looked := lookWalk_fetched s c va h
  have filled (size : Nat) (e : W64) : CodeFetched s ((s.lookWalk c va).ctuFill c va size e) := looked.trans (modChan_fetched _ _ _)
  have reached (t : State) (ht : CodeFetched s t) (ch : Nat) (f : Chan → Chan) : CodeFetched s ((t.reclaim ch).modChan ch f) :=
    (ht.trans (reclaim_fetched t ch)).trans (modChan_fetched _ _ _)
  unfold request
  cases s.ctuFind c va with
  | some l =>
    dsimp only
    split
    · exact .refl s
    · dsimp only
      exact reached s (.refl s) _ _
  | none =>
    cases s.walk c va with
    | error u => exact looked
    | ok r =>
      dsimp only
      split
      · exact filled _ _
      · dsimp only
        exact reached _ (filled _ _) _ _

/-! ### Instruction caches and the boundary map (R51, R73) -/

theorem modCore_fetched (s : State) (g : Nat) (l : List CLine) : CodeFetched s (s.modCore g fun x => { x with icache := l }) := by
  refine ⟨rfl, fun i => ?_, fun _ => rfl⟩
  by_cases h : i = g
  · subst h; rw [modCore_core]
  · rw [modCore_core_other _ _ _ _ h]
theorem sureLine_fetched (s : State) (c va : Nat) (d : LineW) : CodeFetched s (s.sureLine c va d).1 := by
  unfold sureLine
  split
  · exact takeFree_fetched s 128
  · exact .refl s
theorem fetchLine_fetched (s : State) (g c va : Nat) (h : NoParts s) : CodeFetched s (s.fetchLine g c va).1 := by
  unfold fetchLine
  split
  · exact sureLine_fetched s c va _
  · have switched := passSwitch_fetched s { ctx := c, core := some g, pkg := pkgOf g, bid := none, ix := 255, off := 0 } va h
    have asked := switched.trans (request_fetched _ c (lineVa va) .fetch (switched.noParts h))
    dsimp only
    split
    · exact asked
    · have looked (x : Home) (line pol : Nat) := ((asked.trans (takeFree_fetched _ 128)).trans (countHome_fetched _ x c 4)).trans (touchL2_fetched _ line pol)
      split
      · exact looked _ _ _
      · exact (looked _ _ _).trans (modCore_fetched _ g _)
theorem fetchBytes_fetched (s : State) (g c va n : Nat) (h : NoParts s) : CodeFetched s (s.fetchBytes g c va n).1 := by
  unfold fetchBytes
  have line := fetchLine_fetched s g c va h
  split
  · exact .refl s
  · split
    · exact .refl s
    · dsimp only
      split
      · exact line
      · split <;> exact line
theorem mapBit_fetched (s : State) (d : Code) (g c : Nat) (lb : Option LoopBuf) (o : Nat) (h : NoParts s) :
    CodeFetched s (s.mapBit d g c lb o).1 := by
  unfold mapBit
  split
  · exact .refl s
  · exact fetchBytes_fetched s g c _ 1 h
theorem codeHalf_fetched (s : State) (d : Code) (g c : Nat) (lb : Option LoopBuf) (q o : Nat) (h : NoParts s) :
    CodeFetched s (s.codeHalf d g c lb q o).1 := by
  unfold codeHalf
  split
  · exact .refl s
  · exact fetchBytes_fetched s g c _ 2 h
/-- Reading the boundary map for a target (R52). -/
theorem targetOk_fetched (s : State) (d : Code) (g c o : Nat) (h : NoParts s) : CodeFetched s (s.targetOk d g c o).1 := by
  unfold targetOk
  split
  · exact .refl s
  · exact mapBit_fetched s d g c none o h
/-- Loading a loop buffer (R73). -/
theorem loadBuf_fetched (s : State) (d : Code) (g c lo hi : Nat) (planes : List Nat) (h : NoParts s) :
    CodeFetched s (s.loadBuf d g c lo hi planes).1 := by
  unfold loadBuf
  refine CodeFetched.foldl Prod.fst _ (fun acc o ha => ?_) _ (s, []) h
  have bit := mapBit_fetched acc.1 d g c none o ha
  have halves (m : NMap (BitVec 16)) := CodeFetched.foldl Prod.fst
    (fun (acc : State × NMap (BitVec 16)) q =>
      let r := acc.1.codeHalf d g c none q o
      match r.2 with
      | .ok v => (r.1, mapSet acc.2 (bufKey q o) (BitVec.ofNat 16 v))
      | .error _ => (r.1, acc.2))
    (fun acc q hq => by
      have half := codeHalf_fetched acc.1 d g c none q o hq
      dsimp only
      split <;> exact half)
    planes ((acc.1.mapBit d g c none o).1, m) (bit.noParts ha)
  dsimp only
  split
  · exact bit.trans (halves _)
  · exact bit.trans (halves _)

end State
end Sys2Proof.Machine
end

section
/-! PROOFS. Transfers of a path (R47, R52, R73, R362, R393): the target's check, the jump, and what a backward branch adds. -/

namespace Sys2Proof.Machine

/-! ### Lists and displacements -/

theorem listMod_put_same {α : Type} (l : List α) (i : Nat) (x : α) (h : l[i]? = some x) : (listMod l i fun _ => x) = l := by
  refine List.ext_getElem? fun j => ?_
  rw [listMod_get]
  split
  · subst j; simp [h]
  · rfl
/-- A displacement read as two's complement (R103). -/
theorem signed_eq_toInt (n v : Nat) (hn : 0 < n) (h : v < 2 ^ n) : signed n v = (BitVec.ofNat n v).toInt := by
  obtain ⟨m, rfl⟩ : ∃ m, n = m + 1 := ⟨n - 1, by omega⟩
  rw [BitVec.toInt_eq_toNat_cond, BitVec.toNat_ofNat, Nat.mod_eq_of_lt h]
  unfold signed
  rw [pow_succ] at *
  simp only [Nat.add_sub_cancel]
  split <;> split <;> omega
theorem target_eq (p : Pass) (n disp o : Nat) (hn : 0 < n) (h : disp < 2 ^ n) (ho : (p.off : Int) + 2 * (BitVec.ofNat n disp).toInt = o) :
    (p.off : Int) + 2 * signed n disp = o ∧ p.target n disp = o := by
  rw [← signed_eq_toInt n disp hn h] at ho
  exact ⟨ho, by unfold Pass.target; omega⟩

@[simp] theorem modSk_codeOf (s : State) (b i lid : Nat) (f : Skein → Skein) : (s.modSk b i f).codeOf lid = s.codeOf lid := rfl

/-! ### Code fetched beside a change of a skein -/

/-- What is fetched after a skein has changed could have been fetched before. -/
theorem CodeFetched.before {s v : State} {b i : Nat} {f : Skein → Skein} (h : CodeFetched (s.modSk b i f) v) :
    ∃ w, CodeFetched s w ∧ v = w.modSk b i f := by
  refine ⟨{ v with blocks := s.blocks }, ⟨?_, h.2.1, h.2.2⟩, ?_⟩
  · conv_lhs => rw [h.1]
    rfl
  · have hb : v.blocks = mapMod s.blocks b fun x => { x with skeins := listMod x.skeins i f } := h.blocks
    cases v
    simp only at hb
    subst hb
    rfl
theorem OnlySkeinC.of_fetched {s u w : State} {p : Pass} {k : Skein} (h : CodeFetched s u) (g : CodeFetched u w) :
    OnlySkeinC s (w.modSk p.bid p.ix fun _ => k) p k := ⟨w, h.trans g, rfl⟩

/-! ### The target's check (R52) -/

theorem afterTarget_fetched (s : State) (p : Pass) (o : Nat) (h : NoParts s) : CodeFetched s (afterTarget s p o) :=
  s.targetOk_fetched _ _ _ o h
theorem withTarget_ok (s : State) (p : Pass) (o : Nat) (f : State → State) (h : TargetOk s p o) : s.withTarget p o f = f (afterTarget s p o) := by
  unfold TargetOk at h
  simp only [State.withTarget, h, afterTarget]
/-- An odd target, and one at the end of the code or beyond it, name no instruction. -/
theorem withTarget_outside (s : State) (p : Pass) (o : Nat) (f : State → State) (h : o % 2 = 1 ∨ (s.codeOf p.blk.id.lid).len ≤ o) :
    s.withTarget p o f = s.raise p (p.trap .planeAlign .none) := by
  have bad : (o % 2 != 0 || decide ((s.codeOf p.blk.id.lid).len ≤ o)) = true := by
    rcases h with h | h <;> simp [h]
  simp only [State.withTarget, State.targetOk, bad, if_true]

/-! ### A backward branch (R47, R73) -/

/-- An arm after a branch from the pass's offset to `o`: a backward one is a switch and may load the loop buffer. -/
def Turned (p : Pass) (o : Nat) (a b : Arm) : Prop :=
  b = { a with sw := b.sw, lb := b.lb } ∧ if p.off < o then b.sw = a.sw ∧ b.lb = a.lb else b.sw = (a.sw || p.sk.pends p.ai)

theorem backward_forward (s : State) (p : Pass) (o : Nat) (h : p.off < o) : s.backward p o = s := by simp [State.backward, h]
theorem modArm_const (s : State) (b i ai : Nat) (f : Arm → Arm) (k : Skein) (a : Arm) (ha : k.arms[ai]? = some a) :
    (s.modSk b i fun _ => k).modArm b i ai f = s.modSk b i fun _ => k.modArm ai fun _ => f a := by
  rw [State.modArm_eq, State.modSk_modSk]
  simp only [Skein.modArm, listMod_const _ _ f a ha]
/-- Arms changed after code has been fetched. -/
theorem CodeFetched.modArm {s v : State} {b i : Nat} {k : Skein} (h : CodeFetched (s.modSk b i fun _ => k) v) :
    ∃ w, CodeFetched s w ∧ ∀ (ai : Nat) (f : Arm → Arm) (a : Arm), k.arms[ai]? = some a →
      v.modArm b i ai f = w.modSk b i fun _ => k.modArm ai fun _ => f a := by
  obtain ⟨w, hw, rfl⟩ := h.before
  exact ⟨w, hw, fun ai f a ha => modArm_const w b i ai f k a ha⟩
theorem modArm_put_put (k : Skein) (a : Nat) (x y : Arm) : ((k.modArm a fun _ => x).modArm a fun _ => y) = k.modArm a fun _ => y := by
  simp only [Skein.modArm, listMod_mod]
theorem backward_turns (s : State) (p : Pass) (o : Nat) (k : Skein) (a : Arm) (hc : p.coach = false) (hn : NoParts s)
    (ha : k.arms[p.ai]? = some a) :
    ∃ w b, CodeFetched s w ∧ Turned p o a b
      ∧ (s.modSk p.bid p.ix fun _ => k).backward p o = w.modSk p.bid p.ix fun _ => k.modArm p.ai fun _ => b := by
  by_cases h : p.off < o
  · refine ⟨s, a, .refl s, ⟨rfl, by simp [h]⟩, ?_⟩
    rw [backward_forward _ p o h, Skein.modArm, listMod_put_same _ _ a ha]
  · have turned (lb : Option LoopBuf) : Turned p o a { a with sw := a.sw || p.sk.pends p.ai, lb := lb } := ⟨rfl, by simp [h]⟩
    have ha1 : (k.modArm p.ai fun _ => { a with sw := a.sw || p.sk.pends p.ai }).arms[p.ai]? = some { a with sw := a.sw || p.sk.pends p.ai } := by
      rw [Skein.modArm_get, if_pos rfl, ha]; rfl
    unfold State.backward
    simp only [hc, h, decide_false, Bool.or_self, Bool.false_eq_true, if_false, modArm_const _ _ _ _ _ k a ha, modSk_codeOf]
    split
    · exact ⟨s, _, .refl s, turned _, rfl⟩
    · rename_i lo hi planes _
      obtain ⟨w, hw, e⟩ := (State.loadBuf_fetched (s.modSk p.bid p.ix fun _ => k.modArm p.ai fun _ => { a with sw := a.sw || p.sk.pends p.ai })
        (s.codeOf p.blk.id.lid) p.core p.ctx lo hi planes hn).modArm
      rw [e p.ai _ _ ha1, modArm_put_put]
      exact ⟨w, _, hw, turned _, rfl⟩

/-! ### The transfer -/

/-- The whole path jumps to `o`, from a state in which code has been fetched. -/
theorem jump_goes (s u : State) (p : Pass) (o : Nat) (h : LanePass s p) (hn : NoParts s) (hu : CodeFetched s u) :
    WentTo s ((u.jump p o).backward p o) p o := by
  obtain ⟨hs, ha, -⟩ := h.parts
  let a : Arm := { p.arm with issue := none, path := p.arm.path.map fun x => { x with off := o } }
  have jumped : u.jump p o = u.modSk p.bid p.ix fun _ => p.sk.modArm p.ai fun _ => a := by
    simp only [State.jump, h.2.1, Bool.false_eq_true, if_false, State.modArm_eq]
    rw [State.modSk_const u p.bid p.ix _ p.sk ((hu.sk _ _).trans hs), Skein.modArm, listMod_const _ _ _ _ ha]
    rfl
  obtain ⟨w, b, hw, ⟨hb, turn⟩, e⟩ := backward_turns u p o (p.sk.modArm p.ai fun _ => a) a h.2.1 (hu.noParts hn)
    (by rw [Skein.modArm_get, if_pos rfl, ha]; rfl)
  rw [jumped, e]
  refine ⟨_, b, .of_fetched hu hw, rfl, ⟨?_, fun c hc => ?_⟩, hb, turn⟩
  · rw [Skein.modArm_get, if_pos rfl, Skein.modArm_get, if_pos rfl, ha]; rfl
  · rw [Skein.modArm_get, if_neg hc, Skein.modArm_get, if_neg hc]
theorem transfer_goes (s : State) (p : Pass) (o : Nat) (h : LanePass s p) (hn : NoParts s) (ho : TargetOk s p o) :
    WentTo s (transfer s p o) p o := by
  rw [transfer, withTarget_ok s p o _ ho]
  exact jump_goes s _ p o h hn (afterTarget_fetched s p o hn)
theorem transfer_coach (s : State) (p : Pass) (o : Nat) (h : CoachPass s p) (hn : NoParts s) (ho : TargetOk s p o) :
    CoachWentTo s (transfer s p o) p o := by
  rw [transfer, withTarget_ok s p o _ ho]
  exact ⟨afterTarget s p o, afterTarget_fetched s p o hn, by simp [State.backward, State.jump, h.2]⟩

end Sys2Proof.Machine
end

section
/-! PROOFS. O20, from the rules of a transfer and of the end of a pass. -/

namespace Sys2Proof.Machine

/-- Where a transfer of a skein or a coach instance leads, once its target has passed the checks. -/
theorem transfer_went (s : State) (p : Pass) (o : Nat) (h : LanePass s p ∨ CoachPass s p) (hn : NoParts s) (ho : TargetOk s p o) :
    if p.coach then CoachWentTo s (transfer s p o) p o else WentTo s (transfer s p o) p o := by
  rcases h with h | h
  · rw [h.2.1]; exact transfer_goes s p o h hn ho
  · rw [h.2]; exact transfer_coach s p o h hn ho
/-- A pass of a skein or a coach instance that only ends. -/
theorem endPass_stays (s : State) (p : Pass) (h : LanePass s p ∨ CoachPass s p) :
    if p.coach then s.endPass p = s.modCoach p.bid fun c => { c with off := p.off + p.len } else NoResult s (s.endPass p) p := by
  rcases h with h | h
  · rw [h.2.1]; exact s.endPass_result p h
  · simp [h.2, State.endPass]
theorem transferBy_forward (s : State) (p : Pass) (n disp o : Nat) (hn : 0 < n) (h : disp < 2 ^ n)
    (ho : (p.off : Int) + 2 * (BitVec.ofNat n disp).toInt = o) : transferBy s p n disp = transfer s p o := by
  obtain ⟨hs, ht⟩ := target_eq p n disp o hn h ho
  rw [transferBy, ht, if_neg (by omega)]
theorem transferBy_negative (s : State) (p : Pass) (n disp : Nat) (hn : 0 < n) (h : disp < 2 ^ n)
    (ho : (p.off : Int) + 2 * (BitVec.ofNat n disp).toInt < 0) : transferBy s p n disp = s.raise p (p.trap .planeAlign .none) := by
  rw [transferBy, signed_eq_toInt n disp hn h, if_pos ho]
theorem exec_jmpi (s : State) (p : Pass) (ka : Nat) (h : s.pass? = some p) :
    exec (.jmpi ka) s = .next (transfer s p ((p.k ka).toNat % 2 ^ 32)) := s.withPass_some p _ h
theorem exec_brau (s : State) (p : Pass) (kc : Nat) (mode : UMode) (disp : Nat) (h : s.pass? = some p) :
    exec (.brau kc mode disp) s = .next (if brauTakes mode (p.k kc) then transferBy s p 18 disp else s.endPass p) := s.withPass_some p _ h
theorem brauTakes_z (v : W64) : brauTakes .z v = decide (v.toNat = 0) := by
  have zero : v = 0#64 ↔ v.toNat = 0 := by rw [← BitVec.toNat_inj]; rfl
  show decide (v = 0#64) = decide (v.toNat = 0)
  simp only [zero]
theorem brauTakes_nz (v : W64) : brauTakes .nz v = decide (v.toNat ≠ 0) := by
  rw [decide_not, ← brauTakes_z]; rfl

end Sys2Proof.Machine

open Sys2Proof Sys2Proof.Machine

/-- Settles O20. -/
theorem uniformTransfers : Obligations.UniformTransfers := by
  unfold Obligations.UniformTransfers
  intro s p h hn went stays
  have hp : s.pass? = some p := h.elim And.left And.left
  refine ⟨?jump, ?branch, ?nop⟩
  case jump =>
    intro ka o
    exact ⟨fun ho => ⟨_, exec_jmpi s p ka hp, transfer_went s p o h hn ho⟩,
      fun ho => (exec_jmpi s p ka hp).trans (congrArg _ (withTarget_outside s p o _ ho))⟩
  case branch =>
    intro kc mode disp hd takes d
    have hb := exec_brau s p kc mode disp hp
    have hk : brauTakes mode (p.k kc) = takes := by
      cases mode with
      | always => rfl
      | nz => exact brauTakes_nz _
      | z => exact brauTakes_z _
    rw [hk] at hb
    refine ⟨fun ht => ?_, fun ht o ho hok => ?_, fun ht hneg => ?_⟩
    · rw [ht] at hb
      exact ⟨_, hb, endPass_stays s p h⟩
    · rw [ht, if_pos rfl, transferBy_forward s p 18 disp o (by omega) hd ho] at hb
      exact ⟨_, hb, transfer_went s p o h hn hok⟩
    · rw [ht, if_pos rfl, transferBy_negative s p 18 disp (by omega) hd hneg] at hb
      exact hb
  case nop => exact ⟨_, s.withPass_some p _ hp, endPass_stays s p h⟩
end

section
/-! PROOFS. Paths and arms (R47, R58, R61, R62): the path that runs next, arrival at a rejoin, and the merge of two arms. -/

namespace Sys2Proof.Machine

/-! ### Arms at a switch -/

/-- An arm when every latch of its skein becomes invalid (R84). -/
def Arm.unlatched (a : Arm) : Arm := { a with issue := a.issue.map fun u => { u with pushed := u.pushed.map fun b => { b with valid := 0 } } }
theorem Arm.unlatched_of_closed (a : Arm) (h : a.issue = none) : a.unlatched = a := by
  cases a; simp only at h; subst h; rfl
/-- An arm as its path `q` runs, above the stack `st`. -/
def Arm.running (x : Arm) (q : Path) (st : List Entry) : Arm :=
  { x with path := some { q with again := none }, stack := st, complete := false, issue := none, again := q.again, sw := false }
/-- An arm whose running path has ended, with nothing left on its stack that holds a lane. -/
def Arm.ended (x : Arm) (st : List Entry) : Arm := { x with path := none, stack := st, issue := none, again := none, complete := true }

namespace Skein

theorem dropLatches_get (k : Skein) (b : Nat) : k.dropLatches.arms[b]? = k.arms[b]?.map Arm.unlatched := List.getElem?_map
/-- Arm `a` becomes `y` as every latch of the skein becomes invalid. -/
def switchTo (k : Skein) (a : Nat) (y : Arm) : Skein := (k.modArm a fun _ => y).dropLatches
theorem switchTo_get (k : Skein) (a : Nat) (x y : Arm) (hx : k.arms[a]? = some x) (hy : y.issue = none) : (k.switchTo a y).arms[a]? = some y := by
  rw [switchTo, dropLatches_get, modArm_get, if_pos rfl, hx]
  simp [Arm.unlatched_of_closed y hy]
theorem switchTo_other (k : Skein) (a b : Nat) (y : Arm) (h : b ≠ a) : (k.switchTo a y).arms[b]? = k.dropLatches.arms[b]? := by
  rw [switchTo, dropLatches_get, modArm_get, if_neg h, dropLatches_get]
theorem switchTo_runs (k : Skein) (a : Nat) (x y : Arm) (hx : k.arms[a]? = some x) (hy : y.issue = none) : ArmRuns k (k.switchTo a y) a y :=
  ⟨rfl, switchTo_get k a x y hx hy, fun b h => switchTo_other k a b y h⟩
theorem switchTo_put (k : Skein) (a : Nat) (x y : Arm) : (k.modArm a fun _ => x).switchTo a y = k.switchTo a y := by
  rw [switchTo, modArm_put_put]; rfl
theorem put_get (k : Skein) (a : Nat) (x y : Arm) (hx : k.arms[a]? = some x) : (k.modArm a fun _ => y).arms[a]? = some y := by
  rw [modArm_get, if_pos rfl, hx]; rfl
theorem modArm_put (k : Skein) (a : Nat) (f : Arm → Arm) (x : Arm) (hx : k.arms[a]? = some x) : k.modArm a f = k.modArm a fun _ => f x := by
  rw [modArm, listMod_const _ _ _ _ hx]; rfl

/-! ### The next path of a stack (R61) -/

theorem runPath_eq (k : Skein) (a : Nat) (q : Path) (x : Arm) (hx : k.arms[a]? = some x) :
    k.runPath a q = k.switchTo a (x.running q x.stack) := by
  rw [runPath, modArm_put k a _ x hx]; rfl
theorem nextPath_runs (k : Skein) (a : Nat) (x : Arm) (q : Path) (st : List Entry) (hx : k.arms[a]? = some x)
    (h : popPath k.live x.stack = (some q, st)) : k.nextPath a = k.switchTo a (x.running q st) := by
  unfold nextPath
  simp only [arm_of k a x hx, h]
  rw [modArm_put k a _ x hx, runPath_eq _ a q _ (put_get k a x _ hx), switchTo_put]
  rfl
theorem nextPath_ends (k : Skein) (a : Nat) (x : Arm) (st : List Entry) (hx : k.arms[a]? = some x)
    (h : popPath k.live x.stack = (none, st)) :
    k.nextPath a = k.switchTo a (x.ended st) := by
  unfold nextPath
  simp only [arm_of k a x hx, h]
  rw [modArm_put k a _ x hx, modArm_put _ a _ _ (put_get k a x _ hx), modArm_put_put]
  rfl
/-- Entries without a live lane are passed over. -/
theorem popPath_skip (live : Lanes) (l st : List Entry) (w : Path)
    (hl : ∀ e ∈ l, (match e with | .path v => v.lanes | .marker _ m _ => m) &&& live = 0) (hw : w.lanes &&& live ≠ 0) :
    popPath live (l ++ .path w :: st) = (some { w with lanes := w.lanes &&& live }, st) := by
  induction l with
  | nil => rw [List.nil_append, popPath, if_neg hw]
  | cons e l ih =>
    have he := hl e List.mem_cons_self
    have rest := ih fun e h => hl e (List.mem_cons_of_mem _ h)
    cases e with
    | path v => rw [List.cons_append, popPath, if_pos he, rest]
    | marker rj m b => rw [List.cons_append, popPath, if_pos he, rest]

/-! ### Arms merge (R62, R65, R72) -/

/-- While an arm runs, no arms merge. -/
theorem merge_running (k : Skein) (a : Nat) (y : Arm) (hy : k.arms[a]? = some y) (h : y.complete = false) : k.merge = k := by
  unfold merge
  split
  · rename_i one two e
    rw [e] at hy
    have : one.complete = false ∨ two.complete = false := by
      rcases a with _ | _ | a <;> simp at hy <;> simp_all
    rcases this with h | h <;> simp [h]
  · rfl
theorem sameKs_iff (x y : NMap W64) : sameKs x y = true ↔ ∀ i, i < 32 → mapGetD x i 0 = mapGetD y i 0 := by
  simp [sameKs]
theorem merge_merges (k : Skein) (one two : Arm) (m : Lanes) (h : k.arms = [one, two]) (h1 : one.complete = true) (h2 : two.complete = true)
    (hm : (one.arrived ||| two.arrived) &&& k.live = m) (h0 : m ≠ 0) : Merged k k.merge one two m := by
  unfold merge
  simp only [h, h1, h2, Bool.and_self, if_true, hm, if_neg h0]
  have alike := sameKs_iff one.ks two.ks
  by_cases g : sameKs one.ks two.ks = true
  · rw [if_pos g]
    exact ⟨_, rfl, rfl, rfl, by simpa [Arm.unlatched] using h0, rfl, rfl, rfl, rfl, ⟨fun _ => rfl, fun n => absurd (alike.mp g) n⟩,
      rfl, rfl, rfl, rfl, rfl, rfl, rfl, rfl, rfl, rfl⟩
  · rw [if_neg g]
    exact ⟨_, rfl, rfl, rfl, by simpa [Arm.unlatched] using h0, rfl, rfl, rfl, rfl, ⟨fun y => absurd (alike.mpr y) g, fun _ => rfl⟩,
      rfl, rfl, rfl, rfl, rfl, rfl, rfl, rfl, rfl, rfl⟩

/-! ### Arrival at a rejoin (R61) -/

section Arrival
variable (k : Skein) (a : Nat) (x : Arm) (q : Path) (hx : k.arms[a]? = some x) (hq : x.path = some q) (hb : q.base = k.win.base) (hm : q.mis = false)
include hx hq hb hm

omit hx in
theorem arriving : x.path.filter (fun p => !k.wrongBase p) = some q := by
  rw [hq, Option.filter_some, if_pos (by simp [wrongBase, hm, hb])]
theorem arrive_marker (h : topMarker x.stack = some q.off) :
    k.arrive a = some ((k.modArm a fun _ => { x with stack := arriveTop q.lanes x.stack }).endPath a) := by
  unfold arrive
  simp only [arm_of k a x hx, arriving k x q hq hb hm, h, if_true, modArm_put k a _ x hx]
theorem arrive_last (h : topMarker x.stack = none) (hl : k.arms.length = 2) (ho : q.off = k.rejoin) :
    k.arrive a = some ((k.modArm a fun _ => { x with arrived := x.arrived ||| q.lanes }).endPath a) := by
  unfold arrive
  simp only [arm_of k a x hx, arriving k x q hq hb hm, h, hl, ho, and_self, if_true, modArm_put k a _ x hx]
/-- At a marker the next path of the stack runs, which with its lanes is the marker itself where nothing pends above it. -/
theorem arrive_runs (w : Path) (st : List Entry) (h : topMarker x.stack = some q.off)
    (hw : popPath k.live (arriveTop q.lanes x.stack) = (some w, st)) :
    ∃ z, k.arrive a = some z ∧ ArmRuns k z a (x.running w st) := by
  have put := put_get k a x { x with stack := arriveTop q.lanes x.stack } hx
  refine ⟨_, arrive_marker k a x q hx hq hb hm h, ?_⟩
  rw [endPath, nextPath_runs _ a _ w st put hw, switchTo_put]
  have runs : ArmRuns k (k.switchTo a (x.running w st)) a (x.running w st) := switchTo_runs k a x _ hx rfl
  exact (merge_running _ a _ runs.2.1 rfl).symm ▸ runs
/-- The last path of an arm arrives: the arm as it is then, before arms merge. -/
theorem arrive_completes (hs : x.stack = []) (hl : k.arms.length = 2) (ho : q.off = k.rejoin) :
    k.arrive a = some (k.switchTo a (({ x with arrived := x.arrived ||| q.lanes } : Arm).ended [])).merge := by
  have put := put_get k a x { x with arrived := x.arrived ||| q.lanes } hx
  rw [arrive_last k a x q hx hq hb hm (by rw [hs]; rfl) hl ho, endPath,
    nextPath_ends _ a _ [] put (by show popPath _ x.stack = _; rw [hs]; rfl), switchTo_put]

theorem arrives : ArrivesAt k a x q := by
  refine ⟨fun m b st hst hlive => ?_, fun w m b st hst hlive => ?_, fun hs hl ho hother => ?_⟩
  · obtain ⟨z, hz, runs⟩ := arrive_runs k a x q hx hq hb hm { off := q.off, lanes := (m ||| q.lanes) &&& k.live, base := b, last := q.off } st
      (by rw [hst]; rfl) (by rw [hst, arriveTop, popPath, if_neg hlive])
    exact ⟨z, _, hz, runs, rfl, rfl, rfl, rfl, rfl, rfl⟩
  · obtain ⟨z, hz, runs⟩ := arrive_runs k a x q hx hq hb hm { w with lanes := w.lanes &&& k.live } (.marker q.off (m ||| q.lanes) b :: st)
      (by rw [hst]; rfl) (by rw [hst, arriveTop, arriveTop, popPath, if_neg hlive])
    exact ⟨z, _, hz, runs, rfl, rfl, rfl, rfl, rfl, rfl⟩
  · let y : Arm := ({ x with arrived := x.arrived ||| q.lanes } : Arm).ended []
    have runs : ArmRuns k (k.switchTo a y) a y := switchTo_runs k a x y hx rfl
    have ha : a < 2 := hl ▸ (List.getElem?_eq_some_iff.mp hx).1
    obtain ⟨o, hoth⟩ : ∃ o, k.arms[1 - a]? = some o := ⟨_, List.getElem?_eq_getElem (by omega)⟩
    have waits : (k.switchTo a y).arms[1 - a]? = some o.unlatched := by rw [switchTo_other _ _ _ _ (by omega), dropLatches_get, hoth]; rfl
    refine ⟨(k.switchTo a y).merge, y, arrive_completes k a x q hx hq hb hm hs hl ho, ?_, rfl, rfl, rfl, rfl, rfl⟩
    rw [merge_running _ (1 - a) _ waits (hother o hoth)]
    exact runs
theorem arrives_merged (one two : Arm) (h2 : k.arms = [one, two]) (hs : x.stack = []) (ho : q.off = k.rejoin)
    (hother : ∀ o, k.arms[1 - a]? = some o → o.complete = true) (h0 : (one.arrived ||| two.arrived ||| q.lanes) &&& k.live ≠ 0) :
    ∃ z, k.arrive a = some z ∧ Merged k z one two ((one.arrived ||| two.arrived ||| q.lanes) &&& k.live) := by
  let y : Arm := ({ x with arrived := x.arrived ||| q.lanes } : Arm).ended []
  refine ⟨(k.switchTo a y).merge, arrive_completes k a x q hx hq hb hm hs (by rw [h2]; rfl) ho, ?_⟩
  have ha : a < 2 := by have := (List.getElem?_eq_some_iff.mp hx).1; rwa [h2] at this
  obtain rfl | rfl : a = 0 ∨ a = 1 := by omega
  · obtain rfl : one = x := by simpa [h2] using hx
    have all : (y.arrived ||| two.arrived) &&& k.live = (one.arrived ||| two.arrived ||| q.lanes) &&& k.live := by
      rw [BitVec.or_assoc, BitVec.or_comm two.arrived, ← BitVec.or_assoc]; rfl
    exact merge_merges (k.switchTo 0 y) y two.unlatched _ (by simp only [switchTo, dropLatches, modArm, h2]; rfl) rfl (hother two (by rw [h2]; rfl)) all h0
  · obtain rfl : two = x := by simpa [h2] using hx
    have all : (one.arrived ||| y.arrived) &&& k.live = (one.arrived ||| two.arrived ||| q.lanes) &&& k.live := by
      rw [BitVec.or_assoc]; rfl
    exact merge_merges (k.switchTo 1 y) one.unlatched y _ (by simp only [switchTo, dropLatches, modArm, h2]; rfl) (hother one (by rw [h2]; rfl)) rfl all h0
end Arrival

end Skein
end Sys2Proof.Machine
end

section
/-! PROOFS. Lane branches (R60, R64, R71, R72, R361): the lanes that take them, and what each way of going on does. -/

namespace Sys2Proof.Machine

/-! ### Splits (R60, R72) -/

namespace Skein

theorem splitSerial_eq (k : Skein) (a o next : Nat) (rj : Option Nat) (taken : Lanes) (x : Arm) (q : Path) (hx : k.arms[a]? = some x)
    (hq : x.path = some q) :
    k.splitSerial a o next rj taken = k.switchTo a (x.running { off := o, lanes := taken, base := k.win.base, last := q.last }
      (.path { off := next, lanes := q.lanes &&& ~~~taken, base := k.win.base, last := q.last }
        :: (rj.elim [] fun r => [.marker r 0 k.win.base]) ++ x.stack)) := by
  unfold splitSerial
  simp only [arm_of k a x hx, hq]
  rw [modArm_put k a _ x hx, runPath_eq _ a _ _ (put_get k a x _ hx), switchTo_put]
  cases rj <;> rfl
/-- One of the two arms into which `x` splits: the lanes `m` at `o`. -/
def branchArm (k : Skein) (x : Arm) (q : Path) (o : Nat) (m : Lanes) : Arm :=
  { Arm.idle with path := some { off := o, lanes := m, base := k.win.base, last := q.last }, split := m, ks := x.ks, seen := x.seen, marks := x.marks }
/-- A skein after a top-level split, with the arms `l`. -/
def inArms (k : Skein) (rj : Nat) (l : List Arm) : Skein := { (k.regroup).dropLatches with arms := l, rejoin := rj }
theorem splitArms_eq (k : Skein) (o next rj : Nat) (taken : Lanes) (x : Arm) (q : Path) (hk : k.arms = [x]) (hq : x.path = some q) :
    k.splitArms o next rj taken = k.inArms rj
      (let rest := q.lanes &&& ~~~taken
       let one := k.branchArm x q o taken
       let two := k.branchArm x q next rest
       if (lowestLane taken).getD 16 ≤ (lowestLane rest).getD 16 then [one, two] else [two, one]) := by
  unfold splitArms
  simp only [arm_of k 0 x (by rw [hk]; rfl), hq]
  split <;> rfl

end Skein

/-- A serial split from a state in which code has been fetched. -/
theorem splits_serially (s u : State) (p : Pass) (o : Nat) (rj : Option Nat) (taken : Lanes) (x : Path) (h : LanePass s p) (hn : NoParts s)
    (hu : CodeFetched s u) (hx : p.arm.path = some x) :
    SplitSerially s ((u.modSk p.bid p.ix fun k => k.splitSerial p.ai o (p.off + 4) rj taken).backward p o) p o rj taken := by
  obtain ⟨hs, ha, -⟩ := h.parts
  rw [State.modSk_const u p.bid p.ix _ p.sk ((hu.sk _ _).trans hs), Skein.splitSerial_eq p.sk p.ai o _ rj taken p.arm x ha hx]
  generalize hy : p.arm.running _ _ = y
  have put := Skein.switchTo_get p.sk p.ai p.arm y ha (by rw [← hy]; rfl)
  obtain ⟨w, b, hw, ⟨hb, -⟩, e⟩ := backward_turns u p o (p.sk.switchTo p.ai y) y h.2.1 (hu.noParts hn) put
  rw [e]
  refine ⟨_, b, x, hx, .of_fetched hu hw, rfl, ⟨Skein.put_get _ p.ai y b put, fun c (hc : c ≠ p.ai) => ?_⟩, by rw [hb, ← hy]; rfl⟩
  rw [Skein.modArm_get, if_neg hc, Skein.switchTo_other _ _ _ _ hc]; rfl
/-- A sole arm is arm 0. -/
theorem sole_arm (p : Pass) (ha : p.sk.arms[p.ai]? = some p.arm) (hl : p.sk.arms.length = 1) : p.ai = 0 ∧ p.sk.arms = [p.arm] := by
  obtain ⟨y, hy⟩ := List.length_eq_one_iff.mp hl
  rw [hy] at ha ⊢
  have hz : p.ai = 0 := by have := (List.getElem?_eq_some_iff.mp ha).1; simpa using this
  rw [hz] at ha
  exact ⟨hz, by simpa using ha⟩
/-- A split is at top level: one arm, nothing on its stack, not in trap mode. -/
theorem atTop_iff (p : Pass) (hc : p.coach = false) : (p.sk.arms.length == 1 && p.arm.stack.isEmpty && !p.trapMode) = true
    ↔ p.sk.arms.length = 1 ∧ p.arm.stack = [] ∧ p.sk.frame = none := by
  simp [Pass.trapMode, Skein.trapMode, hc, and_assoc]
/-- Lanes that do not take a branch are no lanes that take it. -/
theorem rest_ne_taken (m taken : Lanes) (h0 : taken ≠ 0) : m &&& ~~~taken ≠ taken := fun e => h0 <| by
  refine BitVec.eq_of_getLsbD_eq fun i hi => ?_
  have bit : (m &&& ~~~taken).getLsbD i = taken.getLsbD i := by rw [e]
  rw [BitVec.getLsbD_and, BitVec.getLsbD_not] at bit
  cases g : taken.getLsbD i with
  | false => simp
  | true => simp [g] at bit
/-- A top-level split from a state in which code has been fetched; the arm of the taken lanes makes the branch. -/
theorem splits_in_arms (s u : State) (p : Pass) (o rj : Nat) (taken : Lanes) (x : Path) (h : LanePass s p) (hn : NoParts s)
    (hu : CodeFetched s u) (hx : p.arm.path = some x) (h0 : taken ≠ 0) (hall : taken ≠ p.act) (hl : p.sk.arms.length = 1)
    (hst : p.arm.stack = []) (hf : p.sk.frame = none) : SplitInArms s (branchTo u p o (some rj) taken) p o rj taken := by
  obtain ⟨hs, ha, -⟩ := h.parts
  let rest := x.lanes &&& ~~~taken
  let one := p.sk.branchArm p.arm x o taken
  let two := p.sk.branchArm p.arm x (p.off + 4) rest
  let first := (lowestLane taken).getD 16 ≤ (lowestLane rest).getD 16
  let k := p.sk.inArms rj (if first then [one, two] else [two, one])
  have top := (atTop_iff p h.2.1).mpr ⟨hl, hst, hf⟩
  have split_ : (u.modSk p.bid p.ix fun k => k.splitArms o (p.off + 4) rj taken) = u.modSk p.bid p.ix fun _ => k := by
    rw [State.modSk_const u p.bid p.ix _ p.sk ((hu.sk _ _).trans hs), Skein.splitArms_eq p.sk o _ rj taken p.arm x (sole_arm p ha hl).2 hx]
  have now : (u.modSk p.bid p.ix fun _ => k).sk? p.bid p.ix = some k := by rw [State.modSk_sk, hu.sk, hs]; rfl
  obtain ⟨i, hi, hone, hput⟩ : ∃ i, (if (k.arm 0).path.elim 0 (·.lanes) = taken then 0 else 1) = i ∧ k.arms[i]? = some one
      ∧ ∀ b, (k.modArm i fun _ => b).arms = if first then [b, two] else [two, b] := by
    by_cases g : first
    · have hk : k.arms = [one, two] := if_pos g
      exact ⟨0, by rw [k.arm_of 0 one (by rw [hk]; rfl)]; exact if_pos rfl, by rw [hk]; rfl, fun b => by rw [if_pos g, Skein.modArm, hk]; rfl⟩
    · have hk : k.arms = [two, one] := if_neg g
      exact ⟨1, by rw [k.arm_of 0 two (by rw [hk]; rfl)]; exact if_neg (rest_ne_taken _ _ h0), by rw [hk]; rfl,
        fun b => by rw [if_neg g, Skein.modArm, hk]; rfl⟩
  obtain ⟨w, b, hw, ⟨hb, -⟩, e⟩ := backward_turns u { p with ai := i } o k one h.2.1 (hu.noParts hn) hone
  have went : branchTo u p o (some rj) taken = w.modSk p.bid p.ix fun _ => k.modArm i fun _ => b := by
    unfold branchTo
    simp only [if_neg hall, top, split_, now, hi]
    exact e
  rw [went]
  exact ⟨_, b, two, x, hx, .of_fetched hu hw, rfl, hb, rfl, hput b⟩

/-! ### Which way a branch goes on (R60) -/

theorem takenLanes_eq (p : Pass) (cm : Nat) (neg : Bool) :
    takenLanes p cm neg = laneSet fun l => p.act.getLsbD l && ((p.sk.mask cm).getLsbD l != neg) := by
  refine BitVec.eq_of_getLsbD_eq fun i hi => ?_
  rw [laneSet_get _ i hi, takenLanes, BitVec.getLsbD_and]
  cases neg
  · simp
  · simp [hi]
theorem branchTo_all (s : State) (p : Pass) (o : Nat) (rj : Option Nat) (taken : Lanes) (h : taken = p.act) :
    branchTo s p o rj taken = (s.jump p o).backward p o := by
  unfold branchTo; exact if_pos h
/-- A branch that splits its path, but not at top level. -/
theorem branchTo_serial (s : State) (p : Pass) (o : Nat) (rj : Option Nat) (taken : Lanes) (h : taken ≠ p.act)
    (hr : rj.isSome = true → (p.sk.arms.length == 1 && p.arm.stack.isEmpty && !p.trapMode) = false) :
    branchTo s p o rj taken =
      if p.sk.stackFits p.ai (if rj.isSome then 2 else 1) then
        (s.modSk p.bid p.ix fun k => k.splitSerial p.ai o (p.off + 4) rj taken).backward p o
      else s.raise p (p.ill .divergeDepth) := by
  unfold branchTo
  rw [if_neg h]
  cases rj with
  | none => rfl
  | some r => rw [hr rfl]
theorem stackFits_iff (p : Pass) (n : Nat) (ha : p.sk.arms[p.ai]? = some p.arm) : p.sk.stackFits p.ai n = true ↔ p.arm.stack.length + n ≤ 32 := by
  rw [Skein.stackFits, p.sk.arm_of _ _ ha, decide_eq_true_iff]
section Branch
variable (s : State) (p : Pass) (cm : Nat) (neg : Bool) (n disp : Nat) (rd : Option Nat) (hc : p.coach = false)
include hc
theorem branchOf_untaken (h0 : takenLanes p cm neg = 0) : branchOf s p cm neg n disp rd = s.endPass p := by
  unfold branchOf
  rw [s.guarded_ok p _ _ (by simp [laneRole_ok p hc]), if_pos h0]
theorem branchOf_taken (o : Nat) (hn : 0 < n) (hd : disp < 2 ^ n) (ho : (p.off : Int) + 2 * (BitVec.ofNat n disp).toInt = o)
    (h0 : takenLanes p cm neg ≠ 0) (hok : TargetOk s p o) (hrd : ∀ r ∈ rd, TargetOk (afterTarget s p o) p (o + 2 * r)) :
    branchOf s p cm neg n disp rd = branchTo (rd.elim (afterTarget s p o) fun r => afterTarget (afterTarget s p o) p (o + 2 * r)) p o
      (rd.map fun r => o + 2 * r) (takenLanes p cm neg) := by
  obtain ⟨hs, ht⟩ := target_eq p n disp o hn hd ho
  unfold branchOf
  rw [s.guarded_ok p _ _ (by simp [laneRole_ok p hc]), if_neg h0, if_neg (by omega), ht, withTarget_ok s p o _ hok]
  cases rd with
  | none => rfl
  | some r => exact withTarget_ok _ p _ _ (hrd r rfl)
end Branch

end Sys2Proof.Machine

open Sys2Proof Sys2Proof.Machine

/-- Settles O21: arrival and merge, the next path of a stack, and the ways a branch goes on. -/
theorem laneBranches : Obligations.LaneBranches := by
  unfold Obligations.LaneBranches
  refine ⟨?arrival, ?next, ?branch⟩
  case arrival =>
    intro k ai x q hx hq hb hm
    refine ⟨Skein.arrives k ai x q hx hq hb hm, ?_⟩
    intro one two h2 hs ho hother m h0
    exact Skein.arrives_merged k ai x q hx hq hb hm one two h2 hs ho hother h0
  case next => exact fun live l st w hl hw => Skein.popPath_skip live l st w hl hw
  case branch =>
    intro s p x cm neg h hn hx taken
    obtain ⟨hs, ha, -⟩ := h.parts
    have ht : takenLanes p cm neg = taken := takenLanes_eq p cm neg
    have exec_bra disp : exec (.bra cm neg disp) s = .next (branchOf s p cm neg 21 disp none) := s.withPass_some p _ h.1
    have exec_braRj disp rd : exec (.braRj cm neg disp rd) s = .next (branchOf s p cm neg 11 disp (some rd)) := s.withPass_some p _ h.1
    refine ⟨fun h0 => ⟨fun disp => ?_, fun disp rd => ?_⟩, fun h0 => ⟨fun disp o hd ho hok => ?_, fun disp rd o hd ho hok hrj => ?_⟩⟩
    · exact ⟨_, exec_bra disp, by rw [branchOf_untaken s p cm neg 21 disp none h.2.1 (ht.trans h0)]; exact s.endPass_result p h⟩
    · exact ⟨_, exec_braRj disp rd, by rw [branchOf_untaken s p cm neg 11 disp _ h.2.1 (ht.trans h0)]; exact s.endPass_result p h⟩
    · have run := exec_bra disp
      have fetched := afterTarget_fetched s p o hn
      rw [branchOf_taken s p cm neg 21 disp none h.2.1 o (by omega) hd ho (ht ▸ h0) hok (by simp), ht] at run
      refine ⟨fun hall => ⟨_, run, ?_⟩, fun hall hroom => ⟨_, run, ?_⟩, fun hall hfull => run.trans (congrArg _ ?_)⟩
      · rw [branchTo_all _ p o _ taken hall]
        exact jump_goes s _ p o h hn fetched
      · rw [branchTo_serial _ p o _ taken hall (by simp), if_pos ((stackFits_iff p _ ha).mpr (by simpa using hroom))]
        exact splits_serially s _ p o none taken x h hn fetched hx
      · rw [branchTo_serial _ p o _ taken hall (by simp), if_neg (mt (stackFits_iff p _ ha).mp (by simpa using hfull))]
        rfl
    · have run := exec_braRj disp rd
      have fetched := (afterTarget_fetched s p o hn).trans (afterTarget_fetched _ p (o + 2 * rd) ((afterTarget_fetched s p o hn).noParts hn))
      rw [branchOf_taken s p cm neg 11 disp (some rd) h.2.1 o (by omega) hd ho (ht ▸ h0) hok (by simpa using hrj), ht] at run
      refine ⟨fun hall => ⟨_, run, ?_⟩, fun hall hl hst hf => ⟨_, run, ?_⟩, fun hall hdeep hroom => ⟨_, run, ?_⟩⟩
      · rw [branchTo_all _ p o _ taken hall]
        exact jump_goes s _ p o h hn fetched
      · exact splits_in_arms s _ p o _ taken x h hn fetched hx h0 hall hl hst hf
      · have deep : (p.sk.arms.length == 1 && p.arm.stack.isEmpty && !p.trapMode) = false := by
          rw [Bool.eq_false_iff, ne_eq, atTop_iff p h.2.1]
          tauto
        rw [branchTo_serial _ p o _ taken hall fun _ => deep, if_pos ((stackFits_iff p _ ha).mpr (by simpa using by omega))]
        exact splits_serially s _ p o _ taken x h hn fetched hx
end

section
/-! PROOFS. Join registers (R67, R68, R70): sets of lanes, what a register is evaluated to, and how a path waits. -/

namespace Sys2Proof.Machine

/-! ### Sets of lanes -/

theorem lanes_split (x y : Lanes) : (x &&& y) ||| (x &&& ~~~y) = x := by
  refine BitVec.eq_of_getLsbD_eq fun i hi => ?_
  simp [hi, ← Bool.and_or_distrib_left]
theorem lanes_inter_of_diff (x y : Lanes) (h : x &&& ~~~y = 0) : x &&& y = x := by
  conv_rhs => rw [← lanes_split x y, h]
  simp
theorem lanes_diff_of_inter (x y : Lanes) (h : x &&& y = 0) : x &&& ~~~y = x := by
  conv_rhs => rw [← lanes_split x y, h]
  simp
/-- Differences of sets of live lanes. -/
theorem lanes_live_diff (e x p m : Lanes) : (e &&& m) &&& ~~~(x &&& m) &&& ~~~(p &&& m) = e &&& m &&& ~~~x &&& ~~~p := by
  refine BitVec.eq_of_getLsbD_eq fun i hi => ?_
  simp only [BitVec.getLsbD_and, BitVec.getLsbD_not, hi, decide_true, Bool.true_and]
  cases m.getLsbD i <;> simp

/-! ### The register (R68) -/

theorem mapSet_set {α : Type} (m : NMap α) (i : Nat) (x y : α) : mapSet (mapSet m i x) i y = mapSet m i y := by
  induction m with
  | nil => simp [mapSet]
  | cons e m ih =>
    obtain ⟨k, v⟩ := e
    rcases Nat.lt_trichotomy i k with h | h | h
    · simp [mapSet, h, h.ne']
    · simp [mapSet, h]
    · simp [mapSet, h.ne, h.not_gt, ih]
/-- A join register once expected lanes have passed at the `JWAIT` at `w`. -/
def JoinReg.passing (r : JoinReg) (w : Nat) (act : Lanes) : JoinReg := { r with w := w, pd := r.pd ||| (act &&& r.e) }
/-- A join register that holds one more group, from the `JWAIT` at `w`. -/
def JoinReg.holding (r : JoinReg) (w : Nat) (g : Group) : JoinReg := { r with w := w, groups := r.groups ++ [g] }
/-- An arm whose path `q` goes on past the `JWAIT` at `w`. -/
def Arm.past (x : Arm) (q : Path) (w : Nat) : Arm := { x with issue := none, path := some { q with off := w + 4 } }

namespace Skein

@[simp] theorem join_setJoin (k : Skein) (j : Nat) (r : JoinReg) : (k.setJoin j r).join j = r := mapGetD_set_same _ _ _ _
theorem join_setJoin_other (k : Skein) (i j : Nat) (r : JoinReg) (h : i ≠ j) : (k.setJoin j r).join i = k.join i :=
  mapGetD_set_other _ _ _ _ _ h
@[simp] theorem groupLanes_one (g : Group) : groupLanes [g] = g.lanes := by simp [groupLanes]
theorem sole_index (k : Skein) (a : Nat) (x : Arm) (hx : k.arms[a]? = some x) (hk : k.arms = [x]) : a = 0 := by
  have := (List.getElem?_eq_some_iff.mp hx).1
  simpa [hk] using this
theorem switchTo_sole (k : Skein) (a : Nat) (x y : Arm) (hx : k.arms[a]? = some x) (hk : k.arms = [x]) (hy : y.issue = none) :
    (k.switchTo a y).arms = [y] := by
  rw [sole_index k a x hx hk]
  show (listMod k.arms 0 fun _ => y).map Arm.unlatched = [y]
  rw [hk]
  exact congrArg (fun z => [z]) (y.unlatched_of_closed hy)
theorem merge_sole (k : Skein) (a : Arm) (h : k.arms = [a]) : k.merge = k := by unfold merge; rw [h]

theorem setJoin_setJoin (k : Skein) (j : Nat) (r q : JoinReg) : (k.setJoin j r).setJoin j q = k.setJoin j q := by
  simp only [setJoin, mapSet_set]
/-- A join register without its exited lanes, holding the groups `l`. -/
def living (k : Skein) (r : JoinReg) (l : List Group) : JoinReg :=
  { r with e := r.e &&& k.live, a := r.a &&& k.live, pd := r.pd &&& k.live, groups := l }
@[simp] theorem setJoin_live (k : Skein) (j : Nat) (r : JoinReg) : (k.setJoin j r).live = k.live := rfl
/-- A register that holds no group notes exits alone. -/
theorem settleJoin_empty (k : Skein) (j : Nat) (r : JoinReg) (h : r.groups = []) :
    (k.setJoin j r).settleJoin j = (k.setJoin j (k.living r []), false) := by
  unfold settleJoin
  simp only [join_setJoin, h, setJoin_setJoin, setJoin_live]
  rfl

section OneGroup
variable (k : Skein) (j : Nat) (r : JoinReg) (g : Group) (hg : r.groups = [g]) (h0 : g.lanes &&& k.live ≠ 0)
include hg h0

theorem living_groups : (r.groups.map fun (g : Group) => { g with lanes := g.lanes &&& k.live }).filter (fun g => g.lanes != 0)
    = [{ g with lanes := g.lanes &&& k.live }] := by
  simpa [hg] using h0
/-- The group stays held while an expected lane has neither arrived nor passed, or none has passed. -/
theorem settleJoin_holds (hall : g.lanes &&& k.live ≠ r.e &&& k.live)
    (hn : r.pd &&& k.live = 0 ∨ r.e &&& k.live &&& ~~~g.lanes &&& ~~~r.pd ≠ 0) :
    (k.setJoin j r).settleJoin j = (k.setJoin j (k.living r [{ g with lanes := g.lanes &&& k.live }]), false) := by
  unfold settleJoin
  simp only [join_setJoin, setJoin_setJoin, setJoin_live, living_groups k r g hg h0, groupLanes_one, if_neg h0, if_neg hall, lanes_live_diff]
  rw [if_neg (by tauto)]
  rfl
/-- The join breaks: every expected lane is held or has passed. -/
theorem settleJoin_breaks (hall : g.lanes &&& k.live ≠ r.e &&& k.live) (hp : r.pd &&& k.live ≠ 0)
    (hd : r.e &&& k.live &&& ~~~g.lanes &&& ~~~r.pd = 0) :
    (k.setJoin j r).settleJoin j = (((k.setJoin j JoinReg.idle).release r.w { g with lanes := g.lanes &&& k.live }).orStatus stJLOST, true) := by
  unfold settleJoin
  simp only [join_setJoin, setJoin_setJoin, setJoin_live, living_groups k r g hg h0, groupLanes_one, if_neg h0, if_neg hall, lanes_live_diff]
  rw [if_pos ⟨hp, hd⟩]
  rfl
/-- The whole set is there: the register is idle and the group goes on. -/
theorem settleJoin_releases (ha : g.arm = 0) (hb : g.base = k.win.base) (hall : g.lanes &&& k.live = r.e &&& k.live) :
    (k.setJoin j r).settleJoin j = ((k.setJoin j JoinReg.idle).release r.w { g with lanes := g.lanes &&& k.live }, false) := by
  have one : joinGroups (k.setJoin j r).win.base [{ g with lanes := g.lanes &&& k.live }] = [{ g with lanes := g.lanes &&& k.live }] := by
    show joinGroups k.win.base _ = _
    simp [joinGroups, ha, hb]
  unfold settleJoin
  simp only [join_setJoin, setJoin_setJoin, setJoin_live, living_groups k r g hg h0, groupLanes_one, if_neg h0, if_pos hall, one]
  rfl
end OneGroup

/-! ### A group released (R76) -/

/-- The path of a group released from the `JWAIT` at `w` with the current base. -/
def releasedPath (w : Nat) (g : Group) : Path := { off := w + 4, lanes := g.lanes, base := g.base, last := w }
theorem releasedPath_eq (k : Skein) (w : Nat) (g : Group) (h : g.base = k.win.base) :
    ({ off := w + 4, lanes := g.lanes, base := g.base, last := w, mis := g.base != k.win.base } : Path) = releasedPath w g := by
  simp [releasedPath, h]
theorem release_pends (k : Skein) (w : Nat) (g : Group) (x : Arm) (q : Path) (hx : k.arms[g.arm]? = some x) (hq : x.path = some q)
    (hb : g.base = k.win.base) : k.release w g = k.modArm g.arm fun _ => { x with stack := .path (releasedPath w g) :: x.stack } := by
  unfold release
  simp only [releasedPath_eq k w g hb, k.arm_of _ x hx, hq, Option.isNone_some, Bool.false_eq_true, if_false, k.modArm_put _ _ x hx]
theorem release_runs (k : Skein) (w : Nat) (g : Group) (x : Arm) (hx : k.arms[g.arm]? = some x) (hq : x.path = none)
    (hb : g.base = k.win.base) : k.release w g = k.switchTo g.arm (x.running (releasedPath w g) x.stack) := by
  unfold release
  simp only [releasedPath_eq k w g hb, k.arm_of _ x hx, hq, Option.isNone_none, if_true]
  exact runPath_eq k _ _ x hx

/-! ### Waiting (R67) -/

section Waiting
variable (k : Skein) (a j w : Nat) (act : Lanes) (x : Arm) (q : Path) (hx : k.arms[a]? = some x) (hq : x.path = some q)
include hx hq

/-- A path none of whose active lanes has arrived goes on, and the register notes those it expects. -/
theorem waitJoin_passes (hn : act &&& (k.join j).a = 0) (h0 : q.lanes ≠ 0) :
    k.waitJoin a j w act =
      (let s := ((k.modArm a fun _ => x.past q w).setJoin j ((k.join j).passing w act)).settleJoin j
       (s.1.merge, s.2)) := by
  have none_ : act &&& (k.join j).e &&& ~~~(k.join j).a = act &&& (k.join j).e := by
    rw [BitVec.and_assoc, BitVec.and_comm (k.join j).e, ← BitVec.and_assoc, lanes_diff_of_inter _ _ hn]
  unfold waitJoin
  simp only [k.arm_of a x hx, hq, hn, if_true, if_neg h0, none_]
  rw [modArm_put (k.setJoin j _) a _ x hx]
  rfl
/-- A path all of whose active lanes have arrived is held as one group, its inactive lanes with it, and the arm's next path runs. -/
theorem waitJoin_holds (hn : act &&& ~~~(k.join j).a = 0) (h0 : act ≠ 0) (st : List Entry) (hst : popPath k.live x.stack = (none, st)) :
    k.waitJoin a j w act =
      (let g : Group := { lanes := q.lanes, arm := a, base := k.win.base }
       let s := ((k.switchTo a (x.ended st)).setJoin j ((k.join j).holding w g)).settleJoin j
       (s.1.merge, s.2)) := by
  have all := lanes_inter_of_diff _ _ hn
  have none_ : act &&& (k.join j).e &&& ~~~(k.join j).a = 0 := by
    rw [BitVec.and_assoc, BitVec.and_comm (k.join j).e, ← BitVec.and_assoc, hn]; simp
  have self (m : Lanes) : m &&& ~~~m = 0 := by simp
  have same (m : Lanes) : m ||| (0 : Lanes) = m := by simp
  unfold waitJoin
  simp only [k.arm_of a x hx, hq, all, self, none_, if_neg h0, if_true, same]
  rw [nextPath_ends (k.setJoin j _) a x st hx hst]
  rfl

/-! ### What becomes of a path at a `JWAIT` (R67, R68) -/

/-- The path passes, and no group is held. -/
theorem waitJoin_passed (hn : act &&& (k.join j).a = 0) (h0 : q.lanes ≠ 0) (hg : (k.join j).groups = []) (hc : x.complete = false) :
    k.waitJoin a j w act = ((k.modArm a fun _ => x.past q w).setJoin j (k.living ((k.join j).passing w act) []), false) := by
  rw [waitJoin_passes k a j w act x q hx hq hn h0, settleJoin_empty _ j _ (by exact hg)]
  exact congrArg (·, false) (merge_running _ a _ (put_get _ a x (x.past q w) hx) hc)
/-- The path passes with the last expected lanes: the held group `g` pends on its arm's stack, and the join has broken. -/
theorem waitJoin_broke (g : Group) (hn : act &&& (k.join j).a = 0) (h0 : q.lanes ≠ 0) (hc : x.complete = false)
    (hg : (k.join j).groups = [g]) (ha : g.arm = a) (hb : g.base = k.win.base) (hl : g.lanes &&& k.live = g.lanes) (hg0 : g.lanes ≠ 0)
    (hd : (k.join j).e &&& k.live &&& ~~~g.lanes ≠ 0)
    (hp : (k.join j).e &&& k.live &&& ~~~g.lanes &&& ~~~((k.join j).pd ||| (act &&& (k.join j).e)) = 0) :
    k.waitJoin a j w act = (((k.modArm a fun _ =>
      { x.past q w with stack := .path (releasedPath w g) :: x.stack }).setJoin j JoinReg.idle).orStatus stJLOST, true) := by
  let m := k.modArm a fun _ => x.past q w
  let y : Arm := { x.past q w with stack := .path (releasedPath w g) :: x.stack }
  have notAll : g.lanes &&& k.live ≠ (k.join j).e &&& k.live := fun e => hd (by rw [← e, hl]; simp)
  have passed : ((k.join j).passing w act).pd &&& k.live ≠ 0 := fun e => hd <| by
    have apart : (k.join j).e &&& k.live &&& ~~~g.lanes &&& ((k.join j).passing w act).pd
        = (k.join j).e &&& ~~~g.lanes &&& (((k.join j).passing w act).pd &&& k.live) := by ac_rfl
    exact (lanes_diff_of_inter _ ((k.join j).passing w act).pd (by rw [apart, e]; simp)).symm.trans hp
  have put : m.arms[g.arm]? = some (x.past q w) := by rw [ha]; exact put_get _ a x _ hx
  have same : ({ g with lanes := g.lanes &&& m.live } : Group) = g := by rw [show m.live = k.live from rfl, hl]
  have pends : (m.setJoin j JoinReg.idle).release w g = (k.modArm a fun _ => y).setJoin j JoinReg.idle := by
    rw [release_pends (m.setJoin j JoinReg.idle) w g (x.past q w) _ put rfl hb, ha, ← modArm_put_put k a (x.past q w) y]
    rfl
  rw [waitJoin_passes k a j w act x q hx hq hn h0,
    settleJoin_breaks m j ((k.join j).passing w act) g hg (by rw [show m.live = k.live from rfl, hl]; exact hg0) notAll passed hp, same]
  show (((m.setJoin j JoinReg.idle).release w g).orStatus stJLOST |>.merge, true) = _
  rw [pends]
  exact congrArg (·, true) (merge_running _ a y (put_get k a x y hx) hc)

section Sole
variable (h0 : act ≠ 0) (hn : act &&& ~~~(k.join j).a = 0) (hg : (k.join j).groups = []) (hs : x.stack = []) (hk : k.arms = [x])
  (hl : q.lanes &&& k.live ≠ 0)
include h0 hn hg hs hk hl

/-- The only path of a sole arm is held: the arm is complete. -/
theorem waitJoin_held (hall : q.lanes &&& k.live ≠ (k.join j).e &&& k.live)
    (hp : (k.join j).pd &&& k.live = 0 ∨ (k.join j).e &&& k.live &&& ~~~q.lanes &&& ~~~(k.join j).pd ≠ 0) :
    k.waitJoin a j w act = ((k.switchTo a (x.ended [])).setJoin j
      (k.living { k.join j with w := w } [{ lanes := q.lanes &&& k.live, arm := a, base := k.win.base }]), false) := by
  let g : Group := { lanes := q.lanes, arm := a, base := k.win.base }
  have one : ((k.join j).holding w g).groups = [g] := by rw [JoinReg.holding, hg]; rfl
  let s := (k.switchTo a (x.ended [])).setJoin j ((k.join j).holding w g)
  have held : k.waitJoin a j w act = ((s.settleJoin j).1.merge, (s.settleJoin j).2) :=
    waitJoin_holds k a j w act x q hx hq hn h0 [] (by rw [hs]; rfl)
  rw [held, settleJoin_holds (k.switchTo a (x.ended [])) j ((k.join j).holding w g) g one hl hall hp]
  exact congrArg (·, false) (merge_sole _ _ (switchTo_sole k a x _ hx hk rfl))
/-- The only path of a sole arm is the whole set: it goes on. -/
theorem waitJoin_released (hall : q.lanes &&& k.live = (k.join j).e &&& k.live) :
    k.waitJoin a j w act = (((k.switchTo a (x.ended [])).setJoin j JoinReg.idle).switchTo a
      ((x.ended []).running (releasedPath w { lanes := q.lanes &&& k.live, arm := a, base := k.win.base }) []), false) := by
  let g : Group := { lanes := q.lanes, arm := a, base := k.win.base }
  let m := (k.switchTo a (x.ended [])).setJoin j JoinReg.idle
  have one : ((k.join j).holding w g).groups = [g] := by rw [JoinReg.holding, hg]; rfl
  have hm : m.arms = [x.ended []] := switchTo_sole k a x _ hx hk rfl
  have ha : a = 0 := (sole_index k a x hx hk)
  have put : m.arms[a]? = some (x.ended []) := by rw [ha, hm]; rfl
  let s := (k.switchTo a (x.ended [])).setJoin j ((k.join j).holding w g)
  have held : k.waitJoin a j w act = ((s.settleJoin j).1.merge, (s.settleJoin j).2) :=
    waitJoin_holds k a j w act x q hx hq hn h0 [] (by rw [hs]; rfl)
  rw [held, settleJoin_releases (k.switchTo a (x.ended [])) j ((k.join j).holding w g) g one hl ha rfl hall]
  show ((m.release w { g with lanes := q.lanes &&& k.live }).merge, false) = _
  rw [release_runs m w { g with lanes := q.lanes &&& k.live } (x.ended []) put rfl rfl]
  exact congrArg (·, false) (merge_sole _ _ (switchTo_sole m a _ _ put hm rfl))
end Sole
end Waiting

end Skein
end Sys2Proof.Machine
end

section
/-! PROOFS. Switch points and join instructions (R54, R67, R84, R392): how their passes end. -/

namespace Sys2Proof.Machine

/-! ### The pass -/

/-- An active lane is a lane of the execute mask. -/
theorem LanePass.em_ne_zero {s : State} {p : Pass} (h : LanePass s p) (h0 : p.act ≠ 0) : p.em ≠ 0 := by
  suffices ∃ m : Lanes, p.act = p.em &&& m from fun e => h0 (by obtain ⟨m, hm⟩ := this; rw [hm, e]; simp)
  obtain ⟨hp, hc, -⟩ := h
  unfold State.pass? at hp
  cases e : s.cur with
  | none => simp [e] at hp
  | some w =>
    cases w with
    | coach b =>
      simp only [e, Option.bind_eq_bind, Option.bind_eq_some_iff] at hp
      obtain ⟨x, -, c, -, hp⟩ := hp
      cases hp
      simp at hc
    | skein b i a =>
      simp only [e, Option.bind_eq_bind, Option.bind_eq_some_iff] at hp
      obtain ⟨x, -, k, -, r, -, u, -, q, -, hp⟩ := hp
      cases hp
      refine ⟨q.2 &&& u.replay.getD 0xFFFF, ?_⟩
      show q.2 &&& k.live &&& u.replay.getD 0xFFFF &&& u.exec = u.exec &&& k.live &&& (q.2 &&& u.replay.getD 0xFFFF)
      ac_rfl
/-- The end of a pass changes planes and arms of a skein alone. -/
theorem Skein.endPass_shape (k : Skein) (a n : Nat) : k.endPass a n = { k with
    r := { k.r with planes := (k.endPass a n).r.planes }, arms := (k.endPass a n).arms } := by
  unfold Skein.endPass
  split
  · rfl
  · split
    · split <;> rfl
    · rfl
theorem OnlySkein.others {s t : State} {p : Pass} {k : Skein} (h : OnlySkein s t p.bid p.ix k) : OthersKept s t p := by
  obtain ⟨n, rfl⟩ := h
  exact ⟨rfl, fun b hb => s.modBlk_blk_other _ _ _ hb, fun i hi => s.modSk_sk_other _ _ _ _ _ (.inr hi)⟩
theorem OnlySkein.sk {s t : State} {b i : Nat} {k x : Skein} (h : OnlySkein s t b i k) (hx : s.sk? b i = some x) : t.sk? b i = some k := by
  obtain ⟨n, rfl⟩ := h
  rw [State.takeFree_sk, State.modSk_sk, hx]; rfl
theorem OnlySkein.of_put (s : State) (b i : Nat) (k : Skein) : OnlySkein s (s.modSk b i fun _ => k) b i k := ⟨0, rfl⟩
/-- A pass that ends on the skein `k`, whose issuing arm is `a`, inside the issue `u`. -/
theorem pass_ended_on (s : State) (p : Pass) (k : Skein) (a : Arm) (u : Issue) (h : LanePass s p) (ha : k.arms[p.ai]? = some a)
    (hu : a.issue = some u) (hf : u.fails = []) :
    (s.modSk p.bid p.ix fun _ => k).endPass p = s.modSk p.bid p.ix fun _ => k.endPass p.ai s.mem.writes := by
  obtain ⟨hs, -⟩ := h.parts
  rw [State.endPass_skein _ p k u h.2.1 (by rw [State.modSk_sk, hs]; rfl) (by rw [k.arm_of _ a ha, hu]) hf, State.modSk_modSk]
  rfl

/-! ### Join registers -/

/-- A join register written as the pass ends. -/
theorem setJoin_ended (s : State) (p : Pass) (j : Nat) (r : JoinReg) (h : LanePass s p) :
    JoinResult s ((s.modSk p.bid p.ix fun _ => p.sk.setJoin j r).endPass p) p j r := by
  obtain ⟨-, ha, u, hu, hf, hoff, hlen, hlast, -⟩ := h.parts
  let k := (p.sk.setJoin j r).endPass p.ai s.mem.writes
  have hk : k = { p.sk.setJoin j r with r := { (p.sk.setJoin j r).r with planes := k.r.planes }, arms := k.arms } := Skein.endPass_shape _ _ _
  obtain ⟨rest, on, -⟩ := endPass_rest { p with sk := p.sk.setJoin j r } (p.sk.setJoin j r) u u p.arm.ks s.mem.writes p.arm hu hoff hlen hlast ha
    (by rw [← hu]) ⟨rfl, rfl, rfl, hf, rfl⟩ rfl fun _ _ => rfl
  rw [pass_ended_on s p (p.sk.setJoin j r) p.arm u h ha hu hf]
  refine ⟨k, .of_put _ _ _ _, ⟨on.next, on.planes⟩, ?_, fun i hi => ?_, ?_, rest.arms⟩
  · rw [hk]; exact Skein.join_setJoin p.sk j r
  · rw [hk]; exact Skein.join_setJoin_other p.sk i j r hi
  · rw [hk]; rfl

/-! ### Switch points (R47, R84) -/

/-- The pass's arm at a switch point. -/
def Pass.swArm (p : Pass) : Arm := ({ p.arm with sw := p.arm.sw || p.sk.pends p.ai } : Arm).unlatched
theorem switchPoint_eq (s : State) (p : Pass) (h : LanePass s p) : s.switchPoint p = s.modSk p.bid p.ix fun _ => p.atSwitch.sk := by
  obtain ⟨hs, -⟩ := h.parts
  unfold State.switchPoint
  simp only [h.2.1, Bool.false_eq_true, if_false]
  exact State.modSk_const s p.bid p.ix _ p.sk hs
theorem atSwitch_arm (p : Pass) (ha : p.sk.arms[p.ai]? = some p.arm) : p.atSwitch.sk.arms[p.ai]? = some p.swArm := by
  show (Skein.dropLatches _).arms[p.ai]? = _
  rw [Skein.dropLatches_get, Skein.modArm_get, if_pos rfl, ha]
  rfl
theorem atSwitch_other (p : Pass) (b : Nat) (hb : b ≠ p.ai) : p.atSwitch.sk.arms[b]? = p.switched.sk.arms[b]? := by
  show (Skein.dropLatches _).arms[b]? = p.sk.dropLatches.arms[b]?
  rw [Skein.dropLatches_get, Skein.modArm_get, if_neg hb, Skein.dropLatches_get]
/-- A switch point whose pass only ends. -/
theorem switch_ended (s : State) (p : Pass) (h : LanePass s p) : SwitchedOn s ((s.switchPoint p).endPass p) p p.arm.ks := by
  obtain ⟨hs, ha, u, hu, hf, hoff, hlen, hlast, -⟩ := h.parts
  let v : Issue := { u with pushed := u.pushed.map fun b => { b with valid := 0 } }
  have hv : p.swArm.issue = some v := by simp [Pass.swArm, Arm.unlatched, hu, v]
  have hx := atSwitch_arm p ha
  let k := p.atSwitch.sk.endPass p.ai s.mem.writes
  obtain ⟨rest, on, -⟩ := endPass_rest { p.atSwitch with arm := p.swArm } p.atSwitch.sk v v p.arm.ks s.mem.writes p.swArm hv hoff hlen hlast hx
    (by rw [← hv]; rfl) ⟨rfl, rfl, rfl, hf, rfl⟩ rfl fun _ _ => rfl
  have hk : k = { p.atSwitch.sk with r := { p.atSwitch.sk.r with planes := k.r.planes }, arms := k.arms } := Skein.endPass_shape _ _ _
  rw [switchPoint_eq s p h, pass_ended_on s p _ _ v h hx hv hf]
  have only := OnlySkein.of_put s p.bid p.ix k
  refine ⟨only.others, k, only.sk hs, ?_, ⟨?_, ?_⟩, ?_⟩
  · exact { idx := rest.idx, role := rest.role, win := rest.win, joins := rest.joins, exited := rest.exited, life := rest.life, frame := rest.frame,
            rejoin := rest.rejoin, misc := rest.misc, arms := fun b hb => (rest.arms b hb).trans (atSwitch_other p b hb) }
  · have next := on.next
    dsimp only at next
    rw [hv] at next
    rw [hu]
    exact next
  · have planes := on.planes
    dsimp only at planes
    rw [hv] at planes
    rw [hu]
    exact planes
  · rw [hk]; rfl

end Sys2Proof.Machine
end

section
/-! PROOFS. O23, from the rules of join registers and of switch points. -/

namespace Sys2Proof.Machine

/-! ### `JINIT` and `JARR` -/

theorem jinitOf_sets (s : State) (p : Pass) (j : Nat) (m : Pass → Lanes) (h : LanePass s p)
    (hg : Skein.groupLanes (p.sk.join j).groups &&& p.sk.armLanes p.ai = 0) :
    ∃ t, jinitOf s j m = .next t ∧ JoinResult s t p j
      (let r := p.sk.join j
       let mine := p.sk.armLanes p.ai
       let e := (r.e &&& ~~~mine) ||| (m p &&& mine &&& p.sk.live)
       { r with e := e, a := r.a &&& ~~~mine, pd := r.pd &&& ~~~mine, w := if e &&& ~~~mine = 0 then 0 else r.w }) := by
  refine ⟨_, s.withPass_some p _ h.1, ?_⟩
  rw [s.guarded_ok p _ _ (by simp [laneRole_ok p h.2.1])]
  simp only [Skein.initJoin, hg, ne_eq, not_true, if_false]
  exact setJoin_ended s p j _ h
theorem jinitOf_busy (s : State) (p : Pass) (j : Nat) (m : Pass → Lanes) (h : LanePass s p)
    (hg : Skein.groupLanes (p.sk.join j).groups &&& p.sk.armLanes p.ai ≠ 0) : jinitOf s j m = .next (s.raise p (p.ill .joinBusy)) := by
  refine (s.withPass_some p _ h.1).trans (congrArg _ ?_)
  rw [s.guarded_ok p _ _ (by simp [laneRole_ok p h.2.1])]
  simp only [Skein.initJoin, if_pos hg]
theorem jarr_notes (s : State) (p : Pass) (j : Nat) (h : LanePass s p) :
    Runs s (.jarr j) fun t => JoinResult s t p j { p.sk.join j with a := (p.sk.join j).a ||| (p.act &&& (p.sk.join j).e) } := by
  obtain ⟨hs, -⟩ := h.parts
  refine ⟨_, s.withPass_some p _ h.1, ?_⟩
  rw [s.guarded_ok p _ _ (by simp [laneRole_ok p h.2.1]), State.modSk_const s p.bid p.ix _ p.sk hs]
  exact setJoin_ended s p j _ h

/-! ### `JWAIT` -/

theorem untrapped_ok (p : Pass) (hf : p.sk.frame = none) : p.untrapped = none := by
  simp [Pass.untrapped, whenBad, Pass.trapMode, Skein.trapMode, hf]

section Jwait
variable (s : State) (p : Pass) (j : Nat) (h : LanePass s p) (hf : p.sk.frame = none)
include h hf

theorem jwait_inactive (h0 : p.act = 0) : exec (.jwait j) s = .next ((s.switchPoint p).endPass p) := by
  refine (s.withPass_some p _ h.1).trans (congrArg _ ?_)
  rw [State.laneGuarded_ok _ p _ _ (by simp [laneRole_ok p h.2.1, untrapped_ok p hf, whenBad, h0]), if_pos h0]
theorem jwait_elsewhere (h0 : p.act ≠ 0) (hg : Skein.groupLanes (p.sk.join j).groups ≠ 0) (hw : (p.sk.join j).w ≠ p.off) :
    SwitchTraps s p (.jwait j) .illegal .joinOffset := by
  refine (s.withPass_some p _ h.1).trans (congrArg _ ?_)
  have bad : (p.act != 0 && Skein.groupLanes (p.sk.join j).groups != 0 && (p.sk.join j).w != p.off) = true := by
    rw [bne_iff_ne.mpr h0, bne_iff_ne.mpr hg, bne_iff_ne.mpr hw]; rfl
  have issues : (!p.coach && p.em == 0) = false := by rw [h.2.1, beq_eq_false_iff_ne.mpr (h.em_ne_zero h0)]; rfl
  simp only [State.laneGuarded, issues, State.guarded, laneRole_ok p h.2.1, untrapped_ok p hf, whenBad, bad, firstSome, if_true]
  rfl
/-- The path waits: the join's evaluation is the skein's, and a broken join is counted. -/
theorem jwait_waits (h0 : p.act ≠ 0) (hg : (p.sk.join j).groups = [] ∨ (p.sk.join j).w = p.off) :
    exec (.jwait j) s = .next (let r := p.atSwitch.sk.waitJoin p.ai j p.off p.act
      let t := s.modSk p.bid p.ix fun _ => r.1
      if r.2 then t.countCore p.core 0x06 p.ctx else t) := by
  obtain ⟨hs, -⟩ := h.parts
  refine (s.withPass_some p _ h.1).trans (congrArg _ ?_)
  have here : whenBad (p.act != 0 && Skein.groupLanes (p.sk.join j).groups != 0 && (p.sk.join j).w != p.off) (p.ill .joinOffset) = none := by
    rcases hg with hg | hg <;> simp [whenBad, hg, Skein.groupLanes]
  rw [State.laneGuarded_ok _ p _ _ (by simp only [laneRole_ok p h.2.1, untrapped_ok p hf, here]; simp), if_neg h0, switchPoint_eq s p h]
  simp only [State.modSk_sk, hs, Option.map_some, Option.getD_some, State.modSk_modSk]
end Jwait

/-! ### A path at a `JWAIT` (R67, R68, R70) -/

theorem countCore_eq (s : State) (g src ctx by_ : Nat) : ∃ e, s.countCore g src ctx by_ = { s with events := e } := by
  unfold State.countCore
  split
  · exact ⟨s.events, rfl⟩
  · exact s.countAt_eq _ _ _ _ _
theorem swArm_past (p : Pass) (x : Path) : p.swArm.past x p.off
    = { p.arm with issue := none, path := some { x with off := p.off + 4 }, sw := (p.swArm.past x p.off).sw } := rfl
theorem atSwitch_sole (p : Pass) (ha : p.sk.arms[p.ai]? = some p.arm) (hk : p.sk.arms = [p.arm]) : p.atSwitch.sk.arms = [p.swArm] := by
  have i := Skein.sole_index p.sk p.ai p.arm ha hk
  show ((listMod p.sk.arms p.ai _).map Arm.unlatched) = _
  rw [i, hk]
  show [Arm.unlatched _] = [p.swArm]
  rw [Pass.swArm, i]
theorem atSwitch_put (p : Pass) (y : Arm) (ha : p.sk.arms[p.ai]? = some p.arm) :
    ArmIs p.switched (p.atSwitch.sk.modArm p.ai fun _ => y) y :=
  ⟨Skein.put_get _ _ _ y (atSwitch_arm p ha), fun b hb =>
    (Skein.modArm_get _ _ _ _).trans ((if_neg hb).trans (atSwitch_other p b hb))⟩

section AtJoin
variable (s : State) (p : Pass) (j : Nat) (x : Path) (h : LanePass s p) (hf : p.sk.frame = none) (h0 : p.act ≠ 0)
  (hx : p.arm.path = some x)
include h hf h0 hx

theorem jwait_passes (hc : p.arm.complete = false) (hl : x.lanes ≠ 0) (hg : (p.sk.join j).groups = []) (hn : p.act &&& (p.sk.join j).a = 0) :
    Runs s (.jwait j) fun t => ∃ k a, OnlySkein s t p.bid p.ix k
      ∧ k = { p.sk.dropLatches with r := { p.sk.dropLatches.r with joins := k.r.joins }, arms := k.arms } ∧ ArmIs p.switched k a
      ∧ k.join j = p.sk.living ((p.sk.join j).passing p.off p.act) [] ∧ (∀ i, i ≠ j → k.join i = p.sk.join i)
      ∧ a = { p.arm with issue := none, path := some { x with off := p.off + 4 }, sw := a.sw } := by
  obtain ⟨-, ha, -⟩ := h.parts
  refine ⟨_, jwait_waits s p j h hf h0 (.inl hg), ?_⟩
  rw [Skein.waitJoin_passed p.atSwitch.sk p.ai j p.off p.act p.swArm x (atSwitch_arm p ha) hx hn hl hg hc]
  exact ⟨_, p.swArm.past x p.off, .of_put _ _ _ _, rfl, atSwitch_put p _ ha, Skein.join_setJoin _ _ _,
    fun i hi => Skein.join_setJoin_other _ _ _ _ hi, swArm_past p x⟩
theorem jwait_breaks (g : Group) (hc : p.arm.complete = false) (hl : x.lanes ≠ 0) (hg : (p.sk.join j).groups = [g])
    (hn : p.act &&& (p.sk.join j).a = 0) (hga : g.arm = p.ai) (hgb : g.base = p.sk.win.base) (hg0 : g.lanes ≠ 0)
    (hgl : g.lanes &&& p.sk.live = g.lanes) (hw : (p.sk.join j).w = p.off) (hd : (p.sk.join j).e &&& p.sk.live &&& ~~~g.lanes ≠ 0)
    (hp : (p.sk.join j).e &&& p.sk.live &&& ~~~g.lanes &&& ~~~((p.sk.join j).pd ||| (p.act &&& (p.sk.join j).e)) = 0) :
    Runs s (.jwait j) fun t => OthersKept s t p ∧ ∃ k a, t.sk? p.bid p.ix = some k
      ∧ k = { p.sk.dropLatches with
          r := { p.sk.dropLatches.r with joins := k.r.joins, status := p.sk.r.status ||| stJLOST }, arms := k.arms }
      ∧ ArmIs p.switched k a ∧ k.join j = JoinReg.idle ∧ (∀ i, i ≠ j → k.join i = p.sk.join i)
      ∧ a = { p.arm with issue := none, path := some { x with off := p.off + 4 }, sw := a.sw
                         stack := .path { off := p.off + 4, lanes := g.lanes, base := g.base, last := p.off } :: p.arm.stack } := by
  obtain ⟨hs, ha, -⟩ := h.parts
  let y : Arm := { p.swArm.past x p.off with stack := .path (Skein.releasedPath p.off g) :: p.swArm.stack }
  let k := ((p.atSwitch.sk.modArm p.ai fun _ => y).setJoin j JoinReg.idle).orStatus stJLOST
  have only := OnlySkein.of_put s p.bid p.ix k
  obtain ⟨bytes, blocks, skeins⟩ := only.others
  obtain ⟨e, he⟩ := countCore_eq (s.modSk p.bid p.ix fun _ => k) p.core 0x06 p.ctx 1
  refine ⟨_, jwait_waits s p j h hf h0 (.inr hw), ?_⟩
  rw [Skein.waitJoin_broke p.atSwitch.sk p.ai j p.off p.act p.swArm x (atSwitch_arm p ha) hx g hn hl hc hg hga hgb hgl hg0 hd hp]
  show OthersKept s (State.countCore _ _ _ _ _) p ∧ _
  rw [if_pos rfl, he]
  exact ⟨⟨bytes, blocks, skeins⟩, k, y, only.sk hs, rfl, atSwitch_put p y ha, Skein.join_setJoin _ _ _,
    fun i hi => Skein.join_setJoin_other _ _ _ _ hi, rfl⟩

section Sole
variable (hg : (p.sk.join j).groups = []) (hn : p.act &&& ~~~(p.sk.join j).a = 0) (hs : p.arm.stack = []) (hk : p.sk.arms = [p.arm])
  (hl : x.lanes &&& p.sk.live ≠ 0)
include hg hn hs hk hl

theorem jwait_holds (hall : x.lanes &&& p.sk.live ≠ (p.sk.join j).e &&& p.sk.live)
    (hp : (p.sk.join j).pd &&& p.sk.live = 0 ∨ (p.sk.join j).e &&& p.sk.live &&& ~~~x.lanes &&& ~~~(p.sk.join j).pd ≠ 0) :
    Runs s (.jwait j) fun t => ∃ k a, OnlySkein s t p.bid p.ix k
      ∧ k = { p.sk.dropLatches with r := { p.sk.dropLatches.r with joins := k.r.joins }, arms := [a] }
      ∧ k.join j = p.sk.living { p.sk.join j with w := p.off } [{ lanes := x.lanes &&& p.sk.live, arm := p.ai, base := p.sk.win.base }]
      ∧ (∀ i, i ≠ j → k.join i = p.sk.join i) ∧ a.path = none ∧ a.complete = true ∧ a.stack = [] ∧ a.issue = none ∧ a.ks = p.arm.ks := by
  obtain ⟨-, ha, -⟩ := h.parts
  have hx' := atSwitch_arm p ha
  have hk' := atSwitch_sole p ha hk
  have arms := Skein.switchTo_sole p.atSwitch.sk p.ai p.swArm (p.swArm.ended []) hx' hk' rfl
  refine ⟨_, jwait_waits s p j h hf h0 (.inl hg), ?_⟩
  rw [Skein.waitJoin_held p.atSwitch.sk p.ai j p.off p.act p.swArm x hx' hx h0 hn hg hs hk' hl hall hp]
  refine ⟨_, p.swArm.ended [], .of_put _ _ _ _, ?_, Skein.join_setJoin _ _ _,
    fun i hi => Skein.join_setJoin_other _ _ _ _ hi, rfl, rfl, rfl, rfl, rfl⟩
  rw [← arms]
  rfl
theorem jwait_releases (hall : x.lanes &&& p.sk.live = (p.sk.join j).e &&& p.sk.live) :
    Runs s (.jwait j) fun t => ∃ k a, OnlySkein s t p.bid p.ix k ∧ k.join j = JoinReg.idle ∧ k.arms = [a]
      ∧ a.path = some { off := p.off + 4, lanes := x.lanes &&& p.sk.live, base := p.sk.win.base, last := p.off } ∧ a.issue = none ∧ a.ks = p.arm.ks
      ∧ k.r.lanes = p.sk.r.lanes ∧ k.r.masks = p.sk.r.masks ∧ k.r.status = p.sk.r.status := by
  obtain ⟨-, ha, -⟩ := h.parts
  have hx' := atSwitch_arm p ha
  have hk' := atSwitch_sole p ha hk
  let m := (p.atSwitch.sk.switchTo p.ai (p.swArm.ended [])).setJoin j JoinReg.idle
  have arms : m.arms = [p.swArm.ended []] := Skein.switchTo_sole p.atSwitch.sk p.ai p.swArm _ hx' hk' rfl
  have put : m.arms[p.ai]? = some (p.swArm.ended []) := by rw [arms, Skein.sole_index _ _ _ hx' hk']; rfl
  refine ⟨_, jwait_waits s p j h hf h0 (.inl hg), ?_⟩
  rw [Skein.waitJoin_released p.atSwitch.sk p.ai j p.off p.act p.swArm x hx' hx h0 hn hg hs hk' hl hall]
  exact ⟨_, _, .of_put _ _ _ _, Skein.join_setJoin p.atSwitch.sk j JoinReg.idle, Skein.switchTo_sole m p.ai _ _ put arms rfl,
    rfl, rfl, rfl, rfl, rfl, rfl⟩
end Sole
end AtJoin

end Sys2Proof.Machine

open Sys2Proof Sys2Proof.Machine

/-- Settles O23: `JINIT` and `JARR` write their register as the pass ends, and a `JWAIT` is the skein's own wait at a switch point,
which the rules of a held group follow case by case. -/
theorem joins : Obligations.Joins := by
  intro s p j h r mine init
  refine ⟨fun hg => ⟨fun imm => jinitOf_sets s p j _ h hg, fun c => jinitOf_sets s p j (·.sk.mask c) h hg⟩,
    fun hg => ⟨fun imm => jinitOf_busy s p j _ h hg, fun c => jinitOf_busy s p j (·.sk.mask c) h hg⟩,
    jarr_notes s p j h,
    fun hf h0 => ⟨_, jwait_inactive s p j h hf h0, switch_ended s p h⟩,
    fun hf => jwait_elsewhere s p j h hf,
    fun x hf h0 hx hc hl => ⟨?_, ?_, ?_⟩, ?_⟩
  · exact fun hg hn hlive hall hp hs hk => jwait_holds s p j x h hf h0 hx hg hn hs hk hlive hall hp
  · exact fun hg hn => jwait_passes s p j x h hf h0 hx hc hl hg hn
  · exact fun g hg hga hgb hg0 hgl hw hn => jwait_breaks s p j x h hf h0 hx g hc hl hg hn hga hgb hg0 hgl hw
  · intro x hf h0 hg hx hn he hxl hs hk
    rw [← hxl]
    exact jwait_releases s p j x h hf h0 hx hg hn hs hk (by rwa [hxl]) (hxl.trans he.symm)
end

section
/-! PROOFS. The state after reset (R88, R153, R244, R315, R324). -/

open Sys2Proof Sys2Proof.Machine

/-- Settles O59: every table of the state after reset is empty, so that what is read is what an absent entry reads as. -/
theorem resetState : Obligations.ResetState := by
  unfold Obligations.ResetState
  exact ⟨rfl, rfl, rfl, rfl, rfl, rfl, rfl, rfl, rfl, rfl, rfl, fun _ => ⟨rfl, rfl, rfl⟩, fun _ => rfl, fun _ _ => rfl, fun _ => rfl, fun _ => rfl,
    fun _ => rfl, rfl⟩
end

section
/-! PROOFS. What a fetch of code reads (R52, R167): nothing of a skein, so that a skein's change alters neither what is fetched nor what the
fetch changes. -/

namespace Sys2Proof.Machine

theorem any_mapMod {α : Type} (m : NMap α) (i : Nat) (f : α → α) (g : α → Bool) (h : ∀ x, g (f x) = g x) :
    (mapMod m i f).any (fun e => g e.2) = m.any fun e => g e.2 := by
  induction m with
  | nil => rfl
  | cons e m ih => by_cases he : e.1 = i <;> simp [mapMod, he, h, ih]

namespace State

variable (s : State) (b i : Nat) (f : Skein → Skein)

/-! ### What is read of a state -/

theorem modSk_events : (s.modSk b i f).events = s.events := rfl
theorem modSk_variant : (s.modSk b i f).variant = s.variant := rfl
theorem modSk_die (d : Nat) : (s.modSk b i f).die d = s.die d := rfl
theorem modSk_chan (c : Nat) : (s.modSk b i f).chan c = s.chan c := rfl
theorem modSk_port (n : Nat) : (s.modSk b i f).port n = s.port n := rfl
theorem modSk_homePkg (c va : Nat) : (s.modSk b i f).homePkg c va = s.homePkg c va := rfl
theorem modSk_linkFor (pkg va : Nat) : (s.modSk b i f).linkFor pkg va = s.linkFor pkg va := rfl
theorem modSk_mapOk (c va : Nat) : (s.modSk b i f).mapOk c va = s.mapOk c va := rfl
theorem modSk_homeOf (c va size : Nat) : (s.modSk b i f).homeOf c va size = s.homeOf c va size := rfl
theorem modSk_keyFor (c pkg : Nat) (enc : Bool) (slot : Nat) : (s.modSk b i f).keyFor c pkg enc slot = s.keyFor c pkg enc slot := rfl
theorem modSk_ctuFind (c va : Nat) : (s.modSk b i f).ctuFind c va = s.ctuFind c va := rfl
/-- A map entry has moved under resident blocks, whatever their skeins are. -/
theorem modSk_mapMoved (c va : Nat) : (s.modSk b i f).mapMoved c va = s.mapMoved c va := by
  have ids := any_mapMod s.blocks b (fun x => { x with skeins := listMod x.skeins i f })
    (fun x => x.id.ctx == c && decide (x.id.core < 2 ^ 32)) fun _ => rfl
  unfold mapMoved
  rw [modSk_ctx, show (s.modSk b i f).blocks = mapMod s.blocks b fun x => { x with skeins := listMod x.skeins i f } from rfl, ids]
  rfl
theorem modSk_unsure (c va : Nat) : (s.modSk b i f).unsure c va = s.unsure c va := by
  unfold unsure; rw [modSk_mapMoved]; rfl
theorem modSk_walkFrom (c : Nat) (root : W64) (va : Nat) (l : List (Nat × Nat × Nat)) (t : Nat) :
    (s.modSk b i f).walkFrom c root va l t = s.walkFrom c root va l t := by
  induction l generalizing t with
  | nil => rfl
  | cons e l ih => unfold walkFrom; simp only [ih]; rfl
theorem modSk_walkReads (c : Nat) (root : W64) (va : Nat) (l : List (Nat × Nat × Nat)) (t : Nat) :
    (s.modSk b i f).walkReads c root va l t = s.walkReads c root va l t := by
  induction l generalizing t with
  | nil => rfl
  | cons e l ih => unfold walkReads; simp only [ih]; rfl
theorem modSk_walk (c va : Nat) : (s.modSk b i f).walk c va = s.walk c va := by
  unfold walk; simp only [modSk_walkFrom, modSk_ctx]; rfl

/-! ### What is changed -/

/-- Steps that each pass over a skein's change. -/
theorem modSk_foldl {α : Type} (g : State → α → State) (hg : ∀ t x, g (t.modSk b i f) x = (g t x).modSk b i f) (l : List α) :
    l.foldl g (s.modSk b i f) = (l.foldl g s).modSk b i f := by
  induction l generalizing s with
  | nil => rfl
  | cons x l ih => rw [List.foldl_cons, hg, ih]; rfl

theorem modSk_modPort (n : Nat) (g : Port → Port) : (s.modSk b i f).modPort n g = (s.modPort n g).modSk b i f := rfl
theorem modSk_modChan (c : Nat) (g : Chan → Chan) : (s.modSk b i f).modChan c g = (s.modChan c g).modSk b i f := rfl
theorem modSk_ctuFill (c va size : Nat) (e : W64) : (s.modSk b i f).ctuFill c va size e = (s.ctuFill c va size e).modSk b i f := rfl
theorem modSk_countAt (base n src ctx by_ : Nat) : (s.modSk b i f).countAt base n src ctx by_ = (s.countAt base n src ctx by_).modSk b i f :=
  modSk_foldl s b i f _ (fun t j => by dsimp only [modSk, modBlk]; split <;> rfl) _
theorem modSk_countDie (d src ctx by_ : Nat) : (s.modSk b i f).countDie d src ctx by_ = (s.countDie d src ctx by_).modSk b i f := by
  unfold countDie; rw [modSk_countAt, modSk_events]; split <;> rfl
theorem modSk_countPkg (d src ctx by_ : Nat) : (s.modSk b i f).countPkg d src ctx by_ = (s.countPkg d src ctx by_).modSk b i f := by
  unfold countPkg; rw [modSk_countAt, modSk_events]; split <;> rfl
theorem modSk_countHome (h : Home) (c n : Nat) : (s.modSk b i f).countHome h c n = (s.countHome h c n).modSk b i f := by
  unfold countHome; rw [modSk_die, modSk_countDie, modSk_countDie, modSk_countPkg]; split <;> rfl
theorem modSk_touchL2 (line pol : Nat) : (s.modSk b i f).touchL2 line pol = (s.touchL2 line pol).modSk b i f := by
  unfold touchL2
  dsimp only
  rw [modSk_die]
  split
  · rfl
  · split <;> rfl
theorem modSk_lookWalk (c va : Nat) : (s.modSk b i f).lookWalk c va = (s.lookWalk c va).modSk b i f := by
  unfold lookWalk
  rw [modSk_ctx]
  cases s.ctx? c with
  | none => rfl
  | some x =>
    dsimp only
    rw [modSk_variant, modSk_walkReads]
    split
    · rfl
    · refine modSk_foldl s b i f _ (fun t a => ?_) _
      unfold lookAt; rw [modSk_countHome, modSk_touchL2]
theorem modSk_reclaim (ch : Nat) : (s.modSk b i f).reclaim ch = (s.reclaim ch).modSk b i f := by
  unfold reclaim
  rw [modSk_chan, modSk_modChan, modSk_countPkg]
  split <;> rfl
theorem modSk_request (c va : Nat) (kind : Kind) :
    (s.modSk b i f).request c va kind = ((s.request c va kind).1.modSk b i f, (s.request c va kind).2) := by
  have reached (t : State) (ch : Nat) (g : Chan → Chan) : ((t.modSk b i f).reclaim ch).modChan ch g = ((t.reclaim ch).modChan ch g).modSk b i f := by
    rw [modSk_reclaim]; rfl
  unfold request
  rw [modSk_ctuFind, modSk_walk, modSk_lookWalk]
  cases s.ctuFind c va with
  | some l =>
    dsimp only
    rw [modSk_homeOf, modSk_keyFor]
    split
    · rfl
    · dsimp only; rw [reached, modSk_mapMoved]; rfl
  | none =>
    cases s.walk c va with
    | error u => rfl
    | ok r =>
      dsimp only
      rw [modSk_homeOf, modSk_keyFor, modSk_ctuFill]
      split
      · rfl
      · dsimp only; rw [reached, modSk_mapMoved]; rfl
theorem modSk_sendFlit (link typ : Nat) (l : List Byte) : (s.modSk b i f).sendFlit link typ l = (s.sendFlit link typ l).modSk b i f := by
  unfold sendFlit putOut
  dsimp only
  rw [modSk_port]
  split
  · rfl
  · rw [modSk_modPort, modSk_modPort, modSk_countPkg, modSk_time]
theorem modSk_sendPacket (pkg va : Nat) : (s.modSk b i f).sendPacket pkg va = (s.sendPacket pkg va).modSk b i f := by
  unfold sendPacket sendSolo
  rw [modSk_linkFor, modSk_sendFlit]
  rfl
theorem modSk_passSwitch (o : Origin) (va : Nat) (h : NoParts s) : (s.modSk b i f).passSwitch o va = (s.passSwitch o va).modSk b i f := by
  unfold passSwitch
  dsimp only
  rw [forwardLine_noParts s _ _ _ h, forwardLine_noParts (s.modSk b i f) _ _ _ h, modSk_sendPacket, modSk_sendPacket,
    modSk_homePkg]
  split <;> rfl

/-! ### What is fetched -/

/-- What a fetch answers: the line that the instruction cache holds, else its home's bytes. -/
theorem fetchLine_answer (g c va : Nat) : (s.fetchLine g c va).2 =
    (lineIn (s.core g).icache c va).elim
      (let r := (s.passSwitch { ctx := c, core := some g, pkg := pkgOf g, bid := none, ix := 255, off := 0 } va).request c (lineVa va) .fetch
       r.2.map r.1.homeLine)
      fun l => .ok ((s.sureLine c va l.data).2, l.bad) := by
  unfold fetchLine
  cases lineIn (s.core g).icache c va with
  | some l => rfl
  | none =>
    dsimp only [Option.elim]
    cases (request _ c (lineVa va) Kind.fetch).2 with
    | error f => rfl
    | ok x => dsimp only; split <;> rfl
theorem modSk_fetchLine (g c va : Nat) (h : NoParts s) : ((s.modSk b i f).fetchLine g c va).2 = (s.fetchLine g c va).2 := by
  have sure (d : LineW) : ((s.modSk b i f).sureLine c va d).2 = (s.sureLine c va d).2 := by
    unfold sureLine; rw [modSk_unsure]; split <;> rfl
  rw [fetchLine_answer, fetchLine_answer, modSk_core, modSk_passSwitch _ _ _ _ _ _ h, modSk_request]
  simp only [sure]
  rfl
theorem modSk_fetchBytes (g c va n : Nat) (h : NoParts s) : ((s.modSk b i f).fetchBytes g c va n).2 = (s.fetchBytes g c va n).2 := by
  unfold fetchBytes
  dsimp only
  rw [modSk_fetchLine s b i f g c va h, modSk_mapOk]
  split
  · rfl
  · split
    · rfl
    · split
      · rfl
      · split <;> rfl
theorem modSk_targetOk (d : Code) (g c o : Nat) (h : NoParts s) : ((s.modSk b i f).targetOk d g c o).2 = (s.targetOk d g c o).2 := by
  unfold targetOk mapBit
  split
  · rfl
  · exact congrArg (Except.map fun v => bit1 v (o / 2 % 8)) (modSk_fetchBytes s b i f g c _ 1 h)

end State
end Sys2Proof.Machine
end

section
/-! PROOFS. Calls and returns (R76, R84, R364, R421): the window's checks, and the move of window and path. -/

namespace Sys2Proof.Machine

/-! ### Checks one after another (R287) -/

theorem State.guarded_nil (s : State) (p : Pass) (e : State) : s.guarded p [] e = e := rfl
theorem State.guarded_none (s : State) (p : Pass) (l : List (Option Trap)) (e : State) : s.guarded p (none :: l) e = s.guarded p l e := rfl
theorem State.guarded_when (s : State) (p : Pass) (bad : Bool) (t : Trap) (l : List (Option Trap)) (e : State) :
    s.guarded p (whenBad bad t :: l) e = if bad then s.raise p t else s.guarded p l e := by cases bad <;> rfl

/-! ### A target at a switch point -/

theorem switchPoint_target (s : State) (p : Pass) (o : Nat) (h : LanePass s p) (hn : NoParts s) (ho : TargetOk s p o) :
    TargetOk (s.switchPoint p) p o := by
  unfold TargetOk
  rw [switchPoint_eq s p h, modSk_codeOf, State.modSk_targetOk s _ _ _ _ _ _ _ hn]
  exact ho
/-- The skein at its switch point, code fetched beside it. -/
theorem switchPoint_fetched (s : State) (p : Pass) (o : Nat) (h : LanePass s p) (hn : NoParts s) :
    ∃ w, CodeFetched s w ∧ afterTarget (s.switchPoint p) p o = w.modSk p.bid p.ix fun _ => p.atSwitch.sk := by
  rw [switchPoint_eq s p h]
  exact (afterTarget_fetched (s.modSk p.bid p.ix fun _ => p.atSwitch.sk) p o hn).before
/-- A switch point whose target passes goes on from the skein's latches dropped. -/
theorem switchPoint_goes (s : State) (p : Pass) (o : Nat) (f : State → State) (h : LanePass s p) (hn : NoParts s) (ho : TargetOk s p o) :
    ∃ w, CodeFetched s w ∧ (s.switchPoint p).withTarget p o f = f (w.modSk p.bid p.ix fun _ => p.atSwitch.sk) := by
  obtain ⟨w, hw, e⟩ := switchPoint_fetched s p o h hn
  exact ⟨w, hw, by rw [withTarget_ok _ p o f (switchPoint_target s p o h hn ho), e]⟩

/-! ### The move (R76) -/

/-- The window and the path of a skein at its switch point move; `ks` are the uniform registers by then. -/
theorem moveWindow_moves (s w : State) (p : Pass) (k : Skein) (b o : Nat) (ks : NMap W64) (hw : CodeFetched s w)
    (hk : k = { p.sk.dropLatches with arms := k.arms }) (ha : ArmIs p.switched k { p.swArm with ks := ks }) :
    WindowMoved s (moveWindow (w.modSk p.bid p.ix fun _ => k) p b o) p b o ks := by
  obtain ⟨harm, others⟩ := ha
  let k' : Skein := { k with win := { k.win with base := b } }
  let a : Arm := { p.swArm with ks := ks, issue := none, path := p.arm.path.map fun (x : Path) => { x with off := o, base := b } }
  have moved : moveWindow (w.modSk p.bid p.ix fun _ => k) p b o = w.modSk p.bid p.ix fun _ => k'.modArm p.ai fun _ => a := by
    unfold moveWindow
    rw [State.modSk_modSk]
    exact modArm_const w p.bid p.ix p.ai _ k' _ harm
  refine ⟨_, a, ⟨w, hw, moved⟩, ?_, ⟨Skein.put_get k' p.ai _ a harm, fun c hc => ?_⟩, rfl⟩
  · show ({ k with win := { k.win with base := b }, arms := _ } : Skein) = _
    rw [hk]; rfl
  · exact (Skein.modArm_get k' p.ai c _).trans ((if_neg hc).trans (others c hc))

/-! ### `CALL` and `RET` -/

/-- The skein at its switch point is the pass's with its latches dropped, but for its arms. -/
theorem atSwitch_armIs (p : Pass) (ha : p.sk.arms[p.ai]? = some p.arm) : ArmIs p.switched p.atSwitch.sk p.swArm :=
  ⟨atSwitch_arm p ha, fun b hb => atSwitch_other p b hb⟩

theorem oneArm_ok (p : Pass) (h : p.sk.arms.length ≠ 2) : p.oneArm = none := by simp [Pass.oneArm, whenBad, h]

section
variable (s : State) (p : Pass) (h : LanePass s p) (hf : p.sk.frame = none) (hl : p.sk.arms.length ≠ 2)
include h hf hl

/-- What `CALL` checks, once the role, the mode and the arms allow it. -/
theorem exec_call (n8 disp o : Nat) (hd : disp < 2 ^ 19) (ho : (p.off : Int) + 2 * (BitVec.ofNat 19 disp).toInt = o) :
    exec (.call n8 disp) s = .next (let n := 8 * (n8 + 1)
      let b := p.sk.win.base + n
      let u := s.switchPoint p
      if 1024 < b + p.sk.win.reach then u.raise p (p.trap .illegal .windowDepth)
      else if p.sk.win.allot + p.sk.win.spill < b + p.sk.win.reach then u.raise p (p.trap .windowOverflow .none)
      else u.withTarget p o fun u => moveWindow (u.setK p 31 (BitVec.ofNat 64 (n * 2 ^ 32 + p.off + p.len))) p b o) := by
  obtain ⟨hs, ht⟩ := target_eq p 19 disp o (by omega) hd ho
  have fwd : ¬(p.off : Int) + 2 * signed 19 disp < 0 := by omega
  refine (s.withPass_some p _ h.1).trans (congrArg _ ?_)
  simp only [ht, laneRole_ok p h.2.1, untrapped_ok p hf, oneArm_ok p hl, State.guarded_none, State.guarded_when, State.guarded_nil, fwd,
    decide_eq_true_eq, if_false]
  rfl
theorem exec_ret : exec .ret s = .next (let link := (p.k 31).toNat
      let n := bitsOf link 47 32
      let u := s.switchPoint p
      if n = 0 ∨ n % 8 ≠ 0 ∨ 64 < n ∨ p.sk.win.base < n ∨ bitsOf link 63 48 ≠ 0 then u.raise p (p.trap .illegal .link)
      else if p.sk.win.base < p.sk.win.spill + n then u.raise p (p.trap .windowUnderflow .none)
      else u.withTarget p (link % 2 ^ 32) fun u => moveWindow u p (p.sk.win.base - n) (link % 2 ^ 32)) := by
  refine (s.withPass_some p _ h.1).trans (congrArg _ ?_)
  simp only [laneRole_ok p h.2.1, untrapped_ok p hf, oneArm_ok p hl, State.guarded_none, State.guarded_when, State.guarded_nil,
    decide_eq_true_eq, beq_iff_eq, Bool.or_eq_true, bne_iff_ne, or_assoc]
  rfl
end

/-- The fields of a link (R364): the window's size, the offset, and the bits that are 0. -/
theorem link_fields (w : W64) : (w.extractLsb' 32 16).toNat = bitsOf w.toNat 47 32 ∧ (w.extractLsb' 0 32).toNat = w.toNat % 2 ^ 32
    ∧ (w.extractLsb' 48 16).toNat = bitsOf w.toNat 63 48 := by
  simp [BitVec.extractLsb'_toNat, Nat.shiftRight_eq_div_pow, bitsOf]
/-- The move of a `CALL`: the link stands in `k31`. -/
theorem call_moves (s : State) (p : Pass) (b o : Nat) (link : W64) (h : LanePass s p) (hn : NoParts s) (ho : TargetOk s p o) :
    WindowMoved s ((s.switchPoint p).withTarget p o fun u => moveWindow (u.setK p 31 link) p b o) p b o (mapSet p.arm.ks 31 link) := by
  obtain ⟨-, ha, -⟩ := h.parts
  obtain ⟨harm, others⟩ := atSwitch_armIs p ha
  obtain ⟨w, hw, e⟩ := switchPoint_goes s p o _ h hn ho
  rw [e, State.setK_skein _ p 31 link h.2.1, ← State.modArm_eq, modArm_const w p.bid p.ix p.ai _ _ _ harm]
  exact moveWindow_moves s w p _ b o _ hw rfl ⟨Skein.put_get _ _ _ _ harm, fun c hc =>
    (Skein.modArm_get _ _ _ _).trans ((if_neg hc).trans (others c hc))⟩
theorem ret_moves (s : State) (p : Pass) (b o : Nat) (h : LanePass s p) (hn : NoParts s) (ho : TargetOk s p o) :
    WindowMoved s ((s.switchPoint p).withTarget p o fun u => moveWindow u p b o) p b o p.arm.ks := by
  obtain ⟨-, ha, -⟩ := h.parts
  obtain ⟨w, hw, e⟩ := switchPoint_goes s p o _ h hn ho
  rw [e]
  exact moveWindow_moves s w p _ b o _ hw rfl (atSwitch_armIs p ha)

end Sys2Proof.Machine

open Sys2Proof Sys2Proof.Machine

/-- Settles O22: which of its checks a call or a return meets first, and the window's move where it meets none. -/
theorem callsAndReturns : Obligations.CallsAndReturns := by
  intro s p h hn hf hl
  refine ⟨fun n8 disp o hd ho => ?_, ?_⟩
  · have run := exec_call s p h hf hl n8 disp o hd ho
    refine ⟨fun deep => ?_, fun fits above => ?_, fun fits room hok => ⟨_, run, ?_⟩⟩
    · exact run.trans (congrArg _ (if_pos deep))
    · exact run.trans (congrArg _ ((if_neg (by omega)).trans (if_pos above)))
    · dsimp only
      rw [if_neg (by omega), if_neg (by omega), Nat.add_assoc (_ * 2 ^ 32)]
      exact call_moves s p _ o _ h hn hok
  · have run := exec_ret s p h hf hl
    obtain ⟨hsize, hoff, hzero⟩ := link_fields (p.k 31)
    dsimp only
    rw [hsize, hoff, hzero]
    refine ⟨fun bad => ?_, fun good under => ?_, fun good room hok => ⟨_, run, ?_⟩⟩
    · exact run.trans (congrArg _ (if_pos bad))
    · exact run.trans (congrArg _ ((if_neg good).trans (if_pos (by omega))))
    · dsimp only
      rw [if_neg good, if_neg (by omega)]
      exact ret_moves s p _ _ h hn hok
end

section
/-! PROOFS. Special registers (R88, R89, R283): the value that is read, what a read counts, and how its pass ends. -/

namespace Sys2Proof.Machine

/-! ### Entries that stay as they are -/

theorem mapMod_self {α : Type} (m : NMap α) (i : Nat) (f : α → α) (x : α) (h : mapGet m i = some x) (hf : f x = x) : mapMod m i f = m := by
  induction m with
  | nil => rfl
  | cons e m ih =>
    obtain ⟨k, v⟩ := e
    by_cases g : k = i <;> simp_all [mapMod, mapGet]

namespace State

theorem modSk_self (s : State) (b i : Nat) (k : Skein) (h : s.sk? b i = some k) : (s.modSk b i fun _ => k) = s := by
  cases e : s.blk? b with
  | none => simp [sk?, e] at h
  | some x =>
    have same : listMod x.skeins i (fun _ => k) = x.skeins := listMod_put_same _ _ _ (by simpa [sk?, e] using h)
    rw [modSk, modBlk, mapMod_self s.blocks b _ x e (by rw [same])]
theorem modLaunch_self (s : State) (i : Nat) (f : Launch → Launch) (l : Launch) (h : s.launch? i = some l) (hf : f l = l) : s.modLaunch i f = s := by
  rw [modLaunch, mapMod_self s.launches i f l h hf]
theorem modCoach_modCoach (s : State) (b : Nat) (f g : Coach → Coach) : (s.modCoach b f).modCoach b g = s.modCoach b fun c => g (f c) := by
  simp only [modCoach, modBlk_modBlk, Option.map_map]; rfl
theorem modCoach_self (s : State) (b : Nat) (f : Coach → Coach) (c : Coach) (h : (s.blk? b).bind (·.coach) = some c) (hf : f c = c) :
    s.modCoach b f = s := by
  obtain ⟨x, hx, hc⟩ := Option.bind_eq_some_iff.mp h
  rw [modCoach, modBlk, mapMod_self s.blocks b _ x hx (by rw [hc, Option.map_some, hf, ← hc])]
/-- What a coach is changed to depends on that coach alone. -/
theorem modCoach_congr (s : State) (b : Nat) (f g : Coach → Coach) (c : Coach) (h : (s.blk? b).bind (·.coach) = some c) (hfg : f c = g c) :
    s.modCoach b f = s.modCoach b g := by
  obtain ⟨x, hx, hc⟩ := Option.bind_eq_some_iff.mp h
  rw [modCoach, modCoach, modBlk_const s b _ x hx, modBlk_const s b (fun x => { x with coach := x.coach.map g }) x hx, hc, Option.map_some,
    Option.map_some, hfg]

end State

/-- The coach of a pass. -/
theorem CoachPass.co {s : State} {p : Pass} (h : CoachPass s p) : (s.blk? p.bid).bind (·.coach) = some p.co := by
  obtain ⟨hp, hc⟩ := h
  unfold State.pass? at hp
  cases e : s.cur with
  | none => simp [e] at hp
  | some w =>
    cases w with
    | skein b i a =>
      simp only [e, Option.bind_eq_bind, Option.bind_eq_some_iff] at hp
      obtain ⟨x, -, k, -, r, -, u, -, q, -, hp⟩ := hp
      cases hp
      simp at hc
    | coach b =>
      simp only [e, Option.bind_eq_bind, Option.bind_eq_some_iff] at hp
      obtain ⟨x, hx, c, hco, hp⟩ := hp
      cases hp
      simp [hx, hco]

/-! ### What a read counts (R283) -/

theorem noteSample_counts (s : State) (p : Pass) (num v : Nat) (l : Launch) (hl : s.launch? p.blk.id.lid = some l) (hr : l.rec_ = none) :
    noteSample s p num v = (recordedReg num).elim s (countOrd s p) := by
  unfold noteSample
  cases recordedReg num with
  | none => rfl
  | some r =>
    have launch : (countOrd s p r).launch? p.blk.id.lid = some l := by unfold countOrd; split <;> exact hl
    exact State.modLaunch_self _ _ _ l launch (by cases l; simp only at hr; subst hr; rfl)
/-- The counts of recorded reads alone may differ after a read. -/
theorem noteSample_skein (s : State) (p : Pass) (num v : Nat) (l : Launch) (h : LanePass s p) (hl : s.launch? p.blk.id.lid = some l)
    (hr : l.rec_ = none) : ∃ o, noteSample s p num v = s.modSk p.bid p.ix fun _ => (p.withOrd o).sk := by
  obtain ⟨hs, -⟩ := h.parts
  rw [noteSample_counts s p num v l hl hr]
  cases recordedReg num with
  | none => exact ⟨p.sk.x.ord, (s.modSk_self p.bid p.ix p.sk hs).symm⟩
  | some r =>
    refine ⟨mapSet p.sk.x.ord r (mapGetD p.sk.x.ord r 0 + 1), ?_⟩
    dsimp only [Option.elim, countOrd]
    rw [if_neg (by simp [h.2.1]), s.modSk_const p.bid p.ix _ p.sk hs]
    rfl
theorem noteSample_coach (s : State) (p : Pass) (num v : Nat) (l : Launch) (h : CoachPass s p) (hl : s.launch? p.blk.id.lid = some l)
    (hr : l.rec_ = none) : ∃ o, noteSample s p num v = s.modCoach p.bid fun c => { c with ord := o } := by
  rw [noteSample_counts s p num v l hl hr]
  cases recordedReg num with
  | none => exact ⟨p.co.ord, (s.modCoach_self p.bid _ p.co h.co rfl).symm⟩
  | some r =>
    refine ⟨mapSet p.co.ord r (mapGetD p.co.ord r 0 + 1), ?_⟩
    dsimp only [Option.elim, countOrd]
    rw [if_pos h.2]
    exact s.modCoach_congr p.bid _ _ p.co h.co rfl

/-! ### How the pass of a read ends -/

/-- A pass that ends on the skein `k`, which differs from the pass's in lane registers, uniform registers and counts of reads. -/
theorem read_ended (s : State) (p : Pass) (o : NMap Nat) (k : Skein) (ks : NMap W64) (h : LanePass s p)
    (hk : k = { (p.withOrd o).sk with r := { p.sk.r with lanes := k.r.lanes }, arms := k.arms }) (ha : ArmIs p k { p.arm with ks := ks }) :
    ∃ t, OnlySkein s ((s.modSk p.bid p.ix fun _ => k).endPass p) p.bid p.ix t ∧ RestKept (p.withOrd o) t ∧ WentOn (p.withOrd o) t ks
      ∧ t.r.lanes = k.r.lanes ∧ t.r.masks = p.sk.r.masks ∧ t.r.latch = p.sk.r.latch ∧ t.r.status = p.sk.r.status ∧ t.win = p.sk.win
      ∧ t.vbase = p.sk.vbase := by
  obtain ⟨-, -, u, hu, hf, hoff, hlen, hlast, -⟩ := h.parts
  obtain ⟨rest, on, hlanes, hmasks, hlatch, hstatus, -⟩ := endPass_rest (p.withOrd o) k u u ks s.mem.writes _ hu hoff hlen hlast ha.1
    (by rw [← hu]; rfl) ⟨rfl, rfl, rfl, hf, rfl⟩ (by rw [hk]; rfl) ha.2
  refine ⟨_, ?_, rest, on, hlanes, hmasks.trans (by rw [hk]), hlatch.trans (by rw [hk]), hstatus.trans (by rw [hk]), rest.win, ?_⟩
  · rw [pass_ended_on s p k _ u h ha.1 hu hf]
    exact .of_put _ _ _ _
  · rw [Skein.vbase, Skein.trapMode, rest.win, rest.frame]; rfl
theorem read_uniform (s : State) (p : Pass) (o : NMap Nat) (kd : Nat) (v : W64) (h : LanePass s p) :
    UniformResult s ((s.modSk p.bid p.ix fun _ => (p.withOrd o).sk).uniform p kd v) (p.withOrd o) kd v 0 := by
  obtain ⟨-, ha, -⟩ := h.parts
  unfold State.uniform
  rw [State.setK_skein _ p kd v h.2.1, ← State.modArm_eq, modArm_const s p.bid p.ix p.ai _ (p.withOrd o).sk p.arm ha]
  obtain ⟨k, only, rest, on, hlanes, hmasks, hlatch, hstatus, -⟩ := read_ended s p o _ (mapSet p.arm.ks kd v) h rfl
    ⟨Skein.put_get (p.withOrd o).sk p.ai p.arm _ ha, fun b hb => (Skein.modArm_get _ _ _ _).trans (if_neg hb)⟩
  exact ⟨k, only, rest, on, hlanes, hmasks, hlatch, hstatus.trans (by simp; rfl)⟩
theorem read_silent (s : State) (p : Pass) (o : NMap Nat) (d : Nat) (f : Nat → W32) (h : LanePass s p) :
    SilentResult s (((s.modSk p.bid p.ix fun _ => (p.withOrd o).sk).modSk p.bid p.ix fun k => k.setVs d p.lanes f).endPass p) (p.withOrd o) d f := by
  obtain ⟨-, ha, -⟩ := h.parts
  rw [State.modSk_modSk]
  obtain ⟨k, only, rest, on, hlanes, hmasks, hlatch, hstatus, hwin, hbase⟩ := read_ended s p o ((p.withOrd o).sk.setVs d p.lanes f) p.arm.ks h
    (by rw [Skein.setVs_eq]; rfl) ⟨by rw [Skein.setVs_eq]; exact ha, fun b _ => by rw [Skein.setVs_eq]; rfl⟩
  obtain ⟨hread, hkept⟩ := lane32_read (p.withOrd o) k d false f hlanes hwin hbase
  exact ⟨k, only, rest, on, hread rfl, hkept, hmasks, hlatch, hstatus⟩
theorem read_coach (s : State) (p : Pass) (o : NMap Nat) (kd : Nat) (v : W64) (h : CoachPass s p) :
    (s.modCoach p.bid fun c => { c with ord := o }).uniform p kd v
      = s.modCoach p.bid fun c => { c with ks := mapSet c.ks kd v, off := p.off + p.len, ord := o } := by
  unfold State.uniform State.setK State.endPass
  simp only [h.2, if_true, State.modCoach_modCoach]

/-! ### `SREAD` (R89, R426) -/

theorem sampled_unrecorded (s : State) (p : Pass) (num : Nat) (l : Launch) (hl : s.launch? p.blk.id.lid = some l) (hr : l.rec_ = none) :
    sampled s p num = some (uniformSpecial s p num) := by
  unfold sampled
  simp only [hl, Option.bind_some, hr]
  cases recordedReg num <;> rfl
theorem isLaneSpecial_iff (num : Nat) : isLaneSpecial num = true ↔ num = 0 ∨ num = 1 ∨ num = 9 := by simp [isLaneSpecial, or_assoc]

section
variable (s : State) (p : Pass) (l : Launch) (num : Nat) (hp : s.pass? = some p) (hl : s.launch? p.blk.id.lid = some l) (hr : l.rec_ = none)
  (hd : s.isDet p = false)
include hp

theorem sread_lane_to_k (kd : Nat) (hn : isLaneSpecial num = true) : Traps s p (.sread kd true num) .illegal .operand := by
  refine (s.withPass_some p _ hp).trans (congrArg _ ?_)
  simp only [hn, Bool.not_true, Bool.and_false, State.guarded_when, Bool.false_eq_true, if_false, Bool.and_self, if_true]
  rfl
theorem sread_lane_of_coach (d : Nat) (hc : p.coach = true) : Traps s p (.sread d false num) .illegal .role := by
  refine (s.withPass_some p _ hp).trans (congrArg _ ?_)
  simp only [hc, Bool.not_false, Bool.and_self, State.guarded_when, if_true]
  rfl
include hl hr hd
theorem sread_to_k (kd : Nat) (hn : isLaneSpecial num = false) : exec (.sread kd true num) s =
    .next ((noteSample s p num (uniformSpecial s p num)).uniform p kd (BitVec.ofNat 64 (uniformSpecial s p num))) := by
  refine (s.withPass_some p _ hp).trans (congrArg _ ?_)
  dsimp only
  rw [s.guarded_ok p _ _ (by simp [hn, hd, whenBad, sampled_unrecorded s p num l hl hr])]
  simp [hn, sampled_unrecorded s p num l hl hr]
theorem sread_to_lanes (d : Nat) (hc : p.coach = false) (hv : RegOk p d 1) : exec (.sread d false num) s =
    .next (let v := if isLaneSpecial num then 0 else uniformSpecial s p num
      ((noteSample s p num v).modSk p.bid p.ix fun k =>
        k.setVs d p.lanes fun i => BitVec.ofNat 32 (if isLaneSpecial num then laneSpecial p num i else v)).endPass p) := by
  have read : (if isLaneSpecial num then some 0 else sampled s p num) = some (if isLaneSpecial num then 0 else uniformSpecial s p num) := by
    rw [sampled_unrecorded s p num l hl hr]; split <;> rfl
  refine (s.withPass_some p _ hp).trans (congrArg _ ?_)
  rw [read, s.guarded_ok p _ _ (by simp [hc, hd, whenBad, reg_ok p d 1 hv])]
  rfl
end

end Sys2Proof.Machine

open Sys2Proof Sys2Proof.Machine

/-- Settles O28: the value is the model's own, and a read counts, whether it goes to a uniform register or to the active lanes. -/
theorem specialReads : Obligations.SpecialReads := by
  intro s p l num h hl hr hd _ x y own v perLane
  have hp : s.pass? = some p := h.elim And.left And.left
  have hv : uniformSpecial s p num = v := by
    unfold uniformSpecial gridDims
    rw [hl]; rfl
  have lane : isLaneSpecial num = true ↔ perLane := isLaneSpecial_iff num
  refine ⟨fun hn kd => ?_, fun hn kd => ?_, fun hc d => ?_, fun hc d hreg => ?_⟩
  · have run := sread_to_k s p l num hp hl hr hd kd (Bool.eq_false_iff.mpr (mt lane.mp hn))
    rw [hv] at run
    refine ⟨_, run, ?_⟩
    rcases h with h | h
    · obtain ⟨o, ho⟩ := noteSample_skein s p num v l h hl hr
      rw [ho, h.2.1]
      exact ⟨o, read_uniform s p o kd _ h⟩
    · obtain ⟨o, ho⟩ := noteSample_coach s p num v l h hl hr
      rw [ho, h.2]
      exact ⟨o, read_coach s p o kd _ h⟩
  · exact sread_lane_to_k s p num hp kd (lane.mpr hn)
  · exact sread_lane_of_coach s p num hp d hc
  · have lp : LanePass s p := h.resolve_right fun g => by rw [g.2] at hc; cases hc
    have run := sread_to_lanes s p l num hp hl hr hd d hc hreg
    obtain ⟨o, ho⟩ := noteSample_skein s p num (if isLaneSpecial num then 0 else uniformSpecial s p num) l lp hl hr
    dsimp only at run
    rw [ho] at run
    refine ⟨_, run, o, ?_⟩
    refine (congrArg (SilentResult s _ (p.withOrd o) d) (funext fun i => ?_)).mp (read_silent s p o d _ lp)
    rw [hv]
    by_cases hn : isLaneSpecial num = true
    · rcases (isLaneSpecial_iff num).mp hn with rfl | rfl | rfl <;> rfl
    · simp only [if_neg hn]
      split
      · exact absurd rfl hn
      · exact absurd rfl hn
      · exact absurd rfl hn
      · rfl
end

section
/-! PROOFS. A table load that keeps a valid latch: `ATAB` is no switch point (16 R355), so what a switch point does to the latch chain
(03 R84) does not happen there. -/

namespace Sys2Proof.Machine

/-- Lane 0 of the block's first skein runs in plane 0, from offset 0. -/
def laneZeroIssue : Issue :=
  { off := 0, len := 4, exec := 1, sets := [(0, 1)], words := [(0, 1)], rest := [(0, 1)], pushed := none, fails := [], pset := [],
    replay := none }
/-- The preloaded table "real" as a line of the core's L1 at address 0: a legal table. -/
def tableLine : CLine :=
  { tag := some 0, va := 0, data := lineOf (Config.real.map fun n => BitVec.ofNat 8 n), valid := State.allBytes, dirty := 0, w := true,
    first := false }
/-- A placed block whose skein 0 holds a valid latch and begins an issue; `k0` is 0, the address of `tableLine`. -/
def latchedSt : State :=
  let s := ((State.reset.placeWord 1).modSk 0 0 fun k => { k with r := { k.r with latch := { valid := 1, ent := [] } } }).modArm 0 0 0
    fun a => { a with issue := some laneZeroIssue }
  { s.modCore 0 (fun c => { c with l1 := [tableLine] }) with cur := some (.skein 0 0 0), agenda := [] }
def latchedPass : Pass := latchedSt.pass?.get (by decide +kernel)

theorem latchedPass_lane : LanePass latchedSt latchedPass := ⟨(Option.some_get _).symm, by decide +kernel, by decide +kernel⟩
theorem latchedPass_plain : PlainK latchedSt latchedPass := ⟨.inl latchedPass_lane, by decide +kernel, by decide +kernel⟩
theorem latchedPass_noOwnUpdates : NoOwnUpdates latchedSt latchedPass := by
  have hreqs : latchedSt.mem.reqs = [] := by decide +kernel
  have htrays : latchedSt.trays.all (fun e => e.2.parts.isEmpty) = true := by decide +kernel
  refine ⟨fun q hq => by simp [hreqs] at hq, fun e he q hq => ?_⟩
  have := List.all_eq_true.mp htrays e he
  simp [List.isEmpty_iff.mp this] at hq
theorem tableLine_inL1 : InL1 latchedSt latchedPass 0 128 tableLine := by
  unfold InL1
  decide +kernel
theorem tableLine_ok : tableOk ((lineBytes tableLine.data).map (·.toNat)) = true := by decide +kernel

/-- The latches of the first skein of block 0 that are valid after an outcome. -/
def validLatches : Out → Option (BitVec 8)
  | .next t => (t.sk? 0 0).map (·.r.latch.valid)
  | _ => none

/-- `ATAB` completes, and the skein's latch is still valid. -/
theorem atab_keeps_latch : validLatches (exec (.atab 0 0) latchedSt) = some 1 := by decide +kernel
/-- After a switch point no latch is valid (R84). -/
theorem SwitchedOn.no_latch {s t : State} {p : Pass} {ks : NMap W64} (h : SwitchedOn s t p ks) :
    (t.sk? p.bid p.ix).map (·.r.latch.valid) = some 0 := by
  obtain ⟨-, k, hk, -, -, hr⟩ := h
  rw [hk, Option.map_some, hr]
  rfl

end Sys2Proof.Machine

open Sys2Proof Sys2Proof.Machine

/-- Refutes O43: where a skein with a valid latch loads a legal table, the statement asks for a switch point's effect, every latch
invalid, but `ATAB` is no switch point (R355) and keeps the latch (`latchedSt`). -/
theorem not_tilesAndTables : ¬ Obligations.TilesAndTables := by
  intro h
  obtain ⟨-, -, atab, -⟩ := h latchedSt latchedPass
  obtain ⟨t, run, on, -⟩ := (atab latchedPass_plain latchedPass_noOwnUpdates 0 0 tableLine (by decide +kernel) (by decide +kernel)
    (by decide +kernel) (by decide +kernel) tableLine_inL1).1 tableLine_ok
  have kept := atab_keeps_latch
  rw [run] at kept
  have dropped : (t.sk? 0 0).map (·.r.latch.valid) = some 0 := SwitchedOn.no_latch (p := latchedPass) on
  exact absurd (kept.symm.trans dropped) (by decide)
end

section
/-! PROOFS. The decoder answers no instruction but one whose form the word is cut into (R96-R123): one lemma per combinator, per major
opcode's decoder and per format. -/

namespace Sys2Proof

/-- Bits read as a flag and written again. -/
theorem toNat_kb (k : Nat) (h : k < 2) : (kb k).toNat = k := by
  interval_cases k <;> rfl
@[simp] theorem kb_eq_true (k : Nat) : kb k = true ↔ k = 1 := beq_iff_eq
@[simp] theorem kb_eq_false (k : Nat) : kb k = false ↔ k ≠ 1 := by simp [kb]

/-! ### Codes that are read are the codes of what they are read as (R81, R98, R104-R110, R118) -/

theorem Src.ofCode_some (c : Nat) (a : Src) : Src.ofCode c = some a ↔ a.wf = true ∧ a.code = c := by
  refine ⟨fun h => ?_, fun ⟨hw, hc⟩ => hc ▸ Src.ofCode_code a hw⟩
  unfold Src.ofCode at h
  split at h
  · cases h; simp [Src.wf, Src.code, *]
  · split at h <;> cases h
    simp [Src.wf, Src.code]; omega
theorem Src.ofCode16_some (c : Nat) (a : Src) : Src.ofCode16 c = some a ↔ a.wf16 = true ∧ a.code16 = c := by
  refine ⟨fun h => ?_, fun ⟨hw, hc⟩ => hc ▸ Src.ofCode16_code a hw⟩
  unfold Src.ofCode16 at h
  split at h
  · cases h; simp [Src.wf16, Src.code16, *]
  · split at h <;> cases h
    simp [Src.wf16, Src.code16]; omega
/-- Codes that are read back and read as nothing else. -/
theorem codes_iff {α : Type} {code : α → Nat} {ofCode : Nat → Option α} (back : ∀ x, ofCode (code x) = some x)
    (only : ∀ c x, ofCode c = some x → code x = c) (c : Nat) (x : α) : ofCode c = some x ↔ code x = c :=
  ⟨only c x, fun h => h ▸ back x⟩
theorem Rm.ofCode_some (c : Nat) (x : Rm) : Rm.ofCode c = some x ↔ x.code = c :=
  codes_iff Rm.ofCode_code (fun c x h => by unfold Rm.ofCode at h; split at h <;> cases h <;> rfl) c x
theorem ICond.ofCode_some (c : Nat) (x : ICond) : ICond.ofCode c = some x ↔ x.code = c :=
  codes_iff ICond.ofCode_code (fun c x h => by unfold ICond.ofCode at h; split at h <;> cases h <;> rfl) c x
theorem FCond.ofCode_some (c : Nat) (x : FCond) : FCond.ofCode c = some x ↔ x.code = c :=
  codes_iff FCond.ofCode_code (fun c x h => by unfold FCond.ofCode at h; split at h <;> cases h <;> rfl) c x
theorem Scope.ofCode_some (c : Nat) (x : Scope) : Scope.ofCode c = some x ↔ x.code = c :=
  codes_iff Scope.ofCode_code (fun c x h => by unfold Scope.ofCode at h; split at h <;> cases h <;> rfl) c x
theorem Size.ofCode_some (c : Nat) (x : Size) : Size.ofCode c = some x ↔ x.code = c :=
  codes_iff Size.ofCode_code (fun c x h => by unfold Size.ofCode at h; split at h <;> cases h <;> rfl) c x
theorem CvtTy.ofCode_some (c : Nat) (x : CvtTy) : CvtTy.ofCode c = some x ↔ x.code = c :=
  codes_iff CvtTy.ofCode_code (fun c x h => by unfold CvtTy.ofCode at h; split at h <;> cases h <;> rfl) c x
theorem AtomOp.ofCode_some (c : Nat) (x : AtomOp) : AtomOp.ofCode c = some x ↔ x.code = c :=
  codes_iff AtomOp.ofCode_code (fun c x h => by unfold AtomOp.ofCode at h; split at h <;> cases h <;> rfl) c x
theorem UMode.ofCode_some (c : Nat) (x : UMode) : UMode.ofCode c = some x ↔ x.code = c :=
  codes_iff UMode.ofCode_code (fun c x h => by unfold UMode.ofCode at h; split at h <;> cases h <;> rfl) c x
theorem LdOrd.ofBits_some (ord scope : Nat) (x : LdOrd) : LdOrd.ofBits ord scope = some x ↔ x.ordBits = ord ∧ x.scopeBits = scope := by
  refine ⟨fun h => ?_, fun ⟨ho, hs⟩ => ho ▸ hs ▸ LdOrd.ofBits_code x⟩
  unfold LdOrd.ofBits at h
  split at h
  · split at h <;> cases h
    simp [LdOrd.ordBits, LdOrd.scopeBits, *]
  · obtain ⟨sc, hsc, rfl⟩ := Option.map_eq_some_iff.mp h
    exact ⟨rfl, (Scope.ofCode_some _ _).mp hsc⟩
  · cases h
theorem StOrd.ofBits_some (ord scope pol : Nat) (x : StOrd) (hs : scope < 8) (hp : pol < 2) :
    StOrd.ofBits ord scope pol = some x ↔ x.wf = true ∧ x.ordBits = ord ∧ x.scopeBits = scope ∧ x.polBit = pol := by
  refine ⟨fun h => ?_, fun ⟨hw, ho, hs, hp⟩ => ho ▸ hs ▸ hp ▸ StOrd.ofBits_code x hw⟩
  unfold StOrd.ofBits at h
  split at h
  · split at h <;> cases h
    exact ⟨rfl, rfl, by simp [StOrd.scopeBits, *], toNat_kb pol hp⟩
  · obtain ⟨sc, hsc, rfl⟩ := Option.map_eq_some_iff.mp h
    exact ⟨rfl, rfl, (Scope.ofCode_some _ _).mp hsc, toNat_kb pol hp⟩
  · cases h
    simp only [StOrd.wf, StOrd.ordBits, StOrd.scopeBits, StOrd.polBit, Bool.and_eq_true, decide_eq_true_eq, true_and]
    omega
  · cases h

/-! ### What a decoder answers (R123) -/

/-- An answer to the form `f`: ILLEGAL, or a well-formed instruction that is encoded in `f`. -/
def Decoded.Reads (f : Form) : Decoded → Prop
  | .ok i => i.wf = true ∧ encodeForm i = some f
  | .illegal _ _ => True

namespace Decoded

@[simp] theorem reads_ok (f : Form) (i : Instr) : (ok i).Reads f ↔ i.wf = true ∧ encodeForm i = some f := Iff.rfl
@[simp] theorem reads_illegal (f : Form) (c : IllCause) (n : Need) : (illegal c n).Reads f := trivial
@[simp] theorem reads_enc (f : Form) (c : Bool) (r : Decoded) : (enc c r).Reads f ↔ (c = true → r.Reads f) := by
  cases c <;> simp [enc]
@[simp] theorem reads_opd (f : Form) (n : Need) (c : Bool) (r : Decoded) : (opd n c r).Reads f ↔ (c = true → r.Reads f) := by
  cases c <;> simp [opd]
@[simp] theorem reads_sp (f : Form) (n : Need) (k : Nat) (r : Decoded) : (sp n k r).Reads f ↔ (k = 0 → r.Reads f) := by
  by_cases h : k = 0 <;> simp [sp, h]
@[simp] theorem reads_val {α : Type} (f : Form) (o : Option α) (g : α → Decoded) : (val o g).Reads f ↔ ∀ x, o = some x → (g x).Reads f := by
  cases o <;> simp [val]
@[simp] theorem reads_src (f : Form) (c : Nat) (g : Src → Decoded) :
    (src c g).Reads f ↔ ∀ a : Src, a.wf = true → a.code = c → (g a).Reads f := by
  unfold src
  cases h : Src.ofCode c with
  | none => simp only [reads_illegal, true_iff]; intro a hw hc; rw [(Src.ofCode_some c a).mpr ⟨hw, hc⟩] at h; cases h
  | some x =>
    have := (Src.ofCode_some c x).mp h
    refine ⟨fun hx a hw hc => ?_, fun hx => hx x this.1 this.2⟩
    rwa [Option.some.inj (((Src.ofCode_some c a).mpr ⟨hw, hc⟩).symm.trans h)]

end Decoded

end Sys2Proof
end

section
/-! PROOFS. Each decoder reads the form it is given (R98-R122): of every row of its table, the checks the row makes are what well-formedness
asks, and the fields it takes are those the encoder writes. `encodeForm.eq_def` unfolds the encoder as one match, whose own equations are
costly to make. -/

namespace Sys2Proof.Decoded

theorem decCmp_reads (maj d k a b mn : Nat) : (decCmp maj d k a b mn).Reads (.fr maj d k a b mn) := by
  unfold decCmp
  split <;> simp +contextual [Instr.wf, encodeForm.eq_def, ICond.ofCode_some, FCond.ofCode_some]
theorem decUniform_reads (maj d k a b mn : Nat) : (decUniform maj d k a b mn).Reads (.fr maj d k a b mn) := by
  unfold decUniform
  split
  · split <;> simp +contextual [Instr.wf, encodeForm.eq_def]
  · simp +contextual [Instr.wf, encodeForm.eq_def, ICond.ofCode_some]
  · exact reads_illegal ..
theorem decWaitcmp_reads (d k a b mn : Nat) : (decWaitcmp d k a b mn).Reads (.fr 45 d k a b mn) := by
  simp +contextual [decWaitcmp, Instr.wf, encodeForm.eq_def, ICond.ofCode_some, Scope.ofCode_some]
theorem decR2E_reads (d k a b mn : Nat) : (decR2E d k a b mn).Reads (.fr 46 d k a b mn) := by
  unfold decR2E
  split <;> simp +contextual [Instr.wf, encodeForm.eq_def, Scope.ofCode_some]
/-- `TRAP` joins the fields A and B to its number, which is where their bounds are needed. -/
theorem decR31_reads (d k a b mn : Nat) (ha : a < 128) (hb : b < 128) : (decR31 d k a b mn).Reads (.fr 49 d k a b mn) := by
  unfold decR31
  split <;> simp +contextual [Instr.wf, encodeForm.eq_def, Scope.ofCode_some]
  case h_11 => omega

section
variable (maj d k a b mn : Nat) (hd : d < 64) (hk : k < 2)
include hd hk

theorem decR01_reads : (decR01 d k a b mn).Reads (.fr 1 d k a b mn) := by
  simp only [decR01, reads_src]
  intro a ha hac b hb hbc
  split <;> simp [Instr.wf, encodeForm.eq_def, toNat_kb, *]
theorem decR02_reads : (decR02 d k a b mn).Reads (.fr 2 d k a b mn) := by
  simp only [decR02, reads_enc, reads_src, beq_iff_eq]
  intro h0 a ha hac
  split <;> simp [Instr.wf, encodeForm.eq_def, toNat_kb, *]
theorem decRnd_reads : (decRnd maj d k a b mn).Reads (.fr maj d k a b mn) := by
  simp only [decRnd, reads_val, reads_src, Rm.ofCode_some]
  intro rm hrm a ha hac b hb hbc
  split <;> simp [Instr.wf, encodeForm.eq_def, toNat_kb, *]
theorem decF_reads (hmn : mn < 16) : (decF maj d k a b mn).Reads (.fr maj d k a b mn) := by
  simp only [decF, reads_src]
  intro a ha hac b hb hbc
  split <;> simp [Instr.wf, encodeForm.eq_def, toNat_kb, *]
theorem decR0D_reads : (decR0D d k a b mn).Reads (.fr 13 d k a b mn) := by
  unfold decR0D
  split <;> simp +contextual [Instr.wf, encodeForm.eq_def, toNat_kb, *]
theorem decSelLeaBfx_reads (hmn : mn < 16) : (decSelLeaBfx maj d k a b mn).Reads (.fr maj d k a b mn) := by
  unfold decSelLeaBfx
  split <;> simp +contextual [Instr.wf, encodeForm.eq_def, toNat_kb, *]
  case h_3 => exact fun h _ _ _ _ _ _ => toNat_kb mn (by omega)
theorem decR16_reads : (decR16 d k a b mn).Reads (.fr 22 d k a b mn) := by
  unfold decR16
  split <;> simp +contextual [Instr.wf, encodeForm.eq_def, toNat_kb, *]
theorem decR17_reads : (decR17 d k a b mn).Reads (.fr 23 d k a b mn) := by
  unfold decR17
  split <;> simp +contextual [Instr.wf, encodeForm.eq_def, toNat_kb, *]
theorem decR2F_reads : (decR2F d k a b mn).Reads (.fr 47 d k a b mn) := by
  unfold decR2F
  split <;> simp +contextual [Instr.wf, encodeForm.eq_def, toNat_kb, *]
/-- Format R and format F, by the major opcode. -/
theorem decR_reads (ha : a < 128) (hb : b < 128) (hmn : mn < 16) : (decR maj d k a b mn).Reads (.fr maj d k a b mn) := by
  unfold decR
  split
  any_goals exact decRnd_reads _ d k a b mn hd hk
  any_goals exact decF_reads _ d k a b mn hd hk hmn
  any_goals exact decCmp_reads _ d k a b mn
  any_goals exact decSelLeaBfx_reads _ d k a b mn hd hk hmn
  any_goals exact decUniform_reads _ d k a b mn
  · exact decR01_reads d k a b mn hd hk
  · exact decR02_reads d k a b mn hd hk
  · exact decR0D_reads d k a b mn hd hk
  · exact decR16_reads d k a b mn hd hk
  · exact decR17_reads d k a b mn hd hk
  · exact decWaitcmp_reads d k a b mn
  · exact decR2E_reads d k a b mn
  · exact decR2F_reads d k a b mn hd hk
  · exact decR31_reads d k a b mn ha hb
  · exact reads_illegal ..
theorem decCV_reads (dt st rm : Nat) : (decCV maj d k a dt st rm).Reads (.fcv maj d k a dt st rm) := by
  simp only [decCV, reads_val, reads_enc, reads_src, CvtTy.ofCode_some, Rm.ofCode_some]
  intro dt hdt st hst rm hrm _ a ha hac
  split <;> simp [Instr.wf, encodeForm.eq_def, toNat_kb, *]
end

theorem decW_reads (maj d k h imm : Nat) (hf : (Form.fw maj d k h imm).fits) : (decW maj d k h imm).Reads (.fw maj d k h imm) := by
  obtain ⟨-, hd, hk, hh, hi⟩ := hf
  unfold decW
  split
  · split <;> simp [Instr.wf, encodeForm.eq_def, toNat_kb, *]
  · simp +contextual [Instr.wf, encodeForm.eq_def, *]
  · exact reads_illegal ..
theorem decAL_reads (d a b slot mn : Nat) (hf : (Form.fal d a b slot mn).fits) : (decAL d a b slot mn).Reads (.fal d a b slot mn) := by
  obtain ⟨hd, ha, hb, hs, -⟩ := hf
  unfold decAL
  split
  · simp [Instr.wf, encodeForm.eq_def, *]
  · simp [Instr.wf, encodeForm.eq_def, *]
  · split <;> simp [Instr.wf, encodeForm.eq_def, *]
  · split <;> simp [Instr.wf, encodeForm.eq_def, *]
  · exact reads_illegal ..
theorem decS_reads (reg kind num mn : Nat) (hf : (Form.fs reg kind num mn).fits) : (decS reg kind num mn).Reads (.fs reg kind num mn) := by
  obtain ⟨hr, hk, -, -⟩ := hf
  simp only [decS, reads_enc, reads_opd, Bool.and_eq_true, Bool.or_eq_true, decide_eq_true_eq, beq_iff_eq]
  rintro ⟨hn, hm⟩ hreg
  split
  · simp [Instr.wf, encodeForm.eq_def, toNat_kb, *]
    omega
  next h0 =>
    obtain rfl : mn = 1 := by simp only [imp_false] at h0; omega
    simp [Instr.wf, encodeForm.eq_def, toNat_kb, *]
    omega
theorem decMI_reads (maj data bk base sz pol off8 : Nat) (hf : (Form.fmi maj data bk base sz pol off8).fits) :
    (decMI maj data bk base sz pol off8).Reads (.fmi maj data bk base sz pol off8) := by
  obtain ⟨-, hd, hk, hb, hs, hp, ho⟩ := hf
  simp only [decMI, reads_val, Size.ofCode_some]
  intro z hz
  split <;> simp +contextual [Instr.wf, encodeForm.eq_def, toNat_kb, *] <;> omega
theorem decMS_reads (maj data k vx sz scope ord pol : Nat) (hf : (Form.fms maj data k vx sz scope ord pol).fits) :
    (decMS maj data k vx sz scope ord pol).Reads (.fms maj data k vx sz scope ord pol) := by
  obtain ⟨-, hd, hk, hv, hz, hs, ho, hp⟩ := hf
  simp only [decMS, reads_val, Size.ofCode_some]
  intro z hz
  split <;> simp +contextual [Instr.wf, encodeForm.eq_def, toNat_kb, LdOrd.ofBits_some, StOrd.ofBits_some, *]
theorem decPF_reads (cnt k vx tier bo bound : Nat) (hf : (Form.fpf cnt k vx tier bo bound).fits) :
    (decPF cnt k vx tier bo bound).Reads (.fpf cnt k vx tier bo bound) := by
  obtain ⟨hc, hk, hv, -, hb, hbd⟩ := hf
  simp +contextual [decPF, Instr.wf, encodeForm.eq_def, toNat_kb, *]
theorem decAT_reads (maj d addr data sc op : Nat) (hf : (Form.fat maj d addr data sc op).fits) :
    (decAT maj d addr data sc op).Reads (.fat maj d addr data sc op) := by
  obtain ⟨-, hd, ha, hdt, hs, ho⟩ := hf
  have hw : (kb (op / 8)).toNat = op / 8 := toNat_kb _ (by omega)
  simp only [decAT, reads_val, Scope.ofCode_some]
  intro sc hsc
  split <;> simp +contextual [Instr.wf, encodeForm.eq_def, toNat_kb, AtomOp.ofCode_some, *]
  case h_2 => omega
theorem decSW_reads (d a b sm mn : Nat) (hf : (Form.fsw d a b sm mn).fits) : (decSW d a b sm mn).Reads (.fsw d a b sm mn) := by
  obtain ⟨hd, ha, hb, hs, -⟩ := hf
  unfold decSW
  split <;> simp +contextual [Instr.wf, encodeForm.eq_def, *]
theorem decJ_reads (jn sub imm : Nat) (hf : (Form.fj jn sub imm).fits) : (decJ jn sub imm).Reads (.fj jn sub imm) := by
  obtain ⟨hj, -, hi⟩ := hf
  unfold decJ
  split <;> simp +contextual [Instr.wf, encodeForm.eq_def, *]
/-- `IADD` with both fields 0 is the fixed pattern that is ILLEGAL, and `MOV` shares its number with the fixed pattern of `NOP` (R100). -/
theorem decH_reads (op d s : Nat) (hf : (Form.fh op d s).fits) : (decH op d s).Reads (.fh op d s) := by
  obtain ⟨-, hd, hs⟩ := hf
  unfold decH
  split
  any_goals simp +contextual [Instr.wf, encodeForm.eq_def, Src.ofCode16_some, *]
  case h_2 => exact fun h x _ hx => h.imp_right fun h0 hv => h0 (by rw [← hx, hv]; rfl)
  case h_9 =>
    split
    · simp [Instr.wf, encodeForm.eq_def, *]
    · simp +contextual [Instr.wf, encodeForm.eq_def, Src.ofCode16_some, *]
/-- Every form that fits its fields is read as an instruction encoded in it, or not at all. -/
theorem decForm_reads (f : Form) (hf : f.fits) : (decForm f).Reads f := by
  cases f with
  | fr maj d k a b mn =>
    obtain ⟨-, hd, hk, ha, hb, hmn⟩ := hf
    exact decR_reads maj d k a b mn hd hk ha hb hmn
  | fw => exact decW_reads _ _ _ _ _ hf
  | fcv maj d k a dt st rm =>
    obtain ⟨-, hd, hk, -⟩ := hf
    exact decCV_reads maj d k a hd hk dt st rm
  | fal => exact decAL_reads _ _ _ _ _ hf
  | fs => exact decS_reads _ _ _ _ hf
  | fmi => exact decMI_reads _ _ _ _ _ _ _ hf
  | fms => exact decMS_reads _ _ _ _ _ _ _ _ hf
  | fpf => exact decPF_reads _ _ _ _ _ _ hf
  | fat => exact decAT_reads _ _ _ _ _ _ hf
  | fsw => exact decSW_reads _ _ _ _ _ hf
  | fmx kab span tile slot fl kc =>
    obtain ⟨hk, hs, ht, hl, hf, hc⟩ := hf
    simp [decForm, Instr.wf, encodeForm.eq_def, toNat_kb, *]
  | fj => exact decJ_reads _ _ _ hf
  | fbr cm neg disp =>
    obtain ⟨hc, hn, hd⟩ := hf
    simp [decForm, Instr.wf, encodeForm.eq_def, toNat_kb, *]
  | fbs cm neg tdisp rdist =>
    obtain ⟨hc, hn, ht, hr⟩ := hf
    simp [decForm, Instr.wf, encodeForm.eq_def, toNat_kb, *]
  | fbu kc mode disp =>
    obtain ⟨hk, hm, hd⟩ := hf
    simp +contextual [decForm, Instr.wf, encodeForm.eq_def, UMode.ofCode_some, *]
  | fcl n8 disp =>
    obtain ⟨hn, hd⟩ := hf
    simp [decForm, Instr.wf, encodeForm.eq_def, *]
  | fyl kct kth cnt disp =>
    obtain ⟨hk, ht, hc, hd⟩ := hf
    simp +contextual [decForm, Instr.wf, encodeForm.eq_def, toNat_kb, *]
  | fh => exact decH_reads _ _ _ hf
  | bad => exact hf.elim

end Sys2Proof.Decoded
end

section
/-! PROOFS. A word is the word of the form it is cut into, unless a reserved bit of its format is set (R98, R101, R103). -/

namespace Sys2Proof

/-- A form that fits its fields and has the word `w`, or no form at all. -/
def Form.Cuts (f : Form) (w : Nat) : Prop := f = .bad ∨ f.fits ∧ f.word = w

section
variable (w : Nat) (hodd : w % 2 = 1) (hw : w < 4294967296)
include hodd hw

theorem formR_cuts (h : (1 ≤ fieldOf w 2 64 ∧ fieldOf w 2 64 ≤ 15) ∨ (18 ≤ fieldOf w 2 64 ∧ fieldOf w 2 64 ≤ 20) ∨ fieldOf w 2 64 = 22
    ∨ fieldOf w 2 64 = 23 ∨ fieldOf w 2 64 = 26 ∨ fieldOf w 2 64 = 27 ∨ (45 ≤ fieldOf w 2 64 ∧ fieldOf w 2 64 ≤ 47)
    ∨ fieldOf w 2 64 = 49) : (formR w).Cuts w := by
  simp only [formR, Form.Cuts, Form.fits, Form.word, fieldOf, reduceCtorEq, false_or] at *
  omega
theorem formW_cuts (h : fieldOf w 2 64 = 21 ∨ fieldOf w 2 64 = 28) : (formW w).Cuts w := by
  simp only [formW, Form.Cuts, Form.fits, Form.word, fieldOf, reduceCtorEq, false_or] at *
  omega
theorem formCV_cuts (h : fieldOf w 2 64 = 16 ∨ fieldOf w 2 64 = 17) : (formCV w).Cuts w := by
  simp only [formCV, Form.Cuts, Form.fits, Form.word, fieldOf, reduceCtorEq, false_or] at *
  omega
theorem formAL_cuts (h : fieldOf w 2 64 = 24) : (formAL w).Cuts w := by
  unfold formAL
  split
  · simp only [Form.Cuts, Form.fits, Form.word, fieldOf, reduceCtorEq, false_or] at *
    omega
  · exact .inl rfl
theorem formS_cuts (h : fieldOf w 2 64 = 25) : (formS w).Cuts w := by
  unfold formS
  split
  · simp only [Form.Cuts, Form.fits, Form.word, fieldOf, reduceCtorEq, false_or] at *
    omega
  · exact .inl rfl
theorem formMI_cuts (h : fieldOf w 2 64 = 32 ∨ fieldOf w 2 64 = 34 ∨ (36 ≤ fieldOf w 2 64 ∧ fieldOf w 2 64 ≤ 39)) : (formMI w).Cuts w := by
  simp only [formMI, Form.Cuts, Form.fits, Form.word, fieldOf, reduceCtorEq, false_or] at *
  omega
theorem formMS_cuts (h : fieldOf w 2 64 = 33 ∨ fieldOf w 2 64 = 35) : (formMS w).Cuts w := by
  simp only [formMS, Form.Cuts, Form.fits, Form.word, fieldOf, reduceCtorEq, false_or] at *
  omega
theorem formAT_cuts (h : 40 ≤ fieldOf w 2 64 ∧ fieldOf w 2 64 ≤ 42) : (formAT w).Cuts w := by
  simp only [formAT, Form.Cuts, Form.fits, Form.word, fieldOf, reduceCtorEq, false_or] at *
  omega
theorem formPF_cuts (h : fieldOf w 2 64 = 43) : (formPF w).Cuts w := by
  simp only [formPF, Form.Cuts, Form.fits, Form.word, fieldOf, reduceCtorEq, false_or] at *
  omega
theorem formSW_cuts (h : fieldOf w 2 64 = 44) : (formSW w).Cuts w := by
  simp only [formSW, Form.Cuts, Form.fits, Form.word, fieldOf, reduceCtorEq, false_or] at *
  omega
theorem formMX_cuts (h : fieldOf w 2 64 = 48) : (formMX w).Cuts w := by
  unfold formMX
  split
  · simp only [Form.Cuts, Form.fits, Form.word, fieldOf, reduceCtorEq, false_or] at *
    omega
  · exact .inl rfl
theorem formJ_cuts (h : fieldOf w 2 64 = 50) : (formJ w).Cuts w := by
  unfold formJ
  split
  · simp only [Form.Cuts, Form.fits, Form.word, fieldOf, reduceCtorEq, false_or] at *
    omega
  · exact .inl rfl
theorem formBR_cuts (h : fieldOf w 2 64 = 51) : (formBR w).Cuts w := by
  simp only [formBR, Form.Cuts, Form.fits, Form.word, fieldOf, reduceCtorEq, false_or] at *
  omega
theorem formBS_cuts (h : fieldOf w 2 64 = 52) : (formBS w).Cuts w := by
  simp only [formBS, Form.Cuts, Form.fits, Form.word, fieldOf, reduceCtorEq, false_or] at *
  omega
theorem formBU_cuts (h : fieldOf w 2 64 = 53) : (formBU w).Cuts w := by
  simp only [formBU, Form.Cuts, Form.fits, Form.word, fieldOf, reduceCtorEq, false_or] at *
  omega
theorem formCL_cuts (h : fieldOf w 2 64 = 54) : (formCL w).Cuts w := by
  unfold formCL
  split
  · simp only [Form.Cuts, Form.fits, Form.word, fieldOf, reduceCtorEq, false_or] at *
    omega
  · exact .inl rfl
theorem formYL_cuts (h : fieldOf w 2 64 = 55) : (formYL w).Cuts w := by
  simp only [formYL, Form.Cuts, Form.fits, Form.word, fieldOf, reduceCtorEq, false_or] at *
  omega
theorem form32_cuts : (form32 w).Cuts w := by
  unfold form32
  split
  any_goals exact formR_cuts w hodd hw (by omega)
  any_goals exact formW_cuts w hodd hw (by omega)
  any_goals exact formMI_cuts w hodd hw (by omega)
  any_goals exact formMS_cuts w hodd hw (by omega)
  any_goals exact formAT_cuts w hodd hw (by omega)
  any_goals exact formCV_cuts w hodd hw (by omega)
  next h => exact formAL_cuts w hodd hw h
  next h => exact formS_cuts w hodd hw h
  next h => exact formPF_cuts w hodd hw h
  next h => exact formSW_cuts w hodd hw h
  next h => exact formMX_cuts w hodd hw h
  next h => exact formJ_cuts w hodd hw h
  next h => exact formBR_cuts w hodd hw h
  next h => exact formBS_cuts w hodd hw h
  next h => exact formBU_cuts w hodd hw h
  next h => exact formCL_cuts w hodd hw h
  next h => exact formYL_cuts w hodd hw h
  · exact .inl rfl
end

theorem formH_cuts (w : Nat) (heven : w % 2 = 0) (hw : w < 65536) : (formH w).Cuts w := by
  simp only [formH, Form.Cuts, Form.fits, Form.word, fieldOf, reduceCtorEq, false_or] at *
  omega
theorem formOf_cuts (w : Nat) (hw : w < 2 ^ 32) : (formOf w).Cuts (if w % 2 = 0 then w % 65536 else w) := by
  unfold formOf
  split
  · exact formH_cuts _ (by omega) (by omega)
  · rw [Nat.mod_eq_of_lt (show w < 4294967296 from hw)]
    exact form32_cuts w (by omega) hw
/-- What a word decodes to is well formed and has that word. -/
theorem decodeWord_ok (w : Nat) (i : Instr) (hw : w < 2 ^ 32) (h : decodeWord w = .ok i) :
    i.wf = true ∧ ∃ f, encodeForm i = some f ∧ f.word = if w % 2 = 0 then w % 65536 else w := by
  rw [decodeWord] at h
  rcases formOf_cuts w hw with hbad | ⟨hfits, hword⟩
  · rw [hbad] at h; cases h
  · have hreads := Decoded.decForm_reads _ hfits
    rw [h, Decoded.reads_ok] at hreads
    exact ⟨hreads.1, _, hreads.2, hword⟩
/-- Halfwords after those of one instruction are left as they are. -/
theorem decodeHalves_append (l r : List (BitVec 16)) (i : Instr) (h : decodeHalves l = (.ok i, [])) : decodeHalves (l ++ r) = (.ok i, r) := by
  cases l with
  | nil => cases h
  | cons lo l =>
    by_cases even : lo.toNat % 2 = 0
    · simp only [decodeHalves, even, if_true] at h
      obtain ⟨hi, rfl⟩ := Prod.mk.inj h
      simp [decodeHalves, even, hi]
    · cases l with
      | nil => simp [decodeHalves, even] at h
      | cons hi l =>
        simp only [decodeHalves, even, if_false] at h
        obtain ⟨hi, rfl⟩ := Prod.mk.inj h
        simp [decodeHalves, even, hi]

end Sys2Proof
end

section
/-! PROOFS. O56: every instruction's round trip, from the lemma of its constructor, and the decoder's answers (R96-R123). -/

namespace Sys2Proof.Laws.RoundTrip

/-- The round trip of every constructor; an event has no word. -/
theorem statement (i : Instr) : Statement i := by
  cases i with
  | iadd => exact iadd _ _ _ _ | isub => exact isub _ _ _ _ | imul => exact imul _ _ _ _ | imulh => exact imulh _ _ _ _
  | imulhZ => exact imulhZ _ _ _ _ | imin => exact imin _ _ _ _ | iminZ => exact iminZ _ _ _ _ | imax => exact imax _ _ _ _
  | imaxZ => exact imaxZ _ _ _ _ | land => exact land _ _ _ _ | lor => exact lor _ _ _ _ | lxor => exact lxor _ _ _ _
  | shl => exact shl _ _ _ _ | shr => exact shr _ _ _ _ | sar => exact sar _ _ _ _ | iaddc => exact iaddc _ _ _ _
  | mov => exact mov _ _ _ | lnot => exact lnot _ _ _ | ineg => exact ineg _ _ _ | iabs => exact iabs _ _ _ | clz => exact clz _ _ _
  | popc => exact popc _ _ _ | brev => exact brev _ _ _ | fabs => exact fabs _ _ _ | fneg => exact fneg _ _ _ | frcp => exact frcp _ _ _
  | frsq => exact frsq _ _ _ | fsqrt => exact fsqrt _ _ _ | fexp2 => exact fexp2 _ _ _ | flog2 => exact flog2 _ _ _
  | fsin => exact fsin _ _ _ | fcos => exact fcos _ _ _ | fadd => exact fadd _ _ _ _ _ | fsub => exact fsub _ _ _ _ _
  | fmul => exact fmul _ _ _ _ _ | dadd => exact dadd _ _ _ _ _ | dmul => exact dmul _ _ _ _ _ | ffma => exact ffma _ _ _ _ _
  | dfma => exact dfma _ _ _ _ _ | hfma2 => exact hfma2 _ _ _ _ _ | imad => exact imad _ _ _ _ _ | bfi => exact bfi _ _ _ _ _
  | fmin => exact fmin _ _ _ _ | fmax => exact fmax _ _ _ _ | fclass => exact fclass _ _ _ | hadd2 => exact hadd2 _ _ _ _
  | fcmp => exact fcmp _ _ _ _ | icmp => exact icmp _ _ _ _ | cvt => exact cvt _ _ _ _ _ _ | cvtSat => exact cvtSat _ _ _ _ _ _
  | sel => exact sel _ _ _ _ _ | lea => exact lea _ _ _ _ _ | bfx => exact bfx _ _ _ _ _ | movi => exact movi _ _ _
  | movh => exact movh _ _ _ | k2v => exact k2v _ _ _ | v2k => exact v2k _ _ | pget => exact pget _ _ | pset => exact pset _
  | psetImm => exact psetImm _ | mmovMM => exact mmovMM _ _ | mmovMV => exact mmovMV _ _ | mmovVM => exact mmovVM _ _ _
  | mmovMK => exact mmovMK _ _ | mmovKM => exact mmovKM _ _ | mlogAnd => exact mlogAnd _ _ _ | mlogOr => exact mlogOr _ _ _
  | mlogXor => exact mlogXor _ _ _ | mlogAndn => exact mlogAndn _ _ _ | shfl => exact shfl _ _ _ _ _ | voteAny => exact voteAny _ _
  | voteAll => exact voteAll _ _ | voteBallot => exact voteBallot _ _ | rdxAdd => exact rdxAdd _ _ | rdxMin => exact rdxMin _ _
  | rdxMax => exact rdxMax _ _ | rdxFadd => exact rdxFadd _ _ | qbcast => exact qbcast _ _ _ _ | qswap => exact qswap _ _ _ _
  | qfill => exact qfill _ _ _ | amul => exact amul _ _ _ _ | amad => exact amad _ _ _ _ | aconj => exact aconj _ _ _
  | anorm => exact anorm _ _ _ | sread => exact sread _ _ _ | swrite => exact swrite _ _ _ | kadd => exact kadd _ _ _
  | ksub => exact ksub _ _ _ | kmul => exact kmul _ _ _ | kshf => exact kshf _ _ _ | kmov => exact kmov _ _
  | klogAnd => exact klogAnd _ _ _ | klogOr => exact klogOr _ _ _ | klogXor => exact klogXor _ _ _ | klogAndn => exact klogAndn _ _ _
  | kcmp => exact kcmp _ _ _ _ | kmovi => exact kmovi _ _ _ | ld => exact ld _ _ _ _ _ _ | ldMs => exact ldMs _ _ _ _ _ _
  | st => exact st _ _ _ _ _ _ | stMs => exact stMs _ _ _ _ _ | ldsp => exact ldsp _ _ _ _ _ | stsp => exact stsp _ _ _ _ _
  | kld => exact kld _ _ _ _ _ | kst => exact kst _ _ _ _ _ | atom => exact atom _ _ _ _ _ | cas => exact cas _ _ _ _ _ _
  | red => exact red _ _ _ _ _ | pref => exact pref _ _ _ _ _ _ | wput => exact wput _ _ _ | wget => exact wget _ _ _
  | wname => exact wname _ _ _ | wrefInc => exact wrefInc _ | wrefDec => exact wrefDec _ | wswap => exact wswap _ _ _ _
  | wcopy => exact wcopy _ _ | waitcmp => exact waitcmp _ _ _ _ | dqpush => exact dqpush _ _ | dqpop => exact dqpop _
  | tqpush => exact tqpush _ _ | tqpop => exact tqpop _ _ | srput => exact srput _ _ _ | srwait => exact srwait _ _
  | cwait => exact cwait _ _ | boarr => exact boarr _ | bowait => exact bowait _ | dcopy => exact dcopy _ _ _ | accz => exact accz _ _
  | accswap => exact accswap _ | accrd => exact accrd _ _ _ _ | accwr => exact accwr _ _ _ | atab => exact atab _ _
  | atabDefault => exact atabDefault _ | growRegs => exact growRegs _ | growTiles => exact growTiles _
  | shrinkRegs => exact shrinkRegs _ | shrinkTiles => exact shrinkTiles _ | rswitch => exact rswitch _ | mma => exact mma _ _ _ _ _ _
  | nop => exact nop | ret => exact ret | exit => exact exit | isync => exact isync | fence => exact fence _ | ofence => exact ofence
  | tfence => exact tfence _ | icinv => exact icinv _ | bkpt => exact bkpt | tret => exact tret | trap => exact trap _
  | bar => exact bar _ | jmpi => exact jmpi _ | jinit => exact jinit _ _ | jinitMask => exact jinitMask _ _ | jarr => exact jarr _
  | jwait => exact jwait _ | bra => exact bra _ _ _ | braRj => exact braRj _ _ _ _ | brau => exact brau _ _ _ | call => exact call _ _
  | yield => exact yield _ _ _ _ | iadd16 => exact iadd16 _ _ | isub16 => exact isub16 _ _ | and16 => exact and16 _ _
  | or16 => exact or16 _ _ | xor16 => exact xor16 _ _ | shl16 => exact shl16 _ _ | shr16 => exact shr16 _ _ | mov16 => exact mov16 _ _
  | movi16 => exact movi16 _ _ | fadd16 => exact fadd16 _ _ | fsub16 => exact fsub16 _ _ | fmul16 => exact fmul16 _ _
  | ffma16 => exact ffma16 _ _ | imad16 => exact imad16 _ _ | sel16 => exact sel16 _ _ | lea16 => exact lea16 _ _ | nop16 => exact nop16
  | _ => exact event _ rfl
theorem decode_encode_append (i : Instr) (r : List (BitVec 16)) (hw : i.wf = true) (hf : encodeForm i ≠ none) :
    decodeHalves (encode i ++ r) = (.ok i, r) := decodeHalves_append _ r i (statement i hw hf)

end Sys2Proof.Laws.RoundTrip

open Sys2Proof

/-- Settles O56: the round trip of each constructor, and the inversion of the decoder form by form. -/
theorem encodingRoundTrip : Obligations.EncodingRoundTrip :=
  ⟨Laws.RoundTrip.decode_encode_append, decodeWord_ok⟩
end

section
/-! PROOFS. O6 and O7: comparisons and the binary32 and binary16 instructions, by the moulds they are cast in (R109, R113, R379, R390). -/

namespace Sys2Proof.Machine

/-- A comparison whose operands pass the checks writes its bits and its flags. -/
theorem compare_runs (s : State) (p : Pass) (d : Nat) (a b : Src) (v : Lanes) (fl : BitVec 7) (h : LanePass s p)
    (g : Fields p false 0 0 [(a, 1), (b, 1)]) :
    MaskResult s (s.laneGuarded p [p.laneRole, p.srcReg a 1, p.srcReg b 1, p.fresh a, p.fresh b] (s.laneMask p d v fl)) p d p.act v fl := by
  rw [laneGuarded_if s p _ _ (g.imp id fun g => ?_) h.2.1]
  · exact s.laneMask_result p d p.act v fl h
  · have ga := g.2 (a, 1) (by simp)
    have gb := g.2 (b, 1) (by simp)
    simp [laneRole_ok p h.2.1, srcReg_ok p a 1 ga, fresh_ok p a 1 ga, srcReg_ok p b 1 gb, fresh_ok p b 1 gb]

end Sys2Proof.Machine

open Sys2Proof Sys2Proof.Machine

/-- Settles O6: both comparisons are one mask result, of the condition's bits. -/
theorem comparisons : Obligations.Comparisons := by
  unfold Obligations.Comparisons
  intro s p d a b h w
  refine ⟨fun c => ⟨_, s.withPass_some p _ h.1, ?_⟩, fun c => ⟨_, s.withPass_some p _ h.1, compare_runs s p d a b _ _ h w⟩⟩
  simp only [← icond_eq]
  exact compare_runs s p d a b _ 0 h w

/-- Settles O7: each instruction is the mould of its number of sources with the named operation. -/
theorem floatOperations : Obligations.FloatOperations := by
  unfold Obligations.FloatOperations
  intro s p d k a b h
  refine ⟨fun w => ⟨gives1_of h w rfl fun _ => rfl, givesF1_of h w rfl⟩, fun w => ⟨fun rm => ?_, ?_⟩, fun c w => ?_⟩
  · exact ⟨givesF2_of h w rfl, givesF2_of h w rfl, givesF2_of h w rfl⟩
  · exact ⟨givesF2_of h w rfl, givesF2_of h w rfl, givesF2_of h w rfl⟩
  · exact ⟨givesF3_of h w rfl, givesF3_of h w rfl⟩
end

section
/-! PROOFS. O13: the 16-bit instructions (R98-R100), each the mould of its 32-bit instruction with the implicit operands. -/

open Sys2Proof Sys2Proof.Machine

/-- Settles O13: each form is the mould of its 32-bit instruction, its values in the statement's arithmetic. -/
theorem shortForms : Obligations.ShortForms := by
  unfold Obligations.ShortForms
  intro s p d x h
  refine ⟨?mov, ?two, ?three, ?sel, ?lea, ?movi, ?nop⟩
  case mov => exact fun w => gives1_of (f := fun w => w) h w rfl fun _ => rfl
  case two =>
    intro w
    refine ⟨?add, ?sub, ?and, ?or, ?xor, ?shl, ?shr, givesF2_of h w rfl, givesF2_of h w rfl, givesF2_of h w rfl⟩
    case add => exact gives2_of (f := fun u w => u + w) h w rfl add_eq
    case sub => exact gives2_of (f := fun u w => u - w) h w rfl sub_eq
    case and => exact gives2_of (f := fun u w => u &&& w) h w rfl fun _ _ => rfl
    case or => exact gives2_of (f := fun u w => u ||| w) h w rfl fun _ _ => rfl
    case xor => exact gives2_of (f := fun u w => u ^^^ w) h w rfl fun _ _ => rfl
    case shl => exact gives2_of (f := fun u w => u <<< shAmount w) h w rfl shl_eq
    case shr => exact gives2_of (f := fun u w => u >>> shAmount w) h w rfl shr_eq
  case three => exact fun w => ⟨givesF3_of h w rfl, gives3_of (f := fun u w z => u * w + z) h w rfl imad_eq⟩
  case sel => exact sel_runs s p d false x (.v d) 1 h
  case lea =>
    intro w
    have hlea := lea_runs s p d false (.v d) x 2 h w
    simp only [lea_eq] at hlea
    exact hlea
  case movi =>
    intro w imm hi
    rw [← movi5_eq imm hi]
    exact const_runs s p d false _ h w
  case nop => exact ⟨_, s.withPass_some p _ h.1, s.endPass_result p h⟩
end

section
/-! PROOFS. O16: which lane a cross-lane instruction reads (R115, R417, R425). -/

namespace Sys2Proof.Machine

/-- Only the values of the pass's own lanes matter. -/
theorem LaneResult.congr {s t : State} {p : Pass} {d : Nat} {kb : Bool} {f g : Nat → W32} {fl : BitVec 7} (h : LaneResult s t p d kb f fl)
    (hfg : ∀ l ∈ p.lanes, f l = g l) : LaneResult s t p d kb g fl := by
  obtain ⟨k, only, rest, on, push, lanes, kept, masks, status⟩ := h
  exact ⟨k, only, rest, on, ⟨fun l hl => (push.top l hl).trans (by rw [hfg l hl]), push.first, push.again⟩,
    fun e l hl => (lanes e l hl).trans (hfg l hl), kept, masks, status⟩
/-- The index of the lane that `SHFL` reads in a mode (R425). -/
def shflIndex (mode l n : Nat) : Int :=
  match mode with
  | 0 => (n % 16 : Nat)
  | 1 => (l : Int) - n
  | 2 => (l : Int) + n
  | _ => (l ^^^ (n % 16) : Nat)
theorem shflLane_eq (mode l : Nat) (b : W32) (hl : l < 16) : shflLane mode l b =
    if 0 ≤ shflIndex mode l b.toNat ∧ shflIndex mode l b.toNat < 16 then (shflIndex mode l b.toNat).toNat else l := by
  have hx : l ^^^ (b.toNat % 16) < 2 ^ 4 := Nat.xor_lt_two_pow hl (Nat.mod_lt _ (by norm_num))
  rcases mode with _ | _ | _ | mode <;> simp only [shflLane, shflIndex]
  all_goals split_ifs <;> omega
theorem shfl_runs (s : State) (p : Pass) (d : Nat) (k : Bool) (a b : Src) (mode : Nat) (h : LanePass s p)
    (g : Fields p k d 1 [(a, 1), (b, 1)]) :
    Runs s (.shfl d k a b mode) fun t => LaneResult s t p d k (fun l => p.val32 a (shflLane mode l (p.val32 b l))) 0 := by
  refine ⟨_, s.withPass_some p _ h.1, ?_⟩
  rw [laneGuarded_if s p _ _ (g.imp id fun g => ?_) h.2.1]
  · exact s.lane32_result p d k _ 0 h
  · have ga := g.2 (a, 1) (by simp)
    have gb := g.2 (b, 1) (by simp)
    simp [laneRole_ok p h.2.1, dest_ok p k d 1 g.1, srcReg_ok p a 1 ga, fresh_ok p a 1 ga, srcReg_ok p b 1 gb, fresh_ok p b 1 gb]
theorem quadOp_runs (s : State) (p : Pass) (d : Nat) (k : Bool) (a : Src) (pre : Pass → List (Option Trap)) (f : Pass → Nat → Nat)
    (h : LanePass s p) (g : Fields p k d 1 [(a, 1)]) (hpre : ∀ x ∈ pre p, x = none) :
    ∃ t, quadOp s d k a pre f = .next t ∧ LaneResult s t p d k (fun l => p.val32 a (f p l)) 0 := by
  refine ⟨_, s.withPass_some p _ h.1, ?_⟩
  rw [s.guarded_ok p _ _ hpre, laneGuarded_if s p _ _ (g.imp id fun g => ?_) h.2.1]
  · exact s.lane32_result p d k _ 0 h
  · have ga := g.2 (a, 1) (by simp)
    simp [laneRole_ok p h.2.1, dest_ok p k d 1 g.1, srcReg_ok p a 1 ga, fresh_ok p a 1 ga]
/-- The lane `QFILL` reads: the lowest active lane of the quad. -/
def fillLane (p : Pass) (l : Nat) : Nat := ((p.lanes.filter fun x => quadOf x == quadOf l).head?).getD l
theorem lanes_sorted (p : Pass) : p.lanes.Pairwise (· < ·) := List.pairwise_lt_range.filter _
theorem fillLane_lowest (p : Pass) (l : Nat) (h : l ∈ p.lanes) :
    fillLane p l ∈ p.lanes ∧ fillLane p l / 4 = l / 4 ∧ ∀ m ∈ p.lanes, m / 4 = l / 4 → fillLane p l ≤ m := by
  have mem : ∀ m, m ∈ p.lanes.filter (fun x => quadOf x == quadOf l) ↔ m ∈ p.lanes ∧ m / 4 = l / 4 := by
    intro m; simp [quadOf]
  have sorted := (lanes_sorted p).filter fun x => quadOf x == quadOf l
  unfold fillLane
  generalize p.lanes.filter (fun x => quadOf x == quadOf l) = ls at *
  cases ls with
  | nil => exact absurd ((mem l).mpr ⟨h, rfl⟩) List.not_mem_nil
  | cons x xs =>
    obtain ⟨hx, hq⟩ := (mem x).mp List.mem_cons_self
    refine ⟨hx, hq, fun m hm hmq => ?_⟩
    rcases List.mem_cons.mp ((mem m).mpr ⟨hm, hmq⟩) with rfl | hxs
    · exact le_refl _
    · exact (List.rel_of_pairwise_cons sorted hxs).le

end Sys2Proof.Machine

open Sys2Proof Sys2Proof.Machine

/-- Settles O16: `SHFL` by the index of its mode, the quad instructions by the lane each of them names. -/
theorem shuffles : Obligations.Shuffles := by
  unfold Obligations.Shuffles
  intro s p d k a b h
  refine ⟨fun w mode hm => ?shfl, fun w => ⟨fun n hn => ?qbcast, fun n h1 hn => ?qswap, ?qfill⟩⟩
  case shfl =>
    obtain ⟨t, run, res⟩ := shfl_runs s p d k a b mode h w
    exact ⟨t, run, res.congr fun l hl => congrArg (p.val32 a) (shflLane_eq mode l (p.val32 b l) (lanes_lt p l hl))⟩
  case qbcast =>
    obtain ⟨t, run, res⟩ := quadOp_runs s p d k a (fun _ => []) (fun _ l => 4 * quadOf l + n) h w (by simp)
    exact ⟨t, run, res.congr fun l _ => by rw [quadOf, Nat.mul_comm]⟩
  case qswap =>
    exact quadOp_runs s p d k a _ (fun _ l => l ^^^ n) h w (by simp [whenBad]; omega)
  case qfill =>
    obtain ⟨t, run, res⟩ := quadOp_runs s p d k a (fun _ => []) fillLane h w (by simp)
    exact ⟨t, run, fillLane p, fillLane_lowest p, res⟩
end

section
/-! PROOFS. O8: when each mode counts one unit more, and where the count then lies (R108). -/

namespace Sys2Proof.Machine

/-- The remainders `r` of a division by `d` at which a mode counts one unit more. -/
def RaisedBy (rm : Rm) (neg odd : Bool) (r d : Nat) : Prop :=
  match rm with
  | .rne => d < 2 * r ∨ 2 * r = d ∧ odd = true
  | .rtz => False
  | .rup => r ≠ 0 ∧ neg = false
  | .rdn => r ≠ 0 ∧ neg = true
  | .rna => d ≤ 2 * r

theorem roundsUp_iff (rm : Rm) (neg odd : Bool) (r d : Nat) (hd : 0 < d) : roundsUp rm neg odd r d = true ↔ RaisedBy rm neg odd r d := by
  by_cases h : r = 0
  · cases rm <;> simp [roundsUp, RaisedBy, h] <;> omega
  · cases rm <;> simp [roundsUp, RaisedBy, h]
/-- Below the unit, a magnitude is divided by it, and the quotient raised by one where the mode says so. -/
theorem roundTo_of_lt (rm : Rm) (neg : Bool) (man : Nat) (exp u : Int) (h : exp < u) :
    roundTo rm neg man exp u =
      let e := 2 ^ (u - exp).toNat
      (man / e + (roundsUp rm neg (man / e % 2 == 1) (man % e) e).toNat, man % e != 0) := by
  unfold roundTo
  rw [if_neg (by omega)]
  cases up : roundsUp rm neg (man / 2 ^ (u - exp).toNat % 2 == 1) (man % 2 ^ (u - exp).toNat) (2 ^ (u - exp).toNat) <;> simp [up]
/-- A count that is the quotient, or one unit more where the mode raises it. -/
theorem raised_cases (rm : Rm) (neg : Bool) (man e q : Nat) (he : 0 < e)
    (hq : q = man / e + (roundsUp rm neg (man / e % 2 == 1) (man % e) e).toNat) :
    ¬ RaisedBy rm neg (man / e % 2 == 1) (man % e) e ∧ q = man / e ∧ q * e = man / e * e
      ∨ RaisedBy rm neg (man / e % 2 == 1) (man % e) e ∧ q = man / e + 1 ∧ q * e = man / e * e + e := by
  rw [← roundsUp_iff rm neg _ _ e he, hq]
  cases roundsUp rm neg (man / e % 2 == 1) (man % e) e <;> simp [Nat.add_mul]
/-- Where a mode puts the count `q` of units of `e` for a magnitude. -/
def CountedBy (rm : Rm) (neg : Bool) (man e q : Nat) : Prop :=
  match rm with
  | .rtz => q * e ≤ man ∧ man < q * e + e
  | .rup => if neg then q * e ≤ man ∧ man < q * e + e else man ≤ q * e ∧ q * e < man + e
  | .rdn => if neg then man ≤ q * e ∧ q * e < man + e else q * e ≤ man ∧ man < q * e + e
  | .rne => 2 * man ≤ 2 * (q * e) + e ∧ 2 * (q * e) ≤ 2 * man + e
      ∧ (2 * man = 2 * (q * e) + e ∨ 2 * (q * e) = 2 * man + e → q % 2 = 0)
  | .rna => 2 * man < 2 * (q * e) + e ∧ 2 * (q * e) ≤ 2 * man + e
theorem raised_counted (rm : Rm) (neg : Bool) (man e q : Nat) (he : 0 < e)
    (hq : q = man / e + (roundsUp rm neg (man / e % 2 == 1) (man % e) e).toNat) : CountedBy rm neg man e q := by
  have hcount := raised_cases rm neg man e q he hq
  have hlt : man % e < e := Nat.mod_lt _ he
  have hman : man / e * e + man % e = man := Nat.div_add_mod' man e
  clear hq
  unfold CountedBy
  generalize man / e * e = P at *
  generalize man / e = n at *
  generalize man % e = r at *
  generalize q * e = Q at *
  simp only [beq_iff_eq, RaisedBy] at hcount
  cases rm with
  | rne => exact ⟨by omega, by omega, by omega⟩
  | rtz => simp at hcount; omega
  | rup => cases neg <;> simp at hcount ⊢ <;> omega
  | rdn => cases neg <;> simp at hcount ⊢ <;> omega
  | rna => exact ⟨by omega, by omega⟩

end Sys2Proof.Machine

open Sys2Proof Sys2Proof.Machine

/-- Settles O8: the quotient, raised by one where the mode says so, counts the unit below or above the magnitude. -/
theorem roundingModes : Obligations.RoundingModes := by
  unfold Obligations.RoundingModes
  intro rm neg man exp u h e q
  have hround : roundTo rm neg man exp u
      = (man / e + (roundsUp rm neg (man / e % 2 == 1) (man % e) e).toNat, man % e != 0) := roundTo_of_lt rm neg man exp u h
  have hq : q = man / e + (roundsUp rm neg (man / e % 2 == 1) (man % e) e).toNat := congrArg Prod.fst hround
  refine ⟨by rw [hround]; simp, fun h0 => ?_, raised_counted rm neg man e q (Nat.two_pow_pos _) hq⟩
  have down : roundsUp rm neg (man / e % 2 == 1) 0 e = false := rfl
  rw [hq, h0, down]
  exact Nat.div_mul_cancel (Nat.dvd_of_mod_eq_zero h0)
end

section
/-! PROOFS. O18: the algebra instructions over the core's table (R144, R150-R154, R346, R353). -/

namespace Sys2Proof.Machine

/-- An element field that is aligned and ends inside the registers of the instruction set. -/
theorem element_ok (p : Pass) (r n : Nat) (h0 : r % n = 0) (h64 : r + n ≤ 64) : p.element r n = none := by
  simp [Pass.element, whenBad, h0, h64]
/-- The result of an algebra instruction of dimension `n`: one register that is pushed, or an element. -/
theorem algebraOut_result (s : State) (p : Pass) (d n : Nat) (f : Nat → Nat → W32) (fl : BitVec 7) (h : LanePass s p)
    (hn : n ≤ p.sk.win.allot) :
    if n = 1 then LaneResult s (algebraOut s p d n f fl) p d false (fun l => f l 0) fl else ElementResult s (algebraOut s p d n f fl) p d n f fl := by
  unfold algebraOut
  split
  · exact s.lane32_result p d false _ fl h
  · exact s.element_result p d n f fl h hn
/-- An operand field of an algebra instruction of dimension `n`. -/
def ElementOk (p : Pass) (n r : Nat) : Prop := r % n = 0 ∧ r + n ≤ 64 ∧ RegOk p r n
theorem algebra2_runs (s : State) (p : Pass) (d a b slot : Nat) (f : Pass → List Nat → Nat → Nat → Nat × BitVec 7) (h : LanePass s p)
    (hn : tableDim (p.table s slot) ≤ p.sk.win.allot)
    (g : p.em = 0 ∨ ElementOk p (tableDim (p.table s slot)) d ∧ ElementOk p (tableDim (p.table s slot)) a
      ∧ ElementOk p (tableDim (p.table s slot)) b) :
    ∃ u, algebra2 s d a b slot f = .next u ∧
      let t := p.table s slot
      let n := tableDim t
      let fl := flagsOf p.lanes fun l => flagsOf (List.range n) fun k => (f p t l k).2
      if n = 1 then LaneResult s u p d false (fun l => BitVec.ofNat 32 (f p t l 0).1) fl
      else ElementResult s u p d n (fun l k => BitVec.ofNat 32 (f p t l k).1) fl := by
  refine ⟨_, s.withPass_some p _ h.1, ?_⟩
  rw [laneGuarded_if s p _ _ (g.imp id fun g => ?_) h.2.1]
  · exact algebraOut_result s p d _ _ _ h hn
  · obtain ⟨⟨d0, d64, hd⟩, ⟨a0, a64, ha⟩, b0, b64, hb⟩ := g
    simp [laneRole_ok p h.2.1, element_ok, reg_ok, *]

end Sys2Proof.Machine

open Sys2Proof Sys2Proof.Machine

/-- Settles O18: the two products by their common mould, `ACONJ` as an element, `ANORM` as one register. -/
theorem algebra : Obligations.Algebra := by
  unfold Obligations.Algebra
  intro s p d a b slot h t n fits hn
  refine ⟨fun w => ⟨?amul, ?amad⟩, fun w => ?aconj, fun w => ?anorm⟩
  case amul => exact algebra2_runs s p d a b slot (fun p t l k => amulOf p t a b l k) h hn w
  case amad => exact algebra2_runs s p d a b slot (fun p t l k => amadOf p t d a b l k) h hn w
  case aconj =>
    refine ⟨_, s.withPass_some p _ h.1, ?_⟩
    rw [laneGuarded_if s p _ _ (w.imp id fun g => ?_) h.2.1]
    · exact algebraOut_result s p d n _ 0 h hn
    · obtain ⟨⟨d0, d64, hd⟩, a0, a64, ha⟩ := g
      simp [laneRole_ok p h.2.1, element_ok, reg_ok, n, t, *]
  case anorm =>
    refine ⟨_, s.withPass_some p _ h.1, ?_⟩
    rw [laneGuarded_if s p _ _ (w.imp id fun g => ?_) h.2.1]
    · exact s.lane32_result p d false _ _ h
    · obtain ⟨⟨a0, a64, ha⟩, hd⟩ := g
      simp [laneRole_ok p h.2.1, element_ok, reg_ok, n, t, *]
end

section
/-! PROOFS. O12: conversions (R110, R148, R366): the mould of both forms, and what an integer type holds of an integer. -/

namespace Sys2Proof.Machine

/-- What an integer type keeps of an integer: the value modulo `2^w`, with its sign above it where the type has one. -/
theorem placeInt_eq (w : Nat) (sg : Bool) (v : Int) (hw : 0 < w) :
    placeInt w sg v = if sg then (BitVec.ofInt w v).signExtend 64 else (BitVec.ofInt w v).setWidth 64 := by
  have hbits : toBits w v = (BitVec.ofInt w v).toNat := (BitVec.toNat_ofInt ..).symm
  have hint : signed w (BitVec.ofInt w v).toNat = (BitVec.ofInt w v).toInt := by
    rw [signed_eq_toInt w _ hw (BitVec.isLt _), BitVec.ofNat_toNat, BitVec.setWidth_eq]
  simp only [placeInt, hbits, hint, BitVec.signExtend, BitVec.ofNat_toNat]
theorem placeInt_low (w : Nat) (sg : Bool) (v : Int) (hw : 0 < w) (h64 : w ≤ 64) : (placeInt w sg v).setWidth w = BitVec.ofInt w v := by
  rw [placeInt_eq w sg v hw]
  cases sg
  · simp [BitVec.setWidth_setWidth_of_le _ h64]
  · apply BitVec.eq_of_getLsbD_eq
    intro i hi
    rw [if_pos rfl, BitVec.getLsbD_setWidth, BitVec.getLsbD_signExtend]
    simp [hi, show i < 64 by omega]
theorem intLow_eq (w : Nat) (sg : Bool) : intLow w sg = if sg then -2 ^ (w - 1) else 0 := by simp [intLow]
theorem intHigh_eq (w : Nat) (sg : Bool) : intHigh w sg = if sg then 2 ^ (w - 1) - 1 else 2 ^ w - 1 := by simp [intHigh]
theorem intLow_le_intHigh (w : Nat) (sg : Bool) : intLow w sg ≤ intHigh w sg := by
  have half : (0 : Int) < 2 ^ (w - 1) := by positivity
  have full : (0 : Int) < 2 ^ w := by positivity
  rw [intLow_eq, intHigh_eq]
  split <;> omega
/-- A value in a type's range is held as it is. -/
theorem placeInt_fits (w : Nat) (sg : Bool) (v : Int) (hw : 0 < w) (hl : intLow w sg ≤ v) (hh : v ≤ intHigh w sg) :
    placeInt w sg v = BitVec.ofInt 64 v := by
  have hpow : (2 : Int) ^ w = 2 * 2 ^ (w - 1) := by rw [← pow_succ']; congr 1; omega
  rw [intLow_eq] at hl
  rw [intHigh_eq] at hh
  rw [placeInt_eq w sg v hw]
  cases sg
  · simp only [Bool.false_eq_true, if_false] at hl hh ⊢
    have hmod : v % 2 ^ w = v := Int.emod_eq_of_lt hl (by omega)
    apply BitVec.eq_of_toNat_eq
    simp [BitVec.toNat_ofInt, hmod]
    omega
  · simp only [if_true] at hl hh ⊢
    rw [BitVec.signExtend, BitVec.toInt_ofInt, Int.bmod_eq_of_le] <;> push_cast <;> omega
theorem cvtKind_int (t : CvtTy) (w : Nat) (sg : Bool) (h : cvtKind t = .int w sg) : 0 < w ∧ w ≤ 64 := by
  cases t <;> cases h <;> decide
/-- The integer that an integer type reads in a register. -/
theorem intValue_eq (w : Nat) (sg : Bool) (x : W64) (hw : 0 < w) :
    (if sg then signed w (x.toNat % 2 ^ w) else ((x.toNat % 2 ^ w : Nat) : Int))
      = if sg then (x.setWidth w).toInt else ((x.setWidth w).toNat : Int) := by
  rw [signed_eq_toInt w _ hw (Nat.mod_lt _ (Nat.two_pow_pos w)), ← BitVec.toNat_setWidth, BitVec.ofNat_toNat, BitVec.setWidth_eq]
theorem cvtOf_ints (sat : Bool) (dt st : CvtTy) (rm : Rm) (x : W64) (w w' : Nat) (sg sg' : Bool) (hs : cvtKind st = .int w sg)
    (hd : cvtKind dt = .int w' sg') :
    (cvtOf sat dt st rm x).1 =
      let v : Int := if sg then (x.setWidth w).toInt else (x.setWidth w).toNat
      placeInt w' sg' (if sat then max (intLow w' sg') (min v (intHigh w' sg')) else v) := by
  have hv := intValue_eq w sg x (cvtKind_int st w sg hs).1
  have hle := intLow_le_intHigh w' sg'
  simp only [cvtOf, hs, hd, hv]
  generalize (if sg then (x.setWidth w).toInt else ((x.setWidth w).toNat : Int)) = v
  cases sat
  · split <;> rfl
  · simp only [if_true]
    split
    next hin => rw [min_eq_left hin.2, max_eq_right hin.1]
    next hout =>
      show placeInt w' sg' _ = placeInt w' sg' _
      congr 1
      split <;> omega
/-- Fields of a conversion: registers of the types' widths below the reach, pairs even (R366). -/
def CvtFields (p : Pass) (d : Nat) (k : Bool) (a : Src) (dt st : CvtTy) : Prop :=
  p.em = 0 ∨ (DestOk p k d (if wideTy dt then 2 else 1) ∧ SrcOk p a (if wideTy st then 2 else 1)
    ∧ (wideTy dt = true → k = true ∨ d % 2 = 0) ∧ (wideTy st = true → SrcEven a))
theorem cvtWith_runs (sat : Bool) (s : State) (p : Pass) (d : Nat) (k : Bool) (a : Src) (dt st : CvtTy) (rm : Rm) (h : LanePass s p)
    (hne : dt ≠ st) (g : CvtFields p d k a dt st) :
    ∃ t, cvtWith sat d k a dt st rm s = .next t ∧
      let x (l : Nat) : W64 := if wideTy st then p.val64 a l else (p.val32 a l).setWidth 64
      let r (l : Nat) : W64 × BitVec 7 := cvtOf sat dt st rm (x l)
      if wideTy dt then PairResult s t p d k (fun l => (r l).1) (flagsOf p.lanes fun l => (r l).2)
      else LaneResult s t p d k (fun l => (r l).1.setWidth 32) (flagsOf p.lanes fun l => (r l).2) := by
  refine ⟨_, s.withPass_some p _ h.1, ?_⟩
  rw [s.guarded_ok p _ _ (by simp [whenBad, hne]), laneGuarded_if s p _ _ (g.imp id fun g => ?_) h.2.1]
  · cases wideTy dt
    · exact s.lane32_result p d k _ _ h
    · exact s.lane64_result p d k _ _ h
  · obtain ⟨hd, ha, de, ae⟩ := g
    have hde : (if wideTy dt then p.destEven k d else none) = none := by split <;> simp_all [destEven_ok]
    have hae : (if wideTy st then p.srcEven a else none) = none := by split <;> simp_all [srcEven_ok]
    simp [laneRole_ok p h.2.1, hde, hae, dest_ok p k d _ hd, srcReg_ok p a _ ha, fresh_ok p a _ ha]

end Sys2Proof.Machine

open Sys2Proof Sys2Proof.Machine

/-- Settles O12: the mould of both forms, and integers placed in a type modulo `2^w` or inside its range. -/
theorem conversion : Obligations.Conversion := by
  unfold Obligations.Conversion
  refine ⟨?result, ?nan, ?int⟩
  case result =>
    intro s p d k a dt st rm h hne g sat
    cases sat
    · exact cvtWith_runs false s p d k a dt st rm h hne g
    · exact cvtWith_runs true s p d k a dt st rm h hne g
  case nan =>
    intro sat dt st rm x f w sg g hs hd hn
    simp only [cvtOf, hs, hd, hn]
  case int =>
    intro dt st rm x w w' sg sg' hs hd v
    obtain ⟨hw, h64⟩ := cvtKind_int dt w' sg' hd
    rw [cvtOf_ints false dt st rm x w w' sg sg' hs hd, cvtOf_ints true dt st rm x w w' sg sg' hs hd]
    refine ⟨placeInt_low w' sg' v hw h64, ?_⟩
    rw [← intLow_eq, ← intHigh_eq]
    exact placeInt_fits w' sg' _ hw (le_max_left ..) (max_le (intLow_le_intHigh w' sg') (min_le_right ..))
end

section
/-! PROOFS. O57: words of the formats bit by bit, and the 16-bit words that are no instruction (R96-R103, R123). -/

namespace Sys2Proof

/-- A 5-bit source code with both high bits set names no source (R98). -/
theorem Src.ofCode16_high (s : Nat) (h : 24 ≤ s) : Src.ofCode16 s = none := by
  unfold Src.ofCode16
  rw [if_neg (by omega), if_neg (by omega)]
/-- With such a source field only `MOVI` and the pattern of `NOP` are instructions (R100). -/
theorem decH_high (op d s : Nat) (hs : 24 ≤ s) (hop : op ≠ 8) (hnop : ¬ (op = 7 ∧ d = 0 ∧ s = 31)) :
    decH op d s = .illegal .encoding .any := by
  have hsrc (f : Src → Decoded) : Decoded.val (Src.ofCode16 s) f = .illegal .encoding .any := by rw [Src.ofCode16_high s hs]; rfl
  unfold decH
  split
  · exact absurd rfl hop
  · rw [hsrc]; simp [Decoded.enc]
  any_goals exact hsrc _
  · rw [if_neg fun h => hnop ⟨rfl, h⟩, hsrc]
  · rfl
theorem decodeWord_high (w : Nat) (hw : w < 2 ^ 16) (he : w % 2 = 0) (h3 : w / 2 ^ 14 = 3) (hop : w / 2 % 16 ≠ 8) (hnop : w ≠ 0xF80E) :
    decodeWord w = .illegal .encoding .any := by
  rw [decodeWord, formOf, if_pos he, Nat.mod_eq_of_lt (show w < 65536 from hw)]
  exact decH_high _ _ _ (by simp only [fieldOf]; omega) hop (by simp only [fieldOf]; omega)
/-- Bit 0 of the first halfword gives an instruction's length, and that many halfwords are consumed (R96). -/
theorem decodeHalves_length (lo hi : BitVec 16) (r : List (BitVec 16)) :
    (lo.toNat % 2 = 0 → lengthOf lo.toNat = 2 ∧ (decodeHalves (lo :: r)).2 = r)
    ∧ (lo.toNat % 2 = 1 → lengthOf lo.toNat = 4 ∧ (decodeHalves (lo :: hi :: r)).2 = r) := by
  constructor <;> intro h <;> simp [lengthOf, decodeHalves, h]

end Sys2Proof

open Sys2Proof Sys2Proof.Machine

/-- Settles O57: each word written out is decoded by evaluation; the rest is what the decoder's length bit and source field say. -/
theorem specWords : Obligations.SpecWords := by
  unfold Obligations.SpecWords
  refine ⟨by decide, by decide, by decide, by decide, by decide, by decide, by decide, by decide, by decide, by decide, by decide, by decide,
    decodeHalves_length, decodeWord_high, fun s p => ⟨fun h => ?skein, fun h => ?coach, fun h => ?illegal⟩⟩
  case skein => exact ⟨_, s.withPass_some p _ h.1, s.endPass_result p h⟩
  case coach => exact (s.withPass_some p _ h.1).trans (by simp [State.endPass, h.2])
  case illegal => exact s.withPass_some p _ h
end
